-- ==== Sys2Proof/Word.lean ====
section
/-!
DEFINITION. The word types of the SD960, their plainest arithmetic, and the plain-data operand types that the
commands carry. Plans, image headers and engine-step operands stand for objects whose byte layout the spec leaves
to the offline compiler Hjelbum (spec/01, *What is decided offline and what at run time*); assumption 3.
-/

namespace Sys2Proof

abbrev Byte := BitVec 8
abbrev W16 := BitVec 16
abbrev W32 := BitVec 32
abbrev W64 := BitVec 64
/-- A C48 value of the accumulator file (R59). -/
abbrev C48 := BitVec 48

/-- A store the host has made to its own memory and that the part observes (R239); `poison` marks lines that the
host returns with the CXL poison indication (R243). -/
structure HostStore where
  addr : Nat
  data : List Byte
  poison : Bool := false
  deriving DecidableEq, Repr

/-- What a voice image's header tells the part (R3, R53, R63, R65, R425). -/
structure ImageHdr where
  /-- the Sodun member the image was built for; 960 is this part (R3) -/
  target : Nat := 960
  /-- bytes of the image in the well -/
  bytes : Nat := 0
  /-- for rank r of a SPLIT group, the (offset, length) of its share (Table 11.5, RESIDE) -/
  parts : List (Nat × Nat) := []
  /-- FP32 calibration maxima, by CAL_INDEX -/
  calMax : List W32 := []
  gsumPresent : Bool := false
  deriving DecidableEq, Repr

/-- A pump descriptor's 64 bytes, or any other raw block. -/
abbrev Block := List Byte

/-- WIDE_SRC of a plan header (R89). -/
inductive WideSrc where
  | absent | region | decode
  deriving DecidableEq, Repr

/-- Operand pairings of the M-engine (R49). -/
inductive Pairing where
  | b4a8 | w8a8 | bf16
  deriving DecidableEq, Repr

/-- Where a V-engine step reads its row (Table 4.3). -/
inductive RowSrc where
  /-- C48 values of the accumulator share from a lane of an entry row on, row after row -/
  | acc (row lane : Nat)
  | fp32 (off : Nat)
  | bf16 (off : Nat)
  /-- A8 codes as they are; only ARGMAX compares codes (R185) -/
  | a8 (off : Nat)
  /-- A8 codes of a data block, decoded under a token of the scale block it pairs with (R82 to R85) -/
  | a8block (off scaleBlock token trailer : Nat)
  deriving DecidableEq, Repr

/-- Where the products of the M-engine take their weights (R63 to R65). Offsets count from the context region unless
`image` is a handle of the plan's header (R421). A tile holds 64 columns of as many K values as the larger of a slice
and a group; tiles lie one after the other in each section. -/
structure Weights where
  pair : Pairing
  /-- GSIZE: G is 16 × 2^GSIZE; 0 for BF16 (R64) -/
  gsize : Nat := 3
  image : Option Nat := none
  codeOff : Nat
  scaleOff : Nat := 0
  gsumOff : Nat := 0
  zpZero : Bool := false
  deriving DecidableEq, Repr

/-- Where a drawing step takes its random bits (Table 9.3) and for which elements. -/
structure DrawOp where
  desc : Block := []
  /-- token slot (LANE, SLOT; and whose TEMP) -/
  slot : Nat := 0
  /-- logical token index, counted from the chunk's first sample in a chunk (ELEMENT) -/
  t : Nat := 0
  /-- logical channel of the row's first value (R197) -/
  base : Nat := 0
  deriving DecidableEq, Repr

/-- The narrow format a narrowing step writes: A8 at a scale point, or B4 or W8 under a given BF16 group scale. -/
inductive NarrowFmt where
  | a8
  | b4 (scale : W16)
  | w8 (scale : W16)
  deriving DecidableEq, Repr

/-- Consecutive values that a narrowing takes and where their codes go; `pads` codes of +0 follow them (R168); `keep` is
the line buffer that receives the values as BF16 (R178). -/
structure NarrowPiece where
  src : RowSrc
  width : Nat
  out : Nat
  pads : Nat := 0
  keep : Option Nat := none
  deriving DecidableEq, Repr

/-- The data block that a narrowed token belongs to (R83, R84): its place, its rows, its tokens, the index of its stream
in TAG_BASE, and whether this token completes it. -/
structure DataBlock where
  base : Nat
  rows : Nat
  tokens : Nat
  stream : Nat
  complete : Bool := false
  deriving DecidableEq, Repr

/-- One narrowing of one token (R72 to R85): its values in order, which share one scale token. -/
structure NarrowOp where
  fmt : NarrowFmt := .a8
  pieces : List NarrowPiece
  point : Nat := 0
  /-- token slot: history block and draws -/
  slot : Nat := 0
  srBits : Nat := 0
  draw : DrawOp := {}
  /-- scale block that receives s_a and zp, and the token's index in it (R82) -/
  scaleBlock : Nat := 0
  token : Nat := 0
  /-- the data block, whose layout places the codes; none for a tensor of R167 -/
  block : Option DataBlock := none
  deriving DecidableEq, Repr

/-- One token's K slice for the M-engine (R66-R69). Offsets count from the slot's context region (R421). -/
structure MSlice where
  w : Weights
  /-- token slot, in a loop -/
  slot : Option Nat := none
  /-- accumulator entry row, relative to the slot's accumulator share (R23) -/
  entry : Nat
  /-- first slice of the product: the entry starts at +0 -/
  first : Bool := false
  /-- activation codes (A8) or BF16 values of the slice -/
  actOff : Nat
  /-- scale point whose token the activations are; none for A8 that the host supplies (R76) -/
  point : Option Nat := none
  /-- scale block and token of the activations (Table 4.5), and the trailer of their data block (Table 4.6) -/
  scaleBlock : Nat := 0
  token : Nat := 0
  trailer : Nat := 0
  /-- first K slice that the core takes of this data block (R85) -/
  opens : Bool := false
  /-- W8 with G = 128: whether this slice completes the group (Table 3.7) -/
  second : Bool := true
  final : Bool := false
  /-- what the output stage narrows after a FINAL slice (R67) -/
  narrow : Option NarrowOp := none
  /-- in a widened run with WIDE_SRC a region: where the slice's wide values lie; none decodes the A8 codes (R89) -/
  wide : Option RowSrc := none
  deriving DecidableEq, Repr

/-- An A-gen convolution step: the parameter block and the output position and column tile of it that this step
computes. -/
structure ConvOp where
  block : Block
  w : Weights
  /-- scale point of an A8 input, and the scale block and token that NARROW wrote for the stripe (R177) -/
  point : Option Nat := none
  scaleBlock : Nat := 0
  token : Nat := 0
  /-- output position, column tile and first entry row -/
  n : Nat := 0
  ho : Nat := 0
  wo : Nat := 0
  tile : Nat := 0
  entry : Nat := 0
  /-- the entry starts at +0; else at what it holds -/
  first : Bool := true
  /-- in a widened run with WIDE_SRC a region: base of the wide input in the same layout; none decodes the codes (R90) -/
  wide : Option RowSrc := none
  /-- the outputs are stored in the output tensor as BF16; an A8 tensor is written by NARROW at its scale point -/
  store : Bool := false
  /-- in a chunk: sample of the stream, counted from the chunk's first, at input position 0 and at output position 0,
  and samples per position (R111) -/
  inAt : Int := 0
  inStep : Nat := 1
  outAt : Int := 0
  outStep : Nat := 1
  deriving DecidableEq, Repr

structure ArgmaxOp where
  src : RowSrc
  channels : Nat
  outOff : Nat
  /-- where the winner's value goes, in its own format -/
  valueOff : Option Nat := none
  deriving DecidableEq, Repr

structure GumbelOp where
  src : RowSrc
  channels : Nat
  draw : DrawOp
  outOff : Nat
  deriving DecidableEq, Repr

/-- One box of a crop step. -/
structure CropOp where
  block : Block
  box : Nat
  deriving DecidableEq, Repr

/-- One query row and head of the attention kernel (R134 to R136). In a lateral group it is one block of it: of the own
shard, or of the shard that has come `hop` hops along the ring (R158, R159). -/
structure AttnOp where
  /-- index of the binding in the command's list -/
  binding : Nat
  layer : Nat
  head : Nat
  headDim : Nat
  /-- KV head that the query head reads -/
  kvHead : Nat
  /-- query position counted within the binding -/
  query : Nat
  /-- the query row, BF16, in the context region -/
  qOff : Nat
  smScale : C48
  outEntry : Nat := 0
  /-- in a lateral group: LOGICAL_SEQ of the row, logical position of the own sequence's position 0, the hop, the
  SHARD_BLOCK number, and the blocks of the shard (R158) -/
  logical : Nat := 0
  posBase : Nat := 0
  hop : Nat := 0
  shardBlock : Nat := 0
  shardBlocks : Nat := 0
  /-- in a lateral group: divide and write the row after this block -/
  last : Bool := false
  /-- in a CANONICAL group: where the partials lie in the context region (R160) -/
  partials : Nat := 0
  deriving DecidableEq, Repr

/-- Where a lateral WRITE goes: a device on KV or ACT, or a multicast group (R151, R162, R163). -/
structure LatDest where
  dev : Nat := 0
  act : Bool := true
  mcast : Option Nat := none
  /-- a message of the sender's lateral group (R155) -/
  group : Bool := false
  deriving DecidableEq, Repr

/-- What a write carries. -/
inductive WriteSrc where
  /-- no data: a float alone -/
  | nothing
  /-- bytes of the writer's own context region -/
  | region (off len : Nat)
  /-- a block of the own shard with its header (R158): its number, its LOGICAL_SEQ, and the logical position of its
  sequence's position 0. It goes to its receive slot in the successor's SHARD_BUF, which `dst` names -/
  | shard (index logical posBase : Nat)
  /-- the block in a receive slot, passed on to the next member: hop and number, and the blocks of its shard (R158) -/
  | pass (hop index blocks : Nat)
  deriving DecidableEq, Repr

/-- A remote write transaction (R34, R35, R39), or a lateral WRITE (R152). -/
structure RemoteWrite where
  src : WriteSrc
  /-- cistern-space address; in the destination device for a lateral WRITE -/
  dst : Nat
  float : W16 := 0
  inc : W16 := 0
  lat : Option LatDest := none
  deriving DecidableEq, Repr

/-- The state update of R95 steps 1 (biases), 2 and 3: rows of 64 values per token slot, and first entry rows of slot
0's a_z, a_r and a_n; the biases are rows of as many values. -/
structure GateOp where
  rows : Nat
  az : Nat
  ar : Nat
  an : Nat
  bz : Option RowSrc := none
  br : Option RowSrc := none
  bn : Option RowSrc := none
  deriving DecidableEq, Repr

/-- A frame of conditioning that the pump brings into the context region (R102): that of the sample `t` after the slot's
next one, or after the chunk's first, and `ahead` frames on. -/
structure FrameOp where
  slot : Nat := 0
  t : Nat := 0
  ahead : Nat := 0
  off : Nat
  deriving DecidableEq, Repr

/-- One step of one rank of a plan. -/
inductive PlanStep where
  | matmul (op : MSlice)
  | narrow (op : NarrowOp)
  /-- STEP word (R94); the token slot whose state it works on, in a loop -/
  | recur (slot : Option Nat) (word : W64)
  | conv (op : ConvOp)
  | crop (op : CropOp)
  | argmax (op : ArgmaxOp)
  | gumbel (op : GumbelOp)
  | noise (srcRow outRow : Nat)
  | gate (op : GateOp)
  | attention (op : AttnOp)
  | floatWait (float : Nat) (target : W32)
  | pump (desc : Block)
  | frame (op : FrameOp)
  | siphon (off len dst : Nat) (float inc : W16)
  | write (w : RemoteWrite)
  | read (addr len : Nat)
  deriving DecidableEq, Repr

/-- Where a lane's sample of a loop step lies: rank, and row source whose first value it is (R95 step 7). -/
structure SampleSrc where
  lane : Nat
  rank : Nat
  src : RowSrc
  deriving DecidableEq, Repr

/-- A plan header and its steps (R15, R21, R43, R72, R89, R94, R96, R102, R108, R111, R124, R196, R202, R271, R333). -/
structure Plan where
  target : Nat := 960
  split : Nat := 1
  /-- a fixed FIRST_CORE, or none for ANY -/
  firstCore : Option Nat := none
  images : List Nat := []
  drawClass : Nat := 1
  arms : List Nat := []
  scalePoints : List W64 := []
  tokens : Nat := 1
  wideSrc : WideSrc := .absent
  stagingOff : Nat := 0
  stagingBytes : Nat := 0
  stateBase : Nat := 0
  stateRows : Nat := 0
  stateInit : C48 := 0
  lookahead : Nat := 0
  lanesMax : Nat := 64
  tempOff : Option Nat := none
  posOff : Nat := 0
  reachLeft : Nat := 0
  reachRight : Nat := 0
  queryHeads : Nat := 1
  producers : Nat := 0
  /-- total query count of the plan's lateral group (R161) -/
  groupQueries : Nat := 0
  pumpClass : Nat := 0
  /-- the steps of each rank, in order (R424); in a loop those of one loop step -/
  steps : List (List PlanStep) := []
  /-- writes of the commit: rank and write, in order (R44) -/
  commit : List (Nat × RemoteWrite) := []
  /-- where a chunk's samples lie, one after the other, on the first core -/
  samples : RowSrc := .fp32 0
  /-- where the samples of a loop step lie -/
  loopSamples : List SampleSrc := []
  deriving DecidableEq, Repr

/-- A port of a core's cistern, in the order of R30. -/
inductive CisPort where
  /-- an inbound access that has waited 64 cycles or more -/
  | escalated
  | wide
  | np0
  | np1
  | inbound
  deriving DecidableEq, Repr

/-- What bank arbitration did to an event's accesses (R30, R31, R36): cycles lost to the plan's own other ports, cycles
lost to an escalated inbound access, and reads that met a write of their row in the same cycle. -/
structure Clash where
  own : Nat := 0
  inbound : Nat := 0
  sameRow : Nat := 0
  deriving DecidableEq, Repr

/-- A write that commits to the same row in the same cycle as an event's write, and has been carried out before it (R37):
its bytes, its port, and the port of the event's own write. -/
structure RowMeet where
  addr : Nat
  len : Nat
  port : CisPort
  mine : CisPort := .inbound
  deriving DecidableEq, Repr

/-- Core-cycles that commands have run in their current runs, by in-flight number: counts that the part keeps and no
register shows (R268, R277). -/
abbrev Ran := List (Nat × Nat)

/-- One slot of the SPI flash as the boot ROM reads it (R375, R376). -/
structure SlotImage where
  header : Block := []
  signed : Block := []
  /-- whether the LMS signature after the signed bytes verifies against PUBKEY (RFC 8554) -/
  sigOk : Bool := false
  deriving DecidableEq, Repr

/-- What the part meets when PERST# is released: flash, entropy, and which dies pass boot (R376-R382). -/
structure BootEnv where
  slotA : SlotImage := {}
  slotB : SlotImage := {}
  dieOk : List Bool := []
  bootId : Block := []
  /-- latched strap values, or none after an assertion between 1 and 100 µs (R409) -/
  straps : Option W16 := none
  deriving DecidableEq, Repr

/-- Which consumer line the host has written (R216, R228). -/
inductive ConsRef where
  | target (bind idx : Nat)
  | manifest
  deriving DecidableEq, Repr

/-- Which of a queue's host-written lines (Table 11.1). -/
inductive QLine where
  | sqTail | cqHead
  deriving DecidableEq, Repr

/-- Which write the host refused (R355). -/
inductive WriteKind where
  | completion | other
  deriving DecidableEq, Repr

/-- A ring or spoke link (R11): spoke d joins H and Cd, ring d joins Cd and C((d+1) mod 8). -/
inductive LinkRef where
  | spoke (d : Nat)
  | ring (d : Nat)
  deriving DecidableEq, Repr

/-- Read or write of a register over SMBus. -/
inductive RdWr where
  | read
  | write (v : W16)
  deriving DecidableEq, Repr

/-- Little-endian value of a byte string (R6). -/
def leNat : List Byte → Nat
  | [] => 0
  | b :: bs => b.toNat + 256 * leNat bs

/-- The n little-endian bytes of a value (R6). -/
def leBytes : Nat → Nat → List Byte
  | 0, _ => []
  | n + 1, v => BitVec.ofNat 8 v :: leBytes n (v / 256)

/-- Bits [hi:lo] of a number. -/
def bitsOf (v hi lo : Nat) : Nat := v / 2 ^ lo % 2 ^ (hi + 1 - lo)

/-- Bit n of a number. -/
def bitOf (v n : Nat) : Bool := v / 2 ^ n % 2 == 1

def b2n (b : Bool) : Nat := if b then 1 else 0

/-- Two's-complement value of an n-bit number. -/
def sextN (n v : Nat) : Int := if v % 2 ^ n < 2 ^ (n - 1) then (v % 2 ^ n : Nat) else (v % 2 ^ n : Nat) - 2 ^ n

/-- Ceiling division. -/
def cdiv (a b : Nat) : Nat := (a + b - 1) / b

end Sys2Proof
end

