-- ==== Sys2Proof/Syntax.lean ====
section
/-!
DEFINITION. The commands: one constructor per row of spec/opcode_table.json. The operand `u` of a host packet's
command is the in-flight number that PACKET_FETCH gave it; `cyc` is the number of core-cycles the run took. A step of a
running plan names its core: what it does stands in the plan, at the core's position (R15, R424).
-/

namespace Sys2Proof

inductive Instr where
  -- host packets
  | ctxCreate (u : Nat)
  | ctxDestroy (u : Nat)
  | ctxSave (u cyc : Nat)
  | ctxRestore (u : Nat)
  | ctxPin (u : Nat)
  | queueOpen (u : Nat)
  | queueClose (u : Nat)
  | queueClosed (u : Nat)
  | copy (u cyc : Nat)
  | fill (u cyc : Nat)
  | siphonPut (u : Nat)
  | reside (u : Nat) (img : ImageHdr) (cyc : Nat)
  | unreside (u : Nat)
  | run (u : Nat) (p : Plan)
  | streamOpen (u : Nat)
  | streamFeed (u : Nat)
  | streamMark (u : Nat)
  | streamClose (u : Nat)
  | streamLoop (u : Nat) (p : Plan)
  | kvSeqOpen (u : Nat)
  | kvSeqClose (u : Nat)
  | kvPolicySet (u : Nat)
  | poolGrant (u : Nat)
  | kvPolicyPin (u : Nat)
  | kvPolicyUnpin (u : Nat)
  | rngKey (u : Nat)
  | rngStateGet (u : Nat)
  | valveSet (u : Nat)
  | valveSignal (u : Nat)
  | valveWait (u : Nat)
  | valveWaitPass (u : Nat)
  | valveWaitTimeout (u : Nat)
  | fence (u : Nat)
  | outBind (u : Nat)
  | outUnbind (u : Nat)
  | loadKey (u : Nat)
  | wmConfigStream (u : Nat)
  | wmDetect (u cyc : Nat)
  | provConfig (u : Nat)
  | attest (u : Nat)
  | kill (u : Nat)
  | scrub (u cyc : Nat)
  | powerHint (u : Nat)
  | statsSnapshot (u : Nat)
  | vendorDebug (u : Nat)
  -- queue events
  | heldLineSnoop (stores : List HostStore) (q : Nat) (line : QLine) (count : W64)
  | linePoll (stores : List HostStore)
  | packetFetch (q : Nat)
  -- scheduler events
  | dispatch (pumpCore : Nat)
  | kvSecureRetry (u : Nat)
  | kvWaitTimeout (u : Nat)
  | sharePreemption (u : Nat) (ran : Ran)
  | swapOut (g ctx cyc : Nat) (idle : List Nat) (waited : Nat)
  | swapIn (g ctx cyc : Nat)
  -- engine steps of a running plan
  | mengineSlice (core : Nat) (clash : Clash)
  | narrow (core : Nat)
  | recStep (core : Nat)
  | convStep (core : Nat) (clash : Clash)
  | argmax (core : Nat)
  | gumbelArgmax (core : Nat)
  | noise (core : Nat)
  | cropStep (core : Nat)
  | attentionBlock (core : Nat)
  | floatWait (core waited : Nat)
  | floatWaitTimeout (core waited : Nat)
  | siphonStep (core : Nat)
  | pumpDescriptor (core : Nat)
  | saturationPass (u cyc : Nat)
  | widenRerun (u : Nat)
  | planCommit (u cyc : Nat)
  | remoteWriteCommit (core : Nat) (clash : Clash) (meets : Option RowMeet)
  | remoteRead (core : Nat) (clash : Clash)
  | siphonArrival
  | rngParityFail (u unit cyc : Nat)
  -- loop events
  | pacerTick (l : Nat)
  | blockGate (l : Nat) (ran : Ran)
  | streamStep (l : Nat)
  | blockCommit (l cyc : Nat)
  | dueTick (l : Nat)
  | chunkRelease (stream : Nat)
  -- output and provenance
  | consLineSnoop (stores : List HostStore) (r : ConsRef) (count : W64)
  | gapRecordWrite (bind idx : Nat)
  | ringWriteFail (r : ConsRef)
  | intervalTick
  | intervalBuild
  | intervalFull
  | manifestSign
  | manifestWrite
  | withheldGapWrite (stream : Nat)
  | flashProgramConfirm (ok : Bool)
  | nextTreeReady
  | subtreeRebuild
  -- lateral fabric
  | portTrained (p : Nat) (far : Option Nat)
  | flitReceive (p : Nat) (flit : Block)
  | replayTimeout (p : Nat)
  | portRetrain (p : Nat)
  | retrainDone (p failed : Nat)
  | portFailed (p failed : Nat)
  | write
  | valve
  | ready
  | go
  | done
  | commit
  | abort
  | refuse
  | gap
  | mass
  | mcastReplicate
  | holdExpiry
  | groupWaitTimeout (g : Nat)
  -- power and clocks
  | domainStepDown (n : Nat)
  | domainWake (n : Nat)
  | pllLock (n : Nat)
  | weirGrant (r pRest : Nat)
  | overCurrent (d : Nat)
  | overCurrentRestore (d : Nat)
  | sensorRead (temps : List Byte)
  | thermalStepDown (d : Nat)
  | thermalStepUp (d : Nat)
  | tdpStepDown (avg : Nat)
  | tdpStepUp (avg : Nat)
  | voltageSettled (d : Nat)
  | avsNoAck (d : Nat)
  | calibrationDone (d : Nat) (measured : List Nat)
  | slowclkLoss
  | slowclkReturn
  | refclkLoss
  | hintExpiry (n : Nat)
  -- wells and host accesses
  | patrolScrub (well granule : Nat)
  | pageRetire (page : Nat)
  | hdmCommit (base size : Nat) (lock : Bool)
  | hdmPark (win : Nat) (park : Bool)
  | hostMemRead (addr len : Nat)
  | hostMemWrite (addr : Nat) (data : List Byte)
  | debugRead (off len : Nat)
  | debugWrite (off : Nat) (data : List Byte)
  | hotReset (env : BootEnv)
  | hostWriteFail (kind : WriteKind) (q : Nat)
  | registerWrite (off len : Nat) (v : W64)
  | clearAll (core : Option Nat)
  | portEn (mask : BitVec 4)
  | aqEnable (on : Bool)
  | clientClear (tag : W16) (all : Bool)
  | clearPeak
  | msixUnmask (v : Nat)
  -- management chain and SMBus
  | assign (frame : BitVec 40)
  | chainBaseTimeout
  | chainRepeat
  | devId
  | status
  | deviceNum
  | setBase (base : W16)
  | chainStart
  | events
  | eventClear (mask : W16)
  | alertMask (a : RdWr)
  | fatalCause
  | temp
  | power
  | tdpSet (a : RdWr)
  | peakSet (a : RdWr)
  | measure
  | smbusArp (addr : BitVec 7)
  | alertResponse
  -- reset, boot and faults
  | perstAssert (ns : Nat)
  | perstRelease (env : BootEnv)
  | bootReady
  | minSvnCommit
  | watchdogExpiry
  | fatalError
  | internalLinkRetrain (l : LinkRef)
  | dieQuarantine (d : Nat)
  | vddHLow
  | vddCLow (d : Nat)
  | wellSupplyFault (dies : List Nat)
  | powerUp
  | powerLoss
  | wellPowerDown (d : Nat)
  | internalLinkReplay (l : LinkRef)
  | internalLinkRetrainDone (l : LinkRef) (ok : Bool)
  | cxlLinkRetrain
  | cxlLinkL1 (enter : Bool)
  | ceilPoint (d : Nat) (point : BitVec 2)
  | accessErrRead (off len : Nat)
  deriving DecidableEq, Repr

end Sys2Proof
end

