-- ==== Sys2Proof/Decode.lean ====
section
/-!
DEFINITION. Words of the command table. The table gives none of its rows any bits, so no word spells a command; the
host packets' own bytes are read by PACKET_FETCH (Machine/Operands.lean).
-/

namespace Sys2Proof

def decodeTableWord (_nbits _w : Nat) : Option Instr := none

end Sys2Proof
end

