-- ==== Sys2Proof/Machine/Crypto.lean ====
section
/-!
DEFINITION. Bit-exact hashes, checks and streams: ChaCha8 (R190, R191), SHA-256 and the Merkle tree of R229,
CRC-32C (R147, R233) and the CRC-8 of the chain (R367).
-/

namespace Sys2Proof.Machine

def add32 (a b : Nat) : Nat := (a + b) % 2 ^ 32
def rotl32 (x n : Nat) : Nat := ((x <<< n) ||| (x >>> (32 - n))) % 2 ^ 32
def rotr32 (x n : Nat) : Nat := rotl32 x (32 - n)

-- ## ChaCha8

/-- The quarter-round of RFC 8439 on words i, j, k, l of a 16-word state. -/
def quarter (st : List Nat) (i j k l : Nat) : List Nat :=
  let a := st.getD i 0
  let b := st.getD j 0
  let c := st.getD k 0
  let d := st.getD l 0
  let a := add32 a b
  let d := rotl32 (d ^^^ a) 16
  let c := add32 c d
  let b := rotl32 (b ^^^ c) 12
  let a := add32 a b
  let d := rotl32 (d ^^^ a) 8
  let c := add32 c d
  let b := rotl32 (b ^^^ c) 7
  (((st.set i a).set j b).set k c).set l d

/-- One column round and one diagonal round. -/
def doubleRound (st : List Nat) : List Nat :=
  let st := quarter st 0 4 8 12
  let st := quarter st 1 5 9 13
  let st := quarter st 2 6 10 14
  let st := quarter st 3 7 11 15
  let st := quarter st 0 5 10 15
  let st := quarter st 1 6 11 12
  let st := quarter st 2 7 8 13
  quarter st 3 4 9 14

/-- Words of a byte string, little-endian. -/
def wordsLE : Nat → List Byte → List Nat
  | 0, _ => []
  | n + 1, bs => leNat (bs.take 4) :: wordsLE n (bs.drop 4)

/-- Input words of Table 9.1: the constants, the key and words 12 to 15. -/
def chachaInput (key : List Byte) (w12 w13 w14 w15 : Nat) : List Nat :=
  [0x61707865, 0x3320646E, 0x79622D32, 0x6B206574] ++ wordsLE 8 key ++ [w12, w13, w14, w15]

/-- The 16 output words: four double rounds and the addition of the input (R190). -/
def chacha8 (input : List Nat) : List Nat :=
  List.zipWith add32 (doubleRound (doubleRound (doubleRound (doubleRound input)))) input

/-- A block as one 512-bit number: bit b of the block is bit b of the number (R191). -/
def blockNat (blk : List Nat) : Nat := blk.foldr (fun w acc => w + 2 ^ 32 * acc) 0

-- ## SHA-256

def shaK : List Nat :=
  [0x428A2F98, 0x71374491, 0xB5C0FBCF, 0xE9B5DBA5, 0x3956C25B, 0x59F111F1, 0x923F82A4, 0xAB1C5ED5,
   0xD807AA98, 0x12835B01, 0x243185BE, 0x550C7DC3, 0x72BE5D74, 0x80DEB1FE, 0x9BDC06A7, 0xC19BF174,
   0xE49B69C1, 0xEFBE4786, 0x0FC19DC6, 0x240CA1CC, 0x2DE92C6F, 0x4A7484AA, 0x5CB0A9DC, 0x76F988DA,
   0x983E5152, 0xA831C66D, 0xB00327C8, 0xBF597FC7, 0xC6E00BF3, 0xD5A79147, 0x06CA6351, 0x14292967,
   0x27B70A85, 0x2E1B2138, 0x4D2C6DFC, 0x53380D13, 0x650A7354, 0x766A0ABB, 0x81C2C92E, 0x92722C85,
   0xA2BFE8A1, 0xA81A664B, 0xC24B8B70, 0xC76C51A3, 0xD192E819, 0xD6990624, 0xF40E3585, 0x106AA070,
   0x19A4C116, 0x1E376C08, 0x2748774C, 0x34B0BCB5, 0x391C0CB3, 0x4ED8AA4A, 0x5B9CCA4F, 0x682E6FF3,
   0x748F82EE, 0x78A5636F, 0x84C87814, 0x8CC70208, 0x90BEFFFA, 0xA4506CEB, 0xBEF9A3F7, 0xC67178F2]

def shaH0 : List Nat :=
  [0x6A09E667, 0xBB67AE85, 0x3C6EF372, 0xA54FF53A, 0x510E527F, 0x9B05688C, 0x1F83D9AB, 0x5BE0CD19]

/-- Big-endian value of a byte string. -/
def beNat (bs : List Byte) : Nat := bs.foldl (fun acc b => acc * 256 + b.toNat) 0

/-- The n big-endian bytes of a value. -/
def beBytes (n v : Nat) : List Byte := (leBytes n v).reverse

def wordsBE : Nat → List Byte → List Nat
  | 0, _ => []
  | n + 1, bs => beNat (bs.take 4) :: wordsBE n (bs.drop 4)

/-- The message schedule after the first 16 words; w holds the newest 16 words, oldest first. -/
def shaSched : Nat → List Nat → List Nat
  | 0, _ => []
  | n + 1, w =>
    let w1 := w.getD 1 0
    let w14 := w.getD 14 0
    let s0 := rotr32 w1 7 ^^^ rotr32 w1 18 ^^^ (w1 >>> 3)
    let s1 := rotr32 w14 17 ^^^ rotr32 w14 19 ^^^ (w14 >>> 10)
    let t := (w.getD 0 0 + s0 + w.getD 9 0 + s1) % 2 ^ 32
    t :: shaSched n (w.drop 1 ++ [t])

/-- The rounds over (constant, word) pairs. -/
def shaRounds : List (Nat × Nat) → List Nat → List Nat
  | [], h => h
  | (k, w) :: rest, h =>
    let a := h.getD 0 0
    let e := h.getD 4 0
    let s1 := rotr32 e 6 ^^^ rotr32 e 11 ^^^ rotr32 e 25
    let ch := (e &&& h.getD 5 0) ^^^ ((2 ^ 32 - 1 - e) &&& h.getD 6 0)
    let t1 := h.getD 7 0 + s1 + ch + k + w
    let s0 := rotr32 a 2 ^^^ rotr32 a 13 ^^^ rotr32 a 22
    let maj := (a &&& h.getD 1 0) ^^^ (a &&& h.getD 2 0) ^^^ (h.getD 1 0 &&& h.getD 2 0)
    shaRounds rest [add32 t1 (s0 + maj), a, h.getD 1 0, h.getD 2 0, add32 (h.getD 3 0) t1, e, h.getD 5 0, h.getD 6 0]

def shaBlock (h : List Nat) (blk : List Byte) : List Nat :=
  let w := wordsBE 16 blk
  List.zipWith add32 (shaRounds (shaK.zip (w ++ shaSched 48 w)) h) h

/-- The blocks of a padded message. -/
def shaBlocks : Nat → List Byte → List Nat → List Nat
  | 0, _, h => h
  | n + 1, bs, h => shaBlocks n (bs.drop 64) (shaBlock h (bs.take 64))

/-- SHA-256 of a byte string. -/
def sha256 (bs : List Byte) : List Byte :=
  let n := bs.length
  let zeros := (119 - n % 64) % 64
  let padded := bs ++ [0x80] ++ List.replicate zeros 0 ++ beBytes 8 (8 * n)
  (shaBlocks ((n + 9 + zeros) / 64) padded shaH0).flatMap (beBytes 4)

/-- Largest power of two below n, for n at least 2. -/
def splitPoint (n : Nat) : Nat := 2 ^ (n - 1).log2

/-- Merkle tree hash of RFC 6962 over records (R229), with a depth bound for the recursion. -/
def merkle : Nat → List (List Byte) → List Byte
  | _, [] => sha256 []
  | _, [r] => sha256 (0 :: r)
  | 0, _ => sha256 []
  | d + 1, rs =>
    let k := splitPoint rs.length
    sha256 (1 :: (merkle d (rs.take k) ++ merkle d (rs.drop k)))

-- ## CRCs

/-- n bits into a CRC-32C register (reflected polynomial 0x82F63B78). -/
def crc32cStep : Nat → Nat → Nat
  | 0, c => c
  | n + 1, c => crc32cStep n (if c % 2 == 1 then (c / 2) ^^^ 0x82F63B78 else c / 2)

/-- CRC-32C of RFC 3720. -/
def crc32c (bs : List Byte) : Nat :=
  (bs.foldl (fun c b => crc32cStep 8 (c ^^^ b.toNat)) 0xFFFFFFFF) ^^^ 0xFFFFFFFF

def crc8Step : Nat → Nat → Nat
  | 0, c => c
  | n + 1, c => crc8Step n (if 128 ≤ c then (2 * c % 256) ^^^ 7 else 2 * c % 256)

/-- CRC-8 with polynomial x^8 + x^2 + x + 1 and initial value 0, most-significant bit first (R367). -/
def crc8 (bs : List Byte) : Nat := bs.foldl (fun c b => crc8Step 8 (c ^^^ b.toNat)) 0

end Sys2Proof.Machine
end

