-- ==== Sys2Proof/Machine/Num.lean ====
section
/-!
DEFINITION. The number formats of spec/03 and the arithmetic on them. A value is held exactly, as a dyadic number,
an infinity or a NaN; each operation rounds once where its rule says so.
-/

namespace Sys2Proof.Machine

/-- An exact value: m × 2^e with a sign, an infinity, or a NaN. -/
inductive Fl where
  | nan
  | inf (neg : Bool)
  | fin (neg : Bool) (m : Nat) (e : Int)
  deriving DecidableEq, Repr

/-- Fraction bits of BF16, FP32 and C48 (Table 3.1). All three have an 8-bit exponent with bias 127. -/
abbrev bf16 : Nat := 7
abbrev fp32 : Nat := 23
abbrev c48 : Nat := 39

/-- The value of an encoding with fb fraction bits. A subnormal reads as zero of the same sign (R58, Table 3.5). -/
def decF (fb v : Nat) : Fl :=
  let s := bitOf v (fb + 8)
  let ex := bitsOf v (fb + 7) fb
  let fr := v % 2 ^ fb
  if ex == 255 then (if fr == 0 then .inf s else .nan)
  else if ex == 0 then .fin s 0 0
  else .fin s (2 ^ fb + fr) ((ex : Int) - 127 - (fb : Int))

def nanF (fb : Nat) : Nat := 255 * 2 ^ fb + 2 ^ (fb - 1)
def signF (fb : Nat) (s : Bool) : Nat := if s then 2 ^ (fb + 8) else 0
def infF (fb : Nat) (s : Bool) : Nat := signF fb s + 255 * 2 ^ fb
/-- The largest finite magnitude. -/
def maxF (fb : Nat) (s : Bool) : Nat := signF fb s + 255 * 2 ^ fb - 1

/-- m rounded to n significant bits, to nearest with ties to even; with how far the exponent moves. -/
def roundSig (n m : Nat) : Nat × Nat :=
  let len := if m == 0 then 0 else m.log2 + 1
  if len ≤ n then (m, 0)
  else
    let k := len - n
    let q := m >>> k
    let r := m % 2 ^ k
    let half := 2 ^ (k - 1)
    (if r > half || (r == half && q % 2 == 1) then q + 1 else q, k)

/-- A finite value rounded to the format as if the exponent had no lower limit, then flushed to zero below 2^-126
(R58, R59). The flag says that a finite value rounded past the largest one. -/
def packF (fb : Nat) (s : Bool) (m : Nat) (e : Int) : Nat × Bool :=
  let (m', k) := roundSig (fb + 1) m
  if m' == 0 then (signF fb s, false)
  else
    let l := m'.log2
    let ex := e + k + l
    if ex < -126 then (signF fb s, false)
    else if ex > 127 then (infF fb s, true)
    else (signF fb s + (ex + 127).toNat * 2 ^ fb + (m' * 2 ^ fb / 2 ^ l - 2 ^ fb), false)

/-- An arithmetic result in the format: overflow gives infinity, a NaN is the canonical one (R58, R59). -/
def encF (fb : Nat) : Fl → Nat
  | .nan => nanF fb
  | .inf s => infF fb s
  | .fin s m e => (packF fb s m e).1

/-- A conversion between wide formats and the saturations it counts (R60, Table 3.6). -/
def convF (src dst v : Nat) : Nat × Nat :=
  match decF src v with
  | .nan => (nanF dst, 1)
  | .inf s => (infF dst s, if dst < src then 1 else 0)
  | .fin s m e =>
    match packF dst s m e with
    | (_, true) => (maxF dst s, 1)
    | (b, false) => (b, 0)

/-- The nearest value of the format; a finite value past the range becomes the largest one and counts (R54, R70). -/
def clampF (fb : Nat) : Fl → Nat × Nat
  | .nan => (nanF fb, 1)
  | .inf s => (infF fb s, 1)
  | .fin s m e =>
    match packF fb s m e with
    | (_, true) => (maxF fb s, 1)
    | (b, false) => (b, 0)

-- ## Exact operations; infinities as in IEEE 754 (R58)

def Fl.neg : Fl → Fl
  | .nan => .nan
  | .inf s => .inf !s
  | .fin s m e => .fin (!s) m e

def Fl.abs : Fl → Fl
  | .nan => .nan
  | .inf _ => .inf false
  | .fin _ m e => .fin false m e

def Fl.isFin : Fl → Bool
  | .fin _ _ _ => true
  | _ => false

def Fl.isZero : Fl → Bool
  | .fin _ 0 _ => true
  | _ => false

def sgn (s : Bool) (m : Nat) : Int := if s then -(m : Int) else m

def Fl.mul : Fl → Fl → Fl
  | .nan, _ => .nan
  | _, .nan => .nan
  | .inf s, .inf t => .inf (s != t)
  | .inf s, .fin t m _ => if m == 0 then .nan else .inf (s != t)
  | .fin s m _, .inf t => if m == 0 then .nan else .inf (s != t)
  | .fin s m e, .fin t n f => .fin (s != t) (m * n) (e + f)

def Fl.add : Fl → Fl → Fl
  | .nan, _ => .nan
  | _, .nan => .nan
  | .inf s, .inf t => if s == t then .inf s else .nan
  | .inf s, .fin _ _ _ => .inf s
  | .fin _ _ _, .inf t => .inf t
  | .fin s m e, .fin t n f =>
    if m == 0 && n == 0 then .fin (s && t) 0 0
    else if m == 0 then .fin t n f
    else if n == 0 then .fin s m e
    else
      let g := min e f
      let v := sgn s (m <<< (e - g).toNat) + sgn t (n <<< (f - g).toNat)
      .fin (decide (v < 0)) v.natAbs g

def Fl.sub (a b : Fl) : Fl := a.add b.neg

/-- p / q × 2^e with a sticky bit below 64 quotient bits: rounds to any format of Table 3.1 as the exact quotient. -/
def ratF (s : Bool) (p q : Nat) (e : Int) : Fl :=
  if p == 0 then .fin s 0 0
  else
    let k := 66 + q.log2 - p.log2
    let n := p <<< k
    .fin s (2 * (n / q) + (if n % q == 0 then 0 else 1)) (e - k - 1)

/-- A quotient, for immediate rounding. -/
def Fl.div : Fl → Fl → Fl
  | .nan, _ => .nan
  | _, .nan => .nan
  | .inf _, .inf _ => .nan
  | .inf s, .fin t _ _ => .inf (s != t)
  | .fin s _ _, .inf t => .fin (s != t) 0 0
  | .fin s m e, .fin t n f =>
    if n == 0 then (if m == 0 then .nan else .inf (s != t)) else ratF (s != t) m n (e - f)

/-- a < b for values that are not NaN. -/
def Fl.lt : Fl → Fl → Bool
  | .nan, _ => false
  | _, .nan => false
  | .inf s, .inf t => s && !t
  | .inf s, .fin _ _ _ => s
  | .fin _ _ _, .inf t => !t
  | .fin s m e, .fin t n f =>
    let g := min e f
    decide (sgn s (m <<< (e - g).toNat) < sgn t (n <<< (f - g).toNat))

def Fl.ofInt (i : Int) : Fl := .fin (decide (i < 0)) i.natAbs 0

/-- The exact sum of a list, from a first value. -/
def sumF : Fl → List Fl → Fl
  | a, [] => a
  | a, x :: xs => sumF (a.add x) xs

-- ## C48 and FP32 operations: one rounding each (R58, R59)

def c48Add (a b : Nat) : Nat := encF c48 ((decF c48 a).add (decF c48 b))
def c48Sub (a b : Nat) : Nat := encF c48 ((decF c48 a).sub (decF c48 b))
def c48Mul (a b : Nat) : Nat := encF c48 ((decF c48 a).mul (decF c48 b))
def c48Div (a b : Nat) : Nat := encF c48 ((decF c48 a).div (decF c48 b))
def fp32Add (a b : Nat) : Nat := encF fp32 ((decF fp32 a).add (decF fp32 b))
def fp32Mul (a b : Nat) : Nat := encF fp32 ((decF fp32 a).mul (decF fp32 b))
def fp32Div (a b : Nat) : Nat := encF fp32 ((decF fp32 a).div (decF fp32 b))
/-- x × y + z with one rounding. -/
def fp32Fma (x y z : Nat) : Nat := encF fp32 (((decF fp32 x).mul (decF fp32 y)).add (decF fp32 z))
def c48Neg (a : Nat) : Nat := encF c48 (decF c48 a).neg
/-- 1 in C48. -/
def c48One : Nat := 127 * 2 ^ 39

/-- round_nearest_even of p / q, q > 0. -/
def rneDiv (p : Int) (q : Nat) : Int :=
  let f := p.fdiv (q : Int)
  let r := (p - f * q).toNat
  if 2 * r > q || (2 * r == q && f % 2 != 0) then f + 1 else f

-- ## B4 (R51, R52, R61)

/-- m_0 to m_7 of Table 3.2. -/
def b4Mag : List Nat := [86, 261, 442, 637, 853, 1110, 1449, 2048]
/-- b_0 to b_6 of Table 3.3. -/
def b4Bound : List Nat := [347, 703, 1079, 1490, 1963, 2559, 3497]

def b4Level (code : Nat) : Int :=
  if 8 ≤ code then ((b4Mag.getD (code - 8) 0 : Nat) : Int) else -((b4Mag.getD (7 - code) 0 : Nat) : Int)

/-- The number of boundaries that a = |x| × 4096 lies above, and whether it lies on the next one. -/
def b4Walk (a s : Fl) : List Nat → Nat → Nat × Bool
  | [], j => (j, false)
  | b :: bs, j =>
    let bound := (Fl.ofInt b).mul s
    if bound.lt a then b4Walk a s bs (j + 1) else (j, !(a.lt bound))

/-- The code of x under group scale s > 0, and the saturations counted (R52, R61). -/
def encB4 (x s : Fl) : Nat × Nat :=
  match x with
  | .nan => (8, 1)
  | .inf neg => (if neg then 0 else 15, 1)
  | .fin neg m e =>
    let a := Fl.fin false m (e + 12)
    let sat := if ((Fl.ofInt 4096).mul s).lt a then 1 else 0
    let (j, tie) := b4Walk a s b4Bound 0
    if m == 0 then (8, 0)
    else
      let j := if tie && ((!neg && j % 2 == 1) || (neg && j % 2 == 0)) then j + 1 else j
      (if neg then 7 - j else 8 + j, sat)

-- ## W8 (R54, R61)

/-- The level a W8 code stands for and the saturations counted: 0x80 is used as -127. -/
def w8Level (code : Nat) : Int × Nat := if code % 256 == 128 then (-127, 1) else (sextN 8 code, 0)

/-- x / s as an exact fraction (numerator, denominator), s > 0. -/
def ratio (m : Nat) (e : Int) (ms : Nat) (es : Int) : Nat × Nat :=
  if 0 ≤ e - es then (m <<< (e - es).toNat, ms) else (m, ms <<< (es - e).toNat)

def encW8 (x : Fl) (s : Fl) : Nat × Nat :=
  match x, s with
  | .nan, _ => (0, 1)
  | .inf neg, _ => (if neg then 0x81 else 0x7F, 1)
  | .fin neg m e, .fin _ ms es =>
    let (p, q) := ratio m e ms es
    if p > 127 * q then (if neg then 0x81 else 0x7F, 1)
    else ((rneDiv (sgn neg p) q % 256).toNat, 0)
  | .fin _ _ _, _ => (0, 0)

-- ## A8 (R55, R56, R61)

/-- How a narrowing rounds: to nearest even, or stochastically with k bits that read as r. -/
inductive A8Round where
  | nearest
  | stochastic (k r : Nat)
  deriving DecidableEq, Repr

/-- f × 2^k of a fraction f = p / q, rounded to nearest even. -/
def srThreshold (p q k : Nat) : Nat := (rneDiv ((p * 2 ^ k : Nat) : Int) q).toNat

def clampByte (i : Int) : Nat := if i < 0 then 0 else if 255 < i then 255 else i.toNat

/-- The A8 code of x under s_a (positive, finite) and zp, and the saturations counted. -/
def encA8 (x sa : Fl) (zp : Nat) (rd : A8Round) : Nat × Nat :=
  match x, sa with
  | .nan, _ => (zp, 1)
  | .inf neg, _ => (if neg then 0 else 255, 1)
  | .fin neg m e, .fin _ ms es =>
    let (p, q) := ratio m e ms es
    let t : Int := sgn neg p + (zp * q : Nat)
    let sat := if t < 0 || ((255 * q : Nat) : Int) < t then 1 else 0
    match rd with
    | .nearest => (clampByte (rneDiv t q), sat)
    | .stochastic k r =>
      let q0 := t.fdiv (q : Int)
      let f := (t - q0 * q).toNat
      (clampByte (if r < srThreshold f q k then q0 + 1 else q0), sat)
  | .fin _ _ _, _ => (zp, 0)

/-- s_a × (q − zp) exactly. -/
def decA8 (code : Nat) (sa : Fl) (zp : Nat) : Fl := (Fl.ofInt ((code : Int) - zp)).mul sa

/-- s of R74: M × MARGIN / (64 × D) rounded once to FP32, held within the normal range. -/
def scaleOf (maxBits margin d : Nat) : Nat :=
  match decF fp32 maxBits with
  | .fin _ m e =>
    match ratF false (m * margin) (64 * d) e with
    | .fin _ p f =>
      match packF fp32 false p f with
      | (_, true) => maxF fp32 false
      | (b, false) => if b == 0 then 2 ^ 23 else b
    | _ => 2 ^ 23
  | _ => 2 ^ 23

-- ## NOISE (R200)

def ln2C48 : Nat := 0x3F317217F7D2
def c3C48 : Nat := 0x3EAAAAAAAAAB
def c5C48 : Nat := 0x3E4CCCCCCCCD
def halfC48 : Nat := 126 * 2 ^ 39
def quarterC48 : Nat := 125 * 2 ^ 39

/-- T_0 to T_63: ln(1 + i/64) rounded to nearest C48. -/
def lnTable : List Nat :=
  [
   0x000000000000, 0x3C7E054587E0, 0x3CFC14D873C2, 0x3D3BA2C7B197,
   0x3D785186008B, 0x3D9A0EBCB0DF, 0x3DB78694572B, 0x3DD49369D257,
   0x3DF1383B7158, 0x3E06BBF3E684, 0x3E14AA97C100, 0x3E22695B665C,
   0x3E2FF983853D, 0x3E3D5C481087, 0x3E4A92D4E7A3, 0x3E579E4A7406,
   0x3E647FBE3CD5, 0x3E71383B7158, 0x3E7DC8C36AF2, 0x3E851927139D,
   0x3E8B3AE55D5D, 0x3E914A0FDE7C, 0x3E974715D709, 0x3E9D3262AB4A,
   0x3EA30C5E10E3, 0x3EA8D56C3970, 0x3EAE8DEDFAC0, 0x3EB43640F4D9,
   0x3EB9CEBFB5DF, 0x3EBF57C1DC15, 0x3EC4D19C360A, 0x3ECA3CA0E109,
   0x3ECF991F65FD, 0x3ED4E764D4D0, 0x3EDA27BBDE64, 0x3EDF5A6CED39,
   0x3EE47FBE3CD5, 0x3EE997F3F007, 0x3EEEA350260E, 0x3EF3A2130EB4,
   0x3EF8947AFD78, 0x3EFD7AC47BC8, 0x3F012A952D2F, 0x3F0391F2E0E7,
   0x3F05F3972129, 0x3F084F9CF16A, 0x3F0AA61E97A7, 0x3F0CF735A33E,
   0x3F0F42FAF382, 0x3F118986BDF6, 0x3F13CAF0944E, 0x3F16074F6A24,
   0x3F183EB99A79, 0x3F1A7144ECE7, 0x3F1C9F069AB1, 0x3F1EC813538B,
   0x3F20EC7F4234, 0x3F230C5E10E3, 0x3F2527C2ED82, 0x3F273EC08DBB,
   0x3F29516932DE, 0x3F2B5FCEADA0, 0x3F2D6A0261AD, 0x3F2F70154921  ]

/-- lnm of R200 for m = a / 2^e with 1 ≤ m < 2. -/
def lnm (a e : Nat) : Nat :=
  let i := a * 64 / 2 ^ e - 64
  let s := encF c48 (ratF false (a * 64 - (64 + i) * 2 ^ e) ((64 + i) * 2 ^ e) 0)
  let p := c48Mul s (c48Add c48One (c48Mul s (c48Add (c48Neg halfC48) (c48Mul s (c48Add c3C48
    (c48Mul s (c48Add (c48Neg quarterC48) (c48Mul s c5C48))))))))
  c48Add (lnTable.getD i 0) p

/-- series of R200. -/
def lnSeries (v : Nat) : Nat :=
  c48Mul v (c48Add c48One (c48Mul v (c48Add halfC48 (c48Mul v (c48Add c3C48 (c48Mul v (c48Add quarterC48
    (c48Mul v c5C48))))))))

/-- An integer in C48. -/
def c48OfInt (i : Int) : Nat := encF c48 (Fl.ofInt i)

/-- The NOISE operation (R200): 24 random bits to an FP32 value. -/
def noiseOf (k : Nat) : Nat :=
  let a := 2 * k + 1
  let b := 2 ^ 25 - a
  let t :=
    if a < 2 ^ 24 then
      let e := a.log2
      c48Sub (c48Mul (c48OfInt (25 - (e : Int))) ln2C48) (lnm a e)
    else if b < 2 ^ 19 then lnSeries (encF c48 (.fin false b (-25)))
    else c48Sub ln2C48 (lnm a 24)
  let e' : Int := (bitsOf t 46 39 : Int) - 127
  let m' := 2 ^ 39 + t % 2 ^ 39
  let g := c48Neg (c48Add (c48Mul (c48OfInt e') ln2C48) (lnm m' 39))
  (convF c48 fp32 g).1

-- ## exp2 (R136)

/-- ln 2 with 192 fraction bits. -/
def ln2Fix : Nat := 0xB17217F7D1CF79ABC9E3B39803F2F6AF40F343267298B62D

/-- Taylor terms of e^x − 1 with 192 fraction bits: n terms from the (i+1)-th, given the i-th. -/
def expTerms (x : Nat) : Nat → Nat → Nat → Nat
  | 0, _, _ => 0
  | n + 1, i, t =>
    let t' := t * x / (2 ^ 192 * (i + 1))
    t' + expTerms x n (i + 1) t'

/-- 2^t for an FP32 value t, rounded to FP32; +0 for t < −126. The fraction is computed to 185 bits. -/
def exp2F (v : Nat) : Nat :=
  match decF fp32 v with
  | .nan => nanF fp32
  | .inf true => 0
  | .inf false => infF fp32 false
  | .fin s m e =>
    let t : Int := sgn s (m <<< (e + 192).toNat)   -- t × 2^192, exact for every FP32 value
    if t < -126 * (2 ^ 192 : Nat) then 0
    else
      let n := t.fdiv ((2 ^ 192 : Nat) : Int)
      let f := (t - n * (2 ^ 192 : Nat)).toNat
      if f == 0 then encF fp32 (.fin false 1 n)
      else
        let y := 2 ^ 192 + expTerms (f * ln2Fix / 2 ^ 192) 45 0 (2 ^ 192)
        encF fp32 (.fin false (2 * y + 1) (n - 193))

/-- Channel value a beats channel value b (R185). -/
def beats : Fl → Fl → Bool
  | .nan, .nan => false
  | .nan, _ => true
  | _, .nan => false
  | a, b => b.lt a

/-- Index of the winner of a non-empty row, from a first candidate at index w (R185). -/
def winnerFrom : List Fl → Nat → Nat → Fl → Nat
  | [], _, w, _ => w
  | x :: xs, i, w, b => if beats x b then winnerFrom xs (i + 1) i x else winnerFrom xs (i + 1) w b

/-- The lowest-indexed channel that no other channel beats (R185). -/
def winner : List Fl → Nat
  | [] => 0
  | x :: xs => winnerFrom xs 1 0 x

end Sys2Proof.Machine
end

