-- ==== Sys2Proof/Config.lean ====
section
/-!
DEFINITION. What the spec leaves open: free values, as constants with no body. Nothing can evaluate them, so a
statement that mentions one holds for every value it could have (assumption 2).
-/

namespace Sys2Proof.Config

/-- The k-th free value. A step that needs one reads State.freeCtr and advances it. -/
opaque freeValue : Nat → Nat

/-- σ of the gated cell on FP32 (R95 names the function and no rounding). -/
opaque sigma : W32 → W32

/-- tanh of the gated cell on FP32 (R95 names the function and no rounding). -/
opaque tanh : W32 → W32

/-- Byte j of the identifier I of a signing tree: 0 the top tree, t + 1 bottom tree t (R231). -/
opaque hssIdByte (tree j : Nat) : Byte

/-- Byte j of a signing tree's private seed, a secret of the key store (R231). -/
opaque hssSeedByte (tree j : Nat) : Byte

/-- Byte j of the randomiser C of a leaf, which the seed and the index determine (R231). -/
opaque hssRandByte (tree leaf j : Nat) : Byte

/-- Byte j of the key-store MAC of a message, as its little-endian number (R232). -/
opaque treeMacByte (message j : Nat) : Byte

/-- Byte j of the DEVICE_CERT area of the SPI flash (R374, Table 17.4). -/
opaque certByte (j : Nat) : Byte

/-- Which neighbour a residue entry takes when the exact residue m × 2^e needs more than 40 significant bits: the one of
greater magnitude, or the lesser (R113 gives the residue as exact and no rounding). -/
opaque residueUp (m : Nat) (e : Int) : Bool

end Sys2Proof.Config
end

