-- ==== Sys2Proof/Machine/State.lean ====
section
/-!
DEFINITION. The state of the part, as plain data. Each field's docstring names the rule of spec/ that gives it and
its value at reset. Sparse tables list only the keys whose entry differs from the default.
-/

namespace Sys2Proof.Machine

/-- A finite table: keys strictly rising; a key that is not listed has the table's default. -/
abbrev Table (α : Type) := List (Nat × α)

/-- Sparse bytes: addresses strictly rising, no listed byte equal to 0, which an unlisted address reads as. -/
abbrev Mem := List Host.Cell

/-- A 64-bit counter: COUNT in [62:0], OVF in [63] (Table 2.4). -/
abbrev Ctr := W64

-- ## Output events

/-- What the part drives outward; the newest last. -/
inductive Output where
  /-- an MSI-X message (R363) -/
  | msix (v : Nat)
  /-- answer to a host CXL.mem read: data, and whether the poison indication goes with it (R302, R317) -/
  | memData (data : List Byte) (poison : Bool)
  /-- acknowledgement of a host CXL.mem write (R318) -/
  | memAck
  /-- answer to a BAR4 or register read -/
  | busData (v : List Byte)
  /-- answer to a core's remote read (R33) -/
  | remoteData (core : Nat) (data : List Byte)
  /-- SMBus read data, bytes in order of transfer (R371) -/
  | smbus (data : List Byte)
  /-- a refused SMBus write or command byte -/
  | smbusNack
  /-- a 40-bit payload on CHAIN_OUT (R367) -/
  | chain (frame : BitVec 40)
  /-- a flit on a lateral port (R146) -/
  | flit (port : Nat) (bytes : List Byte)
  /-- an AVSBus voltage write, units of 5 mV (R402) -/
  | avs (die mv5 : Nat)
  deriving DecidableEq, Repr

-- ## Commands in flight

/-- Where an in-flight command stands (R252, R260, R418). -/
inductive Phase where
  /-- fetched, not started -/
  | fetched
  /-- a plan that passed its start checks and waits for cores (R270) -/
  | ready
  /-- placed on cores; waits for their domains and for its charges (R327, R334) -/
  | placed
  /-- occupies its cores, or its pump (R21) -/
  | running
  /-- acted at acceptance and retires later (R418); a standing loop (R256); a valve wait (R247) -/
  | accepted
  /-- waits for KV pages (R131) -/
  | kvWait
  /-- a group member after DONE: holds its results (R157) -/
  | held
  deriving DecidableEq, Repr

/-- Running state of one attention row: query row and head of a binding (R136). -/
structure AttnRow where
  /-- index of the binding; LOGICAL_SEQ in a lateral group -/
  binding : Nat
  layer : Nat
  head : Nat
  query : Nat
  /-- source device of a partial of a CANONICAL group (R160) -/
  source : Option Nat := none
  m : C48 := 0
  l : C48 := 0
  o : List C48 := []
  /-- no block with an unmasked key yet -/
  fresh : Bool := true
  /-- (block, P, m_new) just after each block that was not wholly masked (R127); in a group the block of origin d is
  numbered 2^16 * d + SHARD_BLOCK -/
  visits : List (Nat × C48 × C48) := []
  nan : Bool := false
  closed : Bool := false
  /-- blocks visited; in a group, hop and SHARD_BLOCK of the last one plus 1 -/
  count : Nat := 0
  hop : Nat := 0
  deriving DecidableEq, Repr

/-- A reserved page and entry, or a victim, for a new block of a binding (R129). -/
structure Secured where
  binding : Nat
  block : Nat
  /-- map entry taken -/
  entry : Nat
  /-- pool page taken, or none when a victim's page is reused -/
  page : Option Nat
  deriving DecidableEq, Repr

/-- What CTX_SAVE captures of a running loop at a block commit (R288). -/
structure LoopSnap where
  l : Nat
  record : Block
  rng : Block
  streams : List (Nat × Block)
  /-- slot images of its cores: (core, slot, bytes) -/
  slots : List (Nat × Nat × Block)
  deriving DecidableEq, Repr

/-- A fetched command (R242, R248, R250, R260). -/
structure Cmd where
  /-- in-flight number, in the fetch order over all queues (R125, R257) -/
  uid : Nat
  queue : Nat
  opcode : Nat
  fence : Bool := false
  publish : Bool := false
  autoWiden : Bool := false
  scrub : Bool := false
  ctx : Nat := 0
  drawClass : Nat := 0
  seq : Nat := 0
  satThreshold : Nat := 0xFFFF
  costEst : Nat := 0
  arg : Nat := 0
  /-- parameter bytes: the 32 inline bytes, or the parameter block (Table 11.3) -/
  params : Block := []
  pointer : Bool := false
  phase : Phase := .fetched
  /-- the argument block of a RUN, once it is read at its start checks (Table 11.6) -/
  argBlock : Option Block := none
  /-- the plan of a RUN or STREAM_LOOP -/
  plan : Option Plan := none
  /-- cores it occupies -/
  cores : List Nat := []
  /-- run-time record of the command -/
  sat : Nat := 0
  started : Bool := false
  rerun : Bool := false
  /-- killed, or waiting for pages: the next run is a re-run (R131, Table 11.7) -/
  rerunDue : Bool := false
  recovered : Bool := false
  widened : Bool := false
  emptyAttn : Bool := false
  late : Bool := false
  engineCycles : Nat := 0
  runCycles : Nat := 0
  /-- hub cycle of the fetch and of the first start (R248, BACKLOG_US) -/
  fetchedAt : Nat := 0
  startedAt : Nat := 0
  /-- consecutive float timeouts (R42), share preemptions (R277), consecutive parity failures (R193) -/
  timeouts : Nat := 0
  preempts : Nat := 0
  parityFails : Nat := 0
  secured : List Secured := []
  attn : List AttnRow := []
  /-- LENGTH of each bound sequence when the command started (R134) -/
  lengths : List (Nat × Nat) := []
  /-- lane positions P of the command's draws, key rank * 64 + lane (R195) -/
  pos : Table Nat := []
  /-- TEMP vector latched at the start of a run (R202) -/
  temps : List W32 := []
  /-- RNG_KEY: loops that have not yet reached a block start (R204) -/
  waitLoops : List Nat := []
  /-- loop that a STREAM_LOOP stands for; stream of a STREAM_* command; queue of a QUEUE_CLOSE -/
  object : Option Nat := none
  /-- commands that have retired on its behalf (QUEUE_CLOSE) -/
  tally : Nat := 0
  /-- the narrow run has stopped and is not yet discarded (R88, R91) -/
  stopping : Bool := false
  /-- a group member after DONE: cycles of its run (R157) -/
  heldCyc : Nat := 0
  /-- data blocks that the run has emitted, by index of the stream in TAG_BASE (R84) -/
  blocks : Table Nat := []
  /-- token slots whose working history the run's mark has cleared (R81) -/
  cleared : List Nat := []
  /-- cores that earlier runs of the command occupied (R259) -/
  usedCores : List Nat := []
  /-- the sequence on whose pages the command waits (R131) -/
  waitsOn : Option Nat := none
  /-- a STREAM_MARK: the mark that it waited for has landed at its own index (R109) -/
  landed : Bool := false
  /-- CTX_SAVE: loops captured so far, and loops still to be captured -/
  snaps : List LoopSnap := []
  /-- CTX_SAVE, SCRUB and other pump-only commands: a transfer is under way on its core (R21) -/
  inPlace : Bool := false
  deriving DecidableEq, Repr

/-- A record on its way to a completion ring: its bytes with PHASE 0 and its context, or a recovery mark (R258). -/
structure RingRec where
  bytes : Block := []
  ctx : Option Nat := none
  mark : Bool := false
  deriving DecidableEq, Repr

/-- A command queue (R237-R241). -/
structure Queue where
  opened : Bool := false
  error : Bool := false
  /-- the QUEUE_CLOSE that is closing it (R423) -/
  closing : Option Nat := none
  /-- records are discarded after a refused completion write (R355) -/
  discards : Bool := false
  sqLog : Nat := 4
  cqLog : Nat := 4
  maxInflight : Nat := 4096
  notify : Nat := 0
  sqBase : Nat := 0
  cqBase : Nat := 0
  lineBase : Nat := 0
  tail : W64 := 0
  head : W64 := 0
  cqProd : W64 := 0
  cqCons : W64 := 0
  /-- context of each record not yet consumed, oldest first (R258) -/
  ringCtxs : List (Option Nat) := []
  /-- records that wait for room in the ring, oldest first (R258) -/
  waits : List RingRec := []
  deriving DecidableEq, Repr

-- ## Contexts and accounting

/-- A slot image in the sump (R264, R281, R289). -/
structure SwapImage where
  /-- index n of the image in the sump -/
  index : Nat
  home : Option Nat
  /-- loop rank it carries, for a resume (R291) -/
  rank : Option (Nat × Nat) := none
  /-- source core and slot of the header -/
  srcCore : Nat := 0
  srcSlot : Nat := 0
  /-- the slot is pinned when it returns (R280) -/
  pinned : Bool := false
  deriving DecidableEq, Repr

/-- Counters of the context page (Table 12.5). -/
structure CtxStats where
  fetched : Ctr := 0
  retiredOk : Ctr := 0
  retiredOther : Ctr := 0
  reruns : Ctr := 0
  preemptKills : Ctr := 0
  widened : Ctr := 0
  engineCycles : Ctr := 0
  satTotal : Ctr := 0
  avgSlowdown : Option Nat := none
  swapOuts : Ctr := 0
  swapIns : Ctr := 0
  swapBytes : Ctr := 0
  pinStarve : Ctr := 0
  kvEvictions : Ctr := 0
  kvWaits : Ctr := 0
  emptyRows : Ctr := 0
  lateBlocks : Ctr := 0
  concealBlocks : Ctr := 0
  withheldBlocks : Ctr := 0
  ringWriteFails : Ctr := 0
  backlogMaxUs : Ctr := 0
  deriving DecidableEq, Repr

/-- A context (R263, R287). -/
structure Ctx where
  shareClass : Nat := 0
  realtime : Bool := false
  orderStrict : Bool := false
  /-- RNG_MODE: true for ELEMENT -/
  element : Bool := false
  scrubOnKill : Bool := false
  allowUnsigned : Bool := false
  clientTag : Nat := 0
  cisGranules : Nat := 1
  accUnits : Nat := 1
  maxSlots : Nat := 1
  chunkMax : Nat := 0
  chunkAhead : Nat := 0
  sumpBase : Nat := 0
  sumpBytes : Nat := 0
  faulted : Bool := false
  /-- free pages of the KV pool, rising (R118) -/
  pool : List Nat := []
  kvWaitUs : Nat := 1000
  /-- random key, 32 bytes (R203) -/
  key : Block := List.replicate 32 0
  /-- STATE_BASE and STATE_ROWS of the carry areas of RUN plans whose committed half is half 1 (R96; assumption 61) -/
  carry : List (Nat × Nat) := []
  swapped : List SwapImage := []
  stats : CtxStats := {}
  /-- FAULT_RECORD of the page: DATA_TAG, SCALE_TAG, core, plan step, status (R85) -/
  fault : Nat := 0
  deriving DecidableEq, Repr

/-- A client entry (Table 12.2). -/
structure Client where
  submitted : W32 := 0
  completed : W32 := 0
  faulted : W32 := 0
  sat : BitVec 3 := 0
  deriving DecidableEq, Repr

/-- Scheduler window and device accounting (R268, R270, Tables 12.6 and 12.7). -/
structure Sched where
  rtLimit : BitVec 11 := 0x384
  quantum : W32 := 0x30D40
  preemptMax : BitVec 4 := 4
  graceUs : W16 := 0x32
  /-- SHARES_c, default 0x0100 -/
  shares : Table W16 := []
  ledger : Table W64 := []
  vt : Table W64 := []
  /-- the class served most recently (R270) -/
  lastClass : Option Nat := none
  /-- classes that are backlogged -/
  backlogged : List Nat := []
  admissionRefusals : Ctr := 0
  deadlockRefusals : Ctr := 0
  pinStarve : Ctr := 0
  swapOuts : Ctr := 0
  preemptKills : Ctr := 0
  withheldBlocks : Ctr := 0
  clientSatEvents : Ctr := 0
  faultedContexts : Ctr := 0
  deriving DecidableEq, Repr

-- ## Cores

/-- A cistern region entry (R26, Table 2.4). -/
structure Region where
  base : Nat := 0
  size : Nat := 0
  owner : Nat := 0
  kind : Nat := 0
  valid : Bool := false
  poisoned : Bool := false
  accBase : Nat := 0
  accSize : Nat := 0
  /-- the slot is pinned by CTX_PIN (R280) -/
  pinned : Bool := false
  deriving DecidableEq, Repr

/-- One core's registers and occupancy (R21, R48). -/
structure Core where
  err : Byte := 0
  cisCe : W16 := 0
  accCe : W16 := 0
  waitLimit : W32 := 0x100000
  retryMax : BitVec 4 := 3
  regions : List Region := List.replicate 8 {}
  /-- the command that occupies the core: a plan, or a pump-only command -/
  running : Option Nat := none
  runSlot : Nat := 0
  /-- wide-port owner: 0 idle, 1 M-engine, 2 pump -/
  wideHolder : Nat := 0
  /-- rows of the current pump phase that crossed the wide port (R309) -/
  phaseRows : Nat := 0
  /-- P_g held across two W8 slices with G = 128, per column (Table 3.7) -/
  heldSums : List Int := []
  /-- index of the running plan's next step on this core (R15, R424) -/
  pos : Nat := 0
  /-- trailer and scale block whose tags the running plan last compared on this core (R85) -/
  checked : Option (Nat × Nat) := none
  /-- contexts whose slots have left the core for a candidate: (candidate, context swapped out) (R281) -/
  swapFor : List (Nat × Nat) := []
  deriving DecidableEq, Repr

-- ## Streams, loops, output

/-- A run of blocks that a target missed or that were withheld (R218, R230). -/
structure Missed where
  stream : Nat
  first : Nat
  last : Nat
  withheld : Bool := false
  final : Bool := false
  deriving DecidableEq, Repr

/-- A block ready for a ring target and waiting under HOLD (R218). -/
structure OutBlock where
  stream : Nat
  bseq : Nat
  /-- metadata record and PCM -/
  record : Block
  final : Bool := false
  /-- loop and loop block whose due tick ends its wait; none for a RUN-vocoded stream -/
  due : Option (Nat × Nat) := none
  /-- the gap record of a withheld run that waits its turn behind held blocks, in place of a block (R230) -/
  gap : Option Missed := none
  deriving DecidableEq, Repr

/-- A segment that is open on a stream (R225, R226). -/
structure Seg where
  id : Nat
  bseqFirst : Nat
  bseqLast : Nat
  blocks : Nat := 0
  late : Bool := false
  conceal : Bool := false
  final : Bool := false
  /-- metadata and PCM bytes of its blocks, in order -/
  bytes : Block := []
  keySlot : Nat := 0
  strength : Nat := 0
  pcmFmt : Nat := 0
  payload : Nat := 0
  blockLen : Nat := 0
  rate : Nat := 0
  voice : Block := []
  limit : Nat := 100
  deriving DecidableEq, Repr

/-- A chunk of a RUN-vocoded stream (R110, R284). -/
structure Chunk where
  uid : Nat
  start : Nat
  len : Nat
  final : Bool := false
  committed : Bool := false
  /-- staging bytes it holds from the pool's unreserved part -/
  fromPool : Nat := 0
  /-- staging bytes it holds in all -/
  staged : Nat := 0
  samples : List W32 := []
  mark : Option Nat := none
  /-- VOICE_HASH of its plan (R226) -/
  voice : Block := List.replicate 32 0
  /-- its samples are with the spout, some of them waiting under HOLD (R284) -/
  released : Bool := false
  deriving DecidableEq, Repr

/-- A stream (Table 5.3) and what its spout keeps for it. -/
structure Stream where
  ctx : Nat := 0
  /-- 0 FREE, 1 OPEN, 2 LOOPING, 3 CLOSING -/
  state : Nat := 0
  parked : Bool := false
  markPending : Bool := false
  lateLast : Bool := false
  ended : Bool := false
  lane : Option Nat := none
  loop : Option Nat := none
  hopLen : Nat := 1
  frameBytes : Nat := 64
  binding : Option Nat := none
  feedBase : Nat := 0
  feedFrames : Nat := 1
  feedLimit : W32 := 0
  sampleIndex : Nat := 0
  nextBseq : Nat := 0
  markIndex : Nat := 0
  lastMark : Nat := 0
  /-- END_INDEX of a close, none for the block in progress (R104) -/
  endIndex : Option Nat := none
  closing : Bool := false
  /-- loop block with which the stream ends (R104) -/
  finalAt : Option Nat := none
  /-- commands that wait on the stream (R101, R104, R108) -/
  openCmd : Option Nat := none
  markCmd : Option Nat := none
  closeCmd : Option Nat := none
  /-- spout: global cluster index, and staging bytes reserved there (R209, R283) -/
  spout : Nat := 0
  reserved : Nat := 0
  blockLen : Nat := 0
  rate : Nat := 0
  /-- watermark setting in force and pending (R220) -/
  keySlot : Nat := 0
  strength : Nat := 60
  tag : Nat := 0
  nextKeySlot : Option Nat := none
  nextTag : Option Nat := none
  /-- samples of the block in progress, waiting for its commit (R97) -/
  staged : List W32 := []
  /-- index of the mark applied to the lane, 0 for open (R197) -/
  markBase : Nat := 0
  /-- 24-bit values of the last block that was neither concealment nor FINAL (R214) -/
  lastGood : List Int := []
  /-- the next concealment block fades lastGood; else it is silent -/
  fade : Bool := false
  /-- steps done in the current block (R109) -/
  steps : Nat := 0
  /-- first block still to commit (R101) -/
  joined : Bool := false
  seg : Option Seg := none
  /-- the FINAL block is emitted -/
  finished : Bool := false
  /-- the last record is out while the stream still holds its lane -/
  lastOut : Bool := false
  /-- ended under it; its FINAL concealment block is owed at the due tick (Table 10.2) -/
  finalOwed : Bool := false
  chunks : List Chunk := []
  voice : Block := List.replicate 32 0
  deriving DecidableEq, Repr

/-- A loop record (Table 5.4) and the loop's run state. -/
structure Loop where
  ctx : Nat := 0
  /-- the standing STREAM_LOOP -/
  cmd : Nat := 0
  firstCore : Nat := 0
  split : Nat := 1
  lanesMax : Nat := 1
  deadline : Nat := 2
  freeRun : Bool := false
  committedHalf : Bool := false
  running : Bool := false
  rate : Nat := 8000
  blockLen : Nat := 16
  stateBase : Nat := 0
  stateRows : Nat := 0
  blockIndex : Nat := 0
  /-- BLOCK_INDEX at the most recent commit (Table 9.6) -/
  commitIndex : Nat := 0
  ticks : Nat := 0
  pacerInc : BitVec 48 := 0
  trim : Int := 0
  /-- 48-bit phase of the pacer (R114) -/
  pacer : BitVec 48 := 0
  /-- lane to stream -/
  lanes : Table Nat := []
  parkMask : W64 := 0
  stepsDone : Nat := 0
  /-- restored by CTX_RESTORE and not resumed (R289) -/
  stopped : Bool := false
  admitted : Bool := false
  costEst : Nat := 0
  plan : Plan := {}
  satBlock : Nat := 0
  satTotal : Nat := 0
  /-- key in force for the current block, and committed and working lane positions, key rank * 64 + lane -/
  key : Block := List.replicate 32 0
  pos : Table Nat := []
  workPos : Table Nat := []
  /-- data blocks emitted up to the last commit, and with the block in progress, by stream (R84) -/
  blocks : Table Nat := []
  workBlocks : Table Nat := []
  /-- TEMP vector latched at the block's first step (R202) -/
  temps : List W32 := []
  /-- lanes that step in the uncommitted block, once its first start has decided them (R103) -/
  stepping : Option (List Nat) := none
  /-- the loop stands for a saved one (R291) -/
  restored : Bool := false
  /-- streams parked in blocks whose due tick has not passed: (block, streams) (R103) -/
  parkedAt : List (Nat × List Nat) := []
  /-- a mark asked for a re-run of the block (R109) -/
  rerunAsked : Bool := false
  /-- CLOSE_LOOP was accepted -/
  closing : Bool := false
  closeCmd : Option Nat := none
  /-- CTX_SAVE commands that capture the loop at its next commit (R288) -/
  saves : List Nat := []
  /-- due ticks passed: the next block whose due tick has not (R107) -/
  nextDue : Nat := 0
  /-- the loop has ended and its streams' FINAL blocks are owed at the due tick (Table 10.2) -/
  dead : Bool := false
  deriving DecidableEq, Repr

/-- A ring target (Table 10.4) and the spout's view of it (R216-R218). -/
structure Target where
  base : Nat := 0
  slots : Nat := 2
  slotBytes : Nat := 64
  prodLine : Nat := 0
  consLine : Nat := 0
  prod : W64 := 0
  cons : W64 := 0
  lastBseq : Nat := 0
  abandoned : Bool := false
  missed : Option Missed := none
  deriving DecidableEq, Repr

/-- An output binding (Table 10.3). -/
structure Binding where
  ctx : Nat := 0
  pcmFmt : Nat := 0
  targets : List Target := []
  hold : Bool := false
  spout : Nat := 0xFF
  blockLen : Nat := 0
  rate : Nat := 0
  notify : Nat := 0
  written : Nat := 0
  stream : Option Nat := none
  /-- blocks that wait under HOLD, oldest first (R218) -/
  held : List OutBlock := []
  /-- run of withheld blocks with no gap record yet (R230) -/
  withheld : Option Missed := none
  /-- deleted once its stream's last record is out (R215) -/
  dying : Bool := false
  /-- place in the order in which rings were configured (R355) -/
  made : Nat := 0
  /-- the binding block as the host gave it, for CTX_SAVE -/
  block : Block := []
  deriving DecidableEq, Repr

/-- A spout's own counters (R225, R228). -/
structure Spout where
  segments : Nat := 0
  /-- interval ticks received and acknowledged -/
  acked : Nat := 0
  deriving DecidableEq, Repr

/-- A manifest that is formed (R229). -/
structure Manifest where
  interval : Nat
  intervalMs : Nat
  /-- segment records in root order -/
  records : List Block := []
  /-- header, signature and padding once it is signed or marked UNSIGNED -/
  bytes : Option Block := none
  deriving DecidableEq, Repr

/-- Settings of PROV_CONFIG (R228). -/
structure ProvCfg where
  intervalMs : Nat := 100
  segBlocks : Nat := 100
  cut : Bool := false
  deriving DecidableEq, Repr

/-- The manifest ring (R228, R229). -/
structure MRing where
  base : Nat := 0
  bytes : Nat := 0
  prodLine : Nat := 0
  consLine : Nat := 0
  prod : W64 := 0
  cons : W64 := 0
  made : Nat := 0
  /-- a write has failed: nothing more goes into the ring (R217, R229) -/
  stopped : Bool := false
  deriving DecidableEq, Repr

/-- The security block: intervals, manifests, signer, index log (R228-R235). -/
structure Prov where
  cfg : ProvCfg := {}
  nextCfg : Option ProvCfg := none
  ring : Option MRing := none
  nextRing : Option MRing := none
  ticks : Nat := 0
  /-- interval that segments closing now belong to -/
  interval : Nat := 0
  /-- closed segment records of intervals not yet built: (interval, record) -/
  records : List (Nat × Block) := []
  /-- intervals closed and waiting for acknowledgements: (interval, tick that closes it, INTERVAL_MS) -/
  closed : List (Nat × Nat × Nat) := []
  /-- built intervals waiting for a signature -/
  unsignedQ : List Manifest := []
  /-- manifests formed and not yet written -/
  held : List Manifest := []
  manifestSeq : Nat := 0
  /-- SHA-256 of the last header; none before the first -/
  prev : Option Block := none
  /-- 0 READY, 1 STALLED, 2 EXHAUSTED -/
  signer : Nat := 1
  nextIndex : Nat := 0
  reservedEnd : Nat := 0
  /-- an index-log program is under way for this chunk (R233) -/
  pendingChunk : Option Nat := none
  flashFails : Nat := 0
  /-- SEQ of the next index-log record -/
  logSeq : Nat := 0
  nextTree : Bool := false
  /-- the bottom tree and its 1,024-leaf subtree are ready (R232) -/
  treeReady : Bool := false
  subtreeReady : Bool := false
  signedCount : Ctr := 0
  unsignedCount : Ctr := 0
  segments : Ctr := 0
  withheld : Ctr := 0
  logRecords : Ctr := 0
  bootId : Block := []
  deriving DecidableEq, Repr

-- ## KV store

/-- A page-map entry (Table 6.1); seq 0xFFFF is an empty one. -/
structure MapEntry where
  page : Nat := 0
  seq : Nat := 0xFFFF
  block : Nat := 0
  score : Nat := 0
  pin : Bool := false
  ring : Bool := false
  deriving DecidableEq, Repr

/-- A sequence record (Table 6.2). -/
structure Seq where
  ctx : Nat := 0
  ring : Bool := false
  evict : Bool := false
  logBlock : Nat := 0
  layers : Nat := 1
  pinRecent : Nat := 0
  rowBytes : Nat := 64
  scoreShift : Nat := 0
  scoreInit : Nat := 0
  mapBase : Nat := 0
  mapSpan : Nat := 1
  live : Nat := 0
  evictions : Nat := 0
  length : Nat := 0
  window : Nat := 0
  homeDie : Nat := 0
  deriving DecidableEq, Repr

/-- A resident image handle (R46, R47, R226). -/
structure Image where
  wellAddr : Nat := 0
  hdr : ImageHdr := {}
  hash : Block := []
  /-- SPLIT of the most recent RESIDE -/
  split : Nat := 1
  /-- (core, context that made it resident there) -/
  owners : List (Nat × Nat) := []
  deriving DecidableEq, Repr

-- ## Wells

/-- One well (R301-R305, R321, R325). -/
structure Well where
  /-- 0 not trained, 1 in service, 2 quarantined -/
  state : Nat := 0
  spares : Nat := 256
  ceRetire : Byte := 8
  ce : Ctr := 0
  ue : Ctr := 0
  retired : Ctr := 0
  withdrawnCount : Ctr := 0
  withdrawnWrites : Ctr := 0
  patrolPasses : Ctr := 0
  /-- pages in which an uncorrectable granule was found and that are not yet retired (R304) -/
  uePages : List Nat := []
  /-- corrected errors per page since PERST# -/
  pageCe : Table Nat := []
  withdrawn : List Nat := []
  /-- most recent retirements, newest first: (page, UE, WITHDRAWN) -/
  log : List (Nat × Bool × Bool) := []
  /-- next granule of the patrol -/
  patrol : Nat := 0
  deriving DecidableEq, Repr

/-- HDM registers and the latched window (R316, R356). -/
structure Hdm where
  /-- HDM_RANGE0-7: enable, park, status, well, base and size, as written -/
  ranges : Table W64 := []
  /-- latched ranges in order: (range index, package address, bytes) -/
  window : List (Nat × Nat × Nat) := []
  committed : Bool := false
  decBase : Nat := 0
  decSize : Nat := 0
  errorNotCommitted : Bool := false
  /-- lock-on-commit was set when the decoder was committed (R356) -/
  locked : Bool := false
  parkedWrites : Ctr := 0
  deriving DecidableEq, Repr

/-- Physical upsets that no read has met yet: words with one or two wrong bits (R22, R32, R301). -/
structure Upsets where
  /-- cistern 32-byte words -/
  cisSingle : List Nat := []
  cisDouble : List Nat := []
  /-- accumulator values -/
  accSingle : List Nat := []
  accDouble : List Nat := []
  /-- well granules: one symbol, two symbols -/
  wellSingle : List Nat := []
  wellDouble : List Nat := []
  deriving DecidableEq, Repr

-- ## Lateral fabric

/-- A lateral message on its way: header fields and data (Table 7.5). -/
structure Msg where
  type : Nat
  vc : Nat
  src : Nat := 0
  dest : Nat := 0
  len : Nat := 0
  gen : Nat := 0
  addr : Nat := 0
  float : Nat := 0
  floatInc : Nat := 0
  group : Nat := 0xFFFF
  data : List Byte := []
  mcast : Option Nat := none
  deriving DecidableEq, Repr

/-- A flit that waits at an output port. -/
structure OutFlit where
  /-- input it came from: 0-3 a port, 4 this device, 5 a multicast replica (R145) -/
  src : Nat
  /-- receive buffer that it holds there, 2 * VC + DL (R150) -/
  inKey : Nat := 0
  /-- header without link fields, and payload -/
  hdr : Nat
  payload : Block
  deriving DecidableEq, Repr

/-- A lateral port (R142-R150). -/
structure Port where
  /-- 0 DOWN, 1 TRAINING, 2 UP, 3 RETRAINING, 4 FAILED -/
  state : Nat := 0
  far : Option Nat := none
  txSeq : BitVec 12 := 0
  rxSeq : BitVec 12 := 0
  /-- last acknowledged FSEQ and whether any has been -/
  acked : Option (BitVec 12) := none
  /-- last FSEQ accepted in order -/
  lastRx : Option (BitVec 12) := none
  /-- flits sent and not acknowledged, oldest first, each with the times it has been replayed (R148, R149) -/
  retry : List (Nat × Block) := []
  /-- retrains that have failed (R149) -/
  failed : Nat := 0
  /-- flits waiting for credits, oldest first -/
  outq : List OutFlit := []
  /-- per virtual channel, the input and class of the message whose flits are leaving (R145): 2 * input + DL -/
  owner : Table Nat := []
  /-- a flit was accepted and no acknowledgement of it has left -/
  ackDue : Bool := false
  /-- credits held, key 2 * VC + DL -/
  credits : Table Nat := []
  /-- credits to return, key 2 * VC + DL -/
  owed : Table Nat := []
  /-- payload bytes of the message being received, by VC -/
  partialRx : Table Block := []
  partialHdr : Table Block := []
  /-- header and payload of flits that wait behind a multicast message of their channel, oldest first (R164) -/
  behind : List (Nat × List Byte) := []
  kvTurn : Bool := false
  crcErrors : Ctr := 0
  replays : Ctr := 0
  retrains : Ctr := 0
  deriving DecidableEq, Repr

/-- A lateral group active on this device (R154-R157). -/
structure Group where
  members : Nat := 2
  rank : Nat := 0
  flags : Nat := 0
  retryMax : Nat := 0
  devices : List Nat := []
  /-- the member's RUN -/
  cmd : Nat := 0
  gen : Nat := 0
  /-- READY for this generation is out -/
  readySent : Bool := false
  started : Bool := false
  /-- canonical ring attention, and the shard buffer (R158) -/
  shardSlots : Nat := 2
  shardBuf : Nat := 0
  shardFloat : Nat := 0
  /-- SHARD_BLOCKS of each origin met so far: (device, blocks) -/
  shards : List (Nat × Nat) := []
  /-- leader: device numbers whose READY (N, FLAGS, CRC) and DONE have arrived -/
  readies : List (Nat × Nat × Nat × Nat) := []
  dones : List Nat := []
  committed : Bool := false
  /-- leader whose own command was lost with its die after DONE: the others still commit (R157) -/
  orphan : Bool := false
  /-- MASS contributions by device, FP32 per shard block (R161) -/
  masses : List (Nat × List W32) := []
  deriving DecidableEq, Repr

/-- A multicast message at the head of its channel: the ports still to be served (R164). -/
structure McastHead where
  msg : Msg
  /-- input port whose buffer it holds, and the buffer -/
  src : Option Nat := none
  inKey : Nat := 0
  /-- ports not yet served; none before it has reached the head -/
  ports : Option (List Nat) := none
  deriving DecidableEq, Repr

/-- A gap owed to a port (R164): the sequence numbers dropped, the first message dropped without its data, and its buffer
class on the port. -/
structure Gap where
  port : Nat
  first : Nat
  last : Nat
  msg : Msg
  dl : Nat := 0
  deriving DecidableEq, Repr

/-- The lateral register block and fabric (R142-R166). -/
structure Lateral where
  topo : W32 := 0
  portEn : BitVec 4 := 0
  ports : Table Port := []
  unroutable : Ctr := 0
  stale : Ctr := 0
  badType : Ctr := 0
  inboundDiscards : Ctr := 0
  shed : Ctr := 0
  holdExpiries : Ctr := 0
  mcast : Table W64 := []
  /-- next MSEQ of this device as the source of a group (R163) -/
  mseq : Table Nat := []
  /-- multicast messages that wait at this device, oldest first -/
  mcastQ : List McastHead := []
  /-- messages of this device that wait behind its multicast messages of the same channel, oldest first (R153) -/
  ownQ : List Msg := []
  /-- gaps owed to ports, oldest first (R164) -/
  gaps : List Gap := []
  /-- messages delivered here and not yet acted on -/
  inbox : List Msg := []
  groups : Table Group := []
  deriving DecidableEq, Repr

-- ## Power

/-- A switched domain (Table 15.10). -/
structure Dom where
  state : Nat := 4
  /-- hint in force, or none for the default floor -/
  hint : Option Nat := none
  hintTimed : Bool := false
  /-- a wake is under way: 0 no, 1 switch closing, 2 PLL starting, 3 flowing charge requested, 4 still charge
  requested (R332) -/
  waking : Nat := 0
  deriving DecidableEq, Repr

/-- What a waiting charge is for (R332, R334, R335). -/
inductive ChargeFor where
  /-- standing charge of a domain's state: domain, new state -/
  | standing (dom st : Nat)
  /-- engine and pump stage of a command on a core -/
  | stage (uid core : Nat)
  | spout (cluster : Nat)
  /-- flowing charge and per-core charges of an admitted loop (R336) -/
  | loop (l core : Nat)
  /-- added charge of a voltage step up -/
  | point (die : Nat)
  deriving DecidableEq, Repr

structure ChargeReq where
  what : ChargeFor
  /-- service class of R335: 0 spout, 1 tier-1, 2 other -/
  cls : Nat
  /-- the charge's parts: (entry of Table 15.4, how many) -/
  parts : List (Nat × Nat)
  /-- a request: the rise in units of 0.25 A that it asks for; a grant: the units it holds -/
  units : Nat
  deriving DecidableEq, Repr

/-- One rail's ledger (R330, Table 15.10); GRANTED is the sum of what its grants hold. -/
structure Rail where
  holds : List ChargeReq := []
  peak : Nat := 0
  queue : List ChargeReq := []
  deriving DecidableEq, Repr

/-- A die's operating point (R343-R345). -/
structure DiePerf where
  point : Nat := 0
  ceil : BitVec 2 := 0
  tj : Byte := 0
  /-- a step up is waiting for its voltage (R344) -/
  rising : Bool := false
  /-- clocks halved by over-current, and by heat at P3 (R339, R345) -/
  overCur : Bool := false
  hot : Bool := false
  deriving DecidableEq, Repr

/-- The power manager and the weir (R322-R351). -/
structure Power where
  calDone : Bool := false
  calFail : Byte := 0
  calDies : Byte := 0
  slowSrc : Bool := false
  throttled : Byte := 0
  tdpLimited : Bool := false
  peakW : BitVec 12 := 0x672
  tdpW : BitVec 12 := 0x5DC
  peakLock : Bool := false
  idleLowUs : W16 := 0x32
  idleDrainUs : W16 := 0x3E8
  idleDryMs : W16 := 0
  doms : Table Dom := []
  /-- well state per die: 0 ACTIVE, 1 POWER_DOWN, 2 SELF_REFRESH; default SELF_REFRESH -/
  wells : Table Nat := []
  rails : Table Rail := []
  overCount : Ctr := 0
  perf : Table DiePerf := []
  /-- calibrated entries, key 16 * die + entry; default the uncalibrated value -/
  cal : Table W16 := []
  hubTj : Byte := 0
  /-- package power averaged over 1 s, in watts (R346) -/
  avgW : Nat := 0
  /-- CXL link in L1 (R322) -/
  linkL1 : Bool := false
  deriving DecidableEq, Repr

-- ## Device

/-- Fused values of the part. No rule gives most of them; assumption 4. -/
structure Fuses where
  orderingA1 : Bool := false
  stepping : BitVec 7 := 0
  serial : W64 := 0
  /-- V_P0 of each die in units of 5 mV; default 144, 0.72 V -/
  vp0 : Table Byte := []
  romHash : Block := List.replicate 32 0
  fwKeyHash : Block := List.replicate 32 0
  minSvn : Nat := 0
  wmKey0 : Block := List.replicate 32 0
  deriving DecidableEq, Repr

/-- What the tree store keeps of a bottom tree (R232). -/
structure StoredTree where
  tree : Nat
  /-- the top 11 levels of nodes, the root first -/
  nodes : Block
  /-- the tree's top-level signature -/
  sig : Block
  /-- key-store MAC over both -/
  mac : Block
  deriving DecidableEq, Repr

/-- What the SPI flash keeps beside the Pyorn slots (Table 17.1). -/
structure Flash where
  /-- index log: the 16-byte records of each half of its region, by place (R233) -/
  logA : Table Block := []
  logB : Table Block := []
  /-- tree store, newest first (R232) -/
  trees : List StoredTree := []
  /-- retirement log: its 16-byte records, oldest first (R304, R374) -/
  retired : List Block := []
  deriving DecidableEq, Repr

/-- Where the part stands between power-up and service (R379, R381, R386). -/
inductive Mode where
  /-- VDD_AON absent -/
  | off
  /-- PERST# asserted, always-on domain runs -/
  | reset
  /-- boot sequence under way -/
  | booting
  | halted
  | serving
  | fatal
  deriving DecidableEq, Repr

/-- Device window, straps, chain, boot and pins (R365-R372, R376-R382, R407). -/
structure Device where
  mode : Mode := .reset
  fuses : Fuses := {}
  compatOrd : Bool := false
  head : Bool := true
  bootSrc : BitVec 2 := 0
  events : BitVec 14 := 0
  eventEn : BitVec 14 := 0x3FFF
  alertEn : BitVec 14 := 0x2260
  winErr : BitVec 10 := 0
  fatalCause : BitVec 4 := 0
  thermTrip : Bool := false
  number : BitVec 14 := 0
  numValid : Bool := false
  index : Byte := 0
  base : Option (BitVec 14) := none
  conflict : Bool := false
  smbAddr : BitVec 7 := 0x5A
  chainCrc : Ctr := 0
  chainForeign : Ctr := 0
  dbgBase : BitVec 7 := 0
  locked : Table Ctr := []
  /-- MSI-X vectors that are unmasked, and those pending while masked (R364) -/
  unmasked : List Nat := []
  pendingMsix : List Nat := []
  /-- dies in service, bit d -/
  dies : Byte := 0
  /-- dies that are quarantined, bit d (R19, R389) -/
  lost : Byte := 0
  recoveries : Nat := 0
  pyornHash : Block := List.replicate 32 0
  logDigest : Block := List.replicate 32 0
  slotB : Bool := false
  fallback : Bool := false
  pyornSvn : Nat := 0
  commitSvn : Bool := false
  /-- links that are retraining, with their failed attempts: key 0-7 spoke, 8-15 ring -/
  links : Table Nat := []
  flash : Flash := {}
  /-- LOG_SECTORS of the accepted Pyorn image (Table 17.2) -/
  logSectors : Nat := 16
  /-- READY: boot is complete (R379, Table 16.9) -/
  ready : Bool := false
  /-- an index-log program was under way when PERST# was asserted (R233, Table 17.11) -/
  torn : Option Nat := none
  /-- the latched straps are undefined (R409) -/
  strapsOpen : Bool := false
  deriving DecidableEq, Repr

/-- Command-window registers (Table 11.10). -/
structure CmdWin where
  pollUs : W16 := 0x3E8
  aqEnable : Bool := false
  aqCfg : W32 := 0x10000404
  aqNotify : W16 := 1
  aqSqBase : W64 := 0
  aqCqBase : W64 := 0
  aqLineBase : W64 := 0
  /-- round-robin: the queue visited last (R241) -/
  lastVisit : Nat := 0
  deriving DecidableEq, Repr

/-- A siphon transfer on the control network (R314, R315). -/
structure Siphon where
  dst : Nat
  data : List Byte
  float : W16 := 0
  inc : W16 := 0
  /-- the SIPHON_PUT, or the plan, that sent it -/
  uid : Option Nat := none
  fromPlan : Bool := false
  /-- core whose plan sent it (R44) -/
  core : Option Nat := none
  deriving DecidableEq, Repr

/-- The state of one SD960. -/
structure State where
  /-- the model's own: commands that wait, first in first out -/
  pending : List Instr := []
  /-- the model's own: what the part has driven outward -/
  outputs : List Output := []
  /-- the model's own: free values taken so far -/
  freeCtr : Nat := 0
  /-- hub cycles since PERST# (R292) -/
  hubCycle : Nat := 0
  dev : Device := {}
  cmdw : CmdWin := {}
  queues : Table Queue := []
  inflight : List Cmd := []
  nextUid : Nat := 0
  ctxs : Table Ctx := []
  clients : Table Client := []
  sched : Sched := {}
  cores : Table Core := []
  /-- floats, key core * 64 + n (R38) -/
  floats : Table W32 := []
  /-- performance counters, key core * 16 + m (Table 2.8) -/
  perf : Table Ctr := []
  /-- accumulator values, key (core * 4096 + row) * 64 + lane (R21) -/
  acc : Table C48 := []
  /-- cistern space, key the cistern-space address (R25) -/
  cis : Mem := []
  /-- poisoned cistern words: address / 32 -/
  cisPoison : List Nat := []
  /-- poisoned accumulator values: key of acc -/
  accPoison : List Nat := []
  /-- well space, key the package address (R297) -/
  wellMem : Mem := []
  /-- poisoned well granules: package address / 64 -/
  wellPoison : List Nat := []
  upsets : Upsets := {}
  wells : Table Well := []
  /-- host memory as the part sees it -/
  host : Mem := []
  /-- host lines that carry the CXL poison indication: address / 64 (R243) -/
  hostPoison : List Nat := []
  valves : Table W32 := []
  streams : Table Stream := []
  loops : Table Loop := []
  bindings : Table Binding := []
  /-- rings configured so far -/
  rings : Nat := 0
  spouts : Table Spout := []
  prov : Prov := {}
  /-- watermark keys, slots 1 to 63 (R219) -/
  wmKeys : Table Block := []
  seqs : Table Seq := []
  map : Table MapEntry := []
  images : Table Image := []
  hdm : Hdm := {}
  siphon : List Siphon := []
  lat : Lateral := {}
  pwr : Power := {}
  deriving DecidableEq, Repr

/-- Why the machine could stop with a fault. No rule of the spec stops it: every error is a status, a teardown, a
recovery or a fatal error, each a next state. -/
inductive Fault where
  /-- raised by nobody; safe -/
  | absent
  deriving DecidableEq, Repr

/-- Why a command could be refused. -/
inductive Refusal where
  /-- raised by exec for a command without a meaning; safe -/
  | notModelled (mnemonic : String)
  deriving DecidableEq, Repr

/-- The part when hardware reset ends, before the boot ROM runs (R10): PERST# is still asserted, every register
holds its Reset column, nothing is listed in memory. -/
def State.reset : State := {}

end Sys2Proof.Machine
end

