-- ==== Sys2Proof/Machine/Ops.lean ====
section
/-!
DEFINITION. The named operations on tables, memories, counters, events and outputs that every meaning is built from.
-/

namespace Sys2Proof.Machine

-- ## Tables

def tget? {α : Type} : Table α → Nat → Option α
  | [], _ => none
  | (j, v) :: t, k => if j == k then some v else tget? t k

def tget {α : Type} (t : Table α) (k : Nat) (d : α) : α := (tget? t k).getD d

/-- Writes an entry, keys rising. -/
def tset {α : Type} : Table α → Nat → α → Table α
  | [], k, v => [(k, v)]
  | (j, w) :: t, k, v =>
    if k < j then (k, v) :: (j, w) :: t
    else if k == j then (k, v) :: t
    else (j, w) :: tset t k v

def tdel {α : Type} (t : Table α) (k : Nat) : Table α := t.filter (fun e => e.1 != k)

def thas {α : Type} (t : Table α) (k : Nat) : Bool := (tget? t k).isSome

/-- Changes the entry of a key that is listed. -/
def tmod {α : Type} (t : Table α) (k : Nat) (f : α → α) : Table α :=
  match tget? t k with
  | some v => tset t k (f v)
  | none => t

/-- Changes the entry of a key, the default where none is listed. -/
def tupd {α : Type} (t : Table α) (k : Nat) (d : α) (f : α → α) : Table α := tset t k (f (tget t k d))

/-- Changes every entry. -/
def tmap {α : Type} (t : Table α) (f : Nat → α → α) : Table α := t.map (fun e => (e.1, f e.1 e.2))

-- ## Byte stores

def Memory.wfFrom : Nat → Mem → Bool
  | _, [] => true
  | lo, (a, b) :: m => decide (lo ≤ a) && b != 0 && Memory.wfFrom (a + 1) m

/-- The canonical form: addresses strictly rising, no listed byte 0. -/
def Memory.wf (m : Mem) : Bool := Memory.wfFrom 0 m

/-- One byte; an unlisted address reads 0. -/
def mget : Mem → Nat → Byte
  | [], _ => 0
  | (j, b) :: m, a => if j == a then b else mget m a

/-- Writes one byte and keeps the canonical form. -/
def mset : Mem → Nat → Byte → Mem
  | [], a, v => if v == 0 then [] else [(a, v)]
  | (j, b) :: m, a, v =>
    if a < j then (if v == 0 then (j, b) :: m else (a, v) :: (j, b) :: m)
    else if a == j then (if v == 0 then m else (a, v) :: m)
    else (j, b) :: mset m a v

def mread (m : Mem) : Nat → Nat → List Byte
  | _, 0 => []
  | a, n + 1 => mget m a :: mread m (a + 1) n

def mwrite : Mem → Nat → List Byte → Mem
  | m, _, [] => m
  | m, a, b :: bs => mwrite (mset m a b) (a + 1) bs

/-- Drops every listed byte of a range: it reads 0 again. -/
def mclear (m : Mem) (a n : Nat) : Mem := m.filter (fun c => c.1 < a || a + n ≤ c.1)

/-- Value of an n-byte little-endian field (R6). -/
def mnat (m : Mem) (a n : Nat) : Nat := leNat (mread m a n)

-- ## Byte strings

/-- Value of an n-byte field at an offset of a block (R6); bytes beyond the block are 0. -/
def field (b : Block) (off n : Nat) : Nat := leNat ((b.drop off).take n)

/-- Whether every byte of a range of a block is 0. -/
def zeros (b : Block) (off n : Nat) : Bool := ((b.drop off).take n).all (· == 0)

/-- Exactly n bytes: cut, or filled with zeros. -/
def padTo (n : Nat) (b : Block) : Block := b.take n ++ List.replicate (n - b.length) 0

/-- Overwrites bytes of a block at an offset. -/
def splice (b : Block) (off : Nat) (v : List Byte) : Block := b.take off ++ v ++ b.drop (off + v.length)

-- ## Counters (Table 2.4, Table 17.8)

/-- Adds to a performance counter: it stops at 2^63 − 1 and sets OVF when it would pass. -/
def ctrAdd (c : Ctr) (n : Nat) : Ctr :=
  let v := c.toNat % 2 ^ 63 + n
  if 2 ^ 63 ≤ v then BitVec.ofNat 64 (2 ^ 64 - 1) else BitVec.ofNat 64 (v + (c.toNat / 2 ^ 63) * 2 ^ 63)

/-- Addition that stops at the largest value of a width. -/
def satAdd (bits a n : Nat) : Nat := min (a + n) (2 ^ bits - 1)

-- ## Free values

/-- The next free value; the counter advances (assumption 2). -/
def takeFree (s : State) : Nat × State := (Config.freeValue s.freeCtr, { s with freeCtr := s.freeCtr + 1 })

-- ## Outputs, MSI-X and events

def emit (o : Output) (s : State) : State := { s with outputs := s.outputs ++ [o] }

/-- Sends an MSI-X message, or sets its pending bit while the vector is masked (R364). -/
def msix (v : Nat) (s : State) : State :=
  if s.dev.unmasked.contains v then emit (.msix v) s
  else if s.dev.pendingMsix.contains v then s
  else { s with dev := { s.dev with pendingMsix := s.dev.pendingMsix ++ [v] } }

/-- Raises event e of Table 16.7 (R364). -/
def raise (e : Nat) (s : State) : State :=
  let was := s.dev.events.getLsbD e
  let s' := { s with dev := { s.dev with events := s.dev.events ||| BitVec.ofNat 14 (2 ^ e) } }
  if !was && s.dev.eventEn.getLsbD e then msix (1057 + e) s' else s'

abbrev evAccess : Nat := 0
abbrev evLocked : Nat := 1
abbrev evQueue : Nat := 2
abbrev evHostWrite : Nat := 3
abbrev evClient : Nat := 4
abbrev evPower : Nat := 5
abbrev evThermal : Nat := 6
abbrev evCorrected : Nat := 7
abbrev evRecovery : Nat := 8
abbrev evDieLost : Nat := 9
abbrev evProv : Nat := 10
abbrev evLateral : Nat := 11
abbrev evChain : Nat := 12
abbrev evFatal : Nat := 13

/-- Level of ALERT#: asserted while an enabled event is set, and after a fatal error (R365). -/
def alertLow (s : State) : Bool :=
  s.dev.events &&& s.dev.alertEn != 0 || s.dev.mode == .fatal

-- ## Parts of the state

def State.modDev (s : State) (f : Device → Device) : State := { s with dev := f s.dev }
def State.modPwr (s : State) (f : Power → Power) : State := { s with pwr := f s.pwr }
def State.modLat (s : State) (f : Lateral → Lateral) : State := { s with lat := f s.lat }
def State.modProv (s : State) (f : Prov → Prov) : State := { s with prov := f s.prov }
def State.modSched (s : State) (f : Sched → Sched) : State := { s with sched := f s.sched }

def State.ctx? (s : State) (c : Nat) : Option Ctx := tget? s.ctxs c
def State.modCtx (s : State) (c : Nat) (f : Ctx → Ctx) : State := { s with ctxs := tmod s.ctxs c f }
def State.modStats (s : State) (c : Nat) (f : CtxStats → CtxStats) : State :=
  s.modCtx c (fun x => { x with stats := f x.stats })

def State.core (s : State) (g : Nat) : Core := tget s.cores g {}
def State.modCore (s : State) (g : Nat) (f : Core → Core) : State := { s with cores := tupd s.cores g {} f }
def State.perfAdd (s : State) (g m n : Nat) : State :=
  { s with perf := tupd s.perf (16 * g + m) 0 (fun c => ctrAdd c n) }

def State.queue? (s : State) (q : Nat) : Option Queue := tget? s.queues q
def State.modQueue (s : State) (q : Nat) (f : Queue → Queue) : State := { s with queues := tmod s.queues q f }
def State.modStream (s : State) (i : Nat) (f : Stream → Stream) : State := { s with streams := tmod s.streams i f }
def State.modLoop (s : State) (l : Nat) (f : Loop → Loop) : State := { s with loops := tmod s.loops l f }
def State.modBinding (s : State) (b : Nat) (f : Binding → Binding) : State :=
  { s with bindings := tmod s.bindings b f }
def State.modSeq (s : State) (q : Nat) (f : Seq → Seq) : State := { s with seqs := tmod s.seqs q f }
def State.well (s : State) (d : Nat) : Well := tget s.wells d {}
def State.modWell (s : State) (d : Nat) (f : Well → Well) : State := { s with wells := tupd s.wells d {} f }
def State.mapEntry (s : State) (i : Nat) : MapEntry := tget s.map i {}
def State.dom (s : State) (n : Nat) : Dom := tget s.pwr.doms n {}
def State.modDom (s : State) (n : Nat) (f : Dom → Dom) : State :=
  s.modPwr (fun p => { p with doms := tupd p.doms n {} f })
def State.rail (s : State) (r : Nat) : Rail := tget s.pwr.rails r {}
def State.modRail (s : State) (r : Nat) (f : Rail → Rail) : State :=
  s.modPwr (fun p => { p with rails := tupd p.rails r {} f })
def State.diePerf (s : State) (d : Nat) : DiePerf := tget s.pwr.perf d {}
def State.modDie (s : State) (d : Nat) (f : DiePerf → DiePerf) : State :=
  s.modPwr (fun p => { p with perf := tupd p.perf d {} f })
def State.port (s : State) (p : Nat) : Port := tget s.lat.ports p {}
def State.modPort (s : State) (p : Nat) (f : Port → Port) : State :=
  s.modLat (fun l => { l with ports := tupd l.ports p {} f })

-- ## Indices (R4)

def dieOfCore (g : Nat) : Nat := g / 32
def clusterOfCore (g : Nat) : Nat := g / 8
def dieOfCluster (k : Nat) : Nat := k / 4

/-- Whether a die is in service (R19, R380). -/
def State.dieIn (s : State) (d : Nat) : Bool := d < 8 && s.dev.dies.getLsbD d

def dieList (b : Byte) : List Nat := (List.range 8).filter (fun d => b.getLsbD d)

/-- Whether the part serves commands (R379, R381, R386). -/
def State.serving (s : State) : Bool := s.dev.mode == .serving

-- ## Host memory

def hostRead (s : State) (a n : Nat) : List Byte := mread s.host a n

/-- A 64-byte line that holds one count and zeros (R238). -/
def countLine (n : W64) : List Byte := leBytes 8 n.toNat ++ List.replicate 56 0

-- ## Poison and upsets

/-- Words of `unit` bytes that a range touches. -/
def unitsOf (unit a n : Nat) : List Nat := if n == 0 then [] else (List.range ((a + n - 1) / unit - a / unit + 1)).map (· + a / unit)

/-- Words of `unit` bytes that a range covers wholly. -/
def unitsIn (unit a n : Nat) : List Nat :=
  let lo := cdiv a unit
  let hi := (a + n) / unit
  (List.range (hi - lo)).map (· + lo)

def without (xs ys : List Nat) : List Nat := xs.filter (fun x => !ys.contains x)
def withAll (xs ys : List Nat) : List Nat := ys.foldl (fun acc y => if acc.contains y then acc else acc ++ [y]) xs

def hostWrite (a : Nat) (bs : List Byte) (s : State) : State :=
  { s with host := mwrite s.host a bs, hostPoison := without s.hostPoison (unitsIn 64 a bs.length) }

def hostPoisoned (s : State) (a n : Nat) : Bool := (unitsOf 64 a n).any (fun w => s.hostPoison.contains w)

/-- One store of the host to its own memory. -/
def hostStore (x : HostStore) (s : State) : State :=
  let s := hostWrite x.addr x.data s
  if x.poison then { s with hostPoison := withAll s.hostPoison (unitsOf 64 x.addr x.data.length) } else s

/-- Stores of the host, in order. -/
def hostStores (xs : List HostStore) (s : State) : State := xs.foldl (fun s x => hostStore x s) s

/-- Sets a bit of CORE_ERR_STATUS. -/
def coreErr (g bit : Nat) (s : State) : State :=
  s.modCore g (fun c => { c with err := c.err ||| BitVec.ofNat 8 (2 ^ bit) })

-- ## Cistern space (R25, R27, R32)

/-- Global core index and offset of a cistern-space address. -/
def csCore (a : Nat) : Nat := a / 2 ^ 23 % 256
def csOff (a : Nat) : Nat := a % 2 ^ 23
def csAddr (g off : Nat) : Nat := g * 2 ^ 23 + off

/-- The valid region that holds a whole range of offsets, if one does (R26, R27). -/
def regionAt? (c : Core) (off n : Nat) : Option Nat :=
  (List.range 8).find? (fun i =>
    let r := c.regions.getD i {}
    r.valid && r.base * 8192 ≤ off && off + n ≤ (r.base + r.size) * 8192)

/-- Whether every byte of a range of offsets lies in some valid region (R27). -/
def inRegions (c : Core) (off n : Nat) : Bool :=
  off + n ≤ 2 ^ 23 &&
  (unitsOf 8192 off n).all (fun k => (List.range 8).any (fun i =>
    let r := c.regions.getD i {}
    r.valid && r.base ≤ k && k < r.base + r.size))

/-- Sets POISONED in the entry of the resident image that holds a poisoned word (R32). -/
def markImageWord (w : Nat) (s : State) : State :=
  let g := w / 2 ^ 18
  match regionAt? (s.core g) (csOff (w * 32)) 32 with
  | some i => if 4 ≤ i then
      s.modCore g (fun c => { c with regions := c.regions.set i { c.regions.getD i {} with poisoned := true } })
    else s
  | none => s

/-- What a read of cistern words meets first: single-bit errors are corrected and counted, double-bit errors poison
the word, and the region of a poisoned resident image is marked, however the word was poisoned (R32). -/
def meetCisWord (w : Nat) (s : State) : State :=
  let g := w / 2 ^ 18
  if s.upsets.cisDouble.contains w then
    let s := { s with upsets := { s.upsets with cisDouble := without s.upsets.cisDouble [w] }
                      cisPoison := withAll s.cisPoison [w] }
    markImageWord w (coreErr g 1 s)
  else if s.cisPoison.contains w then markImageWord w s
  else if s.upsets.cisSingle.contains w then
    let s := { s with upsets := { s.upsets with cisSingle := without s.upsets.cisSingle [w] } }
    let s := coreErr g 0 (s.modCore g (fun c => { c with cisCe := BitVec.ofNat 16 (satAdd 16 c.cisCe.toNat 1) }))
    raise evCorrected s
  else s

def meetCis (a n : Nat) (s : State) : State := (unitsOf 32 a n).foldl (fun s w => meetCisWord w s) s

def cisPoisoned (s : State) (a n : Nat) : Bool := (unitsOf 32 a n).any (fun w => s.cisPoison.contains w)

/-- A write of cistern bytes: a word written whole takes fresh check bits (R32). -/
def cisWrite (a : Nat) (bs : List Byte) (s : State) : State :=
  let ws := unitsIn 32 a bs.length
  { s with cis := mwrite s.cis a bs
           cisPoison := without s.cisPoison ws
           upsets := { s.upsets with cisSingle := without s.upsets.cisSingle ws
                                     cisDouble := without s.upsets.cisDouble ws } }

/-- Zeroes a range of cistern space. -/
def cisZero (a n : Nat) (s : State) : State :=
  let ws := unitsIn 32 a n
  { s with cis := mclear s.cis a n
           cisPoison := without s.cisPoison ws
           upsets := { s.upsets with cisSingle := without s.upsets.cisSingle ws
                                     cisDouble := without s.upsets.cisDouble ws } }

/-- Marks the cistern words of a range poisoned (R302). -/
def cisPoisonRange (a n : Nat) (s : State) : State := { s with cisPoison := withAll s.cisPoison (unitsOf 32 a n) }

-- ## Accumulators (R21, R22)

def accKey (g row lane : Nat) : Nat := (g * 4096 + row) * 64 + lane

def accGet (s : State) (g row lane : Nat) : Nat := (tget s.acc (accKey g row lane) 0).toNat

/-- Writes one value by its key; fresh check bits go with it (R22). -/
def accPut (k v : Nat) (s : State) : State :=
  { s with acc := tset s.acc k (BitVec.ofNat 48 v)
           accPoison := without s.accPoison [k]
           upsets := { s.upsets with accSingle := without s.upsets.accSingle [k]
                                     accDouble := without s.upsets.accDouble [k] } }

def accSet (g row lane v : Nat) (s : State) : State := accPut (accKey g row lane) v s

/-- Writes values under a list of keys. -/
def accPuts (ks vs : List Nat) (s : State) : State := (ks.zip vs).foldl (fun s p => accPut p.1 p.2 s) s

/-- Writes values into consecutive lanes, row after row from the first. -/
def accWrite (g row : Nat) (vs : List Nat) (s : State) : State :=
  ((List.range vs.length).zip vs).foldl (fun s p => accSet g (row + p.1 / 64) (p.1 % 64) p.2 s) s

/-- n values from consecutive lanes, row after row. -/
def accRead (s : State) (g row n : Nat) : List Nat :=
  (List.range n).map (fun i => accGet s g (row + i / 64) (i % 64))

/-- What a read of accumulator values meets first (R22). -/
def meetAccKey (k : Nat) (s : State) : State :=
  let g := k / 2 ^ 18
  if s.upsets.accDouble.contains k then
    coreErr g 3 { s with upsets := { s.upsets with accDouble := without s.upsets.accDouble [k] }
                         accPoison := withAll s.accPoison [k] }
  else if s.upsets.accSingle.contains k then
    let s := { s with upsets := { s.upsets with accSingle := without s.upsets.accSingle [k] } }
    let s := coreErr g 2 (s.modCore g (fun c => { c with accCe := BitVec.ofNat 16 (satAdd 16 c.accCe.toNat 1) }))
    raise evCorrected s
  else s

def accKeys (g row n : Nat) : List Nat := (List.range n).map (fun i => accKey g (row + i / 64) (i % 64))

def meetKeys (ks : List Nat) (s : State) : State := ks.foldl (fun s k => meetAccKey k s) s

def keysPoisoned (s : State) (ks : List Nat) : Bool := ks.any (fun k => s.accPoison.contains k)

def meetAcc (g row n : Nat) (s : State) : State := meetKeys (accKeys g row n) s

/-- Poisons accumulator values by their keys. -/
def accPoisonKeys (ks : List Nat) (s : State) : State := { s with accPoison := withAll s.accPoison ks }

/-- Zeroes entry rows. -/
def accZero (g row rows : Nat) (s : State) : State :=
  let lo := accKey g row 0
  let hi := accKey g (row + rows) 0
  let out := fun k => k < lo || hi ≤ k
  { s with acc := s.acc.filter (fun e => out e.1)
           accPoison := s.accPoison.filter out
           upsets := { s.upsets with accSingle := s.upsets.accSingle.filter out
                                     accDouble := s.upsets.accDouble.filter out } }

-- ## Floats (R38, R39)

def floatGet (s : State) (g n : Nat) : W32 := tget s.floats (64 * g + n) 0
def floatSet (g n : Nat) (v : W32) (s : State) : State := { s with floats := tset s.floats (64 * g + n) v }

/-- The count has reached the target (R40). -/
def reached (count target : W32) : Bool := (count - target).toNat < 2 ^ 31

/-- Whether slot k of a core holds a context. -/
def slotValid (c : Core) (k : Nat) : Bool := (c.regions.getD k {}).valid && k < 4

/-- A float name: core [7:0], slot [9:8], local number [13:10] (Table 7.5). -/
def floatCore (f : Nat) : Nat := f % 256
def floatPhys (f : Nat) : Nat := 16 * (f / 256 % 4) + f / 1024 % 16

/-- Adds FLOAT_INC to the named float once. A float of a slot that holds no context is discarded with INBOUND_BAD
(R38, R39); the answer says whether it was performed. -/
def floatInc (f inc : Nat) (s : State) : Bool × State :=
  if inc == 0 then (true, s)
  else
    let g := floatCore f
    let n := floatPhys f
    if slotValid (s.core g) (n / 16) then (true, floatSet g n (floatGet s g n + BitVec.ofNat 32 inc) s)
    else (false, coreErr g 7 s)

-- ## Well space (R297, R301, R302, R305)

def wellOf (a : Nat) : Nat := a / 2 ^ 35
def pageOf (a : Nat) : Nat := a / 65536

/-- The page-map region of a well (R119). -/
def inMapRegion (a : Nat) : Bool := 0x7FFC00000 ≤ a % 2 ^ 35

/-- Page-map entry (Table 6.1). -/
def entryBytes (e : MapEntry) : Block :=
  leBytes 8 (if e.seq == 0xFFFF then 0xFFFF * 2 ^ 22
    else e.page + e.seq * 2 ^ 22 + e.block % 2 ^ 14 * 2 ^ 38 + e.score % 2 ^ 10 * 2 ^ 52 + b2n e.pin * 2 ^ 62 +
      b2n e.ring * 2 ^ 63)

/-- The bytes of a range of well space: the page-map region reads as the map's entries (R119). -/
def wellRead (s : State) (a n : Nat) : List Byte :=
  if (unitsOf (2 ^ 35) a n).any (fun d => a < (d + 1) * 2 ^ 35 && d * 2 ^ 35 + 0x7FFC00000 < a + n) then
    (List.range n).map (fun k =>
      let b := a + k
      if inMapRegion b then
        (entryBytes (s.mapEntry (wellOf b * 2 ^ 19 + (b % 2 ^ 35 - 0x7FFC00000) / 8))).getD (b % 8) 0
      else mget s.wellMem b)
  else mread s.wellMem a n

def withdrawnAt (s : State) (a : Nat) : Bool := (s.well (wellOf a)).withdrawn.contains (pageOf a)

/-- What a read of well granules meets first: one wrong symbol is corrected and counted against the page, two poison
the granule (R301). -/
def meetWellGranule (w : Nat) (s : State) : State :=
  let d := w / 2 ^ 29
  if s.upsets.wellDouble.contains w then
    ({ s with upsets := { s.upsets with wellDouble := without s.upsets.wellDouble [w] }
              wellPoison := withAll s.wellPoison [w] }).modWell d (fun x =>
      { x with ue := ctrAdd x.ue 1, uePages := withAll x.uePages [w / 1024] })
  else if s.upsets.wellSingle.contains w then
    let s := { s with upsets := { s.upsets with wellSingle := without s.upsets.wellSingle [w] } }
    raise evCorrected (s.modWell d (fun x =>
      { x with ce := ctrAdd x.ce 1, pageCe := tupd x.pageCe (w / 1024) 0 (· + 1) }))
  else s

/-- A well that is accessed is ACTIVE while its die uncore flows (R325). -/
def touchWell (d : Nat) (s : State) : State :=
  if (s.dom (32 + d)).state == 0 then s.modPwr (fun p => { p with wells := tset p.wells d 0 }) else s

def meetWell (a n : Nat) (s : State) : State := (unitsOf 64 a n).foldl (fun s w => meetWellGranule w s) s

def wellPoisoned (s : State) (a n : Nat) : Bool :=
  (unitsOf 64 a n).any (fun w => s.wellPoison.contains w || withdrawnAt s (w * 64))

/-- A write of well bytes: a granule written whole takes fresh check bytes; writes to a withdrawn page are discarded and
counted (R301, R305, R310). A range is cut at page boundaries. -/
def wellWritePiece (a : Nat) (bs : List Byte) (s : State) : State :=
  if withdrawnAt s a then s.modWell (wellOf a) (fun w => { w with withdrawnWrites := ctrAdd w.withdrawnWrites 1 })
  else
    let ws := unitsIn 64 a bs.length
    { s with wellMem := mwrite s.wellMem a bs
             wellPoison := without s.wellPoison ws
             upsets := { s.upsets with wellSingle := without s.upsets.wellSingle ws
                                       wellDouble := without s.upsets.wellDouble ws } }

def pagePieces (a : Nat) (bs : List Byte) : List (Nat × List Byte) :=
  if bs.isEmpty then [] else
  let first := 65536 - a % 65536
  let rest := bs.length - first
  (a, bs.take first) :: (List.range (cdiv rest 65536)).map (fun k =>
    (a + first + k * 65536, (bs.drop (first + k * 65536)).take 65536))

def wellWrite (a : Nat) (bs : List Byte) (s : State) : State :=
  (pagePieces a bs).foldl (fun s p => wellWritePiece p.1 p.2 s) s

def wellPoisonRange (a n : Nat) (s : State) : State := { s with wellPoison := withAll s.wellPoison (unitsOf 64 a n) }

end Sys2Proof.Machine
end

