-- ==== Sys2Proof/Machine/Operands.lean ====
section
/-!
DEFINITION. Operand forms: typed addresses (R244, R298), the command packet (R242), the opcode table (R245, R426) and
the blocks that commands name. A check is a pair: whether it holds, and the DETAIL that names its field (R251).
-/

namespace Sys2Proof.Machine

-- ## Typed addresses

inductive Addr where
  | host (a : Nat)
  | well (a : Nat)
  /-- a cistern-space address -/
  | cis (a : Nat)
  deriving DecidableEq, Repr

/-- R244, R298, Table 14.1; none for a reserved address. -/
def typedAddr (v : Nat) : Option Addr :=
  if v < 2 ^ 63 then (if v < 2 ^ 52 then some (.host v) else none)
  else
    let p := v - 2 ^ 63
    if p < 2 ^ 38 then some (.well p)
    else if p < 2 ^ 38 + 2 ^ 31 then some (.cis (p - 2 ^ 38))
    else none

/-- A W field: a typed address in well space (R298). -/
def wellAddr (v : Nat) : Option Nat :=
  match typedAddr v with
  | some (.well a) => some a
  | _ => none

/-- An H field. -/
def hostAddr (v : Nat) : Option Nat := if v < 2 ^ 52 then some v else none

/-- A CS field: bit 31 is 0 (R25). -/
def csField (v : Nat) : Option Nat := if v < 2 ^ 31 then some v else none

/-- Whether n bytes from an address exist, outside the dies that are out of service (R420). -/
def addrOk (s : State) (ad : Addr) (n : Nat) : Bool :=
  match ad with
  | .host a => a + n ≤ 2 ^ 52
  | .well a => a + n ≤ 2 ^ 38 && (n == 0 || (unitsOf (2 ^ 35) a n).all (fun d => s.dieIn d))
  | .cis a => a + n ≤ 2 ^ 31 && (n == 0 || (unitsOf (2 ^ 23) a n).all (fun g => s.dieIn (dieOfCore (g % 256))))

/-- What a read delivers. -/
inductive Got where
  | bytes (b : List Byte)
  | poison
  /-- discarded under R27 -/
  | discarded
  deriving DecidableEq, Repr

/-- Pieces of a range of cistern space, core by core. -/
def csPieces (a n : Nat) : List (Nat × Nat) :=
  if n == 0 then [] else
  let first := min n (2 ^ 23 - csOff a)
  (a, first) :: (List.range (cdiv (n - first) (2 ^ 23))).map (fun k =>
    (a + first + k * 2 ^ 23, min (2 ^ 23) (n - first - k * 2 ^ 23)))

/-- Whether a range of cistern space lies in valid regions (R27). -/
def csAllowed (s : State) (a n : Nat) : Bool :=
  a + n ≤ 2 ^ 31 && (csPieces a n).all (fun p => inRegions (s.core (csCore p.1)) (csOff p.1) p.2)

/-- Sets INBOUND_BAD on the cores of a range (R27). An address with bit 31 set lies outside cistern space and names no
core; the model sets the bit on the core that bits [30:23] name. DESIGN CHOICE: R25 and R27 do not say (assumption 219). -/
def inboundBad (a n : Nat) (s : State) : State := (csPieces a n).foldl (fun s p => coreErr (csCore p.1) 7 s) s

/-- Counts bytes that cross the inbound ports of the cores of a range; a core's own pump uses the wide port (Table 2.8). -/
def countInbound (own : Option Nat) (a n : Nat) (s : State) : State :=
  (csPieces a n).foldl (fun s p => if own == some (csCore p.1) then s else s.perfAdd (csCore p.1) 4 p.2) s

/-- Reads n bytes, meeting errors on the way; `own` is the core whose pump reads. -/
def readFrom (own : Option Nat) (ad : Addr) (n : Nat) (s : State) : Got × State :=
  match ad with
  | .host a => (if hostPoisoned s a n then .poison else .bytes (hostRead s a n), s)
  | .well a =>
    let s := touchWell (wellOf a) (meetWell a n s)
    (if wellPoisoned s a n then .poison else .bytes (wellRead s a n), s)
  | .cis a =>
    if csAllowed s a n then
      let s := countInbound own a n (meetCis a n s)
      if cisPoisoned s a n then (.poison, s.perfAdd (csCore a) 9 1) else (.bytes (mread s.cis a n), s)
    else (.discarded, inboundBad a n s)

def readAt (ad : Addr) (n : Nat) (s : State) : Got × State := readFrom none ad n s

/-- Writes bytes; the answer is false where the write is discarded under R27. -/
def writeTo (own : Option Nat) (ad : Addr) (bs : List Byte) (s : State) : Bool × State :=
  match ad with
  | .host a => (true, hostWrite a bs s)
  | .well a => (true, wellWrite a bs (touchWell (wellOf a) s))
  | .cis a =>
    if csAllowed s a bs.length then (true, countInbound own a bs.length (cisWrite a bs s))
    else (false, inboundBad a bs.length s)

def writeAt (ad : Addr) (bs : List Byte) (s : State) : Bool × State := writeTo none ad bs s

-- ## Checks and their DETAIL (Table 11.8)

abbrev Check := Bool × Nat

/-- Byte offset 0xFFF_FFFF: no field applies. -/
abbrev noField : Nat := 0xFFFFFFF

def inPacket (off : Nat) : Nat := off
def inArgs (off : Nat) : Nat := 2 * 2 ^ 28 + off
/-- The plan's byte layout is Hjelbum's: no offset is named. -/
def inPlan : Nat := 3 * 2 ^ 28 + noField
def inObject (off : Nat) : Nat := 4 * 2 ^ 28 + off

/-- A field of the parameters: in the packet, or in the parameter block (R242). -/
def inParams (c : Cmd) (off : Nat) : Nat := if c.pointer then 2 ^ 28 + off else 0x20 + off

/-- The details of the checks that fail. -/
def failing (cs : List Check) : List Nat := cs.filterMap (fun c => if c.1 then none else some c.2)

/-- Which field is named when several are at fault is not defined (Table 11.8): a free choice. -/
def pickDetail (ds : List Nat) (s : State) : Nat × State :=
  match ds with
  | [] => (0, s)
  | [d] => (d, s)
  | d :: rest =>
    let (k, s) := takeFree s
    ((d :: rest).getD (k % (rest.length + 1)) d, s)

-- ## Opcodes (Table 11.5)

abbrev opCtxCreate : Nat := 0x01
abbrev opCtxDestroy : Nat := 0x02
abbrev opCtxSave : Nat := 0x03
abbrev opCtxRestore : Nat := 0x04
abbrev opCtxPin : Nat := 0x05
abbrev opQueueOpen : Nat := 0x06
abbrev opQueueClose : Nat := 0x07
abbrev opCopy : Nat := 0x10
abbrev opFill : Nat := 0x11
abbrev opSiphonPut : Nat := 0x12
abbrev opReside : Nat := 0x13
abbrev opUnreside : Nat := 0x14
abbrev opRun : Nat := 0x20
abbrev opStreamOpen : Nat := 0x30
abbrev opStreamFeed : Nat := 0x31
abbrev opStreamMark : Nat := 0x32
abbrev opStreamClose : Nat := 0x33
abbrev opStreamLoop : Nat := 0x34
abbrev opKvSeqOpen : Nat := 0x40
abbrev opKvSeqClose : Nat := 0x41
abbrev opKvPolicy : Nat := 0x42
abbrev opRngKey : Nat := 0x50
abbrev opRngStateGet : Nat := 0x51
abbrev opValveSet : Nat := 0x60
abbrev opValveSignal : Nat := 0x61
abbrev opValveWait : Nat := 0x62
abbrev opFence : Nat := 0x63
abbrev opOutBind : Nat := 0x70
abbrev opOutUnbind : Nat := 0x71
abbrev opWmConfig : Nat := 0x72
abbrev opWmDetect : Nat := 0x73
abbrev opProvConfig : Nat := 0x74
abbrev opAttest : Nat := 0x75
abbrev opKill : Nat := 0x80
abbrev opScrub : Nat := 0x81
abbrev opPowerHint : Nat := 0x90
abbrev opStatsSnapshot : Nat := 0xA0

/-- Opcodes of Table 11.5, the vendor range excluded. -/
def opcodes : List Nat :=
  [0x01, 0x02, 0x03, 0x04, 0x05, 0x06, 0x07, 0x10, 0x11, 0x12, 0x13, 0x14, 0x20, 0x30, 0x31, 0x32, 0x33, 0x34] ++
  [0x40, 0x41, 0x42, 0x50, 0x51, 0x60, 0x61, 0x62, 0x63, 0x70, 0x71, 0x72, 0x73, 0x74, 0x75, 0x80, 0x81, 0x90, 0xA0]

def isVendor (op : Nat) : Bool := 0xF0 ≤ op && op ≤ 0xFF

/-- Scope Device of Table 11.5. -/
def isDevice (op : Nat) : Bool := [0x06, 0x07, 0x74, 0x75, 0x80, 0x90].contains op

/-- Opcodes that use a pump without a plan (R21, R269). -/
def isPump (op : Nat) : Bool := [0x03, 0x10, 0x11, 0x13, 0x73, 0x81].contains op

/-- Form Inline only, and form Pointer (R426). -/
def inlineOnly (op : Nat) : Bool := op == opRngKey || op == opWmConfig
def pointerOnly (op : Nat) : Bool := op == opWmDetect || op == opProvConfig

/-- The defined bits of an opcode's parameters: (offset, bytes, mask); 0 stands for all bits of the field. -/
def layoutOf (op arg : Nat) (p : Block) : List (Nat × Nat × Nat) :=
  if op == opCtxCreate then [(0, 8, 0)]
  else if op == opCtxSave || op == opCtxRestore then [(0, 8, 0), (8, 8, 0)]
  else if op == opCtxPin then [(0, 1, 0)]
  else if op == opQueueOpen then [(0, 2, 0), (2, 1, 0), (3, 1, 0), (4, 2, 0), (6, 2, 0), (8, 8, 0), (16, 8, 0), (24, 8, 0)]
  else if op == opQueueClose then [(0, 2, 0)]
  else if op == opCopy then [(0, 8, 0), (8, 8, 0), (16, 6, 0), (24, 2, 0), (26, 2, 0)]
  else if op == opFill then [(0, 8, 0), (8, 6, 0), (16, 8, 0), (24, 2, 0), (26, 2, 0)]
  else if op == opSiphonPut then [(0, 4, 0), (4, 2, 0), (6, 2, 0), (8, 2, 0), (16, min 256 (field p 4 2), 0)]
  else if op == opReside then [(0, 8, 0), (8, 2, 0xFFF), (10, 1, 0), (11, 1, 0), (12, 1, 0)]
  else if op == opUnreside then [(0, 2, 0), (2, 1, 0), (3, 1, 0)]
  else if op == opRun then [(0, 8, 0), (8, 8, 0), (16, 4, 0), (24, 8, 0)]
  else if op == opStreamOpen then [(0, 2, 0), (2, 2, 0), (4, 2, 0), (6, 2, 0), (8, 2, 0), (16, 8, 0), (24, 4, 0)]
  else if op == opStreamFeed then [(0, 2, 0), (2, 1, 1), (4, 4, 0), (8, 4, 0)]
  else if op == opStreamMark then [(0, 2, 0), (8, 6, 0)]
  else if op == opStreamClose then [(0, 2, 0), (2, 1, 1), (8, 6, 0)]
  else if op == opStreamLoop then
    [(0, 2, 0), (2, 1, 0), (3, 1, 0), (4, 1, 0), (5, 1, 0), (6, 1, 1), (8, 2, 0), (10, 2, 0), (12, 2, 0), (16, 4, 0), (24, 8, 0)]
  else if op == opKvSeqOpen then
    [(0, 2, 0), (2, 1, 3), (3, 1, 0), (4, 1, 0), (5, 1, 0), (6, 1, 0), (7, 1, 0), (8, 2, 0), (10, 2, 0), (12, 4, 0), (16, 4, 0)]
  else if op == opKvSeqClose then [(0, 2, 0)]
  else if op == opKvPolicy then
    let k := field p 0 1
    (0, 1, 0) ::
    (if k == 0 then
      (if field p 2 2 == 0xFFFF then [(2, 2, 0), (8, 4, 0)]
       else [(1, 1, 1), (2, 2, 0), (4, 1, 0), (5, 1, 0), (6, 2, 0)])
    else if k == 1 then [(16, 4, 0x3FFFFF), (20, 4, 0)]
    else if k == 2 || k == 3 then [(2, 2, 0), (12, 2, 0)]
    else [(1, 31, 0)])
  else if op == opRngKey then [(0, 32, 0)]
  else if op == opRngStateGet then [(0, 8, 0), (8, 2, 0)]
  else if op == opValveSet then [(0, 2, 0x3FFF), (4, 4, 0)]
  else if op == opValveSignal then [(0, 2, 0x3FFF), (2, 2, 0), (4, 4, 0)]
  else if op == opValveWait then [(0, 2, 0x3FFF), (4, 4, 0), (8, 4, 0)]
  else if op == opOutBind then [(0, 8, 0)]
  else if op == opOutUnbind then [(0, 2, 0)]
  else if op == opWmConfig then
    (if arg % 256 == 0 then [(0, 32, 0)] else if arg % 256 == 1 then [(0, 2, 0), (2, 1, 0), (3, 1, 0), (8, 8, 2 ^ 34 - 1)]
     else [(0, 32, 0)])
  else if op == opWmDetect then
    [(0, 8, 0), (8, 4, 0), (12, 1, 3), (13, 1, 0), (14, 2, 0), (16, 2, 0), (18, 2, 0), (20, 1, 0), (24, 6, 0),
     (32, 8, 0), (40, 8, 0), (48, 8, 0)]
  else if op == opProvConfig then [(0, 2, 0), (2, 1, 0), (3, 1, 3), (8, 32, 0)]
  else if op == opAttest then [(0, 8, 0), (8, 4, 0), (16, 16, 0)]
  else if op == opKill then [(0, 1, 0), (2, 2, 0), (4, 4, 0), (8, 2, 0xFFF)]
  else if op == opScrub then [(0, 1, 3)]
  else if op == opPowerHint then [(0, 1, 0), (1, 1, 0), (2, 1, 0), (4, 4, 0)]
  else if op == opStatsSnapshot then [(0, 8, 0), (8, 1, 0)]
  else []

/-- Bytes of an opcode's layout. -/
def layoutLen (ls : List (Nat × Nat × Nat)) : Nat := ls.foldl (fun m l => max m (l.1 + l.2.1)) 0

def layoutMask (ls : List (Nat × Nat × Nat)) : Nat :=
  ls.foldl (fun m l => m ||| ((if l.2.2 == 0 then 2 ^ (8 * l.2.1) - 1 else l.2.2) <<< (8 * l.1))) 0

/-- No bit outside the layout is set (R7). -/
def reservedZero (ls : List (Nat × Nat × Nat)) (p : Block) : Bool :=
  let v := leNat p
  v &&& layoutMask ls == v

-- ## The packet (Table 11.2)

/-- The fields of a packet; the parameters are its 32 inline bytes. -/
def parsePacket (b : Block) (uid q now : Nat) : Cmd :=
  let fl := field b 2 2
  { uid := uid, queue := q, opcode := field b 0 1
    fence := bitOf fl 0, publish := bitOf fl 1, autoWiden := bitOf fl 2, scrub := bitOf fl 3
    ctx := field b 4 2 % 4096, drawClass := field b 6 1, seq := field b 8 4, satThreshold := field b 12 2
    costEst := field b 16 8 % 2 ^ 48, arg := field b 24 8
    params := padTo 32 (b.drop 32), pointer := bitOf (field b 1 1) 0, fetchedAt := now }

/-- Form and reserved-field checks of R243 that read the packet alone. -/
def packetChecks (b : Block) (c : Cmd) : List Check :=
  [ (field b 1 1 < 2, inPacket 0x01)
  , (field b 2 2 < 16, inPacket 0x02)
  , (field b 4 2 < 4096, inPacket 0x04)
  , (c.drawClass < 5, inPacket 0x06)
  , (zeros b 7 1, inPacket 0x07)
  , (zeros b 14 2, inPacket 0x0E)
  , (zeros b 22 2, inPacket 0x16)
  , (if c.opcode == opWmConfig then c.arg < 2 ^ 16 else c.arg == 0, inPacket 0x18)
  , (!(c.pointer && inlineOnly c.opcode) && !(!c.pointer && pointerOnly c.opcode), inPacket 0x01)
  , (!c.autoWiden || c.opcode == opRun, inPacket 0x02)
  , (!isDevice c.opcode || c.ctx == 0, inPacket 0x04) ]

/-- Checks on the pointer of Table 11.3. -/
def pointerChecks (s : State) (b : Block) : List Check :=
  let n := field b 0x28 4
  [ ((typedAddr (field b 0x20 8)).isSome && field b 0x20 8 % 64 == 0, inPacket 0x20)
  , (33 ≤ n && n ≤ 65536, inPacket 0x28)
  , (zeros b 0x2C 20, inPacket 0x2C)
  , (match typedAddr (field b 0x20 8) with | some ad => addrOk s ad n | none => true, inPacket 0x20) ]

/-- Checks on the parameters once they are read (R426). -/
def paramChecks (c : Cmd) : List Check :=
  let ls := layoutOf c.opcode c.arg c.params
  ([ (layoutLen ls ≤ c.params.length, inPacket 0x28)
  , (reservedZero ls c.params, inParams c noField) ] : List Check) ++
  (if c.opcode == opSiphonPut && !c.pointer then [(decide (field c.params 4 2 ≤ 16), inPacket 0x01)] else [])

-- ## Parameters

def Cmd.p (c : Cmd) (off n : Nat) : Nat := field c.params off n

/-- Signed 32-bit parameter. -/
def Cmd.pInt (c : Cmd) (off : Nat) : Int := sextN 32 (c.p off 4)

-- ## The context descriptor (Table 12.1)

def ctxOfDesc (d : Block) : Ctx :=
  let fl := field d 3 1
  { shareClass := field d 2 1, realtime := bitOf fl 0, orderStrict := bitOf fl 1, element := bitOf fl 2
    scrubOnKill := bitOf fl 3, allowUnsigned := bitOf fl 4, clientTag := field d 4 2
    cisGranules := field d 6 2, accUnits := field d 8 1, maxSlots := field d 9 1
    chunkMax := field d 12 4, chunkAhead := field d 16 1
    sumpBase := field d 24 8, sumpBytes := field d 32 8 }

/-- Bytes of a slot image (R264). -/
def slotImageBytes (gran units : Nat) : Nat := 4096 + 8192 * gran + 6 * 64 * 64 * units

def Ctx.imageBytes (x : Ctx) : Nat := slotImageBytes x.cisGranules x.accUnits

/-- Bytes [0x00, 0x40) of the descriptor of a defined context, as created (Table 12.1). -/
def descOfCtx (id : Nat) (x : Ctx) : Block :=
  leBytes 2 id ++ leBytes 1 x.shareClass ++
  leBytes 1 (b2n x.realtime + 2 * b2n x.orderStrict + 4 * b2n x.element + 8 * b2n x.scrubOnKill + 16 * b2n x.allowUnsigned) ++
  leBytes 2 x.clientTag ++ leBytes 2 x.cisGranules ++ leBytes 1 x.accUnits ++ leBytes 1 x.maxSlots ++ leBytes 2 0 ++
  leBytes 4 x.chunkMax ++ leBytes 1 x.chunkAhead ++ leBytes 7 0 ++ leBytes 8 x.sumpBase ++ leBytes 8 x.sumpBytes ++
  leBytes 24 0

-- ## The RUN argument block (Table 11.6)

structure KvBind where
  seq : Nat
  slot : Nat
  append : Bool
  count : Nat
  minPos : Nat
  deriving DecidableEq, Repr

structure RunArgs where
  bindings : List KvBind := []
  tagCount : Nat := 0
  finalChunk : Bool := false
  /-- stream, start and length of a chunk -/
  chunk : Option (Nat × Nat × Nat) := none
  tagBase : List Byte := []
  deriving DecidableEq, Repr

def kvBindOf (b : Block) : KvBind :=
  { seq := field b 0 2, slot := field b 2 1, append := field b 3 1 == 1, count := field b 4 2, minPos := field b 8 8 }

def runArgsOf (b : Block) : RunArgs :=
  { bindings := (List.range (field b 0 2)).map (fun i => kvBindOf (b.drop (64 + 16 * i)))
    tagCount := field b 2 1, finalChunk := bitOf (field b 3 1) 0
    chunk := if field b 4 2 == 0xFFFF then none else some (field b 4 2, field b 8 8, field b 16 4)
    tagBase := (b.drop 32).take 32 }

/-- Range and reserved-field checks of Tables 11.6 and 6.3. -/
def runArgChecks (b : Block) : List Check :=
  ([ (field b 0 2 ≤ 128, inArgs 0)
  , (field b 2 1 ≤ 32, inArgs 2)
  , (field b 3 1 < 2, inArgs 3)
  , (zeros b 6 2, inArgs 6)
  , (zeros b 14 2, inArgs 14)
  , (zeros b 20 12, inArgs 20)
  , (zeros b (32 + field b 2 1) (32 - field b 2 1), inArgs (32 + field b 2 1)) ] : List Check) ++
  (List.range (min 128 (field b 0 2))).flatMap (fun i =>
    let o := 64 + 16 * i
    ([ (field b (o + 2) 1 < 64, inArgs (o + 2))
    , (field b (o + 3) 1 < 2, inArgs (o + 3))
    , (if field b (o + 3) 1 == 1 then 0 < field b (o + 4) 2 else field b (o + 4) 2 == 0, inArgs (o + 4))
    , (zeros b (o + 6) 2, inArgs (o + 6)) ] : List Check))

-- ## Ring targets (Table 10.4)

def targetOf (b : Block) : Target :=
  { base := field b 0 8, slots := field b 8 4, slotBytes := field b 12 2, prodLine := field b 16 8
    consLine := field b 24 8 }

def targetChecks (b : Block) (off : Nat) : List Check :=
  [ (field b 0 8 % 64 == 0 && field b 0 8 < 2 ^ 52, inObject off)
  , (2 ≤ field b 8 4 && field b 8 4 ≤ 65536, inObject (off + 8))
  , (64 ≤ field b 12 2 && field b 12 2 ≤ 14464 && field b 12 2 % 64 == 0, inObject (off + 12))
  , (zeros b 14 2, inObject (off + 14))
  , (field b 16 8 % 64 == 0 && field b 16 8 < 2 ^ 52, inObject (off + 16))
  , (field b 24 8 % 64 == 0 && field b 24 8 < 2 ^ 52, inObject (off + 24)) ]

end Sys2Proof.Machine
end

