-- ==== Sys2Proof/Machine/Flags.lean ====
section
/-!
DEFINITION. Status codes (Table 11.8), the flags and fields of completion records (Tables 11.7 and 4.7), and the
per-command saturation count (R62).
-/

namespace Sys2Proof.Machine

abbrev stOk : Nat := 0x00
abbrev stBadOpcode : Nat := 0x10
abbrev stBadParam : Nat := 0x11
abbrev stAdmissionRefused : Nat := 0x12
abbrev stDeadlockRefused : Nat := 0x13
abbrev stKvFull : Nat := 0x20
abbrev stScaleSkew : Nat := 0x21
abbrev stSaturated : Nat := 0x22
abbrev stKilled : Nat := 0x30
abbrev stContextFault : Nat := 0x40
abbrev stPoison : Nat := 0x41
abbrev stProvExhausted : Nat := 0x50
abbrev stRecoveryMark : Nat := 0x60
abbrev stDieLost : Nat := 0x61

/-- DETAIL of a poisoned well or host read. -/
abbrev wellPoisonDetail : Nat := 0xFFFFFFFF

/-- Reasons of ST_KILLED (Table 11.8). -/
abbrev byKill : Nat := 1
abbrev byDestroy : Nat := 2
abbrev byValveTimeout : Nat := 3
abbrev byGroupAbort : Nat := 4
abbrev byMarkGone : Nat := 5

/-- FAULTED of R267, and the statuses that Table 11.8 marks "Context torn down". -/
def isFault (status : Nat) : Bool := [stScaleSkew, stContextFault, stPoison, stDieLost].contains status

/-- FLAGS of the completion record, PHASE 0. -/
def recordFlags (c : Cmd) : Nat :=
  b2n c.widened + 2 * b2n (0 < c.sat) + 4 * b2n c.emptyAttn + 8 * b2n c.late + 16 * b2n c.rerun + 32 * b2n c.recovered

/-- SLOWDOWN of R250. -/
def slowdownOf (c : Cmd) : Nat :=
  if c.costEst == 0 then 0 else min 0xFFFF (rneDiv ((c.engineCycles * 256 : Nat) : Int) c.costEst).toNat

/-- PHASE of record r (R248). -/
def phaseOf (q : Queue) : Nat := 1 - q.cqProd.toNat / 2 ^ q.cqLog % 2

/-- The 32-byte record of Table 11.7, PHASE 0. -/
def recordBytes (c : Cmd) (status detail depth backlogUs : Nat) : List Byte :=
  leBytes 4 c.seq ++ leBytes 1 status ++ leBytes 1 c.opcode ++ leBytes 2 (recordFlags c) ++ leBytes 2 c.ctx ++
  leBytes 2 (slowdownOf c) ++ leBytes 4 (min c.sat 0xFFFFFFFF) ++ leBytes 6 (min c.engineCycles (2 ^ 48 - 1)) ++
  leBytes 2 (min depth 0xFFFF) ++ leBytes 4 (min backlogUs 0xFFFFFFFF) ++ leBytes 4 detail

/-- The recovery mark of R258, PHASE 0. -/
def markBytes (recoveries : Nat) : List Byte :=
  leBytes 4 0xFFFFFFFF ++ leBytes 1 stRecoveryMark ++ leBytes 1 0 ++ leBytes 2 0 ++ leBytes 20 0 ++ leBytes 4 recoveries

/-- A record with its PHASE, bit 15 of FLAGS (R248, Table 11.7). -/
def withPhase (phase : Nat) (b : Block) : Block := splice b 6 (leBytes 2 (field b 6 2 % 2 ^ 15 + 2 ^ 15 * phase))

/-- AVG_SLOWDOWN after one more command (R292). -/
def avgSlowdown (avg : Option Nat) (c : Cmd) : Option Nat :=
  if c.costEst == 0 then avg
  else
    let x := slowdownOf c
    match avg with
    | none => some x
    | some a => some (max 0 (min 0xFFFF ((a : Int) + ((x : Int) - a + 8).fdiv 16))).toNat

/-- The count passes the threshold (R87); 0xFFFF disables the test. -/
def satPasses (c : Cmd) (count : Nat) : Bool := c.satThreshold != 0xFFFF && c.satThreshold < count

-- ## Commands in flight

def State.cmd? (s : State) (u : Nat) : Option Cmd := s.inflight.find? (fun c => c.uid == u)

def State.putCmd (s : State) (c : Cmd) : State :=
  { s with inflight := s.inflight.map (fun d => if d.uid == c.uid then c else d) }

def State.dropCmd (s : State) (u : Nat) : State := { s with inflight := s.inflight.filter (fun d => d.uid != u) }

def State.modCmd (s : State) (u : Nat) (f : Cmd → Cmd) : State :=
  { s with inflight := s.inflight.map (fun d => if d.uid == u then f d else d) }

/-- Adds saturations to a command's counter; it saturates at 2^32 − 1 (R62). -/
def countSat (u n : Nat) (s : State) : State := s.modCmd u (fun c => { c with sat := satAdd 32 c.sat n })

end Sys2Proof.Machine
end

