-- ==== Sys2Proof/Machine/LatSend.lean ====
section
/-!
DEFINITION. The sending side of the lateral fabric: routes (R143, R144), flits and credits (R146 to R150), messages
(R151) and group control (R155, R156). Ports are numbered N 0, E 1, S 2, W 3.
-/

namespace Sys2Proof.Machine

/-- The device's own number (R143). -/
def selfDev (s : State) : Nat := s.dev.number.toNat

def devX (n : Nat) : Nat := n % 128
def devY (n : Nat) : Nat := n / 128 % 128

def xSize (s : State) : Nat := s.lat.topo.toNat % 128 + 1
def ySize (s : State) : Nat := s.lat.topo.toNat / 256 % 128 + 1
def wrapX (s : State) : Bool := s.lat.topo.getLsbD 7
def wrapY (s : State) : Bool := s.lat.topo.getLsbD 15

/-- In one dimension: whether the way is up, and whether the first hop crosses the wrap link (R144). -/
def way (size : Nat) (wrap : Bool) (at' dst : Nat) : Bool × Bool :=
  let d := (dst + size - at') % size
  let up := if wrap then decide (2 * d ≤ size) else decide (at' < dst)
  (up, if up then at' + 1 == size else at' == 0)

/-- The port that leads from this device towards another, and whether its link is a wrap link; none for the device
itself or a number outside the torus (R144). -/
def route (s : State) (dest : Nat) : Option (Nat × Bool) :=
  let me := selfDev s
  if xSize s ≤ devX dest || ySize s ≤ devY dest then none
  else if devX me != devX dest then
    let (up, w) := way (xSize s) (wrapX s) (devX me) (devX dest)
    some (if up then 1 else 3, w)
  else if devY me != devY dest then
    let (up, w) := way (ySize s) (wrapY s) (devY me) (devY dest)
    some (if up then 2 else 0, w)
  else none

/-- Buffer class of a flit that came on an input and leaves on a port (R144). -/
def classOut (inPort out dl : Nat) (wrap : Bool) : Nat :=
  if wrap then 1
  else if 4 ≤ inPort then 0
  else if out % 2 == 0 && inPort % 2 == 1 then 0
  else dl

/-- A port that messages may take: enabled, and neither DOWN nor FAILED (R144). -/
def portUsable (s : State) (p : Nat) : Bool :=
  s.lat.portEn.getLsbD p && (s.port p).state != 0 && (s.port p).state != 4

-- ## Flits

abbrev vcKv : Nat := 0
abbrev vcAct : Nat := 1
abbrev vcCtrl : Nat := 2
abbrev vcSync : Nat := 3

/-- Receive buffer flits per class (Table 7.3). -/
def bufferFlits (vc : Nat) : Nat := if vc == 0 then 512 else if vc == 1 then 256 else 32

/-- Header fields that do not depend on the link (Table 7.2). -/
def hdrOf (m : Msg) (dl : Nat) (som eom : Bool) (pay : Nat) : Nat :=
  m.vc * 2 ^ 27 + dl * 2 ^ 29 + m.dest * 2 ^ 39 + m.src * 2 ^ 53 + m.type * 2 ^ 67 + b2n som * 2 ^ 71 +
  b2n eom * 2 ^ 72 + pay * 2 ^ 73 + m.mcast.getD 0 % 256 * 2 ^ 81 + b2n m.mcast.isSome * 2 ^ 89

def hdrVc (h : Nat) : Nat := h / 2 ^ 27 % 4
def hdrDl (h : Nat) : Nat := h / 2 ^ 29 % 2
def hdrKey (h : Nat) : Nat := 2 * hdrVc h + hdrDl h

/-- Header with another buffer class. -/
def setDl (h dl : Nat) : Nat := h - hdrDl h * 2 ^ 29 + dl * 2 ^ 29

/-- The 16-byte message header and the data (Table 7.5). -/
def msgBytes (m : Msg) : Block :=
  leBytes 3 m.data.length ++ leBytes 1 m.gen ++ leBytes 4 m.addr ++ leBytes 2 m.float ++ leBytes 2 m.floatInc ++
  leBytes 2 m.group ++ leBytes 2 0 ++ m.data

/-- The payloads of a message (R151). -/
def payloads : Nat → Block → List Block
  | 0, _ => []
  | n + 1, b => if b.length ≤ 240 then [b] else b.take 240 :: payloads n (b.drop 240)

/-- The flits of a message from an input. -/
def flitsOf (m : Msg) (src inKey dl : Nat) : List OutFlit :=
  let b := msgBytes m
  let ps := payloads (b.length / 240 + 1) b
  ((List.range ps.length).zip ps).map (fun p =>
    { src := src, inKey := inKey, hdr := hdrOf m dl (p.1 == 0) (p.1 + 1 == ps.length) p.2.length, payload := p.2 })

/-- The 256 bytes of a flit, its CRC over the first 252 (R146, R147). -/
def flitBytes (hdr : Nat) (payload : Block) : Block :=
  let b := leBytes 12 hdr ++ padTo 240 payload
  b ++ leBytes 4 (crc32c b)

/-- Acknowledgement fields of the next flit that a port sends (R148). -/
def ackBits (t : Port) : Nat :=
  match t.lastRx with
  | some a => a.toNat * 2 ^ 12 + 2 ^ 24
  | none => 0

/-- The credits that the next flit returns: key and count (R150). -/
def creditBits (t : Port) : Nat × Nat :=
  match t.owed.find? (fun e => 0 < e.2) with
  | some (k, n) => (k, min n 63)
  | none => (0, 0)

/-- CR_VC, CR_DL and CR_COUNT (Table 7.2). -/
def creditField (k n : Nat) : Nat := k / 2 * 2 ^ 30 + k % 2 * 2 ^ 32 + n * 2 ^ 33

/-- Sends a flit that takes the next FSEQ and stays in the retry buffer (R148). -/
def sendSequenced (p : Nat) (base : Nat) (payload : Block) (s : State) : State :=
  let t := s.port p
  let (k, n) := creditBits t
  let bytes := flitBytes (base + t.txSeq.toNat + ackBits t + creditField k n) payload
  emit (.flit p bytes) (s.modPort p (fun t =>
    { t with txSeq := t.txSeq + 1, retry := t.retry ++ [(0, bytes)], ackDue := false
             owed := if n == 0 then t.owed else tupd t.owed k 0 (· - n) }))

/-- Sends an IDLE flit that carries only an acknowledgement, or a NAK. Its FSEQ field has no stated value. -/
def sendIdle (p : Nat) (nak : Bool) (s : State) : State :=
  let t := s.port p
  let (f, s) := takeFree s
  let bytes := flitBytes (f % 4096 + ackBits t + b2n nak * 2 ^ 25 + 2 ^ 26) []
  emit (.flit p bytes) (s.modPort p (fun t => { t with ackDue := false }))

/-- The port is UP and its retry buffer has room (R148). -/
def canSend (t : Port) : Bool := t.state == 2 && t.retry.length < 512

-- ## Arbitration (R145, R150)

/-- The oldest flit of a virtual channel that may leave now, by position in the queue. -/
def eligible (t : Port) (vc : Nat) : Option Nat :=
  (List.range t.outq.length).find? (fun i =>
    match t.outq[i]? with
    | none => false
    | some f =>
      let key := 2 * f.src + hdrDl f.hdr
      hdrVc f.hdr == vc &&
      (match tget? t.owner vc with | some o => o == key | none => true) &&
      0 < tget t.credits (hdrKey f.hdr) 0 &&
      (t.outq.take i).all (fun g => !(hdrVc g.hdr == vc && 2 * g.src + hdrDl g.hdr == key)))

/-- SYNC, then CTRL, then ACT and KV alternately. -/
def vcOrder (t : Port) : List Nat := if t.kvTurn then [3, 2, 0, 1] else [3, 2, 1, 0]

/-- Returns receive buffer to the far end of an input port (R150). A source of 4 and above is no port, and a buffer of 8 and
above went with the link that it belonged to. -/
def owe (p key n : Nat) (s : State) : State :=
  if 4 ≤ p || 8 ≤ key then s else s.modPort p (fun t => { t with owed := tupd t.owed key 0 (· + n) })

/-- Sends one flit where one may leave. -/
def pumpOne (p : Nat) (s : State) : State :=
  let t := s.port p
  if !canSend t then s
  else
    match (vcOrder t).findSome? (fun v => (eligible t v).map (fun i => (v, i))) with
    | none => s
    | some (v, i) =>
      match t.outq[i]? with
      | none => s
      | some f =>
        let eom := bitOf f.hdr 72
        let s := s.modPort p (fun t =>
          { t with outq := t.outq.take i ++ t.outq.drop (i + 1)
                   credits := tupd t.credits (hdrKey f.hdr) 0 (· - 1)
                   owner := if eom then tdel t.owner v else tset t.owner v (2 * f.src + hdrDl f.hdr)
                   kvTurn := if v == 1 then true else if v == 0 then false else t.kvTurn })
        let s := sendSequenced p f.hdr f.payload s
        owe f.src f.inKey 1 s

def pumpPort : Nat → Nat → State → State
  | 0, _, s => s
  | n + 1, p, s => pumpPort n p (pumpOne p s)

/-- Returns credits that no message flit has carried, and acknowledges what was accepted. -/
def flushPort : Nat → Nat → State → State
  | 0, _, s => s
  | n + 1, p, s =>
    let t := s.port p
    if !canSend t then s
    else if 0 < (creditBits t).2 then flushPort n p (sendSequenced p (2 ^ 26) [] s)
    else if t.ackDue then sendIdle p false s
    else s

/-- Moves what can move on every port. -/
def latSettle (s : State) : State :=
  let s := (List.range 4).foldl (fun s p => pumpPort (s.port p).outq.length p s) s
  (List.range 4).foldl (fun s p => flushPort 64 p s) s

-- ## Messages

/-- A message for this device, queued for its row (R151); reserved types are counted (Table 7.4), codes that Table 7.7 does
not have are dropped. -/
def deliverMsg (m : Msg) (s : State) : State :=
  if 5 ≤ m.type then s.modLat (fun l => { l with badType := ctrAdd l.badType 1 })
  else if m.type == 2 && !(1 ≤ m.addr && m.addr ≤ 6) then s
  else s.modLat (fun l => { l with inbox := l.inbox ++ [m] })

/-- Puts flits on a port, or discards and counts them (R144). -/
def putFlits (p : Nat) (fs : List OutFlit) (s : State) : State :=
  if portUsable s p then s.modPort p (fun t => { t with outq := t.outq ++ fs })
  else s.modLat (fun l => { l with unroutable := ctrAdd l.unroutable fs.length })

/-- A multicast message of an input (none: this device) waits on a channel. -/
def castWaits (s : State) (src : Option Nat) (vc : Nat) : Bool :=
  s.lat.mcastQ.any (fun h => h.src == src && h.msg.vc == vc)

/-- Routes a message of this device, or queues it for replication (R151, R163). -/
def sendNow (m : Msg) (s : State) : State :=
  match m.mcast with
  | some g =>
    let n := tget s.lat.mseq g 0
    let tag := leBytes 4 n ++ leBytes 4 n ++ leBytes 8 0
    let m := { m with data := tag ++ m.data, len := m.data.length + 16 }
    s.modLat (fun l => { l with mseq := tset l.mseq g ((n + 1) % 2 ^ 32), mcastQ := l.mcastQ ++ [{ msg := m }] })
  | none =>
    if m.dest == selfDev s then deliverMsg m s
    else
      match route s m.dest with
      | none => s.modLat (fun l => { l with unroutable := ctrAdd l.unroutable (flitsOf m 4 0 0).length })
      | some (p, w) => latSettle (putFlits p (flitsOf m 4 0 (classOut 4 p 0 w)) s)

/-- Sends a message of this device. It waits behind an earlier multicast message of the same channel (R153, R164). -/
def sendMsg (m : Msg) (s : State) : State :=
  let m := { m with src := selfDev s, len := m.data.length }
  if castWaits s none m.vc || s.lat.ownQ.any (fun k => k.vc == m.vc) then s.modLat (fun l => { l with ownQ := l.ownQ ++ [m] })
  else sendNow m s

/-- Messages of this device go on that no multicast message of their channel holds back any more. -/
def drainOwn : Nat → State → State
  | 0, s => s
  | n + 1, s =>
    match s.lat.ownQ.findIdx? (fun m => !castWaits s none m.vc) with
    | none => s
    | some i =>
      match s.lat.ownQ[i]? with
      | none => s
      | some m => drainOwn n (sendNow m (s.modLat (fun l => { l with ownQ := l.ownQ.eraseIdx i })))

-- ## Group control (Table 7.7)

abbrev ctrlReady : Nat := 1
abbrev ctrlGo : Nat := 2
abbrev ctrlDone : Nat := 3
abbrev ctrlCommit : Nat := 4
abbrev ctrlAbort : Nat := 5
abbrev ctrlRefuse : Nat := 6

/-- A control message of a generation (Table 7.5). -/
def ctrlMsg (dest gid gen code : Nat) (data : List Byte) : Msg :=
  { type := 2, vc := vcCtrl, dest := dest, addr := code, group := gid, gen := gen % 256, data := data }

/-- Sends a control message of the group's generation here; READY and GO carry the generation to come. -/
def sendCtrl (dest gid code : Nat) (data : List Byte) (s : State) : State :=
  sendMsg (ctrlMsg dest gid (tget s.lat.groups gid {}).gen code data) s

def Group.leader (g : Group) : Nat := g.devices.headD 0

/-- CRC-32C of DEVICE[0-63] (R155). -/
def Group.listCrc (g : Group) : Nat := crc32c (padTo 128 (g.devices.flatMap (leBytes 2)))

/-- READY of this member for the generation to come (R155). -/
def sendReady (gid : Nat) (s : State) : State :=
  match tget? s.lat.groups gid with
  | none => s
  | some g =>
    let s := s.modLat (fun l => { l with groups := tset l.groups gid { g with readySent := true, started := false } })
    sendCtrl g.leader gid ctrlReady (leBytes 1 g.members ++ leBytes 1 g.flags ++ leBytes 2 0 ++ leBytes 4 g.listCrc) s

/-- The group of a command, if it belongs to one. -/
def groupOf (s : State) (u : Nat) : Option Nat :=
  (s.lat.groups.find? (fun e => e.2.cmd == u && !e.2.orphan)).map Prod.fst

/-- A member that is killed before COMMIT reports ABORT(g) to its leader (R156). -/
def reportAbort (u : Nat) (s : State) : State :=
  match groupOf s u with
  | none => s
  | some gid =>
    match tget? s.lat.groups gid with
    | none => s
    | some g => if (g.started || g.readySent) && !g.committed then sendCtrl g.leader gid ctrlAbort (leBytes 4 g.gen) s else s

/-- Sends a control message of a group's generation to every other member. -/
def sendOthers (gid code : Nat) (g : Group) (data : List Byte) (s : State) : State :=
  (g.devices.filter (· != selfDev s)).foldl (fun s d => sendCtrl d gid code data s) s

/-- A group is no longer active on this device; a leader that leaves before COMMIT aborts the generation (R156). -/
def leaveGroup (u : Nat) (s : State) : State :=
  match groupOf s u with
  | none => s
  | some gid =>
    let g := tget s.lat.groups gid {}
    let me := selfDev s
    let s := if g.leader == me && (g.started || g.readySent) && !g.committed then
        sendOthers gid ctrlAbort g (leBytes 4 g.gen) s else s
    s.modLat (fun l => { l with
      groups := tdel l.groups gid, inbox := l.inbox.filter (fun m => !(m.type == 2 && m.group == gid && m.src == me)) })

end Sys2Proof.Machine
end

