-- ==== Sys2Proof/Machine/Secure.lean ====
section
/-!
DEFINITION. What a command secures of the KV store before it starts (R128 to R131): needed blocks, free entries and
pages, victims, and the waiting for pages.
-/

namespace Sys2Proof.Machine

/-- The bytes at a typed address as they stand, with no error met. -/
def peekAt (s : State) (v n : Nat) : List Byte :=
  match typedAddr v with
  | some (.host a) => hostRead s a n
  | some (.well a) => mread s.wellMem a n
  | some (.cis a) => mread s.cis a n
  | none => []

/-- The argument block of a RUN: as its start checks read it, before them as it stands (Table 11.6). -/
def argBytes (s : State) (c : Cmd) : Block :=
  match c.argBlock with
  | some b => b
  | none => peekAt s (c.p 8 8) (64 + 16 * min 128 (field (peekAt s (c.p 8 8) 2) 0 2))

def Seq.tokens (x : Seq) : Nat := 2 ^ x.logBlock

/-- Live entries of a sequence, in span order. -/
def liveEntries (s : State) (q : Nat) : List (Nat × MapEntry) := s.map.filter (fun e => e.2.seq == q)

def poolOf (s : State) (c : Nat) : List Nat := match s.ctx? c with | some x => x.pool | none => []

/-- A new block that a binding needs: binding index, sequence, block. -/
structure Need where
  binding : Nat
  seq : Nat
  block : Nat
  deriving DecidableEq, Repr

/-- First and last block that an APPEND binding appends into. -/
def appendBlocks (x : Seq) (n : Nat) : Nat × Nat := (x.length / x.tokens, (x.length + n - 1) / x.tokens)

def blockLive (s : State) (q b : Nat) : Bool := (liveEntries s q).any (fun e => e.2.block == b)

/-- New blocks of one binding, rising. -/
def newBlocks (s : State) (i : Nat) (k : KvBind) : List Need :=
  match tget? s.seqs k.seq with
  | none => []
  | some x =>
    if x.ring || !k.append then []
    else
      let (lo, hi) := appendBlocks x k.count
      (((List.range (hi + 1 - lo)).map (lo + ·)).filter (fun b => !blockLive s k.seq b)).map (fun b =>
        { binding := i, seq := k.seq, block := b })

def needsOf (s : State) (ks : List KvBind) : List Need :=
  ((List.range ks.length).zip ks).flatMap (fun p => newBlocks s p.1 p.2)

/-- Entries reserved by commands in flight. -/
def reservedEntries (s : State) : List Nat := s.inflight.flatMap (fun c => c.secured.map (fun x => x.entry))

/-- Live blocks that the command may not evict from a sequence (R128). -/
def pinnedBlock (s : State) (q : Nat) (x : Seq) (appendTo : Option (Nat × Nat)) (e : MapEntry) : Bool :=
  let above := ((liveEntries s q).filter (fun f => e.block < f.2.block)).length
  e.block == 0 || above < x.pinRecent || e.pin ||
  (match appendTo with | some (lo, hi) => lo ≤ e.block && e.block ≤ hi | none => false)

/-- The victim of R130 among entries not already taken. -/
def victimOf (s : State) (q : Nat) (x : Seq) (appendTo : Option (Nat × Nat)) (taken : List Nat) : Option (Nat × MapEntry) :=
  let cs := (liveEntries s q).filter (fun e => !taken.contains e.1 && !pinnedBlock s q x appendTo e.2)
  cs.foldl (fun best e => match best with
    | none => some e
    | some b => if e.2.score < b.2.score || (e.2.score == b.2.score && e.2.block < b.2.block) then some e else some b) none

/-- Takes what each new block needs, in order; the sequence at fault where one must wait (R129). -/
def secureFrom (s : State) (ks : List KvBind) : List Need → List Nat → List Secured → Except Nat (List Secured × List Nat)
  | [], pool, got => .ok (got, pool)
  | n :: ns, pool, got =>
    match tget? s.seqs n.seq with
    | none => .error n.seq
    | some x =>
      let taken := reservedEntries s ++ got.map (fun g => g.entry)
      let free := ((List.range x.mapSpan).map (· + x.mapBase)).find? (fun i =>
        (s.mapEntry i).seq == 0xFFFF && !taken.contains i)
      match free, pool with
      | some i, p :: ps =>
        secureFrom s ks ns ps (got ++ [{ binding := n.binding, block := n.block, entry := i, page := some p }])
      | _, _ =>
        let k := ks.getD n.binding { seq := 0, slot := 0, append := false, count := 0, minPos := 0 }
        let v := if x.evict then victimOf s n.seq x (some (appendBlocks x k.count)) taken else none
        match v with
        | some e => secureFrom s ks ns pool (got ++ [{ binding := n.binding, block := n.block, entry := e.1, page := none }])
        | none => .error n.seq

/-- The arguments of a RUN (Table 11.6). -/
def argsOf (s : State) (c : Cmd) : RunArgs :=
  if c.opcode != opRun || c.p 8 8 == 0 then {} else runArgsOf (argBytes s c)

/-- One attempt of R129; the sequence at fault where the command must wait. -/
def trySecure (u : Nat) (s : State) : Option Nat × State :=
  match s.cmd? u with
  | none => (none, s)
  | some c =>
    let ks := (argsOf s c).bindings
    match secureFrom s ks (needsOf s ks) (poolOf s c.ctx) [] with
    | .ok (got, pool) =>
      (none, (s.modCtx c.ctx (fun x => { x with pool := pool })).modCmd u (fun c => { c with secured := got }))
    | .error q => (some q, s)

/-- A waiting command has secured what it needs, and its start goes on (R131). -/
def kvGranted (u : Nat) (s : State) : State := s.modCmd u (fun c => { c with phase := .ready, waitsOn := none })

/-- A waiting command tries again (R131). -/
def kvRetry (u : Nat) (s : State) : State :=
  match s.cmd? u with
  | none => s
  | some c =>
    if c.phase != .kvWait then s
    else
      match trySecure u s with
      | (none, s) => kvGranted u s
      | (some q, s) => s.modCmd u (fun c => { c with waitsOn := some q })

/-- Every waiting command of a context retries, in fetch order (Table 6.5). -/
def wakeWaiters (c : Nat) (s : State) : State :=
  (s.inflight.filter (fun d => d.ctx == c && d.phase == .kvWait)).foldl (fun s d => kvRetry d.uid s) s

/-- A free page enters a pool, in rising order. -/
def insertPage (p : Nat) : List Nat → List Nat
  | [] => [p]
  | q :: qs => if p < q then p :: q :: qs else if p == q then q :: qs else q :: insertPage p qs

/-- Pages enter a context's pool, and its waiting commands try again (R131). -/
def givePages (c : Nat) (ps : List Nat) (s : State) : State :=
  if ps.isEmpty then s
  else wakeWaiters c (s.modCtx c (fun x => { x with pool := ps.foldl (fun l p => insertPage p l) x.pool }))

end Sys2Proof.Machine
end

