-- ==== Sys2Proof/Machine/Audio.lean ====
section
/-!
DEFINITION. The spout's arithmetic: conversion (R210, R211), watermark (R221 to R223), rounding (R212),
concealment (R214) and the detector's score (R224).
-/

namespace Sys2Proof.Machine

/-- Largest v below 2^bits with p v, for a p that holds up to some value: from v, one bit at a time. -/
def bitSearch (p : Nat → Bool) : Nat → Nat → Nat
  | 0, v => v
  | b + 1, v => bitSearch p b (if p (v + 2 ^ b) then v + 2 ^ b else v)

/-- ⌊√n⌋. -/
def isqrt (n : Nat) : Nat := bitSearch (fun r => r * r ≤ n) (n.log2 / 2 + 1) 0

/-- Square root of a non-negative value with a sticky bit, for immediate rounding. -/
def Fl.sqrt : Fl → Fl
  | .fin s m e =>
    if m == 0 then .fin s 0 0
    else
      let k := 2 * (66 - m.log2 / 2)
      let sh := if (e - k) % 2 == 0 then k else k + 1
      let n := m <<< sh
      let r := isqrt n
      .fin s (2 * r + (if r * r == n then 0 else 1)) ((e - sh) / 2 - 1)
  | .inf false => .inf false
  | _ => .nan

/-- round_half_even of a finite value; 0 for any other. -/
def rneF : Fl → Int
  | .fin s m e => if 0 ≤ e then sgn s (m <<< e.toNat) else rneDiv (sgn s m) (2 ^ (-e).toNat)
  | _ => 0

/-- Full scale of a 24-bit working value. -/
def fullScale : Nat := 8388607

/-- Magnitude of the companded code with 2q − 1,023 = ±k (R210): the integer nearest to
8,388,607 × (256^(k / 1,023) − 1) / 255. -/
def companded (k : Nat) : Nat :=
  bitSearch (fun s => ((2 * s - 1) * 255 + 2 * fullScale) ^ 1023 ≤ 2 ^ (8 * k) * (2 * fullScale) ^ 1023) 23 0

/-- A companded code to its 24-bit value, and whether it was clamped (R210). -/
def fromCode (q : Nat) : Int × Bool :=
  let c := min q 1023
  (if 1023 < 2 * c then (companded (2 * c - 1023) : Int) else -(companded (1023 - 2 * c) : Int), 1023 < q)

/-- A linear FP32 value to its 24-bit value, and whether it sets CLIP (R211). -/
def fromLinear (v : Nat) : Int × Bool :=
  match decF fp32 v with
  | .nan => (0, true)
  | .inf s => (sgn s fullScale, true)
  | .fin s m e =>
    let x := Fl.fin s m e
    if (Fl.ofInt 1).lt x.abs then (sgn s fullScale, true)
    else (rneF (x.mul (Fl.ofInt fullScale)), false)

/-- The payload that a spout composes (R221). -/
def payloadOf (device stream tag : Nat) : Nat := device + stream * 2 ^ 14 + tag * 2 ^ 30

/-- The 512-bit ChaCha8 block of chips for samples 512·j to 512·j + 511 of a block (R222). -/
def chipBlock (key : List Byte) (bseq stream j : Nat) : Nat :=
  blockNat (chacha8 (chachaInput key (bseq % 2 ^ 32) (bseq / 2 ^ 32 % 2 ^ 16 + j * 2 ^ 16) stream 0x574D0001))

/-- Chip bits p_0 to p_(n−1) of a block. -/
def chipBits (key : List Byte) (bseq stream n : Nat) : List Bool :=
  let blks := (List.range (cdiv n 512)).map (chipBlock key bseq stream)
  (List.range n).map (fun i => bitOf (blks.getD (i / 512) 0) (i % 512))

/-- G of R223: 10^(−STRENGTH / 40) rounded to FP32. The value is never dyadic, so the sticky bit is 1. -/
def strengthGain (strength : Nat) : Nat :=
  let n := bitSearch (fun v => v ^ 40 * 10 ^ strength ≤ 2 ^ 2400) 60 0
  encF fp32 (.fin false (2 * n + 1) (-61))

/-- A of R223 for the stage-1 values of a block, FP32. -/
def amplitude (xs : List Int) (strength : Nat) : Nat :=
  let e := xs.foldl (fun acc x => acc + x.natAbs * x.natAbs) 0
  let mean := encF fp32 (ratF false e xs.length 0)
  let r := encF fp32 (decF fp32 mean).sqrt
  fp32Mul r (strengthGain strength)

/-- t_n rounded to the output width and clamped, and whether it was clamped (R212). -/
def roundOut (pcm24 : Bool) (t : Fl) : Int × Bool :=
  let (y, top) := if pcm24 then (rneF t, (fullScale : Int)) else (rneF (t.mul (.fin false 1 (-8))), 32767)
  if y > top then (top, true) else if y < -top then (-top, true) else (y, false)

/-- One output sample's bytes (R212). -/
def pcmBytes (pcm24 : Bool) (y : Int) : List Byte :=
  if pcm24 then leBytes 3 (y % 2 ^ 24).toNat else leBytes 2 (y % 2 ^ 16).toNat

/-- A block after stages 2 and 3: its output values, whether one was clamped, and whether A > 0 (R212, R223).
d is the payload bit that the block carries (R221). -/
def markBlock (key : List Byte) (bseq stream strength : Nat) (d pcm24 : Bool) (xs : List Int) :
    List Int × Bool × Bool :=
  let a := decF fp32 (amplitude xs strength)
  let outs := List.zipWith (fun x p => roundOut pcm24 ((Fl.ofInt x).add (if p == d then a else a.neg))) xs
    (chipBits key bseq stream xs.length)
  (outs.map Prod.fst, outs.any Prod.snd, !a.isZero)

/-- The faded values of the first concealment block (R214). -/
def fadeBlock (last : List Int) : List Int :=
  let n := last.length
  (List.range n).map (fun i => rneDiv (last.getD i 0 * ((n - 1 - i : Nat) : Int)) (n - 1))

/-- A PCM sample of the detector's input. -/
def pcmValue (pcm24 : Bool) (bs : List Byte) (i : Nat) : Int :=
  if pcm24 then sextN 24 (leNat ((bs.drop (3 * i)).take 3)) else sextN 16 (leNat ((bs.drop (2 * i)).take 2))

/-- What the detector finds for one candidate (R224): its score as an ordered fraction of C48 values and the
decoded payload. -/
structure WmCand where
  score : Nat
  off : Nat
  bseq : Nat
  blocks : Nat
  decoded : Nat
  valid : Nat
  deriving DecidableEq, Repr

/-- Sums of z_j by payload bit. -/
def bitSums (zs : List (Nat × Int)) (k : Nat) : Int := (zs.filter (fun z => z.1 == k)).foldl (fun acc z => acc + z.2) 0

/-- The candidate (o, b) over the samples xs (R224). -/
def wmCandidate (key : List Byte) (stream blockLen off bseq expect mask : Nat) (xs : List Int) : WmCand :=
  let blocks := (xs.length - off) / blockLen
  let zx := (List.range blocks).map (fun j =>
    let seg := (xs.drop (off + j * blockLen)).take blockLen
    let z := (List.zipWith (fun x (p : Bool) => if p then -x else x) seg
      (chipBits key (bseq + j) stream blockLen)).foldl (· + ·) 0
    let e := seg.foldl (fun acc x => acc + x.natAbs * x.natAbs) 0
    ((bseq + j) / 4 % 64, z, e))
  let zs := zx.map (fun t => (t.1, t.2.1))
  let sums := (List.range 64).map (fun k => bitSums zs k)
  let sigma : Nat → Int := fun k =>
    if bitOf mask k then (if bitOf expect k then -1 else 1)
    else if sums.getD k 0 < 0 then -1 else if sums.getD k 0 == 0 then 0 else 1
  let num := zs.foldl (fun acc z => acc + sigma z.1 * z.2) 0
  let den := zx.foldl (fun acc t => acc + t.2.2) 0
  let root := encF c48 (Fl.fin false den 0).sqrt
  { score := encF c48 ((Fl.ofInt num).div (decF c48 root))
    off := off, bseq := bseq, blocks := blocks
    decoded := (List.range 64).foldl (fun acc k => if sums.getD k 0 < 0 then acc + 2 ^ k else acc) 0
    valid := (List.range 64).foldl (fun acc k => if zs.any (fun z => z.1 == k) then acc + 2 ^ k else acc) 0 }

/-- The best candidate: the highest score, then the earliest in the order tried (R224). A score of 0/0 is NaN and ranks above
no other and below none, so a first candidate with one stays best: DESIGN CHOICE, R224 does not rank it (assumption 1020). -/
def wmBest : List WmCand → WmCand → WmCand
  | [], b => b
  | c :: cs, b => wmBest cs (if (decF c48 b.score).lt (decF c48 c.score) then c else b)

end Sys2Proof.Machine
end

