-- ==== Sys2Proof/Machine/Weir.lean ====
section
/-!
DEFINITION. The weir and the ladder: charges (R332 to R338, Table 15.4), operating points (R343), grants (R335, R337),
domains, floors and clamps (R322 to R328).
-/

namespace Sys2Proof.Machine

-- ## Charges

/-- Uncalibrated values of entries 0 to 13 in units of 0.25 A (Table 15.10, CAL_d). -/
def uncalibrated : List Nat := [3, 5, 2, 3, 4, 10, 40, 25, 3, 2, 50, 20, 3, 2]

/-- Nominal values (Table 15.4). -/
def nominal : List Nat := [2, 4, 1, 2, 3, 8, 32, 20, 2, 1, 40, 16, 2, 1]

/-- Charges of the hub domains, numbered on from the table: hub control, CXL, CXL in low, a lateral port, security. -/
def hubCharge : List Nat := [80, 48, 8, 32, 40]

/-- Entry e in force on die d at P0 (R338). -/
def calEntry (s : State) (d e : Nat) : Nat :=
  if e < 14 then (tget s.pwr.cal (16 * d + e) (BitVec.ofNat 16 (uncalibrated.getD e 0))).toNat else hubCharge.getD (e - 14) 0

/-- V_P0 of a die in units of 5 mV. -/
def vp0Of (s : State) (d : Nat) : Nat := (tget s.dev.fuses.vp0 d 144).toNat

/-- VDD_Cd at a point, in units of 5 mV (Table 15.8). -/
def railMv5 (s : State) (d point : Nat) : Nat :=
  let v := vp0Of s d
  if point == 0 then v else if point == 1 then max 130 (v - 6) else if point == 2 then max 130 (v - 12) else 130

/-- Arithmetic clock at a point, in units of 0.2 GHz (Table 15.8). -/
def pointClock (point : Nat) : Nat := if point == 0 then 10 else if point == 1 then 8 else if point == 2 then 6 else 4

/-- Whether DVFS scales an entry (R343). -/
def scales (e : Nat) : Bool := e ≤ 6 || e == 10

/-- Units of one charge of entry e on rail r at a point. -/
def entryUnits (s : State) (r point e : Nat) : Nat :=
  let n := calEntry s r e
  if r < 8 && scales e && point != 0 then
    cdiv (n * pointClock point * railMv5 s r point) (10 * vp0Of s r)
  else n

def partUnits (s : State) (r point : Nat) (parts : List (Nat × Nat)) : Nat :=
  parts.foldl (fun n p => n + p.2 * entryUnits s r point p.1) 0

/-- The operating point a rail's charges follow. -/
def railPoint (s : State) (r : Nat) : Nat := if r < 8 then (s.diePerf r).point else 0

/-- GRANTED (R330). -/
def granted (t : Rail) : Nat := t.holds.foldl (fun n h => n + h.units) 0

/-- LIMIT of a rail in units of 0.25 A (R330). -/
def railLimit (r : Nat) : Nat := if r < 8 then 880 else 384

/-- Voltage of a rail in units of 5 mV, its target while it rises; VDD_H is 0.75 V (R322, R344). -/
def railVolt (s : State) (r : Nat) : Nat :=
  let p := s.diePerf r
  if r < 8 then railMv5 s r (if p.rising then p.point - 1 else p.point) else 150

/-- Σ granted × voltage over the rails, in units of 1.25 mW (R337). -/
def ledgerPower (s : State) : Nat :=
  (List.range 9).foldl (fun n r => n + granted (s.rail r) * railVolt s r) 0

/-- PEAK_W as the weir uses it (Table 15.10). -/
def peakWatts (s : State) : Nat := min s.pwr.peakW.toNat 1650

/-- Whether a rise of n units on rail r is within R330 and R337. -/
def headroom (s : State) (r n pRest : Nat) : Bool :=
  granted (s.rail r) + n ≤ railLimit r &&
  (ledgerPower s + n * railVolt s r) * 125 + pRest * 100000 ≤ peakWatts s * 100000

/-- Puts a request at the end of a rail's queue. -/
def request (r : Nat) (q : ChargeReq) (s : State) : State := s.modRail r (fun t => { t with queue := t.queue ++ [q] })

/-- Records a held charge, and PEAK. -/
def holdCharge (r : Nat) (h : ChargeReq) (s : State) : State :=
  s.modRail r (fun t =>
    let t := { t with holds := t.holds ++ [h] }
    { t with peak := max t.peak (granted t) })

/-- Releases held and waiting charges at once (R330). -/
def dropCharges (p : ChargeReq → Bool) (s : State) : State :=
  s.modPwr (fun w => { w with rails := tmap w.rails (fun _ t =>
    { t with holds := t.holds.filter (fun h => !p h), queue := t.queue.filter (fun h => !p h) }) })

def isStage (u : Nat) (h : ChargeReq) : Bool :=
  match h.what with
  | .stage v _ => u == v
  | _ => false

def isLoopCharge (l : Nat) (h : ChargeReq) : Bool :=
  match h.what with
  | .loop m _ => l == m
  | _ => false

def isSpoutCharge (k : Nat) (h : ChargeReq) : Bool :=
  match h.what with
  | .spout j => j == k
  | _ => false

def isStanding (n : Nat) (h : ChargeReq) : Bool :=
  match h.what with
  | .standing m _ => n == m
  | _ => false

/-- Whether a request of a kind still waits on some rail. -/
def waiting (p : ChargeReq → Bool) (s : State) : Bool := s.pwr.rails.any (fun e => e.2.queue.any p)

-- ## Domains

/-- The rail of a domain (Table 15.1). -/
def railOf (n : Nat) : Nat := if n < 32 then n / 4 else if n < 40 then n - 32 else 8

/-- The parts of a domain's standing charge in a state (Table 15.4). -/
def standingParts (n st : Nat) : List (Nat × Nat) :=
  if n < 32 then (if st < 4 then [(6 + st, 1)] else [])
  else if n < 40 then (if st < 4 then [(10 + st, 1)] else [])
  else if n == 41 then (if st == 0 then [(15, 1)] else if st == 2 then [(16, 1)] else [])
  else if st != 0 then []
  else if n == 40 then [(14, 1)] else if n == 46 then [(18, 1)] else [(17, 1)]

/-- Replaces the standing charge of a domain by that of a state it has gone down to, or holds already. -/
def setStanding (n st : Nat) (s : State) : State :=
  let r := railOf n
  let parts := standingParts n st
  let u := partUnits s r (railPoint s r) parts
  let s := s.modRail r (fun t => { t with holds := t.holds.filter (fun h => !isStanding n h) })
  if parts.isEmpty then s else holdCharge r { what := .standing n st, cls := 2, parts := parts, units := u } s

/-- Units of standing charge that a domain holds. -/
def standingHeld (s : State) (n : Nat) : Nat :=
  ((s.rail (railOf n)).holds.filter (isStanding n)).foldl (fun k h => k + h.units) 0

/-- Requests the rise to the standing charge of a shallower state (R332). -/
def requestStanding (n st cls : Nat) (s : State) : State :=
  let r := railOf n
  let parts := standingParts n st
  request r { what := .standing n st, cls := cls, parts := parts
              units := partUnits s r (railPoint s r) parts - standingHeld s n } s

-- ## Floors and clamps (R328)

/-- Global index of the core's cluster domain, and the die-uncore domain of a cluster. -/
def uncoreOf (cluster : Nat) : Nat := 32 + cluster / 4

/-- Cores of a loop. -/
def Loop.cores (x : Loop) : List Nat := (List.range x.split).map (fun i => x.firstCore + i)

/-- LOOP clamp: an admitted loop on the cluster (R274). -/
def loopClamp (s : State) (n : Nat) : Bool :=
  n < 32 && s.loops.any (fun e => e.2.admitted && !e.2.dead && clusterOfCore e.2.firstCore == n)

/-- The flowing charge that a loop held for its cluster goes with the last loop, where the cluster is below flowing
(R336). -/
def relaxCluster (n : Nat) (s : State) : State :=
  let st := (s.dom n).state
  if 1 ≤ st && st < 4 && (s.dom n).waking == 0 && !loopClamp s n then setStanding n st s else s

/-- A spout that serves a stream. -/
def spoutServes (s : State) (k : Nat) : Bool := s.streams.any (fun e => e.2.spout == k && e.2.state != 0)

/-- SPOUT clamp of a die uncore (R323). -/
def spoutClamp (s : State) (n : Nat) : Bool :=
  32 ≤ n && n < 40 && (List.range 4).any (fun c => spoutServes s (4 * (n - 32) + c))

def hdmEnabled (v : W64) : Bool := v.getLsbD 0
def hdmParked (v : W64) : Bool := v.getLsbD 1
def hdmWell (v : W64) : Nat := v.toNat / 2 ^ 16 % 8

/-- HDM clamp of a die uncore (R328). -/
def hdmClamp (s : State) (n : Nat) : Bool :=
  32 ≤ n && n < 40 && s.hdm.ranges.any (fun e => hdmEnabled e.2 && !hdmParked e.2 &&
    (hdmWell e.2 == n - 32 || s.hdm.window.any (fun w => w.1 == e.1 && wellOf w.2.1 == n - 32)))

/-- Whether a context's slot on a core is pinned, by CTX_PIN or by an admitted loop (R280). -/
def ctxPinnedOn (s : State) (c g : Nat) : Bool :=
  (List.range 4).any (fun k => (fun (r : Region) => r.valid && r.owner == c && r.pinned) ((s.core g).regions.getD k {})) ||
  s.loops.any (fun e => e.2.ctx == c && e.2.admitted && !e.2.dead && e.2.cores.contains g)

/-- Slots of a core that hold a context: (slot, context). -/
def slotsOn (s : State) (g : Nat) : List (Nat × Nat) :=
  (List.range 4).filterMap (fun k =>
    let r := (s.core g).regions.getD k {}
    if r.valid then some (k, r.owner) else none)

/-- Cores of a cluster. -/
def coresOf (cluster : Nat) : List Nat := (List.range 8).map (fun k => 8 * cluster + k)

/-- PIN clamp of a cluster (R326). -/
def pinClamp (s : State) (n : Nat) : Bool :=
  n < 32 && (coresOf n).any (fun g => (slotsOn s g).any (fun e => ctxPinnedOn s e.2 g))

/-- The hinted or default floor (R328, R329). -/
def hintFloor (s : State) (n : Nat) : Nat := (s.dom n).hint.getD 3

/-- The deepest state of Table 15.1. Until boot has brought up hub control, whose power manager keeps the floors, a hub
domain reads the reset value 3 of Table 15.10 (assumption 1412). -/
def tableFloor (s : State) (n : Nat) : Nat :=
  if n < 40 then 4
  else if (s.dom 40).state == 4 then 3
  else if n == 41 then (if s.pwr.linkL1 then 2 else 0)
  else if 42 ≤ n && n ≤ 45 then (if s.lat.portEn.getLsbD (n - 42) then 0 else 4)
  else 0

/-- The effective floor (R328). -/
def floorOf (s : State) (n : Nat) : Nat :=
  if n < 40 then
    let f := hintFloor s n
    let f := if loopClamp s n then min f 1 else f
    let f := if spoutClamp s n then 0 else f
    let f := if hdmClamp s n then min f 1 else f
    if pinClamp s n then min f 3 else f
  else tableFloor s n

def flowing (s : State) (n : Nat) : Bool := (s.dom n).state == 0

/-- The domains that work on a core needs at flowing (R323, R327). -/
def coreFlowing (s : State) (g : Nat) : Bool := flowing s (clusterOfCore g) && (s.dom (uncoreOf (clusterOfCore g))).state ≤ 1

/-- Begins a wake, from the state the domain is in (R327, R332). -/
def beginWake (n cls : Nat) (s : State) : State :=
  let d := s.dom n
  if d.state == 0 || d.waking != 0 then s
  else if d.state == 1 then
    let u := partUnits s (railOf n) (railPoint s (railOf n)) (standingParts n 0)
    if u ≤ standingHeld s n then setStanding n 0 (s.modDom n (fun d => { d with state := 0 }))
    else requestStanding n 0 cls (s.modDom n (fun d => { d with waking := 3 }))
  else if d.state == 2 then s.modDom n (fun d => { d with waking := 2 })
  else s.modDom n (fun d => { d with waking := 1 })

def wellState (s : State) (d : Nat) : Nat := tget s.pwr.wells d 2

-- ## Stages of a plan (R333, R334)

/-- Array quarters of a draw class (Table 15.5). -/
def quarters (cls : Nat) : Nat := if cls ≤ 1 then 0 else if cls == 2 then 1 else if cls == 3 then 2 else 4

/-- Pump entry of a class. -/
def pumpPart (cls : Nat) : List (Nat × Nat) := if cls == 0 then [] else [(1 + min cls 3, 1)]

/-- Requests a plan's stages on one core: the V-engine and pump charge, then each array quarter (R334). -/
def requestStages (what : ChargeFor) (g cls draw pump : Nat) (s : State) : State :=
  let r := dieOfCore g
  let first := (0, 1) :: pumpPart pump
  let pt := railPoint s r
  let s := request r { what := what, cls := cls, parts := first, units := partUnits s r pt first } s
  (List.range (quarters draw)).foldl (fun s _ =>
    request r { what := what, cls := cls, parts := [(1, 1)], units := partUnits s r pt [(1, 1)] } s) s

/-- Requests the charge of a pump phase without a plan (R332, R333). -/
def requestPump (u g cls : Nat) (s : State) : State :=
  let r := dieOfCore g
  let parts := pumpPart cls
  request r { what := .stage u g, cls := 2, parts := parts, units := partUnits s r (railPoint s r) parts } s

/-- A spout requests its charge with its first stream, and releases it with its last (R332). -/
def spoutCharge (k : Nat) (s : State) : State :=
  let r := dieOfCluster k
  let has := (s.rail r).holds.any (isSpoutCharge k) || (s.rail r).queue.any (isSpoutCharge k)
  if spoutServes s k then
    if has then s
    else request r { what := .spout k, cls := 0, parts := [(5, 1)], units := partUnits s r (railPoint s r) [(5, 1)] } s
  else if has then dropCharges (isSpoutCharge k) s
  else s

/-- Holds of a rail as its die's point now scales them (R343). -/
def rescale (r : Nat) (s : State) : State :=
  let pt := railPoint s r
  s.modRail r (fun t =>
    let t : Rail := { t with holds := t.holds.map (fun (h : ChargeReq) => { h with units := partUnits s r pt h.parts }) }
    { t with peak := max t.peak (granted t) })

/-- The rise of a rail's grants at a shallower point. -/
def pointRise (s : State) (d point : Nat) : Nat :=
  (s.rail d).holds.foldl (fun n h => n + partUnits s d point h.parts) 0 - granted (s.rail d)

-- ## Grants (R335)

/-- The request that a rail serves next: the first of the lowest class. -/
def nextRequest (t : Rail) : Option Nat :=
  match t.queue.findIdx? (fun h => h.cls == 0) with
  | some i => some i
  | none =>
    match t.queue.findIdx? (fun h => h.cls == 1) with
    | some i => some i
    | none => if t.queue.isEmpty then none else some 0

/-- A standing charge is held: the domain takes the state it was requested for (R332). -/
def standingGranted (n st : Nat) (s : State) : State :=
  let s := setStanding n st s
  if st == 1 then
    let s := s.modDom n (fun d => { d with state := 1, waking := 2 })
    if 32 ≤ n && n < 40 then s.modPwr (fun p => { p with wells := tset p.wells (n - 32) 1 }) else s
  else s.modDom n (fun d => { d with state := st, waking := 0 })

/-- THROTTLED goes once the die is back at its CEIL_POINT (Table 15.10). -/
def endThrottle (d : Nat) (s : State) : State :=
  let p := s.diePerf d
  if p.point ≤ p.ceil.toNat && !p.hot then
    s.modPwr (fun w => { w with throttled := w.throttled &&& ~~~BitVec.ofNat 8 (2 ^ d) })
  else s

/-- The clocks of a die switch up once its charges are held (R344). -/
def pointGranted (d : Nat) (s : State) : State :=
  endThrottle d (rescale d (s.modDie d (fun p => { p with point := p.point - 1, rising := false })))

/-- Units that a request asks for now, at the rail's present point. -/
def askedUnits (s : State) (r : Nat) (q : ChargeReq) : Nat :=
  match q.what with
  | .standing n st => partUnits s r (railPoint s r) (standingParts n st) - standingHeld s n
  | .point d => pointRise s d ((s.diePerf d).point - 1)
  | _ => partUnits s r (railPoint s r) q.parts

/-- Grants the next request of a rail where headroom allows. -/
def grantNext (r pRest : Nat) (s : State) : State :=
  let t := s.rail r
  match nextRequest t with
  | none => s
  | some i =>
    match t.queue[i]? with
    | none => s
    | some q =>
      let n := askedUnits s r q
      if headroom s r n pRest then
        let s := s.modRail r (fun t => { t with queue := t.queue.take i ++ t.queue.drop (i + 1) })
        match q.what with
        | .standing n st => standingGranted n st s
        | .point d => pointGranted d s
        | _ => holdCharge r { q with units := n } s
      else s

end Sys2Proof.Machine
end

