-- ==== Sys2Proof/Machine/Spout.lean ====
section
/-!
DEFINITION. The spouts: emission of a block through all its stages (R208, R213), segments (R225 to R227), ring targets
(R216 to R218), withholding (R230), and the interval ticks that close segments (R228).
-/

namespace Sys2Proof.Machine

-- ## Withholding

/-- Blocks are withheld (R230). -/
def withholding (s : State) : Bool :=
  63 ≤ s.prov.held.length || s.prov.ring.isNone || (s.prov.signer == 1 && 63 ≤ s.prov.unsignedQ.length)

/-- Raises PROV where SIGNER_STATE has changed or WITHHOLDING has become 1 (Table 16.7). -/
def provEdge (before after : State) : State :=
  if before.prov.signer != after.prov.signer || (!withholding before && withholding after) then raise evProv after
  else after

/-- SIGNER_STATE is EXHAUSTED (R234). -/
def exhausted (s : State) : Bool := s.prov.signer == 2

-- ## Segments

/-- Segment header of Table 10.7. -/
def segHeader (g : Seg) (stream : Nat) : Block :=
  [0x53, 0x53, 0x45, 0x47] ++ leBytes 2 stream ++ leBytes 1 g.pcmFmt ++ leBytes 1 g.keySlot ++ leBytes 8 g.id ++
  leBytes 6 g.bseqFirst ++ leBytes 2 g.strength ++ leBytes 6 g.bseqLast ++ leBytes 2 g.blockLen ++ leBytes 2 g.rate ++
  leBytes 6 0 ++ leBytes 8 g.payload ++ padTo 32 g.voice

/-- Segment record of Table 10.8. -/
def segRecord (g : Seg) (stream : Nat) (noSig : Bool) : Block :=
  leBytes 8 g.id ++ leBytes 2 stream ++ leBytes 2 g.blocks ++
  leBytes 2 (b2n g.late + 2 * b2n g.conceal + 4 * b2n g.final + 8 * b2n noSig) ++ leBytes 2 0 ++
  leBytes 6 g.bseqFirst ++ leBytes 2 0 ++ leBytes 6 g.bseqLast ++ leBytes 2 0 ++ sha256 (segHeader g stream ++ g.bytes)

/-- Segment records received for the current interval. -/
def intervalCount (p : Prov) : Nat := (p.records.filter (fun r => r.1 == p.interval)).length

/-- The current interval is closed, and the next segment starts the next one (R228). `tick` is the tick that its
building waits for, 0 for none. -/
def nextInterval (tick : Nat) (p : Prov) : Prov :=
  { p with closed := p.closed ++ [(p.interval, tick, p.cfg.intervalMs)], interval := satAdd 64 p.interval 1 }

/-- Receives a segment record; an interval of 65,535 takes no more (R228). -/
def takeRecord (r : Block) (p : Prov) : Prov :=
  let p := if 65535 ≤ intervalCount p then nextInterval 0 p else p
  { p with records := p.records ++ [(p.interval, r)], segments := ctrAdd p.segments 1 }

/-- Closes a stream's open segment and sends its record to the security block (R225, R227). -/
def closeSegment (i : Nat) (s : State) : State :=
  match tget? s.streams i with
  | none => s
  | some st =>
    match st.seg with
    | none => s
    | some g =>
      (s.modStream i (fun x => { x with seg := none })).modProv (takeRecord (segRecord g i (exhausted s)))

/-- Opens a segment at a stream's block (R225). -/
def openSegment (i bseq payload fmt : Nat) (s : State) : State :=
  match tget? s.streams i with
  | none => s
  | some st =>
    let n := (tget s.spouts st.spout {}).segments
    let g : Seg :=
      { id := s.dev.number.toNat + st.spout * 2 ^ 14 + n * 2 ^ 19, bseqFirst := bseq, bseqLast := bseq
        keySlot := st.keySlot, strength := st.strength, pcmFmt := fmt, payload := payload, blockLen := st.blockLen
        rate := st.rate, voice := st.voice, limit := s.prov.cfg.segBlocks }
    { s.modStream i (fun x => { x with seg := some g }) with
      spouts := tupd s.spouts st.spout {} (fun p => { p with segments := satAdd 45 p.segments 1 }) }

/-- Closes the open segment where the next block changes what a segment must keep (R225). -/
def closeIfChanged (i payload fmt : Nat) (s : State) : State :=
  match tget? s.streams i with
  | none => s
  | some st =>
    match st.seg with
    | none => s
    | some g =>
      if g.voice == st.voice && g.pcmFmt == fmt && g.keySlot == st.keySlot && g.strength == st.strength &&
        g.payload == payload then s
      else closeSegment i s

-- ## Ring targets

def Target.full (t : Target) : Bool := (t.prod - t.cons).toNat == t.slots

/-- Writes a record into the next slot, then the producer line (R216, R217). -/
def writeRecord (t : Target) (bytes : Block) (bseq : Nat) (s : State) : Target × State :=
  let a := t.base + t.prod.toNat % t.slots * t.slotBytes
  let s := hostWrite a (padTo t.slotBytes bytes) s
  let t := { t with prod := t.prod + 1, lastBseq := bseq }
  (t, hostWrite t.prodLine (leBytes 8 t.prod.toNat ++ leBytes 8 bseq ++ List.replicate 48 0) s)

/-- Metadata record of Table 10.5. -/
def metaRecord (stream flags samples wm bseq seg last : Nat) : Block :=
  leBytes 2 stream ++ leBytes 2 flags ++ leBytes 2 samples ++ leBytes 2 wm ++ leBytes 6 bseq ++ leBytes 2 0 ++
  leBytes 8 seg ++ leBytes 6 last ++ leBytes 2 0

/-- The gap record of a run (R218, R230). -/
def gapRecord (m : Missed) : Block :=
  metaRecord m.stream (4 + 8 * b2n m.withheld + 16 * b2n m.final) 0 0 m.first 0 m.last

/-- Extends the run that a target has missed; another stream's run takes its place. -/
def addMissed (t : Target) (m : Missed) : Target :=
  { t with missed := some (match t.missed with
      | none => m
      | some r => if r.stream != m.stream then m else { r with last := m.last, withheld := r.withheld || m.withheld, final := r.final || m.final }) }

/-- Writes the gap record a target is owed, where it has a free slot. -/
def writeGap (t : Target) (s : State) : Target × State :=
  match t.missed with
  | some m => if t.abandoned || t.full then (t, s) else writeRecord { t with missed := none } (gapRecord m) m.first s
  | none => (t, s)

/-- Applies an action to every target of a binding. -/
def eachTarget (f : Target → State → Target × State) : List Target → State → List Target × State
  | [], s => ([], s)
  | t :: ts, s =>
    let (t, s) := f t s
    let (ts, s) := eachTarget f ts s
    (t :: ts, s)

/-- One block on one target: the gap it is owed first, then the block, or a miss (SHED). -/
def putBlock (b : OutBlock) (t : Target) (s : State) : Target × State :=
  if t.abandoned then (t, s)
  else
    let (t, s) := writeGap t s
    if t.full || t.missed.isSome then
      (addMissed t { stream := b.stream, first := b.bseq, last := b.bseq, final := b.final }, s)
    else writeRecord t b.record b.bseq s

/-- Writes a binding's targets back. -/
def setTargets (b : Nat) (ts : List Target) (s : State) : State := s.modBinding b (fun x => { x with targets := ts })

/-- The binding serves no stream any more, and a dying one is deleted (R215). -/
def releaseBinding (b : Nat) (s : State) : State :=
  match tget? s.bindings b with
  | none => s
  | some x =>
    if x.dying then { s with bindings := tdel s.bindings b }
    else s.modBinding b (fun x => { x with stream := none })

/-- A stream's last record is out: its reservation returns, its binding is free, and its id is FREE. A stream that still
holds a lane of a loop that stands is freed when it leaves it; a descriptor whose loop ended under it keeps ENDED
(Table 10.2, R215, R283). -/
def freeStream (i : Nat) (s : State) : State :=
  match tget? s.streams i with
  | none => s
  | some st =>
    let stands := match st.loop.bind (tget? s.loops) with
      | some x => !x.stopped
      | none => false
    if st.lane.isSome && !st.ended && stands then s.modStream i (fun x => { x with lastOut := true })
    else
    let s := if st.ended then { s with streams := tset s.streams i { ctx := st.ctx, ended := true } }
      else { s with streams := tdel s.streams i }
    let s := match st.loop with
      | some l => s.modLoop l (fun x => { x with lanes := x.lanes.filter (fun e => e.2 != i) })
      | none => s
    let s := match st.binding with
      | some b => releaseBinding b s
      | none => s
    spoutCharge st.spout s

/-- The gap record of a withheld run, on every target; a run that a target has missed besides joins it (R230). -/
def putGap (b : Nat) (m : Missed) (s : State) : State :=
  match tget? s.bindings b with
  | none => s
  | some x =>
    let (ts, s) := eachTarget (fun t s => if t.abandoned then (t, s) else writeGap (addMissed t m) s) x.targets s
    let s := setTargets b ts s
    if m.final then freeStream m.stream s else s

/-- Writes a block to every target and counts it for the audio-ring vector (R218, R363). -/
def deliverBlock (b : Nat) (blk : OutBlock) (s : State) : State :=
  match tget? s.bindings b with
  | none => s
  | some x =>
    let (ts, s) := eachTarget (putBlock blk) x.targets s
    let n := x.written + 1
    let s := (setTargets b ts s).modBinding b (fun x => { x with written := n })
    let cluster := match tget? s.streams blk.stream with
      | some st => st.spout
      | none => x.spout
    let s := if x.notify != 0 && n % x.notify == 0 then msix (1024 + cluster) s else s
    if blk.final then freeStream blk.stream s else s

/-- Writes a block, or the gap record that stands in its place. -/
def deliver (b : Nat) (blk : OutBlock) (s : State) : State :=
  match blk.gap with
  | some m => putGap b m s
  | none => deliverBlock b blk s

/-- Whether some target of a binding has no free slot for the next block (HOLD). -/
def anyFull (x : Binding) : Bool :=
  x.targets.any (fun t => !t.abandoned &&
    (t.full || (t.missed.isSome && (t.prod - t.cons).toNat + 1 == t.slots)))

/-- Delivers held blocks while every target has a slot (R218). -/
def drainHeld : Nat → Nat → State → State
  | 0, _, s => s
  | n + 1, b, s =>
    match tget? s.bindings b with
    | none => s
    | some x =>
      match x.held with
      | [] => s
      | blk :: rest =>
        if anyFull x && blk.gap.isNone then s
        else drainHeld n b (deliver b blk (s.modBinding b (fun x => { x with held := rest })))

/-- Handles the blocks that wait under HOLD as under SHED, oldest first, up to the last that `p` selects. -/
def shedHeld (p : OutBlock → Bool) (b : Nat) (s : State) : State :=
  match tget? s.bindings b with
  | none => s
  | some x =>
    let n := (x.held.length - (x.held.reverse.takeWhile (fun k => !p k)).length)
    let s := s.modBinding b (fun x => { x with held := x.held.drop n })
    (x.held.take n).foldl (fun s blk => deliver b blk s) s

/-- The gap record of a withheld run goes out, behind the blocks that wait under HOLD (R218, R230). -/
def flushWithheld (b : Nat) (s : State) : State :=
  match tget? s.bindings b with
  | none => s
  | some x =>
    match x.withheld with
    | none => s
    | some m =>
      if x.held.isEmpty then putGap b m (s.modBinding b (fun x => { x with withheld := none }))
      else s.modBinding b (fun x => { x with
        withheld := none
        held := x.held ++ [{ stream := m.stream, bseq := m.first, record := [], final := m.final, gap := some m }] })

/-- A block ready for its binding: POLICY decides (R218). `now` says that its wait is already over. -/
def offer (b : Nat) (blk : OutBlock) (now : Bool) (s : State) : State :=
  let s := flushWithheld b s
  match tget? s.bindings b with
  | none => s
  | some x =>
    if x.hold && !now && (!x.held.isEmpty || anyFull x) then
      s.modBinding b (fun x => { x with held := x.held ++ [blk] })
    else if x.hold then deliver b blk (shedHeld (fun _ => true) b s)
    else deliver b blk s

-- ## Emission

/-- What a block is, beside its values (Table 10.2). -/
structure Emission where
  clip : Bool := false
  conceal : Bool := false
  late : Bool := false
  final : Bool := false
  mark : Bool := false
  /-- loop block whose due tick ends a HOLD wait -/
  due : Option (Nat × Nat) := none
  /-- the due tick is now -/
  now : Bool := false
  deriving DecidableEq, Repr

/-- The settings that apply to block BSEQ (R220): a new key slot and payload tag from a multiple of 256. -/
def settle (bseq : Nat) (st : Stream) : Stream :=
  if bseq % 256 == 0 then
    { st with keySlot := st.nextKeySlot.getD st.keySlot, tag := st.nextTag.getD st.tag, nextKeySlot := none, nextTag := none }
  else st

def wmKey (s : State) (slot : Nat) : Block := if slot == 0 then s.dev.fuses.wmKey0 else tget s.wmKeys slot (List.replicate 32 0)

/-- After exhaustion a context without ALLOW_UNSIGNED emits nothing (R234). -/
def silenced (s : State) (c : Nat) : Bool :=
  exhausted s && !(match s.ctx? c with | some x => x.allowUnsigned | none => false)

/-- A stream's blocks go out, or not at all after exhaustion in a context without ALLOW_UNSIGNED (R234). -/
def mayEmit (s : State) (st : Stream) : Bool :=
  !st.finished && !silenced s st.ctx

/-- A block that is withheld: its BSEQ is used, and its run grows (R230). -/
def withholdBlock (i bseq : Nat) (final : Bool) (s : State) : State :=
  match tget? s.streams i with
  | none => s
  | some st =>
    let s := s.modStream i (fun x => { x with nextBseq := bseq + 1, finished := x.finished || final })
    let s := (s.modProv (fun p => { p with withheld := ctrAdd p.withheld 1 })).modSched (fun k =>
      { k with withheldBlocks := ctrAdd k.withheldBlocks 1 })
    let s := s.modStats st.ctx (fun k => { k with withheldBlocks := ctrAdd k.withheldBlocks 1 })
    let s := if final then closeSegment i s else s
    match st.binding with
    | none => if final then freeStream i s else s
    | some b => s.modBinding b (fun x => { x with withheld := some (match x.withheld with
        | none => { stream := i, first := bseq, last := bseq, withheld := true, final := final }
        | some r => { r with last := bseq, final := r.final || final }) })

/-- Stages 2 to 5 of R208 on the stage-1 values of one block of stream i. -/
def emitBlock (i : Nat) (vals : List Int) (e : Emission) (s : State) : State :=
  match tget? s.streams i with
  | none => s
  | some st =>
    if !mayEmit s st then s
    else
      let bseq := st.nextBseq
      let final := e.final || bseq == 2 ^ 48 - 1
      if withholding s then withholdBlock i bseq final s
      else
        let st := settle bseq st
        let fmt := match st.binding with
          | some b => (tget s.bindings b {}).pcmFmt
          | none => 0
        let pcm24 := bitOf fmt 0
        let payload := payloadOf s.dev.number.toNat i st.tag
        let k := bseq / 4 % 64
        let (outs, clipped, on) := markBlock (wmKey s st.keySlot) bseq i st.strength (bitOf payload k) pcm24 vals
        let noSig := exhausted s
        let s := { s with streams := tset s.streams i st }
        let s := closeIfChanged i payload fmt s
        let s := if st.seg.isNone || ((tget s.streams i st).seg.isNone) then openSegment i bseq payload fmt s else s
        let seg := ((tget s.streams i st).seg).getD { id := 0, bseqFirst := bseq, bseqLast := bseq }
        let flags := b2n e.late + 2 * b2n e.conceal + 16 * b2n final + 32 * b2n e.mark + 64 * b2n noSig +
          128 * b2n (e.clip || clipped)
        let rec' := metaRecord i flags vals.length (k + 64 * (bseq % 4) + 256 * b2n on) bseq seg.id bseq ++
          outs.flatMap (pcmBytes pcm24)
        let seg := { seg with bseqLast := bseq, blocks := seg.blocks + 1, late := seg.late || e.late
                              conceal := seg.conceal || e.conceal, final := final, bytes := seg.bytes ++ rec' }
        let s := s.modStream i (fun x => { x with seg := some seg, nextBseq := bseq + 1, lateLast := e.late
                                                  finished := final
                                                  fade := if e.conceal then false else if final then x.fade else true
                                                  lastGood := if e.conceal || final then x.lastGood else vals })
        let s := if final || seg.limit ≤ seg.blocks then closeSegment i s else s
        let s := s.modStats st.ctx (fun k =>
          { k with lateBlocks := if e.late then ctrAdd k.lateBlocks 1 else k.lateBlocks
                   concealBlocks := if e.conceal then ctrAdd k.concealBlocks 1 else k.concealBlocks })
        match st.binding with
        | none => if final then freeStream i s else s
        | some b => offer b { stream := i, bseq := bseq, record := rec', final := final, due := e.due } e.now s

/-- Values of a concealment block (R214). -/
def concealVals (st : Stream) : List Int :=
  if st.fade && !st.lastGood.isEmpty then fadeBlock st.lastGood else List.replicate st.blockLen 0

/-- Emits a concealment block (R214). -/
def emitConceal (i : Nat) (e : Emission) (s : State) : State :=
  match tget? s.streams i with
  | none => s
  | some st => emitBlock i (concealVals st) { e with conceal := true } s

/-- Whether a stream's input is linear (Table 10.3). -/
def isLinear (s : State) (st : Stream) : Bool :=
  match st.binding with
  | some b => bitOf (tget s.bindings b {}).pcmFmt 1
  | none => false

/-- Stage 1 on the samples of a block (R210, R211). -/
def convertSamples (linear : Bool) (xs : List W32) : List Int × Bool :=
  let ys := xs.map (fun x => if linear then fromLinear x.toNat else fromCode x.toNat)
  (ys.map Prod.fst, ys.any Prod.snd)

/-- Emits a computed block of stream i. -/
def emitSamples (i : Nat) (xs : List W32) (e : Emission) (s : State) : State :=
  match tget? s.streams i with
  | none => s
  | some st =>
    let (vals, clip) := convertSamples (isLinear s st) xs
    emitBlock i vals { e with clip := clip } s

-- ## Interval ticks

/-- Closes every open segment (R225, R234). -/
def closeAllSegments (s : State) : State := (s.streams.map Prod.fst).foldl (fun s i => closeSegment i s) s

/-- Spouts of dies in service. -/
def spoutsIn (s : State) : List Nat := (List.range 32).filter (fun k => s.dieIn (dieOfCluster k))

/-- Streams bound to a spout. -/
def streamsOn (s : State) (k : Nat) : List Nat := (s.streams.filter (fun e => e.2.spout == k)).map Prod.fst

/-- Staging reserved in a spout's pool (R283), and staging that chunks hold beyond reservations (R284). -/
def poolReserved (s : State) (k : Nat) : Nat :=
  (s.streams.filter (fun e => e.2.spout == k)).foldl (fun n e => n + e.2.reserved) 0

def poolClaimed (s : State) (k : Nat) : Nat :=
  (s.streams.filter (fun e => e.2.spout == k)).foldl (fun n e => e.2.chunks.foldl (fun n c => n + c.fromPool) n) 0

/-- The staging of R209, a multiple of 1 KiB. -/
def stagingFor (deadline blockLen : Nat) : Nat := cdiv ((deadline + 1) * blockLen * 4 + blockLen * 3) 1024 * 1024

end Sys2Proof.Machine
end

