-- ==== Sys2Proof/Machine/Ready.lean ====
section
/-!
DEFINITION. When a fetched command may start (R125, R204, R252 to R256, R288), which work is in which tier (R269), and
the share classes that have work to serve (R270).
-/

namespace Sys2Proof.Machine

-- ## Ordering

/-- An admitted STREAM_LOOP counts as retired for ordering (R256). -/
def countsRetired (c : Cmd) : Bool := c.opcode == opStreamLoop && c.phase == .accepted

/-- Commands fetched before c that have not retired. -/
def earlier (s : State) (c : Cmd) : List Cmd := s.inflight.filter (fun d => d.uid < c.uid && !countsRetired d)

/-- Sequences that a command touches, each with whether it is exclusive (R125). -/
def touches (s : State) (c : Cmd) : List (Nat × Bool) :=
  if c.opcode == opKvSeqClose then [(c.p 0 2, true)]
  else if c.opcode == opKvPolicy then
    (if (c.p 0 1 == 0 && c.p 2 2 != 0xFFFF) || c.p 0 1 == 2 || c.p 0 1 == 3 then [(c.p 2 2, true)] else [])
  else if c.opcode == opRun && c.p 8 8 != 0 then
    let bs := (runArgsOf (argBytes s c)).bindings
    let ex := bs.any (fun b => b.append)
    bs.map (fun b => (b.seq, ex))
  else []

/-- Whether an earlier command on a shared sequence holds c back (R125). -/
def kvBlocked (s : State) (c : Cmd) : Bool :=
  let mine := touches s c
  (earlier s c).any (fun d => (touches s d).any (fun t => mine.any (fun m => m.1 == t.1 && (m.2 || t.2))))

def sameCtx (c d : Cmd) : Bool := !isDevice c.opcode && !isDevice d.opcode && c.ctx == d.ctx

/-- FENCE, given or implied (R253, R255). -/
def fenced (s : State) (c : Cmd) : Bool :=
  c.fence || c.opcode == opFence ||
  (c.opcode != opKill && (s.dev.compatOrd ||
    (!isDevice c.opcode && (match s.ctx? c.ctx with | some x => x.orderStrict | none => false))))

/-- The ordering rules let c start. -/
def canStart (s : State) (c : Cmd) : Bool :=
  let es := earlier s c
  (!fenced s c || es.all (fun d => d.queue != c.queue)) &&
  es.all (fun d => !(d.queue == c.queue && d.opcode == opFence)) &&
  es.all (fun d => !(sameCtx c d && (d.opcode == opCtxSave || d.opcode == opRngKey))) &&
  (c.opcode != opCtxSave || es.all (fun d => !sameCtx c d)) &&
  (c.opcode != opRngKey || es.all (fun d => !sameCtx c d || d.opcode == opStreamLoop)) &&
  !kvBlocked s c

-- ## Readiness and share classes

/-- SHARES of a class; 0 counts as 1 (Table 12.7). -/
def sharesOf (s : State) (c : Nat) : Nat := max 1 (tget s.sched.shares c 0x100).toNat

def classOf (s : State) (c : Nat) : Nat := match s.ctx? c with | some x => x.shareClass | none => 0

/-- A loop admitted against reserved capacity (R273). -/
def rtLoop (s : State) (x : Loop) : Bool :=
  x.admitted && !x.freeRun && (match s.ctx? x.ctx with | some c => c.realtime | none => false)

/-- The block that a loop runs next has reached its gate, or its predecessor committed late (R107). -/
def gateReached (x : Loop) : Bool := x.freeRun || (x.blockIndex - 1) * x.blockLen ≤ x.ticks

/-- A lane steps in the block that starts now (R103). FEED_LIMIT counts frames modulo 2^32, and the model compares it with
the frame number by the serial rule of R40. DESIGN CHOICE: R103 writes a plain comparison (assumption 519). -/
def steps (s : State) (x : Loop) (i : Nat) : Bool :=
  match tget? s.streams i with
  | none => false
  | some st =>
    (st.state == 2 || (st.state == 3 && st.loop.isSome)) &&
    reached st.feedLimit (BitVec.ofNat 32 ((st.sampleIndex + x.blockLen - 1) / max 1 st.hopLen + 1 + x.plan.lookahead))

/-- Lanes that take part in a loop's next block: decided at its first start, kept by a re-run (R98, R103). -/
def lanesDue (s : State) (x : Loop) : List (Nat × Nat) :=
  match x.stepping with
  | some ls => x.lanes.filter (fun e => ls.contains e.1)
  | none => x.lanes.filter (fun e => steps s x e.2)

/-- A loop has a block that waits to start. -/
def blockReady (s : State) (x : Loop) : Bool :=
  x.admitted && !x.running && !x.stopped && !x.dead && gateReached x && !(lanesDue s x).isEmpty

/-- Tier 1: blocks of real-time loops, and late blocks, whose due tick has passed (R107, R269). Blocks of other loops are
plans of tier 3 (assumption 1222). -/
def tierOne (s : State) (x : Loop) : Bool := rtLoop s x || (!x.freeRun && x.blockIndex < x.nextDue)

/-- A tier-1 block waits for a core (R269, R276). -/
def tierOneWaits (s : State) (g : Nat) : Bool :=
  s.loops.any (fun e => blockReady s e.2 && tierOne s e.2 && e.2.cores.contains g)

/-- Staging that a chunk takes from its reservation and from the pool (R284); none where it must wait. -/
def chunkClaim (s : State) (c : Cmd) (i start n : Nat) : Option (Nat × Nat) :=
  match tget? s.streams i, s.ctx? c.ctx with
  | some st, some x =>
    let used := st.chunks.foldl (fun k e => k + (e.staged - e.fromPool)) 0
    let own := min (4 * n) (st.reserved - used)
    let need := 4 * n - own
    let beyond := (st.chunks.filter (fun k => !k.released && k.start != st.sampleIndex)).length
    if need ≤ 4 * 2 ^ 20 - poolReserved s st.spout - poolClaimed s st.spout && (start == st.sampleIndex || beyond < x.chunkAhead)
    then some (own, need) else none
  | _, _ => none

def stagingOk (s : State) (c : Cmd) : Bool :=
  match (argsOf s c).chunk with
  | some (i, start, n) => (chunkClaim s c i start n).isSome
  | none => true

/-- A tier-3 command that is ready to start: a plan past its start checks, a pump-only command whose turn it is, or a
standing loop with a block of tier 3 (R269, R270). -/
def readyTier3 (s : State) (c : Cmd) : Bool :=
  (c.opcode == opRun && c.phase == .ready && stagingOk s c) || (isPump c.opcode && c.phase == .fetched && canStart s c) ||
  (c.opcode == opStreamLoop && c.phase == .accepted &&
    (match c.object.bind (tget? s.loops) with
     | some x => blockReady s x && !tierOne s x
     | none => false))

/-- Classes with a ready command. -/
def backloggedClasses (s : State) : List Nat :=
  (List.range 64).filter (fun k => s.inflight.any (fun c => classOf s c.ctx == k && readyTier3 s c))

def vtOf (s : State) (k : Nat) : Nat := (tget s.sched.vt k 0).toNat

/-- V of R270: the VT of the class served most recently. -/
def servedVt (s : State) : Nat := (s.sched.lastClass.map (vtOf s)).getD 0

/-- Classes that have become backlogged take VT := max(VT, V) (R270). The model settles this before every charge and every
choice of a class, so that V is that of the moment. -/
def enterBacklog (s : State) : State :=
  let now := backloggedClasses s
  let v := servedVt s
  s.modSched (fun d => { d with
    backlogged := now
    vt := (now.filter (fun k => !s.sched.backlogged.contains k)).foldl (fun t k =>
      if v ≤ (tget t k 0).toNat then t else tset t k (BitVec.ofNat 64 v)) d.vt })

end Sys2Proof.Machine
end

