-- ==== Sys2Proof/Machine/Life.lean ====
section
/-!
DEFINITION. The life of a command and of a context: completion records (R248 to R250), accounting (R267, R268), the end
of a run, kill and re-queue (R44, R257), the end of a loop (Table 10.2), teardown (R286), recovery marks (R258).
-/

namespace Sys2Proof.Machine

-- ## Completion rings

/-- Writes one record and the CQ_PROD that covers it (R238, R248, R249). -/
def writeRing (q : Nat) (x : Queue) (r : RingRec) (s : State) : State :=
  let bytes := if r.mark then markBytes s.dev.recoveries else r.bytes
  let s := hostWrite (x.cqBase + x.cqProd.toNat % 2 ^ x.cqLog * 32) (withPhase (phaseOf x) bytes) s
  let prod := x.cqProd + 1
  let s := hostWrite (x.lineBase + 0x80) (countLine prod) s
  let s := s.modQueue q (fun x => { x with cqProd := prod, ringCtxs := x.ringCtxs ++ [r.ctx] })
  if x.notify != 0 && prod.toNat % x.notify == 0 then msix q s else s

/-- Writes the records that wait, in order, while the ring has room. -/
def drainRing : Nat → Nat → State → State
  | 0, _, s => s
  | n + 1, q, s =>
    match s.queue? q with
    | none => s
    | some x =>
      match x.waits with
      | [] => s
      | r :: rest =>
        if 2 ^ x.cqLog ≤ (x.cqProd - x.cqCons).toNat then s
        else drainRing n q (writeRing q x r (s.modQueue q (fun x => { x with waits := rest })))

/-- A record goes to a queue's ring, behind those that wait; a queue that discards writes none (R355). -/
def pushRecord (q : Nat) (r : RingRec) (s : State) : State :=
  match s.queue? q with
  | none => s
  | some x =>
    if !x.opened || x.discards then s
    else drainRing (x.waits.length + 1) q (s.modQueue q (fun x => { x with waits := x.waits ++ [r] }))

/-- A recovery mark goes to a queue's ring; one that is not yet written covers this recovery too (R258). -/
def pushMark (q : Nat) (s : State) : State :=
  match s.queue? q with
  | none => s
  | some x => if x.waits.any (fun r => r.mark) then s else pushRecord q { mark := true } s

/-- Queues that a recovery affects (R258): their ring holds a record of an affected context, or a command of one is
in flight. -/
def affectedQueues (cs : List Nat) (s : State) : List Nat :=
  (s.queues.filter (fun e =>
    e.2.ringCtxs.any (fun c => match c with | some c => cs.contains c | none => false) ||
    s.inflight.any (fun c => c.queue == e.1 && !isDevice c.opcode && cs.contains c.ctx))).map Prod.fst

/-- A device recovery: it is counted, marks every affected queue, and flags the commands in flight of the affected
contexts (R258, R387, R392). -/
def recovery (cs : List Nat) (s : State) : State :=
  let s := s.modDev (fun d => { d with recoveries := min (d.recoveries + 1) (2 ^ 32 - 1) })
  let s := raise evRecovery s
  let qs := affectedQueues cs s
  let s := qs.foldl (fun s q => pushMark q s) s
  { s with inflight := s.inflight.map (fun c =>
      if !isDevice c.opcode && cs.contains c.ctx then { c with recovered := true } else c) }

-- ## Accounting

/-- Adds one to a client count; an increment past the limit is lost, and the first one sets its SAT bit and raises the
event (R267). -/
def clientAdd (tag which : Nat) (s : State) : State :=
  let e := tget s.clients tag {}
  let v := if which == 0 then e.submitted else if which == 1 then e.completed else e.faulted
  if v == BitVec.ofNat 32 (2 ^ 32 - 1) then
    if e.sat.getLsbD which then s
    else
    let s := { s with clients := tset s.clients tag { e with sat := e.sat ||| BitVec.ofNat 3 (2 ^ which) } }
    raise evClient (s.modSched (fun k => { k with clientSatEvents := ctrAdd k.clientSatEvents 1 }))
  else
    let e := if which == 0 then { e with submitted := v + 1 } else if which == 1 then { e with completed := v + 1 }
      else { e with faulted := v + 1 }
    { s with clients := tset s.clients tag e }

/-- Charges n core-cycles to a class (R268). -/
def ledgerCharge (cls n : Nat) (s : State) : State :=
  let s := enterBacklog s
  let v := n * 65536 / sharesOf s cls
  s.modSched (fun k => { k with
    ledger := tupd k.ledger cls 0 (fun x => BitVec.ofNat 64 (satAdd 64 x.toNat n))
    vt := tupd k.vt cls 0 (fun x => BitVec.ofNat 64 (satAdd 64 x.toNat v)) })

/-- Counts a fetch for the context that the command names, once it is defined (R267, Table 12.5). -/
def countFetch (c : Cmd) (s : State) : State :=
  if isDevice c.opcode then s
  else match s.ctx? c.ctx with
    | none => s
    | some x => clientAdd x.clientTag 0 (s.modStats c.ctx (fun k => { k with fetched := ctrAdd k.fetched 1 }))

/-- A run starts: after a kill or a wait it is a re-run (Table 11.7). -/
def runsAgain (c : Cmd) : Cmd := { c with rerun := c.rerun || c.rerunDue, rerunDue := false }

/-- A command starts (R252, BACKLOG_US). -/
def startCmd (u : Nat) (s : State) : State :=
  s.modCmd u (fun c => if c.started then c else { c with started := true, startedAt := s.hubCycle })

-- ## Slots

/-- The slot of a context on a core. -/
def slotOf (s : State) (c g : Nat) : Option Nat := ((slotsOn s g).find? (fun e => e.2 == c)).map Prod.fst

/-- Cores where a context holds a slot. -/
def coresOfCtx (s : State) (c : Nat) : List Nat := (s.cores.map Prod.fst).filter (fun g => (slotOf s c g).isSome)

/-- Zeroes a slot's region, accumulator share and floats (R259, R396). -/
def zeroSlot (g k : Nat) (s : State) : State :=
  let r := (s.core g).regions.getD k {}
  let s := cisZero (csAddr g (r.base * 8192)) (r.size * 8192) s
  let s := accZero g (r.accBase * 64) (r.accSize * 64) s
  { s with floats := s.floats.filter (fun e => !(e.1 / 16 == 4 * g + k)) }

/-- Releases a region entry; its bytes stay (R47, R266). -/
def freeRegion (g i : Nat) (s : State) : State := s.modCore g (fun c => { c with regions := c.regions.set i {} })

/-- The random key, which lies in the context region, is zeroed with it (R204, Table 17.9; assumption 902). -/
def zeroKey (c : Nat) (s : State) : State := s.modCtx c (fun x => { x with key := List.replicate 32 0 })

/-- Scrubs a slot of a context (R259, R396). -/
def scrubSlot (c g k : Nat) (s : State) : State := zeroKey c (zeroSlot g k s)

/-- Scrubs the context's slots on some cores. -/
def zeroSlotsOn (c : Nat) (gs : List Nat) (s : State) : State :=
  gs.foldl (fun s g => match slotOf s c g with | some k => scrubSlot c g k s | none => s) s

/-- A poisoned or released resident image region. -/
def imageRegion (s : State) (h g : Nat) : Option Nat :=
  (List.range 4).findSome? (fun i =>
    let r := (s.core g).regions.getD (4 + i) {}
    if r.valid && r.kind == 2 && r.owner == h then some (4 + i) else none)

/-- Releases an image's region on a core (R21, R47). -/
def freeImageOn (h g : Nat) (s : State) : State :=
  let s := match imageRegion s h g with | some i => freeRegion g i s | none => s
  { s with images := tmod s.images h (fun x => { x with owners := x.owners.filter (fun o => o.1 != g) }) }

-- ## Retirement

/-- The scrubbing that precedes a record with an error status (R259, R396). -/
def scrubAtRetire (c : Cmd) (status : Nat) (s : State) : State :=
  if status == stOk || isDevice c.opcode then s
  else
    match s.ctx? c.ctx with
    | none => s
    | some x => if c.scrub || x.scrubOnKill then zeroSlotsOn c.ctx c.usedCores s else s

/-- Client entry and context page at a retirement (R267, Table 12.5). -/
def countRetire (c : Cmd) (status : Nat) (backlog : Nat) (s : State) : State :=
  let s := s.modSched (fun k => { k with
    admissionRefusals := if status == stAdmissionRefused then ctrAdd k.admissionRefusals 1 else k.admissionRefusals
    deadlockRefusals := if status == stDeadlockRefused then ctrAdd k.deadlockRefusals 1 else k.deadlockRefusals })
  if isDevice c.opcode then s
  else
    match s.ctx? c.ctx with
    | none => s
    | some x =>
      let s := if status == stOk then clientAdd x.clientTag 1 s else if isFault status then clientAdd x.clientTag 2 s else s
      s.modStats c.ctx (fun k => { k with
        retiredOk := if status == stOk then ctrAdd k.retiredOk 1 else k.retiredOk
        retiredOther := if status == stOk then k.retiredOther else ctrAdd k.retiredOther 1
        reruns := if c.rerun then ctrAdd k.reruns 1 else k.reruns
        engineCycles := ctrAdd k.engineCycles (min c.engineCycles (2 ^ 48 - 1))
        satTotal := ctrAdd k.satTotal (min c.sat (2 ^ 32 - 1))
        avgSlowdown := if status == stOk then avgSlowdown k.avgSlowdown c else k.avgSlowdown
        backlogMaxUs := if k.backlogMaxUs.toNat < backlog then BitVec.ofNat 64 backlog else k.backlogMaxUs })

/-- BACKLOG_US: whole microseconds from fetch to first start; for a command that never starts the spec states no
value, so it is free (assumption 2). -/
def backlogOf (c : Cmd) (s : State) : Nat × State :=
  if c.started then (min ((c.startedAt - c.fetchedAt) / 1000) (2 ^ 32 - 1), s)
  else
    let (f, s) := takeFree s
    (f % 2 ^ 32, s)

/-- Commands of a queue fetched and not yet started (Table 11.7). -/
def backlogDepth (s : State) (c : Cmd) : Nat :=
  (s.inflight.filter (fun d => d.queue == c.queue && !d.started && d.uid != c.uid)).length

/-- Counts a retirement for the QUEUE_CLOSE that is closing the command's queue (R423). -/
def tallyClose (q : Nat) (s : State) : State :=
  match s.queue? q with
  | some x => match x.closing with
    | some w => s.modCmd w (fun d => { d with tally := d.tally + 1 })
    | none => s
  | none => s

/-- Retires a command: scrubbing, record, counts; the command leaves the flight (R248, R260). -/
def retireOnly (u status detail : Nat) (s : State) : State :=
  match s.cmd? u with
  | none => s
  | some c =>
    let s := scrubAtRetire c status s
    let (backlog, s) := backlogOf c s
    let depth := backlogDepth s c
    let tag := if isDevice c.opcode then none else some c.ctx
    let s := pushRecord c.queue { bytes := recordBytes c status detail depth backlog, ctx := tag } s
    let s := countRetire c status backlog s
    let s := leaveGroup u s
    (tallyClose c.queue s).dropCmd u

-- ## The end of a run

/-- A core that no plan occupies: its wide port is idle and no step is under way (R28). -/
def Core.idle (c : Core) : Core :=
  { c with running := none, wideHolder := 0, phaseRows := 0, heldSums := [], pos := 0, checked := none }

/-- The cores that a command occupies are free (R21). -/
def vacate (u : Nat) (s : State) : State :=
  { s with cores := tmap s.cores (fun _ c => if c.running == some u then c.idle else c) }

/-- A command occupies cores in its context's slots, from its first step on (R21, Table 2.4); what an error retirement
scrubs counts them (R259). -/
def occupy (u : Nat) (gs : List Nat) (s : State) : State :=
  let cid := ((s.cmd? u).map (fun c => c.ctx)).getD 0
  let s := gs.foldl (fun s g => s.modCore g (fun c => { c.idle with
    running := some u, runSlot := (slotOf s cid g).getD 0 })) s
  s.modCmd u (fun c => { c with usedCores := withAll c.usedCores gs })

/-- Frees the cores that a command occupies and its charges (R21, R332). -/
def freeCores (u : Nat) (s : State) : State := dropCharges (isStage u) (vacate u s)

/-- Adds the core-cycles of a run to the command, and charges them to its class (R250, R268). -/
def chargeRun (u cyc : Nat) (s : State) : State :=
  match s.cmd? u with
  | none => s
  | some c =>
    let s := s.modCmd u (fun c => { c with engineCycles := c.engineCycles + cyc, runCycles := 0 })
    ledgerCharge (classOf s c.ctx) cyc s

/-- Cycles of a run that something else than the command's own row ends: a free value (assumption 2). -/
def freeCycles (s : State) : Nat × State :=
  let (f, s) := takeFree s
  (f % 2 ^ 48, s)

/-- Cycles in which the pumps of a command's cores held their wide ports (PUMP_BUSY, Table 2.8): of the cycles that the
command took, those of its pump phases, which the spec does not count: a free value (assumption 2). -/
def pumpHeld (u cyc : Nat) (s : State) : State :=
  match s.cmd? u with
  | none => s
  | some c => c.cores.foldl (fun s g =>
      if (s.core g).wideHolder == 2 then
        let (f, s) := takeFree s
        s.perfAdd g 2 (f % (cyc + 1))
      else s) s

/-- The cores of a pump-only command are free, and its cycles are charged. -/
def leavePump (u cyc : Nat) (s : State) : State := freeCores u (chargeRun u cyc (pumpHeld u cyc s))

/-- Releases the pages, entries and victim marks that a command has secured (R129, Table 6.5). -/
def releaseSecured (u : Nat) (s : State) : State :=
  match s.cmd? u with
  | none => s
  | some c =>
    givePages c.ctx (c.secured.filterMap (fun x => x.page)) (s.modCmd u (fun c => { c with secured := [] }))

/-- Releases the chunk staging of a run that did not commit (R284). -/
def releaseStaging (u : Nat) (s : State) : State :=
  { s with streams := tmap s.streams (fun _ x =>
      { x with chunks := x.chunks.filter (fun k => !(k.uid == u && !k.committed)) }) }

/-- What a run leaves when it ends without committing (R44, R126). -/
def discardRun (u : Nat) (s : State) : State :=
  releaseStaging u (releaseSecured u (freeCores u s))

/-- Replaces each byte of a range or keeps it, by the bits of a free value (R312, R396; assumption 2). -/
def mixBytes (f : Nat) (old new : List Byte) : List Byte :=
  ((List.range old.length).zip (old.zip new)).map (fun p => if bitOf f p.1 then p.2.2 else p.2.1)

/-- Raw bytes of a range: no error is met. -/
def rawAt (s : State) (ad : Addr) (n : Nat) : List Byte :=
  match ad with
  | .host a => hostRead s a n
  | .well a => wellRead s a n
  | .cis a => mread s.cis a n

/-- Poisoned words of a range that keep a byte of their earlier value: those of `unit` bytes whose bits in f are not all
set. -/
def keptPoison (unit a n f : Nat) (poison : List Nat) : List Nat :=
  (unitsOf unit a n).filter (fun w => poison.contains w &&
    (List.range unit).any (fun k => w * unit + k < a || a + n ≤ w * unit + k || !bitOf f (w * unit + k - a)))

/-- An in-place transfer that stops: each byte of its destination holds its earlier value or the new one, and a poisoned
word stays poisoned unless it has been written whole (R312). -/
def partialWrite (ad : Addr) (new : List Byte) (s : State) : State :=
  let (f, s) := takeFree s
  let mixed := mixBytes f (rawAt s ad new.length) new
  match ad with
  | .host a => hostWrite a mixed s
  | .well a =>
    let kept := keptPoison 64 a new.length f s.wellPoison
    let s := wellWrite a mixed s
    { s with wellPoison := withAll s.wellPoison kept }
  | .cis a =>
    if csAllowed s a new.length then
      let kept := keptPoison 32 a new.length f s.cisPoison
      let s := cisWrite a mixed s
      { s with cisPoison := withAll s.cisPoison kept }
    else s

/-- The pattern of FILL, repeated from DST (Table 14.3). -/
def fillBytes (pattern : List Byte) (n : Nat) : List Byte :=
  ((List.replicate (cdiv n 8) pattern).flatten).take n

/-- Byte ranges that SCRUB zeroes: regions and slot images with REGIONS, free pages with POOL (R396). -/
def scrubTargets (s : State) (c : Cmd) : List (Addr × Nat) :=
  let w := c.p 0 1
  match s.ctx? c.ctx with
  | none => []
  | some x =>
    (if bitOf w 0 then
      (coresOfCtx s c.ctx).filterMap (fun g => (slotOf s c.ctx g).map (fun k =>
        let r := (s.core g).regions.getD k {}
        (Addr.cis (csAddr g (r.base * 8192)), r.size * 8192))) ++
      x.swapped.map (fun i => (Addr.well (x.sumpBase + i.index * x.imageBytes), x.imageBytes))
     else []) ++
    (if bitOf w 1 then x.pool.map (fun p => (Addr.well (p * 65536), 65536)) else [])

/-- Keeps or zeroes each of the n bytes of a value, by the bits of f from position i * n. -/
def mixZero (f i n v : Nat) : Nat :=
  leNat (mixBytes (f / 2 ^ (i * n)) (leBytes n v) (List.replicate n 0))

/-- Accumulator share and floats of a slot when SCRUB stops part way. -/
def stopScrubSlot (g k : Nat) (s : State) : State :=
  let r := (s.core g).regions.getD k {}
  let lo := accKey g (r.accBase * 64) 0
  let hi := accKey g ((r.accBase + r.accSize) * 64) 0
  let (f, s) := takeFree s
  let (h, s) := takeFree s
  { s with acc := s.acc.map (fun e =>
             if lo ≤ e.1 && e.1 < hi then (e.1, BitVec.ofNat 48 (mixZero f (e.1 - lo) 6 e.2.toNat)) else e)
           floats := s.floats.map (fun e =>
             if e.1 / 16 == 4 * g + k then (e.1, BitVec.ofNat 32 (mixZero h (e.1 % 16) 4 e.2.toNat)) else e) }

/-- A SCRUB that stops part way: each byte of its targets holds its earlier value or zero (R396). -/
def stopScrub (c : Cmd) (s : State) : State :=
  let s := (scrubTargets s c).foldl (fun s t => partialWrite t.1 (List.replicate t.2 0) s) s
  if bitOf (c.p 0 1) 0 then
    let s := (coresOfCtx s c.ctx).foldl (fun s g => match slotOf s c.ctx g with
      | some k => stopScrubSlot g k s
      | none => s) s
    let (f, s) := takeFree s
    s.modCtx c.ctx (fun x => { x with key := mixBytes f x.key (List.replicate 32 0) })
  else s

/-- Slots of a context, resident and swapped out. -/
def slotCount (s : State) (cid : Nat) (x : Ctx) : Nat := (coresOfCtx s cid).length + x.swapped.length

/-- Bytes of a saved image (R288, Table 12.4). -/
def savedBytes (s : State) (cid : Nat) (x : Ctx) : Nat :=
  let loops := (s.loops.filter (fun e => e.2.ctx == cid && !e.2.dead)).map Prod.snd
  let seqs := (s.seqs.filter (fun e => e.2.ctx == cid)).map Prod.snd
  256 + slotCount s cid x * x.imageBytes + 64 + loops.foldl (fun n l => n + 64 + 512 * l.split + 64) 0 +
  64 * (s.streams.filter (fun e => e.2.ctx == cid && e.2.state != 0)).length +
  288 * (s.bindings.filter (fun e => e.2.ctx == cid)).length +
  seqs.foldl (fun n q => n + 48 + 8 * q.mapSpan) 0

/-- A COPY, FILL, SCRUB or CTX_SAVE that stops part way (R312); the MAGIC of a saved image is then not written
(R294). -/
def stopTransfer (c : Cmd) (s : State) : State :=
  if !c.inPlace then s
  else if c.opcode == opCopy then
    match typedAddr (c.p 0 8), typedAddr (c.p 8 8) with
    | some src, some dst =>
      match readAt src (c.p 16 6) s with
      | (.bytes bs, s) => partialWrite dst bs s
      | (_, s) => s
    | _, _ => s
  else if c.opcode == opFill then
    match typedAddr (c.p 0 8) with
    | some dst => partialWrite dst (fillBytes (leBytes 8 (c.p 16 8)) (c.p 8 6)) s
    | none => s
  else if c.opcode == opScrub then stopScrub c s
  else if c.opcode == opCtxSave then
    match typedAddr (c.p 0 8 + 4), s.ctx? c.ctx with
    | some dst, some x =>
      let (f, s) := takeFree s
      partialWrite dst (leBytes (min (savedBytes s c.ctx x) (c.p 8 8) - 4) f) s
    | _, _ => s
  else s

/-- Every transfer stops part way (R312, R386, R390). -/
def stopTransfers (s : State) : State := s.inflight.foldl (fun s c => stopTransfer c s) s

/-- Ends the run of a command that will retire without committing: its cores, charges and reservations go back, and
the cycles it ran are charged. -/
def stopRun (u : Nat) (s : State) : State :=
  match s.cmd? u with
  | none => s
  | some c =>
    let s := stopTransfer c s
    let s := if c.phase == .running then
        let (n, s) := freeCycles s
        chargeRun u n s
      else if c.phase == .held then chargeRun u c.heldCyc s
      else s
    let s := reportAbort u s
    discardRun u s

/-- Kills a run and queues the command again at its fetch position; `cyc` are the core-cycles it ran (R44, R98). -/
def requeue (u cyc : Nat) (s : State) : State :=
  let s := reportAbort u s
  let s := discardRun u (chargeRun u cyc s)
  let s := s.modLat (fun l => { l with groups := tmap l.groups (fun _ g =>
    if g.cmd == u then { g with readySent := false, started := false } else g) })
  s.modCmd u (fun c => { c with
    phase := .ready, rerunDue := true, sat := 0, attn := [], pos := [], cores := [], emptyAttn := false, blocks := []
    cleared := [], stopping := false, timeouts := 0, parityFails := 0, waitsOn := none })

-- ## Sequences

/-- Closes a sequence: its pages return to the pool, its span empties, its id is free (R132). -/
def closeSeq (q : Nat) (s : State) : State :=
  match tget? s.seqs q with
  | none => s
  | some x =>
    let mine := s.map.filter (fun e => e.2.seq == q)
    givePages x.ctx (mine.map (fun e => e.2.page))
      { s with map := s.map.filter (fun e => e.2.seq != q), seqs := tdel s.seqs q }

-- ## Loops that end

/-- Retires the stream commands that wait for an event that will not come. -/
def retireWaiters (st : Stream) (status detail : Nat) (s : State) : State :=
  let s := match st.openCmd with | some u => retireOnly u status detail s | none => s
  let s := match st.closeCmd with | some u => retireOnly u status detail s | none => s
  match st.markCmd with
  | some u => if status == stContextFault then retireOnly u status detail s else retireOnly u stKilled byMarkGone s
  | none => s

/-- A RNG_KEY that waited for a loop waits for it no more, and completes when it waits for none (R204). -/
def releaseKeyWait (l : Nat) (s : State) : State :=
  let done := (s.inflight.filter (fun c => c.opcode == opRngKey && c.waitLoops == [l])).map (fun c => c.uid)
  let s := { s with inflight := s.inflight.map (fun c => { c with waitLoops := c.waitLoops.filter (· != l) }) }
  done.foldl (fun s u => retireOnly u stOk 0 s) s

/-- Emits the FINAL concealment block of a stream whose loop ended under it (Table 10.2). One whose FINAL block is out
already is freed with its last record. -/
def finalConceal (i : Nat) (s : State) : State :=
  match tget? s.streams i with
  | none => s
  | some st =>
    if st.finished && !st.lastOut then s
    else if s.dieIn (dieOfCluster st.spout) && mayEmit s st then emitConceal i { final := true, now := true } s
    else freeStream i s

/-- The last blocks of a dead loop's streams, and the loop record is free. -/
def buryLoop (l : Nat) (s : State) : State :=
  match tget? s.loops l with
  | none => s
  | some x =>
    let s := (x.lanes.map Prod.snd).foldl (fun s i => finalConceal i s) s
    { s with loops := tdel s.loops l }

/-- A stream's loop ends under it: what waits for the stream retires, and a FINAL block is owed (Table 10.2). -/
def endUnder (i status detail : Nat) (s : State) : State :=
  match tget? s.streams i with
  | none => s
  | some st =>
    let s := retireWaiters st (if status == stContextFault || status == stDieLost then status else stKilled) detail s
    s.modStream i (fun st => { st with ended := true, finalOwed := true, staged := [], openCmd := none
                                       markCmd := none, closeCmd := none, markPending := false })

/-- What waits for a loop that ends: its CLOSE_LOOP, captures of it, and RNG_KEY commands. -/
def endWaits (l detail : Nat) (s : State) : State :=
  let s := match (tget? s.loops l).bind (fun x => x.closeCmd) with
    | some u => retireOnly u stKilled detail s
    | none => s
  let s := { s with inflight := s.inflight.map (fun c => { c with snaps := c.snaps.filter (fun p => p.l != l) }) }
  releaseKeyWait l s

/-- A STREAM_LOOP that waits for its slots is given up. Streams that were opened on it end at once, since no block is in
progress (Table 10.2). A saved loop stays stopped with its saved streams (R291); another leaves no trace. -/
def dropWaitingLoop (l status detail : Nat) (s : State) : State :=
  match tget? s.loops l with
  | none => s
  | some x =>
    let s := endWaits l detail (dropCharges (isLoopCharge l) s)
    let ids := (x.lanes.map Prod.snd).filter (fun i => !x.restored || (match tget? s.streams i with
      | some st => st.openCmd.isSome
      | none => false))
    let s := ids.foldl (fun s i => finalConceal i (endUnder i status detail s)) s
    let s := if x.restored then
        s.modLoop l (fun x => { x with admitted := false, cmd := 0, closing := false, closeCmd := none, saves := [] })
      else { s with loops := tdel s.loops l }
    relaxCluster (clusterOfCore x.firstCore) s

/-- A loop ends for another reason than STREAM_CLOSE: its block is discarded, its charges and waiters go, and its
streams' FINAL concealment blocks are owed at the due tick of the block in progress; at once where that tick has
passed or there is none (Table 10.2, R107). The standing command retires. -/
def endLoop (l status detail : Nat) (s : State) : State :=
  match tget? s.loops l with
  | none => s
  | some x =>
    if x.stopped then retireOnly x.cmd status detail (dropWaitingLoop l status detail s)
    else
    let s := if x.running then
        let (n, s) := freeCycles s
        chargeRun x.cmd n s
      else s
    let s := { s with loops := tset s.loops l { x with dead := true, running := false, admitted := false, saves := [] } }
    let s := vacate x.cmd s
    let s := relaxCluster (clusterOfCore x.firstCore) (dropCharges (isLoopCharge l) s)
    let s := (x.lanes.map Prod.snd).foldl (fun s i => endUnder i status detail s) s
    let s := retireOnly x.cmd status detail (endWaits l detail s)
    if x.freeRun || x.blockIndex < x.nextDue then buryLoop l s else s

-- ## Kill and teardown

/-- Status and DETAIL of a command that stops: a mark that waits for its landing ends with ST_KILLED where its loop or
stream is lost with a die (Table 5.7). -/
def stopStatus (c : Cmd) (status detail : Nat) : Nat × Nat :=
  if c.opcode == opStreamMark && c.phase == .accepted && status == stDieLost then (stKilled, byMarkGone) else (status, detail)

/-- A command stops, or never starts, and retires with a status (R44, R257, R418). What a stream command did at
acceptance stands; a standing loop ends. -/
def killAs (u status detail : Nat) (s : State) : State :=
  match s.cmd? u with
  | none => s
  | some c =>
    if c.opcode == opStreamLoop && c.phase != .fetched then
      match c.object with
      | some l => endLoop l status detail s
      | none => retireOnly u status detail s
    else
      let s := stopRun u s
      let s := { s with streams := tmap s.streams (fun _ x => { x with
        openCmd := if x.openCmd == some u then none else x.openCmd
        markCmd := if x.markCmd == some u then none else x.markCmd
        closeCmd := if x.closeCmd == some u then none else x.closeCmd }) }
      let s := { s with loops := tmap s.loops (fun _ x => { x with
        closeCmd := if x.closeCmd == some u then none else x.closeCmd
        saves := x.saves.filter (· != u) }) }
      let s := { s with queues := tmap s.queues (fun _ q =>
        if q.closing == some u then { q with closing := none } else q) }
      let r := stopStatus c status detail
      retireOnly u r.1 r.2 s

/-- Releases the slots of a context, resident and swapped out, and the images it made resident (R286). -/
def releaseSlots (c : Nat) (scrub : Bool) (s : State) : State :=
  let s := (coresOfCtx s c).foldl (fun s g => match slotOf s c g with
    | some k => freeRegion g k (if scrub then scrubSlot c g k s else s)
    | none => s) s
  let s := match s.ctx? c with
    | none => s
    | some x =>
      let s := if scrub then x.swapped.foldl (fun (s : State) (i : SwapImage) =>
          zeroKey c (wellWrite (x.sumpBase % 2 ^ 39 + i.index * x.imageBytes) (List.replicate x.imageBytes 0) s)) s
        else s
      s.modCtx c (fun x => { x with swapped := [] })
  s.images.foldl (fun (s : State) (e : Nat × Image) =>
    (e.2.owners.filter (fun o => o.2 == c)).foldl (fun s o => freeImageOn e.1 o.1 s) s) s

/-- Teardown of a context (R286). `status` and `detail` are what its other commands retire with. -/
def teardown (c status detail : Nat) (s : State) : State :=
  match s.ctx? c with
  | none => s
  | some x =>
    if x.faulted then s
    else
      let st := if status == stDieLost then stDieLost else stContextFault
      let det := if status == stDieLost then detail else 0
      let s := s.modCtx c (fun x => { x with faulted := true })
      let s := s.modSched (fun k => { k with faultedContexts := ctrAdd k.faultedContexts 1 })
      let us := (s.inflight.filter (fun d => !isDevice d.opcode && d.ctx == c && d.opcode != opCtxDestroy &&
        d.opcode != opStatsSnapshot)).map (fun d => d.uid)
      let s := (s.bindings.filter (fun e => e.2.ctx == c)).foldl (fun s e => shedHeld (fun _ => true) e.1 s) s
      let s := us.foldl (fun s u => killAs u st det s) s
      let others := (s.streams.filter (fun e => e.2.ctx == c && e.2.state != 0 && !e.2.finalOwed)).map Prod.fst
      let s := others.foldl (fun s i => finalConceal i s) s
      let s := (s.bindings.filter (fun e => e.2.ctx == c)).foldl (fun s e =>
        if e.2.stream.isNone then { s with bindings := tdel s.bindings e.1 }
        else s.modBinding e.1 (fun b => { b with dying := true, hold := false })) s
      let s := (s.seqs.filter (fun e => e.2.ctx == c)).foldl (fun s e => closeSeq e.1 s) s
      releaseSlots c x.scrubOnKill s

/-- Retires a command; a status marked "Context torn down" tears its context down (Table 11.8, R286). A device-scope
command has none. -/
def retire (u status detail : Nat) (s : State) : State :=
  match s.cmd? u with
  | none => s
  | some c =>
    let s := retireOnly u status detail s
    if isFault status && !isDevice c.opcode then teardown c.ctx status detail s else s

/-- A command without a plan completes (R250: 0 cycles for what Pyorn alone carries out). -/
def completeOk (u : Nat) (s : State) : State := retire u stOk 0 s

/-- Completes with ST_BAD_PARAM and one of the fields at fault (Table 11.8). -/
def refuse (u : Nat) (ds : List Nat) (s : State) : State :=
  let (d, s) := pickDetail ds s
  retire u stBadParam d s

/-- A running plan faults: its run ends and it retires with the status (R27, R32, R85). -/
def faultPlan (u status detail : Nat) (s : State) : State :=
  match s.cmd? u with
  | none => s
  | some c =>
    if c.opcode == opStreamLoop then
      match c.object with
      | some l =>
        let s := endLoop l status detail s
        if isFault status then teardown c.ctx status detail s else s
      | none => retire u status detail (stopRun u s)
    else retire u status detail (stopRun u s)

/-- The plan that occupies a core, if one does. -/
def runningOn (s : State) (g : Nat) : Option Cmd :=
  match (s.core g).running with
  | some u => s.cmd? u
  | none => none

/-- A pump-only command is under way and no plan or block holds its cores (R21, R276). -/
def atPump (s : State) (c : Cmd) : Bool :=
  c.inPlace && c.cores.all (fun g => (s.core g).running == some c.uid || (s.core g).running.isNone)

/-- Outcome of a guarded event: nothing changes where its guard fails (assumption 1). -/
def onlyIf (b : Bool) (s t : State) : State := if b then t else s

end Sys2Proof.Machine
end

