-- ==== Sys2Proof/Machine/Order.lean ====
section
/-!
DEFINITION. The common shape of the commands that a packet carries (R251), and the checks on the addresses, ranges and
transfers that they name (R244, R298, R306, R308).
-/

namespace Sys2Proof.Machine

/-- The shape of a packet's command: it is fetched, carries the opcode, the part serves and the ordering rules let it
start; else nothing changes (assumption 1). -/
def onStart (u op : Nat) (s : State) (body : Cmd → State → State) : State :=
  match s.cmd? u with
  | none => s
  | some c =>
    if s.serving && c.phase == .fetched && c.opcode == op && canStart s c then body c (startCmd u s) else s

/-- Refuses with ST_BAD_PARAM where a check fails, else goes on. -/
def checked (u : Nat) (cs : List Check) (s : State) (go : State → State) : State :=
  match failing cs with
  | [] => go s
  | ds => refuse u ds s

/-- Reads an object that a command names, at its start: poison ends it with ST_POISON (R243), a read discarded under R27
with ST_CONTEXT_FAULT (R419). -/
def withObject (u : Nat) (ad : Addr) (n : Nat) (s : State) (go : Block → State → State) : State :=
  match readAt ad n s with
  | (.bytes b, s) => go b s
  | (.poison, s) => retire u stPoison wellPoisonDetail s
  | (.discarded, s) => retire u stContextFault 0 s

/-- A typed address that exists for n bytes (R244, R297, R298, R420). -/
def typedOk (s : State) (v n : Nat) : Bool :=
  match typedAddr v with
  | some ad => addrOk s ad n
  | none => false

/-- A W field that exists for n bytes. -/
def wellOk (s : State) (v n : Nat) : Bool :=
  match wellAddr v with
  | some a => addrOk s (.well a) n
  | none => false

/-- An H field that exists for n bytes. -/
def hostOk (v n : Nat) : Bool := v + n ≤ 2 ^ 52

-- ## Descriptors of COPY and FILL, which are checked at fetch and again where they start (R308)

/-- Ranges of addresses [a, a + n) and [b, b + m) meet. -/
def meets (a n b m : Nat) : Bool := a < b + m && b < a + n && 0 < n && 0 < m

/-- Whether a write would touch the page-map region of some well (R119, R308). -/
def hitsMap (ad : Addr) (n : Nat) : Bool :=
  match ad with
  | .well a => (List.range 8).any (fun d => meets a n (d * 2 ^ 35 + 0x7FFC00000) 0x400000)
  | _ => false

/-- Whether two ranges of one space meet. -/
def addrMeets (x : Addr) (n : Nat) (y : Addr) (m : Nat) : Bool :=
  match x, y with
  | .host a, .host b => meets a n b m
  | .well a, .well b => meets a n b m
  | .cis a, .cis b => meets a n b m
  | _, _ => false

/-- A float name without reserved bits (Table 7.5). -/
def floatOk (f : Nat) : Bool := f < 2 ^ 14

/-- A float that a transfer increments: its core's die is in service (R420). -/
def floatTarget (s : State) (f inc : Nat) : Bool := floatOk f && (inc == 0 || s.dieIn (dieOfCore (floatCore f)))

/-- Checks of COPY and FILL (Table 11.5, R297, R308, R420). -/
def transferChecks (s : State) (c : Cmd) : List Check :=
  if c.opcode == opCopy then
    let n := c.p 16 6
    [ (typedOk s (c.p 0 8) n, inParams c 0)
    , (typedOk s (c.p 8 8) n, inParams c 8)
    , (match typedAddr (c.p 8 8) with | some d => !hitsMap d n | none => true, inParams c 8)
    , (match typedAddr (c.p 0 8), typedAddr (c.p 8 8) with | some a, some d => !addrMeets a n d n | _, _ => true, inParams c 8)
    , (1 ≤ n && n ≤ 2 ^ 40, inParams c 16)
    , (floatTarget s (c.p 24 2) (c.p 26 2), inParams c 24) ]
  else
    let n := c.p 8 6
    [ (typedOk s (c.p 0 8) n, inParams c 0)
    , (match typedAddr (c.p 0 8) with | some d => !hitsMap d n | none => true, inParams c 0)
    , (1 ≤ n && n ≤ 2 ^ 40, inParams c 8)
    , (floatTarget s (c.p 24 2) (c.p 26 2), inParams c 24) ]

end Sys2Proof.Machine
end

