-- ==== Sys2Proof/Machine/Queues.lean ====
section
/-!
DEFINITION. Queues (R237 to R243, R423), KILL and FENCE (R253, R257), valves (R247), and the fetch of packets.
-/

namespace Sys2Proof.Machine

-- ## QUEUE_OPEN, QUEUE_CLOSE

def queueOpenChecks (s : State) (c : Cmd) : List Check :=
  [ (1 ≤ c.p 0 2 && c.p 0 2 ≤ 1023 && (s.queue? (c.p 0 2)).isNone, inParams c 0)
  , (4 ≤ c.p 2 1 && c.p 2 1 ≤ 16, inParams c 2)
  , (4 ≤ c.p 3 1 && c.p 3 1 ≤ 16, inParams c 3)
  , (1 ≤ c.p 4 2 && c.p 4 2 ≤ 4096, inParams c 4)
  , (c.p 8 8 % 4096 == 0 && hostOk (c.p 8 8) (64 * 2 ^ c.p 2 1), inParams c 8)
  , (c.p 16 8 % 4096 == 0 && hostOk (c.p 16 8) (32 * 2 ^ c.p 3 1), inParams c 16)
  , (c.p 24 8 % 256 == 0 && hostOk (c.p 24 8) 256, inParams c 24) ]

/-- QUEUE_OPEN (R245, Table 11.4). -/
def execQueueOpen (u : Nat) (s : State) : Host.Outcome State Fault Refusal :=
  .next (onStart u opQueueOpen s (fun c s =>
    checked u (queueOpenChecks s c) s (fun s =>
      let q : Queue := { opened := true, sqLog := c.p 2 1, cqLog := c.p 3 1, maxInflight := c.p 4 2, notify := c.p 6 2
                         sqBase := c.p 8 8, cqBase := c.p 16 8, lineBase := c.p 24 8 }
      completeOk u { s with queues := tset s.queues (c.p 0 2) q })))

/-- QUEUE_CLOSE: the queue is closing from its start (R423). -/
def execQueueClose (u : Nat) (s : State) : Host.Outcome State Fault Refusal :=
  .next (onStart u opQueueClose s (fun c s =>
    let q := c.p 0 2
    let ok := q != 0 && (match s.queue? q with | some x => x.opened && x.closing.isNone | none => false) &&
      s.inflight.all (fun d => !(d.queue == q && d.opcode == opStreamLoop))
    checked u [(ok, inParams c 0)] s (fun s =>
      (s.modQueue q (fun x => { x with closing := some u })).modCmd u (fun c =>
        { c with phase := .accepted, object := some q }))))

/-- The last fetched command of a closing queue has retired: QUEUE_CLOSE completes and the queue is closed (R423). -/
def execQueueClosed (u : Nat) (s : State) : Host.Outcome State Fault Refusal :=
  .next (match s.cmd? u with
    | none => s
    | some c =>
      match c.object with
      | some q =>
        if s.serving && c.opcode == opQueueClose && c.phase == .accepted &&
          s.inflight.all (fun d => d.queue != q || d.uid == u) &&
          (match s.queue? q with | some x => x.waits.isEmpty | none => true) then
          let s := retire u stOk c.tally s
          { s with queues := tdel s.queues q }
        else s
      | none => s)

-- ## KILL, FENCE

/-- What KILL acts on (R257): commands fetched before it, by SCOPE. -/
def killTargets (s : State) (c : Cmd) : List Cmd :=
  s.inflight.filter (fun d => d.uid < c.uid &&
    (if c.p 0 1 == 0 then d.queue == c.p 2 2 && d.seq == c.p 4 4
     else if c.p 0 1 == 1 then d.queue == c.p 2 2
     else !isDevice d.opcode && d.ctx == c.p 8 2))

/-- Kills a set of commands with a reason, standing loops after all others. -/
def killAll (ts : List Cmd) (reason : Nat) (s : State) : State :=
  let loops := ts.filter countsRetired
  let rest := ts.filter (fun d => !countsRetired d)
  (rest ++ loops).foldl (fun s d => killAs d.uid stKilled reason s) s

/-- KILL (R257). DETAIL is the number of commands killed. -/
def execKill (u : Nat) (s : State) : Host.Outcome State Fault Refusal :=
  .next (onStart u opKill s (fun c s =>
    checked u [(c.p 0 1 ≤ 2, inParams c 0), (c.p 0 1 == 2 || c.p 2 2 ≤ 1023, inParams c 2)] s (fun s =>
      let ts := killTargets s c
      retire u stOk ts.length (killAll ts byKill s))))

/-- FENCE commits as soon as it starts (R253). -/
def execFence (u : Nat) (s : State) : Host.Outcome State Fault Refusal :=
  .next (onStart u opFence s (fun _ s => completeOk u s))

-- ## Valves (R247)

def valveAdd (v n : Nat) (s : State) : State := { s with valves := tupd s.valves v 0 (· + BitVec.ofNat 32 n) }

def execValveSet (u : Nat) (s : State) : Host.Outcome State Fault Refusal :=
  .next (onStart u opValveSet s (fun c s =>
    completeOk u { s with valves := tset s.valves (c.p 0 2 % 2 ^ 14) (BitVec.ofNat 32 (c.p 4 4)) }))

/-- VALVE_SIGNAL, here or as a VALVE message (R153). -/
def execValveSignal (u : Nat) (s : State) : Host.Outcome State Fault Refusal :=
  .next (onStart u opValveSignal s (fun c s =>
    let d := c.p 2 2
    let v := c.p 0 2 % 2 ^ 14
    checked u [(d == 0xFFFF || d < 2 ^ 14, inParams c 2)] s (fun s =>
      let s := if d == 0xFFFF || (s.dev.numValid && d == selfDev s) then valveAdd v (c.p 4 4) s
        else sendMsg { type := 1, vc := vcSync, dest := d, data := leBytes 4 v ++ leBytes 4 (c.p 4 4) } s
      completeOk u s)))

/-- VALVE_WAIT waits without a core. -/
def execValveWait (u : Nat) (s : State) : Host.Outcome State Fault Refusal :=
  .next (onStart u opValveWait s (fun _ s => s.modCmd u (fun c => { c with phase := .accepted })))

def valveReached (s : State) (c : Cmd) : Bool :=
  reached (tget s.valves (c.p 0 2 % 2 ^ 14) 0) (BitVec.ofNat 32 (c.p 4 4))

/-- The valve has reached TARGET. -/
def execValveWaitPass (u : Nat) (s : State) : Host.Outcome State Fault Refusal :=
  .next (match s.cmd? u with
    | none => s
    | some c =>
      if s.serving && c.opcode == opValveWait && c.phase == .accepted && valveReached s c then completeOk u s else s)

/-- TIMEOUT_US has passed first. -/
def execValveWaitTimeout (u : Nat) (s : State) : Host.Outcome State Fault Refusal :=
  .next (match s.cmd? u with
    | none => s
    | some c =>
      if s.serving && c.opcode == opValveWait && c.phase == .accepted && c.p 8 4 != 0 && !valveReached s c
      then retire u stKilled byValveTimeout s else s)

-- ## Queue lines (R238 to R240)

/-- A queue enters ERROR (R240). -/
def queueError (q : Nat) (s : State) : State :=
  match s.queue? q with
  | some x => if x.error then s else raise evQueue (s.modQueue q (fun x => { x with error := true }))
  | none => s

/-- An enabled queue: queue 0 follows AQ_CTL.ENABLE (R262). -/
def queueEnabled (s : State) (q : Nat) : Bool := q != 0 || s.cmdw.aqEnable

/-- Reads the count of a queue's host-written line; a count that makes the ring invalid is not taken. Records that waited
for room follow a new CQ_CONS (R239, R240). -/
def readQueueLine (q : Nat) (line : QLine) (s : State) : State :=
  match s.queue? q with
  | none => s
  | some x =>
    if !x.opened || !queueEnabled s q then s
    else
      match line with
      | .sqTail =>
        let tail : W64 := BitVec.ofNat 64 (mnat s.host x.lineBase 8)
        if (tail - x.head).toNat ≤ 2 ^ x.sqLog then s.modQueue q (fun x => { x with tail := tail }) else queueError q s
      | .cqHead =>
        let cons : W64 := BitVec.ofNat 64 (mnat s.host (x.lineBase + 0xC0) 8)
        let left := (x.cqProd - cons).toNat
        if left ≤ 2 ^ x.cqLog then
          drainRing x.waits.length q
            (s.modQueue q (fun x => { x with cqCons := cons, ringCtxs := x.ringCtxs.drop (x.ringCtxs.length - left) }))
        else queueError q s

def lineAddr (x : Queue) : QLine → Nat
  | .sqTail => x.lineBase
  | .cqHead => x.lineBase + 0xC0

/-- The host writes its stores and then a count; the line is reacquired and read (R239). -/
def execHeldLineSnoop (stores : List HostStore) (q : Nat) (line : QLine) (count : W64) (s : State) :
    Host.Outcome State Fault Refusal :=
  .next (
    let s := hostStores stores s
    match s.queue? q with
    | none => s
    | some x =>
      let s := hostWrite (lineAddr x line) (leBytes 8 count.toNat) s
      if s.serving then readQueueLine q line s else s)

-- ## Fetching (R241, R243)

/-- In-flight commands of a queue. -/
def inflightOf (s : State) (q : Nat) : Nat := (s.inflight.filter (fun c => c.queue == q)).length

/-- Whether a queue can fetch its next packet (R241). -/
def canFetch (s : State) (q : Nat) : Bool :=
  match s.queue? q with
  | none => false
  | some x =>
    x.opened && queueEnabled s q && !x.error && x.closing.isNone && x.head != x.tail && inflightOf s q < x.maxInflight &&
    s.inflight.length < 4096 && inflightOf s q + 1 + (x.cqProd - x.cqCons).toNat < 2 ^ x.cqLog

/-- The queue that round robin visits next. -/
def nextQueue (s : State) : Option Nat :=
  let qs := (s.queues.map Prod.fst).filter (canFetch s)
  match qs.find? (fun q => s.cmdw.lastVisit < q) with
  | some q => some q
  | none => qs.head?

/-- CTX_ID against the opcode's scope (R243, R257). -/
def ctxCheck (s : State) (c : Cmd) : Bool :=
  if isDevice c.opcode then c.ctx == 0
  else if c.opcode == opCtxCreate || c.opcode == opCtxRestore then (s.ctx? c.ctx).isNone
  else (s.ctx? c.ctx).isSome &&
    s.inflight.all (fun d => !(d.opcode == opCtxDestroy && d.ctx == c.ctx && d.uid < c.uid))

/-- Whether a command of a faulted context may not start (R287). -/
def inFaulted (s : State) (c : Cmd) : Bool :=
  !isDevice c.opcode && c.opcode != opCtxDestroy && c.opcode != opStatsSnapshot &&
  (match s.ctx? c.ctx with | some x => x.faulted | none => false)

/-- Checks on the parameters at fetch: their layout, and the descriptor that COPY and FILL stand for (R308, R426). -/
def fetchChecks (s : State) (c : Cmd) : List Check :=
  paramChecks c ++ (if c.opcode == opCopy || c.opcode == opFill then transferChecks s c else [])

/-- Checks a fetched packet; what fails completes at once, with no side effects (R243). -/
def admitPacket (b : Block) (c : Cmd) (s : State) : State :=
  let s := countFetch c { s with inflight := s.inflight ++ [c] }
  if !opcodes.contains c.opcode then retireOnly c.uid stBadOpcode 0 s
  else
    let cs : List Check := packetChecks b c ++ [(ctxCheck s c, inPacket 0x04)] ++
      (if c.pointer then pointerChecks s b else [])
    checked c.uid cs s (fun s =>
      if inFaulted s c then retireOnly c.uid stContextFault 0 s
      else if !c.pointer then checked c.uid (fetchChecks s c) s id
      else
        match typedAddr (field b 0x20 8) with
        | none => s
        | some ad => withObject c.uid ad (field b 0x28 4) s (fun blk s =>
            let c' := { c with params := blk }
            checked c.uid (fetchChecks s c') (s.putCmd c') id))

/-- Fetches one packet. -/
def fetchOne (q : Nat) (s : State) : State :=
  match s.queue? q with
  | none => s
  | some x =>
    let b := hostRead s (x.sqBase + x.head.toNat % 2 ^ x.sqLog * 64) 64
    let c := parsePacket b s.nextUid q s.hubCycle
    let s := { s.modQueue q (fun x => { x with head := x.head + 1 }) with nextUid := s.nextUid + 1 }
    admitPacket b c s

/-- Fetches up to n consecutive packets. -/
def fetchUpTo : Nat → Nat → State → State
  | 0, _, s => s
  | n + 1, q, s => if canFetch s q then fetchUpTo n q (fetchOne q s) else s

/-- Writes HEAD (R241). -/
def writeHead (q : Nat) (s : State) : State :=
  match s.queue? q with
  | none => s
  | some x => hostWrite (x.lineBase + 0x40) (countLine x.head) s

/-- A round-robin visit of up to 8 packets (R241). -/
def execPacketFetch (q : Nat) (s : State) : Host.Outcome State Fault Refusal :=
  .next (
    if s.serving && nextQueue s == some q then
      let s := { s with cmdw := { s.cmdw with lastVisit := q } }
      writeHead q (fetchUpTo 8 q s)
    else s)

/-- Opcode of the next packet of a queue. -/
def nextOpcode (s : State) (q : Nat) : Option Nat :=
  (s.queue? q).map (fun x => mnat s.host (x.sqBase + x.head.toNat % 2 ^ x.sqLog * 64) 1)

/-- A visit that fetches one packet, whose opcode is a vendor debug one: the check at fetch ends it with ST_BAD_OPCODE,
since DBG_OPCODES reads 0 (R243, R362). -/
def execVendorDebug (q : Nat) (s : State) : Host.Outcome State Fault Refusal :=
  .next (
    if s.serving && nextQueue s == some q && (match nextOpcode s q with | some op => isVendor op | none => false) then
      writeHead q (fetchUpTo 1 q { s with cmdw := { s.cmdw with lastVisit := q } })
    else s)

/-- Value that AQ_CFG's ring logs are treated as (Table 11.10). -/
def aqLog (v : Nat) : Nat := if 4 ≤ v && v ≤ 16 then v else 4

/-- Queue 0 as the AQ fields give it. -/
def adminQueue (w : CmdWin) : Queue :=
  let m := bitsOf w.aqCfg.toNat 28 16
  { opened := true, sqLog := aqLog (bitsOf w.aqCfg.toNat 7 0), cqLog := aqLog (bitsOf w.aqCfg.toNat 15 8)
    maxInflight := if m == 0 || 4096 < m then 4096 else m, notify := w.aqNotify.toNat
    sqBase := w.aqSqBase.toNat, cqBase := w.aqCqBase.toNat, lineBase := w.aqLineBase.toNat }

/-- A write of AQ_CTL.ENABLE (R262). Clearing it stops fetching; commands already fetched retire into the rings, which
keep their fields until the next enable. -/
def setAqEnable (on : Bool) (s : State) : State :=
  if s.cmdw.aqEnable == on then s
  else
    let s := { s with cmdw := { s.cmdw with aqEnable := on } }
    if on then { s with queues := tset s.queues 0 (adminQueue s.cmdw) } else s

def execAqEnable (on : Bool) (s : State) : Host.Outcome State Fault Refusal := .next (setAqEnable on s)

end Sys2Proof.Machine
end

