-- ==== Sys2Proof/Machine/Contexts.lean ====
section
/-!
DEFINITION. Contexts: creation and destruction (R263, R257), pinning (R280), SCRUB (R396), telemetry pages (R292).
-/

namespace Sys2Proof.Machine

-- ## The descriptor

/-- The sump rules of R263 for a context id. -/
def sumpOk (s : State) (id : Nat) (x : Ctx) : Bool :=
  x.sumpBase % 4096 == 0 && 0 < x.sumpBytes && x.sumpBase + x.sumpBytes ≤ 2 ^ 38 &&
  wellOf x.sumpBase == wellOf (x.sumpBase + x.sumpBytes - 1) && s.dieIn (wellOf x.sumpBase) &&
  !inMapRegion (x.sumpBase + x.sumpBytes - 1) &&
  s.ctxs.all (fun e => e.1 == id || !meets x.sumpBase x.sumpBytes e.2.sumpBase e.2.sumpBytes)

/-- Field checks of Table 12.1 and R263, with the byte offset at fault. -/
def descChecks (s : State) (id : Nat) (d : Block) : List Check :=
  let x := ctxOfDesc d
  [ (x.shareClass < 64, inObject 2)
  , (field d 3 1 < 32, inObject 3)
  , (1 ≤ x.cisGranules && x.cisGranules ≤ 1024, inObject 6)
  , (1 ≤ x.accUnits && x.accUnits ≤ 64, inObject 8)
  , (1 ≤ x.maxSlots, inObject 9)
  , (zeros d 10 2, inObject 10)
  , (x.chunkMax ≤ 2 ^ 24, inObject 12)
  , (zeros d 17 7, inObject 17)
  , (sumpOk s id x, inObject 24)
  , (x.maxSlots * x.imageBytes ≤ x.sumpBytes, inObject 32)
  , (zeros d 40 24, inObject 40) ]

/-- CTX_CREATE (R263). -/
def execCtxCreate (u : Nat) (s : State) : Host.Outcome State Fault Refusal :=
  .next (onStart u opCtxCreate s (fun c s =>
    checked u [(typedOk s (c.p 0 8) 64, inParams c 0), ((s.ctx? c.ctx).isNone, inPacket 4)] s (fun s =>
      match typedAddr (c.p 0 8) with
      | none => s
      | some ad => withObject u ad 64 s (fun d s =>
          checked u ((field d 0 2 == c.ctx, inObject 0) :: descChecks s c.ctx d) s (fun s =>
            completeOk u (countFetch c { s with ctxs := tset s.ctxs c.ctx (ctxOfDesc d) }))))))

/-- Stopped loops of a context are freed with it (R291). -/
def freeStopped (c : Nat) (s : State) : State :=
  { s with loops := s.loops.filter (fun e => !(e.2.ctx == c && e.2.stopped)) }

/-- Zeroes the pages of a KV pool (R396). -/
def zeroPool (ps : List Nat) (s : State) : State :=
  ps.foldl (fun s p => wellWrite (p * 65536) (List.replicate 65536 0) s) s

/-- CTX_DESTROY: kills every fetched command of the context, tears it down and frees its id, pool and sump (R257,
R287). -/
def execCtxDestroy (u : Nat) (s : State) : Host.Outcome State Fault Refusal :=
  .next (onStart u opCtxDestroy s (fun c s =>
    let ts := s.inflight.filter (fun d => !isDevice d.opcode && d.ctx == c.ctx && d.uid != u)
    let s := killAll ts byDestroy s
    let s := teardown c.ctx stKilled byDestroy s
    let s := match s.ctx? c.ctx with
      | some x => if x.scrubOnKill then zeroPool x.pool s else s
      | none => s
    let s := freeStopped c.ctx (completeOk u s)
    { s with ctxs := tdel s.ctxs c.ctx }))

/-- Pins or unpins every resident slot of a context, and every swapped-out slot for its return (R280). -/
def pinSlots (cid : Nat) (on : Bool) (s : State) : State :=
  let s := (coresOfCtx s cid).foldl (fun (s : State) (g : Nat) => match slotOf s cid g with
    | some k => s.modCore g (fun c => { c with regions := c.regions.modify k (fun r => { r with pinned := on }) })
    | none => s) s
  s.modCtx cid (fun x => { x with swapped := x.swapped.map (fun i => { i with pinned := on }) })

/-- CTX_PIN (R280). -/
def execCtxPin (u : Nat) (s : State) : Host.Outcome State Fault Refusal :=
  .next (onStart u opCtxPin s (fun c s =>
    checked u [(c.p 0 1 ≤ 1, inParams c 0)] s (fun s =>
      completeOk u (pinSlots c.ctx (c.p 0 1 == 1) s))))

-- ## SCRUB

/-- Zeroes everything that SCRUB names (R396). -/
def scrubAll (c : Cmd) (s : State) : State :=
  let s := (scrubTargets s c).foldl (fun s t => (writeAt t.1 (List.replicate t.2 0) s).2) s
  if bitOf (c.p 0 1) 0 then
    let s := zeroSlotsOn c.ctx (coresOfCtx s c.ctx) s
    match s.ctx? c.ctx with
    | some x => if x.swapped.isEmpty then s else zeroKey c.ctx s
    | none => s
  else s

/-- SCRUB, running on its cores, is done (R396). -/
def execScrub (u cyc : Nat) (s : State) : Host.Outcome State Fault Refusal :=
  .next (match s.cmd? u with
    | none => s
    | some c =>
      if s.serving && c.opcode == opScrub && atPump s c then
        completeOk u (leavePump u cyc (scrubAll c s))
      else s)

-- ## Telemetry (R292)

/-- Per-mille of a core that a loop takes (R273). -/
def rtLoadOf (x : Loop) : Nat := cdiv (x.costEst * x.rate * 1000) (x.split * x.blockLen * 2000000000)

/-- Admitted real-time loops on a core. -/
def rtLoopsOn (s : State) (g : Nat) : List Loop :=
  (s.loops.filter (fun e => rtLoop s e.2 && e.2.cores.contains g)).map Prod.snd

def rtLoad (s : State) (g : Nat) : Nat := (rtLoopsOn s g).foldl (fun n x => n + rtLoadOf x) 0

/-- Clock of a core's cluster after DVFS and stretching, in units of 0.1 GHz (R339, R343). -/
def coreClock (s : State) (g : Nat) : Nat :=
  let p := s.diePerf (dieOfCore g)
  if p.overCur || p.hot then pointClock p.point else 2 * pointClock p.point

/-- DEGRADED (R275). -/
def degraded (s : State) (g : Nat) : Bool := 1000 * coreClock s g < rtLoad s g * 20

/-- RT_LOADg: load, loops, DEGRADED (Table 12.7). -/
def rtLoadField (s : State) (g : Nat) : Nat :=
  rtLoad s g % 2 ^ 11 + (rtLoopsOn s g).length % 16 * 2 ^ 11 + b2n (degraded s g) * 2 ^ 15

/-- The context page of Table 12.5. -/
def contextPage (s : State) (id : Nat) (x : Ctx) : Block :=
  let k := x.stats
  let c (v : Ctr) := leBytes 8 v.toNat
  padTo 4096 (
    [0x53, 0x43, 0x54, 0x58] ++ leBytes 2 id ++ leBytes 2 x.clientTag ++ leBytes 1 x.shareClass ++
    ((descOfCtx id x).drop 3).take 1 ++ leBytes 1 (b2n x.faulted) ++ leBytes 1 0 ++
    leBytes 2 (coresOfCtx s id).length ++ leBytes 2 x.swapped.length ++ leBytes 8 s.hubCycle ++
    c k.fetched ++ c k.retiredOk ++ c k.retiredOther ++ c k.reruns ++ c k.preemptKills ++ c k.widened ++
    c k.engineCycles ++ c k.satTotal ++ leBytes 2 (k.avgSlowdown.getD 0) ++ leBytes 6 0 ++
    c k.swapOuts ++ c k.swapIns ++ c k.swapBytes ++ c k.pinStarve ++ c k.kvEvictions ++ c k.kvWaits ++ c k.emptyRows ++
    c k.lateBlocks ++ c k.concealBlocks ++ c k.withheldBlocks ++ c k.ringWriteFails ++ c k.backlogMaxUs ++
    leBytes 64 x.fault)

/-- The device page of Table 12.6. -/
def devicePage (s : State) : Block :=
  let k := s.sched
  let c (v : Ctr) := leBytes 8 v.toNat
  padTo 4096 (
    [0x53, 0x44, 0x45, 0x56] ++ leBytes 2 s.dev.number.toNat ++ leBytes 1 s.dev.dies.toNat ++ leBytes 1 0 ++
    leBytes 8 s.hubCycle ++ leBytes 2 s.inflight.length ++ leBytes 2 s.ctxs.length ++
    leBytes 2 (s.cores.foldl (fun n e => n + (slotsOn s e.1).length) 0) ++
    leBytes 2 (s.loops.filter (fun e => e.2.admitted)).length ++
    leBytes 4 (s.streams.filter (fun e => e.2.state != 0)).length ++ leBytes 4 0 ++
    c k.admissionRefusals ++ c k.deadlockRefusals ++ c k.pinStarve ++ c k.swapOuts ++ c k.preemptKills ++
    c k.withheldBlocks ++ c k.clientSatEvents ++ c k.faultedContexts ++ leBytes 32 0 ++
    (List.range 64).flatMap (fun i => leBytes 8 (tget k.ledger i 0).toNat) ++
    (List.range 64).flatMap (fun i => leBytes 8 (tget k.vt i 0).toNat) ++
    (List.range 256).flatMap (fun g => leBytes 2 (rtLoadField s g)))

/-- STATS_SNAPSHOT (R292). -/
def execStatsSnapshot (u : Nat) (s : State) : Host.Outcome State Fault Refusal :=
  .next (onStart u opStatsSnapshot s (fun c s =>
    checked u [(c.p 0 8 % 4096 == 0 && hostOk (c.p 0 8) 4096, inParams c 0), (c.p 8 1 ≤ 1, inParams c 8)] s (fun s =>
      let page := if c.p 8 1 == 1 then devicePage s
        else match s.ctx? c.ctx with | some x => contextPage s c.ctx x | none => []
      completeOk u (hostWrite (c.p 0 8) page s))))

end Sys2Proof.Machine
end

