-- ==== Sys2Proof/Machine/Transfers.lean ====
section
/-!
DEFINITION. Transfers without a plan: COPY and FILL (R306 to R312), the siphon (R314, R315), resident images (R46, R47,
RESIDE and UNRESIDE of Table 11.5).
-/

namespace Sys2Proof.Machine

-- ## Floats

/-- Whether the float a transaction names belongs to a slot that holds a context (R38). -/
def floatLive (s : State) (f inc : Nat) : Bool := inc == 0 || slotValid (s.core (floatCore f)) (floatPhys f / 16)

-- ## Poison on the way (R302)

/-- Bytes of poison granularity of a space: granules of 64, cistern words of 32. -/
def poisonUnit : Addr → Nat
  | .cis _ => 32
  | _ => 64

def poisonedUnit (s : State) (ad : Addr) (w : Nat) : Bool :=
  match ad with
  | .host _ => s.hostPoison.contains w
  | .well _ => s.wellPoison.contains w || withdrawnAt s (w * 64)
  | .cis _ => s.cisPoison.contains w

def Addr.at (ad : Addr) : Nat :=
  match ad with
  | .host a => a
  | .well a => a
  | .cis a => a

def Addr.plus (ad : Addr) (n : Nat) : Addr :=
  match ad with
  | .host a => .host (a + n)
  | .well a => .well (a + n)
  | .cis a => .cis (a + n)

/-- Poisoned parts of a source range: offsets into the transfer and lengths. -/
def poisonedParts (s : State) (ad : Addr) (n : Nat) : List (Nat × Nat) :=
  let u := poisonUnit ad
  ((unitsOf u ad.at n).filter (poisonedUnit s ad)).map (fun w =>
    let lo := max ad.at (w * u)
    let hi := min (ad.at + n) (w * u + u)
    (lo - ad.at, hi - lo))

/-- Destination parts that poison reaches: cistern words and well granules are poisoned, host bytes are undefined. An
access to a cistern word in no valid region is discarded (R27). -/
def spreadPoison (dst : Addr) (parts : List (Nat × Nat)) (s : State) : State :=
  parts.foldl (fun s p =>
    match dst with
    | .well a => wellPoisonRange (a + p.1) p.2 s
    | .cis a =>
      let ws := (unitsOf 32 (a + p.1) p.2).filter (fun w => csAllowed s (w * 32) 32)
      { s with cisPoison := withAll s.cisPoison ws }
    | .host a =>
      let (f, s) := takeFree s
      hostWrite (a + p.1) (leBytes p.2 f) s) s

/-- DETAIL of ST_POISON: the core, or all ones for a well or host read (Table 11.8). -/
def poisonDetail (ad : Addr) : Nat :=
  match ad with
  | .cis a => csCore a
  | _ => wellPoisonDetail

/-- A discarded transfer: each byte of a destination row that R27 lets through holds its earlier value or the new one
(R312, R419). -/
def partialRows (dst : Addr) (bs : List Byte) (s : State) : State :=
  match dst with
  | .cis a =>
    let first := 512 - a % 512
    let rows := (0, min first bs.length) :: (List.range (cdiv (bs.length - first) 512)).map (fun k =>
      (first + 512 * k, min 512 (bs.length - first - 512 * k)))
    rows.foldl (fun s r =>
      if csAllowed s (a + r.1) r.2 then partialWrite (.cis (a + r.1)) ((bs.drop r.1).take r.2) s
      else inboundBad (a + r.1) r.2 s) s
  | _ => partialWrite dst bs s

/-- Ends a pump-only command with a status. -/
def endPump (u cyc status detail : Nat) (s : State) : State := retire u status detail (leavePump u cyc s)

/-- Writes the bytes of a command's transfer and completes it (R311, R419). -/
def finishTransfer (u cyc : Nat) (own : Option Nat) (dst : Addr) (bs : List Byte) (f inc : Nat) (s : State) : State :=
  if !floatLive s f inc then endPump u cyc stContextFault 0 (floatInc f inc (partialRows dst bs s)).2
  else
    match writeTo own dst bs s with
    | (true, s) => endPump u cyc stOk 0 (floatInc f inc s).2
    | (false, s) => endPump u cyc stContextFault 0 (partialRows dst bs s)

/-- COPY, running on its pump, is done (R312). -/
def execCopy (u cyc : Nat) (s : State) : Host.Outcome State Fault Refusal :=
  .next (match s.cmd? u with
    | none => s
    | some c =>
      if s.serving && c.opcode == opCopy && atPump s c then
        let n := c.p 16 6
        match typedAddr (c.p 0 8), typedAddr (c.p 8 8) with
        | some src, some dst =>
          match readFrom c.cores.head? src n s with
          | (.bytes bs, s) => finishTransfer u cyc c.cores.head? dst bs (c.p 24 2) (c.p 26 2) s
          | (.poison, s) =>
            let s' := partialRows dst (rawAt s src n) s
            endPump u cyc stPoison (poisonDetail src) (spreadPoison dst (poisonedParts s src n) s')
          | (.discarded, s) => endPump u cyc stContextFault 0 s
        | _, _ => s
      else s)

/-- FILL, running on its pump, is done. -/
def execFill (u cyc : Nat) (s : State) : Host.Outcome State Fault Refusal :=
  .next (match s.cmd? u with
    | none => s
    | some c =>
      if s.serving && c.opcode == opFill && atPump s c then
        match typedAddr (c.p 0 8) with
        | some dst => finishTransfer u cyc c.cores.head? dst (fillBytes (leBytes 8 (c.p 16 8)) (c.p 8 6)) (c.p 24 2) (c.p 26 2) s
        | none => s
      else s)

-- ## The siphon

/-- A range of cistern space within one row of a core in service (R314, R420). -/
def siphonDst (s : State) (a n : Nat) : Bool :=
  a < 2 ^ 31 && 1 ≤ n && n ≤ 256 && a / 512 == (a + n - 1) / 512 && s.dieIn (dieOfCore (csCore a))

/-- SIPHON_PUT (R314): its transfer is on the control network until it arrives. -/
def execSiphonPut (u : Nat) (s : State) : Host.Outcome State Fault Refusal :=
  .next (onStart u opSiphonPut s (fun c s =>
    let n := c.p 4 2
    checked u [ (siphonDst s (c.p 0 4) n || !(1 ≤ n && n ≤ 256), inParams c 0), (1 ≤ n && n ≤ 256, inParams c 4)
              , (floatTarget s (c.p 6 2) (c.p 8 2), inParams c 6) ] s (fun s =>
      let x : Siphon := { dst := c.p 0 4, data := (c.params.drop 16).take n, float := BitVec.ofNat 16 (c.p 6 2)
                          inc := BitVec.ofNat 16 (c.p 8 2), uid := some u }
      ({ s with siphon := s.siphon ++ [x] }).modCmd u (fun c => { c with phase := .accepted }))))

/-- Writes bytes through a core's inbound pair, with the float of the transaction (R27, R35, R38, R39); false where it is
discarded. -/
def inboundWrite (a : Nat) (bs : List Byte) (f inc : Nat) (s : State) : Bool × State :=
  if !csAllowed s a bs.length then (false, inboundBad a bs.length s)
  else if !floatLive s f inc then (false, (floatInc f inc s).2)
  else
    let s := countInbound none a bs.length (cisWrite a bs s)
    (true, (floatInc f inc s).2)

/-- The first siphon transfer commits at its target in one masked cycle (R314, R419). -/
def execSiphonArrival (s : State) : Host.Outcome State Fault Refusal :=
  .next (match s.siphon with
    | [] => s
    | x :: rest =>
      if !s.serving then s
      else
        let (ok, s) := inboundWrite x.dst x.data x.float.toNat x.inc.toNat { s with siphon := rest }
        match x.uid with
        | none => s
        | some u =>
          if x.fromPlan then (if ok then s else faultPlan u stContextFault 0 s)
          else if ok then completeOk u s
          else retire u stContextFault 0 s)

-- ## Resident images

/-- The lowest run of n free units among `limit`, given the runs taken. -/
def lowestRun (taken : List (Nat × Nat)) (n limit : Nat) : Option Nat :=
  let starts := 0 :: taken.map (fun t => t.1 + t.2)
  let ok := starts.filter (fun b => b + n ≤ limit && taken.all (fun t => !meets b n t.1 t.2))
  match ok with
  | [] => none
  | b :: bs => some (bs.foldl min b)

def granulesTaken (c : Core) : List (Nat × Nat) :=
  (c.regions.filter (fun r => r.valid)).map (fun r => (r.base, r.size))

def accTaken (c : Core) : List (Nat × Nat) :=
  ((c.regions.take 4).filter (fun r => r.valid)).map (fun r => (r.accBase, r.accSize))

/-- A free entry for an image region. -/
def freeImageEntry (c : Core) : Option Nat := ((List.range 4).map (· + 4)).find? (fun i => !(c.regions.getD i {}).valid)

/-- Share of rank r of an image: offset and length (Table 11.5). -/
def imageShare (h : ImageHdr) (split r : Nat) : Option (Nat × Nat) :=
  if split == 1 then some (0, h.bytes) else if h.parts.length == split then h.parts[r]? else none

/-- Room for an image's region on a core: entry and first granule (R26). -/
def imageRoom (c : Core) (bytes : Nat) : Option (Nat × Nat) :=
  match freeImageEntry c, lowestRun (granulesTaken c) (cdiv bytes 8192) 1024 with
  | some i, some b => some (i, b)
  | _, _ => none

/-- Places a share of an image in a region that is reserved for it, and copies its bytes from the well; false where there
is no room, or where the well's die is out of service or a granule is poisoned (R47, R302, R312). -/
def loadShare (h g a off len : Nat) (s : State) : Bool × State :=
  match imageRoom (s.core g) len with
  | none => (false, s)
  | some (i, b) =>
    let src := Addr.well (a + off)
    let dst := csAddr g (b * 8192)
    let r : Region := { base := b, size := cdiv len 8192, owner := h, kind := 2, valid := true }
    if !addrOk s src len then (false, s)
    else
      let s := s.modCore g (fun c => { c with regions := c.regions.set i r })
      match readAt src len s with
      | (.bytes bs, s) => (true, cisWrite dst bs s)
      | (_, s) =>
        let s := partialWrite (.cis dst) (rawAt s src len) s
        (false, freeRegion g i (spreadPoison (.cis dst) (poisonedParts s src len) s))

/-- Checks of RESIDE (Table 11.5, R3, R420). -/
def resideChecks (s : State) (c : Cmd) : List Check :=
  let first := c.p 10 1
  let n := c.p 11 1
  let split := c.p 12 1
  [ ((wellAddr (c.p 0 8)).isSome, inParams c 0)
  , (first + n ≤ 256 && (List.range n).all (fun k => s.dieIn (dieOfCore (first + k))), inParams c 10)
  , (1 ≤ n && n ≤ 64 && n % max 1 split == 0, inParams c 11)
  , ([1, 2, 4, 8].contains split, inParams c 12) ]

def imageChecks (s : State) (c : Cmd) (img : ImageHdr) : List Check :=
  [ (img.target == 960, inObject noField)
  , (0 < img.bytes && (imageShare img (c.p 12 1) 0).isSome && img.parts.all (fun p => p.1 + p.2 ≤ img.bytes), inObject noField)
  , (wellOk s (c.p 0 8) img.bytes, inParams c 0) ]

/-- Makes a handle's image resident on cores, in order; false at the first that cannot take it. -/
def resideOn (h a split first : Nat) (img : ImageHdr) : List Nat → State → Bool × State
  | [], s => (true, s)
  | g :: gs, s =>
    match imageShare img split ((g - first) % split) with
    | none => (false, s)
    | some (off, len) =>
      match loadShare h g a off len (freeImageOn h g s) with
      | (true, s) => resideOn h a split first img gs s
      | (false, s) => (false, s)

/-- Whether every core has room for its share once its earlier copy is released. -/
def resideRoom (s : State) (h split first : Nat) (img : ImageHdr) (gs : List Nat) : Bool :=
  gs.all (fun g => match imageShare img split ((g - first) % split) with
    | some (_, len) => (imageRoom ((freeImageOn h g s).core g) len).isSome
    | none => false)

/-- The image record after a RESIDE: the hash stays that of the first time this image was made resident (R226). -/
def imageRecord (s : State) (h a split ctx : Nat) (img : ImageHdr) (bytes : List Byte) (gs : List Nat) : Image :=
  let old := tget s.images h {}
  let same := thas s.images h && old.wellAddr == a
  { wellAddr := a, hdr := img, split := split, hash := if same then old.hash else sha256 bytes
    owners := old.owners.filter (fun o => !gs.contains o.1) ++ gs.map (fun g => (g, ctx)) }

/-- RESIDE, running on its cores, is done. -/
def execReside (u : Nat) (img : ImageHdr) (cyc : Nat) (s : State) : Host.Outcome State Fault Refusal :=
  .next (match s.cmd? u with
    | none => s
    | some c =>
      if s.serving && c.opcode == opReside && atPump s c then
        let h := c.p 8 2 % 4096
        let split := c.p 12 1
        let first := c.p 10 1
        let gs := (List.range (c.p 11 1)).map (first + ·)
        let a := c.p 0 8 % 2 ^ 39
        match failing (resideChecks s c ++ imageChecks s c img) with
        | d :: ds =>
          refuse u (d :: ds) (leavePump u cyc s)
        | [] =>
          if !resideRoom s h split first img gs then endPump u cyc stAdmissionRefused 0 s
          else
            match readAt (.well a) img.bytes s with
            | (.bytes bs, s) =>
              let s := (resideOn h a split first img gs s).2
              endPump u cyc stOk 0 { s with images := tset s.images h (imageRecord s h a split c.ctx img bs gs) }
            | (_, s) =>
              let s := (resideOn h a split first img gs s).2
              endPump u cyc stPoison wellPoisonDetail
                { s with images := tset s.images h (imageRecord s h a split c.ctx img [] gs) }
      else s)

/-- Whether a plan, and no pump-only command, occupies a core (R21). -/
def planOn (s : State) (g : Nat) : Bool :=
  match runningOn s g with
  | some c => !isPump c.opcode
  | none => false

/-- UNRESIDE releases the image's region on each named core that no plan occupies, and completes once none of them
holds it (R21, R422). -/
def execUnreside (u : Nat) (s : State) : Host.Outcome State Fault Refusal :=
  .next (match s.cmd? u with
    | none => s
    | some c =>
      let h := c.p 0 2
      let gs := (List.range (c.p 3 1)).map (c.p 2 1 + ·)
      let go := fun (s : State) =>
        let s := (gs.filter (fun g => !planOn s g)).foldl (fun s g => freeImageOn h g s) s
        if gs.any (fun g => planOn s g && (imageRegion s h g).isSome)
        then s.modCmd u (fun c => { c with phase := .accepted }) else completeOk u s
      if c.opcode == opUnreside && c.phase == .accepted && s.serving then go s
      else onStart u opUnreside s (fun c s =>
        checked u [ (h < 4096 && thas s.images h, inParams c 0)
                  , (c.p 2 1 + c.p 3 1 ≤ 256 && gs.all (fun g => s.dieIn (dieOfCore g)), inParams c 2)
                  , ((tget s.images h {}).owners.all (fun o => !gs.contains o.1 || o.2 == c.ctx), inParams c 2) ] s go))

end Sys2Proof.Machine
end

