-- ==== Sys2Proof/Machine/Kv.lean ====
section
/-!
DEFINITION. The KV store: sequences and the page map (R116 to R123), the waits for pages (R131), policy (R133).
-/

namespace Sys2Proof.Machine

-- ## Sequences

/-- Address of an entry of the page map in its well (R119, R120). -/
def mapAddr (i : Nat) : Nat := i / 2 ^ 19 * 2 ^ 35 + 0x7FFC00000 + 8 * (i % 2 ^ 19)

/-- Reads the map entries of some sequences for a command, which an uncorrectable one ends with ST_POISON (Table 6.5). -/
def withMap (qs : List Nat) (s : State) (bad go : State → State) : State :=
  let rs := qs.filterMap (fun q => (tget? s.seqs q).map (fun x => (mapAddr x.mapBase, 8 * x.mapSpan)))
  let s := rs.foldl (fun s r => meetWell r.1 r.2 s) s
  if rs.any (fun r => wellPoisoned s r.1 r.2) then bad s else go s

/-- The end of a command that read poison from a well. -/
def poisonEnd (u : Nat) (s : State) : State := retire u stPoison wellPoisonDetail s

/-- Spans of a well's slice of the map, as runs of entry numbers within the slice. -/
def spansIn (s : State) (d : Nat) : List (Nat × Nat) :=
  (s.seqs.filter (fun e => e.2.mapBase / 2 ^ 19 == d)).map (fun e => (e.2.mapBase % 2 ^ 19, e.2.mapSpan))

/-- The lowest run of empty entries in the slice of a well (R122). -/
def findSpan (s : State) (d n : Nat) : Option Nat := (lowestRun (spansIn s d) n (2 ^ 19)).map (· + d * 2 ^ 19)

/-- LIVE (Table 6.2). -/
def liveCount (s : State) (q : Nat) (x : Seq) : Nat :=
  if x.ring then min x.mapSpan (cdiv x.length x.tokens) else (liveEntries s q).length

/-- Field ranges of R122 and Table 6.2, each with the offset of its parameter. -/
def seqChecks (s : State) (x : Seq) (at' : Nat → Nat) : List Check :=
  [ (x.logBlock ≤ 10, at' 3)
  , (1 ≤ x.layers && x.layers ≤ 64, at' 4)
  , (x.pinRecent ≤ 64, at' 5)
  , (if x.ring then x.scoreShift == 0 else 1 ≤ x.scoreShift && x.scoreShift ≤ 7, at' 6)
  , (s.dieIn x.homeDie, at' 7)
  , (64 ≤ x.rowBytes && x.rowBytes ≤ 32768 && x.rowBytes % 64 == 0, at' 8)
  , (x.scoreInit < 1024, at' 10)
  , (1 ≤ x.mapSpan && x.mapSpan ≤ 16384, at' 12)
  , (x.layers * x.tokens * x.rowBytes ≤ 65536, at' 8)
  , (if x.ring then !x.evict && 1 ≤ x.window && x.window ≤ 2 ^ 24 && x.pinRecent == 0 && x.scoreInit == 0 &&
        cdiv (x.window - 1) x.tokens + 1 ≤ x.mapSpan
     else x.window == 0, at' 16) ]

def seqOfParams (c : Cmd) : Seq :=
  { ctx := c.ctx, ring := bitOf (c.p 2 1) 0, evict := bitOf (c.p 2 1) 1, logBlock := c.p 3 1, layers := c.p 4 1
    pinRecent := c.p 5 1, scoreShift := c.p 6 1, homeDie := c.p 7 1, rowBytes := c.p 8 2, scoreInit := c.p 10 2
    mapSpan := c.p 12 4, window := c.p 16 4 }

/-- Moves a ring sequence's pages from the pool into its span (R122). -/
def fillRing (q : Nat) (x : Seq) (s : State) : State :=
  match s.ctx? x.ctx with
  | none => s
  | some k =>
    let ps := k.pool.take x.mapSpan
    let s := s.modCtx x.ctx (fun k => { k with pool := k.pool.drop x.mapSpan })
    { s with map := ((List.range ps.length).zip ps).foldl (fun m p =>
        tset m (x.mapBase + p.1) { page := p.2, seq := q, block := p.1, ring := true }) s.map }

/-- KV_SEQ_OPEN (R122). -/
def execKvSeqOpen (u : Nat) (s : State) : Host.Outcome State Fault Refusal :=
  .next (onStart u opKvSeqOpen s (fun c s =>
    let q := c.p 0 2
    let x := seqOfParams c
    checked u ((q != 0xFFFF && !thas s.seqs q, inParams c 0) :: seqChecks s x (inParams c)) s (fun s =>
      match findSpan s x.homeDie x.mapSpan with
      | none => retire u stKvFull q s
      | some base =>
        if x.ring && (poolOf s c.ctx).length < x.mapSpan then retire u stKvFull q s
        else
          let x := { x with mapBase := base }
          let s := { s with seqs := tset s.seqs q x }
          completeOk u (if x.ring then fillRing q x s else s))))

/-- A sequence of the command's context. -/
def ownSeq (s : State) (c : Cmd) (q : Nat) : Bool :=
  match tget? s.seqs q with
  | some x => x.ctx == c.ctx
  | none => false

/-- The first refusal of secure (R131): the command waits, or completes where KV_WAIT_US is 0. -/
def kvRefused (u q : Nat) (s : State) : State :=
  match s.cmd? u with
  | none => s
  | some c =>
    let wait := match s.ctx? c.ctx with | some x => x.kvWaitUs | none => 0
    if wait == 0 then retire u stKvFull q s
    else
      let s := s.modStats c.ctx (fun k => { k with kvWaits := ctrAdd k.kvWaits 1 })
      s.modCmd u (fun c => { c with phase := .kvWait, waitsOn := some q, rerunDue := true })

/-- KV_SECURE_RETRY (R131). -/
def execKvSecureRetry (u : Nat) (s : State) : Host.Outcome State Fault Refusal :=
  .next (if s.serving then kvRetry u s else s)

/-- KV_WAIT_TIMEOUT: an attempt more than KV_WAIT_US after the first refusal (R131). -/
def execKvWaitTimeout (u : Nat) (s : State) : Host.Outcome State Fault Refusal :=
  .next (match s.cmd? u with
    | none => s
    | some c =>
      if s.serving && c.phase == .kvWait then
        match trySecure u s with
        | (none, s) => kvGranted u s
        | (some q, s) => retire u stKvFull q s
      else s)

/-- KV_SEQ_CLOSE (R132). -/
def execKvSeqClose (u : Nat) (s : State) : Host.Outcome State Fault Refusal :=
  .next (onStart u opKvSeqClose s (fun c s =>
    checked u [(ownSeq s c (c.p 0 2), inParams c 0)] s (fun s => withMap [c.p 0 2] s (poisonEnd u) (fun s =>
      completeOk u (closeSeq (c.p 0 2) s)))))

-- ## KV_POLICY (R133, Table 6.4)

/-- KV_POLICY whose OP is the row's. -/
def onPolicy (u : Nat) (op : Nat → Bool) (s : State) (body : Cmd → State → State) : State :=
  match s.cmd? u with
  | none => s
  | some c => if op (c.p 0 1) then onStart u opKvPolicy s body else s

/-- SET; an OP that Table 6.4 does not list is refused. -/
def execKvPolicySet (u : Nat) (s : State) : Host.Outcome State Fault Refusal :=
  .next (onPolicy u (fun op => op == 0 || 4 ≤ op) s (fun c s =>
    let q := c.p 2 2
    if q == 0xFFFF && c.p 0 1 == 0 then
      checked u [(c.p 8 4 ≤ 1000000, inParams c 8)] s (fun s =>
        completeOk u (s.modCtx c.ctx (fun x => { x with kvWaitUs := c.p 8 4 })))
    else
      checked u [ (c.p 0 1 == 0, inParams c 0)
                , (ownSeq s c q && !(tget s.seqs q {}).ring, inParams c 2)
                , (c.p 4 1 ≤ 64, inParams c 4)
                , (1 ≤ c.p 5 1 && c.p 5 1 ≤ 7, inParams c 5)
                , (c.p 6 2 < 1024, inParams c 6) ] s (fun s =>
        completeOk u (s.modSeq q (fun x => { x with
          evict := bitOf (c.p 1 1) 0, pinRecent := c.p 4 1, scoreShift := c.p 5 1, scoreInit := c.p 6 2 })))))

/-- Whether a page may be granted (R118, R133, R305). -/
def grantable (s : State) (p : Nat) : Bool :=
  p < 2 ^ 22 && p % 2 ^ 19 < 524224 && s.dieIn (p / 2 ^ 19) && !(s.well (p / 2 ^ 19)).withdrawn.contains p &&
  s.ctxs.all (fun e => !e.2.pool.contains p) && s.map.all (fun e => e.2.seq == 0xFFFF || e.2.page != p) &&
  s.inflight.all (fun c => c.secured.all (fun x => x.page != some p))

/-- POOL_GRANT: adds pages; waiting commands try again. -/
def execPoolGrant (u : Nat) (s : State) : Host.Outcome State Fault Refusal :=
  .next (onPolicy u (· == 1) s (fun c s =>
    let n := c.p 20 4
    let ps := (List.range n).map (c.p 16 4 + ·)
    checked u [ (1 ≤ n && n ≤ 524224, inParams c 20)
              , (!(1 ≤ n && n ≤ 524224) || ps.all (grantable s), inParams c 16) ] s (fun s =>
      completeOk u (givePages c.ctx ps s))))

/-- Sets or clears PIN in the live entry of a block. -/
def setPin (u : Nat) (c : Cmd) (on : Bool) (s : State) : State :=
  let q := c.p 2 2
  match (liveEntries s q).find? (fun e => e.2.block == c.p 12 2) with
  | none => refuse u [inParams c 12] s
  | some e => completeOk u { s with map := tset s.map e.1 { e.2 with pin := on } }

def pinChecks (s : State) (c : Cmd) : List Check :=
  [(ownSeq s c (c.p 2 2) && !(tget s.seqs (c.p 2 2) {}).ring, inParams c 2)]

def execKvPolicyPin (u : Nat) (s : State) : Host.Outcome State Fault Refusal :=
  .next (onPolicy u (· == 2) s (fun c s => checked u (pinChecks s c) s (fun s => withMap [c.p 2 2] s (poisonEnd u) (setPin u c true))))

/-- UNPIN; a victim may now exist, so waiters try again at their next attempt. -/
def execKvPolicyUnpin (u : Nat) (s : State) : Host.Outcome State Fault Refusal :=
  .next (onPolicy u (· == 3) s (fun c s => checked u (pinChecks s c) s (fun s => withMap [c.p 2 2] s (poisonEnd u) (setPin u c false))))

end Sys2Proof.Machine
end

