-- ==== Sys2Proof/Machine/Plans.lean ====
section
/-!
DEFINITION. What a plan is checked for when its command would start (R55, R64, R65, R72, R73, R76, R89, R94, R110, R124,
R154, R172, R177, R186, R194, R198, R202, R271, R308, R333, R425), and RUN.
-/

namespace Sys2Proof.Machine

/-- Bytes of a context region and rows of an accumulator share. -/
def Ctx.regionBytes (x : Ctx) : Nat := x.cisGranules * 8192
def Ctx.accRows (x : Ctx) : Nat := x.accUnits * 64

-- ## A-gen parameter blocks (R171 to R184)

structure ConvBlk where
  inBase : Nat
  inRows : Nat
  inLayout : Nat
  inBf : Bool
  s2c : Nat
  cIn : Nat
  cOut : Nat
  hIn : Nat
  groups : Nat
  wIn : Nat
  kh : Nat
  kw : Nat
  sh : Nat
  sw : Nat
  dh : Nat
  dw : Nat
  padT : Nat
  padB : Nat
  padL : Nat
  padR : Nat
  padMode : Nat
  edgeLo : Int
  edgeHi : Int
  outBase : Nat
  outRows : Nat
  outLayout : Nat
  outBf : Bool
  c2t : Nat
  deriving DecidableEq, Repr

def convBlk (b : Block) : ConvBlk :=
  let f := field b 6 1
  let o := field b 0x3A 1
  { inBase := field b 0 4, inRows := field b 4 2, inLayout := f % 4, inBf := bitOf f 2, s2c := f / 16 % 8
    cIn := field b 8 2, cOut := field b 0xA 2, hIn := field b 0xC 2, groups := field b 0xE 2, wIn := field b 0x10 4
    kh := field b 0x14 1, kw := field b 0x15 1, sh := field b 0x18 2, sw := field b 0x1A 2, dh := field b 0x1C 2
    dw := field b 0x1E 2, padT := field b 0x20 2, padB := field b 0x22 2, padL := field b 0x24 2, padR := field b 0x26 2
    padMode := field b 0x28 1, edgeLo := sextN 32 (field b 0x2C 4), edgeHi := sextN 32 (field b 0x30 4)
    outBase := field b 0x34 4, outRows := field b 0x38 2, outLayout := o % 4, outBf := bitOf o 2, c2t := o / 16 % 8 }

def elemBytes (bf : Bool) : Nat := if bf then 2 else 1

/-- Channels per block and bytes of a line's content for c channels and w positions (Table 8.1). -/
def blockChans (layout c : Nat) : Nat := if layout == 0 then 16 else if layout == 1 then 32 else c

def lineBytes (layout c w e : Nat) : Nat := if layout == 2 then w * c * e else w * blockChans layout c * e

/-- Lines of one n of a tensor. -/
def linesOf (layout c h : Nat) : Nat := if layout == 2 then h else cdiv c (blockChans layout c) * h

/-- Bytes from a tensor's base to its end. -/
def tensorEnd (layout c h w e rows : Nat) : Nat := (linesOf layout c h - 1) * rows * 512 + lineBytes layout c w e

/-- Offset of element (n, c, h, w) from the base (R167). -/
def elemOffset (layout chans rows e H n c h w : Nat) : Nat :=
  let bc := blockChans layout chans
  if layout == 2 then (n * H + h) * rows * 512 + (chans * w + c) * e
  else ((n * cdiv chans bc + c / bc) * H + h) * rows * 512 + (bc * w + c % bc) * e

/-- Input positions after regrouping, and the edges in them (R182). -/
def ConvBlk.wReg (k : ConvBlk) : Nat := k.wIn / 2 ^ k.s2c
def ConvBlk.lo (k : ConvBlk) : Int := k.edgeLo.fdiv ((2 ^ k.s2c : Nat) : Int)
def ConvBlk.hi (k : ConvBlk) : Int := k.edgeHi.fdiv ((2 ^ k.s2c : Nat) : Int)

/-- Channels as stored, before S2C regroups them and after C2T spreads them. -/
def ConvBlk.inChans (k : ConvBlk) : Nat := k.cIn / 2 ^ k.s2c
def ConvBlk.outChans (k : ConvBlk) : Nat := k.cOut / 2 ^ k.c2t

/-- Output extents of R173; below 1 where the kernel does not fit. -/
def extent (inp lo hi k s d : Nat) : Int :=
  ((inp + lo + hi : Nat) - (d * (k - 1) : Nat) - 1 : Int).fdiv (s : Int) + 1

def ConvBlk.hOut (k : ConvBlk) : Int := extent k.hIn k.padT k.padB k.kh k.sh k.dh
def ConvBlk.wOut (k : ConvBlk) : Int := extent k.wReg k.padL k.padR k.kw k.sw k.dw

def isCl (layout c : Nat) : Bool := layout != 2 || [1, 2, 4, 8, 16].contains c

/-- The grouping rules of R181. -/
def groupingOk (k : ConvBlk) : Bool :=
  k.groups == 1 ||
  (k.cIn % k.groups == 0 && k.cOut % k.groups == 0 &&
    (let gi := k.cIn / k.groups
     let go := k.cOut / k.groups
     ([1, 2, 4, 8, 16, 32].contains go || go % 64 == 0) && (gi % 16 == 0 || (go < 64 && gi * (64 / go) % 16 == 0))))

/-- Regrouping rules of R183 and R184. -/
def regroupOk (k : ConvBlk) : Bool :=
  (k.s2c == 0 || (k.inLayout == 2 && k.cIn % 2 ^ k.s2c == 0 && (k.cIn == 16 || k.cIn == 32) && k.wIn % 2 ^ k.s2c == 0 &&
    k.edgeLo % ((2 ^ k.s2c : Nat) : Int) == 0 && k.edgeHi % ((2 ^ k.s2c : Nat) : Int) == 0)) &&
  (k.c2t == 0 || (k.outLayout == 2 && [16, 32, 64].contains k.cOut))

def inR (v lo hi : Nat) : Bool := lo ≤ v && v ≤ hi

/-- Every rule of R172 for a context region of some bytes. -/
def convOk (region : Nat) (b : Block) : Bool :=
  let k := convBlk b
  let f := field b 6 1
  let o := field b 0x3A 1
  b.length == 64 && k.inBase < 2 ^ 23 && k.inBase % 512 == 0 && inR k.inRows 1 16384 && k.inLayout != 3 && !bitOf f 3 &&
  k.s2c ≤ 4 && !bitOf f 7 && zeros b 7 1 && inR k.cIn 1 4096 && inR k.cOut 1 4096 && inR k.hIn 1 4096 &&
  inR k.groups 1 4096 && inR k.wIn 1 (2 ^ 24) && inR k.kh 1 16 && 1 ≤ k.kw && zeros b 0x16 2 && 1 ≤ k.sh && 1 ≤ k.sw &&
  1 ≤ k.dh && 1 ≤ k.dw && k.padMode < 3 && zeros b 0x29 3 && k.edgeLo < k.edgeHi && k.outBase < 2 ^ 23 &&
  k.outBase % 512 == 0 && inR k.outRows 1 16384 && k.outLayout != 3 && !bitOf o 3 && k.c2t ≤ 4 && !bitOf o 7 &&
  zeros b 0x3B 5 && groupingOk k && regroupOk k && 1 ≤ k.hOut && 1 ≤ k.wOut &&
  isCl k.inLayout k.inChans && isCl k.outLayout k.outChans &&
  (let ei := elemBytes k.inBf
   let eo := elemBytes k.outBf
   let wo := k.wOut.toNat * 2 ^ k.c2t
   lineBytes k.inLayout k.inChans k.wIn ei ≤ k.inRows * 512 &&
   lineBytes k.outLayout k.outChans wo eo ≤ k.outRows * 512 &&
   k.inBase + tensorEnd k.inLayout k.inChans k.hIn k.wIn ei k.inRows ≤ region &&
   k.outBase + tensorEnd k.outLayout k.outChans k.hOut.toNat wo eo k.outRows ≤ region)

-- ## Crop blocks (R186)

structure CropBlk where
  table : Nat
  frames : Nat
  h : Nat
  w : Nat
  c : Nat
  bf : Bool
  pitch : Nat
  boxes : Nat
  count : Nat
  outH : Nat
  outW : Nat
  extrap : Nat
  outBase : Nat
  statusBase : Nat
  deriving DecidableEq, Repr

def cropBlk (b : Block) : CropBlk :=
  { table := field b 0 8 % 2 ^ 39, frames := field b 8 2, h := field b 0xA 2, w := field b 0xC 2, c := field b 0xE 1 % 8
    bf := bitOf (field b 0xE 1) 3, pitch := field b 0x10 4, boxes := field b 0x18 8 % 2 ^ 39, count := field b 0x20 2
    outH := field b 0x22 2, outW := field b 0x24 2, extrap := field b 0x28 4, outBase := field b 0x2C 4
    statusBase := field b 0x30 4 }

/-- Channels that a crop writes: C rounded up to 1, 2 or 4. -/
def cropChans (c : Nat) : Nat := if c ≤ 2 then c else 4
/-- Bytes of one output line. -/
def CropBlk.linePitch (k : CropBlk) : Nat := cdiv (k.outW * cropChans k.c * 2) 512 * 512

/-- Field ranges of Table 8.6. -/
def cropFieldsOk (b : Block) : Bool :=
  let k := cropBlk b
  b.length == 64 && (wellAddr (field b 0 8)).isSome && k.table % 64 == 0 && inR k.frames 1 256 && inR k.h 1 8192 &&
  inR k.w 1 8192 && inR k.c 1 4 && field b 0xE 1 < 16 && zeros b 0xF 1 && k.pitch % 64 == 0 &&
  k.w * k.c * elemBytes k.bf ≤ k.pitch && zeros b 0x14 4 && (wellAddr (field b 0x18 8)).isSome && k.boxes % 32 == 0 &&
  inR k.count 1 4096 && inR k.outH 1 256 && inR k.outW 1 256 && zeros b 0x26 2 && k.outBase < 2 ^ 31 &&
  k.outBase % 512 == 0 && k.statusBase < 2 ^ 31 && zeros b 0x34 12

-- ## What a context may reach (R186, R308; assumption 60)

/-- A well range meets no page or sump of another context, and no page-map region. -/
def wellMine (s : State) (c a n : Nat) : Bool :=
  a + n ≤ 2 ^ 38 && !hitsMap (.well a) n && (n == 0 || (unitsOf (2 ^ 35) a n).all (fun d => s.dieIn d)) &&
  s.ctxs.all (fun e => e.1 == c || (!meets a n e.2.sumpBase e.2.sumpBytes &&
    e.2.pool.all (fun p => !meets a n (p * 65536) 65536))) &&
  s.map.all (fun e => e.2.seq == 0xFFFF || (match tget? s.seqs e.2.seq with | some x => x.ctx == c | none => true) ||
    !meets a n (e.2.page * 65536) 65536)

/-- A range of cistern space lies in a context region of the context. -/
def cisMine (s : State) (c a n : Nat) : Bool :=
  a + n ≤ 2 ^ 31 && (csPieces a n).all (fun p =>
    match slotOf s c (csCore p.1) with
    | some k =>
      let r := (s.core (csCore p.1)).regions.getD k {}
      r.base * 8192 ≤ csOff p.1 && csOff p.1 + p.2 ≤ (r.base + r.size) * 8192
    | none => false)

def reachOk (s : State) (c : Nat) (ad : Addr) (n : Nat) : Bool :=
  match ad with
  | .host a => a + n ≤ 2 ^ 52
  | .well a => wellMine s c a n
  | .cis a => cisMine s c a n

-- ## Pump descriptors (Table 14.3, R308)

structure PumpDesc where
  src : Nat
  dst : Nat
  rowBytes : Nat
  rows : Nat
  srcStride : Int
  dstStride : Int
  float : Nat
  inc : Nat
  op : Nat
  cls : Nat
  phaseEnd : Bool
  pattern : List Byte
  next : Nat
  deriving DecidableEq, Repr

def pumpDesc (b : Block) : PumpDesc :=
  { src := field b 0 8, dst := field b 8 8, rowBytes := field b 0x10 4, rows := field b 0x14 4
    srcStride := sextN 64 (field b 0x18 8), dstStride := sextN 64 (field b 0x20 8), float := field b 0x28 2
    inc := field b 0x2A 2, op := field b 0x2C 1, cls := field b 0x2D 1, phaseEnd := bitOf (field b 0x2E 2) 0
    pattern := padTo 8 ((b.drop 0x30).take 8), next := field b 0x38 8 }

/-- The lowest address and the length of what a strided end covers, from the address of row 0. -/
def spanOf (a rowBytes rows : Nat) (stride : Int) : Int × Nat :=
  let far : Int := stride * ((rows - 1 : Nat) : Int)
  (min (a : Int) ((a : Int) + far), far.natAbs + rowBytes)

/-- The typed end of a descriptor: lowest address and bytes. -/
def endOf (v rowBytes rows : Nat) (stride : Int) : Option (Addr × Nat) :=
  match typedAddr v with
  | none => none
  | some ad =>
    let (lo, n) := spanOf ad.at rowBytes rows stride
    if lo < 0 then none
    else
      match ad with
      | .host _ => some (.host lo.toNat, n)
      | .well _ => some (.well lo.toNat, n)
      | .cis _ => some (.cis lo.toNat, n)

/-- Address of row i of a typed end. -/
def rowAddr (v i : Nat) (stride : Int) : Option Addr :=
  match typedAddr v with
  | none => none
  | some ad =>
    let a := (ad.at : Int) + stride * (i : Int)
    match ad with
    | .host _ => some (.host a.toNat)
    | .well _ => some (.well a.toNat)
    | .cis _ => some (.cis a.toNat)

/-- Rules of R308 that do not depend on placement. -/
def pumpFieldsOk (b : Block) : Bool :=
  let d := pumpDesc b
  b.length == 64 && inR d.rowBytes 1 (2 ^ 24) && inR d.rows 1 (2 ^ 24) && d.rowBytes * d.rows ≤ 2 ^ 40 && floatOk d.float &&
  d.op < 3 && d.cls < 4 && field b 0x2E 2 < 2 && d.next % 64 == 0 && d.next < 2 ^ 38 + 2 ^ 31

/-- Rules of R308 on the ends of a plan's descriptor, for its context as placed. -/
def pumpEndsOk (s : State) (c : Nat) (b : Block) : Bool :=
  let d := pumpDesc b
  match endOf d.dst d.rowBytes d.rows d.dstStride with
  | none => false
  | some (dst, n) =>
    floatTarget s d.float d.inc && addrOk s dst n && !hitsMap dst n && reachOk s c dst n &&
    (d.op != 0 ||
      (match endOf d.src d.rowBytes d.rows d.srcStride with
       | none => false
       | some (src, m) => addrOk s src m && reachOk s c src m && !addrMeets src m dst n))

-- ## Draw descriptors and scale points

/-- R198 for a step that draws n values per token; a loop draws by SLOT (R194). -/
def drawOk (isLoop : Bool) (n : Nat) (d : Block) : Bool :=
  d.length == 16 && field d 4 1 < 2 && zeros d 5 3 && n ≤ field d 8 4 && !(isLoop && field d 4 1 == 1)

structure ScalePoint where
  src : Nat
  h : Nat
  zpMode : Bool
  margin : Nat
  cal : Nat
  histBase : Nat
  deriving DecidableEq, Repr

def scalePoint (w : W64) : ScalePoint :=
  let v := w.toNat
  { src := v % 4, h := v / 4 % 16 + 1, zpMode := bitOf v 6, margin := v / 2 ^ 8 % 2 ^ 8, cal := v / 2 ^ 16 % 2 ^ 12
    histBase := v / 2 ^ 32 % 2 ^ 23 }

/-- Calibration table of a plan: that of its first image (R425). -/
def calTable (s : State) (p : Plan) : List W32 :=
  match p.images.head? with
  | some h => (tget s.images h {}).hdr.calMax
  | none => []

/-- R73 for one descriptor of a plan with some token slots. -/
def scalePointOk (s : State) (region : Nat) (p : Plan) (tokens : Nat) (w : W64) : Bool :=
  let v := w.toNat
  let q := scalePoint w
  q.src != 3 && 0x40 ≤ q.margin && (if p.images.isEmpty then q.cal == 0 else q.cal < (calTable s p).length) &&
  !bitOf v 7 && v / 2 ^ 28 % 16 == 0 && v / 2 ^ 55 == 0 && q.histBase % 256 == 0 &&
  (q.src != 0 || q.histBase + 256 * tokens ≤ region)

/-- Rows of a native section by kind (Table 5.1): state and coefficient rows. -/
def recStateRows (kind : Nat) (ef : Bool) : Nat := (if kind == 0 then 1 else if kind == 1 then 2 else 4) + b2n ef
def recCoefRows (kind : Nat) : Nat := if kind == 0 then 1 else if kind == 1 then 3 else 5

structure RecStep where
  kind : Nat
  ef : Bool
  coef : Nat
  st : Nat
  inp : Nat
  out : Nat
  deriving DecidableEq, Repr

def recOf (w : W64) : RecStep :=
  let v := w.toNat
  { kind := v % 4, ef := bitOf v 2, coef := v / 2 ^ 4 % 2 ^ 12, st := v / 2 ^ 16 % 2 ^ 12, inp := v / 2 ^ 28 % 2 ^ 12
    out := v / 2 ^ 40 % 2 ^ 12 }

/-- R94: the rows lie in the context's range, whichever half is the working one. -/
def recOk (rows stateBase stateRows : Nat) (w : W64) : Bool :=
  let r := recOf w
  r.kind != 3 && !bitOf w.toNat 3 && w.toNat / 2 ^ 52 == 0 && r.coef + recCoefRows r.kind ≤ rows &&
  stateBase + stateRows + r.st + recStateRows r.kind r.ef ≤ rows && r.inp < rows && r.out < rows

-- ## Steps

/-- Whether a scale point exists in the plan's table. -/
def pointIn (p : Plan) (i : Nat) : Bool := i < p.scalePoints.length

/-- R64 and R65 for the weights of a product: GSIZE fits the pairing, the image is one of the plan's, and without group
sums the step declares ZP_ZERO. -/
def weightsOk (s : State) (p : Plan) (w : Weights) : Bool :=
  (if w.pair == .bf16 then w.gsize == 0 else inR w.gsize 1 3) &&
  (match w.image with
   | some h => p.images.contains h && (w.pair == .bf16 || w.zpZero || (tget s.images h {}).hdr.gsumPresent)
   | none => true)

/-- The scale point of a step's A8 activations exists, and has ZP_MODE = 1 where the step declares ZP_ZERO (R72, R76). -/
def feedOk (p : Plan) (zpZero : Bool) (point : Option Nat) : Bool :=
  match point with
  | some i => pointIn p i && (!zpZero || (scalePoint (p.scalePoints.getD i 0)).zpMode)
  | none => true

/-- Values that a narrowing takes from a token. -/
def narrowWidth (op : NarrowOp) : Nat := op.pieces.foldl (fun n q => n + q.width) 0

/-- R55, R72, R198 for a narrowing; its codes do not reach the trailer of the data block (R83; assumption 407). -/
def narrowOk (p : Plan) (isLoop : Bool) (op : NarrowOp) : Bool :=
  match op.fmt with
  | .a8 =>
    (match op.block with
     | some b => inR b.tokens 1 64 && op.token < 64 && (op.token + 1) * narrowWidth op + 64 ≤ b.rows * 512
     | none => true) && pointIn p op.point && [0, 3, 4].contains op.srBits && (op.srBits == 0 || drawOk isLoop (op.draw.base + narrowWidth op) op.draw.desc)
  | _ => true

/-- The start checks of one step. -/
def stepOk (s : State) (x : Ctx) (p : Plan) (isLoop : Bool) : PlanStep → Bool
  | .matmul op =>
    weightsOk s p op.w && feedOk p op.w.zpZero op.point &&
    (match op.narrow with | some n => narrowOk p isLoop n | none => true)
  | .narrow op => narrowOk p isLoop op
  | .recur _ w => recOk x.accRows p.stateBase p.stateRows w
  | .conv op =>
    convOk x.regionBytes op.block && weightsOk s p op.w && feedOk p op.w.zpZero op.point &&
    (convBlk op.block).inBf == (op.w.pair == .bf16) && ((convBlk op.block).inBf || op.point.isSome) &&
    (!op.store || (convBlk op.block).outBf)
  | .crop op => cropFieldsOk op.block
  | .argmax op => inR op.channels 1 65536
  | .gumbel op => inR op.channels 1 65536 && p.tempOff.isSome && drawOk isLoop (op.draw.base + op.channels) op.draw.desc
  | .pump d => pumpFieldsOk d
  | .siphon _ n dst f inc =>
    inR n 1 256 && dst / 512 == (dst + n - 1) / 512 && floatTarget s f.toNat inc.toNat
  | _ => true

def isMStep : PlanStep → Bool
  | .matmul _ => true
  | .conv _ => true
  | .attention _ => true
  | _ => false

/-- The draw class in force (R333). -/
def drawClassOf (c : Cmd) (p : Plan) : Nat := if c.drawClass == 0 then p.drawClass else c.drawClass

/-- Every step of a plan, rank by rank. -/
def allSteps (p : Plan) : List PlanStep := p.steps.flatten

/-- Start checks of a plan that read no other object; `tokens` are its token slots. -/
def planChecks (s : State) (c : Cmd) (x : Ctx) (p : Plan) (isLoop : Bool) (tokens : Nat) : List Check :=
  [ (p.target == 960, inPlan)
  , ([1, 2, 4, 8].contains p.split && p.split ≤ x.maxSlots, inPlan)
  , (match p.firstCore with
     | some f => f % max 1 p.split == 0 && f + p.split ≤ 256 && f / 8 == (f + p.split - 1) / 8 && s.dieIn (dieOfCore f)
     | none => true, inPlan)
  , (p.images.all (fun h => thas s.images h), inPlan)
  , (p.scalePoints.length ≤ 32 && p.scalePoints.all (scalePointOk s x.regionBytes p tokens), inPlan)
  , ((allSteps p).all (stepOk s x p isLoop), inPlan)
  , (p.arms.all (· < 16), inPlan)
  , (p.drawClass ≤ drawClassOf c p && inR p.drawClass 1 4, inPacket 0x06)
  , (!(drawClassOf c p == 1 && (allSteps p).any isMStep), inPacket 0x06)
  , (!c.autoWiden || p.wideSrc != .absent, inPacket 0x02) ]

-- ## KV bindings (R124)

/-- One binding, before the sums. -/
def bindingOk (s : State) (c : Cmd) (k : KvBind) : Bool :=
  match tget? s.seqs k.seq with
  | none => false
  | some x =>
    x.ctx == c.ctx &&
    (!k.append ||
      (if x.ring then k.count ≤ x.tokens * min 64 x.mapSpan
       else (newBlocks s 0 k).length ≤ 64 && x.length + k.count ≤ 16384 * x.tokens))

def stagedBytes (s : State) (k : KvBind) : Nat :=
  match tget? s.seqs k.seq with
  | some x => if k.append then x.layers * k.count * x.rowBytes else 0
  | none => 0

def kvChecks (s : State) (c : Cmd) (p : Plan) (a : RunArgs) : List Check :=
  ((List.range a.bindings.length).zip a.bindings).map (fun b =>
    ((bindingOk s c b.2 && (a.bindings.take b.1).all (fun d => d.seq != b.2.seq), inArgs (64 + 16 * b.1)) : Check)) ++
  ([(a.bindings.foldl (fun n k => n + stagedBytes s k) 0 ≤ p.stagingBytes, inArgs 0)] : List Check)

-- ## Chunks (R110, R284)

/-- Ranges of samples that earlier chunks of a stream hold: fetched before c and not retired, or committed and not
released. -/
def earlierChunks (s : State) (c : Cmd) (i : Nat) : List (Nat × Nat) :=
  (s.inflight.filter (fun d => d.uid < c.uid && d.opcode == opRun)).filterMap (fun d =>
    match (argsOf s d).chunk with
    | some (j, a, n) => if i == j then some (a, n) else none
    | none => none) ++
  (match tget? s.streams i with
   | some st => (st.chunks.filter (fun k => k.committed && !k.released)).map (fun k => (k.start, k.len))
   | none => [])

def chunkChecks (s : State) (c : Cmd) (x : Ctx) (a : RunArgs) : List Check :=
  match a.chunk with
  | none => []
  | some (i, start, n) =>
    match tget? s.streams i with
    | none => [(false, inArgs 4)]
    | some st =>
      [ (st.ctx == c.ctx && st.state == 1 && st.loop.isNone && !st.closing && !st.finished, inArgs 4)
      , (st.sampleIndex ≤ start && start + n ≤ 2 ^ 48, inArgs 8)
      , ((earlierChunks s c i).all (fun k => !meets start n k.1 k.2), inArgs 8)
      , (1 ≤ n && n ≤ x.chunkMax && (a.finalChunk || n % max 1 st.blockLen == 0), inArgs 16) ]

-- ## Groups (Table 7.6, R154)

def groupOfBlock (b : Block) (u : Nat) : Group :=
  { members := field b 3 1, rank := field b 4 1, flags := field b 5 1, retryMax := field b 0xC 1
    devices := (List.range (min 64 (field b 3 1))).map (fun i => field b (0x20 + 2 * i) 2), cmd := u
    shardSlots := field b 6 2, shardBuf := field b 0x10 4, shardFloat := field b 0x14 2 }

def groupChecks (s : State) (b : Block) (a : RunArgs) : List Check :=
  let g := groupOfBlock b 0
  [ (field b 0 2 < 0xFFFF && !thas s.lat.groups (field b 0 2), inObject 0)
  , (field b 2 1 == 0, inObject 2)
  , (inR g.members 2 64, inObject 3)
  , (g.rank < g.members, inObject 4)
  , (g.flags < 2, inObject 5)
  , (inR g.shardSlots 2 64, inObject 6)
  , (inR (field b 8 4) 100 1000000, inObject 8)
  , (g.retryMax ≤ 8, inObject 0xC)
  , (zeros b 0xD 3 && zeros b 0x16 10, inObject 0xD)
  , ((csField g.shardBuf).isSome, inObject 0x10)
  , (floatOk g.shardFloat, inObject 0x14)
  , (g.devices.all (· < 2 ^ 14) && zeros b (0x20 + 2 * g.members) (128 - 2 * g.members) && g.devices.Nodup &&
     (g.devices.getD g.rank 0xFFFF) == selfDev s, inObject 0x20)
  , (a.bindings.all (fun k => !k.append), inArgs 0x40)
  , (a.bindings.all (fun k => !(tget s.seqs k.seq {}).ring), inArgs 0x40)
  , (s.lat.groups.length < 64, inObject 0) ]

-- ## RUN

/-- A plan whose start checks hold is ready: it waits for cores (R270). A group member becomes active. -/
def runReady (u : Nat) (p : Plan) (ab : Block) (gb : Option Block) (s : State) : State :=
  let s := match gb with
    | some b => s.modLat (fun l => { l with groups := tset l.groups (field b 0 2) (groupOfBlock b u) })
    | none => s
  s.modCmd u (fun c => { c with phase := .ready, plan := some p, argBlock := some ab })

/-- The checks on a RUN whose argument block and group descriptor are read. -/
def runChecked (u : Nat) (c : Cmd) (p : Plan) (ab : Block) (gb : Option Block) (s : State) : State :=
  match s.ctx? c.ctx with
  | none => s
  | some x =>
    let a := if c.p 8 8 == 0 then {} else runArgsOf ab
    let cs : List Check := (if c.p 8 8 == 0 then [] else runArgChecks ab) ++ planChecks s c x p false p.tokens ++
      kvChecks s c p a ++ chunkChecks s c x a ++ (match gb with | some b => groupChecks s b a | none => [])
    match failing cs with
    | [] => if a.chunk.isSome && silenced s c.ctx then retire u stProvExhausted 0 (startCmd u s) else runReady u p ab gb s
    | ds => refuse u ds (startCmd u s)

/-- Reads the group descriptor where the packet names one. -/
def runGroup (u : Nat) (c : Cmd) (p : Plan) (ab : Block) (s : State) : State :=
  if c.p 24 8 == 0 then runChecked u c p ab none s
  else
    match typedAddr (c.p 24 8) with
    | none => s
    | some ad => withObject u ad 160 s (fun b s => runChecked u c p ab (some b) s)

/-- RUN: the plan at PLAN is `p` (assumption 3). Its checks come when the ordering rules let it start. -/
def execRun (u : Nat) (p : Plan) (s : State) : Host.Outcome State Fault Refusal :=
  .next (match s.cmd? u with
    | none => s
    | some c =>
      if s.serving && c.phase == .fetched && c.opcode == opRun && canStart s c then
        let n := min 128 (field (peekAt s (c.p 8 8) 2) 0 2)
        let len := 64 + 16 * n
        match failing [ (wellOk s (c.p 0 8) 1, inParams c 0), (c.p 8 8 == 0 || typedOk s (c.p 8 8) len, inParams c 8)
                      , (c.p 24 8 == 0 || (typedOk s (c.p 24 8) 160 && s.dev.numValid), inParams c 24) ] with
        | d :: ds => refuse u (d :: ds) (startCmd u s)
        | [] =>
          if c.p 8 8 == 0 then runGroup u c p [] s
          else
            match typedAddr (c.p 8 8) with
            | none => s
            | some ad => withObject u ad len s (fun ab s => runGroup u c p ab s)
      else s)

end Sys2Proof.Machine
end

