-- ==== Sys2Proof/Machine/Records.lean ====
section
/-!
DEFINITION. Byte layouts that the host and saved images see: stream descriptors and loop records (Tables 5.3, 5.4), map
entries and sequence records (Tables 6.1, 6.2), random state records (Table 9.6), slot images (R264), region entries.
-/

namespace Sys2Proof.Machine

/-- Stream descriptor (Table 5.3). -/
def streamBytes (i : Nat) (x : Stream) : Block :=
  leBytes 2 i ++ leBytes 2 x.ctx ++ leBytes 1 x.state ++
  leBytes 1 (b2n x.parked + 2 * b2n x.markPending + 4 * b2n x.lateLast + 8 * b2n x.ended) ++
  leBytes 1 (x.lane.getD 0xFF) ++ leBytes 1 0 ++ leBytes 2 (x.loop.getD 0xFFFF) ++ leBytes 2 x.hopLen ++
  leBytes 2 x.frameBytes ++ leBytes 2 (x.binding.getD 0xFFFF) ++ leBytes 8 x.feedBase ++ leBytes 4 x.feedFrames ++
  leBytes 4 x.feedLimit.toNat ++ leBytes 6 x.sampleIndex ++ leBytes 2 0 ++ leBytes 6 x.nextBseq ++ leBytes 2 0 ++
  leBytes 6 x.markIndex ++ leBytes 2 0 ++ leBytes 6 x.lastMark ++ leBytes 2 0

/-- The descriptor of a free id. -/
def freeStreamBytes (i : Nat) : Block := leBytes 2 i ++ List.replicate 62 0

def laneMask (x : Loop) : Nat := x.lanes.foldl (fun n e => n ||| 2 ^ e.1) 0

/-- Loop record (Table 5.4). -/
def loopBytes (l : Nat) (x : Loop) : Block :=
  leBytes 2 l ++ leBytes 1 x.firstCore ++ leBytes 1 x.split ++ leBytes 1 x.lanesMax ++ leBytes 1 x.lanes.length ++
  leBytes 1 x.deadline ++ leBytes 1 (b2n x.freeRun + 2 * b2n x.committedHalf + 4 * b2n x.running) ++ leBytes 2 x.rate ++
  leBytes 2 x.blockLen ++ leBytes 2 x.stateBase ++ leBytes 2 x.stateRows ++ leBytes 8 x.blockIndex ++ leBytes 8 x.ticks ++
  leBytes 8 x.pacerInc.toNat ++ leBytes 4 (x.trim % 2 ^ 32).toNat ++ leBytes 4 0 ++ leBytes 8 (laneMask x) ++
  leBytes 8 x.parkMask.toNat

/-- A map entry read back. -/
def entryOf (b : Block) : MapEntry :=
  let v := field b 0 8
  { page := v % 2 ^ 22, seq := v / 2 ^ 22 % 2 ^ 16, block := v / 2 ^ 38 % 2 ^ 14, score := v / 2 ^ 52 % 2 ^ 10
    pin := bitOf v 62, ring := bitOf v 63 }

/-- CLOSING of Table 6.2: a KV_SEQ_CLOSE of the sequence by its own context is in flight. -/
def seqClosing (s : State) (q : Nat) (x : Seq) : Bool :=
  s.inflight.any (fun c => c.opcode == opKvSeqClose && c.ctx == x.ctx && c.p 0 2 == q)

/-- WAITING of Table 6.2: a command waits for pages of the sequence (R131). -/
def seqWaiting (s : State) (q : Nat) : Bool := s.inflight.any (fun c => c.phase == .kvWait && c.waitsOn == some q)

/-- Sequence record (Table 6.2). -/
def seqBytes (s : State) (q : Nat) (x : Seq) : Block :=
  leBytes 2 q ++ leBytes 2 x.ctx ++
  leBytes 1 (1 + 2 * b2n x.ring + 4 * b2n x.evict + 8 * b2n (seqWaiting s q) +
    16 * b2n (seqClosing s q x)) ++
  leBytes 1 x.logBlock ++ leBytes 1 x.layers ++ leBytes 1 x.pinRecent ++ leBytes 2 x.rowBytes ++ leBytes 1 x.scoreShift ++
  leBytes 1 0 ++ leBytes 2 x.scoreInit ++ leBytes 2 0 ++ leBytes 4 x.mapBase ++ leBytes 4 x.mapSpan ++
  leBytes 4 (liveCount s q x) ++ leBytes 4 x.evictions ++ leBytes 8 x.length ++ leBytes 4 x.window ++ leBytes 4 0

/-- A sequence record read back. -/
def seqOf (b : Block) : Seq :=
  let f := field b 4 1
  { ctx := field b 2 2 % 4096, ring := bitOf f 1, evict := bitOf f 2, logBlock := field b 5 1, layers := field b 6 1
    pinRecent := field b 7 1, rowBytes := field b 8 2, scoreShift := field b 0xA 1, scoreInit := field b 0xC 2
    mapBase := field b 0x10 4, mapSpan := field b 0x14 4, evictions := field b 0x1C 4, length := field b 0x20 8
    window := field b 0x28 4, homeDie := field b 0x10 4 / 2 ^ 19 }

/-- Random state record of a loop, or of no loop (Table 9.6). The positions are those of the last commit. -/
def rngRecord (x : Ctx) (l : Option (Nat × Loop)) : Block :=
  padTo 32 x.key ++ leBytes 1 (b2n x.element) ++ leBytes 1 64 ++
  (match l with
   | none => leBytes 2 0xFFFF ++ leBytes 1 0 ++ List.replicate 27 0
   | some (i, y) =>
     leBytes 2 i ++ leBytes 1 y.split ++ List.replicate 3 0 ++ leBytes 8 y.commitIndex ++ List.replicate 16 0 ++
     (List.range (y.split * 64)).flatMap (fun k => leBytes 8 (tget y.pos k 0)))

/-- Bytes of one entry row, lane 0 first. -/
def rowBytesOf (s : State) (g row : Nat) : Block := (accRead s g row 64).flatMap (leBytes 6)

/-- Slot image of a resident slot (R264 and the header after Table 12.4). -/
def slotImage (s : State) (g k : Nat) : Block :=
  let r := (s.core g).regions.getD k {}
  let hdr := leBytes 1 g ++ leBytes 1 k ++ leBytes 2 r.size ++ leBytes 1 r.accSize ++ List.replicate 59 0 ++
    (List.range 16).flatMap (fun n => leBytes 4 (floatGet s g (16 * k + n)).toNat)
  padTo 4096 hdr ++ mread s.cis (csAddr g (r.base * 8192)) (r.size * 8192) ++
  (List.range (r.accSize * 64)).flatMap (fun i => rowBytesOf s g (r.accBase * 64 + i))

/-- Values of accumulator rows from bytes, for rows of some lanes, in logical order (R290). -/
def valuesOf : Nat → Block → List Nat
  | 0, _ => []
  | n + 1, b => leNat (b.take 6) :: valuesOf n (b.drop 6)

/-- Puts a slot image into slot k of core g: region, accumulator share and floats (R281). -/
def loadImage (g k : Nat) (b : Block) (s : State) : State :=
  let r := (s.core g).regions.getD k {}
  let bytes := r.size * 8192
  let s := cisWrite (csAddr g (r.base * 8192)) ((b.drop 4096).take bytes) s
  let s := accWrite g (r.accBase * 64) (valuesOf (r.accSize * 4096) (b.drop (4096 + bytes))) s
  (List.range 16).foldl (fun s n => floatSet g (16 * k + n) (BitVec.ofNat 32 (field b (0x40 + 4 * n) 4)) s) s

/-- REGION field of Table 2.4. -/
def regionField (r : Region) : Nat :=
  r.base % 2 ^ 10 + r.size % 2 ^ 11 * 2 ^ 16 + r.owner % 2 ^ 12 * 2 ^ 28 + r.kind % 4 * 2 ^ 40 + b2n r.valid * 2 ^ 42 +
  b2n r.poisoned * 2 ^ 43 + r.accBase % 2 ^ 8 * 2 ^ 44 + r.accSize % 2 ^ 8 * 2 ^ 52

/-- Table 5.3 read back. -/
def streamOf (b : Block) : Stream :=
  let f := field b 5 1
  { ctx := field b 2 2 % 4096, state := field b 4 1, markPending := bitOf f 1, lateLast := bitOf f 2
    lane := if field b 6 1 == 0xFF then none else some (field b 6 1)
    loop := if field b 8 2 == 0xFFFF then none else some (field b 8 2), hopLen := field b 0xA 2
    frameBytes := field b 0xC 2, binding := if field b 0xE 2 == 0xFFFF then none else some (field b 0xE 2)
    feedBase := field b 0x10 8, feedFrames := field b 0x18 4, feedLimit := BitVec.ofNat 32 (field b 0x1C 4)
    sampleIndex := field b 0x20 6, nextBseq := field b 0x28 6, markIndex := field b 0x30 6, lastMark := field b 0x38 6 }

/-- Table 5.4 read back. -/
def loopOf (b : Block) : Loop :=
  let f := field b 7 1
  { firstCore := field b 2 1, split := field b 3 1, lanesMax := field b 4 1, deadline := field b 6 1, freeRun := bitOf f 0
    committedHalf := bitOf f 1, rate := field b 8 2, blockLen := field b 0xA 2, stateBase := field b 0xC 2 % 4096
    stateRows := field b 0xE 2, blockIndex := field b 0x10 8, ticks := field b 0x18 8
    parkMask := BitVec.ofNat 64 (field b 0x38 8), pacerInc := BitVec.ofNat 48 (field b 0x20 6), trim := sextN 32 (field b 0x28 4) }

end Sys2Proof.Machine
end

