-- ==== Sys2Proof/Machine/Local.lean ====
section
/-!
DEFINITION. What a plan reaches on its own core: its context region, its images and its accumulator share (R22, R23, R32,
R96, R421), the order of its steps (R15, R424), and the copies that precede a run or a block (R78, R79, R97, R196, R202).
-/

namespace Sys2Proof.Machine

-- ## The frame of a step

/-- A computation of a plan: it may end early, when its command has faulted. -/
abbrev Eng := OptionT (StateM State)

def Eng.run (x : Eng Unit) (s : State) : State := (StateT.run (OptionT.run x) s).2

def getS : Eng State := OptionT.mk (fun s => (some s, s))
def modS (f : State → State) : Eng Unit := OptionT.mk (fun s => (some (), f s))

/-- The command faults: its run ends with the status (R22, R23, R32, R421). -/
def stopWith {α : Type} (u status detail : Nat) : Eng α := OptionT.mk (fun s => (none, faultPlan u status detail s))

/-- Carries out an action for each element, in order. -/
def eachM {α : Type} (f : α → Eng Unit) : List α → Eng Unit
  | [] => pure ()
  | x :: xs => do
    f x
    eachM f xs

/-- Results of an action for each element, in order. -/
def mapEng {α β : Type} (f : α → Eng β) : List α → Eng (List β)
  | [] => pure []
  | x :: xs => do
    let y ← f x
    let ys ← mapEng f xs
    pure (y :: ys)

/-- What a step acts for: a command on a core, its slot there, the core's rank, and its plan. -/
structure At where
  u : Nat
  core : Nat
  slot : Nat
  rank : Nat
  cmd : Cmd
  plan : Plan
  deriving DecidableEq, Repr

/-- Loop of a standing STREAM_LOOP. -/
def loopOfCmd (s : State) (c : Cmd) : Option Loop :=
  if c.opcode == opStreamLoop then c.object.bind (tget? s.loops) else none

def loopOfAt (s : State) (a : At) : Option Loop := loopOfCmd s a.cmd

/-- Rank of a core of a command: its place in the group (R21). -/
def rankOfCore (s : State) (c : Cmd) (g : Nat) : Nat :=
  match loopOfCmd s c with
  | some x => g - x.firstCore
  | none => (c.cores.findIdx? (· == g)).getD 0

/-- A command on one of its cores. -/
def atCore (s : State) (c : Cmd) (p : Plan) (g : Nat) : Option At :=
  (slotOf s c.ctx g).map (fun k => { u := c.uid, core := g, slot := k, rank := rankOfCore s c g, cmd := c, plan := p })

/-- The command that runs on a core, with its slot and plan. -/
def at? (s : State) (g : Nat) : Option At :=
  match runningOn s g with
  | none => none
  | some c =>
    if (c.opcode == opRun && c.phase == .running && !c.stopping) || (c.opcode == opStreamLoop && c.phase == .accepted) then
      c.plan.bind (fun p => atCore s c p g)
    else none

-- ## Local access

/-- The region that an offset counts from: the context region, or that of an image that the header names (R421). -/
def regionFor (s : State) (a : At) (image : Option Nat) : Option Region :=
  match image with
  | none => (s.core a.core).regions[a.slot]?
  | some h => if a.plan.images.contains h then
      (imageRegion s h a.core).bind (fun i => (s.core a.core).regions[i]?)
    else none

/-- Cistern-space address of n bytes at an offset of a region that the plan may reach (R421). -/
def localAddr (s : State) (a : At) (image : Option Nat) (off n : Nat) : Option Nat :=
  match regionFor s a image with
  | some r => if off + n ≤ r.size * 8192 then some (csAddr a.core (r.base * 8192 + off)) else none
  | none => none

/-- Reads n bytes of a local region (R32, R421). -/
def load (a : At) (image : Option Nat) (off n : Nat) : Eng (List Byte) := do
  let s ← getS
  match localAddr s a image off n with
  | none => stopWith a.u stContextFault 0
  | some ad =>
    modS (meetCis ad n)
    let s ← getS
    if cisPoisoned s ad n then
      modS (fun s => s.perfAdd a.core 9 1)
      stopWith a.u stPoison a.core
    else pure (mread s.cis ad n)

/-- Writes bytes of the plan's own context region. -/
def store (a : At) (off : Nat) (bs : List Byte) : Eng Unit := do
  let s ← getS
  match localAddr s a none off bs.length with
  | none => stopWith a.u stContextFault 0
  | some ad => modS (cisWrite ad bs)

/-- First accumulator row of the plan's share and its rows. -/
def share (s : State) (a : At) : Nat × Nat :=
  let r := (s.core a.core).regions.getD a.slot {}
  (r.accBase * 64, r.accSize * 64)

/-- STATE_BASE, STATE_ROWS and COMMITTED_HALF of the plan's state area (R96). -/
def stateArea (s : State) (a : At) : Nat × Nat × Bool :=
  match loopOfAt s a with
  | some l => (l.stateBase, l.stateRows, l.committedHalf)
  | none =>
    (a.plan.stateBase, a.plan.stateRows,
      match s.ctx? a.cmd.ctx with | some x => x.carry.contains (a.plan.stateBase, a.plan.stateRows) | none => false)

/-- First rows of the committed and of the working half, within the share (R96). -/
def halves (s : State) (a : At) : Nat × Nat :=
  let (b, n, one) := stateArea s a
  if one then (b + n, b) else (b, b + n)

/-- The row that a plan's entry index names: every reference to the state area goes to its working half (R96; assumption
212). -/
def entryRow (s : State) (a : At) (row : Nat) : Nat :=
  let (b, n, _) := stateArea s a
  if b ≤ row && row < b + 2 * n then (halves s a).2 + (row - b) % n else row

/-- Keys of n values from a lane of a row on, row after row; none beyond the share (R23). `f` places a row. -/
def shareKeys (s : State) (a : At) (f : Nat → Nat) (row lane n : Nat) : Option (List Nat) :=
  let (base, rows) := share s a
  let at' := (List.range n).map (fun i => (f (row + (lane + i) / 64), (lane + i) % 64))
  if at'.all (fun e => e.1 < rows) then some (at'.map (fun e => accKey a.core (base + e.1) e.2)) else none

/-- Values under keys of the share (R22, R23). -/
def keysLoad (a : At) (keys : State → Option (List Nat)) : Eng (List Nat) := do
  let s ← getS
  match keys s with
  | none => stopWith a.u stContextFault 0
  | some ks =>
    modS (meetKeys ks)
    let s ← getS
    if keysPoisoned s ks then
      modS (fun s => s.perfAdd a.core 9 1)
      stopWith a.u stPoison a.core
    else pure (ks.map (fun k => (tget s.acc k 0).toNat))

def keysStore (a : At) (keys : State → Option (List Nat)) (vs : List Nat) : Eng Unit := do
  let s ← getS
  match keys s with
  | none => stopWith a.u stContextFault 0
  | some ks => modS (accPuts ks vs)

/-- n C48 values from a lane of an entry row on. -/
def accLoad (a : At) (row lane n : Nat) : Eng (List Nat) := keysLoad a (fun s => shareKeys s a (entryRow s a) row lane n)

def accStore (a : At) (row : Nat) (vs : List Nat) : Eng Unit :=
  keysStore a (fun s => shareKeys s a (entryRow s a) row 0 vs.length) vs

/-- Copies whole rows of the share as they lie. -/
def copyRows (a : At) (src dst n : Nat) : Eng Unit := do
  let vs ← keysLoad a (fun s => shareKeys s a id src 0 (64 * n))
  keysStore a (fun s => shareKeys s a id dst 0 (64 * n)) vs

-- ## The order of steps (R15, R424)

/-- The step that a rank carries out next. -/
def stepAt (s : State) (a : At) : Option PlanStep := (a.plan.steps.getD a.rank [])[(s.core a.core).pos]?

/-- Every rank of a plan has carried out its last step. -/
def atEnd (s : State) (p : Plan) (gs : List Nat) : Bool :=
  (gs.zip (List.range gs.length)).all (fun e => (p.steps.getD e.2 []).length ≤ (s.core e.1).pos)

/-- Token slot of a step of a loop. -/
def stepSlot : PlanStep → Option Nat
  | .matmul op => op.slot
  | .narrow op => some op.slot
  | .recur slot _ => slot
  | .gumbel op => some op.draw.slot
  | .frame op => some op.slot
  | _ => none

/-- A step of a lane that does not step in the block: it is passed over, and its state stays (R103). -/
def parkedStep (s : State) (a : At) (st : PlanStep) : Bool :=
  match loopOfAt s a, stepSlot st with
  | some l, some j => !(l.stepping.getD []).contains j
  | _, _ => false

def isPumpStep : PlanStep → Bool
  | .pump _ => true
  | .frame _ => true
  | _ => false

/-- Ends the pump phase: the port is idle (R309). -/
def Core.endPhase (c : Core) : Core := if c.wideHolder == 2 then { c with wideHolder := 0, phaseRows := 0 } else c

/-- The rank goes on to its next step. A pump phase ends where no pump step follows (R28, R309; assumption 211). -/
def advance (a : At) (s : State) : State :=
  let s := s.modCore a.core (fun c => { c with pos := c.pos + 1 })
  match stepAt s a with
  | some st => if isPumpStep st then s else s.modCore a.core Core.endPhase
  | none => s.modCore a.core Core.endPhase

/-- Wide-port owner while a step issues: the M-engine, or nobody; a pump step sees to its own phase (R28). -/
def holdPort (a : At) (st : PlanStep) (s : State) : State :=
  if isPumpStep st then s
  else s.modCore a.core (fun c => { c with wideHolder := if isMStep st then 1 else if c.wideHolder == 1 then 0 else c.wideHolder })

/-- Carries out the step that core g stands at, where it is one of the row's; the answer of `body` says whether the rank
goes on. Nothing happens where no plan runs on g or its step is another one (assumption 1). -/
def onStep {α : Type} (g : Nat) (s : State) (pick : PlanStep → Option α) (body : At → α → Eng Bool) : State :=
  match at? s g with
  | none => s
  | some a =>
    match stepAt s a with
    | none => s
    | some st =>
      match pick st with
      | none => s
      | some op =>
        if !s.serving then s
        else if parkedStep s a st then advance a s
        else Eng.run (do
          modS (holdPort a st)
          let on ← body a op
          if on then modS (advance a) else pure ()) s

/-- Cycles that a step's accesses lost to bank precedence, and reads that met writes (R30, R31, R36). -/
def countClash (g : Nat) (k : Clash) (s : State) : State :=
  let s := if 0 < k.own then coreErr g 6 s else s
  let s := if 0 < k.own + k.inbound then s.perfAdd g 3 (k.own + k.inbound) else s
  if 0 < k.sameRow then s.perfAdd g 6 k.sameRow else s

/-- Counts saturations of the command and, in a loop, of its block (R62, R92). -/
def saturate (a : At) (n : Nat) : Eng Unit :=
  modS (fun s =>
    if n == 0 then s
    else
      let s := countSat a.u n s
      match a.cmd.object with
      | some l => if a.cmd.opcode == opStreamLoop then
          s.modLoop l (fun x => { x with satBlock := satAdd 32 x.satBlock n }) else s
      | none => s)

-- ## Copies before a run, a block, and at a commit

/-- Token slots of a plan: LANES_MAX in a loop (R72). -/
def tokenSlots (s : State) (a : At) : Nat :=
  match loopOfAt s a with
  | some l => l.lanesMax
  | none => a.plan.tokens

/-- History blocks of a plan, by scale point and token slot (R77). -/
def historyOffs (s : State) (a : At) : List Nat :=
  ((a.plan.scalePoints.map scalePoint).filter (fun q => q.src == 0)).flatMap (fun q =>
    (List.range (tokenSlots s a)).map (fun j => q.histBase + 256 * j))

/-- Copies each committed history half to its working half; a FILL or HEAD out of range ends the command (R78, R79). -/
def historyIn (a : At) : Eng Unit := do
  let s ← getS
  eachM (fun o => do
    let h ← load a none o 128
    if 16 < field h 0x45 1 || 15 < field h 0x44 1 then stopWith a.u stBadParam inPlan
    else store a (o + 128) h) (historyOffs s a)

/-- Copies each working history half to its committed half, as a part of the commit (R79). -/
def historyOut (a : At) : Eng Unit := do
  let s ← getS
  eachM (fun o => do
    let h ← load a none (o + 128) 128
    store a o h) (historyOffs s a)

/-- Copies the committed half of the state area to the working half (R97). -/
def stateIn (a : At) : Eng Unit := do
  let s ← getS
  let (src, dst) := halves s a
  copyRows a src dst (stateArea s a).2.1

/-- The TEMP vector of the plan's context region: that of its first core (R202; assumption 908). -/
def tempsIn (a : At) : Eng (List W32) :=
  match a.plan.tempOff with
  | none => pure []
  | some off => do
    let b ← load a none off 256
    pure ((List.range 64).map (fun j => BitVec.ofNat 32 (field b (4 * j) 4)))

/-- The places of a command on its cores, in rank order. -/
def placesOf (s : State) (c : Cmd) (p : Plan) (gs : List Nat) : List At := gs.filterMap (atCore s c p)

end Sys2Proof.Machine
end

