-- ==== Sys2Proof/Machine/Sched.lean ====
section
/-!
DEFINITION. The scheduler: kills that run a command again (R44, R98), the order of service (R269, R270), placement (R265,
R271, R272), starts (R43, R47, R79, R334), share preemption (R277, R278), swaps (R279 to R281).
-/

namespace Sys2Proof.Machine

-- ## Kills that run a command again

/-- A block in progress is discarded: the loop runs it again from its first step (R98). -/
def killBlock (l cyc : Nat) (s : State) : State :=
  match tget? s.loops l with
  | none => s
  | some x =>
    if !x.running then s
    else
      let s := vacate x.cmd (chargeRun x.cmd cyc s)
      let s := x.lanes.foldl (fun s e => s.modStream e.2 (fun st => { st with staged := [], steps := 0 })) s
      let s := s.modCmd x.cmd (fun c => { c with rerunDue := true, sat := x.satTotal, timeouts := 0, parityFails := 0 })
      s.modLoop l (fun x => { x with
        running := false, stepsDone := 0, workPos := x.pos, workBlocks := x.blocks, satBlock := 0, rerunAsked := false })

/-- Kills the plan of a command on all its cores; it runs again (R44, R98). -/
def killRun (u cyc : Nat) (s : State) : State :=
  match s.cmd? u with
  | none => s
  | some c =>
    if c.opcode == opStreamLoop then (match c.object with | some l => killBlock l cyc s | none => s) else requeue u cyc s

/-- Counts a preemption kill on the page of a context and for the device (Tables 12.5, 12.6). -/
def countPreempt (cid : Nat) (s : State) : State :=
  (s.modStats cid (fun k => { k with preemptKills := ctrAdd k.preemptKills 1 })).modSched (fun d =>
    { d with preemptKills := ctrAdd d.preemptKills 1 })

/-- Core-cycles that a command has run in its current run. -/
def ranOf (ran : Ran) (u : Nat) : Nat := ((ran.find? (fun e => e.1 == u)).map Prod.snd).getD 0

-- ## Rings (R12, R391)

def ringClear (s : State) (a n : Nat) : Bool := (List.range (n + 1)).all (fun i => s.dieIn ((a + i) % 8))

/-- Ring hops between dies in service, by a way with no die out of service. -/
def ringHops (s : State) (a b : Nat) : Nat :=
  let up := (b + 8 - a) % 8
  let down := (a + 8 - b) % 8
  let u := if ringClear s a up then up else 8
  let d := if ringClear s b down then down else 8
  min u d

-- ## Room on a core (R26, R265, R47)

/-- The lowest free slot, region run and accumulator run for a context. -/
def slotRoom (x : Ctx) (c : Core) : Option (Nat × Nat × Nat) :=
  match (List.range 4).find? (fun k => !(c.regions.getD k {}).valid), lowestRun (granulesTaken c) x.cisGranules 1024,
      lowestRun (accTaken c) x.accUnits 64 with
  | some k, some b, some a => some (k, b, a)
  | _, _, _ => none

/-- A core after a context takes a slot. -/
def withSlot (cid : Nat) (x : Ctx) (c : Core) : Option (Nat × Core) :=
  (slotRoom x c).map (fun t =>
    let r : Region := { base := t.2.1, size := x.cisGranules, owner := cid, kind := 1, valid := true, accBase := t.2.2
                        accSize := x.accUnits }
    (t.1, { c with regions := c.regions.set t.1 r }))

/-- Share of an image on rank r, and whether the core holds it unpoisoned. -/
def imageHere (s : State) (h g : Nat) : Bool :=
  match imageRegion s h g with
  | some i => !((s.core g).regions.getD i {}).poisoned
  | none => false

/-- Regions for the images that a core must reload; none where one has no room (R47). -/
def withImages (s : State) (g r split : Nat) : List Nat → Core → Option Core
  | [], c => some c
  | h :: hs, c =>
    if imageHere s h g then withImages s g r split hs c
    else
      match imageRegion s h g with
      | some _ => withImages s g r split hs c
      | none =>
        match imageShare (tget s.images h {}).hdr split r with
        | none => none
        | some (_, len) =>
          match imageRoom c len with
          | none => none
          | some (i, b) =>
            let e : Region := { base := b, size := cdiv len 8192, owner := h, kind := 2, valid := true }
            withImages s g r split hs { c with regions := c.regions.set i e }

/-- A swapped-out slot image of the context whose home is the core. -/
def swappedAt (x : Ctx) (g : Nat) : Bool := x.swapped.any (fun i => i.home == some g)

/-- Whether a core can take a plan of a context on rank r: a slot is there or can be taken, and images fit. -/
def coreRoom (s : State) (cid : Nat) (x : Ctx) (p : Plan) (g r : Nat) : Bool :=
  let c := s.core g
  let withS := if (slotOf s cid g).isSome then some c
    else if swappedAt x g then none
    else (withSlot cid x c).map Prod.snd
  match withS with
  | none => false
  | some c => (withImages s g r p.split p.images c).isSome

-- ## Placement (R271, Table 12.3)

/-- Cores that a placed command has reserved. -/
def reserved (s : State) (g : Nat) : Bool := s.inflight.any (fun c => c.phase == .placed && c.cores.contains g)

/-- No siphon transfer of a plan that ran on a core is still on its way (R44). -/
def settled (s : State) (g : Nat) : Bool := s.siphon.all (fun x => x.core != some g)

/-- A core that no plan, pump or placed command holds, and that no tier-1 block waits for. -/
def coreFree (s : State) (g : Nat) : Bool :=
  s.dieIn (dieOfCore g) && (s.core g).running.isNone && !reserved s g && !tierOneWaits s g && settled s g

/-- A core of an admitted real-time loop (R272). -/
def loopCore (s : State) (g : Nat) : Bool := s.loops.any (fun e => rtLoop s e.2 && !e.2.dead && e.2.cores.contains g)

def groupCores (f split : Nat) : List Nat := (List.range split).map (f + ·)

/-- First cores that a plan may use. -/
def firstCores (p : Plan) : List Nat :=
  match p.firstCore with
  | some f => [f]
  | none => ((List.range 256).filter (fun f => f % max 1 p.split == 0))

/-- Slot images that take a home at a placement: those with none that no saved loop's rank claims (R289). -/
def homeless (x : Ctx) : Nat := (x.swapped.filter (fun i => i.home.isNone && i.rank.isNone)).length

/-- Tier of Table 12.3 of a group, or none where it does not qualify. -/
def tierOf (s : State) (free : Nat → Bool) (c : Cmd) (x : Ctx) (p : Plan) (f : Nat) : Option Nat :=
  let gs := groupCores f p.split
  let missing := (gs.filter (fun g => (slotOf s c.ctx g).isNone)).length
  if !(gs.all free) || ((groupOf s c.uid).isSome && gs.any (loopCore s)) then none
  else if x.maxSlots < slotCount s c.ctx x + (missing - homeless x) && 0 < missing then none
  else if !((gs.zip (List.range p.split)).all (fun e => coreRoom s c.ctx x p e.1 e.2)) then none
  else
    let imgs := gs.all (fun g => p.images.all (fun h => imageHere s h g))
    if missing == 0 then (if imgs then some 1 else some 3) else (if imgs then some 2 else some 4)

/-- Order within the tiers: hops in tier 4, then the ladder state of the cluster, then the index. -/
def rankOf (s : State) (p : Plan) (f tier : Nat) : Nat :=
  let hops := if tier == 4 then
      (match p.images.head? with
       | some h => ringHops s (wellOf (tget s.images h {}).wellAddr) (dieOfCore f)
       | none => 0)
    else 0
  ((tier * 16 + hops) * 8 + (s.dom (clusterOfCore f)).state) * 256 + f

/-- Where placement puts a plan, given which cores count as free. -/
def choose (s : State) (free : Nat → Bool) (c : Cmd) (p : Plan) : Option Nat :=
  match s.ctx? c.ctx with
  | none => none
  | some x =>
    ((firstCores p).filterMap (fun f => (tierOf s free c x p f).map (fun t => (rankOf s p f t, f)))).foldl
      (fun best e => match best with
        | none => some e
        | some b => if e.1 < b.1 then some e else some b) none |>.map Prod.snd

-- ## Readiness (R270, R284)

/-- Classes in the order of service: lowest VT, then lowest number. -/
def insertClass (s : State) (k : Nat) : List Nat → List Nat
  | [] => [k]
  | j :: js => if vtOf s k < vtOf s j then k :: j :: js else j :: insertClass s k js

def serviceOrder (s : State) : List Nat := s.sched.backlogged.foldl (fun ks k => insertClass s k ks) []

/-- Ready commands in the order they are served. -/
def serveList (s : State) : List Cmd :=
  (serviceOrder s).flatMap (fun k => s.inflight.filter (fun c => classOf s c.ctx == k && readyTier3 s c))

-- ## Pump-only commands

/-- Start checks of CTX_SAVE. -/
def saveChecks (s : State) (c : Cmd) : List Check :=
  [ (typedOk s (c.p 0 8) (c.p 8 8) && (match typedAddr (c.p 0 8) with | some d => !hitsMap d (c.p 8 8) | none => true), inParams c 0)
  , (match s.ctx? c.ctx with | some x => savedBytes s c.ctx x ≤ c.p 8 8 | none => false, inParams c 8) ]

/-- Start checks of WM_DETECT (R224). -/
def detectChecks (s : State) (c : Cmd) : List Check :=
  let bytes := if bitOf (c.p 12 1) 0 then 3 else 2
  [ (c.p 0 8 % 64 == 0 && wellOk s (c.p 0 8) (c.p 8 4 * bytes), inParams c 0)
  , (inR (c.p 8 4) 1 (2 ^ 24), inParams c 8)
  , (c.p 13 1 < 64 && (c.p 13 1 == 0 || thas s.wmKeys (c.p 13 1)), inParams c 13)
  , (inR (c.p 16 2) 16 4800, inParams c 16)
  , (c.p 18 2 < max 1 (c.p 16 2), inParams c 18)
  , (hostOk (c.p 48 8) 64, inParams c 48) ]

/-- Start checks of a pump-only command. -/
def pumpChecks (s : State) (c : Cmd) : List Check :=
  if c.opcode == opCopy || c.opcode == opFill then transferChecks s c
  else if c.opcode == opReside then resideChecks s c
  else if c.opcode == opCtxSave then saveChecks s c
  else if c.opcode == opWmDetect then detectChecks s c
  else []

/-- Cores whose pumps a command uses: RESIDE and SCRUB use those they act on. -/
def pumpCores (s : State) (c : Cmd) (g : Nat) : List Nat :=
  if c.opcode == opReside then groupCores (c.p 10 1) (c.p 11 1)
  else if c.opcode == opScrub then (if bitOf (c.p 0 1) 0 then coresOfCtx s c.ctx else [])
  else [g]

/-- Wakes what work on some cores needs (R327). -/
def wakeCores (cls : Nat) (gs : List Nat) (s : State) : State :=
  gs.foldl (fun s g => beginWake (uncoreOf (clusterOfCore g)) cls (beginWake (clusterOfCore g) cls s)) s

/-- Places a pump-only command: its charge is requested on each core. -/
def placePump (c : Cmd) (gs : List Nat) (s : State) : State :=
  let s := wakeCores 2 gs s
  let s := gs.foldl (fun s g => requestPump c.uid g 3 s) s
  s.modCmd c.uid (fun c => { c with phase := .placed, cores := gs })

/-- CTX_SAVE captures every running loop at its next commit (R288). -/
def saveStarts (c : Cmd) (s : State) : State :=
  if c.opcode != opCtxSave then s
  else { s with loops := tmap s.loops (fun _ x =>
    if x.ctx == c.ctx && !x.stopped && !x.dead then { x with saves := x.saves ++ [c.uid] } else x) }

/-- Cores whose own cisterns a pump-only command reads or writes through the wide port (R309). -/
def wideCores (s : State) (c : Cmd) : List Nat :=
  c.cores.filter (fun g =>
    let own := fun (v : Nat) => match typedAddr v with | some (.cis a) => csCore a == g | _ => false
    if c.opcode == opCopy then own (c.p 0 8) || own (c.p 8 8)
    else if c.opcode == opFill then own (c.p 0 8)
    else if c.opcode == opCtxSave then (slotOf s c.ctx g).isSome
    else c.opcode == opReside || c.opcode == opScrub)

/-- A placed pump-only command starts: its pumps hold the wide ports that they need (R21, R28). -/
def startPump (c : Cmd) (s : State) : State :=
  let wide := wideCores s c
  let s := occupy c.uid c.cores s
  let s := wide.foldl (fun s g => s.modCore g (fun k => { k with wideHolder := 2 })) s
  saveStarts c (startCmd c.uid (s.modCmd c.uid (fun c => { (runsAgain c) with phase := .running, inPlace := true })))

-- ## Starting a plan

/-- Takes the slot of a context on a core (R265): the slot's floats become 0, the region keeps its bytes. -/
def takeSlot (cid : Nat) (x : Ctx) (g : Nat) (s : State) : Option State :=
  if (slotOf s cid g).isSome then some s
  else (withSlot cid x (s.core g)).map (fun t =>
    { s with cores := tset s.cores g t.2, floats := s.floats.filter (fun e => !(e.1 / 16 == 4 * g + t.1)) })

/-- Takes the slots of a context on a group. -/
def takeSlots (cid : Nat) (x : Ctx) : List Nat → State → Option State
  | [], s => some s
  | g :: gs, s => (takeSlot cid x g s).bind (takeSlots cid x gs)

/-- How the preparation of a plan's cores ends. -/
inductive Prep where
  | done
  /-- no room for a slot or an image -/
  | noRoom
  /-- an image's well copy is poisoned -/
  | poison
  deriving DecidableEq, Repr

/-- Reloads an image on a core for command u: a pump phase of that core, charged to the command; its cycles are a free
value (R47, R309). -/
def reload (u h g r split : Nat) (s : State) : Prep × State :=
  if imageHere s h g then (.done, s)
  else
    let x := tget s.images h {}
    match imageShare x.hdr split r with
    | none => (.noRoom, s)
    | some (off, len) =>
      let own := (x.owners.find? (fun o => o.1 == g)).map Prod.snd
      let s := freeImageOn h g s
      if (imageRoom (s.core g) len).isNone then (.noRoom, s)
      else
        let (ok, s) := loadShare h g x.wellAddr off len s
        let (n, s) := freeCycles s
        let s := chargeRun u n (s.perfAdd g 2 (cdiv len 512))
        (if ok then .done else .poison, { s with images := tmod s.images h (fun x => match own with
          | some c => { x with owners := x.owners ++ [(g, c)] }
          | none => x) })

/-- The images of a plan on every core of its group (R47). -/
def reloadAll (u : Nat) (p : Plan) : List (Nat × Nat) → State → Prep × State
  | [], s => (.done, s)
  | (g, r) :: rest, s =>
    match p.images.foldl (fun (b : Prep × State) h =>
      if b.1 == .done then reload u h g r p.split b.2 else b) (.done, s) with
    | (.done, s) => reloadAll u p rest s
    | other => other

/-- Sets each armed float to 0 on every core of a plan (R43). -/
def armFloats (cid : Nat) (p : Plan) (gs : List Nat) (s : State) : State :=
  gs.foldl (fun s g => match slotOf s cid g with
    | some k => p.arms.foldl (fun s n => floatSet g (16 * k + n) 0 s) s
    | none => s) s

/-- A write to an armed float from an earlier command is still on its way (R43). -/
def armsBusy (s : State) (cid : Nat) (p : Plan) (gs : List Nat) : Bool :=
  gs.any (fun g => match slotOf s cid g with
    | some k => p.arms.any (fun n => s.siphon.any (fun x => x.inc != 0 && floatCore x.float.toNat == g &&
        floatPhys x.float.toNat == 16 * k + n))
    | none => false)

/-- VOICE_HASH of a stream's plan (R226). -/
def voiceOf (s : State) (p : Plan) : Block :=
  match p.images.head? with
  | some h => padTo 32 (tget s.images h {}).hash
  | none => List.replicate 32 0

/-- Claims the staging of a chunk (R284). -/
def claimStaging (c : Cmd) (s : State) : State :=
  let a := argsOf s c
  match a.chunk with
  | none => s
  | some (i, start, n) =>
    match chunkClaim s c i start n with
    | none => s
    | some (own, pool) => s.modStream i (fun st => { st with chunks := st.chunks ++
        [{ uid := c.uid, start := start, len := n, final := a.finalChunk, fromPool := pool, staged := own + pool
           voice := (c.plan.map (voiceOf s)).getD (List.replicate 32 0)
           mark := if st.markPending then some st.markIndex else none }] })

/-- The copies that precede a plan's first step on every core: histories, the state area (R79, R97; assumption 61). -/
def copiesIn (as : List At) : Eng Unit := do
  eachM historyIn as
  eachM stateIn as

/-- The first step of a plan: it occupies its cores, its positions are 0, histories and state are copied, temperatures
latched, floats armed (R21, R43, R79, R96, R134, R196, R202). -/
def launch (u : Nat) (s : State) : State :=
  match s.cmd? u with
  | none => s
  | some c =>
    match c.plan with
    | none => s
    | some p =>
      let lens := (argsOf s c).bindings.map (fun k => (k.seq, (tget s.seqs k.seq {}).length))
      let s := startCmd u ((occupy u c.cores s).modCmd u (fun c => { (runsAgain c) with
        phase := .running, sat := 0, attn := [], pos := [], temps := [], lengths := lens, emptyAttn := false, blocks := []
        cleared := [] }))
      match s.cmd? u with
      | none => s
      | some c =>
        let as := placesOf s c p c.cores
        Eng.run (do
          copiesIn as
          let temps ← (match as.head? with | some a => tempsIn a | none => pure [])
          modS (fun s => armFloats c.ctx p c.cores (s.modCmd u (fun c => { c with temps := temps })))) s

/-- Back to the wait for cores. -/
def unplace (u : Nat) (s : State) : State :=
  (freeCores u s).modCmd u (fun c => { c with phase := .ready, cores := [] })

/-- Checks that need the placement: pump descriptors and crop blocks (R186, R308). -/
def placedChecks (s : State) (c : Cmd) (p : Plan) : List Check :=
  (allSteps p).filterMap (fun st => match st with
    | .pump d => some (pumpEndsOk s c.ctx d, inPlan)
    | .crop op =>
      let k := cropBlk op.block
      some (wellMine s c.ctx k.table (8 * k.frames) && wellMine s c.ctx k.boxes (32 * k.count) &&
        cisMine s c.ctx k.outBase (k.count * k.outH * k.linePitch) && cisMine s c.ctx k.statusBase k.count &&
        (List.range k.frames).all (fun i => match wellAddr (mnat s.wellMem (k.table + 8 * i) 8) with
          | some a => wellMine s c.ctx a (k.h * k.pitch)
          | none => false) &&
        (List.range k.count).all (fun i => zeros (mread s.wellMem (k.boxes + 32 * i) 32) 0x12 14), inPlan)
    | _ => none)

/-- A placed plan whose charges are held starts, waits for its group, or waits for pages (R47, R129, R155, R334). A command
that waited for pages has them (R131). -/
def startPlan (c : Cmd) (p : Plan) (s : State) : State :=
  match s.ctx? c.ctx with
  | none => s
  | some x =>
    match takeSlots c.ctx x c.cores s with
    | none => unplace c.uid s
    | some t =>
      match failing (placedChecks t c p) with
      | d :: ds => refuse c.uid (d :: ds) (discardRun c.uid s)
      | [] =>
        match reloadAll c.uid p (c.cores.zip (List.range c.cores.length)) t with
        | (.noRoom, s) => unplace c.uid s
        | (.poison, s) => retire c.uid stPoison wellPoisonDetail (discardRun c.uid s)
        | (.done, s) =>
          if armsBusy s c.ctx p c.cores then s
          else if !stagingOk s c then unplace c.uid s
          else
            match groupOf s c.uid with
            | some gid => if (tget s.lat.groups gid {}).readySent then s else sendReady gid s
            | none =>
              withMap ((argsOf s c).bindings.map (fun k => k.seq)) s (fun s => poisonEnd c.uid (discardRun c.uid s)) (fun s =>
                if !c.secured.isEmpty then launch c.uid (claimStaging c s)
                else
                  match trySecure c.uid s with
                  | (some q, s) => kvRefused c.uid q ((freeCores c.uid s).modCmd c.uid (fun c => { c with cores := [] }))
                  | (none, s) => launch c.uid (claimStaging c s))

/-- The first placed command whose domains flow and whose stages are all held. -/
def startable (s : State) : Option Cmd :=
  s.inflight.find? (fun c => c.phase == .placed && c.cores.all (coreFlowing s) &&
    c.cores.all (fun g => (s.core g).running.isNone && settled s g) && !waiting (isStage c.uid) s &&
    (match c.plan with | some p => !armsBusy s c.ctx p c.cores | none => true) &&
    (match groupOf s c.uid with | some gid => !(tget s.lat.groups gid {}).readySent | none => true))

/-- Places a plan on a group: its domains wake and its stages are requested (R327, R334). -/
def placePlan (c : Cmd) (p : Plan) (f : Nat) (s : State) : State :=
  let gs := groupCores f p.split
  let s := wakeCores 2 gs s
  let s := gs.foldl (fun s g => requestStages (.stage c.uid g) g 2 (drawClassOf c p) p.pumpClass s) s
  s.modCmd c.uid (fun c => { c with phase := .placed, cores := gs })

/-- A slot image with no home takes one where its context's plan would be placed (R289). -/
def giveHomes (cid : Nat) (gs : List Nat) (s : State) : State :=
  (gs.filter (fun g => (slotOf s cid g).isNone)).foldl (fun s g => s.modCtx cid (fun x =>
    match x.swapped.findIdx? (fun i => i.home.isNone && i.rank.isNone) with
    | some n => { x with swapped := x.swapped.modify n (fun i => { i with home := some g }) }
    | none => x)) s

/-- Whether a context's plan on some cores would first bring home an image with none. -/
def wantsHome (s : State) (cid : Nat) (gs : List Nat) : Bool :=
  (match s.ctx? cid with | some x => 0 < homeless x | none => false) && gs.any (fun g => (slotOf s cid g).isNone)

/-- A plan whose fixed group has lost its die (R420). -/
def groupLost (s : State) (p : Plan) : Bool :=
  match p.firstCore with
  | some f => !s.dieIn (dieOfCore f)
  | none => false

/-- A ready command is served next where no earlier one in the order can be: it can be placed, its block can start, or it
ends at once. -/
def canPlace (s : State) (c : Cmd) : Bool :=
  if isPump c.opcode then
    !(failing (pumpChecks s c)).isEmpty ||
    (if c.opcode == opReside || c.opcode == opScrub then (pumpCores s c 0).all (coreFree s) else (List.range 256).any (coreFree s))
  else
    match c.plan with
    | none => false
    | some p =>
      if c.opcode == opStreamLoop then (c.cores.all (coreFree s))
      else groupLost s p || s.dev.dies == 0 || (choose s (coreFree s) c p).isSome

/-- The class of a command is the one served most recently (R270). -/
def served (c : Cmd) (s : State) : State := s.modSched (fun d => { d with lastClass := some (classOf s c.ctx) })

/-- Places the first command of the service order that can be placed (R270); where it is a loop's block, BLOCK_GATE starts
it. A plan whose fixed group lost its die meets R420; with no die in service a command that needs a core completes with
ST_DIE_LOST (R380). -/
def placeFirst (pumpCore : Nat) : List Cmd → State → State
  | [], s => s
  | c :: cs, s =>
    if isPump c.opcode then
      match failing (pumpChecks s c) with
      | d :: ds => refuse c.uid (d :: ds) (startCmd c.uid s)
      | [] =>
        let gs := pumpCores s c pumpCore
        if s.dev.dies == 0 && !gs.isEmpty then retireOnly c.uid stDieLost 0xFF (startCmd c.uid s)
        else if gs.all (coreFree s) then served c (placePump c gs s) else placeFirst pumpCore cs s
    else
      match c.plan with
      | none => placeFirst pumpCore cs s
      | some p =>
        if c.opcode == opStreamLoop then (if canPlace s c then s else placeFirst pumpCore cs s)
        else if groupLost s p then refuse c.uid [inPlan] (startCmd c.uid (releaseSecured c.uid s))
        else if s.dev.dies == 0 then retireOnly c.uid stDieLost 0xFF (startCmd c.uid (releaseSecured c.uid s))
        else
        match choose s (coreFree s) c p with
        | some f =>
          let gs := groupCores f p.split
          if wantsHome s c.ctx gs then giveHomes c.ctx gs s else served c (placePlan c p f s)
        | none => placeFirst pumpCore cs s

/-- DISPATCH: a placed command starts, or else the scheduler places one (R270, R271, R334). `pumpCore` is the core
whose pump a command without cores of its own uses. -/
def execDispatch (pumpCore : Nat) (s : State) : Host.Outcome State Fault Refusal :=
  .next (
    if !s.serving then s
    else
      match startable s with
      | some c =>
        if isPump c.opcode then startPump c s
        else match c.plan with | some p => startPlan c p s | none => s
      | none =>
        let s := enterBacklog s
        placeFirst pumpCore (serveList s) s)

-- ## Share preemption (R277, R278)

/-- A running tier-3 plan: a RUN, or the block of a loop that is neither real-time nor late (R269, R278; assumption
1222). -/
def runsTier3 (s : State) (c : Cmd) : Bool :=
  (c.opcode == opRun && c.phase == .running) ||
  (match loopOfCmd s c with | some x => x.running && !tierOne s x | none => false)

/-- A running tier-3 plan that may be killed for shares: it has run QUANTUM on its cores and was killed fewer than
PREEMPT_MAX times. -/
def mayPreempt (s : State) (ran : Ran) (c : Cmd) : Bool :=
  runsTier3 s c && s.sched.quantum != 0 && s.sched.quantum.toNat * c.cores.length ≤ ranOf ran c.uid &&
  c.preempts < s.sched.preemptMax.toNat

/-- A core counts as free for a plan of virtual time v: it is free, or a preemptible plan of a class with a higher VT
runs there. -/
def preemptFree (s : State) (ran : Ran) (v g : Nat) : Bool :=
  coreFree s g ||
  (s.dieIn (dieOfCore g) && !tierOneWaits s g && !reserved s g &&
    (match runningOn s g with
     | some d => mayPreempt s ran d && v < vtOf s (classOf s d.ctx)
     | none => false))

/-- Core-cycles that the plans on a group have run. -/
def groupRan (s : State) (ran : Ran) (gs : List Nat) : Nat :=
  ((gs.filterMap (fun g => (s.core g).running)).dedup).foldl (fun n u => n + ranOf ran u) 0

/-- The group that placement chooses for a plan, counting preemptible plans as free: of those of the best tier the one
whose plans have run the fewest cycles. -/
def preemptGroup (s : State) (ran : Ran) (d : Cmd) (x : Ctx) (p : Plan) : Option Nat :=
  let free := preemptFree s ran (vtOf s (classOf s d.ctx))
  let cands := (firstCores p).filterMap (fun f => (tierOf s free d x p f).map (fun t =>
    (t, groupRan s ran (groupCores f p.split), rankOf s p f t, f)))
  (cands.foldl (fun best e => match best with
    | none => some e
    | some b => if e.1 < b.1 || (e.1 == b.1 && (e.2.1 < b.2.1 || (e.2.1 == b.2.1 && e.2.2.1 < b.2.2.1))) then some e
                else some b) none).map (fun e => e.2.2.2)

/-- A ready plan of a class with lower VT than u's that no group of free cores can take, and that is placed over u's cores
once preemptible plans count as free. -/
def preemptor (s : State) (ran : Ran) (c : Cmd) : Bool :=
  s.inflight.any (fun d =>
    readyTier3 s d && vtOf s (classOf s d.ctx) < vtOf s (classOf s c.ctx) &&
    (match d.plan, s.ctx? d.ctx with
     | some p, some x =>
       (choose s (coreFree s) d p).isNone &&
       (match preemptGroup s ran d x p with
        | some f => (groupCores f p.split).any (fun g => (s.core g).running == some c.uid)
        | none => false)
     | _, _ => false))

/-- SHARE_PREEMPTION: a running plan is killed for shares and queued again; `ran` gives the core-cycles that the running
plans have run. -/
def execSharePreemption (u : Nat) (ran : Ran) (s : State) : Host.Outcome State Fault Refusal :=
  .next (match s.cmd? u with
    | none => s
    | some c =>
      let t := enterBacklog s
      if s.serving && mayPreempt s ran c && preemptor t ran c
      then
        (countPreempt c.ctx (killRun u (ranOf ran u) t)).modCmd u (fun c => { c with
          preempts := c.preempts + 1, timeouts := 0, parityFails := 0 })
      else s)

-- ## Swaps (R279 to R281)

/-- A waiting command that may need core g, by its plan or loop. -/
def wantsCore (c : Cmd) (g : Nat) : Bool :=
  match c.plan with
  | none => false
  | some p => c.phase == .ready && (firstCores p).any (fun f => (groupCores f p.split).contains g)

/-- A waiting command of a context needs its slot on g. -/
def needsSlot (s : State) (g cid : Nat) : Bool :=
  match s.ctx? cid with
  | none => false
  | some x =>
    (slotOf s cid g).isNone && (swappedAt x g || slotCount s cid x < x.maxSlots) &&
    s.inflight.any (fun c => c.ctx == cid && wantsCore c g &&
      (match c.plan with | some p => (choose s (coreFree s) c p).isNone | none => false))

/-- A context needs a slot on g that it cannot take under R265, for want of room (R279). -/
def isCandidate (s : State) (g cid : Nat) : Bool :=
  match s.ctx? cid with
  | none => false
  | some x => needsSlot s g cid && (slotRoom x (s.core g)).isNone

/-- A slot is idle: no plan of its context occupies g, and no ready command of it needs g (R279). -/
def slotIdle (s : State) (g cid : Nat) : Bool :=
  (s.core g).running.isNone && !reserved s g && s.inflight.all (fun c => !(c.ctx == cid && wantsCore c g))

/-- Lowest image index that a context does not use. -/
def freeImageIndex (x : Ctx) : Nat :=
  ((List.range 256).find? (fun n => x.swapped.all (fun i => i.index != n))).getD 0

/-- Reads a slot as its pump does: corrected, with the places in the image that poison reaches (R22, R32, R281, R302). -/
def readSlot (g k : Nat) (s : State) : Block × List (Nat × Nat) × State :=
  let r := (s.core g).regions.getD k {}
  let bytes := r.size * 8192
  let s := meetAcc g (r.accBase * 64) (r.accSize * 4096) (meetCis (csAddr g (r.base * 8192)) bytes s)
  let words := (poisonedParts s (.cis (csAddr g (r.base * 8192))) bytes).map (fun p => (4096 + p.1, p.2))
  let base := accKey g (r.accBase * 64) 0
  let values := ((List.range (r.accSize * 4096)).filter (fun i => s.accPoison.contains (base + i))).map (fun i =>
    (4096 + bytes + 6 * i, 6))
  (slotImage s g k, words ++ values, s)

/-- Saves a slot into the sump and releases it (R281); poison goes with it (R302; assumption 1208). -/
def swapSlot (g k cid : Nat) (x : Ctx) (s : State) : State :=
  let n := freeImageIndex x
  let a := x.sumpBase % 2 ^ 39 + n * x.imageBytes
  let (bytes, poison, s) := readSlot g k s
  let s := wellWrite a bytes s
  let s := poison.foldl (fun s p => wellPoisonRange (a + p.1) p.2 s) s
  let s := if x.scrubOnKill then zeroSlot g k s else s
  (freeRegion g k s).modCtx cid (fun x => { x with swapped := x.swapped ++
    [{ index := n, home := some g, srcCore := g, srcSlot := k }] })

/-- Counts a swap on the pages of some contexts. -/
def countSwap (out : Bool) (cids : List Nat) (bytes : Nat) (s : State) : State :=
  cids.dedup.foldl (fun s c => s.modStats c (fun k => { k with
    swapOuts := if out then ctrAdd k.swapOuts 1 else k.swapOuts
    swapIns := if out then k.swapIns else ctrAdd k.swapIns 1
    swapBytes := ctrAdd k.swapBytes bytes })) s

/-- Cycles of a swap in which the pump held the wide port: some of those it took (assumption 2). -/
def swapHeld (g cyc : Nat) (s : State) : State :=
  let (f, s) := takeFree s
  s.perfAdd g 2 (f % (cyc + 1))

/-- The unpinned slot of g that has been idle longest, the lowest among equals (R279). -/
def swapVictim (s : State) (g : Nat) (idle : List Nat) : Option (Nat × Nat) :=
  ((slotsOn s g).filter (fun e => !ctxPinnedOn s e.2 g)).foldl (fun best e => match best with
    | none => some e
    | some b => if idle.getD b.1 0 < idle.getD e.1 0 then some e else some b) none

/-- SWAP_OUT for candidate `cand` on core g: `idle` are the hub cycles for which each slot has been idle, `waited` those
for which the candidate has waited. The slot idle longest goes to the sump; where every slot of g is pinned the candidate
waits on and PIN_STARVE counts (R279 to R281). -/
def execSwapOut (g cand cyc : Nat) (idle : List Nat) (waited : Nat) (s : State) : Host.Outcome State Fault Refusal :=
  .next (
    let grace := s.sched.graceUs.toNat * 1000
    if !s.serving || !isCandidate s g cand || waited < grace ||
      !((slotsOn s g).all (fun e => slotIdle s g e.2 && grace ≤ idle.getD e.1 0)) then s
    else
      match swapVictim s g idle with
      | none =>
        if (slotsOn s g).isEmpty then s
        else (s.modStats cand (fun k => { k with pinStarve := ctrAdd k.pinStarve 1 })).modSched (fun d =>
          { d with pinStarve := ctrAdd d.pinStarve 1 })
      | some (k, cid) =>
        match s.ctx? cid with
        | none => s
        | some x =>
          if !coreFlowing s g || !settled s g then s
          else
            let s := swapHeld g cyc (ledgerCharge (classOf s cand) cyc (swapSlot g k cid x s))
            let s := s.modCore g (fun c => { c with swapFor := c.swapFor ++ [(cand, cid)] })
            (countSwap true [cid, cand] x.imageBytes s).modSched (fun d => { d with swapOuts := ctrAdd d.swapOuts 1 }))

/-- SWAP_IN: an image whose home is g comes back into a slot for a command that needs it (R279, R281). A poisoned granule
in it tears the context down (R302). An image of a stopped loop waits for the loop's resumption (R291). -/
def execSwapIn (g cid cyc : Nat) (s : State) : Host.Outcome State Fault Refusal :=
  .next (match s.ctx? cid with
    | none => s
    | some x =>
      match x.swapped.find? (fun i => i.home == some g && i.rank.isNone), withSlot cid x (s.core g) with
      | some i, some (k, c) =>
        if !s.serving || !needsSlot s g cid || !coreFlowing s g || !settled s g || (s.core g).running.isSome || x.faulted then s
        else
          let out := (c.swapFor.filter (fun e => e.1 == cid)).map Prod.snd
          let c := { c with regions := c.regions.modify k (fun r => { r with pinned := i.pinned })
                            swapFor := c.swapFor.filter (fun e => e.1 != cid) }
          let s := { s with cores := tset s.cores g c }
          let a := x.sumpBase % 2 ^ 39 + i.index * x.imageBytes
          let b := mread s.wellMem a x.imageBytes
          let s := meetWell a x.imageBytes s
          let bad := poisonedParts s (.well (a + 4096)) (x.cisGranules * 8192)
          let s := loadImage g k b s
          let s := spreadPoison (.cis (csAddr g ((c.regions.getD k {}).base * 8192))) bad s
          let torn := wellPoisoned s a x.imageBytes
          let s := s.modCtx cid (fun x => { x with swapped := x.swapped.filter (fun j => j.index != i.index) })
          let s := swapHeld g cyc (ledgerCharge x.shareClass cyc s)
          let s := countSwap false (cid :: out) x.imageBytes s
          if torn then teardown cid stPoison wellPoisonDetail s else s
      | _, _ => s)

end Sys2Proof.Machine
end

