-- ==== Sys2Proof/Machine/Engine.lean ====
section
/-!
DEFINITION. Engine steps of a running plan: rows of values (Table 4.3, R85), random draws (R190 to R200), narrowing and
scale points (R72 to R84), the M-engine (R66 to R70), recurrences (R93, R113), ARGMAX and the Gumbel draw (R185, R202).
-/

namespace Sys2Proof.Machine

-- ## Rows

/-- n little-endian values of k bytes. -/
def splitLE (k : Nat) : Nat → List Byte → List Nat
  | 0, _ => []
  | n + 1, b => leNat (b.take k) :: splitLE k n (b.drop k)

/-- Fraction bits of a row's format; A8 values are held exactly. -/
def srcFormat : RowSrc → Nat
  | .acc _ _ => c48
  | .fp32 _ => fp32
  | .bf16 _ => bf16
  | .a8 _ => 64
  | .a8block _ _ _ _ => 64

/-- First V-engine lane of a row. -/
def firstLane : RowSrc → Nat
  | .acc _ lane => lane % 64
  | _ => 0

/-- V-engine cycles of one pass over n values (Table 4.3). -/
def passCycles (src : RowSrc) (n : Nat) : Nat :=
  match src with
  | .acc _ _ => cdiv n 64
  | .fp32 _ => cdiv n 8
  | .bf16 _ => cdiv n 16
  | _ => cdiv n 32

/-- R85: TAG and TOKENS of a data block agree with those of its scale block, or the command ends with ST_SCALE_SKEW and
the context page records the mismatch, the core and the index of the step on it. -/
def tagCheck (a : At) (trailer scale : Nat) : Eng Unit := do
  let t ← load a none trailer 2
  let b ← load a none (scale + 0x140) 2
  if t == b then modS (fun s => s.modCore a.core (fun k => { k with checked := some (trailer, scale) }))
  else
    let d := field t 0 1
    let k := field b 0 1
    modS (fun s => s.modCtx a.cmd.ctx (fun x => { x with
      fault := d + k * 2 ^ 8 + a.core * 2 ^ 16 + (s.core a.core).pos % 2 ^ 16 * 2 ^ 24 + stScaleSkew * 2 ^ 40 }))
    stopWith a.u stScaleSkew (d + k * 2 ^ 8 + a.core * 2 ^ 16)

/-- s_a and zp of a token, as its scale block holds them (Table 4.5). -/
def tokenScale (a : At) (block token : Nat) : Eng (Nat × Nat) := do
  let sb ← load a none (block + 4 * token) 4
  let zb ← load a none (block + 0x100 + token) 1
  pure (field sb 0 4, field zb 0 1)

/-- The values of a row as they are stored (Table 4.3). -/
def rowRaw (a : At) (src : RowSrc) (n : Nat) : Eng (List Nat) :=
  match src with
  | .acc row lane => accLoad a row lane n
  | .fp32 off => do
    let b ← load a none off (4 * n)
    pure (splitLE 4 n b)
  | .bf16 off => do
    let b ← load a none off (2 * n)
    pure (splitLE 2 n b)
  | .a8 off => do
    let b ← load a none off n
    pure (splitLE 1 n b)
  | .a8block off _ _ _ => do
    let b ← load a none off n
    pure (splitLE 1 n b)

/-- The exact values of a row; a V-engine step that decodes A8 compares the tags first (R85). -/
def rowVals (a : At) (src : RowSrc) (n : Nat) : Eng (List Fl) :=
  match src with
  | .a8block _ scale token trailer => do
    tagCheck a trailer scale
    let vs ← rowRaw a src n
    let (sa, zp) ← tokenScale a scale token
    pure (vs.map (fun v => decA8 v (decF fp32 sa) zp))
  | .a8 _ => do
    let vs ← rowRaw a src n
    pure (vs.map (fun v => Fl.ofInt v))
  | _ => do
    let vs ← rowRaw a src n
    pure (vs.map (decF (srcFormat src)))

/-- A row's value in another wide format, and the saturations (R60, R70). -/
def rowConv (src : RowSrc) (dst : Nat) (x : Fl) : Nat × Nat :=
  if srcFormat src == dst then (encF dst x, 0)
  else
    match x with
    | .nan => (nanF dst, 1)
    | .inf s => (infF dst s, if dst < srcFormat src then 1 else 0)
    | x => clampF dst x

/-- Sum of the saturations of some results. -/
def satSum {α : Type} (xs : List (α × Nat)) : Nat := xs.foldl (fun n x => n + x.2) 0

-- ## Random bits

/-- The stream in a token slot of the plan's loop. -/
def slotStream (s : State) (a : At) (slot : Nat) : Option Nat := (loopOfAt s a).bind (fun l => tget? l.lanes slot)

/-- RNG_NONCE, or the STREAM_ID of the slot or of the chunk's stream (R195, R197). -/
def nonceOf (s : State) (a : At) (op : DrawOp) (element : Bool) : Nat :=
  match loopOfAt s a with
  | some _ => (slotStream s a op.slot).getD 0
  | none => if element then (match (argsOf s a.cmd).chunk with | some (i, _, _) => i | none => a.cmd.p 16 4) else a.cmd.p 16 4

/-- Bits P to P + n − 1 of a lane's stream (R195). -/
def laneDraw (key : Block) (nonce rank lane p n : Nat) : Nat :=
  let blk := fun B =>
    let ctr := rank * 2 ^ 54 + lane * 2 ^ 48 + B % 2 ^ 48
    blockNat (chacha8 (chachaInput key (ctr % 2 ^ 32) (ctr / 2 ^ 32) nonce 0))
  let p := p % 2 ^ 57
  let o := p % 512
  let lo := blk (p / 512) / 2 ^ o
  if o + n ≤ 512 then lo % 2 ^ n else (lo + blk ((p / 512 + 1) % 2 ^ 48) * 2 ^ (512 - o)) % 2 ^ n

/-- An n-bit draw of element e (R197). -/
def elementDraw (key : Block) (nonce tensor e n : Nat) : Nat :=
  let q := e / 16 % 2 ^ 60
  (chacha8 (chachaInput key (q % 2 ^ 32) (2 ^ 31 + q / 2 ^ 32) tensor nonce)).getD (e % 16) 0 % 2 ^ n

/-- The chunk that a RUN vocodes: its stream, first sample, and the mark it was started with (R110, R111). -/
def chunkOf (s : State) (a : At) : Option (Nat × Nat × Option Nat) :=
  (argsOf s a.cmd).chunk.map (fun k =>
    (k.1, k.2.1, ((tget s.streams k.1 {}).chunks.find? (fun (e : Chunk) => e.uid == a.u)).bind (fun e => e.mark)))

/-- Logical token index of a drawing step (R197). -/
def tokenIndex (s : State) (a : At) (op : DrawOp) : Nat :=
  match loopOfAt s a, chunkOf s a with
  | some _, _ =>
    let st := tget s.streams ((slotStream s a op.slot).getD 0) {}
    st.sampleIndex + st.steps - st.markBase
  | none, some (i, start, mark) =>
    let t := start + op.t
    let last := (tget s.streams i {}).lastMark
    t - (match mark with | some m => if m ≤ t then m else last | none => last)
  | none, none => op.t

/-- Lane positions in force: those of the run, or the loop's working positions (R195, R196). -/
def drawPos (s : State) (a : At) : Table Nat :=
  match loopOfAt s a with
  | some l => l.workPos
  | none => ((s.cmd? a.u).getD a.cmd).pos

def setDrawPos (a : At) (pos : Table Nat) (s : State) : State :=
  match loopOfAt s a, a.cmd.object with
  | some _, some l => s.modLoop l (fun x => { x with workPos := pos })
  | _, _ => s.modCmd a.u (fun c => { c with pos := pos })

/-- Draws n bits for each of `count` values of one row that begins in V-engine lane `col`, in column order. Every column
of the 64-lane rows that the values lie in draws (R194); `chan` counts the values of the token before the row's. -/
def draws (a : At) (op : DrawOp) (n col count chan : Nat) : Eng (List Nat) := do
  let s ← getS
  let x := (s.ctx? a.cmd.ctx).getD {}
  let key := match loopOfAt s a with | some l => l.key | none => x.key
  let nonce := nonceOf s a op x.element
  if x.element then
    let e := field op.desc 12 4 + field op.desc 8 4 * tokenIndex s a op + op.base + chan
    pure ((List.range count).map (fun c => elementDraw key nonce (field op.desc 0 4) ((e + c) % 2 ^ 64) n))
  else
    let pos := drawPos s a
    let column := field op.desc 4 1 == 1
    let laneOf := fun i => if column then i % 64 else op.slot % 64
    let rows := cdiv (col + count) 64
    let nth := fun i => if column then i / 64 else i
    let out := (List.range count).map (fun i =>
      laneDraw key nonce a.rank (laneOf (col + i)) (tget pos (a.rank * 64 + laneOf (col + i)) 0 + n * nth (col + i)) n)
    let lanes := if column then List.range 64 else [op.slot % 64]
    let each := if column then rows else 64 * rows
    modS (setDrawPos a (lanes.foldl (fun t l => tupd t (a.rank * 64 + l) 0 (fun p => (p + n * each) % 2 ^ 57)) pos))
    pure out

-- ## Scale points (R72 to R81)

/-- m(row) of R75: the largest finite magnitude, as FP32 without counting. -/
def rowMax (xs : List Fl) : Nat :=
  let best := xs.foldl (fun (m : Fl) x => if x.isFin && m.lt x.abs then x.abs else m) (.fin false 0 0)
  (clampF fp32 best).1

/-- A maximum that is negative, infinite or NaN reads as 0; a subnormal is zero (R58). -/
def cleanMax (v : Nat) : Nat :=
  match decF fp32 v with
  | .fin false 0 _ => 0
  | .fin false _ _ => v
  | _ => 0

/-- Largest of FP32 values that are not negative: their bits compare as numbers. -/
def maxBits (vs : List Nat) : Nat := vs.foldl (fun m v => max m (cleanMax v)) 0

/-- A history half as bytes: the n most recent entries (R77). -/
def recentMax (h : Block) (n : Nat) : List Nat :=
  (List.range n).map (fun i => field h (4 * ((field h 0x44 1 + 15 - i) % 16)) 4)

/-- The half after a push (R77). -/
def pushHistory (h : Block) (m sa : Nat) : Block :=
  let head := field h 0x44 1 % 16
  let h := splice h (4 * head) (leBytes 4 m)
  let h := splice h 0x40 (leBytes 4 sa)
  let h := splice h 0x44 (leBytes 1 ((head + 1) % 16))
  let h := splice h 0x45 (leBytes 1 (min 16 (field h 0x45 1 + 1)))
  splice h 0x48 (leBytes 4 (field h 0x48 4 + 1))

/-- Whether a scale needs the row's own maximum before the narrowing: ROW, and a HISTORY seed without calibration (R74,
R80); the widened run takes ROW at every point (R90). -/
def needsRow (cal : Nat) (q : ScalePoint) (widened : Bool) (hist : Block) : Bool :=
  widened || q.src == 1 || (q.src == 0 && min (field hist 0x45 1) q.h == 0 && cal == 0)

/-- s_a and zp of a token (R74). -/
def scaleFor (cal : Nat) (q : ScalePoint) (widened : Bool) (hist : Block) (row : Nat) : Nat × Nat :=
  let (zp, d) := if q.zpMode then (0, 255) else (128, 127)
  let n := min (field hist 0x45 1) q.h
  let m := if needsRow cal q widened hist then row
    else if q.src == 0 && n != 0 then maxBits (recentMax hist n) else cal
  (scaleOf m q.margin d, zp)

/-- Clears the working history of a token slot at every HISTORY point (R81). -/
def clearHistory (a : At) (slot : Nat) : Eng Unit :=
  eachM (fun q => do
    store a (q.histBase + 256 * slot + 128 + 0x44) [0, 0]
    store a (q.histBase + 256 * slot + 128 + 0x48) (leBytes 4 0)) ((a.plan.scalePoints.map scalePoint).filter (fun q => q.src == 0))

/-- In a chunk with a mark the slot's working history is cleared before the first token at or after the mark (R81). -/
def clearAtMark (a : At) (slot t : Nat) : Eng Unit := do
  let s ← getS
  match chunkOf s a with
  | some (_, start, some m) =>
    if start ≤ m && m ≤ start + t && !((s.cmd? a.u).getD a.cmd).cleared.contains slot then
      clearHistory a slot
      modS (fun s => s.modCmd a.u (fun c => { c with cleared := c.cleared ++ [slot] }))
    else pure ()
  | _ => pure ()

-- ## Narrowing

/-- Data blocks that the command, or the loop's block in progress, has emitted on a stream (R84). -/
def blocksOf (s : State) (a : At) : Table Nat :=
  match loopOfAt s a with
  | some l => l.workBlocks
  | none => ((s.cmd? a.u).getD a.cmd).blocks

/-- A data block is complete: TAG and TOKENS go into its trailer and its scale block, K into the trailer, reserved bytes
are 0 (R7, R83, R84). -/
def emitTags (a : At) (b : DataBlock) (scaleBlock k : Nat) : Eng Unit := do
  let s ← getS
  let n := tget (blocksOf s a) b.stream 0
  let base := ((argsOf s a.cmd).tagBase.getD b.stream 0).toNat
  let tag := leBytes 1 (base + n) ++ leBytes 1 b.tokens
  store a (scaleBlock + 0x140) tag
  store a (b.base + b.rows * 512 - 64) (tag ++ leBytes 2 k ++ List.replicate 60 0)
  modS (fun s => match loopOfAt s a, a.cmd.object with
    | some _, some l => s.modLoop l (fun x => { x with workBlocks := tset x.workBlocks b.stream (n + 1) })
    | _, _ => s.modCmd a.u (fun c => { c with blocks := tset c.blocks b.stream (n + 1) }))

/-- Stores the codes of a piece, with pads of the code that zero has; and its values in a line buffer as BF16, which are
counted as conversions (R168, R178). -/
def storePiece (a : At) (q : NarrowPiece) (out : Nat) (xs : List Fl) (codes pad : List Byte) : Eng Unit := do
  store a out (codes ++ pad)
  match q.keep with
  | some off => do
    let bs := xs.map (rowConv q.src bf16)
    saturate a (satSum bs)
    store a off (bs.flatMap (fun b => leBytes 2 b.1) ++ List.replicate (2 * q.pads) 0)
  | none => pure ()

/-- Codes two to a byte (R63). -/
def packNibbles (cs : List Nat) : List Byte :=
  (List.range (cdiv cs.length 2)).map (fun i => BitVec.ofNat 8 (cs.getD (2 * i) 0 + 16 * cs.getD (2 * i + 1) 0))

/-- Stores the pieces of a narrowing under a given group scale (R52, R54). -/
def narrowGiven (a : At) (enc : Fl → Nat × Nat) (pack : List Nat → List Byte) :
    List (NarrowPiece × List Fl) → Eng Unit
  | [] => pure ()
  | (q, xs) :: rest => do
    let cs := xs.map enc
    saturate a (satSum cs)
    let all := cs.map Prod.fst ++ List.replicate q.pads (enc (.fin false 0 0)).1
    storePiece a q q.out xs (pack all) []
    narrowGiven a enc pack rest

/-- Narrows the pieces of a token under its scale, at nearest or stochastically (R55, R56, R61). -/
def narrowPieces (a : At) (op : NarrowOp) (sa zp : Nat) : Nat → List (NarrowPiece × List Fl) → Eng Unit
  | _, [] => pure ()
  | done, (q, xs) :: rest => do
    let bits ← if op.srBits == 0 then pure [] else draws a op.draw op.srBits (firstLane q.src) q.width done
    let cs := ((List.range xs.length).zip xs).map (fun p => encA8 p.2 (decF fp32 sa) zp
      (if op.srBits == 0 then .nearest else .stochastic op.srBits (bits.getD p.1 0)))
    saturate a (satSum cs)
    let out := match op.block with
      | some b => b.base + op.token * narrowWidth op + done
      | none => q.out
    let pads := if op.block.isSome then [] else List.replicate q.pads (BitVec.ofNat 8 zp)
    storePiece a q out xs (cs.map (fun c => BitVec.ofNat 8 c.1)) pads
    narrowPieces a op sa zp (done + q.width) rest

/-- A token is narrowed at its scale point; its scale goes to the scale block, its maximum to the history (R72 to R84). -/
def narrowToken (a : At) (op : NarrowOp) (rows : List (NarrowPiece × List Fl)) : Eng Unit := do
  clearAtMark a op.slot op.draw.t
  let s ← getS
  let q := scalePoint (a.plan.scalePoints.getD op.point 0)
  let cal := cleanMax (((calTable s a.plan).getD q.cal 0).toNat)
  let hoff := q.histBase + 256 * op.slot + 128
  let hist ← if q.src == 0 then load a none hoff 128 else pure []
  let row := rowMax (rows.flatMap Prod.snd)
  let (sa, zp) := scaleFor cal q a.cmd.widened hist row
  narrowPieces a op sa zp 0 rows
  store a (op.scaleBlock + 4 * op.token) (leBytes 4 sa)
  store a (op.scaleBlock + 0x100 + op.token) (leBytes 1 zp)
  store a (op.scaleBlock + 0x142) (List.replicate 190 0)
  if q.src == 0 then store a hoff (pushHistory hist row sa)
  match op.block with
  | some b => if b.complete then emitTags a b op.scaleBlock (narrowWidth op) else pure ()
  | none => pure ()
  let pass := (op.pieces.map (fun p => passCycles p.src p.width)).foldl (· + ·) 0
  modS (fun s => s.perfAdd a.core 1 (pass + if needsRow cal q a.cmd.widened hist then pass + 10 else 0))

/-- A narrowing: at its scale point, or under a given group scale (R52, R54, R72). -/
def narrowStep (a : At) (op : NarrowOp) : Eng Unit := do
  let vals ← mapEng (fun q => rowVals a q.src q.width) op.pieces
  let rows := op.pieces.zip vals
  let given := modS (fun s => s.perfAdd a.core 1 ((op.pieces.map (fun p => passCycles p.src p.width)).foldl (· + ·) 0))
  match op.fmt with
  | .b4 sc => do
    narrowGiven a (fun x => encB4 x (decF bf16 sc.toNat)) packNibbles rows
    given
  | .w8 sc => do
    narrowGiven a (fun x => encW8 x (decF bf16 sc.toNat)) (fun cs => cs.map (BitVec.ofNat 8)) rows
    given
  | .a8 => narrowToken a op rows

def asNarrow : PlanStep → Option NarrowOp
  | .narrow op => some op
  | _ => none

/-- NARROW: one token is narrowed. -/
def execNarrow (core : Nat) (s : State) : Host.Outcome State Fault Refusal :=
  .next (onStep core s asNarrow (fun a op => do
    narrowStep a op
    pure true))

-- ## The M-engine

/-- K values per cycle (R68). -/
def sliceK : Pairing → Nat
  | .b4a8 => 128
  | .w8a8 => 64
  | .bf16 => 16

def groupSize (g : Nat) : Nat := 16 * 2 ^ g

/-- K values of a weight tile: a slice, or the group that two slices make up (Table 3.7). -/
def unitK (w : Weights) : Nat := if w.pair == .bf16 then 16 else max (sliceK w.pair) (groupSize w.gsize)

/-- Groups of one column in a tile. -/
def unitGroups (w : Weights) : Nat := if w.pair == .bf16 then 0 else unitK w / groupSize w.gsize

/-- Bytes of n codes: B4 two to a byte, W8 one, BF16 two bytes each (R63). -/
def codeBytes : Pairing → Nat → Nat
  | .b4a8, n => n / 2
  | .w8a8, n => n
  | .bf16, n => 2 * n

def splitCodes : Pairing → Nat → List Byte → List Nat
  | .b4a8, n, bs => (List.range n).map (fun i => (bs.getD (i / 2) 0).toNat / 16 ^ (i % 2) % 16)
  | .w8a8, n, bs => splitLE 1 n bs
  | .bf16, n, bs => splitLE 2 n bs

/-- n codes of each of the 64 columns of tile u, from code `first` on: the codes of a column's groups lie one after the
other in K order (R63). -/
def tileCodes (a : At) (w : Weights) (u first n : Nat) : Eng (List (List Nat)) :=
  mapEng (fun c => do
    let off := w.codeOff + (u * 64 + c) * codeBytes w.pair (unitK w) + codeBytes w.pair first
    let b ← load a w.image off (codeBytes w.pair n)
    pure (splitCodes w.pair n b)) (List.range 64)

/-- Values of a section of tile u, one for each group, column by column. -/
def tileSection (a : At) (w : Weights) (off bytes u : Nat) : Eng (List (List Nat)) := do
  let n := unitGroups w
  let b ← load a w.image (off + u * bytes * 64 * n) (bytes * 64 * n)
  pure ((List.range 64).map (fun c => (List.range n).map (fun j => field b (bytes * (c * n + j)) bytes)))

def tileScales (a : At) (w : Weights) (u : Nat) : Eng (List (List Nat)) := tileSection a w w.scaleOff 2 u

/-- The group sums of a tile; a step with ZP_ZERO reads none (R65). -/
def tileSums (a : At) (w : Weights) (u : Nat) : Eng (List (List Int)) := do
  if w.zpZero then pure []
  else
    let vs ← tileSection a w w.gsumOff 4 u
    pure (vs.map (fun c => c.map (sextN 32)))

/-- Integer levels of codes and the saturations of 0x80 (R51, R54). -/
def levelsOf (pair : Pairing) (codes : List Nat) : List Int × Nat :=
  match pair with
  | .b4a8 => (codes.map b4Level, 0)
  | _ => (codes.map (fun c => (w8Level c).1), codes.foldl (fun n c => n + (w8Level c).2) 0)

def dotInt (ws : List Int) (xs : List Nat) : Int := (List.zipWith (fun (w : Int) (x : Nat) => w * x) ws xs).foldl (· + ·) 0

/-- One BF16 cycle: 16 exact products and the entry, one rounding (R69). -/
def bfCycle (entry : Nat) (ws xs : List Nat) : Nat :=
  encF c48 (sumF (decF c48 entry) (List.zipWith (fun w x => (decF bf16 w).mul (decF bf16 x)) ws xs))

/-- Successive BF16 cycles of 16. -/
def bfCycles : Nat → Nat → List Nat → List Nat → Nat
  | 0, e, _, _ => e
  | n + 1, e, ws, xs => bfCycles n (bfCycle e (ws.take 16) (xs.take 16)) (ws.drop 16) (xs.drop 16)

/-- A weight code as BF16 under its group scale, and the saturations (R70). -/
def widenWeight (pair : Pairing) (scale code : Nat) : Nat × Nat :=
  match pair with
  | .b4a8 => (encF bf16 (((Fl.ofInt (b4Level code)).mul (decF bf16 scale)).mul (.fin false 1 (-11))), 0)
  | _ =>
    let (lv, sat) := w8Level code
    let (b, past) := clampF bf16 ((Fl.ofInt lv).mul (decF bf16 scale))
    (b, past + sat)

/-- The codes of a column from index `first` of its tile, as BF16. -/
def widenColumn (w : Weights) (first : Nat) (codes scales : List Nat) : List (Nat × Nat) :=
  if w.pair == .bf16 then codes.map (fun c => (c, 0))
  else ((List.range codes.length).zip codes).map (fun p =>
    widenWeight w.pair (scales.getD ((first + p.1) / groupSize w.gsize) 0) p.2)

/-- Group terms of one column added to its entry in K order (R66): levels, activation codes, scales and sums. -/
def addGroups (b4 zpZero : Bool) (zp : Nat) : List (List Int × List Nat × Nat × Int) → Nat → Nat
  | [], e => e
  | (ws, xs, sc, gs) :: rest, e =>
    let p := dotInt ws xs
    let v := if zpZero then p else p - (zp : Int) * gs
    let t := (Fl.ofInt v).mul (decF bf16 sc)
    let t := if b4 then t.mul (.fin false 1 (-11)) else t
    addGroups b4 zpZero zp rest (encF c48 ((decF c48 e).add t))

/-- A column's groups of one tile, in K order. -/
def columnGroups (w : Weights) (levels : List Int) (xs scales : List Nat) (sums : List Int) :
    List (List Int × List Nat × Nat × Int) :=
  let g := groupSize w.gsize
  (List.range (unitGroups w)).map (fun j =>
    ((levels.drop (j * g)).take g, (xs.drop (j * g)).take g, scales.getD j 0, sums.getD j 0))

/-- The slice in a narrow run: every column's groups are added to the entry row; W8 with G = 128 holds P_g across the two
slices of its tile (Table 3.7). A code of 0x80 counts each time that a token's slice uses it (assumption 304). -/
def narrowSlice (a : At) (op : MSlice) (entry : List Nat) : Eng (List Nat) := do
  let w := op.w
  let k := sliceK w.pair
  let split := k < unitK w
  let b ← load a none op.actOff k
  let acts := splitLE 1 k b
  let codes ← tileCodes a w 0 (if split && op.second then k else 0) k
  let cols := codes.map (levelsOf w.pair)
  saturate a (satSum cols)
  let s ← getS
  let held := (s.core a.core).heldSums
  let part := (List.range 64).map (fun c => dotInt ((cols.getD c ([], 0)).1) acts)
  if split && !op.second then
    modS (fun s => s.modCore a.core (fun x => { x with heldSums := part }))
    pure entry
  else
    let scales ← tileScales a w 0
    let sums ← tileSums a w 0
    let zb ← load a none (op.scaleBlock + 0x100 + op.token) 1
    let zp := field zb 0 1
    modS (fun s => s.modCore a.core (fun x => { x with heldSums := [] }))
    pure ((List.range 64).map (fun c =>
      let sc := scales.getD c []
      let gs := sums.getD c []
      addGroups (w.pair == .b4a8) w.zpZero zp
        (if split then [([part.getD c 0 + held.getD c 0], [1], sc.getD 0 0, gs.getD 0 0)]
         else columnGroups w ((cols.getD c ([], 0)).1) acts sc gs) (entry.getD c 0)))

/-- An A8 code decoded and rounded to BF16, and the saturations (R70, R90). -/
def decodeBf16 (sa zp code : Nat) : Nat × Nat := clampF bf16 (decA8 code (decF fp32 sa) zp)

/-- Activations of a slice as BF16: stored so, rounded from the wide region, or decoded from A8 codes (R89, R90). -/
def wideActs (a : At) (op : MSlice) (k : Nat) : Eng (List Nat) := do
  if op.w.pair == .bf16 then rowRaw a (.bf16 op.actOff) k
  else
    let ys ← (match op.wide with
      | some src => do
        let vs ← rowVals a src k
        pure (vs.map (rowConv src bf16))
      | none => do
        let b ← load a none op.actOff k
        let (sa, zp) ← tokenScale a op.scaleBlock op.token
        pure ((splitLE 1 k b).map (decodeBf16 sa zp)))
    saturate a (satSum ys)
    pure (ys.map Prod.fst)

/-- The slice in a widened run or of a BF16 layer (R69, R70). -/
def wideSlice (a : At) (op : MSlice) (entry : List Nat) : Eng (List Nat) := do
  let w := op.w
  let k := sliceK w.pair
  let first := if k < unitK w && op.second then k else 0
  let xs ← wideActs a op k
  let codes ← tileCodes a w 0 first k
  let scales ← if w.pair == .bf16 then pure [] else tileScales a w 0
  let cols := (List.range 64).map (fun c => widenColumn w first (codes.getD c []) (scales.getD c []))
  saturate a (cols.foldl (fun n c => n + satSum c) 0)
  pure ((List.range 64).map (fun c => bfCycles (k / 16) (entry.getD c 0) ((cols.getD c []).map Prod.fst) xs))

/-- The tag check of a slice: at the first that the core takes of a data block (R85). A8 codes that a widened run does not
decode are not consumed. -/
def sliceTags (a : At) (op : MSlice) : Eng Unit := do
  let s ← getS
  let a8 := op.w.pair != .bf16 && !(a.cmd.widened && op.wide.isSome)
  if a8 && (op.opens || (s.core a.core).checked != some (op.trailer, op.scaleBlock)) then
    tagCheck a op.trailer op.scaleBlock
  else pure ()

def asMatmul : PlanStep → Option MSlice
  | .matmul op => some op
  | _ => none

/-- MENGINE_SLICE: one token's K slice (R66 to R70). A product's first slice starts from +0. FINAL multiplies the entries
by s_a, and the output stage may narrow them (R67); a widened run's values carry their scale already. -/
def execMengineSlice (core : Nat) (clash : Clash) (s : State) : Host.Outcome State Fault Refusal :=
  .next (onStep core s asMatmul (fun a op => do
    modS (countClash core clash)
    sliceTags a op
    let entry ← if op.first then pure (List.replicate 64 0) else accLoad a op.entry 0 64
    let wide := op.w.pair == .bf16 || a.cmd.widened
    let out ← if wide then wideSlice a op entry else narrowSlice a op entry
    let sc ← (if op.final && !wide then tokenScale a op.scaleBlock op.token else pure (0, 0))
    let out := if op.final && !wide then out.map (fun e => encF c48 ((decF c48 e).mul (decF fp32 sc.1))) else out
    accStore a op.entry out
    match op.final, op.narrow with
    | true, some n => narrowStep a n
    | _, _ => pure ()
    modS (fun s => s.perfAdd a.core 0 (if wide then sliceK op.w.pair / 16 else 1))
    pure true))

-- ## Recurrences (R93, R113)

/-- Lane values of one section: coefficients, state, input; the exact output. -/
def recExact (kind : Nat) (co st : List Fl) (x : Fl) : Fl :=
  let c := fun i => co.getD i (.fin false 0 0)
  let z := fun i => st.getD i (.fin false 0 0)
  if kind == 0 then (z 0).add ((c 0).mul (x.sub (z 0)))
  else if kind == 1 then (((c 0).mul x).add ((c 1).mul (z 0))).add ((c 2).mul (z 1))
  else (((((c 0).mul x).add ((c 1).mul (z 0))).add ((c 2).mul (z 1))).add ((c 3).mul (z 2))).add ((c 4).mul (z 3))

/-- The exact residue as a C48 value; where it needs more than 40 significant bits the spec states no rounding, and it is
one of the two C48 values beside it (R113; Config.residueUp). -/
def residueOf (exact : Fl) (y : Nat) : Nat :=
  match exact.sub (decF c48 y) with
  | .fin s m e =>
    let len := if m == 0 then 0 else m.log2 + 1
    if len ≤ 40 then (packF c48 s m e).1
    else
      let k := len - 40
      let q := m / 2 ^ k
      (packF c48 s (if m % 2 ^ k != 0 && Config.residueUp m e then q + 1 else q) (e + k)).1
  | x => encF c48 x

/-- New state rows of one lane: (states, residue, output). -/
def recLane (kind : Nat) (ef : Bool) (co st : List Nat) (res x : Nat) : List Nat × Nat × Nat :=
  let exact := recExact kind (co.map (decF c48)) (st.map (decF c48)) (decF c48 x)
  let exact := if ef then exact.add (decF c48 res) else exact
  let y := encF c48 exact
  let st' := if kind == 0 then [y] else if kind == 1 then [x, y] else [x, st.getD 0 0, y, st.getD 2 0]
  (st', if ef then residueOf exact y else 0, y)

/-- Consecutive entry rows. -/
def rowsLoad (a : At) (row n : Nat) : Eng (List (List Nat)) := mapEng (fun i => accLoad a (row + i) 0 64) (List.range n)

def rowsStore (a : At) (row : Nat) (rs : List (List Nat)) : Eng Unit :=
  eachM (fun p => accStore a (row + p.1) p.2) ((List.range rs.length).zip rs)

/-- One native recurrence step of 64 sections; the state rows are an offset into the working half (R93, R96). -/
def recStepOf (a : At) (r : RecStep) : Eng Unit := do
  let s ← getS
  let w := (stateArea s a).1 + r.st
  let n := recStateRows r.kind false
  let co ← rowsLoad a r.coef (recCoefRows r.kind)
  let st ← rowsLoad a w n
  let res ← if r.ef then accLoad a (w + n) 0 64 else pure []
  let xs ← accLoad a r.inp 0 64
  let out := (List.range 64).map (fun i =>
    recLane r.kind r.ef (co.map (fun v => v.getD i 0)) (st.map (fun v => v.getD i 0)) (res.getD i 0) (xs.getD i 0))
  rowsStore a w ((List.range n).map (fun j => out.map (fun o => o.1.getD j 0)))
  if r.ef then accStore a (w + n) (out.map (fun o => o.2.1))
  accStore a r.out (out.map (fun o => o.2.2))
  modS (fun s => s.perfAdd a.core 1 ((if r.kind == 2 then 2 else 1) + b2n r.ef))

def asRecur : PlanStep → Option W64
  | .recur _ w => some w
  | _ => none

/-- REC: one native recurrence step of 64 sections. -/
def execRecStep (core : Nat) (s : State) : Host.Outcome State Fault Refusal :=
  .next (onStep core s asRecur (fun a w => do
    recStepOf a (recOf w)
    pure true))

-- ## Argmax, Gumbel, noise

/-- Bytes of a value in its own format. -/
def valueBytes (src : RowSrc) (v : Nat) : List Byte :=
  match src with
  | .acc _ _ => leBytes 6 v
  | .fp32 _ => leBytes 4 v
  | .bf16 _ => leBytes 2 v
  | _ => leBytes 1 v

def asArgmax : PlanStep → Option ArgmaxOp
  | .argmax op => some op
  | _ => none

/-- ARGMAX of one position (R185). -/
def execArgmax (core : Nat) (s : State) : Host.Outcome State Fault Refusal :=
  .next (onStep core s asArgmax (fun a op => do
    let xs ← rowVals a op.src op.channels
    let vs ← rowRaw a op.src op.channels
    let w := winner xs
    store a op.outOff (leBytes 2 w)
    match op.valueOff with
    | some off => store a off (valueBytes op.src (vs.getD w 0))
    | none => pure ()
    modS (fun s => s.perfAdd a.core 1 (cdiv op.channels 64 + 6))
    pure true))

/-- 1 in FP32. -/
def fp32One : Nat := 127 * 2 ^ 23

/-- A TEMP that counts one saturation: negative, infinite or NaN (R202). -/
def badTemp (temp : Nat) : Bool :=
  match decF fp32 temp with
  | .fin s m _ => s && m != 0
  | _ => true

/-- The latched TEMP vector of the run or block (R202). -/
def tempsOf (s : State) (a : At) : List W32 :=
  match loopOfAt s a with
  | some l => l.temps
  | none => ((s.cmd? a.u).getD a.cmd).temps

def asGumbel : PlanStep → Option GumbelOp
  | .gumbel op => some op
  | _ => none

/-- GUMBEL_ARGMAX of one token slot (R202). -/
def execGumbelArgmax (core : Nat) (s : State) : Host.Outcome State Fault Refusal :=
  .next (onStep core s asGumbel (fun a op => do
    let vs ← rowVals a op.src op.channels
    let s ← getS
    let xs := vs.map (rowConv op.src fp32)
    let temp := ((tempsOf s a).getD (op.draw.slot % 64) 0).toNat
    let ks ← draws a op.draw 24 (firstLane op.src) op.channels 0
    let inv := fp32Div fp32One temp
    let plain := badTemp temp || (decF fp32 temp).isZero
    let ys := List.zipWith (fun (x : Nat × Nat) k => if plain then x.1 else fp32Fma x.1 inv (noiseOf k)) xs ks
    saturate a (satSum xs + b2n (badTemp temp))
    store a op.outOff (leBytes 2 (winner (ys.map (decF fp32))))
    modS (fun s => s.perfAdd a.core 1 (cdiv op.channels 64))
    pure true))

def asNoise : PlanStep → Option (Nat × Nat)
  | .noise i o => some (i, o)
  | _ => none

/-- NOISE on one row: the low 24 bits of each lane give g, held as C48 (R200). -/
def execNoise (core : Nat) (s : State) : Host.Outcome State Fault Refusal :=
  .next (onStep core s asNoise (fun a op => do
    let vs ← accLoad a op.1 0 64
    accStore a op.2 (vs.map (fun v => (convF fp32 c48 (noiseOf (v % 2 ^ 24))).1))
    modS (fun s => s.perfAdd a.core 1 1)
    pure true))

end Sys2Proof.Machine
end

