-- ==== Sys2Proof/Machine/Conv.lean ====
section
/-!
DEFINITION. Convolution steps through the A-gen (R111, R167 to R184) and region crops (R186 to R188).
-/

namespace Sys2Proof.Machine

-- ## Taps

/-- Where a tap reads: a stored position, or a padded one that takes the zero value; none outside the window (R174,
R176). -/
inductive Tap where
  | real (h w : Nat)
  | zero
  | outside
  deriving DecidableEq, Repr

/-- Resolves one axis: position i against the valid range [lo, hi) (R174). -/
def padAxis (mode : Nat) (lo hi i : Int) : Option Int :=
  if lo ≤ i && i < hi then some i
  else
    let l := hi - lo
    let u := i - lo
    if mode == 0 then none
    else if mode == 1 then some (lo + min (max u 0) (l - 1))
    else if l == 1 then some lo
    else
      let t := 2 * l - 2
      let j := u % t
      some (lo + (if j < l then j else t - j))

/-- The valid range along W for an output position: the block's edges, and in a chunk the marks that lie between it and an
input position (R111, R173, R179). Marks are LAST_MARK and the mark that the chunk was started with. -/
def convEdges (s : State) (a : At) (k : ConvBlk) (op : ConvOp) : Int × Int :=
  match chunkOf s a with
  | none => (k.lo, k.hi)
  | some (i, start, mark) =>
    let out : Int := (start : Int) + op.outAt + ((op.outStep * op.wo : Nat) : Int)
    ((tget s.streams i {}).lastMark :: mark.toList).foldl (fun (e : Int × Int) m =>
      let edge : Int := -(((start : Int) + op.inAt - (m : Int)).fdiv ((max 1 op.inStep : Nat) : Int))
      if (m : Int) ≤ out then (max e.1 edge, e.2) else (e.1, min e.2 edge)) (k.lo, k.hi)

/-- Tap (kh, kw) of output (ho, wo) under a valid range along W (R173, R174, R176). -/
def tapOf (k : ConvBlk) (lo hi : Int) (ho wo kh kw : Nat) : Tap :=
  let ih : Int := (ho * k.sh + kh * k.dh : Nat) - (k.padT : Int)
  let iw : Int := (wo * k.sw + kw * k.dw : Nat) - (k.padL : Int)
  match padAxis k.padMode 0 k.hIn ih, padAxis k.padMode lo hi iw with
  | some h, some w => if 0 ≤ w && w < (k.wReg : Int) then .real h.toNat w.toNat else .outside
  | _, _ => .zero

def tapsOf (k : ConvBlk) : List (Nat × Nat) :=
  (List.range k.kh).flatMap (fun kh => (List.range k.kw).map (fun kw => (kh, kw)))

-- ## The K order (R169, R180, R181)

/-- First input channel that a tile's groups read, and how many, before padding: the groups that are really there. -/
def tileChans (k : ConvBlk) (tile : Nat) : Nat × Nat :=
  let gi := k.cIn / max 1 k.groups
  let go := max 1 (k.cOut / max 1 k.groups)
  if k.groups == 1 then (0, k.cIn)
  else if go < 64 then
    let first := 64 / go * tile
    (first * gi, gi * min (64 / go) (k.groups - first))
  else (64 * tile / go * gi, gi)

/-- C_T of R169. -/
def tileCt (k : ConvBlk) (tile : Nat) : Nat := cdiv (tileChans k tile).2 16 * 16

/-- Whether column j of a tile uses channel c of its K order: only its own group's (R180, R181). -/
def ownChannel (k : ConvBlk) (j c : Nat) : Bool :=
  let gi := max 1 (k.cIn / max 1 k.groups)
  let go := max 1 (k.cOut / max 1 k.groups)
  k.groups == 1 || 64 ≤ go || c / gi == j / go

/-- Offset of a regrouped input element from the base, in elements of e bytes (R167, R182). -/
def inOffset (k : ConvBlk) (e n c h w : Nat) : Nat :=
  let r := 2 ^ k.s2c
  let ch := k.inChans
  if k.s2c == 0 then elemOffset k.inLayout ch k.inRows e k.hIn n c h w
  else elemOffset k.inLayout ch k.inRows e k.hIn n (c % max 1 ch) h (w * r + c / max 1 ch)

/-- Whether the tensor stores a channel: pad channels of the last block too (R168). -/
def stored (k : ConvBlk) (c : Nat) : Bool :=
  if k.inLayout == 2 then c < k.cIn
  else c < cdiv k.cIn (blockChans k.inLayout k.inChans) * blockChans k.inLayout k.inChans

/-- One input element as the array takes it, an A8 code or BF16, and the saturations of its conversion (R70, R89, R90). A
wide region holds the elements in the same order (assumption 808). -/
def convElem (a : At) (k : ConvBlk) (op : ConvOp) (sa zp c h w : Nat) : Eng (Nat × Nat) := do
  if k.inBf then
    let b ← load a none (k.inBase + inOffset k 2 op.n c h w) 2
    pure (leNat b, 0)
  else
    let code := load a none (k.inBase + inOffset k 1 op.n c h w) 1
    if !a.cmd.widened then
      let b ← code
      pure (leNat b, 0)
    else
      let i := inOffset k 1 op.n c h w
      let one := fun (src : RowSrc) => do
        let xs ← rowVals a src 1
        pure (((xs.map (rowConv src bf16)).head?).getD (0, 0))
      match op.wide with
      | some (.acc row lane) => one (.acc row (lane + i))
      | some (.fp32 off) => one (.fp32 (off + 4 * i))
      | some (.bf16 off) => one (.bf16 (off + 2 * i))
      | _ => do
        let b ← code
        pure (decodeBf16 sa zp (leNat b))

/-- The elements of one tap in K order, each with whether it is real; a padded one holds the zero value (R168, R174, R175). -/
def tapElems (a : At) (k : ConvBlk) (op : ConvOp) (sa zp pad : Nat) (edges : Int × Int) (t : Nat × Nat) :
    Eng (List (Bool × Nat)) := do
  let (c0, cn) := tileChans k op.tile
  let ct := tileCt k op.tile
  match tapOf k edges.1 edges.2 op.ho op.wo t.1 t.2 with
  | .outside => stopWith a.u stContextFault 0
  | .zero => pure (List.replicate ct (false, pad))
  | .real h w => mapEng (fun c => do
      if c < cn || stored k (c0 + c) then
        let (v, sat) ← convElem a k op sa zp (c0 + c) h w
        saturate a sat
        pure (true, v)
      else pure (true, pad)) (List.range ct)

-- ## Products

/-- Slices of a tile that the M-engine issues: those with a real element whose weight is not 0 in some column (R175). -/
def issued (n k : Nat) (real : List Bool) (live : Nat → Bool) : Nat :=
  ((List.range n).filter (fun j => (List.range k).any (fun i => real.getD (j * k + i) false && live (j * k + i)))).length

/-- One weight tile on the entry row of an output position. A tile without a real element is not loaded; +0 is added as if
it had been issued (R175). A code of 0x80 counts each time that an output position uses it (assumption 304). -/
def convTile (a : At) (k : ConvBlk) (op : ConvOp) (zp : Nat) (entry : List Nat) (u : Nat) (es : List (Bool × Nat)) :
    Eng (List Nat) := do
  let w := op.w
  let n := unitK w
  let ct := tileCt k op.tile
  let real := es.map Prod.fst
  let xs := es.map Prod.snd
  let own := fun (j i : Nat) => ownChannel k j ((u * n + i) % max 1 ct)
  if !real.any id then pure (entry.map (fun e => c48Add e 0))
  else
    let codes ← tileCodes a w u 0 n
    let scales ← if w.pair == .bf16 then pure [] else tileScales a w u
    if w.pair == .bf16 || a.cmd.widened then
      let cols := (List.range 64).map (fun j => widenColumn w 0 (codes.getD j []) (scales.getD j []))
      saturate a (cols.foldl (fun m c => m + satSum c) 0)
      let weight := fun (j i : Nat) => if real.getD i false && own j i then ((cols.getD j []).getD i (0, 0)).1 else 0
      let live := fun i => (List.range 64).any (fun j => weight j i % 2 ^ 15 != 0)
      modS (fun s => s.perfAdd a.core 0 (issued (n / 16) 16 real live))
      pure ((List.range 64).map (fun j => bfCycles (n / 16) (entry.getD j 0) ((List.range n).map (weight j))
        (((List.range n).zip xs).map (fun p => if own j p.1 then p.2 else 0))))
    else
      let sums ← tileSums a w u
      let cols := codes.map (levelsOf w.pair)
      saturate a (satSum cols)
      let level := fun (j i : Nat) => if own j i then ((cols.getD j ([], 0)).1).getD i 0 else 0
      let live := fun i => (List.range 64).any (fun j => level j i != 0)
      modS (fun s => s.perfAdd a.core 0 (issued (n / sliceK w.pair) (sliceK w.pair) real live))
      pure ((List.range 64).map (fun j =>
        addGroups (w.pair == .b4a8) w.zpZero zp
          (columnGroups w ((List.range n).map (level j)) xs (scales.getD j []) (sums.getD j [])) (entry.getD j 0)))

/-- The tiles of a column tile in K order. -/
def convTiles (a : At) (k : ConvBlk) (op : ConvOp) (zp pad : Nat) (es : List (Bool × Nat)) : List Nat → List Nat → Eng (List Nat)
  | [], entry => pure entry
  | u :: us, entry => do
    let n := unitK op.w
    let mine := (es.drop (u * n)).take n
    let out ← convTile a k op zp entry u (mine ++ List.replicate (n - mine.length) (false, pad))
    convTiles a k op zp pad es us out

/-- The 64 outputs of one position and column tile, added to their entry row in K order (R169, R175, R177). Where a product
reads several lines, each with a scale token of its own, the model applies the one that the step names: DESIGN CHOICE,
R66 applies one s_a and R177 does not say which (assumption 807). -/
def convOut (a : At) (k : ConvBlk) (op : ConvOp) (entry : List Nat) : Eng (List Nat) := do
  let sc ← (if k.inBf then pure (0, 0) else tokenScale a op.scaleBlock op.token)
  let narrow := !k.inBf && !a.cmd.widened
  let pad := if narrow then sc.2 else 0
  let s ← getS
  let taps ← mapEng (tapElems a k op sc.1 sc.2 pad (convEdges s a k op)) (tapsOf k)
  let es := taps.flatten
  let out ← convTiles a k op sc.2 pad es (List.range (cdiv es.length (unitK op.w))) entry
  pure (if narrow then out.map (fun e => encF c48 ((decF c48 e).mul (decF fp32 sc.1))) else out)

-- ## The output stage

/-- Channels that a line of the output holds: pad channels of the last block too (R168). -/
def ConvBlk.outStored (k : ConvBlk) : Nat :=
  if k.outLayout == 2 then k.cOut else cdiv k.cOut (blockChans k.outLayout k.cOut) * blockChans k.outLayout k.cOut

/-- Offset of output channel c of an output position; C2T spreads channels over positions (R167, R184). -/
def ConvBlk.outOffset (k : ConvBlk) (n c ho wo : Nat) : Nat :=
  let ch := if k.outLayout == 2 then max 1 k.outChans else k.outStored
  k.outBase + elemOffset k.outLayout ch k.outRows (elemBytes k.outBf) k.hOut.toNat n (c % ch) ho (wo * 2 ^ k.c2t + c / ch)

/-- The BF16 elements that a position's tile stores: offset, value and saturations; pad channels are +0 (R60, R168). -/
def convCells (k : ConvBlk) (op : ConvOp) (vs : List Nat) : List (Nat × Nat × Nat) :=
  ((List.range 64).filter (fun i => 64 * op.tile + i < k.outStored)).map (fun i =>
    let c := 64 * op.tile + i
    (k.outOffset op.n c op.ho op.wo, if c < k.cOut then convF c48 bf16 (vs.getD i 0) else (0, 0)))

def asConv : PlanStep → Option ConvOp
  | .conv op => some op
  | _ => none

/-- CONV_STEP: one output position and column tile (R169, R175, R177), stored in the output tensor where the position is
finished (R167, R168, R184). -/
def execConvStep (core : Nat) (clash : Clash) (s : State) : Host.Outcome State Fault Refusal :=
  .next (onStep core s asConv (fun a op => do
    modS (countClash core clash)
    let k := convBlk op.block
    let entry ← if op.first then pure (List.replicate 64 0) else accLoad a op.entry 0 64
    let vs ← convOut a k op entry
    accStore a op.entry vs
    if op.store then
      let cells := convCells k op vs
      saturate a (cells.foldl (fun n c => n + c.2.2) 0)
      eachM (fun (c : Nat × Nat × Nat) => store a c.1 (leBytes 2 c.2.1)) cells
    pure true))

-- ## Crops

/-- Reads n bytes of well space for the plan; poison ends it (R302), and so does a well whose die is out of service (R19,
R420). -/
def wellLoad (a : At) (ad n : Nat) : Eng (List Byte) := do
  let s ← getS
  if !addrOk s (.well ad) n then stopWith a.u stBadParam inPlan
  else
  let (got, s') := readAt (.well ad) n s
  modS (fun _ => s')
  match got with
  | .bytes b => pure b
  | _ => stopWith a.u stPoison wellPoisonDetail

/-- Writes cistern space for the plan; a discarded write faults it (R27). -/
def csStore (a : At) (ad : Nat) (bs : List Byte) : Eng Unit := do
  let s ← getS
  let (ok, s') := writeAt (.cis ad) bs s
  modS (fun _ => s')
  if ok then pure () else stopWith a.u stContextFault 0

def fp32Sub (x y : Nat) : Nat := encF fp32 ((decF fp32 x).sub (decF fp32 y))
def fp32OfNat (n : Nat) : Nat := encF fp32 (Fl.ofInt n)

/-- Sampling position of output index i along one axis (R187). -/
def samplePos (lo hi size out i : Nat) : Nat :=
  if 1 < out then
    let step := fp32Div (fp32Mul (fp32Sub hi lo) (fp32OfNat (size - 1))) (fp32OfNat (out - 1))
    fp32Add (fp32Mul lo (fp32OfNat (size - 1))) (fp32Mul (fp32OfNat i) step)
  else fp32Mul (fp32Mul (fp32Add lo hi) (126 * 2 ^ 23)) (fp32OfNat (size - 1))

/-- Whether a position lies before 0 or after size − 1. -/
def beyond (p size : Nat) : Bool :=
  (decF fp32 p).lt (Fl.ofInt 0) || (Fl.ofInt ((size - 1 : Nat) : Int)).lt (decF fp32 p)

/-- floor of a position that is not negative, and the exact fraction as FP32. -/
def floorFrac (p : Nat) : Nat × Nat :=
  match decF fp32 p with
  | .fin _ m e =>
    let f := if 0 ≤ e then m <<< e.toNat else m / 2 ^ (-e).toNat
    (f, fp32Sub p (fp32OfNat f))
  | _ => (0, 0)

/-- A box record's coordinates. -/
structure Box where
  y1 : Nat
  x1 : Nat
  y2 : Nat
  x2 : Nat
  frame : Nat
  deriving DecidableEq, Repr

def boxOf (b : Block) : Box :=
  { y1 := field b 0 4, x1 := field b 4 4, y2 := field b 8 4, x2 := field b 12 4, frame := field b 16 2 }

/-- R188's INVALID and ZERO_AREA. -/
def Box.invalid (x : Box) (frames : Nat) : Bool :=
  frames ≤ x.frame || [x.y1, x.x1, x.y2, x.x2].any (fun v => !(decF fp32 v).isFin)

/-- Equal FP32 values; a NaN equals nothing. -/
def sameF (x y : Nat) : Bool :=
  decF fp32 x != .nan && decF fp32 y != .nan && !(decF fp32 x).lt (decF fp32 y) && !(decF fp32 y).lt (decF fp32 x)

def Box.zeroArea (x : Box) : Bool := sameF x.y1 x.y2 || sameF x.x1 x.x2

/-- A pixel's channel as FP32; a BF16 NaN counts as a conversion (R60). -/
def pixel (a : At) (k : CropBlk) (frame y x c : Nat) : Eng Nat := do
  let e := elemBytes k.bf
  let b ← wellLoad a (frame + y * k.pitch + (x * k.c + c) * e) e
  if k.bf then
    let v := convF bf16 fp32 (leNat b)
    saturate a v.2
    pure v.1
  else pure (fp32OfNat (leNat b))

/-- An FP32 value that the spec leaves open. -/
def freeFp32 : Eng Nat := do
  let s ← getS
  let (f, s') := takeFree s
  modS (fun _ => s')
  pure (f % 2 ^ 32)

/-- One output sample of one channel, and whether it took EXTRAP (R187). A position that overflows to a NaN has no stated
floor: its sample is free. -/
def cropSample (a : At) (k : CropBlk) (x : Box) (frame i j c : Nat) : Eng (Nat × Bool) := do
  let y := samplePos x.y1 x.y2 k.h k.outH i
  let w := samplePos x.x1 x.x2 k.w k.outW j
  if beyond y k.h || beyond w k.w then pure (k.extrap, true)
  else if !((decF fp32 y).isFin && (decF fp32 w).isFin) then do
    let v ← freeFp32
    pure (v, false)
  else do
    let (ya, fy) := floorFrac y
    let (xa, fx) := floorFrac w
    let yb := min (ya + 1) (k.h - 1)
    let xb := min (xa + 1) (k.w - 1)
    let p00 ← pixel a k frame ya xa c
    let p01 ← pixel a k frame ya xb c
    let p10 ← pixel a k frame yb xa c
    let p11 ← pixel a k frame yb xb c
    let top := fp32Fma fx (fp32Sub p01 p00) p00
    let bot := fp32Fma fx (fp32Sub p11 p10) p10
    pure (fp32Fma fy (fp32Sub bot top) top, false)

/-- The channels of one output position: real ones, then pads of +0; saturations and whether EXTRAP was taken. -/
def cropPoint (a : At) (k : CropBlk) (x : Box) (frame : Nat) (fill : Bool) (i j : Nat) : Eng (List Byte × Nat × Bool) := do
  let vs ← (List.range k.c).mapM (fun c => if fill then pure (k.extrap, false) else cropSample a k x frame i j c)
  let bs := vs.map (fun v => convF fp32 bf16 v.1)
  let out := bs.flatMap (fun b => leBytes 2 b.1) ++ List.replicate (2 * (cropChans k.c - k.c)) 0
  pure (out, bs.foldl (fun n b => n + b.2) 0, vs.any (fun v => v.2))

/-- The lines of a box. -/
def cropLines (a : At) (k : CropBlk) (x : Box) (frame b : Nat) (fill : Bool) : List Nat → Eng (Nat × Bool)
  | [] => pure (0, false)
  | i :: is => do
    let ps ← (List.range k.outW).mapM (cropPoint a k x frame fill i)
    csStore a (k.outBase + (b * k.outH + i) * k.linePitch) (ps.flatMap (fun p => p.1))
    let (n, o) ← cropLines a k x frame b fill is
    pure (n + ps.foldl (fun n p => n + p.2.1) 0, o || ps.any (fun p => p.2.2))

def asCrop : PlanStep → Option CropOp
  | .crop op => some op
  | _ => none

/-- CROP_STEP: one box, with its status byte (R187, R188). -/
def execCropStep (core : Nat) (s : State) : Host.Outcome State Fault Refusal :=
  .next (onStep core s asCrop (fun a op => do
    let k := cropBlk op.block
    if k.count ≤ op.box then pure true
    else
      let bb ← wellLoad a (k.boxes + 32 * op.box) 32
      let x := boxOf bb
      let bad := x.invalid k.frames
      let flat := x.zeroArea
      let ft ← if bad then pure [] else wellLoad a (k.table + 8 * x.frame) 8
      let (sat, out) ← cropLines a k x (field ft 0 8 % 2 ^ 39) op.box (bad || flat) (List.range k.outH)
      saturate a sat
      csStore a (k.statusBase + op.box) (leBytes 1 (b2n flat + 2 * b2n out + 4 * b2n bad))
      modS (fun s => s.perfAdd a.core 1 (6 * cdiv (k.outH * k.outW * cropChans k.c) 64))
      pure true))

end Sys2Proof.Machine
end

