-- ==== Sys2Proof/Machine/Attention.lean ====
section
/-!
DEFINITION. The attention kernel (R134 to R139), also over the shards of a lateral group (R158 to R161), and the scores
of R127.
-/

namespace Sys2Proof.Machine

/-- log2 e rounded to nearest C48 (R136). -/
def log2eC48 : Nat := 0x3FB8AA3B295C

-- ## Blocks

/-- A block that a row visits (R135). -/
inductive BlockSrc where
  /-- live entry of the page map, with the block's index in the sequence -/
  | page (entry block : Nat)
  /-- rows of the command's staging in a block -/
  | staged (block : Nat)
  deriving DecidableEq, Repr

/-- LENGTH of a sequence when the command started. -/
def lengthAt (c : Cmd) (q : Nat) : Nat := ((c.lengths.find? (fun e => e.1 == q)).map Prod.snd).getD 0

/-- Readable blocks of a ring, rising (R123). -/
def ringBlocks (s : State) (x : Seq) (len : Nat) : List BlockSrc :=
  let last := (len - 1) / x.tokens
  let first := (len - x.mapSpan * x.tokens) / x.tokens
  if len == 0 then []
  else ((List.range (last + 1 - first)).map (first + ·)).filterMap (fun b =>
    let e := x.mapBase + b % x.mapSpan
    if (s.mapEntry e).block == b % 16384 && (len < b * x.tokens + x.mapSpan * x.tokens) then some (.page e b) else none)

/-- Blocks in the order of R135. -/
def visitOrder (s : State) (c : Cmd) (k : KvBind) : List BlockSrc :=
  match tget? s.seqs k.seq with
  | none => []
  | some x =>
    let len := lengthAt c k.seq
    let pages := if x.ring then ringBlocks s x len
      else (liveEntries s k.seq).map (fun e => .page e.1 e.2.block)
    let staged := if k.append && 0 < k.count then
        ((List.range ((len + k.count - 1) / x.tokens + 1 - len / x.tokens)).map (fun i => .staged (len / x.tokens + i)))
      else []
    pages ++ staged

/-- Offset of the staged row of a layer and appended position: bindings in order, layers outermost (R126;
assumption 62). -/
def stagedOffset (s : State) (p : Plan) (a : RunArgs) (binding layer i : Nat) : Nat :=
  let before := (a.bindings.take binding).foldl (fun n k => n + stagedBytes s k) 0
  match a.bindings[binding]? with
  | none => p.stagingOff
  | some k =>
    let x := tget s.seqs k.seq {}
    p.stagingOff + before + (layer * k.count + i) * x.rowBytes

/-- Whether key position j of the own sequence is masked for the query (R134); `base` is the logical position of the
sequence's position 0, against which MIN_POS counts in a group (R158). -/
def masked (x : Seq) (k : KvBind) (len base query j : Nat) (staged : Bool) : Bool :=
  let i := if k.append then len + query else len - 1
  (k.append && i < j) || base + j < k.minPos || (x.ring && j + x.window ≤ i) ||
  (if staged then j < len || len + k.count ≤ j else len ≤ j)

-- ## One block (R136, R139)

/-- Keys of a block: per token whether it is masked, its key row and its value row as BF16. -/
abbrev Tokens := List (Bool × List Nat × List Nat)

def nonFinite (vs : List Nat) : Bool := vs.any (fun v => !(decF bf16 v).isFin)

/-- Score of a token. -/
def scoreOf (q : List Nat) (scale : Nat) (key : List Nat) : Nat := c48Mul (bfCycles (cdiv q.length 16) 0 key q) scale

/-- exp2(round_fp32(d × L)) of a C48 difference d, and the saturations of the rounding (R60, R136). -/
def expOf (d : Nat) : Nat × Nat :=
  let (t, n) := convF c48 fp32 (c48Mul d log2eC48)
  (exp2F t, n)

/-- p_j of R136. -/
def probOf (s m : Nat) : Nat × Nat := expOf (c48Sub s m)

def maxC48 (a b : Nat) : Nat := if (decF c48 a).lt (decF c48 b) then b else a

/-- Sum of values with one rounding per addition, from the first. -/
def sumC48 : List Nat → Nat
  | [] => 0
  | v :: vs => vs.foldl c48Add v

/-- Scores of the tokens; a score of −∞ counts as masked (R139). -/
def scored (q : List Nat) (scale : Nat) (ts : Tokens) : List (Bool × Nat × List Nat × List Nat) :=
  ts.map (fun t =>
    if t.1 then (true, 0, t.2)
    else
      let s := scoreOf q scale t.2.1
      (decF c48 s == .inf true, s, t.2))

/-- An unmasked token makes the row NaN (R139). -/
def nanRow (q : List Nat) (scale : Nat) (ts : Tokens) : Bool :=
  ts.any (fun t => !t.1 && (nonFinite t.2.1 || nonFinite t.2.2 ||
    (match decF c48 (scoreOf q scale t.2.1) with | .nan => true | .inf false => true | _ => false)))

/-- Merges a block into a row, with the saturations of its conversions (R60, R136, R139). `key` names the block in the
row's visits. A masked token keeps its place among the 16 positions of an M-engine cycle, with weight and value +0: DESIGN
CHOICE, R136 drops it and R135 visits positions 16 per cycle, and the spec does not say whether the others move up
(assumption 610). -/
def mergeBlock (r : AttnRow) (q : List Nat) (scale key : Nat) (ts : Tokens) : AttnRow × Nat :=
  let all := scored q scale ts
  let r := { r with nan := r.nan || nanRow q scale ts }
  match all.filter (fun t => !t.1) with
  | [] => (r, 0)
  | first :: rest =>
    let top := rest.foldl (fun m t => maxC48 m t.2.1) first.2.1
    let mNew := if r.fresh then top else maxC48 r.m.toNat top
    let ps := all.map (fun t => if t.1 then (none : Option (Nat × Nat)) else some (probOf t.2.1 mNew))
    let live := ps.filterMap id
    let pSum := sumC48 (live.map (fun p => (convF fp32 c48 p.1).1))
    let ws := ps.map (fun p => match p with | some p => (convF fp32 bf16 p.1).1 | none => 0)
    let ob := (List.range q.length).map (fun i =>
      bfCycles (cdiv ts.length 16) 0 ws (all.map (fun t => if t.1 then 0 else t.2.2.2.getD i 0)))
    let k := if r.fresh then (0, 0) else probOf r.m.toNat mNew
    let c := (convF fp32 c48 k.1).1
    let l := if r.fresh then pSum else c48Add (c48Mul r.l.toNat c) pSum
    let o := if r.fresh then ob else List.zipWith (fun x y => c48Add (c48Mul x c) y) (r.o.map BitVec.toNat) ob
    ({ r with m := BitVec.ofNat 48 mNew, l := BitVec.ofNat 48 l, o := o.map (BitVec.ofNat 48), fresh := false
              visits := r.visits ++ [(key, BitVec.ofNat 48 pSum, BitVec.ofNat 48 mNew)] }, satSum live + k.2)

/-- Output of a finished row: NaN, zero with EMPTY_ATTN, or o / l (R136, R138, R139). -/
def rowOut (r : AttnRow) (d : Nat) : List Nat :=
  if r.nan then List.replicate d (nanF c48)
  else if r.fresh then List.replicate d 0
  else r.o.map (fun o => c48Div o.toNat r.l.toNat)

-- ## Rows of a command

def sameRow (r x : AttnRow) : Bool :=
  r.binding == x.binding && r.layer == x.layer && r.head == x.head && r.query == x.query && r.source == x.source

def findRow (s : State) (u : Nat) (r : AttnRow) : AttnRow :=
  match s.cmd? u with
  | some c => (c.attn.find? (sameRow r)).getD r
  | none => r

def putRow (u : Nat) (r : AttnRow) (s : State) : State :=
  s.modCmd u (fun c => { c with attn := if c.attn.any (sameRow r) then c.attn.map (fun x => if sameRow r x then r else x)
                                        else c.attn ++ [r] })

/-- Writes a finished row at its entry and marks it. -/
def finishRow (a : At) (op : AttnOp) (r : AttnRow) : Eng Unit := do
  accStore a op.outEntry (rowOut r op.headDim)
  modS (fun s => (putRow a.u { r with closed := true } s).modCmd a.u (fun c =>
    { c with emptyAttn := c.emptyAttn || (r.fresh && !r.nan) }))

/-- Splits a row of a page into key and value of the KV head (R117). -/
def keyValue (row : List Byte) (op : AttnOp) : List Nat × List Nat :=
  let off := op.kvHead * op.headDim * 2
  (splitLE 2 op.headDim (row.drop off), splitLE 2 op.headDim (row.drop (row.length / 2 + off)))

/-- Tokens of a block: the rows of those that are not masked. -/
def readTokens (op : AttnOp) (hidden : Nat → Bool) (row : Nat → Eng (List Byte)) (n : Nat) : Eng Tokens :=
  mapEng (fun t =>
    if hidden t then pure (true, [], [])
    else do
      let b ← row t
      pure (false, keyValue b op)) (List.range n)

/-- Tokens of a live page. -/
def pageTokens (a : At) (op : AttnOp) (x : Seq) (k : KvBind) (len entry block : Nat) : Eng Tokens := do
  let s ← getS
  let page := (s.mapEntry entry).page
  readTokens op (fun t => masked x k len op.posBase op.query (block * x.tokens + t) false)
    (fun t => wellLoad a (page * 65536 + (op.layer * x.tokens + t) * x.rowBytes) x.rowBytes) x.tokens

/-- Tokens of a block that lie in staging, on the plan's first core. -/
def stagedTokens (a : At) (op : AttnOp) (x : Seq) (k : KvBind) (len block : Nat) : Eng Tokens := do
  let s ← getS
  let g := a.cmd.cores.headD a.core
  let first := { a with core := g, slot := (slotOf s a.cmd.ctx g).getD 0, rank := 0 }
  let at' := fun t => block * x.tokens + t
  readTokens op (fun t => masked x k len op.posBase op.query (at' t) true)
    (fun t => load first none (stagedOffset s a.plan (argsOf s a.cmd) op.binding op.layer (at' t - len)) x.rowBytes) x.tokens

/-- The query row as BF16. -/
def queryRow (a : At) (op : AttnOp) : Eng (List Nat) := do
  let b ← load a none op.qOff (2 * op.headDim)
  pure (splitLE 2 op.headDim b)

/-- Cycles in which the engines issue for attention; the spec does not count them: free values (assumption 611). -/
def attnBusy (a : At) : Eng Unit :=
  modS (fun s =>
    let (m, s) := freeCycles s
    let (v, s) := freeCycles s
    (s.perfAdd a.core 0 m).perfAdd a.core 1 v)

/-- The row after one block. -/
def visitBlock (a : At) (op : AttnOp) (r : AttnRow) (key : Nat) (ts : Tokens) : Eng AttnRow := do
  let q ← queryRow a op
  let (r, n) := mergeBlock r q op.smScale.toNat key ts
  saturate a n
  attnBusy a
  pure r

/-- The next block of a row of a command without a group; the answer says whether the row is finished. -/
def ownBlock (a : At) (op : AttnOp) (k : KvBind) (x : Seq) : Eng Bool := do
  let s ← getS
  let r := findRow s a.u { binding := op.binding, layer := op.layer, head := op.head, query := op.query }
  let order := visitOrder s a.cmd k
  let len := lengthAt a.cmd k.seq
  match order[r.count]? with
  | none => do
    finishRow a op r
    pure true
  | some b => do
    let ts ← (match b with
      | .page e n => pageTokens a op x k len e n
      | .staged n => stagedTokens a op x k len n)
    let r ← visitBlock a op { r with count := r.count + 1 } (match b with | .page e _ => e | .staged n => 2 ^ 32 + n) ts
    if r.count < order.length then
      modS (putRow a.u r)
      pure false
    else
      finishRow a op r
      pure true

-- ## Shards (R158 to R160)

/-- Receive slot of block i of hop h of a shard of n blocks (R158). -/
def shardSlot (g : Group) (h i n : Nat) : Nat := (i + h * n) % max 1 g.shardSlots

def shardSlotAddr (base slot : Nat) : Nat := base + 66048 * slot

/-- Blocks of the own shard, binding after binding in visit order: binding and source (R158). -/
def ownShard (s : State) (c : Cmd) : List (KvBind × BlockSrc) :=
  (argsOf s c).bindings.flatMap (fun k => (visitOrder s c k).map (fun b => (k, b)))

/-- Blocks of the own shard that come before a binding's. -/
def shardBase (s : State) (c : Cmd) (binding : Nat) : Nat :=
  ((argsOf s c).bindings.take binding).foldl (fun n k => n + (visitOrder s c k).length) 0

/-- Reads n bytes of cistern space for a plan. -/
def csLoad (a : At) (ad n : Nat) : Eng (List Byte) := do
  let s ← getS
  let (got, s') := readFrom (some a.core) (.cis ad) n s
  modS (fun _ => s')
  match got with
  | .bytes b => pure b
  | .poison => stopWith a.u stPoison (csCore ad)
  | .discarded => stopWith a.u stContextFault 0

/-- Header of a ring block (Table 7.8). -/
def ringHeader (s : State) (c : Cmd) (k : KvBind) (entry block index logical posBase : Nat) : Block :=
  let x := tget s.seqs k.seq {}
  leBytes 4 logical ++ leBytes 2 (selfDev s) ++ leBytes 2 index ++ leBytes 8 (posBase + block * x.tokens) ++
  leBytes 1 x.logBlock ++ leBytes 1 x.layers ++ leBytes 2 x.rowBytes ++
  leBytes 2 (min x.tokens (lengthAt c k.seq - block * x.tokens)) ++ leBytes 2 0 ++ leBytes 4 (ownShard s c).length ++
  leBytes 4 entry ++ List.replicate 32 0

/-- A ring block of the own shard: its header and its page's bytes (R158). -/
def ringBlock (a : At) (index logical posBase : Nat) : Eng (List Byte) := do
  let s ← getS
  match (ownShard s a.cmd)[index]? with
  | some (k, .page e n) =>
    let page ← wellLoad a ((s.mapEntry e).page * 65536) 65536
    pure (ringHeader s a.cmd k e n index logical posBase ++ page)
  | _ => pure []

/-- Tokens of a ring block in its receive slot; those of another LOGICAL_SEQ are masked (R158). -/
def shardTokens (a : At) (op : AttnOp) (base : Nat) (h : Block) (minPos : Nat) : Eng Tokens :=
  let tokens := 2 ^ field h 0x10 1
  readTokens op (fun t => field h 0 4 != op.logical || field h 0x14 2 ≤ t || field h 8 8 + t < minPos)
    (fun t => csLoad a (base + 64 + (op.layer * tokens + t) * field h 0x12 2) (field h 0x12 2)) tokens

/-- Place of a source's partial: the partials of a row lie one after the other in the order of the member list (R160). -/
def partialOff (op : AttnOp) (g : Group) (source : Nat) : Nat :=
  op.partials + 6 * (2 + op.headDim) * g.devices.findIdx (· == source)

/-- A partial (m, l, o) as it is kept: NaN throughout for a NaN row; m = −∞ and l = 0 for one with no key. -/
def partialBytes (r : AttnRow) (d : Nat) : Block :=
  let vs := if r.nan then List.replicate (2 + d) (nanF c48)
    else if r.fresh then infF c48 true :: List.replicate (1 + d) 0
    else r.m.toNat :: r.l.toNat :: r.o.map BitVec.toNat
  vs.flatMap (leBytes 6)

/-- A row with the partial that the context region keeps. -/
def loadPartial (a : At) (op : AttnOp) (g : Group) (r : AttnRow) (source : Nat) : Eng AttnRow := do
  let b ← load a none (partialOff op g source) (6 * (2 + op.headDim))
  match splitLE 6 (2 + op.headDim) b with
  | m :: l :: o =>
    pure { r with m := BitVec.ofNat 48 m, l := BitVec.ofNat 48 l, o := o.map (BitVec.ofNat 48)
                  nan := decF c48 m == .nan, fresh := (decF c48 l).isZero }
  | _ => pure r

/-- Merges a partial into the result of those before it, with the saturations of its conversions (R160). -/
def mergePartial (acc p : AttnRow) : AttnRow × Nat :=
  let acc := { acc with nan := acc.nan || p.nan, visits := acc.visits ++ p.visits }
  if p.fresh || p.nan then (acc, 0)
  else if acc.fresh then ({ acc with m := p.m, l := p.l, o := p.o, fresh := false }, 0)
  else
    let mNew := maxC48 acc.m.toNat p.m.toNat
    let k := probOf acc.m.toNat mNew
    let ks := probOf p.m.toNat mNew
    let c := (convF fp32 c48 k.1).1
    let cs := (convF fp32 c48 ks.1).1
    ({ acc with
        m := BitVec.ofNat 48 mNew
        l := BitVec.ofNat 48 (c48Add (c48Mul acc.l.toNat c) (c48Mul p.l.toNat cs))
        o := List.zipWith (fun (x y : C48) => BitVec.ofNat 48 (c48Add (c48Mul x.toNat c) (c48Mul y.toNat cs))) acc.o p.o },
      k.2 + ks.2)

def mergePartials (a : At) (op : AttnOp) (g : Group) (base : AttnRow) : List Nat → AttnRow → Eng AttnRow
  | [], acc => pure acc
  | d :: ds, acc => do
    let s ← getS
    let p ← loadPartial a op g (findRow s a.u { base with source := some d }) d
    let (acc, n) := mergePartial acc p
    saturate a n
    mergePartials a op g base ds acc

/-- Device numbers in rising order. -/
def insertNat (d : Nat) : List Nat → List Nat
  | [] => [d]
  | x :: xs => if d < x then d :: x :: xs else x :: insertNat d xs

def risingDevices (ds : List Nat) : List Nat := ds.foldl (fun l d => insertNat d l) []

/-- The end of a group row: partials merge in rising device number where the group is CANONICAL, then the division. -/
def finishGroup (a : At) (op : AttnOp) (g : Group) (base : AttnRow) : Eng Unit := do
  let s ← getS
  if g.flags % 2 == 1 then
    let r ← mergePartials a op g base (risingDevices g.devices) base
    finishRow a op r
  else finishRow a op (findRow s a.u base)

/-- The tokens that a step of a group row meets: of a block of the own shard, or of one in a receive slot; with the origin
and the blocks of its shard (R158). -/
def groupTokens (a : At) (op : AttnOp) (g : Group) : Eng (Option (Nat × Nat × Nat × Tokens)) := do
  let s ← getS
  let args := argsOf s a.cmd
  match args.bindings[op.binding]? with
  | none => pure none
  | some k =>
    if op.hop == 0 then
      match (ownShard s a.cmd)[op.shardBlock]? with
      | some (k', .page e n) =>
        if k'.seq != k.seq then pure none
        else do
          let ts ← pageTokens a op (tget s.seqs k.seq {}) k (lengthAt a.cmd k.seq) e n
          pure (some (selfDev s, op.shardBlock, (ownShard s a.cmd).length, ts))
      | _ => pure none
    else do
      let base := shardSlotAddr g.shardBuf (shardSlot g op.hop op.shardBlock op.shardBlocks)
      let h ← csLoad a base 64
      let ts ← shardTokens a op base h k.minPos
      pure (some (field h 4 2 % 2 ^ 14, field h 6 2, field h 0x18 4, ts))

/-- One block of a group's row. -/
def groupBlock (a : At) (op : AttnOp) (gid : Nat) : Eng Unit := do
  let s ← getS
  let g := tget s.lat.groups gid {}
  let canonical := g.flags % 2 == 1
  let base : AttnRow := { binding := op.logical, layer := op.layer, head := op.head, query := op.query }
  match ← groupTokens a op g with
  | none => pure ()
  | some (origin, i, n, ts) => do
    modS (fun s => s.modLat (fun l => { l with groups := tmod l.groups gid (fun g =>
      { g with shards := (g.shards.filter (fun e => e.1 != origin)) ++ [(origin, n)] }) }))
    let r := findRow s a.u { base with source := if canonical then some origin else none }
    let r ← (if canonical && 0 < r.count then loadPartial a op g r origin else pure r)
    let r ← visitBlock a op { r with count := r.count + 1 } (2 ^ 16 * origin + i) ts
    modS (putRow a.u r)
    if canonical then store a (partialOff op g origin) (partialBytes r op.headDim)
  if op.last then finishGroup a op g base else pure ()

def asAttention : PlanStep → Option AttnOp
  | .attention op => some op
  | _ => none

/-- ATTENTION_BLOCK: merges one KV block into the running result of a query row and head; the last block of the row
divides and writes it (R135, R136). Without a group the step goes on block after block until the row is finished. -/
def execAttentionBlock (core : Nat) (s : State) : Host.Outcome State Fault Refusal :=
  .next (onStep core s asAttention (fun a op => do
    let s ← getS
    match groupOf s a.u with
    | some gid => do
      groupBlock a op gid
      pure true
    | none =>
      match (argsOf s a.cmd).bindings[op.binding]? with
      | none => pure true
      | some k => ownBlock a op k (tget s.seqs k.seq {})))

-- ## Scores (R127, R161)

/-- The term w of one visit of a finished row, and the saturations of its conversions. -/
def visitTerm (r : AttnRow) (pb mb : C48) : Nat × Nat :=
  let e := expOf (c48Sub mb.toNat r.m.toNat)
  let p := convF c48 fp32 pb.toNat
  let l := convF c48 fp32 r.l.toNat
  (fp32Div (fp32Mul p.1 e.1) l.1, e.2 + p.2 + l.2)

/-- Rows in the order of the sum: layer, then query, then head. -/
def rowKey (r : AttnRow) : Nat := (r.layer * 2 ^ 24 + r.query) * 2 ^ 16 + r.head

def insertRow (r : AttnRow) : List AttnRow → List AttnRow
  | [] => [r]
  | x :: xs => if rowKey r < rowKey x then r :: x :: xs else x :: insertRow r xs

/-- The sum of terms of a block over the finished rows of a binding, and the saturations. -/
def massSum (rows : List AttnRow) (key : Nat) : Nat × Nat :=
  let rs := (rows.filter (fun r => r.closed && !r.nan && !r.fresh)).foldl (fun l r => insertRow r l) []
  let ws := rs.flatMap (fun r => (r.visits.filter (fun v => v.1 == key)).map (fun v => visitTerm r v.2.1 v.2.2))
  ((ws.map Prod.fst).foldl fp32Add 0, satSum ws)

/-- SCORE after a command that gave the block a mass (R127). -/
def scoreUpdate (score shift mass : Nat) : Nat :=
  let u := rneF ((decF fp32 mass).mul (Fl.ofInt 1023))
  let inc := (u - (score : Int) + 2 ^ (shift - 1)).fdiv (2 ^ shift)
  (min 1023 (max 0 ((score : Int) + inc))).toNat

/-- mass_b of a sum. -/
def massOf (sum q layers heads : Nat) : Nat := encF fp32 ((decF fp32 sum).div (Fl.ofInt ((q * layers * heads : Nat) : Int)))

end Sys2Proof.Machine
end

