-- ==== Sys2Proof/Machine/Hss.lean ====
section
/-!
DEFINITION. The provenance signer's arithmetic: LM-OTS, LMS and HSS of RFC 8554 with L = 2 (R231), the tree store (R232) and
the index log in the SPI flash (R233). The RFC's type codes and separators are PRESUMED (assumption 1018). A tree is numbered
0 for the top one and t + 1 for bottom tree t.
-/

namespace Sys2Proof.Machine

-- ## LM-OTS: LMOTS_SHA256_N32_W8

/-- Number of hash chains. -/
abbrev otsChains : Nat := 34

/-- The 16-byte identifier I and the SEED of a tree, and the randomiser of a leaf. -/
def treeId (t : Nat) : Block := (List.range 16).map (Config.hssIdByte t)
def treeSeed (t : Nat) : Block := (List.range 32).map (Config.hssSeedByte t)
def leafRandom (t q : Nat) : Block := (List.range 32).map (Config.hssRandByte t q)

/-- A hash of the RFC: identifier, number, 16-bit separator or chain number, and data. -/
def lmsHash (t n sep : Nat) (data : Block) : Block := sha256 (treeId t ++ beBytes 4 n ++ beBytes 2 sep ++ data)

/-- Start of chain i of leaf q, from the seed (RFC 8554 Appendix A). -/
def chainStart (t q i : Nat) : Block := lmsHash t q i (leBytes 1 0xFF ++ treeSeed t)

/-- n steps of chain i from step j. -/
def chainSteps (t q i : Nat) : Nat → Nat → Block → Block
  | 0, _, x => x
  | n + 1, j, x => chainSteps t q i n (j + 1) (lmsHash t q i (leBytes 1 j ++ x))

/-- LM-OTS public key of leaf q. -/
def otsPublic (t q : Nat) : Block :=
  lmsHash t q 0x8080 ((List.range otsChains).flatMap (fun i => chainSteps t q i 255 0 (chainStart t q i)))

/-- The 34 digits of a message hash: its bytes and its checksum. -/
def otsDigits (h : Block) : List Nat :=
  let ds := h.map (fun b => b.toNat)
  let sum := ds.foldl (fun n d => n + (255 - d)) 0
  ds ++ [sum / 256 % 256, sum % 256]

/-- LM-OTS signature of a message with leaf q, 1,124 bytes. -/
def otsSign (t q : Nat) (message : Block) : Block :=
  let c := leafRandom t q
  let ds := otsDigits (lmsHash t q 0x8181 (c ++ message))
  beBytes 4 4 ++ c ++ ((List.range otsChains).zip ds).flatMap (fun p => chainSteps t q p.1 p.2 0 (chainStart t q p.1))

-- ## LMS: LMS_SHA256_M32_H20

/-- Node r of a tree, k levels above the leaves. -/
def lmsNode (t : Nat) : Nat → Nat → Block
  | 0, r => lmsHash t r 0x8282 (otsPublic t (r - 2 ^ 20))
  | k + 1, r => lmsHash t r 0x8383 (lmsNode t k (2 * r) ++ lmsNode t k (2 * r + 1))

/-- LMS public key, 56 bytes. -/
def lmsPublic (t : Nat) : Block := beBytes 4 8 ++ beBytes 4 4 ++ treeId t ++ lmsNode t 20 1

/-- LMS signature of a message with leaf q, 1,772 bytes: the sibling of each node on the way to the root. -/
def lmsSign (t q : Nat) (message : Block) : Block :=
  beBytes 4 q ++ otsSign t q message ++ beBytes 4 8 ++
  (List.range 20).flatMap (fun k => lmsNode t k (((2 ^ 20 + q) / 2 ^ k) ^^^ 1))

-- ## HSS with L = 2

/-- Signature of bottom tree b's public key by the top tree. -/
def topSignature (b : Nat) : Block := lmsSign 0 b (lmsPublic (b + 1))

/-- HSS public key, 60 bytes (Table 17.4). -/
def hssPublic : Block := beBytes 4 2 ++ lmsPublic 0

/-- HSS signature at an index, 3,604 bytes: bits [39:20] are the leaf of the top tree, bits [19:0] that of the bottom tree
(R229, R231). -/
def hssSignature (index : Nat) (message : Block) : Block :=
  let b := index / 2 ^ 20
  beBytes 4 1 ++ topSignature b ++ lmsPublic (b + 1) ++ lmsSign (b + 1) (index % 2 ^ 20) message

-- ## Tree store (R232)

/-- The key-store MAC over a stored tree. -/
def treeMac (tree : Nat) (nodes sig : Block) : Block :=
  (List.range 32).map (Config.treeMacByte (leNat (leBytes 4 tree ++ nodes ++ sig)))

/-- What the flash keeps of bottom tree b: its top 11 levels of nodes and its top-level signature, with their MAC. -/
def storedTree (b : Nat) : StoredTree :=
  let nodes := (List.range 2047).flatMap (fun i => lmsNode (b + 1) (20 - (i + 1).log2) (i + 1))
  { tree := b, nodes := nodes, sig := topSignature b, mac := treeMac b nodes (topSignature b) }

/-- The store holds bottom tree b under a MAC that holds. -/
def treeHeld (f : Flash) (b : Nat) : Bool :=
  f.trees.any (fun e => e.tree == b && e.mac == treeMac e.tree e.nodes e.sig)

/-- Bottom tree b goes into the store, which has 1 MiB and so keeps the newest 15 (Table 17.1; assumption 1019). -/
def storeTree (b : Nat) (f : Flash) : Flash :=
  { f with trees := (storedTree b :: f.trees.filter (fun e => e.tree != b)).take 15 }

-- ## Index log (R233)

/-- Record of a chunk: TAG, reserved, CHUNK, SEQ, CRC-32C over bytes 0 to 11. -/
def logRecord (chunk seq : Nat) : Block :=
  let b := leBytes 2 0x4C58 ++ leBytes 2 0 ++ leBytes 4 (chunk % 2 ^ 28) ++ leBytes 4 seq
  b ++ leBytes 4 (crc32c b)

/-- CHUNK and SEQ of a record that passes its CRC. -/
def logValue (r : Block) : Option (Nat × Nat) :=
  if r.length == 16 && field r 0 2 == 0x4C58 && field r 12 4 == crc32c (r.take 12) then
    some (field r 4 4 % 2 ^ 28, field r 8 4)
  else none

/-- Puts a record into a half of the log region, at the place that its SEQ takes there. The sector is erased when the record
is its first, or its place is not erased; the other half then holds the record before it, which is newer than what is
erased. -/
def logPut (slots seq : Nat) (r : Block) (half : Table Block) : Table Block :=
  let k := seq % max 1 slots
  let half := if k % 256 == 0 || thas half k then half.filter (fun e => e.1 / 256 != k / 256) else half
  tset half k r

/-- Records of a half: half the region's sectors, of 256 records each. -/
def halfSlots (sectors : Nat) : Nat := sectors / 2 * 256

/-- A record goes into both halves. -/
def logWrite (sectors chunk seq : Nat) (f : Flash) : Flash :=
  let r := logRecord chunk seq
  { f with logA := logPut (halfSlots sectors) seq r f.logA, logB := logPut (halfSlots sectors) seq r f.logB }

/-- A program that a reset cuts off, by a free number: part of the first copy, the first copy, or both (Table 17.11). -/
def logTear (sectors chunk seq free : Nat) (f : Flash) : Flash :=
  let r := logRecord chunk seq
  let n := halfSlots sectors
  if free % 3 == 0 then { f with logA := logPut n seq (r.take (free / 3 % 16) ++ List.replicate (16 - free / 3 % 16) 0xFF) f.logA }
  else if free % 3 == 1 then { f with logA := logPut n seq r f.logA }
  else logWrite sectors chunk seq f

/-- Every valid record of the log. -/
def logValues (f : Flash) : List (Nat × Nat) := (f.logA ++ f.logB).filterMap (fun e => logValue e.2)

/-- Highest CHUNK of a valid record. -/
def logTop (f : Flash) : Option Nat := ((logValues f).map Prod.fst).max?

/-- SEQ of the record that follows. -/
def logNext (f : Flash) : Nat := match ((logValues f).map Prod.snd).max? with | some n => (n + 1) % 2 ^ 32 | none => 0

-- ## Retirement log (R304, R374)

/-- Record of a retirement: TAG, flags, PAGE, SEQ, CRC-32C over bytes 0 to 11. -/
def retireRecord (seq page : Nat) (ue wd : Bool) : Block :=
  let b := leBytes 2 0x5254 ++ leBytes 1 (b2n ue + 2 * b2n wd) ++ leBytes 1 0 ++ leBytes 4 (page % 2 ^ 22) ++ leBytes 4 seq
  b ++ leBytes 4 (crc32c b)

/-- Page and WITHDRAWN of a record that passes its CRC. -/
def retireOf (r : Block) : Option (Nat × Bool) :=
  if r.length == 16 && field r 0 2 == 0x5254 && field r 12 4 == crc32c (r.take 12) then
    some (field r 4 4 % 2 ^ 22, bitOf (field r 2 1) 1)
  else none

end Sys2Proof.Machine
end

