-- ==== Sys2Proof/Machine/Running.lean ====
section
/-!
DEFINITION. A running plan between its engine steps and its end: float waits (R41, R42), the pump and the siphon (R102, R306
to R314), remote accesses (R33 to R39), saturation and widening (R87 to R92), parity failures (R193), the commit (R44, R126,
R127, R157, R161).
-/

namespace Sys2Proof.Machine

-- ## Float waits

def asFloatWait : PlanStep → Option (Nat × W32)
  | .floatWait f t => some (f, t)
  | _ => none

/-- Whether the float of a wait has reached its target (R40, R41). -/
def waitOver (s : State) (a : At) (w : Nat × W32) : Bool := reached (floatGet s a.core (16 * a.slot + w.1)) w.2

/-- Longest wait of a core (R42, Table 2.4). -/
def waitMax (s : State) (g : Nat) : Nat := max 1 (s.core g).waitLimit.toNat

/-- FLOAT_WAIT: the wait ends after `waited` cycles, once the float has reached its target; until then the rank stands
still (R41). A wait longer than the limit does not pass. -/
def execFloatWait (core waited : Nat) (s : State) : Host.Outcome State Fault Refusal :=
  .next (onStep core s asFloatWait (fun a w => do
    let s ← getS
    if waited ≤ waitMax s core && waitOver s a w then
      modS (fun s => s.perfAdd core 7 waited)
      pure true
    else pure false))

/-- FLOAT_WAIT_TIMEOUT: the wait of a rank has lasted longer than FLOAT_WAIT_LIMIT (R42). -/
def execFloatWaitTimeout (core waited : Nat) (s : State) : Host.Outcome State Fault Refusal :=
  .next (match at? s core with
    | none => s
    | some a =>
      match (stepAt s a).bind asFloatWait with
      | none => s
      | some w =>
        if !s.serving || waited ≤ waitMax s core || waitOver s a w then s
        else
          let s := ((coreErr core 4 s).perfAdd core 8 1).perfAdd core 7 waited
          if (s.core core).retryMax.toNat ≤ a.cmd.timeouts then faultPlan a.u stContextFault 0 s
          else
            let (n, s) := freeCycles s
            (killRun a.u n s).modCmd a.u (fun c => { c with timeouts := a.cmd.timeouts + 1 }))

-- ## The siphon and the pump

def asSiphon : PlanStep → Option (Nat × Nat × Nat × W16 × W16)
  | .siphon off len dst f inc => some (off, len, dst, f, inc)
  | _ => none

/-- SIPHON_STEP: a plan reads bytes of its own cistern and sends them (R314). -/
def execSiphonStep (core : Nat) (s : State) : Host.Outcome State Fault Refusal :=
  .next (onStep core s asSiphon (fun a op => do
    let (off, len, dst, float, inc) := op
    let bs ← load a none off len
    modS (fun s =>
      let x : Siphon := { dst := dst, data := bs, float := float, inc := inc, uid := some a.u, fromPlan := true
                          core := some core }
      { s.perfAdd core 4 len with siphon := s.siphon ++ [x] })
    pure true))

/-- Whether an end of a transfer lies in a core's own cistern. -/
def ownEnd (core : Nat) : Addr → Bool
  | .cis a => csCore a == core
  | _ => false

/-- Rows of the own cistern that n bytes cross (R309). -/
def rowsCrossed (core : Nat) (ad : Addr) (n : Nat) : Nat := if ownEnd core ad then (unitsOf 512 ad.at n).length else 0

/-- Bytes that a core's remote accesses move (Table 2.8). -/
def countOutbound (core : Nat) (ad : Addr) (n : Nat) (s : State) : State :=
  match ad with
  | .cis _ => if ownEnd core ad then s else s.perfAdd core 5 n
  | _ => s

/-- Source bytes of one row. A poisoned row reaches the destination as poison, and the plan faults (R302). -/
def pumpGet (a : At) (src dst : Addr) (n : Nat) : Eng (List Byte) := do
  let s ← getS
  let (got, s') := readFrom (some a.core) src n s
  modS (fun _ => countOutbound a.core src n s')
  match got with
  | .bytes bs => pure bs
  | .discarded => stopWith a.u stContextFault 0
  | .poison =>
    modS (fun s => spreadPoison dst (poisonedParts s src n) s)
    stopWith a.u stPoison (poisonDetail src)

/-- One row of a descriptor; the pattern of a FILL is counted from DST (Table 14.3). -/
def pumpRow (a : At) (d : PumpDesc) (i : Nat) : Eng Unit := do
  match rowAddr d.dst i d.dstStride with
  | none => pure ()
  | some dst =>
    let bs ← (if d.op == 0 then
        (match rowAddr d.src i d.srcStride with
         | some src => pumpGet a src dst d.rowBytes
         | none => pure [])
      else pure ((List.range d.rowBytes).map (fun (k : Nat) =>
        if d.op == 1 then d.pattern.getD ((d.dstStride * (i : Int) + (k : Int)) % 8).toNat 0 else 0)))
    let s ← getS
    let (ok, s') := writeTo (some a.core) dst bs s
    modS (fun _ => countOutbound a.core dst bs.length s')
    if ok then pure () else stopWith a.u stContextFault 0

def pumpRows (a : At) (d : PumpDesc) : Nat → Nat → Eng Unit
  | 0, _ => pure ()
  | n + 1, i => do
    pumpRow a d i
    pumpRows a d n (i + 1)

/-- Rows of a descriptor that cross the wide port. -/
def phaseRowsOf (core : Nat) (d : PumpDesc) : Nat :=
  (List.range d.rows).foldl (fun n i =>
    let one := fun (ad : Option Addr) => match ad with | some ad => rowsCrossed core ad d.rowBytes | none => 0
    n + one (rowAddr d.dst i d.dstStride) + (if d.op == 0 then one (rowAddr d.src i d.srcStride) else 0)) 0

/-- The wide port after a pump step of which n rows crossed it: a phase ends with PHASE_END, with the chain, or when 128 rows
have crossed since it began (R309). PUMP_BUSY counts a cycle for each row. -/
def pumpPhase (core n : Nat) (last : Bool) (s : State) : State :=
  (s.modCore core (fun k =>
    let r := (k.phaseRows + n) % 128
    if last || (r == 0 && 0 < n) then k.endPhase
    else if n == 0 then k
    else { k with wideHolder := 2, phaseRows := r })).perfAdd core 2 n

/-- A descriptor of a plan's pump; its float counts once, after every byte is visible (R306, R311). One that no longer keeps
R308 and R119 ends the plan. -/
def pumpStep (a : At) (desc : Block) : Eng Unit := do
  let s ← getS
  let d := pumpDesc desc
  if !(pumpFieldsOk desc && pumpEndsOk s a.cmd.ctx desc) then stopWith a.u stBadParam inPlan
  else if !floatLive s d.float d.inc then
    modS (fun s => (floatInc d.float d.inc s).2)
    stopWith a.u stContextFault 0
  else
    modS (pumpPhase a.core (phaseRowsOf a.core d) (d.phaseEnd || d.next == 0))
    pumpRows a d d.rows 0
    modS (fun s => (floatInc d.float d.inc s).2)

/-- The stream whose frame a step reads, and the sample that the frame conditions (R102). -/
def frameSample (s : State) (a : At) (op : FrameOp) : Option (Stream × Nat) :=
  match loopOfAt s a, chunkOf s a with
  | some l, _ => ((tget? l.lanes op.slot).bind (tget? s.streams)).map (fun st => (st, st.sampleIndex + l.stepsDone + op.t))
  | none, some (i, start, _) => (tget? s.streams i).map (fun st => (st, start + op.t))
  | none, none => none

/-- Well address of frame f of a stream (R102). -/
def frameAddr (st : Stream) (f : Nat) : Nat := st.feedBase % 2 ^ 39 + f % max 1 st.feedFrames * st.frameBytes

/-- Brings a frame of conditioning into the context region (R102). Frame f conditions samples f · HOP_LEN on. -/
def frameStep (a : At) (op : FrameOp) : Eng Unit := do
  let s ← getS
  match frameSample s a op with
  | none => pure ()
  | some (st, sample) =>
    modS (pumpPhase a.core (cdiv st.frameBytes 512) false)
    let b ← wellLoad a (frameAddr st (sample / max 1 st.hopLen + op.ahead)) st.frameBytes
    store a op.off b

inductive PumpWork where
  | descriptor (d : Block)
  | frame (op : FrameOp)
  deriving DecidableEq, Repr

def asPump : PlanStep → Option PumpWork
  | .pump d => some (.descriptor d)
  | .frame op => some (.frame op)
  | _ => none

/-- PUMP_DESCRIPTOR: a plan's pump executes one descriptor, or brings in a frame (R102, R306). -/
def execPumpDescriptor (core : Nat) (s : State) : Host.Outcome State Fault Refusal :=
  .next (onStep core s asPump (fun a op => do
    match op with
    | .descriptor d => pumpStep a d
    | .frame f => frameStep a f
    pure true))

-- ## Remote accesses

/-- The bytes of a write and where they go; none for a ring block that the shard does not have (R158). -/
def writeBytes (a : At) (w : RemoteWrite) : Eng (Option (Nat × List Byte)) := do
  let s ← getS
  let g := ((groupOf s a.u).bind (tget? s.lat.groups)).getD {}
  match w.src with
  | .nothing => pure (some (w.dst, []))
  | .region off len => do
    let b ← load a none off len
    pure (some (w.dst, b))
  | .shard i logical posBase => do
    let b ← ringBlock a i logical posBase
    pure (if b.isEmpty then none
          else some (shardSlotAddr w.dst (shardSlot g 1 i (ownShard s a.cmd).length), b))
  | .pass hop i n => do
    let b ← csLoad a (shardSlotAddr g.shardBuf (shardSlot g hop i n)) 65600
    pure (some (shardSlotAddr w.dst (shardSlot g (hop + 1) i n), b))

/-- A lateral WRITE of a command: float-only writes go on SYNC, the rest on KV or ACT (Tables 7.3, 7.4, R155). -/
def lateralWrite (u : Nat) (w : RemoteWrite) (d : LatDest) (dst : Nat) (data : List Byte) (s : State) : State :=
  let vc := if data.isEmpty then vcSync else if d.act then vcAct else vcKv
  let m : Msg := { type := 0, vc := vc, dest := d.dev, addr := dst, float := w.float.toNat, floatInc := w.inc.toNat
                   mcast := d.mcast, data := data }
  match if d.group then groupOf s u else none with
  | some gid => sendMsg { m with group := gid, gen := (tget s.lat.groups gid {}).gen % 256 } s
  | none => sendMsg m s

/-- One write of a command on a core takes effect; false where it is discarded (R27, R35, R39). -/
def doWrite (u core : Nat) (w : RemoteWrite) (dst : Nat) (data : List Byte) (s : State) : Bool × State :=
  match w.lat with
  | some d => (true, lateralWrite u w d dst data s)
  | none =>
    let s := if csCore dst == core then s else s.perfAdd core 5 data.length
    inboundWrite dst data w.float.toNat w.inc.toNat s

/-- Place of a port in the order of R30. -/
def portOrder : CisPort → Nat
  | .escalated => 0
  | .wide => 1
  | .np0 => 2
  | .np1 => 3
  | .inbound => 4

/-- Two writes have committed to one row in one cycle (R37): WW_SAME_ROW is set, and a byte that both cover takes the value
of the port that comes first; between two inbound accesses R30 leaves the order open, and a free value decides. `before` is
the state after the other write alone. -/
def meetRow (m : RowMeet) (dst n : Nat) (before s : State) : State :=
  if !((unitsOf 512 m.addr m.len).any (fun r => (unitsOf 512 dst n).contains r)) then s
  else
    let s := coreErr (csCore dst) 5 s
    let (f, s) := if portOrder m.port == portOrder m.mine then takeFree s else (0, s)
    if portOrder m.port < portOrder m.mine || bitOf f 0 then
      let lo := max m.addr dst
      let hi := min (m.addr + m.len) (dst + n)
      { s with cis := mwrite s.cis lo (mread before.cis lo (hi - lo)) }
    else s

/-- What bank arbitration did to a remote access counts at its target (R30, R31, R36). -/
def remoteClash (k : Clash) : Clash := { k with own := 0, inbound := k.own + k.inbound }

def asWrite : PlanStep → Option RemoteWrite
  | .write w => some w
  | _ => none

/-- REMOTE_WRITE_COMMIT: a write of a running plan commits at its target, row by row in rising order, and its float counts
once (R34, R35, R37, R39). A lateral write leaves for its port (R152). -/
def execRemoteWriteCommit (core : Nat) (clash : Clash) (meets : Option RowMeet) (s : State) :
    Host.Outcome State Fault Refusal :=
  .next (onStep core s asWrite (fun a w => do
    match ← writeBytes a w with
    | none => pure true
    | some (dst, data) => do
      if w.lat.isNone then modS (countClash (csCore dst) (remoteClash clash))
      let s ← getS
      let (ok, t) := doWrite a.u core w dst data s
      modS (fun _ => match meets, w.lat with
        | some m, none => if ok then meetRow m dst data.length s t else t
        | _, _ => t)
      if ok then pure true else stopWith a.u stContextFault 0))

def asRead : PlanStep → Option (Nat × Nat)
  | .read ad n => some (ad, n)
  | _ => none

/-- REMOTE_READ: a plan's read of another core's cistern (R27, R32, R33). -/
def execRemoteRead (core : Nat) (clash : Clash) (s : State) : Host.Outcome State Fault Refusal :=
  .next (onStep core s asRead (fun a op => do
    modS (countClash (csCore op.1) (remoteClash clash))
    let s ← getS
    let (got, s') := readAt (.cis op.1) op.2 s
    modS (fun _ => s'.perfAdd core 5 op.2)
    match got with
    | .bytes bs => do
      modS (emit (.remoteData core bs))
      pure true
    | .discarded => stopWith a.u stContextFault 0
    | .poison => stopWith a.u stPoison (csCore op.1)))

-- ## Saturation and widening

/-- The run of a command has ended after `cyc` core-cycles, which are charged. -/
def endRun (u cyc : Nat) (s : State) : State :=
  match s.cmd? u with
  | none => s
  | some c =>
    let s := chargeRun u cyc s
    if c.opcode == opStreamLoop then
      (match c.object with
       | some l => s.modLoop l (fun x => { x with running := false })
       | none => s)
    else s.modCmd u (fun c => { c with phase := .ready })

/-- SATURATION_PASS: the count of the narrow run passes. The run stops; it widens, or ends with ST_SATURATED (R87, R88).
A loop's block is discarded and the loop ends (R92). -/
def execSaturationPass (u cyc : Nat) (s : State) : Host.Outcome State Fault Refusal :=
  .next (match s.cmd? u with
    | none => s
    | some c =>
      if !s.serving then s
      else if c.opcode == opStreamLoop && c.phase == .accepted then
        match c.object with
        | none => s
        | some l =>
          match tget? s.loops l with
          | none => s
          | some x =>
            if x.running && !x.dead && satPasses c x.satBlock then endLoop l stSaturated 0 (endRun u cyc s) else s
      else if c.opcode == opRun && c.phase == .running && !c.stopping && satPasses c c.sat then
        if c.autoWiden && !c.widened then (chargeRun u cyc s).modCmd u (fun c => { c with stopping := true })
        else retire u stSaturated 0 (discardRun u (reportAbort u (chargeRun u cyc s)))
      else s)

/-- WIDEN_RERUN: the narrow run is discarded and the plan runs again whole in BF16 (R90, R91). -/
def execWidenRerun (u : Nat) (s : State) : Host.Outcome State Fault Refusal :=
  .next (match s.cmd? u with
    | none => s
    | some c =>
      if s.serving && c.phase == .running && c.stopping then
        let s := s.modStats c.ctx (fun k => { k with widened := ctrAdd k.widened 1 })
        (requeue u 0 s).modCmd u (fun d => { d with rerunDue := c.rerunDue, widened := true })
      else s)

-- ## Random units

/-- RNG_PARITY_FAIL: a block of a core's random unit fails parity, and the plan runs again; the third run in a row that
fails ends the command (R193). `unit` is 4 * core + unit. -/
def execRngParityFail (u unit cyc : Nat) (s : State) : Host.Outcome State Fault Refusal :=
  .next (match at? s (unit / 4) with
    | none => s
    | some a =>
      if !s.serving || a.u != u then s
      else
        let s := raise evCorrected s
        if 2 ≤ a.cmd.parityFails then faultPlan u stPoison (unit / 4) (endRun u cyc s)
        else (killRun u cyc s).modCmd u (fun c => { c with parityFails := a.cmd.parityFails + 1 }))

-- ## The commit: sequences (R126, R127)

/-- Entry and page of a block that a binding appends into. -/
def appendPage (s : State) (c : Cmd) (i : Nat) (k : KvBind) (x : Seq) (b : Nat) : Option (Nat × Nat) :=
  if x.ring then
    let e := x.mapBase + b % x.mapSpan
    some (e, (s.mapEntry e).page)
  else
    match (liveEntries s k.seq).find? (fun e => e.2.block == b) with
    | some e => some (e.1, e.2.page)
    | none => (c.secured.find? (fun z => z.binding == i && z.block == b)).map (fun z =>
        (z.entry, z.page.getD (s.mapEntry z.entry).page))

/-- A staged row and the package address it goes to. -/
abbrev StagedRow := Nat × List Byte

/-- Reads the staged rows of one binding: layer by layer for each appended position. -/
def stagedRows (a : At) (i : Nat) (k : KvBind) : Eng (List StagedRow) := do
  let s ← getS
  let args := argsOf s a.cmd
  let x := tget s.seqs k.seq {}
  if !k.append then pure []
  else
    let rows ← mapEng (fun (e : Nat × Nat) => do
      let pos := x.length + e.1
      match appendPage s a.cmd i k x (pos / x.tokens) with
      | none => pure []
      | some (_, page) => do
        let b ← load a none (stagedOffset s a.plan args i e.2 e.1) x.rowBytes
        pure [(page * 65536 + (e.2 * x.tokens + pos % x.tokens) * x.rowBytes, b)])
      ((List.range k.count).flatMap (fun n => (List.range x.layers).map (fun l => (n, l))))
    pure rows.flatten

/-- Staged rows of every binding, on the plan's first core. -/
def allStaged (a : At) : Eng (List StagedRow) := do
  let s ← getS
  let ks := (argsOf s a.cmd).bindings
  let rows ← mapEng (fun b => stagedRows a b.1 b.2) ((List.range ks.length).zip ks)
  pure rows.flatten

/-- Entries of the blocks that a binding appended into; a victim's block is evicted (R123, R126, R130). -/
def commitEntries (c : Cmd) (i : Nat) (k : KvBind) (s : State) : State :=
  match tget? s.seqs k.seq with
  | none => s
  | some x =>
    if !k.append then s
    else
      let (lo, hi) := appendBlocks x k.count
      let s := ((List.range (hi + 1 - lo)).map (lo + ·)).foldl (fun (s : State) (b : Nat) =>
        match appendPage s c i k x b with
        | none => s
        | some (e, page) =>
          let old := s.mapEntry e
          if x.ring then { s with map := tset s.map e { page := page, seq := k.seq, block := b % 16384, ring := true } }
          else if old.seq == k.seq && old.block == b then s
          else
            let s := if old.seq == k.seq then
                (s.modStats x.ctx (fun t => { t with kvEvictions := ctrAdd t.kvEvictions 1 })).modSeq k.seq (fun x =>
                  { x with evictions := satAdd 32 x.evictions 1 })
              else s
            { s with map := tset s.map e { page := page, seq := k.seq, block := b, score := x.scoreInit } }) s
      s.modSeq k.seq (fun x => { x with length := x.length + k.count })

/-- SCORE of one live entry under a mass. -/
def scoreEntry (e : Nat) (shift mass : Nat) (s : State) : State :=
  { s with map := tmod s.map e (fun m => { m with score := scoreUpdate m.score shift mass }) }

/-- Scores of the blocks that a binding of a command without a group reads (R127). -/
def scoreBinding (c : Cmd) (p : Plan) (i : Nat) (k : KvBind) (s : State) : State :=
  match tget? s.seqs k.seq with
  | none => s
  | some x =>
    let rows := c.attn.filter (fun (r : AttnRow) => r.binding == i)
    let q := if k.append then k.count else ((rows.map (fun r => r.query)).dedup).length
    if x.ring || q == 0 then s
    else (liveEntries s k.seq).foldl (fun s e =>
      let (sum, n) := massSum rows e.1
      countSat c.uid n (scoreEntry e.1 x.scoreShift (massOf sum q x.layers p.queryHeads) s)) s

/-- Sum of the members' contributions to one ring block, in rising device number (R161). -/
def groupMass (g : Group) (n : Nat) : Nat :=
  let ds := (g.masses.map Prod.fst).foldl (fun l d => insertPage d l) []
  (ds.map (fun d => ((((g.masses.find? (fun m => m.1 == d)).map Prod.snd).getD []).getD n 0).toNat)).foldl fp32Add 0

/-- Scores of the own shard of a group member (R161). -/
def scoreShard (p : Plan) (g : Group) (a : RunArgs) (s : State) : State :=
  let entries := a.bindings.flatMap (fun k => (liveEntries s k.seq).map (fun e => (k.seq, e.1)))
  ((List.range entries.length).zip entries).foldl (fun s e =>
    let x := tget s.seqs e.2.1 {}
    if p.groupQueries == 0 then s
    else scoreEntry e.2.2 x.scoreShift (massOf (groupMass g e.1) p.groupQueries x.layers p.queryHeads) s) s

/-- Some row is neither empty nor unfinished: a command whose rows are all empty updates no scores (R127). -/
def someRow (c : Cmd) : Bool := c.attn.any (fun r => r.closed && !(r.fresh && !r.nan))

def applyScores (c : Cmd) (p : Plan) (a : RunArgs) (s : State) : State :=
  match groupOf s c.uid with
  | some gid => scoreShard p (tget s.lat.groups gid {}) a s
  | none =>
    if !someRow c then s
    else ((List.range a.bindings.length).zip a.bindings).foldl (fun s b => scoreBinding c p b.1 b.2 s) s

-- ## The commit

/-- Half of a carry area that holds the committed state, toggled (R96, assumption 61). -/
def flipCarry (c : Cmd) (p : Plan) (s : State) : State :=
  let k := (p.stateBase, p.stateRows)
  if p.stateRows == 0 then s
  else s.modCtx c.ctx (fun x => { x with carry := if x.carry.contains k then x.carry.filter (· != k) else x.carry ++ [k] })

/-- The chunk of a command is committed with its samples; it waits for its release (R110). -/
def commitChunk (u : Nat) (xs : List W32) (s : State) : State :=
  { s with streams := tmap s.streams (fun _ st => { st with chunks := st.chunks.map (fun (k : Chunk) =>
    if k.uid == u then { k with committed := true, samples := xs } else k) }) }

/-- A write of a commit: its core, where it goes, its bytes. -/
abbrev CommitWrite := Nat × RemoteWrite × Nat × List Byte

/-- The writes of a plan's commit, with their bytes. -/
def commitData (as : List At) (p : Plan) : Eng (List CommitWrite) := do
  let ws ← mapEng (fun (e : Nat × RemoteWrite) => do
    match as.find? (fun a => a.rank == e.1) with
    | none => pure []
    | some a => do
      match ← writeBytes a e.2 with
      | some (dst, data) => pure [(a.core, e.2, dst, data)]
      | none => pure []) p.commit
  pure ws.flatten

/-- The writes of a commit, in order; false where one is discarded. -/
def commitWrites (u : Nat) : List CommitWrite → State → Bool × State
  | [], s => (true, s)
  | (core, w, dst, data) :: ws, s =>
    let (ok, s) := doWrite u core w dst data s
    let (rest, s) := commitWrites u ws s
    (ok && rest, s)

/-- A sample as the spout takes it: FP32, BF16 widened, or the 16-bit index of a draw, and the saturations of its conversion
(R60, R202, R210, R211). -/
def spoutWord (linear : Bool) (src : RowSrc) (v : Nat) : W32 × Nat :=
  match src with
  | .acc _ _ =>
    let (w, n) := convF c48 fp32 v
    (BitVec.ofNat 32 w, n)
  | .bf16 _ => (BitVec.ofNat 32 (if linear then v * 65536 else v), 0)
  | _ => (BitVec.ofNat 32 v, 0)

/-- Samples of a row for a stream's spout. -/
def sampleRow (a : At) (i : Nat) (src : RowSrc) (n : Nat) : Eng (List W32) := do
  let vs ← rowRaw a src n
  let s ← getS
  let ws := vs.map (spoutWord (isLinear s (tget s.streams i {})) src)
  saturate a (satSum ws)
  pure (ws.map Prod.fst)

/-- Samples of the chunk that a RUN vocodes (R110). -/
def chunkSamples (a : At) : Eng (List W32) := do
  let s ← getS
  match (argsOf s a.cmd).chunk with
  | none => pure []
  | some (i, _, n) => sampleRow a i a.plan.samples n

/-- Reads every working history half, so that poison is met before the commit begins (R32, R79). -/
def historyMeet (a : At) : Eng Unit := do
  let s ← getS
  eachM (fun o => do
    let _ ← load a none (o + 128) 128
    pure ()) (historyOffs s a)

/-- The effects of a commit on sequences, scores, chunk and state (R44, R96, R110, R126, R127). -/
def commitEffects (u : Nat) (p : Plan) (rows : List StagedRow) (xs : List W32) (s : State) : State :=
  match s.cmd? u with
  | none => s
  | some c =>
    let a := argsOf s c
    let s := rows.foldl (fun s r => (writeAt (.well r.1) r.2 s).2) s
    let s := applyScores c p a s
    let s := ((List.range a.bindings.length).zip a.bindings).foldl (fun s b => commitEntries c b.1 b.2 s) s
    let s := commitChunk u xs (flipCarry c p s)
    let empty := (c.attn.filter (fun r => r.closed && r.fresh && !r.nan)).length
    s.modStats c.ctx (fun k => { k with emptyRows := ctrAdd k.emptyRows empty })

/-- The results of a run take effect together, and the command retires (R44, R126). What the commit reads is met first; a
commit that has begun stands, and a discarded write of it ends the command with ST_CONTEXT_FAULT (R27). -/
def commitRun (u cyc : Nat) (s : State) : State :=
  match s.cmd? u with
  | none => s
  | some c =>
    match c.plan with
    | none => s
    | some p =>
      let as := placesOf s c p c.cores
      match as.head? with
      | none => s
      | some first =>
        Eng.run (do
          modS (endRun u cyc)
          let rows ← allStaged first
          let ws ← commitData as p
          let xs ← chunkSamples first
          eachM historyMeet as
          eachM historyOut as
          modS (commitEffects u p rows xs)
          modS (fun s =>
            let (ok, s) := commitWrites u ws s
            let s := (freeCores u s).modCmd u (fun c => { c with secured := [] })
            retire u (if ok then stOk else stContextFault) 0 s)) s

/-- MASS of a member for each origin: the terms of its rows for each block of the shard (R161). -/
def sendMasses (u : Nat) (gid : Nat) (s : State) : State :=
  match s.cmd? u, tget? s.lat.groups gid with
  | some c, some g =>
    let mine := (selfDev s, (ownShard s c).length)
    let sizes := mine :: g.shards
    g.devices.foldl (fun s d =>
      let n := ((sizes.find? (fun e => e.1 == d)).map Prod.snd).getD 0
      let vs := (List.range n).map (fun i => massSum c.attn (2 ^ 16 * d + i))
      sendMsg { type := 4, vc := vcKv, dest := d, group := gid, gen := g.gen % 256
                data := (vs.map Prod.fst).flatMap (leBytes 4) } (countSat u (satSum vs) s)) s
  | _, _ => s

/-- PLAN_COMMIT: every rank has finished its last step, after `cyc` core-cycles. The run commits, or a group member sends
MASS and DONE and holds its results (R44, R157). -/
def execPlanCommit (u cyc : Nat) (s : State) : Host.Outcome State Fault Refusal :=
  .next (match s.cmd? u with
    | none => s
    | some c =>
      match c.plan with
      | none => s
      | some p =>
        if !s.serving || c.opcode != opRun || c.phase != .running || c.stopping || satPasses c c.sat || !atEnd s p c.cores
        then s
        else
          match groupOf s u with
          | none => commitRun u cyc s
          | some gid =>
            let s := (sendMasses u gid s).modCmd u (fun c => { c with phase := .held, heldCyc := cyc })
            let g := tget s.lat.groups gid {}
            sendCtrl g.leader gid ctrlDone (leBytes 4 g.gen) s)

end Sys2Proof.Machine
end

