-- ==== Sys2Proof/Machine/Loops.lean ====
section
/-!
DEFINITION. Standing loops: start, admission and resumption (R100, R273, R274, R291), pacers (R114), gates (R103, R107,
R275, R276), steps (R95), commits (R97, R101, R104, R108), due ticks (R107, R213).
-/

namespace Sys2Proof.Machine

-- ## Admission (R273)

/-- The second test of R273 for loop x beside y on one core. -/
def roomFor (limit : Nat) (x : Loop) (cost split : Nat) : Bool :=
  (x.costEst * split + cost * x.split) * x.rate * 1000 ≤
    x.split * split * (x.deadline + 1) * x.blockLen * 2000000000 * limit

/-- Both tests on the loops of one core. -/
def coreAdmits (limit : Nat) (ls : List Loop) : Bool :=
  ls.foldl (fun n x => n + rtLoadOf x) 0 ≤ limit &&
  ((List.range ls.length).zip ls).all (fun a =>
    roomFor limit a.2 0 1 &&
    ((List.range ls.length).zip ls).all (fun b => a.1 == b.1 || roomFor limit a.2 b.2.costEst b.2.split))

/-- The new loop fits on every one of its cores. -/
def admits (s : State) (x : Loop) : Bool :=
  x.cores.all (fun g => coreAdmits (min 1000 s.sched.rtLimit.toNat) (rtLoopsOn s g ++ [x]))

/-- PACER_INC of R114. -/
def pacerIncOf (rate : Nat) (trim : Int) : BitVec 48 :=
  BitVec.ofInt 48 (rneDiv ((rate : Int) * (1000000000 + trim) * 2 ^ 48) 100000000000000000)

-- ## STREAM_LOOP (R100)

/-- The loop that a STREAM_LOOP asks for, with the defaults of Table 11.5. Its committed half is half 0 at the start: DESIGN
CHOICE, R96 gives no initial COMMITTED_HALF, and no lane has state then (assumption 61). -/
def loopOfParams (c : Cmd) (p : Plan) : Loop :=
  let rate := c.p 8 2
  { ctx := c.ctx, cmd := c.uid, firstCore := c.p 2 1, split := c.p 3 1, lanesMax := c.p 4 1
    deadline := if c.p 5 1 == 0 then 2 else c.p 5 1, freeRun := bitOf (c.p 6 1) 0, rate := rate
    blockLen := if c.p 10 2 == 0 then cdiv rate 100 else c.p 10 2, stateBase := c.p 12 2, stateRows := p.stateRows
    trim := c.pInt 16, pacerInc := pacerIncOf rate (c.pInt 16), costEst := c.costEst
    plan := { p with stateBase := c.p 12 2, firstCore := some (c.p 2 1) }, stopped := true }

/-- A saved loop that a STREAM_LOOP would resume (R291). -/
def resumes (s : State) (c : Cmd) : Option Loop :=
  match tget? s.loops (c.p 0 2) with
  | some x => if x.stopped && x.restored && !x.admitted && x.ctx == c.ctx then some x else none
  | none => none

/-- Start checks of STREAM_LOOP (R100, R107, R273, R291, R420). -/
def loopChecks (s : State) (c : Cmd) (p : Plan) (y : Ctx) : List Check :=
  let x := loopOfParams c p
  let rt := y.realtime && !x.freeRun
  ([ (c.p 0 2 < 256 && (!thas s.loops (c.p 0 2) || (resumes s c).isSome), inParams c 0)
  , (x.firstCore % max 1 x.split == 0 && x.firstCore / 8 == (x.firstCore + x.split - 1) / 8 &&
      s.dieIn (dieOfCore x.firstCore), inParams c 2)
  , ([1, 2, 4, 8].contains x.split && x.split == p.split, inParams c 3)
  , (inR x.lanesMax 1 64 && x.lanesMax == p.lanesMax, inParams c 4)
  , (inR x.deadline 1 8, inParams c 5)
  , (!(y.realtime && x.freeRun), inParams c 6)
  , (inR x.rate 8000 48000, inParams c 8)
  , (inR x.blockLen 16 4800, inParams c 10)
  , (x.stateBase < 4096 && x.stateBase + 2 * x.stateRows ≤ y.accRows, inParams c 12)
  , (-1000000 ≤ x.trim && x.trim ≤ 1000000, inParams c 16)
  , (wellOk s (c.p 24 8) 1, inParams c 24)
  , (!c.autoWiden, inPacket 0x02)
  , (!rt || c.costEst != 0, inPacket 0x10)
  , (match resumes s c with
     | some z => z.split == x.split && z.lanesMax == x.lanesMax && z.rate == x.rate && z.blockLen == x.blockLen &&
         z.stateBase == x.stateBase && z.stateRows == x.stateRows
     | none => true, inParams c 0) ] : List Check) ++ planChecks s c y x.plan true x.lanesMax

/-- Requests the charges that a loop holds, and wakes its cluster (R274, R336). -/
def loopCharges (l : Nat) (c : Cmd) (x : Loop) (s : State) : State :=
  let s := wakeCores 1 x.cores s
  x.cores.foldl (fun s g => requestStages (.loop l g) g 1 (drawClassOf c x.plan) x.plan.pumpClass s) s

/-- Homes of a resumed loop's slot images (R291). -/
def moveImages (l : Nat) (x : Loop) (s : State) : State :=
  s.modCtx x.ctx (fun y => { y with swapped := y.swapped.map (fun (i : SwapImage) => match i.rank with
    | some (m, r) => if m == l then { i with home := some (x.firstCore + r), rank := none } else i
    | none => i) })

/-- A restored stream joins its resumed loop: it is LOOPING, on the spout of the loop's cluster (R209, R291). -/
def bringStream (k i : Nat) (s : State) : State :=
  match tget? s.streams i with
  | none => s
  | some st =>
    let s := s.modStream i (fun st => { st with state := if st.state == 1 then 2 else st.state, spout := k })
    spoutCharge k (spoutCharge st.spout s)

/-- Writes lane positions into the table of a loop (R97, R196). The table lies in the context region of the loop's first
core: DESIGN CHOICE, R196 does not say in which core's (assumption 903). -/
def storePositions (first : At) (split : Nat) (pos : Table Nat) : Eng Unit :=
  store first first.plan.posOff ((List.range (split * 64)).flatMap (fun k => leBytes 8 (tget pos k 0 % 2 ^ 57)))

/-- Lane positions of a loop, as its table holds them (R196). -/
def loadPositions (first : At) (split : Nat) : Eng (Table Nat) := do
  let b ← load first none first.plan.posOff (8 * (split * 64))
  pure (((List.range (split * 64)).zip (splitLE 8 (split * 64) b)).foldl (fun t e =>
    if e.2 % 2 ^ 57 == 0 then t else tset t e.1 (e.2 % 2 ^ 57)) [])

/-- The places of a loop's plan on its cores. -/
def loopPlaces (s : State) (x : Loop) : List At :=
  match s.cmd? x.cmd with
  | some c => placesOf s c x.plan x.cores
  | none => []

/-- Slots and images are ready on the loop's cores: it stands from now on, with its armed floats at 0; a resumed loop has
its saved positions (R43, R206, R291). -/
def standLoop (u l : Nat) (x : Loop) (s : State) : State :=
  let s := s.modLoop l (fun x => { x with stopped := false, ticks := 0, blockIndex := 0, pacer := 0, nextDue := 0 })
  let s := s.modCmd u (fun c => { c with phase := .accepted, cores := x.cores })
  let s := armFloats x.ctx x.plan x.cores s
  let s := x.lanes.foldl (fun s e => bringStream (clusterOfCore x.firstCore) e.2 s) s
  match (loopPlaces s x).head? with
  | some a => if x.restored then Eng.run (storePositions a x.split x.pos) s else s
  | none => s

/-- Takes what an admitted loop needs on its cores, or waits for it (R43, R47, R265, R273, R279, R289). A plan whose pump or
crop ends cannot be reached from there is refused (R186, R308). -/
def tryStand (u l : Nat) (s : State) : State :=
  match tget? s.loops l, s.cmd? u with
  | some x, some c =>
    match s.ctx? x.ctx with
    | none => s
    | some y =>
      let missing := x.cores.filter (fun g => (slotOf s x.ctx g).isNone)
      if !(x.cores.all (fun g => s.dieIn (dieOfCore g))) then s
      else if !missing.isEmpty && 0 < homeless y then giveHomes x.ctx x.cores s
      else if missing.any (swappedAt y) || (!missing.isEmpty && y.maxSlots < slotCount s x.ctx y + missing.length) then s
      else
        match takeSlots x.ctx y x.cores s with
        | none => s
        | some t =>
          match failing (placedChecks t c x.plan) with
          | d :: ds => refuse u (d :: ds) (dropWaitingLoop l stBadParam 0 s)
          | [] =>
            match reloadAll u x.plan (x.cores.zip (List.range x.split)) t with
            | (.noRoom, s) => s
            | (.poison, s) => retire u stPoison wellPoisonDetail (dropWaitingLoop l stPoison wellPoisonDetail s)
            | (.done, s) => if armsBusy s x.ctx x.plan x.cores then s else standLoop u l x s
  | _, _ => s

/-- The loop is admitted: its record is made or taken up again, and its load counts. -/
def admitLoop (u l : Nat) (c : Cmd) (x : Loop) (s : State) : State :=
  let x := match resumes s c with
    | some z => { z with cmd := u, firstCore := x.firstCore, deadline := x.deadline, freeRun := x.freeRun, trim := x.trim
                         pacerInc := x.pacerInc, costEst := x.costEst, plan := x.plan }
    | none => x
  let s := { s with loops := tset s.loops l { x with admitted := true } }
  let s := moveImages l x s
  let s := loopCharges l c x s
  let s := s.modCmd u (fun c => { c with phase := .ready, plan := some x.plan, object := some l })
  tryStand u l s

/-- STREAM_LOOP: checks and admission at its start; while it waits for a slot, the command is tried again (R100). -/
def execStreamLoop (u : Nat) (p : Plan) (s : State) : Host.Outcome State Fault Refusal :=
  .next (match s.cmd? u with
    | none => s
    | some c =>
      if c.opcode == opStreamLoop && c.phase == .ready && s.serving then
        (match c.object with | some l => tryStand u l s | none => s)
      else onStart u opStreamLoop s (fun c s =>
        match s.ctx? c.ctx with
        | none => s
        | some y =>
          checked u (loopChecks s c p y) s (fun s =>
            let x := loopOfParams c p
            if silenced s c.ctx then retire u stProvExhausted 0 s
            else if y.realtime && !x.freeRun && !admits s x then retire u stAdmissionRefused 0 s
            else admitLoop u (c.p 0 2) c x s)))

-- ## The pacer

/-- PACER_TICK: REFCLK runs to the pacer's next carry, which is one tick (R114). -/
def execPacerTick (l : Nat) (s : State) : Host.Outcome State Fault Refusal :=
  .next (match tget? s.loops l with
    | none => s
    | some x =>
      if x.stopped || x.pacerInc == 0 || !s.serving then s
      else
        let k := cdiv (2 ^ 48 - x.pacer.toNat) x.pacerInc.toNat
        s.modLoop l (fun x => { x with ticks := satAdd 64 x.ticks 1
                                       pacer := BitVec.ofNat 48 (x.pacer.toNat + k * x.pacerInc.toNat) }))

-- ## Lanes

/-- Entry rows that a lane owns in each half (R96). -/
def laneRows (x : Loop) : Nat := x.stateRows / max 1 x.lanesMax

/-- A lane starts afresh in the working state, the working history and its positions (R81, R101, R108, R196). -/
def resetLane (l lane : Nat) : Eng Unit := do
  let s ← getS
  match tget? s.loops l with
  | none => pure ()
  | some x => do
    let n := laneRows x
    eachM (fun a => do
      accStore a (x.stateBase + lane * n) (List.replicate (n * 64) x.plan.stateInit.toNat)
      clearHistory a lane) (loopPlaces s x)
    modS (fun s => s.modLoop l (fun x => { x with
      workPos := (List.range x.split).foldl (fun t r => tdel t (r * 64 + lane)) x.workPos }))

/-- A mark is applied to a stream's lane: later draws count from it (R108, R197). -/
def applyMark (l lane i : Nat) : Eng Unit := do
  resetLane l lane
  modS (fun s => s.modStream i (fun st => { st with markBase := st.markIndex }))

/-- A stream leaves its lane: STREAM_CLOSE completes, and a mark that has not landed never will (R104, R109). -/
def leaveLane (l lane i : Nat) (s : State) : State :=
  match tget? s.streams i with
  | none => s
  | some st =>
    let s := s.modLoop l (fun x => { x with lanes := tdel x.lanes lane })
    let s := s.modStream i (fun st => { st with lane := none, openCmd := none, closeCmd := none, markCmd := none
                                                markPending := false, staged := [] })
    let s := match st.openCmd with | some u => completeOk u s | none => s
    let s := match st.markCmd with | some u => retire u stKilled byMarkGone s | none => s
    let s := match st.closeCmd with | some u => completeOk u s | none => s
    if st.lastOut then freeStream i s else s

/-- Streams that end with block n without stepping in it leave; their FINAL concealment is due at the block's due tick,
at once where that has passed or there is none. -/
def departParked (l n : Nat) (parked : List (Nat × Nat)) (s : State) : State :=
  parked.foldl (fun s e =>
    match tget? s.streams e.2, tget? s.loops l with
    | some st, some x =>
      if st.finalAt == some n then
        let s := leaveLane l e.1 e.2 s
        if x.freeRun || n < x.nextDue then emitConceal e.2 { final := true, now := true } s
        else if x.parkedAt.any (fun p => p.1 == n && p.2.contains e.2) then s
        else s.modLoop l (fun x => { x with parkedAt := x.parkedAt ++ [(n, [e.2])] })
      else s
    | _, _ => s) s

/-- A block of a loop waits under HOLD for a due tick to come (R218). -/
def heldDue (s : State) (l : Nat) : Bool :=
  s.bindings.any (fun b => b.2.held.any (fun k => match k.due with | some (m, _) => m == l | none => false))

/-- The record of an ended loop is free once no due tick to come concerns it (R213, R218; assumption 520). -/
def freeLoop (l : Nat) (s : State) : State :=
  match tget? s.loops l with
  | none => s
  | some x => if x.dead && x.lanes.isEmpty && x.parkedAt.isEmpty && !heldDue s l then { s with loops := tdel s.loops l } else s

/-- A loop whose CLOSE_LOOP block is done: it ends with ST_OK (R104). Its record stays until the due ticks of blocks that
owe concealment or wait under HOLD have passed. -/
def finishLoop (l : Nat) (s : State) : State :=
  match tget? s.loops l with
  | none => s
  | some x =>
    if !x.closing then s
    else
      let s := dropCharges (isLoopCharge l) s
      let s := s.modLoop l (fun x => { x with dead := true, admitted := false, saves := [], parkedAt := if x.freeRun then [] else x.parkedAt })
      let s := relaxCluster (clusterOfCore x.firstCore) s
      let s := releaseKeyWait l s
      let s := match x.closeCmd with | some u => completeOk u s | none => s
      freeLoop l (completeOk x.cmd s)

-- ## The gate

/-- REFCLK cycles until a loop's due tick, at the pacer's present rate and phase (R107, R114, R275). -/
def cyclesToDue (x : Loop) : Int :=
  let left : Int := (((x.blockIndex + x.deadline) * x.blockLen : Nat) : Int) - (x.ticks : Int)
  let inc : Int := ((max 1 x.pacerInc.toNat : Nat) : Int)
  Int.fdiv (left * 2 ^ 48 - (x.pacer.toNat : Int) + inc - 1) inc

/-- Whether loop b is started before loop a on a core (R275). -/
def goesFirst (s : State) (g a b : Nat) (x y : Loop) : Bool :=
  let sx := sharesOf s (classOf s x.ctx)
  let sy := sharesOf s (classOf s y.ctx)
  if degraded s g && sx != sy then decide (sx < sy)
  else decide (cyclesToDue y < cyclesToDue x) || (cyclesToDue x == cyclesToDue y && decide (b < a))

/-- No other waiting tier-1 block comes first on any of the loop's cores. -/
def firstInLine (s : State) (l : Nat) (x : Loop) : Bool :=
  s.loops.all (fun e => e.1 == l || !(blockReady s e.2 && tierOne s e.2) ||
    x.cores.all (fun g => !e.2.cores.contains g || !goesFirst s g l e.1 x e.2))

/-- Whether a tier-1 block may take a core now: a tier-3 plan there is killed and a pump-only command yields; a group member
after DONE and a tier-1 block are not disturbed (R275, R276, R278). -/
def mayTake (s : State) (g : Nat) : Bool :=
  match runningOn s g with
  | none => true
  | some c => c.phase != .held && (match loopOfCmd s c with | some x => !tierOne s x | none => true)

/-- Clears a core for a tier-1 block: a tier-3 plan is killed and queued again, charged with the cycles that it ran; a
pump-only command yields (R268, R276). -/
def takeCore (ran : Ran) (g : Nat) (s : State) : State :=
  match runningOn s g with
  | none => s.modCore g Core.idle
  | some c =>
    if isPump c.opcode then s.modCore g Core.idle
    else countPreempt c.ctx (killRun c.uid (ranOf ran c.uid) s)

/-- Records the lanes that are parked in block n, for its due tick (R103). PARK_MASK is cleared by the block's commit and
otherwise stays to the next gate, so it stands after a skipped block; a stream's PARKED flag stays until it steps again:
DESIGN CHOICE, R99 says when they are set and not when they clear (assumption 521). -/
def parkLanes (l n : Nat) (parked : List (Nat × Nat)) (s : State) : State :=
  let s := parked.foldl (fun s e => s.modStream e.2 (fun st => { st with parked := true })) s
  s.modLoop l (fun x =>
    { x with parkMask := BitVec.ofNat 64 (parked.foldl (fun m e => m + 2 ^ e.1) 0)
             parkedAt := if parked.isEmpty || x.freeRun || n < x.nextDue then x.parkedAt
               else x.parkedAt ++ [(n, parked.map Prod.snd)] })

/-- What CTX_SAVE captures of a loop at a commit (R288). -/
def snapLoop (s : State) (l : Nat) (x : Loop) : LoopSnap :=
  { l := l, record := loopBytes l x
    rng := (match s.ctx? x.ctx with | some y => rngRecord y (some (l, x)) | none => [])
    streams := x.lanes.map (fun e => (e.2, streamBytes e.2 (tget s.streams e.2 {})))
    slots := x.cores.filterMap (fun g => (slotOf s x.ctx g).map (fun k => (g, k, slotImage s g k))) }

def captureLoop (l : Nat) (s : State) : State :=
  match tget? s.loops l with
  | none => s
  | some x =>
    let snap := snapLoop s l x
    let s := x.saves.foldl (fun s u => s.modCmd u (fun c => { c with snaps := c.snaps ++ [snap] })) s
    s.modLoop l (fun x => { x with saves := [] })

/-- A block in which no lane steps is skipped at its gate (R103). -/
def skipBlock (l : Nat) (x : Loop) (s : State) : State :=
  let n := x.blockIndex
  let s := releaseKeyWait l (parkLanes l n x.lanes s)
  let s := s.modLoop l (fun x => { x with blockIndex := satAdd 64 n 1, stepping := none })
  finishLoop l (captureLoop l (departParked l n x.lanes s))

/-- What a block's first step finds: committed history and state are copied, positions loaded, temperatures latched, joins
and marks applied (R79, R97, R101, R108, R196, R202). -/
def enterBlock (l : Nat) (x : Loop) (mine : List (Nat × Nat)) : Eng Unit := do
  let s ← getS
  let as := loopPlaces s x
  copiesIn as
  match as.head? with
  | none => pure ()
  | some a => do
    let pos ← loadPositions a x.split
    let temps ← tempsIn a
    modS (fun s => s.modLoop l (fun x => { x with pos := pos, workPos := pos, temps := temps }))
    eachM (fun (e : Nat × Nat) => do
      let s ← getS
      match tget? s.streams e.2 with
      | none => pure ()
      | some st => do
        if st.joined then pure () else resetLane l e.1
        if st.markPending && st.markIndex == st.sampleIndex then applyMark l e.1 e.2 else pure ()) mine

/-- The first step of a block is about to run: the block occupies its cores; at its first start the key is latched and the
parked lanes are known, at a re-run the armed floats are 0 again (R43, R98, R103, R204). -/
def startBlock (l : Nat) (x : Loop) (mine : List (Nat × Nat)) (s : State) : State :=
  let fresh := x.stepping.isNone
  let key := match s.ctx? x.ctx with | some y => y.key | none => x.key
  let s := if fresh then parkLanes l x.blockIndex (x.lanes.filter (fun e => !mine.contains e)) s
    else armFloats x.ctx x.plan x.cores s
  let s := s.modLoop l (fun x => { x with
    stepping := some (mine.map Prod.fst), running := true, stepsDone := 0, satBlock := 0, workBlocks := x.blocks
    key := if fresh then key else x.key })
  let s := mine.foldl (fun s e => s.modStream e.2 (fun st =>
    { st with parked := false, staged := [], steps := 0, markBase := st.lastMark, voice := voiceOf s x.plan })) s
  let s := startCmd x.cmd ((occupy x.cmd x.cores s).modCmd x.cmd runsAgain)
  let s := if fresh then releaseKeyWait l s else s
  Eng.run (enterBlock l x mine) s

/-- A block whose cores are clear starts, once its images are there (R43, R47); poison in one ends the loop (R302). -/
def readyBlock (l : Nat) (x : Loop) (mine : List (Nat × Nat)) (s : State) : State :=
  if !(x.cores.all (settled s)) || (x.stepping.isSome && armsBusy s x.ctx x.plan x.cores) then s
  else
    match reloadAll x.cmd x.plan (x.cores.zip (List.range x.split)) s with
    | (.noRoom, s) => s
    | (.poison, s) => faultPlan x.cmd stPoison wellPoisonDetail s
    | (.done, s) => startBlock l x mine s

/-- Whether a loop's block is served now: a tier-1 block that is first on its cores and may take them; a tier-3 block that is
the first in the order of service that can be placed (R269, R270, R275, R276). -/
def blockServed (s : State) (l : Nat) (x : Loop) : Bool :=
  if tierOne s x then firstInLine s l x && x.cores.all (mayTake s)
  else
    let s := enterBacklog s
    match (serveList s).find? (canPlace s) with
    | some c => c.uid == x.cmd
    | none => false

/-- BLOCK_GATE: a loop's block starts at its gate, or right after a late predecessor; `ran` gives the core-cycles that the
running plans have run (R103, R107, R270, R275, R276). -/
def execBlockGate (l : Nat) (ran : Ran) (s : State) : Host.Outcome State Fault Refusal :=
  .next (match tget? s.loops l with
    | none => s
    | some x =>
      if !s.serving || x.running || x.stopped || x.dead || !x.admitted || !gateReached x then s
      else
        let mine := lanesDue s x
        if mine.isEmpty then skipBlock l x s
        else if !blockServed s l x then s
        else
          let one := tierOne s x
          let s := wakeCores 1 x.cores (if one then s else enterBacklog s)
          if !(x.cores.all (coreFlowing s)) || waiting (isLoopCharge l) s then s
          else
            let s := if one then x.cores.foldl (fun s g => takeCore ran g s) s
              else (match s.cmd? x.cmd with | some c => served c s | none => s)
            readyBlock l x mine s)

-- ## Steps

/-- (1 − z) · h + z · n, one C48 rounding, and the saturations of the conversions to FP32 (R60, R95). -/
def gateValue (h az ar an : Nat) : Nat × Nat :=
  let fz := convF c48 fp32 az
  let fr := convF c48 fp32 ar
  let fn := convF c48 fp32 an
  let z := decF fp32 (Config.sigma (BitVec.ofNat 32 fz.1)).toNat
  let r := (Config.sigma (BitVec.ofNat 32 fr.1)).toNat
  let n := decF fp32 (Config.tanh (BitVec.ofNat 32 (fp32Mul r fn.1))).toNat
  (encF c48 ((((Fl.ofInt 1).sub z).mul (decF c48 h)).add (z.mul n)), fz.2 + fr.2 + fn.2)

def zip4 : List Nat → List Nat → List Nat → List Nat → List (Nat × Nat)
  | h :: hs, a :: as, b :: bs, c :: cs => gateValue h a b c :: zip4 hs as bs cs
  | _, _, _, _ => []

/-- n products of an entry row with their biases added, one C48 rounding each (R95 step 1). -/
def biased (a : At) (row n : Nat) (bias : Option RowSrc) : Eng (List Nat) := do
  let vs ← accLoad a row 0 n
  match bias with
  | none => pure vs
  | some src => do
    let bs ← rowVals a src n
    let cs := bs.map (rowConv src c48)
    saturate a (satSum cs)
    pure (List.zipWith c48Add vs (cs.map Prod.fst))

/-- Steps 2 and 3 of R95 for one lane on one core. -/
def gateLane (a : At) (x : Loop) (g : GateOp) (lane : Nat) : Eng Unit := do
  let n := g.rows * 64
  let row := x.stateBase + lane * laneRows x
  let h ← accLoad a row 0 n
  let az ← biased a (g.az + lane * g.rows) n g.bz
  let ar ← biased a (g.ar + lane * g.rows) n g.br
  let an ← biased a (g.an + lane * g.rows) n g.bn
  let out := zip4 h az ar an
  saturate a (satSum out)
  accStore a row (out.map Prod.fst)

/-- The state update of every stepping lane at the ranks that stand at it; V-engine cycles are free (assumption 611). -/
def gateRanks (x : Loop) (lanes : List Nat) (as : List At) : Eng Unit :=
  eachM (fun a => do
    let s ← getS
    match stepAt s a with
    | some (.gate g) => do
      modS (holdPort a (.gate g))
      eachM (gateLane a x g) lanes
      modS (fun s =>
        let (f, s) := freeCycles s
        advance a (s.perfAdd a.core 1 f))
    | _ => pure ()) as

/-- Delivers the samples of a step to the spouts' staging (R95 step 7). -/
def stageSamples (x : Loop) (lanes : List Nat) (as : List At) : Eng Unit :=
  eachM (fun j =>
    match x.plan.loopSamples.find? (fun q => q.lane == j), tget? x.lanes j with
    | some q, some i =>
      match as.find? (fun a => a.rank == q.rank) with
      | none => pure ()
      | some a => do
        let ws ← sampleRow a i q.src 1
        modS (fun s => s.modStream i (fun st => { st with staged := st.staged ++ ws, steps := st.steps + 1 }))
    | _, _ => pure ()) lanes

/-- Marks that fall between the step just done and the next one (R108). -/
def stepMarks (l : Nat) (x : Loop) (lanes : List Nat) : Eng Unit :=
  eachM (fun j => do
    let s ← getS
    match (tget? x.lanes j).bind (fun i => (tget? s.streams i).map (fun st => (i, st))) with
    | none => pure ()
    | some (i, st) =>
      if st.markPending && st.steps < x.blockLen && st.markIndex == st.sampleIndex + st.steps then applyMark l j i
      else pure ()) lanes

/-- The ranks of a loop stand at the first step of the plan again. -/
def rewind (x : Loop) (s : State) : State :=
  x.cores.foldl (fun s g => s.modCore g (fun c => { c with pos := 0, checked := none })) s

/-- STREAM_STEP: the state update of R95, at the ranks that stand at it; or, once every rank has carried out the plan's last
step, the end of one step of the loop. Every stepping lane has advanced by one sample then; a block that a mark has made
obsolete is discarded (R95, R109; assumption 522). -/
def execStreamStep (l : Nat) (s : State) : Host.Outcome State Fault Refusal :=
  .next (match tget? s.loops l with
    | none => s
    | some x =>
      let lanes := x.stepping.getD []
      let as := loopPlaces s x
      if !s.serving || !x.running || x.blockLen ≤ x.stepsDone then s
      else if as.any (fun a => match stepAt s a with | some (.gate _) => true | _ => false) then
        Eng.run (gateRanks x lanes as) s
      else if !atEnd s x.plan x.cores then s
      else if x.rerunAsked then
        let (n, s) := freeCycles s
        killBlock l n s
      else Eng.run (do
        stageSamples x lanes as
        stepMarks l x lanes
        modS (fun s =>
          let s := s.modLoop l (fun x => { x with stepsDone := x.stepsDone + 1 })
          if x.stepsDone + 1 == x.blockLen then s else rewind x s)) s)

-- ## The commit

/-- STREAM_MARK commands that waited while a mark of their own index landed: they land at the same step (R109). -/
def landAgain (i m : Nat) (s : State) : State :=
  { s with inflight := s.inflight.map (fun c =>
      if c.opcode == opStreamMark && c.phase == .fetched && c.p 0 2 == i && c.p 8 6 == m then { c with landed := true } else c) }

/-- One stepping stream at the commit of block n: its mark lands, its samples go out or are dropped, it advances, and it
leaves where it ends (R97, R101, R104, R107, R108). -/
def commitStream (l n : Nat) (onTime : Bool) (lane i : Nat) (s : State) : State :=
  match tget? s.streams i, tget? s.loops l with
  | some st, some x =>
    let next := st.sampleIndex + x.blockLen
    let landed := st.markPending && st.sampleIndex ≤ st.markIndex && st.markIndex < next
    let ends := st.finalAt == some n || (match st.endIndex with | some e => e ≤ next | none => false)
    let keep := match st.endIndex with | some e => e - st.sampleIndex | none => x.blockLen
    let s := s.modStream i (fun st => { st with
      sampleIndex := next, lastMark := if landed then st.markIndex else st.lastMark
      markPending := if landed then false else st.markPending, joined := true, steps := 0, staged := []
      openCmd := none, markCmd := if landed then none else st.markCmd })
    let s := if onTime then
        emitSamples i (st.staged.take keep)
          { final := ends, mark := landed, due := if x.freeRun then none else some (l, n) } s
      else if ends && !st.finished then emitConceal i { final := true, now := true } s
      else s
    let s := match st.openCmd with | some u => completeOk u s | none => s
    let s := if landed then landAgain i st.markIndex (match st.markCmd with | some u => completeOk u s | none => s) else s
    if ends then leaveLane l lane i s else s
  | _, _ => s

/-- The loop's record and its streams after the commit of block n: they advance as one action (R97). -/
def commitLoop (l : Nat) (x : Loop) (s : State) : State :=
  let n := x.blockIndex
  let lanes := x.stepping.getD []
  let mine := x.lanes.filter (fun e => lanes.contains e.1)
  let parked := x.lanes.filter (fun e => !lanes.contains e.1)
  let s := vacate x.cmd s
  let s := s.modCmd x.cmd (fun c => { c with timeouts := 0, parityFails := 0 })
  let sat := ((s.cmd? x.cmd).map (fun c => c.sat)).getD 0
  let s := s.modLoop l (fun x => { x with
    committedHalf := !x.committedHalf, pos := x.workPos, blocks := x.workBlocks, satTotal := sat, satBlock := 0, stepsDone := 0
    blockIndex := satAdd 64 n 1, commitIndex := satAdd 64 n 1, running := false, stepping := none, parkMask := 0 })
  let s := mine.foldl (fun s e => commitStream l n (x.nextDue ≤ n) e.1 e.2 s) s
  finishLoop l (captureLoop l (departParked l n parked s))

/-- BLOCK_COMMIT: the block's last step has ended on every core; everything it did takes effect as one action (R97). What the
commit reads is met first; a discarded write of it ends the loop (R27). -/
def execBlockCommit (l cyc : Nat) (s : State) : Host.Outcome State Fault Refusal :=
  .next (match tget? s.loops l with
    | none => s
    | some x =>
      match s.cmd? x.cmd with
      | none => s
      | some c =>
        if !s.serving || !x.running || x.stepsDone != x.blockLen || x.rerunAsked || satPasses c x.satBlock then s
        else
          let as := loopPlaces s x
          Eng.run (do
            modS (endRun x.cmd cyc)
            let ws ← commitData as x.plan
            eachM historyMeet as
            match as.head? with
            | some a => storePositions a x.split x.workPos
            | none => pure ()
            eachM historyOut as
            modS (fun s =>
              let (ok, s) := commitWrites x.cmd ws s
              let s := commitLoop l x s
              if ok then s else faultPlan x.cmd stContextFault 0 s)) s)

-- ## Due ticks

/-- A block that is late at its due tick: the streams that step in it. -/
def lateLanes (x : Loop) (n : Nat) : List (Nat × Nat) :=
  if x.dead || n < x.blockIndex then []
  else if n == x.blockIndex then
    (match x.stepping with
     | some ls => x.lanes.filter (fun e => ls.contains e.1)
     | none => x.lanes)
  else x.lanes

/-- Whether a stream ends with block n of its loop (R104). -/
def endsWith (s : State) (x : Loop) (n i : Nat) : Bool :=
  match tget? s.streams i with
  | some st => st.finalAt == some n ||
      (match st.endIndex with | some e => e ≤ st.sampleIndex + x.blockLen && st.lane.isSome | none => false)
  | none => false

/-- DUE_TICK: the due tick of the loop's next block passes. Parked lanes and lanes of a block that is late get
concealment; waits under HOLD for that block end; a dead loop's streams get their FINAL blocks and no other (R103, R107,
R213, R218). -/
def execDueTick (l : Nat) (s : State) : Host.Outcome State Fault Refusal :=
  .next (match tget? s.loops l with
    | none => s
    | some x =>
      let n := x.nextDue
      if !s.serving || x.freeRun || x.stopped || x.ticks < (n + x.deadline) * x.blockLen then s
      else
        let s := s.modLoop l (fun x => { x with nextDue := n + 1, parkedAt := x.parkedAt.filter (fun p => p.1 != n) })
        let s := s.bindings.foldl (fun s b => shedHeld (fun k => k.due == some (l, n)) b.1 s) s
        let bury := x.dead && x.blockIndex ≤ n && !x.lanes.isEmpty
        let parked := ((x.parkedAt.filter (fun p => p.1 == n)).flatMap (fun p => p.2)).filter (fun i =>
          !(bury && x.lanes.any (fun e => e.2 == i)))
        let s := parked.foldl (fun s i =>
          emitConceal i { now := true, final := (match tget? s.streams i with | some st => st.finalAt == some n | none => false) } s) s
        let late := lateLanes x n
        let s := if late.isEmpty then s else s.modCmd x.cmd (fun c => { c with late := true })
        let s := late.foldl (fun s e => emitConceal e.2 { late := true, now := true, final := endsWith s x n e.2 } s) s
        if bury then buryLoop l s else freeLoop l s)

end Sys2Proof.Machine
end

