-- ==== Sys2Proof/Machine/Streams.lean ====
section
/-!
DEFINITION. Stream commands (R101, R102, R104, R108 to R111, R115, R283 to R285, R295, R296), chunk release (R110), and
the random state of a context (R203 to R205).
-/

namespace Sys2Proof.Machine

-- ## STREAM_OPEN

/-- W of R215: bytes of a PCM sample. -/
def pcmWidth (fmt : Nat) : Nat := if bitOf fmt 0 then 3 else 2

/-- The rules of R215 on the binding that a stream names. -/
def bindingFits (s : State) (c : Cmd) (isLoop : Bool) (blockLen b : Nat) : Bool :=
  if b == 0xFFFF then isLoop
  else
    match tget? s.bindings b with
    | none => false
    | some x =>
      let n := if isLoop then blockLen else x.blockLen
      x.ctx == c.ctx && x.stream.isNone && !x.dying && (isLoop == (x.blockLen == 0)) &&
      x.targets.all (fun t => 32 + n * pcmWidth x.pcmFmt ≤ t.slotBytes)

/-- Streams that a spout serves. -/
def spoutLoad (s : State) (k : Nat) : Nat := (s.streams.filter (fun e => e.2.spout == k && e.2.state != 0)).length

/-- The spout in service that serves the fewest streams, the lowest among equals (R209). -/
def leastSpout (s : State) : Nat :=
  match spoutsIn s with
  | [] => 0
  | k :: ks => ks.foldl (fun best j => if spoutLoad s j < spoutLoad s best then j else best) k

/-- The spout of a stream. -/
def spoutFor (s : State) (loop : Option Loop) (b : Nat) : Nat :=
  match loop with
  | some x => clusterOfCore x.firstCore
  | none =>
    let k := (tget s.bindings b {}).spout
    if k == 0xFF then leastSpout s else k

/-- Any spout would do, and no die is in service (R380). -/
def noSpout (s : State) (b : Nat) : Bool := (tget s.bindings b {}).spout == 0xFF && s.dev.dies == 0

/-- A stream with both edges of the buffer-wait graph closes a cycle through its pool (R285). -/
def closesCycle (x : Ctx) (blockLen : Nat) : Bool :=
  3 * blockLen < x.chunkMax && 1 ≤ x.chunkAhead && 3 * blockLen < (x.chunkAhead + 1) * x.chunkMax

/-- The lowest free lane of a loop. -/
def freeLane (x : Loop) : Option Nat := (List.range x.lanesMax).find? (fun j => !thas x.lanes j)

/-- Loop that a stream command may join. -/
def openLoop (s : State) (c : Cmd) (l : Nat) : Option Loop :=
  match tget? s.loops l with
  | some x => if x.ctx == c.ctx && !x.dead && !x.closing && x.admitted then some x else none
  | none => none

def openChecks (s : State) (c : Cmd) (y : Ctx) (isLoop : Bool) (loop : Option Loop) : List Check :=
  let b := c.p 4 2
  let bl := match loop with | some x => x.blockLen | none => 0
  [ (s.dev.numValid, inPacket noField)
  , ((tget s.streams (c.p 0 2) {}).state == 0, inParams c 0)
  , (!isLoop || loop.isSome, inParams c 2)
  , (bindingFits s c isLoop bl b, inParams c 4)
  , (isLoop || b == 0xFFFF || noSpout s b || s.dieIn (dieOfCluster (spoutFor s none b)), inParams c 4)
  , (inR (c.p 6 2) 1 4096, inParams c 6)
  , (c.p 8 2 % 64 == 0 && c.p 8 2 != 0, inParams c 8)
  , (c.p 16 8 % 64 == 0 && wellOk s (c.p 16 8) 1, inParams c 16)
  , (inR (c.p 24 4) 1 (2 ^ 31 - 1), inParams c 24)
  , (isLoop || y.chunkMax != 0, inParams c 2) ]

/-- STREAM_OPEN: checks in the order of R283; the stream takes a lane, or waits for chunks (R101, R110, R234, R296, R370). -/
def execStreamOpen (u : Nat) (s : State) : Host.Outcome State Fault Refusal :=
  .next (onStart u opStreamOpen s (fun c s =>
    match s.ctx? c.ctx with
    | none => s
    | some y =>
      let i := c.p 0 2
      let l := c.p 2 2
      let b := c.p 4 2
      let isLoop := l != 0xFFFF
      let loop := if isLoop then openLoop s c l else none
      checked u (openChecks s c y isLoop loop) s (fun s =>
        let bind := tget s.bindings b {}
        let bl := match loop with | some x => x.blockLen | none => bind.blockLen
        let rate := match loop with | some x => x.rate | none => bind.rate
        let d := match loop with | some x => x.deadline | none => 2
        let k := spoutFor s loop b
        let need := stagingFor d bl
        let lane := match loop with | some x => freeLane x | none => none
        if !isLoop && noSpout s b then retireOnly u stDieLost 0xFF s
        else if silenced s c.ctx then retire u stProvExhausted 0 s
        else if !isLoop && closesCycle y bl then retire u stDeadlockRefused 0 s
        else if (isLoop && lane.isNone) || 4 * 2 ^ 20 < poolReserved s k + poolClaimed s k + need || 512 ≤ spoutLoad s k
        then retire u stAdmissionRefused 0 s
        else
          let st : Stream :=
            { ctx := c.ctx, state := if isLoop then 2 else 1, lane := lane, loop := if isLoop then some l else none
              hopLen := c.p 6 2, frameBytes := c.p 8 2, binding := if b == 0xFFFF then none else some b
              feedBase := c.p 16 8, feedFrames := c.p 24 4, openCmd := if isLoop then some u else none
              spout := k, reserved := need, blockLen := bl, rate := rate }
          let s := { s with streams := tset s.streams i st }
          let s := if b == 0xFFFF then s else s.modBinding b (fun x => { x with stream := some i })
          let s := match lane with | some j => s.modLoop l (fun x => { x with lanes := tset x.lanes j i }) | none => s
          let s := spoutCharge k (beginWake (uncoreOf k) 0 s)
          if isLoop then s.modCmd u (fun c => { c with phase := .accepted }) else completeOk u s)))

-- ## STREAM_FEED

/-- A stream that a command may name (R295, R422). -/
def ownStream (s : State) (c : Cmd) (i : Nat) : Bool :=
  match tget? s.streams i with
  | some st => st.state != 0 && st.ctx == c.ctx
  | none => false

/-- STREAM_FEED (R102, R115, R295). -/
def execStreamFeed (u : Nat) (s : State) : Host.Outcome State Fault Refusal :=
  .next (onStart u opStreamFeed s (fun c s =>
    let i := c.p 0 2
    let st := tget s.streams i {}
    let trim := bitOf (c.p 2 1) 0
    checked u
      [ (ownStream s c i, inParams c 0)
      , (!trim || st.loop.isSome, inParams c 2)
      , ((BitVec.ofNat 32 (c.p 4 4) - st.feedLimit).toNat < 2 ^ 31, inParams c 4)
      , (!trim || (-1000000 ≤ c.pInt 8 && c.pInt 8 ≤ 1000000), inParams c 8) ] s (fun s =>
      let s := s.modStream i (fun st => { st with feedLimit := BitVec.ofNat 32 (c.p 4 4) })
      let s := if !trim then s
        else match st.loop with
          | some l => s.modLoop l (fun x => { x with trim := c.pInt 8, pacerInc := pacerIncOf x.rate (c.pInt 8) })
          | none => s
      completeOk u s)))

-- ## STREAM_MARK

/-- Runs of a stream's chunks whose range or reach a mark at index m falls in (R111). -/
def markedRuns (s : State) (i m : Nat) : List Nat :=
  match tget? s.streams i with
  | none => []
  | some st => (st.chunks.filter (fun k => !k.committed)).filterMap (fun k =>
      match s.cmd? k.uid with
      | some c =>
        let p := c.plan.getD {}
        if k.start < m + p.reachLeft && m ≤ k.start + k.len + p.reachRight then some k.uid else none
      | none => none)

/-- A mark on a loop stream that falls in the current block: for a step to come it is held and applied in place; where its
step has begun or is done, the block runs again (R109). Steps run back to back, so a running block is always in a step. -/
def markInBlock (l lane : Nat) (x : Loop) (st : Stream) (m : Nat) (s : State) : State :=
  if !(x.running && (x.stepping.getD []).contains lane && m < st.sampleIndex + x.blockLen) then s
  else if st.sampleIndex + st.steps < m then s
  else if x.stepsDone == x.blockLen then
    let (n, s) := freeCycles s
    killBlock l n s
  else s.modLoop l (fun x => { x with rerunAsked := true })

/-- The end that a closing stream has: END_INDEX, or the end of the block in progress (R104). -/
def endOfStream (s : State) (st : Stream) : Option Nat :=
  match st.endIndex, st.finalAt, st.loop with
  | some e, _, _ => some e
  | none, some _, some l => (tget? s.loops l).map (fun x => st.sampleIndex + x.blockLen)
  | none, _, _ => none

/-- STREAM_MARK (R108, R109, R111, R295). It does not start while a mark of the stream is pending; one that waited while a mark
of its own index landed has landed with it. -/
def execStreamMark (u : Nat) (s : State) : Host.Outcome State Fault Refusal :=
  .next (match s.cmd? u with
    | none => s
    | some c0 =>
      if (tget s.streams (c0.p 0 2) {}).markPending then s
      else onStart u opStreamMark s (fun c s =>
        let i := c.p 0 2
        let m := c.p 8 6
        let st := tget s.streams i {}
        checked u
          [ (ownStream s c i, inParams c 0)
          , (c.landed || (st.sampleIndex ≤ m && (match endOfStream s st with | some e => m < e | none => true)), inParams c 8) ] s
          (fun s =>
          if c.landed then completeOk u s
          else if st.ended then retire u stKilled byMarkGone s
          else
          let s := s.modStream i (fun st => { st with markPending := true, markIndex := m, markCmd := some u })
          let s := s.modCmd u (fun c => { c with phase := .accepted })
          match st.loop, st.lane with
          | some l, some j => match tget? s.loops l with
            | some x => markInBlock l j x st m s
            | none => s
          | _, _ => (markedRuns s i m).foldl (fun s v =>
              let (n, s) := freeCycles s
              requeue v n s) s)))

-- ## Release of chunks

/-- The blocks of a chunk, in order: samples, first sample index, whether it is the last. -/
def chunkBlocks (blockLen start : Nat) : Nat → List W32 → List (List W32 × Nat × Bool)
  | 0, _ => []
  | n + 1, xs =>
    if xs.length ≤ blockLen then [(xs, start, true)]
    else (xs.take blockLen, start, false) :: chunkBlocks blockLen (start + blockLen) n (xs.drop blockLen)

/-- Staging of released chunks returns once none of the stream's blocks waits (R284). -/
def purgeChunks (i : Nat) (s : State) : State :=
  match tget? s.streams i with
  | none => s
  | some st =>
    let waits := match st.binding with | some b => (tget s.bindings b {}).held.any (fun k => k.stream == i) | none => false
    if waits then s else s.modStream i (fun st => { st with chunks := st.chunks.filter (fun k => !k.released) })

/-- Commands that wait on a stream which ends by its chunks retire. -/
def endRunStream (i : Nat) (st : Stream) (s : State) : State :=
  let s := s.modStream i (fun st => { st with markCmd := none, closeCmd := none, markPending := false })
  let s := match st.markCmd with | some u => retire u stKilled byMarkGone s | none => s
  match st.closeCmd with | some u => completeOk u s | none => s

/-- Whether a RUN that has passed its checks still works on the stream. -/
def chunkInFlight (s : State) (i : Nat) : Bool :=
  s.inflight.any (fun c => c.opcode == opRun && c.plan.isSome && (match (argsOf s c).chunk with
    | some (j, _, _) => j == i
    | none => false))

/-- A closing stream with nothing more to come ends with a FINAL concealment block. -/
def endIfDone (i : Nat) (s : State) : State :=
  match tget? s.streams i with
  | none => s
  | some st =>
    if st.state == 3 && st.loop.isNone && !st.finished && !(withholding s && mayEmit s st) && st.chunks.all (fun k => k.released) && !chunkInFlight s i then
      let s := endRunStream i st s
      if mayEmit s st then emitConceal i { final := true } s else freeStream i s
    else s

/-- Emits one chunk that is next in sample order (R110). -/
def releaseChunk (i : Nat) (st : Stream) (k : Chunk) (s : State) : State :=
  let last := k.start + k.len
  let stop := match st.endIndex with | some e => min e last | none => last
  let ends := k.final || (match st.endIndex with | some e => e ≤ last | none => false)
  let landed := st.markPending && k.start ≤ st.markIndex && st.markIndex < last
  let s := s.modStream i (fun st => { st with
    sampleIndex := last, voice := k.voice
    lastMark := if landed then st.markIndex else st.lastMark
    markPending := if landed then false else st.markPending, markCmd := if landed then none else st.markCmd
    chunks := st.chunks.map (fun (j : Chunk) => if j.uid == k.uid then { j with released := true, samples := [] } else j) })
  let s := if landed then landAgain i st.markIndex (match st.markCmd with | some u => completeOk u s | none => s) else s
  let s := if ends then endRunStream i (tget s.streams i st) s else s
  let xs := k.samples.take (stop - k.start)
  let s := (chunkBlocks st.blockLen k.start (xs.length + 1) xs).foldl (fun s b =>
    emitSamples i b.1
      { final := ends && b.2.2, mark := landed && b.2.1 ≤ st.markIndex && st.markIndex < b.2.1 + st.blockLen } s) s
  purgeChunks i s

/-- CHUNK_RELEASE: the stream's next chunk in sample order goes to the spout, unless blocks are withheld or its blocks
still wait under HOLD (R110, R218, R230). -/
def execChunkRelease (i : Nat) (s : State) : Host.Outcome State Fault Refusal :=
  .next (match tget? s.streams i with
    | none => s
    | some st =>
      if !s.serving || st.loop.isSome then s
      else
        let waits := match st.binding with | some b => !(tget s.bindings b {}).held.isEmpty | none => false
        match st.chunks.find? (fun k => k.committed && !k.released && k.start == st.sampleIndex) with
        | some k => if waits || st.finished || withholding s || silenced s st.ctx then s else releaseChunk i st k s
        | none => endIfDone i (purgeChunks i s))

-- ## STREAM_CLOSE

/-- CLOSE_LOOP: every member ends with the block in progress, and so does the loop (R104). -/
def closeLoop (u l : Nat) (x : Loop) (s : State) : State :=
  let s := s.modLoop l (fun x => { x with closing := true, closeCmd := some u })
  let s := x.lanes.foldl (fun s e => s.modStream e.2 (fun st =>
    { st with state := 3, closing := true, finalAt := some x.blockIndex })) s
  s.modCmd u (fun c => { c with phase := .accepted })

/-- STREAM_CLOSE (R104, R295, R422). A stream without a loop ends at END_INDEX, or once its chunks in flight are done. -/
def execStreamClose (u : Nat) (s : State) : Host.Outcome State Fault Refusal :=
  .next (onStart u opStreamClose s (fun c s =>
    let i := c.p 0 2
    if bitOf (c.p 2 1) 0 then
      checked u [((match openLoop s c i with | some x => !x.stopped | none => false), inParams c 0)] s (fun s =>
        match tget? s.loops i with
        | some x => closeLoop u i x s
        | none => s)
    else
      let st := tget s.streams i {}
      checked u [(ownStream s c i && st.state != 3, inParams c 0)] s (fun s =>
        if st.ended then completeOk u s
        else
        let e := c.p 8 6
        let idx := if e == 2 ^ 48 - 1 || e ≤ st.sampleIndex then none else some e
        let now := match st.loop with
          | some l => if idx.isNone then (tget? s.loops l).map (fun x => x.blockIndex) else none
          | none => none
        let s := s.modStream i (fun st => { st with
          state := 3, closing := true, endIndex := idx, finalAt := now, closeCmd := some u })
        endIfDone i (s.modCmd u (fun c => { c with phase := .accepted })))))

-- ## Random state (R203 to R205)

/-- RNG_KEY: the new key is in force at acceptance; it waits until every running loop has started a block (R204). -/
def execRngKey (u : Nat) (s : State) : Host.Outcome State Fault Refusal :=
  .next (onStart u opRngKey s (fun c s =>
    let ls := (s.loops.filter (fun e => e.2.ctx == c.ctx && !e.2.stopped && !e.2.dead)).map Prod.fst
    let s := s.modCtx c.ctx (fun x => { x with key := padTo 32 c.params })
    if ls.isEmpty then completeOk u s
    else s.modCmd u (fun c => { c with phase := .accepted, waitLoops := ls })))

/-- RNG_STATE_GET: the record of Table 9.6 (R205). -/
def execRngStateGet (u : Nat) (s : State) : Host.Outcome State Fault Refusal :=
  .next (onStart u opRngStateGet s (fun c s =>
    match s.ctx? c.ctx with
    | none => s
    | some y =>
      let l := c.p 8 2
      let x := match tget? s.loops l with | some x => if x.ctx == c.ctx && !x.dead then some x else none | none => none
      let rec' := rngRecord y (x.map (fun x => (l, x)))
      checked u [ (c.p 0 8 % 64 == 0 && hostOk (c.p 0 8) rec'.length, inParams c 0)
                , (l == 0xFFFF || x.isSome, inParams c 8) ] s (fun s =>
        completeOk u (hostWrite (c.p 0 8) rec' s))))

end Sys2Proof.Machine
end

