-- ==== Sys2Proof/Machine/Output.lean ====
section
/-!
DEFINITION. Output bindings (R215 to R218), watermark keys and detection (R219 to R224), intervals and manifests (R228
to R230), the signer (R231 to R234), ATTEST (R383), consumer lines and polls (R216, R239).
-/

namespace Sys2Proof.Machine

-- ## Bindings

/-- The binding of Table 10.3. -/
def bindingOf (ctx : Nat) (b : Block) : Binding :=
  { ctx := ctx, pcmFmt := field b 2 1, hold := field b 4 1 == 1, spout := field b 5 1, blockLen := field b 6 2
    rate := field b 8 2, notify := field b 10 2, block := b
    targets := (List.range (field b 3 1)).map (fun k => targetOf (b.drop (32 + 32 * k))) }

/-- The cases in which OUT_BIND is refused (R215). -/
def bindChecks (s : State) (b : Block) : List Check :=
  let spout := field b 5 1
  let n := field b 6 2
  let r := field b 8 2
  ([ (field b 0 2 != 0xFFFF && !thas s.bindings (field b 0 2), inObject 0)
  , (field b 2 1 < 4, inObject 2)
  , (inR (field b 3 1) 1 8, inObject 3)
  , (field b 4 1 ≤ 1, inObject 4)
  , (spout == 0xFF || (spout < 32 && s.dieIn (dieOfCluster spout)), inObject 5)
  , ((n == 0 || inR n 16 4800) && ((n == 0) == (r == 0)), inObject 6)
  , (r == 0 || inR r 8000 48000, inObject 8)
  , (zeros b 0xC 20, inObject 0xC) ] : List Check) ++
  (List.range (min 8 (field b 3 1))).flatMap (fun k => targetChecks (b.drop (32 + 32 * k)) (32 + 32 * k))

/-- A count of zero-based bytes that a host line holds. -/
def lineCount (s : State) (a : Nat) : W64 := BitVec.ofNat 64 (mnat s.host a 8)

/-- The part takes hold of a binding's consumer lines and reads them (R216). -/
def takeLines (s : State) (x : Binding) : Binding :=
  { x with targets := x.targets.map (fun t => { t with cons := lineCount s t.consLine }) }

/-- OUT_BIND (R215). -/
def execOutBind (u : Nat) (s : State) : Host.Outcome State Fault Refusal :=
  .next (onStart u opOutBind s (fun c s =>
    let n := 32 + 32 * min 8 (field (peekAt s (c.p 0 8) 32) 3 1)
    checked u [(typedOk s (c.p 0 8) n, inParams c 0)] s (fun s =>
      match typedAddr (c.p 0 8) with
      | none => s
      | some ad => withObject u ad n s (fun b s =>
          checked u (bindChecks s b) s (fun s =>
            completeOk u { s with bindings := tset s.bindings (field b 0 2) { takeLines s (bindingOf c.ctx b) with made := s.rings }
                                  rings := s.rings + 1 })))))

/-- OUT_UNBIND: a binding that serves no stream is deleted (R215, R422). -/
def execOutUnbind (u : Nat) (s : State) : Host.Outcome State Fault Refusal :=
  .next (onStart u opOutUnbind s (fun c s =>
    let ok := match tget? s.bindings (c.p 0 2) with | some x => x.ctx == c.ctx && x.stream.isNone | none => false
    checked u [(ok, inParams c 0)] s (fun s => completeOk u { s with bindings := tdel s.bindings (c.p 0 2) })))

-- ## Consumer lines, gaps and failed writes

/-- Changes one target of a binding. -/
def modTarget (b k : Nat) (f : Target → Target) (s : State) : State :=
  s.modBinding b (fun x => { x with targets := x.targets.modify k f })

/-- Blocks held under HOLD go out as far as the targets have room, and chunk staging returns (R218, R284). -/
def drainBinding (b : Nat) (s : State) : State :=
  match tget? s.bindings b with
  | none => s
  | some x => (x.held.map (fun k => k.stream)).foldl (fun s i => purgeChunks i s) (drainHeld x.held.length b s)

/-- Reads the consumer line of a target, or of the manifest ring (R216, R228). -/
def readConsumer (r : ConsRef) (s : State) : State :=
  match r with
  | .target b k =>
    match tget? s.bindings b with
    | none => s
    | some x => match x.targets[k]? with
      | none => s
      | some t => drainBinding b (modTarget b k (fun t' => { t' with cons := lineCount s t.consLine }) s)
  | .manifest => s.modProv (fun p => { p with ring := p.ring.map (fun g => { g with cons := lineCount s g.consLine }) })

def consumerAddr (s : State) (r : ConsRef) : Option Nat :=
  match r with
  | .target b k => (tget? s.bindings b).bind (fun x => (x.targets[k]?).map (fun t => t.consLine))
  | .manifest => s.prov.ring.map (fun g => g.consLine)

/-- Order in which a ring's consumer line was configured: the ring, and the target within it. -/
def lineOrder (s : State) (r : ConsRef) : Nat × Nat :=
  match r with
  | .target b k => ((tget s.bindings b {}).made, k)
  | .manifest => ((s.prov.ring.getD {}).made, 0)

/-- The part holds a consumer line: queue lines first, then consumer lines in the order configured, 8,192 in all
(R355). -/
def lineHeld (s : State) (r : ConsRef) : Bool :=
  let (m, k) := lineOrder s r
  let before := s.bindings.foldl (fun n e => if e.2.made < m then n + e.2.targets.length else n) 0
  let ring := match s.prov.ring with | some g => if g.made < m then 1 else 0 | none => 0
  let queues := 2 * (s.queues.filter (fun e => e.2.opened)).length
  before + ring + k + queues < 8192

/-- CONS_LINE_SNOOP: the host makes its stores and then writes the count; the line is reacquired and read. -/
def execConsLineSnoop (stores : List HostStore) (r : ConsRef) (count : W64) (s : State) :
    Host.Outcome State Fault Refusal :=
  .next (
    let s := hostStores stores s
    match consumerAddr s r with
    | none => s
    | some a =>
      let s := hostWrite a (leBytes 8 count.toNat) s
      if s.serving && lineHeld s r then readConsumer r s else s)

/-- LINE_POLL: POLL_US has passed, and every watched line is re-read (R239). -/
def execLinePoll (stores : List HostStore) (s : State) : Host.Outcome State Fault Refusal :=
  .next (
    let s := hostStores stores s
    if !s.serving || s.cmdw.pollUs == 0 then s
    else
      let s := (s.queues.map Prod.fst).foldl (fun s q => readQueueLine q .cqHead (readQueueLine q .sqTail s)) s
      let s := s.bindings.foldl (fun s e =>
        (List.range e.2.targets.length).foldl (fun s k => readConsumer (.target e.1 k) s) s) s
      readConsumer .manifest s)

/-- GAP_RECORD_WRITE: a target that missed blocks has a free slot (R218). -/
def execGapRecordWrite (b k : Nat) (s : State) : Host.Outcome State Fault Refusal :=
  .next (match tget? s.bindings b with
    | none => s
    | some x => match x.targets[k]? with
      | none => s
      | some t =>
        if s.serving then
          let (t, s) := writeGap t s
          drainBinding b (modTarget b k (fun _ => t) s)
        else s)

/-- The manifest ring gets nothing more until PROV_CONFIG names another: its manifests stay held (R217, R229, R236). -/
def stopRing (s : State) : State := s.modProv (fun p => { p with ring := p.ring.map (fun g => { g with stopped := true }) })

/-- RING_WRITE_FAIL: a write to a target fails, and the target gets nothing more for the life of the binding (R217); or a
write to the manifest ring fails, to which R217 applies (R229, R236). -/
def execRingWriteFail (r : ConsRef) (s : State) : Host.Outcome State Fault Refusal :=
  .next (
    if !s.serving then s
    else
      match r with
      | .target b k =>
        match tget? s.bindings b with
        | none => s
        | some x =>
          if k < x.targets.length then
            let s := modTarget b k (fun t => { t with abandoned := true, missed := none }) s
            let s := s.modStats x.ctx (fun c => { c with ringWriteFails := ctrAdd c.ringWriteFails 1 })
            drainBinding b (raise evHostWrite s)
          else s
      | .manifest => if s.prov.ring.isSome then raise evHostWrite (stopRing s) else s)

/-- WITHHELD_GAP_WRITE: blocks are no longer withheld, and the stream's run gets its gap record (R230). -/
def execWithheldGapWrite (i : Nat) (s : State) : Host.Outcome State Fault Refusal :=
  .next (match (tget? s.streams i).bind (fun st => st.binding) with
    | none => s
    | some b => if s.serving && !withholding s then flushWithheld b s else s)

-- ## WM_CONFIG

/-- LOAD_KEY (R219). An OP that is neither 0 nor 1 is refused here. -/
def execLoadKey (u : Nat) (s : State) : Host.Outcome State Fault Refusal :=
  .next (match s.cmd? u with
    | none => s
    | some c0 =>
      if c0.arg % 256 == 1 then s
      else onStart u opWmConfig s (fun c s =>
        let k := c.arg / 256 % 256
        let used := s.streams.any (fun e => e.2.state != 0 && (e.2.keySlot == k || e.2.nextKeySlot == some k))
        checked u [(c.arg % 256 == 0 && inR k 1 63 && !used, inPacket 0x18)] s (fun s =>
          completeOk u { s with wmKeys := tset s.wmKeys k (padTo 32 c.params) })))

/-- WM_CONFIG with operation STREAM (R220). -/
def execWmConfigStream (u : Nat) (s : State) : Host.Outcome State Fault Refusal :=
  .next (match s.cmd? u with
    | none => s
    | some c0 =>
      if c0.arg % 256 != 1 then s
      else onStart u opWmConfig s (fun c s =>
        let i := c.p 0 2
        let k := c.p 2 1
        checked u
          [ (c.arg == 1, inPacket 0x18)
          , (ownStream s c i, inParams c 0)
          , (k < 64 && (k == 0 || thas s.wmKeys k), inParams c 2)
          , (inR (c.p 3 1) 40 120, inParams c 3) ] s (fun s =>
          completeOk u (s.modStream i (fun st =>
            { st with strength := c.p 3 1, nextKeySlot := some k, nextTag := some (c.p 8 8 % 2 ^ 34) })))))

-- ## WM_DETECT

/-- The 64 bytes of Table 10.6. -/
def detectResult (w : WmCand) : Block :=
  leBytes 4 (encF fp32 (decF c48 w.score)) ++ leBytes 4 w.off ++ leBytes 6 w.bseq ++ leBytes 2 (min w.blocks 0xFFFF) ++
  leBytes 8 w.decoded ++ leBytes 8 w.valid ++ List.replicate 32 0

/-- Every candidate, o rising and then b rising (R224). -/
def detectBest (key : Block) (c : Cmd) (xs : List Int) : WmCand :=
  let cand (o b : Nat) := wmCandidate key (c.p 14 2) (c.p 16 2) o b (c.p 32 8) (c.p 40 8) xs
  let all := (List.range (c.p 18 2 + 1)).flatMap (fun o =>
    (List.range (c.p 20 1 + 1)).map (fun d => cand o (c.p 24 6 + d)))
  match all with
  | [] => cand 0 (c.p 24 6)
  | w :: ws => wmBest ws w

/-- WM_DETECT, running on its core, is done (R224). -/
def execWmDetect (u cyc : Nat) (s : State) : Host.Outcome State Fault Refusal :=
  .next (match s.cmd? u with
    | none => s
    | some c =>
      if s.serving && c.opcode == opWmDetect && atPump s c then
        let pcm24 := bitOf (c.p 12 1) 0
        let n := c.p 8 4
        match wellAddr (c.p 0 8) with
        | none => s
        | some a =>
          match readFrom c.cores.head? (.well a) (n * (if pcm24 then 3 else 2)) s with
          | (.bytes bs, s) =>
            let xs := (List.range n).map (pcmValue pcm24 bs)
            endPump u cyc stOk 0 (hostWrite (c.p 48 8) (detectResult (detectBest (wmKey s (c.p 13 1)) c xs)) s)
          | (_, s) => endPump u cyc stPoison wellPoisonDetail s
      else s)

-- ## PROV_CONFIG and intervals

def mringOf (b : Block) : MRing :=
  { base := field b 0 8, bytes := field b 8 4 * field b 12 2, prodLine := field b 16 8, consLine := field b 24 8 }

/-- PROV_CONFIG: the values wait for the next tick (R228). -/
def execProvConfig (u : Nat) (s : State) : Host.Outcome State Fault Refusal :=
  .next (onStart u opProvConfig s (fun c s =>
    let set := bitOf (c.p 3 1) 1
    let rec' := c.params.drop 8
    let ring : List Check := if set then
        (targetChecks rec' 0).map (fun k => (k.1, inParams c (8 + k.2 % 2 ^ 28))) ++
        ([(8 * 2 ^ 20 ≤ (mringOf rec').bytes, inParams c 16)] : List Check)
      else []
    let cs : List Check := [ (inR (c.p 0 2) 10 1000 && c.p 0 2 % 10 == 0, inParams c 0), (inR (c.p 2 1) 1 100, inParams c 2) ] ++ ring
    checked u cs s (fun s =>
      let n := s.rings
      completeOk u ({ s with rings := if set then n + 1 else n }.modProv (fun p => { p with
        nextCfg := some { intervalMs := c.p 0 2, segBlocks := c.p 2 1, cut := bitOf (c.p 3 1) 0 }
        nextRing := if set then some { mringOf rec' with made := n } else p.nextRing })))))

/-- Whether the part's clocks and security block run (R379). -/
def State.up (s : State) : Bool := s.dev.mode == .serving || s.dev.mode == .booting

/-- A built interval's records in increasing SEGMENT_ID order. -/
def insertRecord (r : Block) : List Block → List Block
  | [] => [r]
  | q :: qs => if field r 0 8 < field q 0 8 then r :: q :: qs else q :: insertRecord r qs

/-- Builds interval k: its manifest waits for the signer; an interval with no segment yields none (R228, R229). -/
def buildInterval (k ms : Nat) (s : State) : State :=
  let rs := (s.prov.records.filter (fun r => r.1 == k)).map Prod.snd
  let s := s.modProv (fun p => { p with records := p.records.filter (fun r => r.1 != k) })
  if rs.isEmpty then s
  else
    let t := s.modProv (fun p => { p with unsignedQ := p.unsignedQ ++
      [{ interval := k, intervalMs := ms, records := rs.foldl (fun l r => insertRecord r l) [] }] })
    provEdge s t

/-- INTERVAL_TICK: the next tick is issued and every spout in service receives it; settings of PROV_CONFIG take effect,
CUT closes segments, and the interval before it closes (R225, R228). -/
def execIntervalTick (s : State) : Host.Outcome State Fault Refusal :=
  .next (
    if !s.up then s
    else
      let n := s.prov.ticks + 1
      let ms := s.prov.cfg.intervalMs
      let t := s.modProv (fun p => { p with
        ticks := n, cfg := p.nextCfg.getD p.cfg, nextCfg := none
        ring := match p.nextRing with | some r => some { r with cons := lineCount s r.consLine } | none => p.ring
        nextRing := none })
      let t := if t.prov.cfg.cut then closeAllSegments t else t
      let t := if t.prov.interval < n then
          t.modProv (fun p => { p with closed := p.closed ++ [(p.interval, n, ms)], interval := satAdd 64 p.interval 1 })
        else t
      let t := { t with spouts := (spoutsIn t).foldl (fun x k => tupd x k {} (fun p => { p with acked := n })) t.spouts }
      provEdge s t)

/-- INTERVAL_BUILD: the oldest closed interval is built once every spout in service has acknowledged its tick. -/
def execIntervalBuild (s : State) : Host.Outcome State Fault Refusal :=
  .next (match s.prov.closed with
    | [] => s
    | (k, n, ms) :: rest =>
      if s.up && (spoutsIn s).all (fun j => n ≤ (tget s.spouts j {}).acked) then
        buildInterval k ms (s.modProv (fun p => { p with closed := rest }))
      else s)

/-- INTERVAL_FULL: the current interval has 65,535 segments; it closes and is built at once. -/
def execIntervalFull (s : State) : Host.Outcome State Fault Refusal :=
  .next (
    if s.up && 65535 ≤ intervalCount s.prov then
      let k := s.prov.interval
      buildInterval k s.prov.cfg.intervalMs (s.modProv (fun p => { p with interval := satAdd 64 k 1 }))
    else s)

-- ## The signer

/-- The last HSS index. -/
abbrev lastIndex : Nat := 2 ^ 40 - 1

/-- READY or STALLED, by what the signer lacks (R232, R233); EXHAUSTED stays. -/
def signerState (p : Prov) : Nat :=
  if p.signer == 2 then 2
  else if p.treeReady && p.subtreeReady && p.nextIndex < p.reservedEnd && p.flashFails < 3 then 0 else 1

/-- Changes the security block and raises PROV where SIGNER_STATE or WITHHOLDING says so. -/
def updProv (f : Prov → Prov) (s : State) : State :=
  provEdge s (s.modProv (fun p => let p := f p; { p with signer := signerState p }))

/-- What exhaustion ends in a context without ALLOW_UNSIGNED: its loops and its chunks (R234). -/
def silence (s : State) : State :=
  let ls := (s.loops.filter (fun e => silenced s e.2.ctx && e.2.admitted && !e.2.dead)).map Prod.fst
  let us := (s.inflight.filter (fun c => c.opcode == opRun && c.plan.isSome && (argsOf s c).chunk.isSome &&
    silenced s c.ctx)).map (fun c => c.uid)
  let s := ls.foldl (fun s l => endLoop l stProvExhausted 0 s) s
  let s := us.foldl (fun s u => killAs u stProvExhausted 0 s) s
  { s with streams := tmap s.streams (fun _ st => if silenced s st.ctx then { st with chunks := st.chunks.filter (fun k => k.released) } else st) }

/-- Exhaustion, at the instant of the signature with the last index (R234). -/
def exhaust (s : State) : State :=
  silence (closeAllSegments (raise evProv (s.modProv (fun p => { p with signer := 2 }))))

/-- The index after q is used: a chunk is reserved halfway, a new subtree and a new bottom tree are needed at their
boundaries (R232, R233). -/
def advanceIndex (p : Prov) : Prov :=
  let q := p.nextIndex
  let n := q + 1
  let p := { p with nextIndex := n }
  let p := if q % 4096 == 2048 && q / 4096 + 1 < 2 ^ 28 then { p with pendingChunk := some (q / 4096 + 1) } else p
  let p := if n % 1024 == 0 then { p with subtreeReady := false } else p
  if n % 2 ^ 20 == 0 then { p with treeReady := p.nextTree, nextTree := false } else p

/-- Takes the next HSS index. -/
def useIndex (s : State) : State :=
  if s.prov.nextIndex == lastIndex then exhaust (s.modProv (fun p => { p with nextIndex := lastIndex + 1 }))
  else updProv advanceIndex s

/-- Manifest header of Table 10.9; `index` is none for an UNSIGNED manifest. -/
def manifestHeader (s : State) (m : Manifest) (index : Option Nat) : Block :=
  let p := s.prov
  let flags := b2n (p.manifestSeq == 0) + 2 * b2n index.isNone + 4 * b2n (index == some lastIndex)
  [0x53, 0x4D, 0x41, 0x4E] ++ leBytes 2 1 ++ leBytes 2 s.dev.number.toNat ++ leBytes 8 p.manifestSeq ++
  leBytes 8 (index.getD lastIndex) ++ leBytes 4 m.records.length ++ leBytes 4 flags ++ leBytes 8 m.interval ++
  leBytes 4 m.intervalMs ++ leBytes 4 (if index.isSome then 3604 else 0) ++ padTo 32 (merkle 16 m.records) ++
  padTo 32 (p.prev.getD []) ++ padTo 16 p.bootId

/-- Zeros up to a multiple of 64 bytes. -/
def pad64 (b : Block) : Block := b ++ List.replicate ((64 - b.length % 64) % 64) 0

/-- The manifest of Table 10.9 that follows its header. -/
def manifestBytes (hdr : Block) (m : Manifest) (sig : Block) : Block := pad64 (hdr ++ m.records.flatten ++ sig)

/-- The records of an UNSIGNED manifest carry UNSIGNED (R234). -/
def markUnsigned (m : Manifest) : Manifest :=
  { m with records := m.records.map (fun r => splice r 0xC (leBytes 2 (field r 0xC 2 ||| 8))) }

/-- MANIFEST_SIGN: the oldest unsigned interval is signed, or marked UNSIGNED after exhaustion (R229 to R234). -/
def execManifestSign (s : State) : Host.Outcome State Fault Refusal :=
  .next (match s.prov.unsignedQ with
    | [] => s
    | m :: rest =>
      if !s.serving || 64 ≤ s.prov.held.length || s.prov.signer == 1 then s
      else
        let idx := if exhausted s then none else some s.prov.nextIndex
        let m := if idx.isNone then markUnsigned m else m
        let hdr := manifestHeader s m idx
        let sig := match idx with | some q => hssSignature q hdr | none => []
        let t := updProv (fun p => { p with
          unsignedQ := rest, held := p.held ++ [{ m with bytes := some (manifestBytes hdr m sig) }]
          manifestSeq := satAdd 64 p.manifestSeq 1, prev := some (sha256 hdr)
          unsignedCount := if idx.isNone then ctrAdd p.unsignedCount 1 else p.unsignedCount }) s
        if idx.isSome then useIndex t else t)

/-- Bytes into the manifest ring from PROD_COUNT on, wrapping at RING_BYTES (R229). -/
def ringWrite (g : MRing) (bs : Block) (s : State) : State :=
  let o := g.prod.toNat % max 1 g.bytes
  let first := min bs.length (g.bytes - o)
  hostWrite g.base (bs.drop first) (hostWrite (g.base + o) (bs.take first) s)

/-- MANIFEST_WRITE: the oldest held manifest goes into the ring, where it has room and no write has failed (R217, R229,
R363). -/
def execManifestWrite (s : State) : Host.Outcome State Fault Refusal :=
  .next (match s.prov.held, s.prov.ring with
    | m :: rest, some g =>
      let bs := m.bytes.getD []
      if s.serving && !g.stopped && (g.prod - g.cons).toNat + bs.length ≤ g.bytes then
        let s := ringWrite g bs s
        let g := { g with prod := g.prod + BitVec.ofNat 64 bs.length }
        let s := hostWrite g.prodLine (countLine g.prod) s
        let signed := field bs 0x1C 4 / 2 % 2 == 0
        msix 1056 (s.modProv (fun p => { p with
          held := rest, ring := some g, signedCount := if signed then ctrAdd p.signedCount 1 else p.signedCount }))
      else s
    | _, _ => s)

/-- FLASH_PROGRAM_CONFIRM: the flash confirms the index-log program of a chunk, or it fails and is tried again (R232,
R233). -/
def execFlashProgramConfirm (ok : Bool) (s : State) : Host.Outcome State Fault Refusal :=
  .next (match s.prov.pendingChunk with
    | none => s
    | some c =>
      if !s.up then s
      else if ok then (updProv (fun p => { p with
        pendingChunk := none, reservedEnd := (c + 1) * 4096, flashFails := 0, logSeq := (p.logSeq + 1) % 2 ^ 32
        logRecords := ctrAdd p.logRecords 1 }) s).modDev (fun d =>
          { d with flash := logWrite d.logSectors c s.prov.logSeq d.flash })
      else updProv (fun p => { p with flashFails := p.flashFails + 1 }) s)

/-- What bottom tree t leaves in the tree store (R232). -/
def keepTree (t : Nat) (s : State) : State := s.modDev (fun d => { d with flash := storeTree t d.flash })

/-- NEXT_TREE_READY: the next bottom tree is generated; a signer that waits for it takes it into use (R232). -/
def execNextTreeReady (s : State) : Host.Outcome State Fault Refusal :=
  .next (
    if !s.up || s.prov.nextTree || 2 ^ 40 ≤ s.prov.nextIndex then s
    else if !s.prov.treeReady then keepTree (s.prov.nextIndex / 2 ^ 20) (updProv (fun p => { p with treeReady := true }) s)
    else if s.prov.nextIndex / 2 ^ 20 < 2 ^ 20 - 1 then
      keepTree (s.prov.nextIndex / 2 ^ 20 + 1) (updProv (fun p => { p with nextTree := true }) s)
    else s)

/-- SUBTREE_REBUILD: the 1,024-leaf subtree that the signer needs is rebuilt (R232). -/
def execSubtreeRebuild (s : State) : Host.Outcome State Fault Refusal :=
  .next (if s.up && s.prov.treeReady && !s.prov.subtreeReady then updProv (fun p => { p with subtreeReady := true }) s
    else s)

-- ## ATTEST (R383)

/-- Image entry of Table 17.5. -/
def imageEntry (s : State) (h : Nat) (x : Image) : Block :=
  let n := ((s.cores.map Prod.fst).filter (fun g => (imageRegion s h g).isSome)).length
  leBytes 2 h ++ leBytes 2 n ++ leBytes 4 0 ++ leBytes 8 x.hdr.bytes ++ padTo 32 x.hash

/-- The report of Table 17.4 before its signature. -/
def reportBytes (s : State) (nonce : Block) (index : Option Nat) : Block :=
  let d := s.dev
  let f := d.fuses
  let n := s.images.length
  let total := 0x770 + 48 * n + (if index.isSome then 3604 else 0)
  let next := match index with | some q => (q + 1) % 2 ^ 40 | none => s.prov.nextIndex % 2 ^ 40
  [0x53, 0x41, 0x54, 0x54] ++ leBytes 2 1 ++ leBytes 2 (d.number.toNat + 2 ^ 14 * b2n d.numValid) ++ leBytes 4 total ++
  leBytes 4 (b2n index.isNone + 2 * b2n d.slotB + 4 * b2n d.fallback + 8 * b2n s.pwr.calDone) ++ padTo 16 nonce ++
  padTo 16 s.prov.bootId ++ leBytes 8 f.serial.toNat ++ leBytes 8 (index.getD lastIndex) ++ leBytes 8 next ++
  leBytes 8 s.hubCycle ++ leBytes 2 0x0960 ++ leBytes 1 (b2n f.orderingA1 + 2 * f.stepping.toNat) ++
  leBytes 1 d.dies.toNat ++ leBytes 1 f.minSvn ++ leBytes 1 d.pyornSvn ++ leBytes 1 0 ++
  leBytes 1 (b2n d.compatOrd + 2 * b2n d.head + 4 * d.bootSrc.toNat) ++ leBytes 8 d.recoveries ++ padTo 32 f.romHash ++
  padTo 32 f.fwKeyHash ++ padTo 32 d.pyornHash ++ padTo 32 d.logDigest ++ hssPublic ++
  leBytes 4 n ++ (List.range 1616).map Config.certByte ++ s.images.flatMap (fun e => imageEntry s e.1 e.2)

/-- ATTEST waits while the signer is STALLED. -/
def execAttest (u : Nat) (s : State) : Host.Outcome State Fault Refusal :=
  .next (if s.prov.signer == 1 then s
    else onStart u opAttest s (fun c s =>
      let idx := if exhausted s then none else some s.prov.nextIndex
      let total := cdiv (0x770 + 48 * s.images.length + (if idx.isSome then 3604 else 0)) 64 * 64
      checked u [(hostOk (c.p 0 8) total, inParams c 0), (total ≤ c.p 8 4, inParams c 8)] s (fun s =>
        let msg := reportBytes s ((c.params.drop 16).take 16) idx
        let sig := match idx with | some q => hssSignature q msg | none => []
        let s := hostWrite (c.p 0 8) (pad64 (msg ++ sig)) s
        completeOk u (if idx.isSome then useIndex s else s))))

end Sys2Proof.Machine
end

