-- ==== Sys2Proof/Machine/Save.lean ====
section
/-!
DEFINITION. Saved images: CTX_SAVE (R288, Table 12.4) and CTX_RESTORE (R206, R289, R290).
-/

namespace Sys2Proof.Machine

-- ## CTX_SAVE

/-- The committed half of every carry area of a RUN plan, put where half 0 lies (R96; assumption 61). -/
def settleCarry (x : Ctx) (img : Block) : Block :=
  x.carry.foldl (fun b e =>
    let base := 4096 + x.cisGranules * 8192 + e.1 * 384
    splice b base ((b.drop (base + e.2 * 384)).take (e.2 * 384))) img

/-- Slot images of a context in the order of the image, each with its poisoned parts: resident slots as they stand or
as a loop's commit captured them, then those in the sump. -/
def savedSlots (s : State) (c : Cmd) (x : Ctx) : List (Block × List (Nat × Nat)) :=
  let snaps := c.snaps.flatMap (fun p => p.slots)
  (coresOfCtx s c.ctx).map (fun g =>
    match snaps.find? (fun t => t.1 == g) with
    | some t => (settleCarry x t.2.2, [])
    | none =>
      let k := (slotOf s c.ctx g).getD 0
      let r := (s.core g).regions.getD k {}
      (settleCarry x (slotImage s g k),
       (poisonedParts s (.cis (csAddr g (r.base * 8192))) (r.size * 8192)).map (fun p => (4096 + p.1, p.2)))) ++
  x.swapped.map (fun i =>
    let a := Addr.well (x.sumpBase % 2 ^ 39 + i.index * x.imageBytes)
    (rawAt s a x.imageBytes, poisonedParts s a x.imageBytes))

/-- Loops of a context as they go into the image: (loop, record, random state). -/
def savedLoops (s : State) (c : Cmd) (x : Ctx) : List (Nat × Block × Block) :=
  (s.loops.filter (fun e => e.2.ctx == c.ctx && !e.2.dead)).map (fun e =>
    match c.snaps.find? (fun p => p.l == e.1) with
    | some p => (e.1, p.record, p.rng)
    | none => (e.1, loopBytes e.1 e.2, rngRecord x (some (e.1, e.2))))

/-- Stream descriptors of a context as they go into the image. -/
def savedStreams (s : State) (c : Cmd) : List Block :=
  let snaps := c.snaps.flatMap (fun p => p.streams)
  (s.streams.filter (fun e => e.2.ctx == c.ctx && e.2.state != 0)).map (fun e =>
    match snaps.find? (fun t => t.1 == e.1) with
    | some t => t.2
    | none => streamBytes e.1 e.2)

/-- The saved image, with its poisoned parts (Table 12.4). -/
def saveImage (s : State) (c : Cmd) (x : Ctx) : Block × List (Nat × Nat) :=
  let slots := savedSlots s c x
  let loops := savedLoops s c x
  let streams := savedStreams s c
  let binds := (s.bindings.filter (fun e => e.2.ctx == c.ctx)).map (fun e => padTo 288 e.2.block)
  let seqs := s.seqs.filter (fun e => e.2.ctx == c.ctx)
  let entries := seqs.flatMap (fun e => (List.range e.2.mapSpan).map (fun i => entryBytes (s.mapEntry (e.2.mapBase + i))))
  let slotBytes := slots.flatMap Prod.fst
  let rng := rngRecord x none ++ loops.flatMap (fun p => p.2.2)
  let recs := loops.flatMap (fun p => p.2.1)
  let kv := seqs.flatMap (fun e => seqBytes s e.1 e.2) ++ entries.flatten
  let o1 := 256 + slotBytes.length
  let o2 := o1 + rng.length
  let o3 := o2 + recs.length
  let o4 := o3 + streams.flatten.length
  let o5 := o4 + binds.flatten.length
  let stands := s.loops.any (fun e => e.2.ctx == c.ctx && !e.2.dead && !e.2.stopped)
  let hdr := [0x53, 0x49, 0x4D, 0x47] ++ leBytes 2 1 ++ leBytes 1 64 ++
    leBytes 1 (b2n (!stands && c.snaps.isEmpty) + 2 * b2n (!loops.isEmpty) + 4 * b2n (!seqs.isEmpty)) ++
    leBytes 2 s.dev.number.toNat ++ leBytes 2 slots.length ++ leBytes 4 0 ++ padTo 16 s.prov.bootId ++ descOfCtx c.ctx x ++
    leBytes 8 (o5 + kv.length) ++ leBytes 4 (1 + loops.length) ++ leBytes 4 loops.length ++ leBytes 4 streams.length ++
    leBytes 4 binds.length ++ leBytes 4 seqs.length ++ leBytes 4 entries.length ++ leBytes 8 256 ++ leBytes 8 o1 ++
    leBytes 8 o2 ++ leBytes 8 o3 ++ leBytes 8 o4 ++ leBytes 8 o5
  let n := x.imageBytes
  (padTo 256 hdr ++ slotBytes ++ rng ++ recs ++ streams.flatten ++ binds.flatten ++ kv,
   ((List.range slots.length).zip slots).flatMap (fun p => p.2.2.map (fun q => (256 + p.1 * n + q.1, q.2))))

/-- What CTX_SAVE meets in the wells: its swapped-out images. -/
def meetSump (x : Ctx) (s : State) : State :=
  x.swapped.foldl (fun (s : State) (i : SwapImage) => meetWell (x.sumpBase % 2 ^ 39 + i.index * x.imageBytes) x.imageBytes s) s

/-- What CTX_SAVE meets in the cisterns of its context's slots. -/
def meetSlots (cid : Nat) (s : State) : State :=
  (coresOfCtx s cid).foldl (fun s g => match slotOf s cid g with
    | some k =>
      let r := (s.core g).regions.getD k {}
      meetCis (csAddr g (r.base * 8192)) (r.size * 8192) s
    | none => s) s

/-- CTX_SAVE, running on its core, is done: every loop that ran has been captured (R288). -/
def execCtxSave (u cyc : Nat) (s : State) : Host.Outcome State Fault Refusal :=
  .next (match s.cmd? u with
    | none => s
    | some c =>
      if s.serving && c.opcode == opCtxSave && atPump s c && s.loops.all (fun e => !e.2.saves.contains u) then
        match s.ctx? c.ctx, typedAddr (c.p 0 8) with
        | some x, some dst =>
          withMap ((s.seqs.filter (fun e => e.2.ctx == c.ctx)).map Prod.fst) (meetSlots c.ctx (meetSump x s))
            (endPump u cyc stPoison wellPoisonDetail) (fun s =>
          let (img, bad) := saveImage s c x
          let fromWell := x.swapped.any (fun i => wellPoisoned s (x.sumpBase % 2 ^ 39 + i.index * x.imageBytes) x.imageBytes)
          if bad.isEmpty then
            match writeTo c.cores.head? dst img s with
            | (true, s) => endPump u cyc stOk 0 s
            | (false, s) => endPump u cyc stContextFault 0 (partialRows (dst.plus 4) (img.drop 4) s)
          else
            let s := spreadPoison dst bad (partialRows (dst.plus 4) (img.drop 4) s)
            endPump u cyc stPoison (if fromWell then wellPoisonDetail else (coresOfCtx s c.ctx).head?.getD 0) s)
        | _, _ => s
      else s)

-- ## Reading a saved image

abbrev imgLanes (b : Block) : Nat := field b 6 1
abbrev imgFlags (b : Block) : Nat := field b 7 1
abbrev imgSlots (b : Block) : Nat := field b 0xA 2
abbrev imgDesc (b : Block) : Block := (b.drop 0x20).take 64
abbrev imgTotal (b : Block) : Nat := field b 0x60 8

/-- Section k of the image: slots 0, random state 1, loops 2, streams 3, bindings 4, KV 5. -/
def imgOff (b : Block) (k : Nat) : Nat := field b (0x80 + 8 * k) 8

/-- Count field k: random records 0, loops 1, streams 2, bindings 3, sequences 4, span entries 5. -/
def imgCount (b : Block) (k : Nat) : Nat := field b (0x68 + 4 * k) 4

/-- n records of m bytes each. -/
def records (b : Block) (m : Nat) : Nat → List Block
  | 0 => []
  | n + 1 => b.take m :: records (b.drop m) m n

/-- Bytes of a random state record (Table 9.6). -/
def rngBytes (b : Block) : Nat := 64 + 8 * field b 0x24 1 * field b 0x21 1

/-- Random state records, one after the other. -/
def rngRecords : Nat → Block → List Block
  | 0, _ => []
  | n + 1, b => b.take (rngBytes b) :: rngRecords n (b.drop (rngBytes b))

def imgRng (b : Block) : List Block := rngRecords (imgCount b 0) (b.drop (imgOff b 1))
def imgLoops (b : Block) : List Block := records (b.drop (imgOff b 2)) 64 (imgCount b 1)
def imgStreams (b : Block) : List Block := records (b.drop (imgOff b 3)) 64 (imgCount b 2)
def imgBinds (b : Block) : List Block := records (b.drop (imgOff b 4)) 288 (imgCount b 3)
def imgSeqs (b : Block) : List Block := records (b.drop (imgOff b 5)) 48 (imgCount b 4)
def imgEntries (b : Block) : List Block := records (b.drop (imgOff b 5 + 48 * imgCount b 4)) 8 (imgCount b 5)

/-- The context that an image describes, as this part holds it: ACC_UNITS counts 64-lane rows (R290). -/
def imgCtx (b : Block) : Ctx :=
  let x := ctxOfDesc (imgDesc b)
  { x with accUnits := cdiv (x.accUnits * imgLanes b) 64 }

/-- The descriptor with that ACC_UNITS, for the checks of R263. -/
def imgDesc64 (b : Block) : Block := splice (imgDesc b) 8 (leBytes 1 (imgCtx b).accUnits)

/-- Bytes of a slot image in the saved image. -/
def imgSlotBytes (b : Block) : Nat :=
  let x := ctxOfDesc (imgDesc b)
  4096 + 8192 * x.cisGranules + 6 * imgLanes b * 64 * x.accUnits

/-- Whether a section lies within the image. -/
def sectionOk (b : Block) (k n : Nat) : Bool := 256 ≤ imgOff b k && imgOff b k + n ≤ imgTotal b

/-- Whether the image's header and sections have the form of Table 12.4. -/
def imgForm (b : Block) (bytes : Nat) : List Check :=
  [ (field b 0 4 == 0x474D4953, inObject 0)
  , (field b 4 2 == 1, inObject 4)
  , ([16, 32, 64].contains (imgLanes b), inObject 6)
  , (imgFlags b < 8 && (bitOf (imgFlags b) 1 == (imgCount b 1 != 0)) && (bitOf (imgFlags b) 2 == (imgCount b 4 != 0)), inObject 7)
  , (field b 8 2 < 2 ^ 14, inObject 8)
  , (imgSlots b ≤ 255, inObject 0xA)
  , (zeros b 0xC 4, inObject 0xC)
  , (256 ≤ imgTotal b && imgTotal b ≤ bytes, inObject 0x60)
  , (sectionOk b 0 (imgSlots b * imgSlotBytes b), inObject 0x80)
  , (sectionOk b 1 ((imgRng b).foldl (fun n r => n + rngBytes r) 0), inObject 0x88)
  , (sectionOk b 2 (64 * imgCount b 1), inObject 0x90)
  , (sectionOk b 3 (64 * imgCount b 2), inObject 0x98)
  , (sectionOk b 4 (288 * imgCount b 3), inObject 0xA0)
  , (sectionOk b 5 (48 * imgCount b 4 + 8 * imgCount b 5), inObject 0xA8)
  , (zeros b 0xB0 80, inObject 0xB0) ]

/-- Reserved fields of a random state record are 0 (Table 9.6). -/
def rngZeros (r : Block) : Bool :=
  zeros r 0x25 3 && zeros r 0x30 16 &&
  (List.range (field r 0x24 1 * field r 0x21 1)).all (fun k => field r (0x40 + 8 * k) 8 < 2 ^ 57)

/-- Reserved fields of a loop record are 0 (Table 5.4). -/
def loopZeros (r : Block) : Bool := field r 7 1 < 8 && zeros r 0x26 2 && zeros r 0x2C 4

/-- Reserved fields of a stream descriptor are 0 (Table 5.3). -/
def streamZeros (r : Block) : Bool :=
  field r 2 2 < 2 ^ 12 && field r 5 1 < 16 && zeros r 7 1 && zeros r 0x26 2 && zeros r 0x2E 2 && zeros r 0x36 2 &&
  zeros r 0x3E 2

/-- Reserved fields of a binding block are 0 (Tables 10.3 and 10.4). -/
def bindZeros (r : Block) : Bool :=
  field r 2 1 < 4 && zeros r 0xC 20 && (List.range (min 8 (field r 3 1))).all (fun k => zeros r (32 + 32 * k + 0xE) 2)

/-- Reserved fields of a sequence record are 0 (Table 6.2). -/
def seqZeros (r : Block) : Bool :=
  field r 2 2 < 2 ^ 12 && field r 4 1 < 32 && zeros r 0xB 1 && field r 0xC 2 < 2 ^ 10 && zeros r 0xE 2 && zeros r 0x2C 4

/-- Every reserved field of the image's descriptor and records is 0 (R7). -/
def imgZeros (b : Block) : List Check :=
  [ (field b 0x20 2 < 2 ^ 12, inObject 0x20)
  , ((imgRng b).all rngZeros, inObject 0x88)
  , ((imgLoops b).all loopZeros, inObject 0x90)
  , ((imgStreams b).all streamZeros, inObject 0x98)
  , ((imgBinds b).all bindZeros, inObject 0xA0)
  , ((imgSeqs b).all seqZeros, inObject 0xA8) ]

/-- Whether the image comes from this device and boot (R289). -/
def imgHere (s : State) (b : Block) : Bool :=
  field b 8 2 == s.dev.number.toNat && (b.drop 0x10).take 16 == padTo 16 s.prov.bootId

/-- Live span entries of an image. -/
def imgLive (b : Block) : List MapEntry := ((imgEntries b).map entryOf).filter (fun e => e.seq != 0xFFFF)

/-- The rules of R206, R289 and R290 on an image of the right form. -/
def restoreChecks (s : State) (cid : Nat) (b : Block) : List Check :=
  let streams := (imgStreams b).map (fun r => field r 0 2)
  let loops := (imgLoops b).map (fun r => field r 0 2)
  let binds := (imgBinds b).map (fun r => field r 0 2)
  let seqs := (imgSeqs b).map (fun r => field r 0 2)
  let pages := (imgLive b).map (fun e => e.page)
  (descChecks s cid (imgDesc64 b)).map (fun k => (k.1, inObject (0x20 + k.2 % 2 ^ 28))) ++
  ([ (imgLanes b == 64 || (bitOf (imgFlags b) 0 && imgCount b 1 == 0 && imgCount b 4 == 0), inObject 6)
  , ((imgRng b).all (fun r => [16, 32, 64].contains (field r 0x21 1) && field r 0x20 1 ≤ 1 &&
      (field r 0x21 1 == 64 || field r 0x20 1 == 1)), inObject 0x88)
  , (imgSlots b ≤ (imgCtx b).maxSlots, inObject 0xA)
  , (streams.Nodup && streams.all (fun i => (tget s.streams i {}).state == 0), inObject 0x98)
  , (loops.Nodup && loops.all (fun l => l < 256 && !thas s.loops l), inObject 0x90)
  , (binds.Nodup && binds.all (fun k => k != 0xFFFF && !thas s.bindings k), inObject 0xA0)
  , (imgCount b 4 == 0 || imgHere s b, inObject 8)
  , (pages.Nodup && pages.all (fun p => s.dieIn (p / 2 ^ 19) && s.ctxs.all (fun e => !e.2.pool.contains p) &&
      s.map.all (fun e => e.2.seq == 0xFFFF || e.2.page != p)), inObject 0xA8)
  , (seqs.Nodup && (imgSeqs b).all (fun r => field r 0 2 != 0xFFFF && !thas s.seqs (field r 0 2) &&
      s.dieIn (seqOf r).homeDie && 1 ≤ (seqOf r).mapSpan), inObject 0xA8)
  , ((imgSeqs b).foldl (fun n r => n + (seqOf r).mapSpan) 0 == imgCount b 5, inObject 0x7C) ] : List Check)

-- ## CTX_RESTORE

/-- Re-creates the sequences in order, each in the lowest free span of its home well; none where one has no span. -/
def restoreSeqs (cid : Nat) : List Block → List Block → State → Option State
  | [], _, s => some s
  | r :: rs, es, s =>
    let x := seqOf r
    let q := field r 0 2
    match findSpan s x.homeDie x.mapSpan with
    | none => none
    | some base =>
      let live := ((List.range x.mapSpan).zip (es.map entryOf)).filter (fun p => p.2.seq != 0xFFFF)
      let s := { s with seqs := tset s.seqs q { x with ctx := cid, mapBase := base }
                        map := live.foldl (fun m p => tset m (base + p.1) { p.2 with seq := q }) s.map }
      restoreSeqs cid rs (es.drop x.mapSpan) s

/-- The loop rank ρ that a slot image of core g held. -/
def rankAt (b : Block) (g : Nat) : Option (Nat × Nat) :=
  (imgLoops b).findSome? (fun r =>
    let f := field r 2 1
    if f ≤ g && g < f + field r 3 1 then some (field r 0 2, g - f) else none)

/-- One slot image as it lies in the sump: its accumulator values keep their logical order and zeros fill the last row
(R290). -/
def retile (x : Ctx) (img : Block) : Block := padTo x.imageBytes (splice img 4 (leBytes 1 x.accUnits))

/-- Writes the slot images into the new sump as swapped out. -/
def restoreSlots (cid : Nat) (x : Ctx) (b : Block) (s : State) : State :=
  let here := imgHere s b
  let imgs := records (b.drop (imgOff b 0)) (imgSlotBytes b) (imgSlots b)
  ((List.range imgs.length).zip imgs).foldl (fun s p =>
    let g := field p.2 0 1
    let s := wellWrite (x.sumpBase % 2 ^ 39 + p.1 * x.imageBytes) (retile x p.2) s
    s.modCtx cid (fun x => { x with swapped := x.swapped ++ [{ index := p.1, rank := rankAt b g, srcCore := g
                                                               srcSlot := field p.2 1 1
                                                               home := if here && s.dieIn (dieOfCore g) then some g else none }] })) s

/-- Random positions of a record with 64 lanes. -/
def positionsOf (r : Block) : Table Nat :=
  (List.range (field r 0x24 1 * 64)).foldl (fun t k =>
    let v := field r (0x40 + 8 * k) 8 % 2 ^ 57
    if v == 0 then t else tset t k v) []

/-- A saved loop, stopped until a STREAM_LOOP resumes it (R289, R291). Its random state record is restored as it stands
(R206). -/
def stoppedLoop (cid : Nat) (key : Block) (b r : Block) : Loop :=
  let l := field r 0 2
  let own := (imgRng b).find? (fun k => field k 0x22 2 == l && field k 0x21 1 == 64)
  { loopOf r with
    ctx := cid, stopped := true, restored := true
    key := match own with | some k => k.take 32 | none => key
    pos := match own with | some k => positionsOf k | none => []
    commitIndex := match own with | some k => field k 0x28 8 | none => 0
    lanes := (imgStreams b).foldl (fun t d =>
      if field d 8 2 == l && field d 6 1 != 0xFF then tset t (field d 6 1) (field d 0 2) else t) [] }

/-- A stream restored in state OPEN, with the spout, block length and rate of its loop or binding (R209, R289). -/
def restoredStream (s : State) (cid : Nat) (r : Block) : Stream :=
  let st := streamOf r
  let loop := st.loop.bind (fun l => tget? s.loops l)
  let bind := tget s.bindings (st.binding.getD 0xFFFF) {}
  let k := match loop with
    | some x => if s.dieIn (dieOfCore x.firstCore) then clusterOfCore x.firstCore else leastSpout s
    | none => spoutFor s none (st.binding.getD 0xFFFF)
  let bl := match loop with | some x => x.blockLen | none => bind.blockLen
  { st with ctx := cid, state := 1, joined := true, spout := k, blockLen := bl
            rate := match loop with | some x => x.rate | none => bind.rate
            reserved := stagingFor (match loop with | some x => x.deadline | none => 2) bl }

/-- Restores the streams of an image, which take up their bindings again. -/
def restoreStreams (cid : Nat) (b : Block) (s : State) : State :=
  (imgStreams b).foldl (fun s r =>
    let i := field r 0 2
    let st := restoredStream s cid r
    let s := { s with streams := tset s.streams i st }
    let s := match st.binding with | some k => s.modBinding k (fun x => { x with stream := some i }) | none => s
    spoutCharge st.spout (beginWake (uncoreOf st.spout) 0 s)) s

/-- CTX_RESTORE's effect on a state where its checks hold; the sequences are in place. -/
def restoreAll (cid : Nat) (b : Block) (s : State) : State :=
  let own := (imgRng b).find? (fun r => field r 0x22 2 == 0xFFFF)
  let key := match own with | some r => r.take 32 | none => List.replicate 32 0
  let x := imgCtx b
  let x := { x with key := key, element := match own with | some r => field r 0x20 1 == 1 | none => x.element }
  let s := { s with ctxs := tset s.ctxs cid x }
  let s := restoreSlots cid x b s
  let s := (imgBinds b).foldl (fun s r =>
    let r := r.take (32 + 32 * min 8 (field r 3 1))
    { s with bindings := tset s.bindings (field r 0 2) { takeLines s (bindingOf cid r) with made := s.rings }, rings := s.rings + 1 }) s
  let s := (imgLoops b).foldl (fun s r => { s with loops := tset s.loops (field r 0 2) (stoppedLoop cid key b r) }) s
  restoreStreams cid b s

/-- CTX_RESTORE (R289). -/
def execCtxRestore (u : Nat) (s : State) : Host.Outcome State Fault Refusal :=
  .next (onStart u opCtxRestore s (fun c s =>
    let n := c.p 8 8
    checked u [(typedOk s (c.p 0 8) n, inParams c 0), (256 ≤ n, inParams c 8), ((s.ctx? c.ctx).isNone, inPacket 4)] s (fun s =>
      match typedAddr (c.p 0 8) with
      | none => s
      | some ad => withObject u ad n s (fun b s =>
          checked u (imgForm b n) s (fun s =>
            checked u (imgZeros b ++ restoreChecks s c.ctx b) s (fun s =>
              match restoreSeqs c.ctx (imgSeqs b) (imgEntries b) s with
              | none => retire u stKvFull (field ((imgSeqs b).headD []) 0 2) s
              | some s => completeOk u (countFetch c (restoreAll c.ctx b s))))))))

end Sys2Proof.Machine
end

