-- ==== Sys2Proof/Machine/Faults.lean ====
section
/-!
DEFINITION. Fatal errors (R385, R386), device recoveries (R387 to R393): internal links (R388), page retirement (R304,
R305), die quarantine (R19, R389 to R391), and the supply monitors (R406).
-/

namespace Sys2Proof.Machine

-- ## Fatal errors

/-- The domains 0 to 39 that some switches feed lose their power and their charges (R347, Table 15.9). -/
def openSwitches (ns : List Nat) (s : State) : State :=
  let on := fun (h : ChargeReq) => match h.what with
    | .standing n _ => ns.contains n
    | .stage _ g => ns.contains (clusterOfCore g)
    | .loop _ g => ns.contains (clusterOfCore g)
    | .spout k => ns.contains (uncoreOf k)
    | .point d => ns.contains (32 + d)
  let s := dropCharges on s
  let s := ns.foldl (fun s n => s.modDom n (fun d => { d with state := 4, waking := 0 })) s
  s.modPwr (fun p => { p with wells := (ns.filter (fun n => 32 ≤ n && n < 40)).foldl (fun t n => tset t (n - 32) 2) p.wells })

/-- THERMTRIP# is asserted and every on-die switch opens (R347). -/
def thermalTrip (s : State) : State := openSwitches (List.range 40) (s.modDev (fun d => { d with thermTrip := true }))

/-- A fatal error: nothing runs any more, transfers stop part way, and no record is written (R312, R386). The first cause
stands. -/
def fatal (cause : Nat) (s : State) : State :=
  if !s.up then s
  else
    let s := (stopTransfers s).modDev (fun d => { d with mode := .fatal, fatalCause := BitVec.ofNat 4 cause })
    let s := { s with inflight := [], siphon := [], cores := tmap s.cores (fun _ c => c.idle) }
    raise evFatal s

/-- WATCHDOG_EXPIRY (R385). -/
def execWatchdogExpiry (s : State) : Host.Outcome State Fault Refusal := .next (fatal 1 s)

/-- FATAL_ERROR: an uncorrectable fault in H (R18, R385). -/
def execFatalError (s : State) : Host.Outcome State Fault Refusal := .next (fatal 1 s)

/-- VDD_H_LOW (R406). -/
def execVddHLow (s : State) : Host.Outcome State Fault Refusal := .next (fatal 1 s)

/-- REFCLK_LOSS (R342). -/
def execRefclkLoss (s : State) : Host.Outcome State Fault Refusal := .next (fatal 2 s)

-- ## What a die or a page holds (R387, R389)

/-- Wells or dies of cores that a range touches. -/
def diesOfRange (ad : Addr) (n : Nat) : List Nat :=
  match ad with
  | .host _ => []
  | .well a => unitsOf (2 ^ 35) a n
  | .cis a => (unitsOf (2 ^ 23) a n).map (fun g => dieOfCore (g % 256))

def typedRange (v n : Nat) : List (Addr × Nat) :=
  match typedAddr v with
  | some ad => [(ad, n)]
  | none => []

/-- Pages that a context owns: of its pool, of its sequences, and those its commands have secured. -/
def pagesOf (s : State) (c : Nat) : List Nat :=
  (match s.ctx? c with | some x => x.pool | none => []) ++
  (s.map.filter (fun e => (tget s.seqs e.2.seq {}).ctx == c && thas s.seqs e.2.seq)).map (fun e => e.2.page) ++
  (s.inflight.filter (fun d => d.ctx == c && !isDevice d.opcode)).flatMap (fun d => d.secured.filterMap (fun x => x.page))

/-- The context has state on a die (R389). -/
def stateOnDie (s : State) (d c : Nat) : Bool :=
  match s.ctx? c with
  | none => false
  | some x =>
    (coresOfCtx s c).any (fun g => dieOfCore g == d) ||
    x.swapped.any (fun i => match i.home with | some g => dieOfCore g == d | none => false) ||
    (x.sumpBytes != 0 && (diesOfRange (.well (x.sumpBase % 2 ^ 39)) x.sumpBytes).contains d) ||
    (pagesOf s c).any (fun p => p / 2 ^ 19 == d) ||
    s.seqs.any (fun e => e.2.ctx == c && e.2.mapBase / 2 ^ 19 == d) ||
    s.streams.any (fun e => e.2.ctx == c && e.2.state != 0 && dieOfCluster e.2.spout == d)

/-- Owners of a KV page, span entry or sump in a page (Table 17.7). -/
def ownsInPage (s : State) (page c : Nat) : Bool :=
  match s.ctx? c with
  | none => false
  | some x =>
    (x.sumpBytes != 0 && (unitsOf 65536 (x.sumpBase % 2 ^ 39) x.sumpBytes).contains page) ||
    (pagesOf s c).contains page ||
    s.seqs.any (fun e => e.2.ctx == c && (unitsOf 65536 (mapAddr e.2.mapBase) (8 * e.2.mapSpan)).contains page)

def contextsWhere (s : State) (p : Nat → Bool) : List Nat :=
  (s.ctxs.filter (fun e => !e.2.faulted && p e.1)).map Prod.fst

/-- Ranges that a pump-only command under way reads or writes. -/
def pumpRanges (s : State) (c : Cmd) : List (Addr × Nat) :=
  if c.opcode == opCopy then typedRange (c.p 0 8) (c.p 16 6) ++ typedRange (c.p 8 8) (c.p 16 6)
  else if c.opcode == opFill then typedRange (c.p 0 8) (c.p 8 6)
  else if c.opcode == opScrub then scrubTargets s c
  else if c.opcode == opCtxSave then
    typedRange (c.p 0 8) (c.p 8 8) ++
    (match s.ctx? c.ctx with | some x => [(Addr.well (x.sumpBase % 2 ^ 39), x.sumpBytes)] | none => [])
  else if c.opcode == opReside then typedRange (c.p 0 8) 1
  else if c.opcode == opWmDetect then typedRange (c.p 0 8) (c.p 8 4 * (if bitOf (c.p 12 1) 0 then 3 else 2))
  else []

/-- Ranges of a crop step: its tables, its frames and its output (R186). -/
def cropRanges (s : State) (b : Block) : List (Addr × Nat) :=
  let k := cropBlk b
  [ (.well k.table, 8 * k.frames), (.well k.boxes, 32 * k.count)
  , (.cis k.outBase, k.count * k.outH * k.linePitch), (.cis k.statusBase, k.count) ] ++
  (List.range k.frames).filterMap (fun i =>
    (wellAddr (mnat s.wellMem (k.table + 8 * i) 8)).map (fun a => (Addr.well a, k.h * k.pitch)))

/-- Streams whose frames a plan's steps read (R102). -/
def feedStreams (s : State) (c : Cmd) : List Stream :=
  let ids := match loopOfCmd s c with
    | some x => x.lanes.map Prod.snd
    | none => (match (argsOf s c).chunk with | some (i, _, _) => [i] | none => [])
  ids.filterMap (tget? s.streams)

/-- Ranges that a step of a running plan names. -/
def stepRanges (s : State) (c : Cmd) : PlanStep → List (Addr × Nat)
  | .pump b =>
    let d := pumpDesc b
    let ends := (endOf d.dst d.rowBytes d.rows d.dstStride).toList
    if d.op == 0 then (endOf d.src d.rowBytes d.rows d.srcStride).toList ++ ends else ends
  | .frame _ => (feedStreams s c).map (fun st => (.well (st.feedBase % 2 ^ 39), st.feedFrames * st.frameBytes))
  | .crop op => cropRanges s op.block
  | .siphon _ n dst _ _ => [(.cis dst, n)]
  | .write w => if w.lat.isSome then [] else [(.cis w.dst, 1)]
  | .read ad n => [(.cis ad, n)]
  | _ => []

/-- Ranges that a running plan's steps name. -/
def planRanges (s : State) (c : Cmd) (p : Plan) : List (Addr × Nat) :=
  (allSteps p).flatMap (stepRanges s c) ++
  (p.commit.filter (fun e => e.2.lat.isNone)).map (fun e => (Addr.cis e.2.dst, 1))

/-- Ranges that a command's transfers reach now. -/
def transferRanges (s : State) (c : Cmd) : List (Addr × Nat) :=
  if isPump c.opcode then (if c.inPlace then pumpRanges s c else [])
  else
    match c.plan with
    | some p => if c.phase == .running || (c.opcode == opStreamLoop && c.phase == .accepted) then planRanges s c p else []
    | none => []

/-- Dies that a command's siphon transfers go to. -/
def siphonDies (s : State) (u : Nat) : List Nat :=
  (s.siphon.filter (fun x => x.uid == some u)).map (fun x => dieOfCore (csCore x.dst))

/-- A command whose cores or transfers involve a die. A plan with a fixed group has its cores before it is placed. -/
def involves (s : State) (d : Nat) (c : Cmd) : Bool :=
  c.cores.any (fun g => dieOfCore g == d) ||
  (match c.plan with
   | some p => c.phase != .fetched && (match p.firstCore with | some f => dieOfCore f == d | none => false)
   | none => false) ||
  (transferRanges s c).any (fun r => (diesOfRange r.1 r.2).contains d) || (siphonDies s c.uid).contains d

-- ## Commands that run again (R44, R387)

/-- A command of an affected context goes back to its start: a plan waits for cores again, any other command starts
again from its fetch position. A STREAM_LOOP that waits for its slots is checked again, and one that names cores of a lost
die is refused (R420). -/
def runAgain (u : Nat) (s : State) : State :=
  match s.cmd? u with
  | none => s
  | some c =>
    let s := { s with siphon := s.siphon.filter (fun x => x.uid != some u) }
    if c.opcode == opRun then
      let (n, s) := if c.phase == .running then freeCycles s else (0, s)
      requeue u n s
    else if c.opcode == opStreamLoop then
      match c.object, loopOfCmd s c with
      | some l, some x =>
        if x.stopped then
          if x.cores.all (fun g => s.dieIn (dieOfCore g)) then s
          else refuse u [inParams c 2] (dropWaitingLoop l stBadParam 0 s)
        else
          let (n, s) := freeCycles s
          killBlock l n s
      | _, _ => s
    else
      let s := stopTransfer c s
      let s := if c.inPlace then
          let (n, s) := freeCycles s
          chargeRun u n s
        else s
      let s := freeCores u s
      let s := { s with loops := tmap s.loops (fun _ x => { x with saves := x.saves.filter (· != u) }) }
      s.modCmd u (fun c => { c with phase := .fetched, inPlace := false, cores := [], snaps := [], rerunDue := true })

-- ## Die quarantine

/-- Dies of the arc that starts at x, going up the ring. -/
def arcFrom (b : Byte) (x : Nat) : List Nat := ((List.range 8).map (fun i => (x + i) % 8)).takeWhile (fun d => b.getLsbD d)

/-- Arcs of the dies in service; none where every die or no die is. -/
def arcs (b : Byte) : List (List Nat) :=
  ((List.range 8).filter (fun x => b.getLsbD x && !b.getLsbD ((x + 7) % 8))).map (arcFrom b)

/-- The arc to keep: the longer, or among equals the one that holds the lower die number (R391). -/
def keptArc (b : Byte) : List Nat :=
  match arcs b with
  | [] => dieList b
  | a :: as => as.foldl (fun best x =>
      if best.length < x.length || (best.length == x.length && x.foldl min 8 < best.foldl min 8) then x else best) a

def dieMask (ds : List Nat) : Byte := ds.foldl (fun b d => b ||| BitVec.ofNat 8 (2 ^ d)) 0

/-- Dies in service after die d and every die outside the arc to keep have left (R391). -/
def diesAfter (b : Byte) (d : Nat) : Byte := dieMask (keptArc (b &&& ~~~BitVec.ofNat 8 (2 ^ d)))

/-- Domains of a die. -/
def domainsOf (d : Nat) : List Nat := [4 * d, 4 * d + 1, 4 * d + 2, 4 * d + 3, 32 + d]

/-- Parks the HDM ranges of a die (R317). -/
def parkDie (d : Nat) (s : State) : State :=
  { s with hdm := { s.hdm with ranges := tmap s.hdm.ranges (fun i v =>
      if hdmWell v == d || s.hdm.window.any (fun w => w.1 == i && wellOf w.2.1 == d) then v ||| 2 else v) } }

/-- What is gone with a die: traffic to it, cistern, accumulators and floats, resident images, the open segments and
waiting blocks of its spouts (R46, R389, Table 10.11). -/
def loseDie (d : Nat) (s : State) : State :=
  let lost := fun (i : Nat) => dieOfCluster (tget s.streams i {}).spout == d
  let s := { s with
    siphon := s.siphon.filter (fun x => dieOfCore (csCore x.dst) != d)
    cis := s.cis.filter (fun e => dieOfCore (csCore e.1) != d)
    acc := s.acc.filter (fun e => e.1 / 2 ^ 23 != d)
    floats := s.floats.filter (fun e => e.1 / 2 ^ 11 != d)
    streams := tmap s.streams (fun _ x => if dieOfCluster x.spout == d then { x with seg := none } else x)
    bindings := tmap s.bindings (fun _ b => { b with
      held := b.held.filter (fun k => !lost k.stream)
      withheld := match b.withheld with | some m => if lost m.stream then none else some m | none => none })
    images := tmap s.images (fun _ x => { x with owners := x.owners.filter (fun o => dieOfCore o.1 != d) }) }
  let gs := (List.range 32).map (32 * d + ·)
  gs.foldl (fun s g => if thas s.cores g then
      s.modCore g (fun c => { c with regions := (c.regions.take 4) ++ (c.regions.drop 4).map (fun _ => {}) })
    else s) s

/-- Takes one die out of service without its contexts: steps 1 to 5 of R389. -/
def fenceDie (d : Nat) (s : State) : State :=
  let s := parkDie d (loseDie d s)
  let s := openSwitches (domainsOf d) s
  let s := s.modDev (fun v => { v with
    lost := v.lost ||| BitVec.ofNat 8 (2 ^ d)
    links := v.links.filter (fun e => e.1 != d && e.1 != 8 + d && e.1 != 8 + (d + 7) % 8) })
  s.modWell d (fun w => { w with state := 2 })

/-- A group member that is lost after its DONE aborts nothing: the others still commit (R157). -/
def settleHeld (cs : List Nat) (s : State) : State :=
  let us := (s.inflight.filter (fun c => c.phase == .held && cs.contains c.ctx)).map (fun c => c.uid)
  let me := selfDev s
  s.modLat (fun l => { l with groups := tmap l.groups (fun _ (g : Group) =>
    if us.contains g.cmd then (if g.leader == me && !g.committed then { g with orphan := true } else { g with committed := true })
    else g) })

/-- CAL_DONE is set once every die in service has been calibrated (R338). -/
def calSettle (s : State) : State :=
  s.modPwr (fun p => { p with calDone := p.calDone ||
    (s.dev.dies != 0 && (dieList s.dev.dies).all (fun d => p.calDies.getLsbD d)) })

/-- Quarantine of die d as a device recovery, with the dies that R391 takes with it (R19, R389). Class (a) contexts are
torn down, class (b) commands run again. -/
def quarantine (d : Nat) (s : State) : State :=
  if !s.up || !s.dieIn d then s
  else
    let after := diesAfter s.dev.dies d
    let gone := d :: (dieList s.dev.dies).filter (fun e => e != d && !after.getLsbD e)
    let a := contextsWhere s (fun c => gone.any (fun e => stateOnDie s e c))
    let again := (s.inflight.filter (fun c => gone.any (fun e => involves s e c) &&
      (isDevice c.opcode || !a.contains c.ctx))).map (fun c => c.uid)
    let b := ((s.inflight.filter (fun c => again.contains c.uid && !isDevice c.opcode)).map (fun c => c.ctx)).eraseDups
    let detail := fun c => (gone.find? (fun e => stateOnDie s e c)).getD d
    let details := a.map (fun c => (c, detail c))
    let s := s.modDev (fun v => { v with dies := after })
    let s := raise evDieLost (recovery (a ++ b) s)
    let s := gone.foldl (fun s e => fenceDie e s) s
    let s := settleHeld a s
    let s := details.foldl (fun s p => teardown p.1 stDieLost p.2 s) s
    calSettle (again.foldl (fun s u => runAgain u s) s)

/-- DIE_QUARANTINE (R389). -/
def execDieQuarantine (d : Nat) (s : State) : Host.Outcome State Fault Refusal := .next (quarantine d s)

/-- VDD_C_LOW (R406). -/
def execVddCLow (d : Nat) (s : State) : Host.Outcome State Fault Refusal := .next (quarantine d s)

/-- WELL_SUPPLY_FAULT: the dies that carry the wells are quarantined, one after another (R406). -/
def execWellSupplyFault (ds : List Nat) (s : State) : Host.Outcome State Fault Refusal :=
  .next (ds.foldl (fun s d => quarantine d s) s)

-- ## Internal links (R12, R388)

/-- Ring links of a way of n hops up from die x. -/
def linksUp (x n : Nat) : List LinkRef := (List.range n).map (fun i => .ring ((x + i) % 8))

/-- Links between two dies: the shorter way round the ring, up at four hops, the other way past a die out of service. -/
def ringPath (s : State) (x y : Nat) : List LinkRef :=
  let up := (y + 8 - x) % 8
  let down := (x + 8 - y) % 8
  if ringClear s x up && (up ≤ down || !ringClear s y down) then linksUp x up else linksUp y down

/-- Links that a transfer between a core's die and a range uses; host memory lies behind the spoke. -/
def linksOf (s : State) (d : Nat) (r : Addr × Nat) : List LinkRef :=
  match r.1 with
  | .host _ => [.spoke d]
  | _ => (diesOfRange r.1 r.2).flatMap (fun e => if e == d then [] else ringPath s d e)

/-- A command has a transaction outstanding on a link: a siphon transfer on its way, or a transfer under way without a
plan. -/
def onLink (s : State) (l : LinkRef) (c : Cmd) : Bool :=
  (siphonDies s c.uid).any (fun d => l == .spoke d || c.cores.any (fun g => l == .spoke (dieOfCore g))) ||
  (c.inPlace && c.cores.any (fun g => (pumpRanges s c).any (fun r => (linksOf s (dieOfCore g) r).contains l)))

def linkKey : LinkRef → Nat
  | .spoke d => d
  | .ring d => 8 + d

/-- The die at the far end of a link from the hub (R388). -/
def farDie : LinkRef → Nat
  | .spoke d => d
  | .ring d => (d + 1) % 8

/-- Both ends of a link are in service. -/
def linkIn (s : State) : LinkRef → Bool
  | .spoke d => s.dieIn d
  | .ring d => s.dieIn d && s.dieIn ((d + 1) % 8)

/-- INTERNAL_LINK_REPLAY: a CRC error is corrected by a replay (R388). -/
def execInternalLinkReplay (l : LinkRef) (s : State) : Host.Outcome State Fault Refusal :=
  .next (if s.up && linkIn s l then raise evCorrected s else s)

/-- INTERNAL_LINK_RETRAIN: the link retrains; the commands with a transaction outstanding on it are killed and run again
(R387, R388). -/
def execInternalLinkRetrain (l : LinkRef) (s : State) : Host.Outcome State Fault Refusal :=
  .next (
    if !s.up || !linkIn s l || thas s.dev.links (linkKey l) then s
    else
      let cs := s.inflight.filter (onLink s l)
      let ctxs := ((cs.filter (fun c => !isDevice c.opcode)).map (fun c => c.ctx)).eraseDups
      let s := s.modDev (fun v => { v with links := tset v.links (linkKey l) 0 })
      let s := recovery ctxs (raise evCorrected s)
      cs.foldl (fun s c => runAgain c.uid s) s)

/-- INTERNAL_LINK_RETRAIN_DONE: traffic resumes, or the third failure quarantines the die at the far end (R388). -/
def execInternalLinkRetrainDone (l : LinkRef) (ok : Bool) (s : State) : Host.Outcome State Fault Refusal :=
  .next (match tget? s.dev.links (linkKey l) with
    | none => s
    | some n =>
      if !s.up then s
      else if ok then s.modDev (fun v => { v with links := tdel v.links (linkKey l) })
      else if n + 1 < 3 then s.modDev (fun v => { v with links := tset v.links (linkKey l) (n + 1) })
      else quarantine (farDie l) (s.modDev (fun v => { v with links := tdel v.links (linkKey l) })))

-- ## Page retirement

/-- CE_RETIRE; 0 counts as 1 (Table 14.6). -/
def ceLimit (w : Well) : Nat := max 1 w.ceRetire.toNat

/-- A page that is due for retirement (R304). -/
def retireDue (w : Well) (page : Nat) : Bool :=
  !w.withdrawn.contains page && (w.uePages.contains page || ceLimit w ≤ tget w.pageCe page 0)

/-- The well's record of a retirement, and the flash log, which holds 4,096 records (R304, R305). -/
def noteRetirement (d page : Nat) (ue wd : Bool) (s : State) : State :=
  let s := s.modWell d (fun w => { w with
    spares := if wd then w.spares else w.spares - 1
    retired := if wd then w.retired else ctrAdd w.retired 1
    withdrawnCount := if wd then ctrAdd w.withdrawnCount 1 else w.withdrawnCount
    withdrawn := if wd then w.withdrawn ++ [page] else w.withdrawn
    uePages := w.uePages.filter (· != page)
    pageCe := tdel w.pageCe page
    log := ((page, ue, wd) :: w.log).take 16 })
  s.modDev (fun v =>
    if v.flash.retired.length < 4096 then { v with flash := { v.flash with retired := v.flash.retired ++ [retireRecord v.flash.retired.length page ue wd] } } else v)

/-- PAGE_RETIRE: the page is copied to a spare, or withdrawn where the well has none; a page of the map region that would
be withdrawn takes its die with it (R304, R305, R387). -/
def execPageRetire (page : Nat) (s : State) : Host.Outcome State Fault Refusal :=
  .next (
    let d := page / 2 ^ 19
    let w := s.well d
    if !s.up || !s.dieIn d || !retireDue w page then s
    else
      let wd := w.spares == 0
      let ue := w.uePages.contains page
      if wd && inMapRegion (page * 65536) then quarantine d s
      else
        let cs := contextsWhere s (ownsInPage s page)
        let s := if wd then s else meetWell (page * 65536) 65536 s
        let s := noteRetirement d page ue wd s
        let s := if ue then s else raise evCorrected s
        recovery cs s)

end Sys2Proof.Machine
end

