-- ==== Sys2Proof/Machine/Power.lean ====
section
/-!
DEFINITION. The power manager's events: hints (R329), the ladder (R323 to R327, R332), grants (R335, R337), over-current
(R339), temperature (R345, R347), package power (R346), operating points (R343, R344, R402), calibration (R338), and
the clocks (R341).
-/

namespace Sys2Proof.Machine

-- ## Hints and floors

/-- Domains of a hint (R329). -/
def hintDomains (scope index : Nat) : List Nat :=
  if scope == 0 then List.range 40 else if scope == 1 then domainsOf index else [index]

/-- The die of a domain 0 to 39. -/
def dieOfDomain (n : Nat) : Nat := if n < 32 then n / 4 else n - 32

/-- A domain that is deeper than its effective floor wakes; a cluster takes its die uncore along (R323, R327, R349). -/
def honourFloor (n : Nat) (s : State) : State :=
  if 40 ≤ n || !s.dieIn (dieOfDomain n) || (s.dom n).state ≤ floorOf s n then s
  else
    let s := if n < 32 && floorOf s n ≤ 1 then beginWake (uncoreOf n) 2 s else s
    beginWake n 2 s

/-- POWER_HINT (R329, R420). -/
def execPowerHint (u : Nat) (s : State) : Host.Outcome State Fault Refusal :=
  .next (onStart u opPowerHint s (fun c s =>
    let scope := c.p 0 1
    let index := c.p 1 1
    checked u
      [ (scope ≤ 2, inParams c 0)
      , (scope == 0 || 2 < scope || (scope == 1 && s.dieIn index) || (scope == 2 && index < 32 && s.dieIn (dieOfCluster index)),
          inParams c 1)
      , (c.p 2 1 ≤ 4, inParams c 2) ] s (fun s =>
      let ns := hintDomains scope index
      let s := ns.foldl (fun s n => s.modDom n (fun d => { d with hint := some (c.p 2 1), hintTimed := c.p 4 4 != 0 })) s
      completeOk u (ns.foldl (fun s n => honourFloor n s) s))))

/-- HINT_EXPIRY: HOLD_US of the hint on a domain is over (R329). -/
def execHintExpiry (n : Nat) (s : State) : Host.Outcome State Fault Refusal :=
  .next (if s.up && (s.dom n).hintTimed then honourFloor n (s.modDom n (fun d => { d with hint := none, hintTimed := false }))
    else s)

-- ## Down the ladder

/-- A plan, a pump phase or a held grant on a cluster, or work that waits for it. -/
def clusterBusy (s : State) (n : Nat) : Bool :=
  (coresOf n).any (fun g => (s.core g).running.isSome || reserved s g || tierOneWaits s g) ||
  (s.rail (n / 4)).holds.any (fun h => match h.what with | .stage _ g => clusterOfCore g == n | _ => false)

/-- Traffic that a die uncore serves: its clusters' work, its spouts, transfers to its well (R323). -/
def uncoreBusy (s : State) (d : Nat) : Bool :=
  (List.range 4).any (fun k => clusterBusy s (4 * d + k) || spoutServes s (4 * d + k)) ||
  s.inflight.any (fun c => (transferRanges s c).any (fun r => (diesOfRange r.1 r.2).contains d))

def domainBusy (s : State) (n : Nat) : Bool := if n < 32 then clusterBusy s n else uncoreBusy s (n - 32)

/-- No floor, and no cluster that needs its die uncore, forbids the next state (R323, R326, R328). -/
def mayStepDown (s : State) (n : Nat) : Bool :=
  let st := (s.dom n).state
  st + 1 ≤ floorOf s n &&
  (n < 32 || st == 0 || (List.range 4).all (fun k => let c := s.dom (4 * (n - 32) + k); 2 ≤ c.state && c.waking == 0)) &&
  (st != 3 || s.pwr.idleDryMs != 0)

/-- Every slot of a cluster is swapped out before it goes dry; the device page counts the swaps (R326). -/
def emptyCluster (n : Nat) (s : State) : State :=
  (coresOf n).foldl (fun s g => (slotsOn s g).foldl (fun s e =>
    match s.ctx? e.2 with
    | none => s
    | some x => (swapSlot g e.1 e.2 x s).modSched (fun d => { d with swapOuts := ctrAdd d.swapOuts 1 })) s) s

/-- The cistern, accumulators and floats of a cluster that is dry are lost, and its images are not resident (R46). -/
def dryCluster (n : Nat) (s : State) : State :=
  let mine := fun g => clusterOfCore g == n
  let s := { s with
    cis := s.cis.filter (fun e => !mine (csCore e.1)), acc := s.acc.filter (fun e => !mine (e.1 / 2 ^ 18))
    floats := s.floats.filter (fun e => !mine (e.1 / 64))
    cisPoison := s.cisPoison.filter (fun w => !mine (w / 2 ^ 18)), accPoison := s.accPoison.filter (fun k => !mine (k / 2 ^ 18))
    upsets := { s.upsets with cisSingle := s.upsets.cisSingle.filter (fun w => !mine (w / 2 ^ 18))
                              cisDouble := s.upsets.cisDouble.filter (fun w => !mine (w / 2 ^ 18))
                              accSingle := s.upsets.accSingle.filter (fun k => !mine (k / 2 ^ 18))
                              accDouble := s.upsets.accDouble.filter (fun k => !mine (k / 2 ^ 18)) } }
  { s with cores := tmap s.cores (fun g (c : Core) => if mine g then
      { c with regions := c.regions.take 4 ++ List.replicate 4 ({} : Region) } else c) }

/-- The well follows its die uncore (R325, Table 15.3). -/
def followWell (n st : Nat) (s : State) : State :=
  if n < 32 || 40 ≤ n then s
  else s.modPwr (fun p => { p with wells := tset p.wells (n - 32) (if 3 ≤ st then 2 else max 1 (tget p.wells (n - 32) 2)) })

/-- DOMAIN_STEP_DOWN: an idle timer of domain n has expired (R326). -/
def execDomainStepDown (n : Nat) (s : State) : Host.Outcome State Fault Refusal :=
  .next (
    let d := s.dom n
    if !s.up || 40 ≤ n || !s.dieIn (dieOfDomain n) || d.waking != 0 || 4 ≤ d.state || domainBusy s n || !mayStepDown s n then s
    else
      let st := d.state + 1
      let s := if st == 4 && n < 32 then dryCluster n (emptyCluster n s) else s
      let s := s.modDom n (fun d => { d with state := st })
      let s := if loopClamp s n then s else setStanding n st s
      followWell n st s)

/-- WELL_POWER_DOWN: no access for 200 ns (R325). -/
def execWellPowerDown (d : Nat) (s : State) : Host.Outcome State Fault Refusal :=
  .next (if s.up && wellState s d == 0 then s.modPwr (fun p => { p with wells := tset p.wells d 1 }) else s)

-- ## Wakes

/-- Work placed on a domain, a spout, or a floor that asks for it (R323, R327). -/
def wakeWanted (s : State) (n : Nat) : Bool := domainBusy s n || spoutClamp s n || floorOf s n < (s.dom n).state

/-- Class of a wake's charges (R335). -/
def wakeClass (s : State) (n : Nat) : Nat :=
  let gs := if n < 32 then coresOf n else (List.range 32).map (32 * (n - 32) + ·)
  if n < 40 && gs.any (tierOneWaits s) then 1 else 2

/-- DOMAIN_WAKE (R327). -/
def execDomainWake (n : Nat) (s : State) : Host.Outcome State Fault Refusal :=
  .next (
    if !s.up || 40 ≤ n || !s.dieIn (dieOfDomain n) || !wakeWanted s n then s
    else
      let k := wakeClass s n
      let s := if n < 32 then beginWake (uncoreOf n) k s else s
      beginWake n k s)

/-- PLL_LOCK: the switch of a waking domain has closed, or its PLL has locked; its next standing charge is requested.
A cluster waits for its die uncore (R323, R332). A hub domain has one charge. -/
def execPllLock (n : Nat) (s : State) : Host.Outcome State Fault Refusal :=
  .next (
    let w := (s.dom n).waking
    if !s.up then s
    else if w == 1 then
      if 40 ≤ n then requestStanding n 0 (wakeClass s n) (s.modDom n (fun d => { d with waking := 3 }))
      else if n < 32 && 2 ≤ (s.dom (uncoreOf n)).state then s
      else requestStanding n 1 (wakeClass s n) (s.modDom n (fun d => { d with waking := 4 }))
    else if w == 2 && !(n < 32 && 2 ≤ (s.dom (uncoreOf n)).state) then
      requestStanding n 0 (wakeClass s n) (s.modDom n (fun d => { d with waking := 3 }))
    else s)

/-- WEIR_GRANT: headroom allows the next request of rail r; `pRest` is P_REST in watts (R335, R337). -/
def execWeirGrant (r pRest : Nat) (s : State) : Host.Outcome State Fault Refusal :=
  .next (if s.up then grantNext r pRest s else s)

/-- CXL_LINK_L1: the CXL domain goes to low with the link, and back to flowing (R322). -/
def execCxlLinkL1 (enter : Bool) (s : State) : Host.Outcome State Fault Refusal :=
  .next (
    if !s.up || s.pwr.linkL1 == enter then s
    else
      let s := s.modPwr (fun p => { p with linkL1 := enter })
      if enter then setStanding 41 2 (s.modDom 41 (fun d => { d with state := 2, waking := 0 })) else beginWake 41 2 s)

/-- CXL_LINK_RETRAIN: outstanding reads complete after the link returns; timing only (R373). -/
def execCxlLinkRetrain (s : State) : Host.Outcome State Fault Refusal := .next s

-- ## Operating points (R343, R344)

/-- One point down: clocks, then the voltage, and the ledger releases the difference. -/
def stepDown (d : Nat) (s : State) : State :=
  if 3 ≤ (s.diePerf d).point then s
  else
    let s := dropCharges (fun h => h.what == .point d) s
    let s := s.modDie d (fun p => { p with point := p.point + 1, rising := false })
    rescale d (emit (.avs d (railMv5 s d (s.diePerf d).point)) s)

/-- One point up: the higher voltage is asked for. -/
def stepUp (d : Nat) (s : State) : State :=
  let p := s.diePerf d
  if p.point ≤ p.ceil.toNat || p.rising then s
  else emit (.avs d (railMv5 s d (p.point - 1))) (s.modDie d (fun p => { p with rising := true }))

/-- VOLTAGE_SETTLED: the added charges are asked for; the clocks switch once they are held (R344, R402). -/
def execVoltageSettled (d : Nat) (s : State) : Host.Outcome State Fault Refusal :=
  .next (
    let p := s.diePerf d
    if !s.up || !p.rising || waiting (fun h => h.what == .point d) s then s
    else
      let n := pointRise s d (p.point - 1)
      if n == 0 then pointGranted d s else request d { what := .point d, cls := 2, parts := [], units := n } s)

/-- AVS_NO_ACK: the die stays at its lower point (R402). -/
def execAvsNoAck (d : Nat) (s : State) : Host.Outcome State Fault Refusal :=
  .next (if s.up && (s.diePerf d).rising && !waiting (fun h => h.what == .point d) s then
      raise evCorrected (s.modDie d (fun p => { p with rising := false })) else s)

/-- A write of CEIL_POINT: the highest point that software allows; a die above it steps down (R344). -/
def setCeil (d : Nat) (point : BitVec 2) (s : State) : State :=
  let s := s.modDie d (fun p => { p with ceil := point })
  (List.range (point.toNat - (s.diePerf d).point)).foldl (fun s _ => stepDown d s) s

/-- CEIL_POINT (R344). -/
def execCeilPoint (d : Nat) (point : BitVec 2) (s : State) : Host.Outcome State Fault Refusal :=
  .next (if s.up && d < 8 then setCeil d point s else s)

-- ## Current, temperature and power

/-- OVER_CURRENT: the clocks of the die's clusters are halved (R339). -/
def execOverCurrent (d : Nat) (s : State) : Host.Outcome State Fault Refusal :=
  .next (if s.up && s.dieIn d then
      raise evPower ((s.modDie d (fun p => { p with overCur := true })).modPwr (fun p =>
        { p with overCount := ctrAdd p.overCount 1 }))
    else s)

/-- OVER_CURRENT_RESTORE (R339). -/
def execOverCurrentRestore (d : Nat) (s : State) : Host.Outcome State Fault Refusal :=
  .next (if s.up then s.modDie d (fun p => { p with overCur := false }) else s)

/-- A junction temperature, signed °C. -/
def tempOf (b : Byte) : Int := sextN 8 b.toNat

/-- TJ_THROTTLE and TJ_TRIP of the ordering code (Table 18.7). -/
def tjThrottle (s : State) : Int := if s.dev.fuses.orderingA1 then 105 else 95
def tjTrip (s : State) : Int := if s.dev.fuses.orderingA1 then 120 else 110

/-- SENSOR_READ: temperatures of dies 0 to 7 and of the hub; one at TJ_TRIP is a thermal trip (R345, R347). -/
def execSensorRead (temps : List Byte) (s : State) : Host.Outcome State Fault Refusal :=
  .next (
    let trip := temps.any (fun t => tjTrip s ≤ tempOf t)
    if s.dev.mode == .off || s.dev.mode == .reset then s
    else
      let s := if s.up then
          (List.range 8).foldl (fun s d => s.modDie d (fun p => { p with tj := temps.getD d p.tj }))
            (s.modPwr (fun p => { p with hubTj := temps.getD 8 p.hubTj }))
        else s
      if trip then thermalTrip (fatal 3 s) else s)

/-- THERMAL_STEP_DOWN: at a 1 ms check the die reads TJ_THROTTLE or above (R345). -/
def execThermalStepDown (d : Nat) (s : State) : Host.Outcome State Fault Refusal :=
  .next (
    let p := s.diePerf d
    if !s.up || !s.dieIn d || tempOf p.tj < tjThrottle s then s
    else
      let fresh := !s.pwr.throttled.getLsbD d
      let s := s.modPwr (fun w => { w with throttled := w.throttled ||| BitVec.ofNat 8 (2 ^ d) })
      let s := if fresh then raise evThermal s else s
      if 3 ≤ p.point then s.modDie d (fun p => { p with hot := true }) else stepDown d s)

/-- THERMAL_STEP_UP: the die has read below TJ_THROTTLE − 5 °C for 10 ms (R345). -/
def execThermalStepUp (d : Nat) (s : State) : Host.Outcome State Fault Refusal :=
  .next (
    if !s.up || !s.dieIn d || !s.pwr.throttled.getLsbD d || tjThrottle s - 5 ≤ tempOf (s.diePerf d).tj then s
    else endThrottle d (stepUp d (s.modDie d (fun p => { p with hot := false }))))

/-- TDP_STEP_DOWN: the average over the last second is `avg` watts (R346). -/
def execTdpStepDown (avg : Nat) (s : State) : Host.Outcome State Fault Refusal :=
  .next (
    if !s.up then s
    else
      let s := s.modPwr (fun p => { p with avgW := avg })
      if avg ≤ s.pwr.tdpW.toNat then s
      else (dieList s.dev.dies).foldl (fun s d => stepDown d s) (s.modPwr (fun p => { p with tdpLimited := true })))

/-- TDP_STEP_UP (R346). -/
def execTdpStepUp (avg : Nat) (s : State) : Host.Outcome State Fault Refusal :=
  .next (
    if !s.up then s
    else
      let s := s.modPwr (fun p => { p with avgW := avg })
      if 95 * s.pwr.tdpW.toNat ≤ 100 * avg then s
      else (dieList s.dev.dies).foldl (fun s d => stepUp d s) (s.modPwr (fun p => { p with tdpLimited := false })))

-- ## Calibration and the slow clock

/-- A measured change, in mA, is within 0.75 to 1.25 × nominal of entry e (R338). -/
def calInRange (e mA : Nat) : Bool :=
  let n := nominal.getD e 0 * 250
  3 * n ≤ 4 * mA && 4 * mA ≤ 5 * n

/-- CALIBRATION_DONE: die d has run each charge of Table 15.4, and the rail rose by `measured` mA for each (R338). -/
def execCalibrationDone (d : Nat) (measured : List Nat) (s : State) : Host.Outcome State Fault Refusal :=
  .next (
    if !s.up || !s.dieIn d || s.pwr.calDies.getLsbD d then s
    else
      let es := (List.range 14).map (fun e => (e, measured.getD e 0))
      let good := es.filter (fun x => calInRange x.1 x.2)
      let s := s.modPwr (fun p => { p with
        cal := good.foldl (fun t x => tset t (16 * d + x.1) (BitVec.ofNat 16 (cdiv x.2 250 + 1))) p.cal
        calFail := if good.length < 14 then p.calFail ||| BitVec.ofNat 8 (2 ^ d) else p.calFail
        calDies := p.calDies ||| BitVec.ofNat 8 (2 ^ d) })
      rescale d (calSettle s))

/-- SLOWCLK_LOSS: the RC oscillator takes over (R341). -/
def execSlowclkLoss (s : State) : Host.Outcome State Fault Refusal :=
  .next (
    if s.dev.mode == .off || s.pwr.slowSrc then s
    else
      let s := s.modPwr (fun p => { p with slowSrc := true })
      if s.up || s.dev.mode == .fatal then raise evPower s else s)

/-- SLOWCLK_RETURN (R341). -/
def execSlowclkReturn (s : State) : Host.Outcome State Fault Refusal :=
  .next (if s.dev.mode == .off then s else s.modPwr (fun p => { p with slowSrc := false }))

end Sys2Proof.Machine
end

