-- ==== Sys2Proof/Machine/Lateral.lean ====
section
/-!
DEFINITION. The receiving side of the lateral fabric: ports (R143, R149), flits (R147, R148, R150), messages (R152,
R153), groups (R155 to R157, R161), multicast (R163, R164).
-/

namespace Sys2Proof.Machine

-- ## Messages at this device

/-- The first message that a row takes, where no earlier one from the same device on the same channel waits (R153). -/
def takeMsg (p : Msg → Bool) (s : State) : Option (Msg × State) :=
  let ms := s.lat.inbox
  let hit := (List.range ms.length).find? (fun i =>
    match ms[i]? with
    | none => false
    | some m => p m && (ms.take i).all (fun k => !(k.src == m.src && k.vc == m.vc)))
  match hit with
  | none => none
  | some i => (ms[i]?).map (fun m => (m, s.modLat (fun l => { l with inbox := ms.take i ++ ms.drop (i + 1) })))

def stale (s : State) : State := s.modLat (fun l => { l with stale := ctrAdd l.stale 1 })

/-- A group message belongs to the group's current generation here (R155). -/
def genOk (s : State) (m : Msg) : Bool :=
  m.group == 0xFFFF ||
  (match tget? s.lat.groups m.group with
   | some g => m.gen == g.gen % 256
   | none => false)

/-- Writes a message's data, with its float; a write that R27 discards is counted (R152). -/
def writeMsg (m : Msg) (s : State) : State :=
  match inboundWrite m.addr m.data m.float m.floatInc s with
  | (true, s) => s
  | (false, s) => s.modLat (fun l => { l with inboundDiscards := ctrAdd l.inboundDiscards 1 })

/-- Acts on the next message of a kind. -/
def onMsg (p : Msg → Bool) (s : State) (act : Msg → State → State) : State :=
  if !s.serving then s
  else match takeMsg p s with
    | none => s
    | some (m, s) => act m s

/-- WRITE (R152). -/
def execWrite (s : State) : Host.Outcome State Fault Refusal :=
  .next (onMsg (fun m => m.type == 0) s (fun m s => if genOk s m then writeMsg m s else stale s))

/-- GAP: the record of the sequence numbers missed takes the message's place (R164). -/
def execGap (s : State) : Host.Outcome State Fault Refusal :=
  .next (onMsg (fun m => m.type == 3) s (fun m s => if genOk s m then writeMsg m s else stale s))

/-- VALVE: counts exactly once at the target (R153). -/
def execValve (s : State) : Host.Outcome State Fault Refusal :=
  .next (onMsg (fun m => m.type == 1) s (fun m s =>
    if genOk s m then valveAdd (field m.data 0 4 % 2 ^ 14) (field m.data 4 4) s else stale s))

/-- MASS of a member for this origin's shard (R161). -/
def execMass (s : State) : Host.Outcome State Fault Refusal :=
  .next (onMsg (fun m => m.type == 4) s (fun m s =>
    if m.group != 0xFFFF && genOk s m then
      let vs := (List.range (m.data.length / 4)).map (fun i => BitVec.ofNat 32 (field m.data (4 * i) 4))
      s.modLat (fun l => { l with groups := tmod l.groups m.group (fun g =>
        { g with masses := g.masses.filter (fun e => e.1 != m.src) ++ [(m.src, vs)] }) })
    else stale s))

-- ## Group control

def modGroup (gid : Nat) (f : Group → Group) (s : State) : State :=
  s.modLat (fun l => { l with groups := tmod l.groups gid f })

/-- A control message of the group's generation here, in its header and, where the code has it, in its data (R155). -/
def ctrlOk (g : Group) (m : Msg) : Bool :=
  m.gen == g.gen % 256 && (m.addr == ctrlReady || m.addr == ctrlRefuse || field m.data 0 4 == g.gen)

/-- Control messages of one code, for a group that is active here; another generation's are discarded and counted. -/
def onCtrlIf (code : Nat) (p : Msg → Bool) (s : State) (act : Nat → Group → Msg → State → State) : State :=
  onMsg (fun m => m.type == 2 && m.addr == code && p m) s (fun m s =>
    match tget? s.lat.groups m.group with
    | some g => if ctrlOk g m then act m.group g m s else stale s
    | none => stale s)

def onCtrl (code : Nat) (s : State) (act : Nat → Group → Msg → State → State) : State :=
  onCtrlIf code (fun _ => true) s act

/-- The MASS of every member has reached this origin (R161). -/
def Group.massIn (g : Group) : Bool := g.devices.all (fun d => g.masses.any (fun e => e.1 == d))

/-- Cycles that a member's run is charged for when it ends here: those up to its DONE, or a free count (R44). -/
def ranCycles (u : Nat) (s : State) : Nat × State :=
  match s.cmd? u with
  | some c => if c.phase == .running then freeCycles s else (c.heldCyc, s)
  | none => (0, s)

/-- A member's part of an abort: its run is discarded and READY goes out again, or after RETRY_MAX the command ends with
ST_KILLED (R156). -/
def memberAbort (gid : Nat) (s : State) : State :=
  match tget? s.lat.groups gid with
  | none => s
  | some g =>
    let u := g.cmd
    if g.retryMax ≤ g.gen then killAs u stKilled byGroupAbort (modGroup gid (fun g => { g with committed := true }) s)
    else
      let s := modGroup gid (fun g =>
        { g with gen := g.gen + 1, masses := [], shards := [], readies := [], dones := [], started := false, readySent := false }) s
      let s := s.modCmd u (fun c => { c with rerunDue := true })
      if g.started then
        let (n, s) := ranCycles u s
        requeue u n s
      else if g.readySent then sendReady gid s
      else s

/-- The leader aborts the generation (R156, R157). -/
def leaderAbort (gid : Nat) (s : State) : State :=
  match tget? s.lat.groups gid with
  | none => s
  | some g =>
    let s := sendOthers gid ctrlAbort g (leBytes 4 g.gen) s
    if g.orphan then s.modLat (fun l => { l with groups := tdel l.groups gid }) else memberAbort gid s

/-- REFUSE at a member: its command completes with ST_BAD_PARAM (R155). -/
def memberRefuse (gid : Nat) (s : State) : State :=
  match tget? s.lat.groups gid with
  | none => s
  | some g => refuse g.cmd [inObject noField] (discardRun g.cmd (modGroup gid (fun g => { g with committed := true }) s))

/-- READY at the leader: with all members' READY it sends GO, or REFUSE where two differ (R155). -/
def execReady (s : State) : Host.Outcome State Fault Refusal :=
  .next (onCtrl ctrlReady s (fun gid g m s =>
    if g.leader != selfDev s || g.started || !g.devices.contains m.src then s
    else
      let r := (m.src, field m.data 0 1, field m.data 1 1, field m.data 4 4)
      let rs := g.readies.filter (fun e => e.1 != m.src) ++ [r]
      let s := modGroup gid (fun g => { g with readies := rs }) s
      if rs.any (fun e => e.2 != r.2) then memberRefuse gid (sendOthers gid ctrlRefuse g [] s)
      else if rs.length == g.members then
        g.devices.foldl (fun s d => sendCtrl d gid ctrlGo (leBytes 4 g.gen) s)
          (modGroup gid (fun g => { g with readies := [], dones := [] }) s)
      else s))

/-- GO(g) at a member: its floats are armed and its plan starts (R43, R155). -/
def execGo (s : State) : Host.Outcome State Fault Refusal :=
  .next (onCtrl ctrlGo s (fun gid g m s =>
    if m.src != g.leader || !g.readySent || g.started then s
    else
      match s.cmd? g.cmd with
      | none => s
      | some c =>
        if c.phase != .placed then s
        else launch c.uid (claimStaging c (modGroup gid (fun g => { g with gen := field m.data 0 4, started := true }) s))))

/-- The held results of this device's member take effect (R157). -/
def commitMember (gid : Nat) (g : Group) (s : State) : State :=
  match s.cmd? g.cmd with
  | none => s
  | some c =>
    if c.phase != .held then s
    else commitRun c.uid c.heldCyc (modGroup gid (fun g => { g with committed := true }) s)

/-- Members whose DONE the leader holds once a message is in. -/
def donesWith (g : Group) (m : Msg) : List Nat := g.dones.filter (· != m.src) ++ [m.src]

/-- What commits at the receipt of a message can commit: scores at its commit need the MASS of every member (R161), so the
message waits for them. DESIGN CHOICE (assumption 715). -/
def mayCommit (s : State) (m : Msg) : Bool :=
  match tget? s.lat.groups m.group with
  | none => true
  | some g =>
    !ctrlOk g m || g.massIn || g.orphan || (m.addr == ctrlDone && decide ((donesWith g m).length < g.members))

/-- DONE(g) at the leader: with all members' DONE it sends COMMIT and commits (R157). -/
def execDone (s : State) : Host.Outcome State Fault Refusal :=
  .next (onCtrlIf ctrlDone (mayCommit s) s (fun gid g m s =>
    if g.leader != selfDev s || g.committed then s
    else
      let ds := donesWith g m
      let s := modGroup gid (fun g => { g with dones := ds }) s
      if ds.length < g.members then s
      else
        let s := sendOthers gid ctrlCommit g (leBytes 4 g.gen) s
        if g.orphan then s.modLat (fun l => { l with groups := tdel l.groups gid })
        else commitMember gid g s))

/-- COMMIT(g) at a member: its held results take effect (R157). -/
def execCommit (s : State) : Host.Outcome State Fault Refusal :=
  .next (onCtrlIf ctrlCommit (mayCommit s) s (fun gid g m s => if m.src == g.leader then commitMember gid g s else s))

/-- ABORT(g) reaches the leader, which passes it on, or a member (R156). After COMMIT it is ignored (Table 7.12). -/
def execAbort (s : State) : Host.Outcome State Fault Refusal :=
  .next (onCtrl ctrlAbort s (fun gid g m s =>
    if g.committed then s
    else if g.leader == selfDev s then leaderAbort gid s
    else if m.src == g.leader then memberAbort gid s
    else s))

/-- REFUSE reaches a member (R155). -/
def execRefuse (s : State) : Host.Outcome State Fault Refusal :=
  .next (onCtrl ctrlRefuse s (fun gid g m s => if m.src == g.leader && !g.started then memberRefuse gid s else s))

/-- A member other than the leader waits for GO, or after its DONE for COMMIT. -/
def awaitsLeader (s : State) (g : Group) : Bool :=
  match s.cmd? g.cmd with
  | none => false
  | some c => (g.readySent && !g.started) || c.phase == .held

/-- The COMMIT of a group's generation, where it waits here for MASS. -/
def commitWaiting (s : State) (gid : Nat) (g : Group) : Option Nat :=
  s.lat.inbox.findIdx? (fun m => m.type == 2 && m.addr == ctrlCommit && m.group == gid && m.src == g.leader && ctrlOk g m)

/-- GROUP_WAIT_TIMEOUT: GROUP_WAIT_US has passed without the READY or DONE that the leader waits for, and it aborts the
generation (R157). At another member it is the wait for its leader, whose PERST# or lost route ends the generation (Table
7.12); a COMMIT that has come is carried out with the MASS that has. DESIGN CHOICE (assumption 713). -/
def execGroupWaitTimeout (gid : Nat) (s : State) : Host.Outcome State Fault Refusal :=
  .next (match tget? s.lat.groups gid with
    | none => s
    | some g =>
      if !s.serving || g.committed || !(g.readySent || g.started) then s
      else if g.leader == selfDev s then leaderAbort gid s
      else if !awaitsLeader s g then s
      else match commitWaiting s gid g with
        | some i => commitMember gid g (s.modLat (fun l => { l with inbox := l.inbox.eraseIdx i }))
        | none => memberAbort gid s)

-- ## Ports

/-- The neighbour that a port leads to; none where no link joins (R143). -/
def neighbour (s : State) (p : Nat) : Option Nat :=
  let x := devX (selfDev s)
  let y := devY (selfDev s)
  let nx := xSize s
  let ny := ySize s
  if p == 1 then (if x + 1 < nx then some (x + 1 + 128 * y) else if wrapX s then some (128 * y) else none)
  else if p == 3 then (if 0 < x then some (x - 1 + 128 * y) else if wrapX s then some (nx - 1 + 128 * y) else none)
  else if p == 2 then (if y + 1 < ny then some (x + 128 * (y + 1)) else if wrapY s then some x else none)
  else (if 0 < y then some (x + 128 * (y - 1)) else if wrapY s then some (x + 128 * (ny - 1)) else none)

/-- Whether a port's link is a wrap link. -/
def wrapPort (s : State) (p : Nat) : Bool :=
  let x := devX (selfDev s)
  let y := devY (selfDev s)
  if p == 1 then x + 1 == xSize s else if p == 3 then x == 0 else if p == 2 then y + 1 == ySize s else y == 0

/-- Groups whose way to a member leads through a port abort: the leader aborts the generation, and another member reports
ABORT to it, with its run killed where it had started (R156, R157, Table 7.12). -/
def abortVia (p : Nat) (s : State) : State :=
  let me := selfDev s
  let hit := s.lat.groups.filter (fun e => !e.2.committed && e.2.devices.any (fun d =>
    d != me && (match route s d with | some (q, _) => q == p | none => false)))
  hit.foldl (fun s e =>
    if e.2.leader == me then leaderAbort e.1 s
    else if e.2.started then
      let (n, s) := ranCycles e.2.cmd s
      requeue e.2.cmd n s
    else reportAbort e.2.cmd s) s

/-- Flits of a queue from input p that belong to a message whose last flit has come. -/
def wholeOf (p : Nat) (fs : List OutFlit) : List OutFlit × List OutFlit :=
  fs.foldr (fun f acc =>
    if f.src == p && !bitOf f.hdr 72 && !acc.1.any (fun g => g.src == p && hdrVc g.hdr == hdrVc f.hdr && g.inKey == f.inKey)
    then (acc.1, f :: acc.2) else (f :: acc.1, acc.2)) ([], [])

/-- Input p is gone: at output q the flits of its unfinished messages are discarded and counted, the others hold no buffer of
it any more, and a channel that an unfinished message held is free (R144, R145). -/
def dropInput (p q : Nat) (s : State) : State :=
  let (keep, lost) := wholeOf p (s.port q).outq
  let s := s.modLat (fun l => { l with unroutable := ctrAdd l.unroutable lost.length })
  s.modPort q (fun t => { t with
    outq := keep.map (fun f => if f.src == p then { f with inKey := 8 + f.inKey } else f)
    owner := t.owner.filter (fun e =>
      e.2 / 2 != p || keep.any (fun f => hdrVc f.hdr == e.1 && 2 * f.src + hdrDl f.hdr == e.2)) })

/-- A port goes DOWN or FAILED: what waits on it is discarded and counted, its link state and receive buffers are lost (R144,
R149). -/
def dropPort (p st : Nat) (s : State) : State :=
  let t := s.port p
  let s := t.outq.foldl (fun s f => owe f.src f.inKey 1 s) s
  let s := s.modLat (fun l => { l with
    unroutable := ctrAdd l.unroutable t.outq.length
    mcastQ := l.mcastQ.map (fun h => if h.src == some p then { h with inKey := 8 + h.inKey % 8 } else h) })
  let s := s.modPort p (fun t =>
    { state := st, far := if st == 4 then t.far else none, crcErrors := t.crcErrors, replays := t.replays, retrains := t.retrains })
  let s := ((List.range 4).filter (· != p)).foldl (fun s q => dropInput p q s) s
  abortVia p (raise evLateral s)

/-- PORT_TRAINED: the port's domain is flowing (R142), and the port is UP where its far end is the neighbour that R143 names,
else FAILED. What was queued on it while it trained now leaves. -/
def execPortTrained (p : Nat) (far : Option Nat) (s : State) : Host.Outcome State Fault Refusal :=
  .next (
    let t := s.port p
    if !s.up || t.state != 1 || !s.dev.numValid || !flowing s (42 + p) then s
    else if far.isSome && far == neighbour s p then
      let s := s.modPort p (fun t => { t with
        state := 2, far := far, owed := [], credits := (List.range 8).map (fun k => (k, bufferFlits (k / 2))) })
      latSettle (raise evLateral s)
    else dropPort p 4 (s.modPort p (fun t => { t with far := far })))

/-- A flit of the port may be replayed: none has been replayed 16 times, which makes the port retrain (R149). -/
def mayReplay (t : Port) : Bool := !t.retry.isEmpty && t.retry.all (fun e => e.1 < 16)

/-- Sends every unacknowledged flit again (R148). -/
def replay (p : Nat) (s : State) : State :=
  let s := (s.port p).retry.foldl (fun s e => emit (.flit p e.2) s) s
  raise evCorrected (s.modPort p (fun t => { t with
    replays := ctrAdd t.replays 1, retry := t.retry.map (fun e => (e.1 + 1, e.2)) }))

/-- REPLAY_TIMEOUT: ACK_SEQ has not advanced for 4 µs (R148). -/
def execReplayTimeout (p : Nat) (s : State) : Host.Outcome State Fault Refusal :=
  .next (
    let t := s.port p
    if s.up && t.state == 2 && mayReplay t then replay p s else s)

/-- PORT_RETRAIN: one flit has been replayed 16 times without being acknowledged (R149). -/
def execPortRetrain (p : Nat) (s : State) : Host.Outcome State Fault Refusal :=
  .next (
    let t := s.port p
    if s.up && t.state == 2 && t.retry.any (fun e => 16 ≤ e.1) then
      s.modPort p (fun t => { t with state := 3, retrains := ctrAdd t.retrains 1 })
    else s)

/-- RETRAIN_DONE: a retrain has succeeded after `failed` that did not, at most two, and traffic resumes from the last
acknowledged flit (R149). PORT_RETRAIN has counted the first of them. -/
def execRetrainDone (p failed : Nat) (s : State) : Host.Outcome State Fault Refusal :=
  .next (
    if s.up && (s.port p).state == 3 && failed ≤ 2 then
      let s := s.modPort p (fun t => { t with
        state := 2, failed := t.failed + failed, retrains := ctrAdd t.retrains failed
        retry := t.retry.map (fun e => (0, e.2)) })
      let s := (s.port p).retry.foldl (fun s e => emit (.flit p e.2) s) s
      latSettle (raise evLateral (raise evCorrected s))
    else s)

/-- PORT_FAILED: `failed` retrains have failed since PORT_RETRAIN, the last of them the third that failed within one second
(R149). -/
def execPortFailed (p failed : Nat) (s : State) : Host.Outcome State Fault Refusal :=
  .next (
    if s.up && (s.port p).state == 3 && 1 ≤ failed && failed ≤ 3 && 3 ≤ (s.port p).failed + failed then
      dropPort p 4 (s.modPort p (fun t => { t with retrains := ctrAdd t.retrains (failed - 1) }))
    else s)

-- ## Flits

/-- Drops acknowledged flits from the retry buffer (R148). -/
def takeAck (p ack : Nat) (s : State) : State :=
  s.modPort p (fun t =>
    match t.retry.findIdx? (fun e => field e.2 0 2 % 4096 == ack) with
    | some i => { t with retry := t.retry.drop (i + 1), acked := some (BitVec.ofNat 12 ack) }
    | none => t)

/-- Header fields that survive a hop. -/
def hopHdr (h : Nat) : Nat := hdrVc h * 2 ^ 27 + hdrDl h * 2 ^ 29 + h / 2 ^ 39 * 2 ^ 39

/-- The message in its bytes (Table 7.5) and the header of its first flit. -/
def msgOf (h : Nat) (b : Block) : Msg :=
  { type := bitsOf h 70 67, vc := hdrVc h, src := bitsOf h 66 53, dest := bitsOf h 52 39, len := field b 0 3
    gen := field b 3 1, addr := field b 4 4, float := field b 8 2, floatInc := field b 0xA 2, group := field b 0xC 2
    data := (b.drop 16).take (field b 0 3), mcast := if bitOf h 89 then some (bitsOf h 88 81) else none }

/-- A message flit that is for this device, or is multicast: it joins its message; the last completes it. -/
def gather (p h : Nat) (pay : List Byte) (s : State) : State :=
  let v := hdrVc h
  let key := hdrKey h
  let t := s.port p
  let body := (if bitOf h 71 then [] else tget t.partialRx v []) ++ pay
  let first := if bitOf h 71 then leBytes 12 h else tget t.partialHdr v (leBytes 12 h)
  let multi := bitOf h 89
  let s := if multi then s else owe p key 1 s
  if bitOf h 72 then
    let m := msgOf (leNat first) body
    let s := s.modPort p (fun t => { t with partialRx := tdel t.partialRx v, partialHdr := tdel t.partialHdr v })
    if multi then s.modLat (fun l => { l with mcastQ := l.mcastQ ++ [{ msg := m, src := some p, inKey := key }] })
    else deliverMsg m s
  else s.modPort p (fun t => { t with partialRx := tset t.partialRx v body, partialHdr := tset t.partialHdr v first })

/-- A message flit for another device (R144). -/
def forward (p h : Nat) (pay : List Byte) (s : State) : State :=
  match route s (bitsOf h 52 39) with
  | none => owe p (hdrKey h) 1 (s.modLat (fun l => { l with unroutable := ctrAdd l.unroutable 1 }))
  | some (q, w) =>
    let f : OutFlit := { src := p, inKey := hdrKey h, hdr := setDl (hopHdr h) (classOut p q (hdrDl h) w), payload := pay }
    if portUsable s q then putFlits q [f] s else owe p (hdrKey h) 1 (putFlits q [f] s)

/-- A message flit of an input, where nothing holds its channel back. -/
def takeFlit (p h : Nat) (pay : List Byte) (s : State) : State :=
  if bitOf h 89 || bitsOf h 52 39 == selfDev s then gather p h pay s else forward p h pay s

/-- Flits of an input that no multicast message of their channel holds back any more go on, in order (R164). -/
def drainRx : Nat → Nat → State → State
  | 0, _, s => s
  | n + 1, p, s =>
    let fs := (s.port p).behind
    match fs.findIdx? (fun e => !castWaits s (some p) (hdrVc e.1)) with
    | none => s
    | some i =>
      match fs[i]? with
      | none => s
      | some (h, pay) => drainRx n p (takeFlit p h pay (s.modPort p (fun t => { t with behind := t.behind.eraseIdx i })))

/-- A flit in order (R148, R150). -/
def acceptFlit (p h : Nat) (payload : List Byte) (s : State) : State :=
  let key := 2 * bitsOf h 31 30 + bitsOf h 32 32
  let s := s.modPort p (fun t =>
    { t with rxSeq := t.rxSeq + 1, lastRx := some t.rxSeq, ackDue := true
             credits := if bitsOf h 38 33 == 0 then t.credits else tupd t.credits key 0 (· + bitsOf h 38 33) })
  if bitOf h 26 then s
  else
    let pay := payload.take (min 240 (bitsOf h 80 73))
    if castWaits s (some p) (hdrVc h) then s.modPort p (fun t => { t with behind := t.behind ++ [(h, pay)] })
    else takeFlit p h pay s

/-- FLIT_RECEIVE (R147, R148). -/
def execFlitReceive (p : Nat) (flit : Block) (s : State) : Host.Outcome State Fault Refusal :=
  .next (
    let t := s.port p
    if !s.up || t.state != 2 || flit.length != 256 then s
    else if field flit 252 4 != crc32c (flit.take 252) then
      sendIdle p true (s.modPort p (fun t => { t with crcErrors := ctrAdd t.crcErrors 1 }))
    else
      let h := leNat (flit.take 12)
      let loose := bitOf h 26 && bitsOf h 38 33 == 0
      if !loose && h % 4096 != t.rxSeq.toNat then sendIdle p true s
      else
        let s := if bitOf h 24 then takeAck p (bitsOf h 23 12) s else s
        let s := if loose then s else acceptFlit p h ((flit.drop 12).take 240) s
        let s := if bitOf h 25 && mayReplay (s.port p) then replay p s else s
        latSettle s)

-- ## Multicast (R163, R164)

/-- Fields of a multicast entry (Table 7.11). -/
def mcastPorts (e : W64) : List Nat := (List.range 4).filter (fun p => e.getLsbD p)

/-- Flits of a message. -/
def flitCount (m : Msg) : Nat := 1 + cdiv (m.data.length - 224) 240

/-- Credits of a class on a port that no waiting flit needs. -/
def freeCredits (s : State) (p key : Nat) : Nat :=
  let t := s.port p
  tget t.credits key 0 - (t.outq.filter (fun f => hdrKey f.hdr == key)).length

/-- Buffer class of a replica on a port. -/
def replicaDl (s : State) (h : McastHead) (p : Nat) : Nat :=
  classOut (h.src.getD 4) p (h.inKey % 2) (wrapPort s p)

/-- Sequence numbers that a multicast message stands for. -/
def mseqs (m : Msg) : Nat × Nat := (field m.data 0 4, field m.data 4 4)

/-- Gaps owed to a port. -/
def gapsFor (s : State) (p : Nat) : List Gap := s.lat.gaps.filter (fun g => g.port == p)

/-- Drops a replica: its gap is owed to the port. It merges with the last one owed there, where that is a gap of the same
source, group and channel: numbers run per source and group, and the GAP goes on the channel of what it replaces. -/
def shed (m : Msg) (p dl : Nat) (s : State) : State :=
  let (a, b) := mseqs m
  let mine := gapsFor s p
  let others := s.lat.gaps.filter (fun g => g.port != p)
  let gaps := match mine.getLast? with
    | some g =>
      if g.msg.mcast == m.mcast && g.msg.src == m.src && g.msg.vc == m.vc then mine.dropLast ++ [{ g with last := b }]
      else mine ++ [{ port := p, first := a, last := b, msg := { m with data := [] }, dl := dl }]
    | none => [{ port := p, first := a, last := b, msg := { m with data := [] }, dl := dl }]
  s.modLat (fun l => { l with shed := ctrAdd l.shed 1, gaps := others ++ gaps })

/-- The GAP message of a run. -/
def Gap.message (g : Gap) : Msg :=
  { g.msg with type := 3, data := leBytes 4 g.first ++ leBytes 4 g.last ++ leBytes 1 1 ++ leBytes 7 0 }

/-- Queues a gap on its port. -/
def sendGap (g : Gap) (s : State) : State :=
  putFlits g.port (flitsOf g.message 5 0 g.dl) (s.modLat (fun l => { l with gaps := l.gaps.erase g }))

/-- One replica: sent where the port has credits for the whole message, with every gap owed to the port before it; not sent
where it lacks them. A port that no message can cross counts in SHED_DROPS and has no gap (Table 7.12). -/
def replicate (h : McastHead) (p : Nat) (s : State) : Bool × State :=
  let dl := replicaDl s h p
  let key := 2 * h.msg.vc + dl
  let need := flitCount h.msg + ((gapsFor s p).filter (fun g => 2 * g.msg.vc + g.dl == key)).length
  if !portUsable s p then (true, s.modLat (fun l => { l with shed := ctrAdd l.shed 1 }))
  else if need ≤ freeCredits s p key then
    (true, putFlits p (flitsOf h.msg 5 0 dl) ((gapsFor s p).foldl (fun s g => sendGap g s) s))
  else (false, s)

/-- Local delivery, at LOCAL_BASE + ADDR with LOCAL_FLOAT. -/
def deliverLocal (e : W64) (m : Msg) (s : State) : State :=
  deliverMsg { m with addr := (e.toNat / 2 ^ 32 + m.addr) % 2 ^ 32, float := e.toNat / 2 ^ 16 % 2 ^ 14, mcast := none } s

/-- A multicast message leaves its place: the buffers it held are free, and what waited behind it goes on. -/
def dropHead (i : Nat) (h : McastHead) (s : State) : State :=
  let s := s.modLat (fun l => { l with mcastQ := l.mcastQ.take i ++ l.mcastQ.drop (i + 1) })
  match h.src with
  | some p =>
    let s := owe p h.inKey (flitCount h.msg) s
    drainRx (s.port p).behind.length p s
  | none => drainOwn s.lat.ownQ.length s

/-- Serves the message at place i: replicas, and under SHED the drops. Under HOLD the replicas whose port has the credits
leave at once, and the message stays for the others: R164 says only that it stays at the head until every replica has its
credits, and not when the others leave. DESIGN CHOICE (assumption 718). -/
def serveHead (i : Nat) (h : McastHead) (s : State) : State :=
  let e := tget s.lat.mcast (h.msg.mcast.getD 0) 0
  if h.ports.isNone && !e.getLsbD 6 then dropHead i h (stale s)
  else
    let s := if h.ports.isNone && e.getLsbD 4 then deliverLocal e h.msg s else s
    let ps := match h.ports with | some ps => ps | none => mcastPorts e
    let hold := h.ports.isSome || e.getLsbD 5
    let (left, s) := ps.foldl (fun (acc : List Nat × State) p =>
      match replicate h p acc.2 with
      | (true, s) => (acc.1, s)
      | (false, s) => if hold then (acc.1 ++ [p], s) else (acc.1, shed h.msg p (replicaDl s h p) s)) ([], s)
    if left.isEmpty then dropHead i h s
    else s.modLat (fun l => { l with mcastQ := l.mcastQ.set i { h with ports := some left } })

/-- The place of a message that is first on its input and channel. -/
def headAt (s : State) (p : McastHead → Bool) : Option (Nat × McastHead) :=
  let q := s.lat.mcastQ
  ((List.range q.length).filterMap (fun i => (q[i]?).map (fun h => (i, h)))).find? (fun e =>
    p e.2 && (q.take e.1).all (fun k => !(k.src == e.2.src && k.msg.vc == e.2.msg.vc)))

/-- A held message can go on where some port has its credits or is gone. -/
def canServe (s : State) (h : McastHead) : Bool :=
  match h.ports with
  | none => true
  | some ps => ps.any (fun p => (replicate h p s).1)

/-- Gaps whose port has a credit go out; those of a port that no message can cross are dropped. -/
def sendGaps (s : State) : State :=
  s.lat.gaps.foldl (fun s g =>
    if !portUsable s g.port then s.modLat (fun l => { l with gaps := l.gaps.erase g })
    else if 1 ≤ freeCredits s g.port (2 * g.msg.vc + g.dl) then sendGap g s
    else s) s

/-- MCAST_REPLICATE (R163, R164). -/
def execMcastReplicate (s : State) : Host.Outcome State Fault Refusal :=
  .next (
    if !s.serving then s
    else
      match headAt s (canServe s) with
      | some (i, h) => latSettle (serveHead i h s)
      | none => latSettle (sendGaps s))

/-- HOLD_EXPIRY: the ports still short of credits are handled under SHED (R164). -/
def execHoldExpiry (s : State) : Host.Outcome State Fault Refusal :=
  .next (
    if !s.serving then s
    else
      match headAt s (fun h => h.ports.isSome) with
      | none => s
      | some (i, h) =>
        let s := (h.ports.getD []).foldl (fun s p =>
          match replicate h p s with
          | (true, s) => s
          | (false, s) => shed h.msg p (replicaDl s h p) s) s
        latSettle (dropHead i h (s.modLat (fun l => { l with holdExpiries := ctrAdd l.holdExpiries 1 }))))

end Sys2Proof.Machine
end

