-- ==== Sys2Proof/Machine/HostMem.lean ====
section
/-!
DEFINITION. Wells and the host's accesses to them: the patrol (R303), the HDM decoder and its ranges (R316, R317, R356),
CXL.mem accesses (R302, R318), the debug aperture (R361), a refused CXL.cache write (R355).
-/

namespace Sys2Proof.Machine

-- ## Patrol

/-- Granules of a well. -/
abbrev wellGranules : Nat := 2 ^ 29

/-- PATROL_SCRUB: the patrol of an in-service well reads its next granule (R301, R303). -/
def execPatrolScrub (well granule : Nat) (s : State) : Host.Outcome State Fault Refusal :=
  .next (
    if !s.up || !s.dieIn well || (s.well well).state != 1 || granule != (s.well well).patrol then s
    else
      let w := well * wellGranules + granule
      let s := touchWell well (if 3 ≤ (s.dom (32 + well)).state then beginWake (32 + well) 2 s else s)
      let s := if withdrawnAt s (w * 64) then s else meetWellGranule w s
      s.modWell well (fun x =>
        if granule + 1 == wellGranules then { x with patrol := 0, patrolPasses := ctrAdd x.patrolPasses 1 }
        else { x with patrol := granule + 1 }))

-- ## The HDM decoder

/-- 256 MiB. -/
abbrev hdmUnit : Nat := 2 ^ 28

def hdmBase (v : W64) : Nat := bitsOf v.toNat 26 20
def hdmSize (v : W64) : Nat := bitsOf v.toNat 35 28

def hdmReg (s : State) (i : Nat) : W64 := tget s.hdm.ranges i 0

/-- Whether two enabled ranges share a unit. -/
def hdmMeet (v w : W64) : Bool :=
  hdmWell v == hdmWell w && hdmBase v < hdmBase w + hdmSize w && hdmBase w < hdmBase v + hdmSize v &&
  hdmSize v != 0 && hdmSize w != 0

/-- A range that the latch refuses with 0x11, `taken` bytes being accepted so far (R316). -/
def hdmRefused (s : State) (i : Nat) (v : W64) (taken : Nat) : Bool :=
  hdmSize v == 0 || 128 < hdmBase v + hdmSize v || (hdmBase v ≤ 127 && 127 < hdmBase v + hdmSize v) ||
  (List.range 8).any (fun j => j != i && hdmEnabled (hdmReg s j) && hdmMeet v (hdmReg s j)) ||
  64 * 2 ^ 30 < taken + hdmSize v * hdmUnit

/-- STATUS of a range replaced. -/
def withStatus (v : W64) (st : Nat) : W64 := BitVec.ofNat 64 (v.toNat - bitsOf v.toNat 15 8 * 2 ^ 8 + st * 2 ^ 8)

/-- Latches one enabled range: its new register value, and its window entry where it is accepted (R316). -/
def latchRange (s : State) (i : Nat) (v : W64) (win : List (Nat × Nat × Nat)) : W64 × List (Nat × Nat × Nat) :=
  if hdmRefused s i v (win.foldl (fun n e => n + e.2.2) 0) then (withStatus v 0x11, win)
  else
    let e := (i, hdmWell v * 2 ^ 35 + hdmBase v * hdmUnit, hdmSize v * hdmUnit)
    if s.dieIn (hdmWell v) then (withStatus v 0, win ++ [e]) else (withStatus v 0x61 ||| 2, win ++ [e])

/-- The latch: enabled ranges in index order. -/
def latchRanges (s : State) : Table W64 × List (Nat × Nat × Nat) :=
  (List.range 8).foldl (fun (acc : Table W64 × List (Nat × Nat × Nat)) i =>
    let v := hdmReg s i
    if hdmEnabled v then
      let (w, win) := latchRange s i v acc.2
      (tset acc.1 i w, win)
    else acc) (s.hdm.ranges, [])

/-- HDM_COMMIT of DEC_BASE and DEC_SIZE; `lock` is the decoder's lock-on-commit (R316, R356). -/
def execHdmCommit (base size : Nat) (lock : Bool) (s : State) : Host.Outcome State Fault Refusal :=
  .next (
    if !s.up || (s.hdm.committed && s.hdm.locked) then s
    else if base % hdmUnit != 0 || size % hdmUnit != 0 || 64 * 2 ^ 30 < size then
      { s with hdm := { s.hdm with errorNotCommitted := true } }
    else
      let (ranges, win) := latchRanges s
      { s with hdm := { s.hdm with ranges := ranges, window := win, committed := true, decBase := base, decSize := size
                                   errorNotCommitted := false, locked := lock } })

/-- A write of PARK takes effect at once; a range that is unparked holds its die uncore at still (R317, R328). -/
def parkRange (i : Nat) (park : Bool) (s : State) : State :=
  let v := hdmReg s i
  let v := if park then v ||| 2 else v &&& ~~~2
  let s := { s with hdm := { s.hdm with ranges := tset s.hdm.ranges i v } }
  honourFloor (32 + hdmWell v) s

/-- HDM_PARK (R317). -/
def execHdmPark (i : Nat) (park : Bool) (s : State) : Host.Outcome State Fault Refusal :=
  .next (if s.up && i < 8 then parkRange i park s else s)

-- ## CXL.mem

/-- The range of the latched window that holds offset o, and the package address there. -/
def windowAt : List (Nat × Nat × Nat) → Nat → Option (Nat × Nat)
  | [], _ => none
  | (i, a, n) :: ws, o => if o < n then some (i, a + o) else windowAt ws (o - n)

/-- Package address behind a window offset; none where the range is parked, on a die out of service, or not there (R317,
R356). -/
def hdmTarget (s : State) (o : Nat) : Option Nat :=
  match windowAt s.hdm.window o with
  | some (i, a) => if hdmParked (hdmReg s i) || !s.dieIn (wellOf a) then none else some a
  | none => none

/-- The decoder claims a host physical address (R356). -/
def hdmHit (s : State) (hpa : Nat) : Bool :=
  s.hdm.committed && s.hdm.decBase ≤ hpa && hpa < s.hdm.decBase + s.hdm.decSize

/-- Pieces of a range that lie in one 64-byte line each: offset and length. -/
def linePieces (a n : Nat) : List (Nat × Nat) :=
  (unitsOf 64 a n).map (fun w => (max a (64 * w), min (a + n) (64 * w + 64) - max a (64 * w)))

/-- An access that the part makes on the host's behalf wakes the die uncore it needs (R323, R327). -/
def wakeWell (d : Nat) (s : State) : State := if s.up then touchWell d (beginWake (32 + d) 2 s) else s

/-- One line of a host read of the window. -/
def hostLineRead (hpa n : Nat) (s : State) : State :=
  if s.dev.mode == .fatal then emit (.memData (List.replicate n 0xFF) true) s
  else
    match hdmTarget s (hpa - s.hdm.decBase) with
    | none => emit (.memData (List.replicate n 0xFF) true) s
    | some a =>
      match readAt (.well a) n (wakeWell (wellOf a) s) with
      | (.bytes b, s) => emit (.memData b false) s
      | (_, s) => emit (.memData (wellRead s a n) true) s

/-- HOST_MEM_READ: a CXL.mem read of host physical addresses of the window (R302, R317, R348, R386). -/
def execHostMemRead (addr len : Nat) (s : State) : Host.Outcome State Fault Refusal :=
  .next (
    if s.up || s.dev.mode == .fatal then
      (linePieces addr len).foldl (fun s p => if hdmHit s p.1 then hostLineRead p.1 p.2 s else s) s
    else s)

/-- One line of a host write of the window (R305, R310, R317, R318). -/
def hostLineWrite (hpa : Nat) (bs : List Byte) (s : State) : State :=
  if s.dev.mode == .fatal then emit .memAck s
  else
    match hdmTarget s (hpa - s.hdm.decBase) with
    | none => emit .memAck { s with hdm := { s.hdm with parkedWrites := ctrAdd s.hdm.parkedWrites 1 } }
    | some a => emit .memAck (wellWrite a bs (wakeWell (wellOf a) s))

/-- HOST_MEM_WRITE: a CXL.mem write, acknowledged once it is visible (R318). -/
def execHostMemWrite (addr : Nat) (data : List Byte) (s : State) : Host.Outcome State Fault Refusal :=
  .next (
    if s.up || s.dev.mode == .fatal then
      (linePieces addr data.length).foldl (fun s p =>
        if hdmHit s p.1 then hostLineWrite p.1 ((data.drop (p.1 - addr)).take p.2) s else s) s
    else s)

-- ## The debug aperture

/-- What a BAR4 offset maps to (R361); none beyond the package. -/
def debugTarget (s : State) (o : Nat) : Option Addr :=
  if o < 2 ^ 31 then some (.cis o)
  else if o < 2 ^ 32 then some (.well (s.dev.dbgBase.toNat * 2 ^ 31 + (o - 2 ^ 31)))
  else none

def ones (n : Nat) : List Byte := List.replicate n 0xFF

/-- The die that an aperture access reaches. -/
def debugDie : Addr → Nat
  | .well a => wellOf a
  | .cis a => dieOfCore (csCore a)
  | .host _ => 0

/-- Wakes what an aperture access needs: the die uncore, and the cluster of a cistern (R327). -/
def wakeDebug (ad : Addr) (s : State) : State :=
  if !s.up then s else
  match ad with
  | .well a => wakeWell (wellOf a) s
  | .cis a => beginWake (clusterOfCore (csCore a)) 2 (beginWake (uncoreOf (clusterOfCore (csCore a))) 2 s)
  | .host _ => s

/-- One piece of an aperture read: all ones from poison, outside every region, and from a die out of service. -/
def debugPiece (o n : Nat) (acc : List Byte × State) : List Byte × State :=
  let (out, s) := acc
  match debugTarget s o with
  | none => (out ++ ones n, s)
  | some ad =>
    if !s.dieIn (debugDie ad) then (out ++ ones n, s)
    else
      match readAt ad n (wakeDebug ad s) with
      | (.bytes b, s) => (out ++ b, s)
      | (_, s) => (out ++ ones n, s)

/-- DEBUG_READ (R361). The aperture lives with the dies: it answers all ones where they are not served. -/
def execDebugRead (off len : Nat) (s : State) : Host.Outcome State Fault Refusal :=
  .next (
    if s.up || s.dev.mode == .fatal then
      let (out, s) := (linePieces off len).foldl (fun acc p => debugPiece p.1 p.2 acc) ([], s)
      emit (.busData out) s
    else if s.dev.mode == .halted then emit (.busData (ones len)) s
    else s)

/-- One piece of an aperture write: posted, with no float; a write into the page-map region is discarded (R119). -/
def debugPut (o : Nat) (bs : List Byte) (s : State) : State :=
  match debugTarget s o with
  | none => s
  | some ad =>
    if !s.dieIn (debugDie ad) then s
    else
      match ad with
      | .well a => if inMapRegion a then s else (writeAt ad bs (wakeDebug ad s)).2
      | _ => (writeAt ad bs (wakeDebug ad s)).2

/-- DEBUG_WRITE (R361). -/
def execDebugWrite (off : Nat) (data : List Byte) (s : State) : Host.Outcome State Fault Refusal :=
  .next (
    if s.up || s.dev.mode == .fatal then
      (linePieces off data.length).foldl (fun s p => debugPut p.1 ((data.drop (p.1 - off)).take p.2) s) s
    else s)

-- ## A refused CXL.cache write

/-- HOST_WRITE_FAIL: the host refuses a write; a refused completion write puts its queue into ERROR, and the records of
commands that were already fetched are discarded (R355). -/
def execHostWriteFail (kind : WriteKind) (q : Nat) (s : State) : Host.Outcome State Fault Refusal :=
  .next (
    if !s.up then s
    else
      let s := raise evHostWrite s
      match kind, s.queue? q with
      | .completion, some x => if x.opened then (queueError q s).modQueue q (fun x => { x with discards := true }) else s
      | _, _ => s)

end Sys2Proof.Machine
end

