-- ==== Sys2Proof/Machine/Registers.lean ====
section
/-!
DEFINITION. The register windows of BAR2 (R358 to R360): what every register reads (Tables 2.4, 7.11, 10.10, 11.10, 12.2,
12.7, 14.6, 15.10, 16.6), which accesses break R8, and what a write does by its access codes (R9).
-/

namespace Sys2Proof.Machine

-- ## Layout

/-- Index of a register in an array of registers. -/
def inArray (o base stride count : Nat) : Option Nat :=
  if base ≤ o && o < base + stride * count && (o - base) % stride == 0 then some ((o - base) / stride) else none

/-- The first of some arrays that holds an offset. -/
def firstReg : List (Option (Nat × Nat)) → Option (Nat × Nat)
  | [] => none
  | some r :: _ => some r
  | none :: rs => firstReg rs

/-- Window of a BAR2 offset, and the offset within it (Table 16.4). -/
def windowOf (off : Nat) : Option (Nat × Nat) :=
  if off < 0x60000 then some (off / 0x10000, off % 0x10000)
  else if 0x100000 ≤ off && off < 0x200000 then some (6, off - 0x100000)
  else if 0x200000 ≤ off && off < 0x400000 then some (7, off - 0x200000)
  else if 0x400000 ≤ off && off < 0x800000 then some (8, off - 0x400000)
  else if 0x800000 ≤ off && off < 0x1000000 then some (9, off - 0x800000)
  else none

-- A register reads as (width in bytes, value).

/-- DEV_ID (Table 16.6). -/
def devIdValue (s : State) : Nat :=
  0x960 + b2n s.dev.fuses.orderingA1 * 2 ^ 16 + s.dev.fuses.stepping.toNat * 2 ^ 17

def strapsValue (d : Device) : Nat := b2n d.compatOrd + 2 * b2n d.head + 4 * d.bootSrc.toNat

def chainStatus (d : Device) : Nat :=
  d.number.toNat + b2n d.numValid * 2 ^ 14 + d.index.toNat * 2 ^ 15 + b2n (d.head && d.base.isSome) * 2 ^ 23 +
  b2n d.conflict * 2 ^ 24

/-- Device window (Table 16.6). -/
def devReg (s : State) (o : Nat) : Option (Nat × Nat) :=
  let d := s.dev
  if o == 0x000 then some (4, devIdValue s)
  else if o == 0x004 then some (4, strapsValue d)
  else if o == 0x010 then some (4, d.events.toNat)
  else if o == 0x014 then some (4, d.eventEn.toNat)
  else if o == 0x018 then some (4, d.alertEn.toNat)
  else if o == 0x020 then some (4, d.winErr.toNat)
  else if o == 0x028 then some (4, d.fatalCause.toNat)
  else if o == 0x030 then some (4, chainStatus d)
  else if o == 0x034 then some (4, d.smbAddr.toNat)
  else if o == 0x040 then some (8, d.chainCrc.toNat)
  else if o == 0x048 then some (8, d.chainForeign.toNat)
  else if o == 0x050 then some (4, 0)
  else if o == 0x058 then some (8, d.dbgBase.toNat * 2 ^ 31)
  else (inArray o 0x100 8 10).map (fun w => (8, (tget d.locked w 0).toNat))

/-- Sum of 32 bits. -/
def bits32 (f : Nat → Bool) : Nat := (List.range 32).foldl (fun n b => n + b2n (f b) * 2 ^ b) 0

def queueIsOpen (s : State) (q : Nat) : Bool :=
  if q == 0 then s.cmdw.aqEnable else (match s.queue? q with | some x => x.opened | none => false)

def queueInError (s : State) (q : Nat) : Bool :=
  match s.queue? q with
  | some x => x.opened && x.error
  | none => false

/-- Command window (Table 11.10). -/
def cmdReg (s : State) (o : Nat) : Option (Nat × Nat) :=
  let w := s.cmdw
  if o == 0x000 then some (4, b2n s.dev.compatOrd)
  else if o == 0x004 then some (4, w.pollUs.toNat)
  else if o == 0x008 then some (4, s.inflight.length)
  else if o == 0x010 then some (4, b2n w.aqEnable + 2 * b2n (queueInError s 0))
  else if o == 0x014 then some (4, w.aqCfg.toNat)
  else if o == 0x018 then some (4, w.aqNotify.toNat)
  else if o == 0x020 then some (8, w.aqSqBase.toNat)
  else if o == 0x028 then some (8, w.aqCqBase.toNat)
  else if o == 0x030 then some (8, w.aqLineBase.toNat)
  else firstReg
    [ (inArray o 0x100 4 32).map (fun i => (4, bits32 (fun b => queueIsOpen s (32 * i + b))))
    , (inArray o 0x180 4 32).map (fun i => (4, bits32 (fun b => queueInError s (32 * i + b)))) ]

def latGlobal (l : Lateral) (m : Nat) : Ctr :=
  [l.unroutable, l.stale, l.badType, l.inboundDiscards, l.shed, l.holdExpiries].getD m 0

/-- Lateral window (Table 7.11). -/
def latReg (s : State) (o : Nat) : Option (Nat × Nat) :=
  let l := s.lat
  if o == 0x000 then some (4, l.topo.toNat)
  else if o == 0x004 then some (4, s.dev.number.toNat + b2n s.dev.numValid * 2 ^ 14)
  else if o == 0x008 then some (4, l.portEn.toNat)
  else if o == 0x1F8 then some (4, 0)
  else firstReg
    [ (inArray o 0x040 0x20 4).map (fun n => (4, (s.port n).state + b2n (s.port n).far.isSome * 8 + (s.port n).far.getD 0 * 16))
    , (inArray o 0x048 0x20 4).map (fun n => (8, (s.port n).crcErrors.toNat))
    , (inArray o 0x050 0x20 4).map (fun n => (8, (s.port n).replays.toNat))
    , (inArray o 0x058 0x20 4).map (fun n => (8, (s.port n).retrains.toNat))
    , (inArray o 0x100 8 6).map (fun m => (8, (latGlobal l m).toNat))
    , (inArray o 0x400 8 256).map (fun g => (8, (tget l.mcast g 0).toNat)) ]

def provCount (p : Prov) (m : Nat) : Ctr :=
  [p.signedCount, p.unsignedCount, p.segments, p.withheld, p.logRecords].getD m 0

/-- Security window (Table 10.10). -/
def secReg (s : State) (o : Nat) : Option (Nat × Nat) :=
  let p := s.prov
  if o == 0x000 then some (4, p.signer + p.held.length * 4 + b2n (withholding s) * 2 ^ 9 + b2n p.nextTree * 2 ^ 10)
  else if o == 0x008 then some (8, p.nextIndex % 2 ^ 40)
  else if o == 0x010 then some (8, p.reservedEnd % 2 ^ 41)
  else (inArray o 0x040 8 5).map (fun m => (8, (provCount p m).toNat))

/-- DOMAINn (Table 15.10). -/
def domReg (s : State) (n : Nat) : Nat :=
  (s.dom n).state + floorOf s n * 8 + hintFloor s n * 2 ^ 6 + b2n (loopClamp s n) * 2 ^ 9 + b2n (spoutClamp s n) * 2 ^ 10 +
  b2n (hdmClamp s n) * 2 ^ 11 + b2n (pinClamp s n) * 2 ^ 12 + (if 32 ≤ n && n < 40 then wellState s (n - 32) else 0) * 2 ^ 13

/-- Charges that are held for a loop, a spout or FLOOR 0 (R336). -/
def heldFor (s : State) (h : ChargeReq) : Bool :=
  match h.what with
  | .loop _ _ => true
  | .spout _ => true
  | .standing n _ => loopClamp s n || spoutClamp s n || (n < 40 && hintFloor s n == 0)
  | _ => false

/-- WEIR_RAILr (Table 15.10). -/
def railReg (s : State) (r : Nat) : Nat :=
  let t := s.rail r
  granted t % 2 ^ 12 + ((t.holds.filter (heldFor s)).foldl (fun n h => n + h.units) 0) % 2 ^ 12 * 2 ^ 12 +
  railLimit r * 2 ^ 24 + t.peak % 2 ^ 12 * 2 ^ 36 + min 255 t.queue.length * 2 ^ 48

/-- DIE_PERFd (Table 15.10). -/
def diePerfReg (s : State) (d : Nat) : Nat :=
  let p := s.diePerf d
  p.point + p.ceil.toNat * 4 + b2n (p.overCur || p.hot) * 16 + p.tj.toNat * 2 ^ 8 + vp0Of s d * 2 ^ 16

/-- Power window (Table 15.10). -/
def pwrReg (s : State) (o : Nat) : Option (Nat × Nat) :=
  let p := s.pwr
  if o == 0x000 then some (4, b2n p.calDone + p.calFail.toNat * 2 + b2n p.slowSrc * 2 ^ 9 + p.throttled.toNat * 2 ^ 10 +
    b2n p.tdpLimited * 2 ^ 18)
  else if o == 0x008 then some (4, p.peakW.toNat + p.tdpW.toNat * 2 ^ 12 + b2n p.peakLock * 2 ^ 31)
  else if o == 0x010 then some (8, p.idleLowUs.toNat + p.idleDrainUs.toNat * 2 ^ 16 + p.idleDryMs.toNat * 2 ^ 32)
  else if o == 0x280 then some (4, 0)
  else if o == 0x288 then some (8, p.overCount.toNat)
  else firstReg
    [ (inArray o 0x100 4 47).map (fun n => (4, domReg s n))
    , (inArray o 0x200 8 9).map (fun r => (8, railReg s r))
    , (inArray o 0x300 4 8).map (fun d => (4, diePerfReg s d))
    , (inArray o 0x400 4 64).bind (fun k =>
        if k % 8 < 7 then some (4, calEntry s (k / 8) (2 * (k % 8)) + calEntry s (k / 8) (2 * (k % 8) + 1) * 2 ^ 16) else none) ]

def wellCount (w : Well) (m : Nat) : Ctr :=
  [w.ce, w.ue, w.retired, w.withdrawnCount, w.withdrawnWrites, w.patrolPasses].getD m 0

def logEntry (w : Well) (i : Nat) : Nat :=
  match w.log[i]? with
  | some (page, ue, wd) => page + 2 ^ 22 + b2n ue * 2 ^ 23 + b2n wd * 2 ^ 24
  | none => 0

/-- Well window (Table 14.6). -/
def wellReg (s : State) (o : Nat) : Option (Nat × Nat) :=
  if o < 0x800 then
    let w := s.well (o / 0x100)
    let k := o % 0x100
    if k == 0 then some (4, w.state + w.spares * 4)
    else if k == 4 then some (4, w.ceRetire.toNat)
    else firstReg
      [ (inArray k 0x08 8 6).map (fun m => (8, (wellCount w m).toNat))
      , (inArray k 0x80 8 16).map (fun i => (8, logEntry w i)) ]
  else if o == 0x1040 then some (8, s.hdm.parkedWrites.toNat)
  else (inArray o 0x1000 8 8).map (fun i => (8, (hdmReg s i).toNat))

/-- CORE_STATE (Table 2.4). -/
def coreState (s : State) (g : Nat) : Nat :=
  let c := s.core g
  let plan := match runningOn s g with | some d => !isPump d.opcode | none => false
  (s.dom (clusterOfCore g)).state + b2n (s.dev.lost.getLsbD (dieOfCore g)) * 8 + b2n plan * 16 + c.runSlot % 4 * 32 +
  (List.range 4).foldl (fun n k => n + b2n (slotValid c k) * 2 ^ (8 + k)) 0 + c.wideHolder % 4 * 2 ^ 12

/-- One core's block of the core window (Tables 2.4, 2.8). -/
def coreReg (s : State) (o : Nat) : Option (Nat × Nat) :=
  let g := o / 0x1000
  let k := o % 0x1000
  let c := s.core g
  if k == 0x000 then some (4, g + g / 32 * 2 ^ 8 + g / 8 % 4 * 2 ^ 11 + g % 8 * 2 ^ 13 + 64 * 2 ^ 16)
  else if k == 0x008 then some (4, coreState s g)
  else if k == 0x010 then some (4, c.err.toNat)
  else if k == 0x018 then some (4, c.cisCe.toNat + c.accCe.toNat * 2 ^ 16)
  else if k == 0x020 then some (4, c.waitLimit.toNat)
  else if k == 0x024 then some (4, c.retryMax.toNat)
  else if k == 0x2F8 then some (4, 0)
  else firstReg
    [ (inArray k 0x040 8 8).map (fun i => (8, regionField (c.regions.getD i {})))
    , (inArray k 0x100 4 64).map (fun n => (4, (floatGet s g n).toNat))
    , (inArray k 0x200 8 10).map (fun m => (8, (tget s.perf (16 * g + m) 0).toNat)) ]

/-- Scheduler window (Tables 12.2 and 12.7). -/
def schedReg (s : State) (o : Nat) : Option (Nat × Nat) :=
  let d := s.sched
  if o == 0x000 then some (4, d.rtLimit.toNat)
  else if o == 0x004 then some (4, d.quantum.toNat)
  else if o == 0x008 then some (4, d.preemptMax.toNat + d.graceUs.toNat * 16)
  else if o == 0x00C then some (4, 0)
  else if 0x100000 ≤ o then
    let x := tget s.clients ((o - 0x100000) / 16) {}
    let k := o % 16
    if k == 0 then some (4, x.submitted.toNat) else if k == 4 then some (4, x.completed.toNat)
    else if k == 8 then some (4, x.faulted.toNat) else if k == 12 then some (4, x.sat.toNat) else none
  else firstReg
    [ (inArray o 0x100 4 64).map (fun c => (4, (tget d.shares c 0x100).toNat))
    , (inArray o 0x200 8 64).map (fun c => (8, (tget d.ledger c 0).toNat))
    , (inArray o 0x400 8 64).map (fun c => (8, (tget d.vt c 0).toNat))
    , (inArray o 0x800 4 256).map (fun g => (4, rtLoadField s g)) ]

/-- Eight bytes of a 64-byte record. -/
def recordReg (b : Block) (k : Nat) : Option (Nat × Nat) := if k % 8 == 0 then some (8, field b k 8) else none

/-- KV-table window (Table 6.2). -/
def kvReg (s : State) (o : Nat) : Option (Nat × Nat) :=
  recordReg (match tget? s.seqs (o / 64) with | some x => padTo 64 ((seqBytes s (o / 64) x).take 48) | none => []) (o % 64)

/-- Stream-table window (Tables 5.3 and 5.4). -/
def streamReg (s : State) (o : Nat) : Option (Nat × Nat) :=
  if o < 0x400000 then
    recordReg (match tget? s.streams (o / 64) with
      | some x => if x.state == 0 then [] else streamBytes (o / 64) x
      | none => []) (o % 64)
  else
    let l := (o - 0x400000) / 64
    recordReg (match tget? s.loops l with | some x => loopBytes l x | none => []) (o % 64)

/-- The register at an offset of a window; none where no register begins there. -/
def regAt (s : State) (w o : Nat) : Option (Nat × Nat) :=
  match w with
  | 0 => devReg s o
  | 1 => cmdReg s o
  | 2 => latReg s o
  | 3 => secReg s o
  | 4 => pwrReg s o
  | 5 => wellReg s o
  | 6 => coreReg s o
  | 7 => schedReg s o
  | 8 => kvReg s o
  | 9 => streamReg s o
  | _ => none

-- ## Accesses

/-- Offset and width of the register that covers a byte. -/
def regCover (s : State) (w x : Nat) : Option (Nat × Nat) :=
  match regAt s w (x / 8 * 8) with
  | some (8, _) => some (x / 8 * 8, 8)
  | _ =>
    match regAt s w (x / 4 * 4) with
    | some (4, _) => some (x / 4 * 4, 4)
    | _ => none

/-- An access that touches a register and is not of its full width at its offset (R8). -/
def breaksR8 (s : State) (w o len : Nat) : Bool :=
  (List.range len).any (fun k => match regCover s w (o + k) with | some r => r != (o, len) | none => false)

/-- An event, but none in the boot-halted state (R381). -/
def raiseLive (e : Nat) (s : State) : State := if s.dev.mode == .halted then s else raise e s

/-- The window's access-error bit and its event (R8). -/
def accessError (w : Nat) (s : State) : State :=
  raiseLive evAccess (s.modDev (fun d => { d with winErr := d.winErr ||| BitVec.ofNat 10 (2 ^ w) }))

/-- A write that a closed lock ignores (R9). -/
def lockedWrite (w : Nat) (s : State) : State :=
  raiseLive evLocked (s.modDev (fun d => { d with locked := tupd d.locked w 0 (fun c => ctrAdd c 1) }))

/-- The part answers BAR2: it is out of reset (R360, R381). -/
def answers (s : State) : Bool := s.dev.mode != .off && s.dev.mode != .reset

/-- Windows 1 to 9 are dark after a fatal error and while boot is halted (R360, R381). -/
def dark (s : State) (w : Nat) : Bool := w != 0 && (s.dev.mode == .fatal || s.dev.mode == .halted)

/-- A register read: its value, or all ones where it breaks R8 (R8, R359, R360). -/
def busRead (off len : Nat) (s : State) : State :=
  match windowOf off with
  | none => emit (.busData (List.replicate len 0)) s
  | some (w, o) =>
    if dark s w then emit (.busData (ones len)) s
    else if breaksR8 s w o len then emit (.busData (ones len)) (accessError w s)
    else
      match regAt s w o with
      | some (n, v) => emit (.busData (if n == len then leBytes len v else List.replicate len 0)) s
      | none => emit (.busData (List.replicate len 0)) s

/-- ACCESS_ERR_READ: a register read (R8). -/
def execAccessErrRead (off len : Nat) (s : State) : Host.Outcome State Fault Refusal :=
  .next (if answers s && len != 0 then busRead off len s else s)

-- ## Fields with a behaviour of their own

/-- A port of a numbered device starts training: its domain wakes (R143, R149, R370). -/
def startTraining (p : Nat) (s : State) : State :=
  if s.dev.numValid && s.lat.portEn.getLsbD p && (s.port p).state == 0 then
    beginWake (42 + p) 2 (s.modPort p (fun t =>
      { state := 1, crcErrors := t.crcErrors, replays := t.replays, retrains := t.retrains }))
  else s

/-- A write of PORT_EN: a bit that is set starts training, a bit that is cleared takes the port DOWN (R166). -/
def setPortEn (mask : BitVec 4) (s : State) : State :=
  let old := s.lat.portEn
  let s := s.modLat (fun l => { l with portEn := mask })
  (List.range 4).foldl (fun s p =>
    if mask.getLsbD p && !old.getLsbD p then startTraining p s
    else if !mask.getLsbD p && old.getLsbD p then
      let s := if (s.port p).state == 0 then s else dropPort p 0 s
      setStanding (42 + p) 4 (dropCharges (isStanding (42 + p)) (s.modDom (42 + p) (fun d => { d with state := 4, waking := 0 })))
    else s) s

/-- PORT_EN (R166). -/
def execPortEn (mask : BitVec 4) (s : State) : Host.Outcome State Fault Refusal :=
  .next (if s.up then setPortEn mask s else s)

/-- PERF_CLEAR of core g, or LAT_PERF_CLEAR: every COUNT and OVF becomes 0 (R48, R166). -/
def clearCounters (core : Option Nat) (s : State) : State :=
  match core with
  | some g => { s with perf := s.perf.filter (fun e => e.1 / 16 != g) }
  | none =>
    s.modLat (fun l => { l with
      unroutable := 0, stale := 0, badType := 0, inboundDiscards := 0, shed := 0, holdExpiries := 0
      ports := tmap l.ports (fun _ (t : Port) => { t with crcErrors := 0, replays := 0, retrains := 0 }) })

/-- CLEAR_ALL (R48, R166). -/
def execClearAll (core : Option Nat) (s : State) : Host.Outcome State Fault Refusal :=
  .next (if s.up then clearCounters core s else s)

/-- Zeroes a client entry, or all (R267, R293). -/
def clearClients (tag : Nat) (all : Bool) (s : State) : State :=
  { s with clients := if all then [] else tdel s.clients tag }

/-- CLIENT_CLEAR (R293). -/
def execClientClear (tag : W16) (all : Bool) (s : State) : Host.Outcome State Fault Refusal :=
  .next (if s.up then clearClients tag.toNat all s else s)

/-- WEIR_CLEAR: every PEAK becomes its GRANTED (R351). -/
def clearPeaks (s : State) : State :=
  s.modPwr (fun p => { p with rails := tmap p.rails (fun _ (t : Rail) => { t with peak := granted t }) })

/-- CLEAR_PEAK (R351). -/
def execClearPeak (s : State) : Host.Outcome State Fault Refusal := .next (if s.up then clearPeaks s else s)

/-- MSIX_UNMASK: a pending message of the vector is sent (R364). -/
def execMsixUnmask (v : Nat) (s : State) : Host.Outcome State Fault Refusal :=
  .next (
    if !answers s || 1071 ≤ v || s.dev.unmasked.contains v then s
    else
      let sent := s.dev.pendingMsix.contains v
      let s := s.modDev (fun d => { d with unmasked := d.unmasked ++ [v], pendingMsix := d.pendingMsix.filter (· != v) })
      if sent then emit (.msix v) s else s)

-- ## Writes

/-- ALERT_EN: bit 13 reads 1 and ignores writes (Table 16.6). -/
def setAlertEn (v : Nat) (s : State) : State := s.modDev (fun d => { d with alertEn := BitVec.ofNat 14 v ||| 0x2000 })

/-- W1C to EVENT_STATUS (R9). -/
def clearEvents (v : Nat) (s : State) : State := s.modDev (fun d => { d with events := d.events &&& ~~~BitVec.ofNat 14 v })

/-- TDP_W, held within 300 to 1,500 (Table 15.10). -/
def setTdp (v : Nat) (s : State) : State := s.modPwr (fun p => { p with tdpW := BitVec.ofNat 12 (max 300 (min 1500 v)) })

/-- PEAK_W under PEAK_LOCK (Table 15.10). -/
def setPeak (v : Nat) (s : State) : State :=
  if s.pwr.peakLock then lockedWrite 4 s else s.modPwr (fun p => { p with peakW := BitVec.ofNat 12 v })

def devWrite (o v : Nat) (s : State) : State :=
  if o == 0x010 then clearEvents v s
  else if o == 0x014 then s.modDev (fun d => { d with eventEn := BitVec.ofNat 14 v })
  else if o == 0x018 then setAlertEn v s
  else if o == 0x020 then s.modDev (fun d => { d with winErr := d.winErr &&& ~~~BitVec.ofNat 10 v })
  else if o == 0x030 then (if bitOf v 24 then s.modDev (fun d => { d with conflict := false }) else s)
  else if o == 0x058 then s.modDev (fun d => { d with dbgBase := BitVec.ofNat 7 (bitsOf v 37 31) })
  else s

def cmdWrite (o v : Nat) (s : State) : State :=
  let w := s.cmdw
  if o == 0x004 then { s with cmdw := { w with pollUs := BitVec.ofNat 16 v } }
  else if o == 0x010 then setAqEnable (bitOf v 0) s
  else if o == 0x014 then { s with cmdw := { w with aqCfg := BitVec.ofNat 32 (v % 2 ^ 29) } }
  else if o == 0x018 then { s with cmdw := { w with aqNotify := BitVec.ofNat 16 v } }
  else if o == 0x020 then { s with cmdw := { w with aqSqBase := BitVec.ofNat 64 (bitsOf v 51 12 * 2 ^ 12) } }
  else if o == 0x028 then { s with cmdw := { w with aqCqBase := BitVec.ofNat 64 (bitsOf v 51 12 * 2 ^ 12) } }
  else if o == 0x030 then { s with cmdw := { w with aqLineBase := BitVec.ofNat 64 (bitsOf v 51 8 * 2 ^ 8) } }
  else s

/-- Bits of an MCAST_ENTRY that are not reserved (Table 7.11). -/
abbrev mcastMask : W64 := 0xFFFFFFFF3FFFFF7F

def latWrite (o v : Nat) (s : State) : State :=
  if o == 0x000 then
    if s.lat.topo.getLsbD 31 then lockedWrite 2 s
    else s.modLat (fun l => { l with topo := BitVec.ofNat 32 (v % 2 ^ 16 + b2n (bitOf v 31) * 2 ^ 31) })
  else if o == 0x008 then setPortEn (BitVec.ofNat 4 v) s
  else if o == 0x1F8 then (if bitOf v 0 then clearCounters none s else s)
  else
    match inArray o 0x400 8 256 with
    | some g => s.modLat (fun l => { l with mcast := tset l.mcast g (BitVec.ofNat 64 v &&& mcastMask) })
    | none => s

def pwrWrite (o v : Nat) (s : State) : State :=
  if o == 0x008 then
    let lock := s.pwr.peakLock || bitOf v 31
    (setPeak (v % 2 ^ 12) (setTdp (bitsOf v 23 12) s)).modPwr (fun p => { p with peakLock := lock })
  else if o == 0x010 then
    s.modPwr (fun p => { p with
      idleLowUs := BitVec.ofNat 16 v, idleDrainUs := BitVec.ofNat 16 (bitsOf v 31 16), idleDryMs := BitVec.ofNat 16 (bitsOf v 47 32) })
  else if o == 0x280 then (if bitOf v 0 then clearPeaks s else s)
  else
    match inArray o 0x300 4 8 with
    | some d => setCeil d (BitVec.ofNat 2 (bitsOf v 3 2)) s
    | none => s

/-- Writable bits of an HDM_RANGE other than PARK (Table 14.6). -/
abbrev hdmMask : W64 := 0x0000000FF7F70001

def wellWriteReg (o v : Nat) (s : State) : State :=
  if o < 0x800 then
    if o % 0x100 == 4 then s.modWell (o / 0x100) (fun w => { w with ceRetire := BitVec.ofNat 8 v }) else s
  else
    match inArray o 0x1000 8 8 with
    | some i =>
      let w := (hdmReg s i &&& ~~~hdmMask) ||| (BitVec.ofNat 64 v &&& hdmMask)
      parkRange i (bitOf v 1) { s with hdm := { s.hdm with ranges := tset s.hdm.ranges i w } }
    | none => s

def coreWrite (o v : Nat) (s : State) : State :=
  let g := o / 0x1000
  let k := o % 0x1000
  if k == 0x010 then s.modCore g (fun c => { c with err := c.err &&& ~~~BitVec.ofNat 8 v })
  else if k == 0x020 then s.modCore g (fun c => { c with waitLimit := BitVec.ofNat 32 v })
  else if k == 0x024 then s.modCore g (fun c => { c with retryMax := BitVec.ofNat 4 v })
  else if k == 0x2F8 then (if bitOf v 0 then clearCounters (some g) s else s)
  else s

def schedWrite (o v : Nat) (s : State) : State :=
  if o == 0x000 then s.modSched (fun d => { d with rtLimit := BitVec.ofNat 11 v })
  else if o == 0x004 then s.modSched (fun d => { d with quantum := BitVec.ofNat 32 v })
  else if o == 0x008 then s.modSched (fun d => { d with preemptMax := BitVec.ofNat 4 v, graceUs := BitVec.ofNat 16 (bitsOf v 19 4) })
  else if o == 0x00C then clearClients (v % 2 ^ 16) (bitOf v 16) s
  else
    match inArray o 0x100 4 64 with
    | some c => s.modSched (fun d => { d with shares := tset d.shares c (BitVec.ofNat 16 v) })
    | none => s

/-- A write of the full width at a register's offset, by access code; RO fields ignore it (R9). -/
def regWrite (w o v : Nat) (s : State) : State :=
  match w with
  | 0 => devWrite o v s
  | 1 => cmdWrite o v s
  | 2 => latWrite o v s
  | 4 => pwrWrite o v s
  | 5 => wellWriteReg o v s
  | 6 => coreWrite o v s
  | 7 => schedWrite o v s
  | _ => s

/-- A write into BAR2 (R8, R9, R359, R360). -/
def busWrite (off len v : Nat) (s : State) : State :=
  match windowOf off with
  | none => s
  | some (w, o) =>
    if dark s w then s
    else if breaksR8 s w o len then accessError w s
    else
      match regAt s w o with
      | some (n, _) => if n == len then regWrite w o v s else s
      | none => s

/-- REGISTER_WRITE of the low `len` bytes of v (R8, R9). -/
def execRegisterWrite (off len : Nat) (v : W64) (s : State) : Host.Outcome State Fault Refusal :=
  .next (if answers s && len != 0 then busWrite off len (v.toNat % 2 ^ (8 * len)) s else s)

end Sys2Proof.Machine
end

