-- ==== Sys2Proof/Machine/Chain.lean ====
section
/-!
DEFINITION. The management chain (R367 to R370, Table 16.8), SMBus (R371, R372, Table 16.9) and ALERT# (R365).
-/

namespace Sys2Proof.Machine

-- ## Frames

/-- The payload of an ASSIGN (Table 16.8). -/
def assignFrame (number index : Nat) : BitVec 40 :=
  let v := 1 + number % 2 ^ 14 * 2 ^ 4 + index % 2 ^ 8 * 2 ^ 18
  BitVec.ofNat 40 (v + crc8 (leBytes 4 v) * 2 ^ 32)

/-- CRC of a received payload is right. -/
def frameOk (f : BitVec 40) : Bool := crc8 (leBytes 4 f.toNat) == bitsOf f.toNat 39 32

/-- Sends ASSIGN to the next device of the segment, where there can be one (R368). -/
def sendAssign (s : State) : State :=
  let n := s.dev.number.toNat
  let i := s.dev.index.toNat
  if s.dev.numValid && i < 255 && n < 0x3FFF then emit (.chain (assignFrame (n + 1) (i + 1))) s else s

/-- Latches a number; enabled ports start training, and the number is passed on (R368, R370). -/
def latchNumber (number index : Nat) (s : State) : State :=
  let s := s.modDev (fun d => { d with number := BitVec.ofNat 14 number, index := BitVec.ofNat 8 index, numValid := true })
  let s := raiseLive evChain s
  let s := if s.up then (List.range 4).foldl (fun s p => startTraining p s) s else s
  sendAssign s

/-- ASSIGN: a frame on CHAIN_IN (R368, R369). -/
def execAssign (frame : BitVec 40) (s : State) : Host.Outcome State Fault Refusal :=
  .next (
    let n := bitsOf frame.toNat 17 4
    if !answers s then s
    else if !frameOk frame then
      raiseLive evChain (s.modDev (fun d => { d with chainCrc := ctrAdd d.chainCrc 1 }))
    else if s.dev.head then s.modDev (fun d => { d with chainForeign := ctrAdd d.chainForeign 1 })
    else if bitsOf frame.toNat 3 0 != 1 then s
    else if !s.dev.numValid then latchNumber n (bitsOf frame.toNat 25 18) s
    else if s.dev.number.toNat == n then s
    else raiseLive evChain (s.modDev (fun d => { d with chainForeign := ctrAdd d.chainForeign 1, conflict := true })))

/-- A head that has not latched numbers its segment from its base, 0 where it has none (R368). -/
def startNumbering (s : State) : State :=
  if answers s && s.dev.head && !s.dev.numValid then
    latchNumber (match s.dev.base with | some b => b.toNat | none => 0) 0 s
  else s

/-- CHAIN_BASE_TIMEOUT: no SET_BASE within 100 ms of the release of PERST# (R368). -/
def execChainBaseTimeout (s : State) : Host.Outcome State Fault Refusal := .next (startNumbering s)

/-- CHAIN_REPEAT (R369). -/
def execChainRepeat (s : State) : Host.Outcome State Fault Refusal := .next (if answers s then sendAssign s else s)

-- ## SMBus

/-- Read data with the PEC that the target always appends; the PEC covers both address bytes and the command (R371). -/
def smbusSend (cmd : Nat) (data : List Byte) (s : State) : State :=
  let a : Byte := BitVec.ofNat 8 (2 * s.dev.smbAddr.toNat)
  emit (.smbus (data ++ [BitVec.ofNat 8 (crc8 ([a, BitVec.ofNat 8 cmd, a ||| 1] ++ data))])) s

/-- A word that the target sends, low byte first. -/
def smbusWord (cmd v : Nat) (s : State) : State := smbusSend cmd (leBytes 2 v) s

/-- A Block Read: its byte count, then its bytes. -/
def smbusBlock (cmd : Nat) (data : List Byte) (s : State) : State :=
  smbusSend cmd (BitVec.ofNat 8 data.length :: data) s

/-- A command marked AON is answered whenever VDD_AON is present. -/
def onAon (s : State) (act : State → State) : State := if s.dev.mode == .off then s else act s

/-- Any other command: its command byte is NACKed while PERST# is asserted and after a fatal error. -/
def onCore (s : State) (act : State → State) : State :=
  onAon s (fun s => if s.dev.mode == .reset || s.dev.mode == .fatal then emit .smbusNack s else act s)

/-- DEV_ID, 0x01. -/
def execDevId (s : State) : Host.Outcome State Fault Refusal :=
  .next (onAon s (fun s => smbusBlock 0x01 (leBytes 4 (devIdValue s)) s))

/-- STATUS, 0x02. -/
def execStatus (s : State) : Host.Outcome State Fault Refusal :=
  .next (onAon s (fun s => smbusWord 0x02 (b2n s.dev.ready + 2 * b2n (s.dev.mode == .fatal) + 4 * b2n s.dev.thermTrip +
    8 * b2n s.dev.numValid + 16 * s.dev.dies.toNat) s))

/-- DEVICE_NUM, 0x03. -/
def execDeviceNum (s : State) : Host.Outcome State Fault Refusal :=
  .next (onAon s (fun s => smbusWord 0x03 (s.dev.number.toNat + 2 ^ 14 * b2n s.dev.numValid + 2 ^ 15 * b2n s.dev.head) s))

/-- SET_BASE, 0x04: a head that has not latched takes it; else the last byte is NACKed (R368, R371). -/
def execSetBase (base : W16) (s : State) : Host.Outcome State Fault Refusal :=
  .next (onAon s (fun s =>
    if s.dev.head && !s.dev.numValid then
      startNumbering (s.modDev (fun d => { d with base := some (BitVec.ofNat 14 base.toNat) }))
    else emit .smbusNack s))

/-- CHAIN_START, 0x05 (R368). -/
def execChainStart (s : State) : Host.Outcome State Fault Refusal := .next (onAon s startNumbering)

/-- EVENTS, 0x06. -/
def execEvents (s : State) : Host.Outcome State Fault Refusal :=
  .next (onAon s (fun s => smbusWord 0x06 s.dev.events.toNat s))

/-- EVENT_CLEAR, 0x07 (R372). -/
def execEventClear (mask : W16) (s : State) : Host.Outcome State Fault Refusal :=
  .next (onAon s (clearEvents mask.toNat))

/-- ALERT_MASK, 0x08. -/
def execAlertMask (a : RdWr) (s : State) : Host.Outcome State Fault Refusal :=
  .next (onAon s (fun s => match a with
    | .read => smbusWord 0x08 s.dev.alertEn.toNat s
    | .write v => setAlertEn v.toNat s))

/-- FATAL_CAUSE, 0x09. -/
def execFatalCause (s : State) : Host.Outcome State Fault Refusal :=
  .next (onAon s (fun s => smbusWord 0x09 s.dev.fatalCause.toNat s))

/-- TEMP, 0x0A: dies 0 to 7, then the hub; 0x80 for a quarantined die. -/
def execTemp (s : State) : Host.Outcome State Fault Refusal :=
  .next (onCore s (fun s => smbusBlock 0x0A
    ((List.range 8).map (fun d => if s.dieIn d then (s.diePerf d).tj else 0x80) ++ [s.pwr.hubTj]) s))

/-- POWER, 0x0B (R346). -/
def execPower (s : State) : Host.Outcome State Fault Refusal :=
  .next (onCore s (fun s => smbusWord 0x0B s.pwr.avgW s))

/-- TDP_SET, 0x0C. -/
def execTdpSet (a : RdWr) (s : State) : Host.Outcome State Fault Refusal :=
  .next (onCore s (fun s => match a with
    | .read => smbusWord 0x0C s.pwr.tdpW.toNat s
    | .write v => setTdp v.toNat s))

/-- PEAK_SET, 0x0D: refused once PEAK_LOCK is closed (R371, R372). -/
def execPeakSet (a : RdWr) (s : State) : Host.Outcome State Fault Refusal :=
  .next (onCore s (fun s => match a with
    | .read => smbusWord 0x0D s.pwr.peakW.toNat s
    | .write v => if s.pwr.peakLock then emit .smbusNack (setPeak v.toNat s) else setPeak (v.toNat % 2 ^ 12) s))

/-- MEASURE, 0x0E: PYORN_HASH, or 32 zero bytes while boot is halted (R377, R381). -/
def execMeasure (s : State) : Host.Outcome State Fault Refusal :=
  .next (onCore s (fun s => smbusBlock 0x0E (padTo 32 s.dev.pyornHash) s))

/-- SMBUS_ARP: the master assigns another address (R371). -/
def execSmbusArp (addr : BitVec 7) (s : State) : Host.Outcome State Fault Refusal :=
  .next (onAon s (fun s => s.modDev (fun d => { d with smbAddr := addr })))

/-- ALERT_RESPONSE: while it drives ALERT# low, the part answers with its address in bits [7:1] (R365). SMBus leaves
bit 0 open. -/
def execAlertResponse (s : State) : Host.Outcome State Fault Refusal :=
  .next (onAon s (fun s =>
    if alertLow s then
      let (f, s) := takeFree s
      let a : Byte := BitVec.ofNat 8 (2 * s.dev.smbAddr.toNat + f % 2)
      emit (.smbus [a, BitVec.ofNat 8 (crc8 [0x19, a])]) s
    else s))

end Sys2Proof.Machine
end

