-- ==== Sys2Proof/Machine/Boot.lean ====
section
/-!
DEFINITION. Power-up, PERST# and boot (R353, R374 to R382, R403 to R409).
-/

namespace Sys2Proof.Machine

-- ## Reset

/-- What PERST# leaves: fuses, the SPI flash, the always-on clock source, the last straps, the wells' contents, and
what lies outside the part. An index-log program under way may or may not have reached the flash (Table 17.11). -/
def resetPart (s : State) : State :=
  { pending := s.pending, outputs := s.outputs, freeCtr := s.freeCtr, host := s.host, hostPoison := s.hostPoison
    wellMem := s.wellMem, wellPoison := s.wellPoison
    upsets := { wellSingle := s.upsets.wellSingle, wellDouble := s.upsets.wellDouble }
    pwr := { slowSrc := s.pwr.slowSrc }
    dev := { mode := .reset, fuses := s.dev.fuses, flash := s.dev.flash, compatOrd := s.dev.compatOrd, head := s.dev.head
             bootSrc := s.dev.bootSrc, torn := s.prov.pendingChunk <|> s.dev.torn } }

/-- PERST# goes low for some nanoseconds; below 1 µs it is ignored, below 100 µs the straps are undefined (R409).
Transfers stop part way (R312). -/
def assertPerst (ns : Nat) (s : State) : State :=
  if s.dev.mode == .off || ns < 1000 then s
  else (resetPart (stopTransfers s)).modDev (fun d => { d with strapsOpen := ns < 100000 })

/-- PERST_ASSERT (R409). -/
def execPerstAssert (ns : Nat) (s : State) : Host.Outcome State Fault Refusal := .next (assertPerst ns s)

-- ## Straps and slots

/-- Latches the straps: [0] COMPAT_ORD, [1] CHAIN_ROLE, [3:2] BOOT_SRC; free bits where they are undefined (R407, R409). -/
def latchStraps (straps : Option W16) (s : State) : State :=
  let put := fun (v : Nat) (s : State) => s.modDev (fun d => { d with
    compatOrd := bitOf v 0, head := bitOf v 1, bootSrc := BitVec.ofNat 2 (v / 4), strapsOpen := false })
  match s.dev.strapsOpen, straps with
  | false, some v => put v.toNat s
  | _, _ =>
    let (f, s) := takeFree s
    put (f % 16) s

/-- The header tests of R376: Table 17.2, reserved fields, SVN, PUBKEY, signed bytes that begin with the header. -/
def slotOk (f : Fuses) (x : SlotImage) : Bool :=
  let h := x.header
  let n := field h 8 4
  h.length == 256 && field h 0 4 == leNat [0x50, 0x59, 0x52, 0x4E] && field h 4 2 == 1 && field h 6 2 == 0x960 &&
  256 ≤ n && n ≤ 4192692 && field h 12 1 ≤ 64 && field h 13 1 ≤ 1 &&
  field h 14 1 % 2 == 0 && 2 ≤ field h 14 1 && field h 14 1 ≤ 64 && field h 15 1 == 0 && zeros h 0x48 184 &&
  f.minSvn ≤ field h 12 1 && sha256 ((h.drop 0x10).take 56) == padTo 32 f.fwKeyHash &&
  x.signed.take 256 == h && x.signed.length == n && x.sigOk

/-- Slots in the order of BOOT_SRC: (slot B, image) (R376). -/
def slotOrder (src : BitVec 2) (env : BootEnv) : List (Bool × SlotImage) :=
  if src == 0 then [(false, env.slotA), (true, env.slotB)]
  else if src == 1 then [(true, env.slotB), (false, env.slotA)]
  else if src == 2 then [(false, env.slotA)] else [(true, env.slotB)]

/-- LOG_DIGEST (R377). -/
def logDigestOf (f : Fuses) (pyorn : Block) : Block :=
  [padTo 32 f.romHash, padTo 32 f.fwKeyHash, pyorn].foldl (fun l h => sha256 (l ++ h)) (List.replicate 32 0)

/-- Records an accepted slot: its measurement, its SVN, and whether the first slot had failed (R376, R377). -/
def acceptSlot (x : Bool × SlotImage) (fallback : Bool) (s : State) : State :=
  let h := sha256 x.2.signed
  s.modDev (fun d => { d with
    slotB := x.1, fallback := fallback, pyornHash := h, logDigest := logDigestOf d.fuses h
    pyornSvn := field x.2.header 12 1, logSectors := field x.2.header 14 1, commitSvn := bitOf (field x.2.header 13 1) 0 })

-- ## What boot brings up

/-- The retirement log takes spares and withdraws pages before the wells are used (R304). -/
def applyRetireLog (s : State) : State :=
  (s.dev.flash.retired.filterMap retireOf).foldl (fun s r =>
    let (page, wd) := r
    s.modWell (page / 2 ^ 19) (fun w =>
      if wd then { w with withdrawn := withAll w.withdrawn [page] } else { w with spares := w.spares - 1 })) s

/-- A domain that boot brings to flowing, with its standing charge (R324, R332). -/
def bringUp (n : Nat) (s : State) : State := setStanding n 0 (s.modDom n (fun d => { d with state := 0 }))

/-- V_P0 is written, the die uncore and the clusters wake, and the well trains (R379, R403). -/
def bringUpDie (d : Nat) (s : State) : State :=
  let s := emit (.avs d (railMv5 s d 0)) s
  let s := (domainsOf d).foldl (fun s n => bringUp n s) s
  let s := s.modWell d (fun w => { w with state := 1 })
  s.modPwr (fun p => { p with wells := tset p.wells d 1 })

/-- A program of the index log that the last reset cut off (Table 17.11). -/
def settleLog (s : State) : State :=
  match s.dev.torn with
  | some c =>
    let (f, s) := takeFree s
    s.modDev (fun d => { d with torn := none, flash := logTear d.logSectors c (logNext d.flash) f d.flash })
  | none => s

/-- The signer reads the index log and the tree store: it starts past every index that a valid record has reserved, and takes
the trees whose MAC holds (R232, R233). After the last chunk it is EXHAUSTED. -/
def startSigner (bootId : Block) (s : State) : State :=
  let before := s
  let s := settleLog s
  let f := s.dev.flash
  let s := s.modProv (fun p => { p with bootId := padTo 16 bootId, logSeq := logNext f })
  let s := match logTop f with
    | none => s.modProv (fun p => { p with pendingChunk := some 0, treeReady := treeHeld f 0 })
    | some c =>
      let n := (c + 1) * 4096
      if c + 1 == 2 ^ 28 then s.modProv (fun p => { p with signer := 2, nextIndex := n, reservedEnd := n })
      else s.modProv (fun p => { p with
        nextIndex := n, reservedEnd := n, pendingChunk := some (c + 1), treeReady := treeHeld f (n / 2 ^ 20)
        nextTree := treeHeld f (n / 2 ^ 20 + 1) })
  provEdge before s

/-- The boot ROM has accepted a slot and Pyorn brings the part up to the wait for READY (R379, R380). -/
def bootPart (env : BootEnv) (s : State) : State :=
  let s := s.modDev (fun d => { d with mode := .booting, dies := 0xFF })
  let s := [40, 41, 46].foldl (fun s n => bringUp n s) s
  let s := applyRetireLog s
  let s := startSigner env.bootId s
  let s := (List.range 8).foldl (fun s d => bringUpDie d s) s
  (List.range 8).foldl (fun s d => if env.dieOk.getD d false then s else quarantine d s) s

/-- PERST# is released: straps, slots, and boot or the halted state (R376, R379, R381). -/
def releasePerst (env : BootEnv) (s : State) : State :=
  if s.dev.mode != .reset then s
  else
    let s := latchStraps env.straps { s with hubCycle := 0 }
    let order := slotOrder s.dev.bootSrc env
    let s := match order.findIdx? (fun x => slotOk s.dev.fuses x.2) with
      | some i => bootPart env (acceptSlot (order.getD i (false, {})) (i != 0) s)
      | none => s.modDev (fun d => { d with mode := .halted })
    if s.dev.base.isSome then startNumbering s else s

/-- PERST_RELEASE (R379). -/
def execPerstRelease (env : BootEnv) (s : State) : Host.Outcome State Fault Refusal := .next (releasePerst env s)

/-- HOT_RESET: exactly an assertion and a release of PERST# (R353). -/
def execHotReset (env : BootEnv) (s : State) : Host.Outcome State Fault Refusal :=
  .next (if answers s then releasePerst env (assertPerst 100000 s) else s)

/-- BOOT_READY: every die is settled and the signer is READY, STALLED, or EXHAUSTED from boot (R233, R379). -/
def execBootReady (s : State) : Host.Outcome State Fault Refusal :=
  .next (if s.dev.mode == .booting then s.modDev (fun d => { d with mode := .serving, ready := true }) else s)

/-- MIN_SVN_COMMIT: Pyorn sets fuse bits after READY (R378). -/
def execMinSvnCommit (s : State) : Host.Outcome State Fault Refusal :=
  .next (
    if s.serving && s.dev.commitSvn && s.dev.fuses.minSvn < s.dev.pyornSvn then
      s.modDev (fun d => { d with fuses := { d.fuses with minSvn := d.pyornSvn } })
    else s)

-- ## Power

/-- A loss of power while fuses are set leaves MIN_SVN at some value on the way (R378). -/
def tearFuses (s : State) : State :=
  if s.serving && s.dev.commitSvn && s.dev.fuses.minSvn < s.dev.pyornSvn then
    let (f, s) := takeFree s
    s.modDev (fun d => { d with fuses := { d.fuses with minSvn := d.fuses.minSvn + f % (d.pyornSvn - d.fuses.minSvn + 1) } })
  else s

/-- POWER_LOSS: every volatile content is gone; the flash and the fuses stay (R405). -/
def execPowerLoss (s : State) : Host.Outcome State Fault Refusal :=
  .next (
    if s.dev.mode == .off then s
    else
      let t := resetPart (stopTransfers (tearFuses s))
      { t with wellMem := [], wellPoison := [], upsets := {}, pwr := {}, dev := { t.dev with mode := .off } })

/-- POWER_UP: the always-on domain starts on its RC oscillator, with PERST# asserted (R404, R411). -/
def execPowerUp (s : State) : Host.Outcome State Fault Refusal :=
  .next (
    if s.dev.mode != .off then s
    else (s.modDev (fun d => { d with mode := .reset })).modPwr (fun p => { p with slowSrc := true }))

end Sys2Proof.Machine
end

