-- ==== Sys2Proof/Machine/Dispatch.lean ====
section
/-!
DEFINITION. The effect of each command: one arm per row of spec/opcode_table.json.
-/

namespace Sys2Proof.Machine

def exec (i : Instr) (s : State) : Host.Outcome State Fault Refusal :=
  match i with
  | .ctxCreate u => Sys2Proof.Machine.execCtxCreate u s
  | .ctxDestroy u => Sys2Proof.Machine.execCtxDestroy u s
  | .ctxSave u cyc => Sys2Proof.Machine.execCtxSave u cyc s
  | .ctxRestore u => Sys2Proof.Machine.execCtxRestore u s
  | .ctxPin u => Sys2Proof.Machine.execCtxPin u s
  | .queueOpen u => Sys2Proof.Machine.execQueueOpen u s
  | .queueClose u => Sys2Proof.Machine.execQueueClose u s
  | .queueClosed u => Sys2Proof.Machine.execQueueClosed u s
  | .copy u cyc => Sys2Proof.Machine.execCopy u cyc s
  | .fill u cyc => Sys2Proof.Machine.execFill u cyc s
  | .siphonPut u => Sys2Proof.Machine.execSiphonPut u s
  | .reside u img cyc => Sys2Proof.Machine.execReside u img cyc s
  | .unreside u => Sys2Proof.Machine.execUnreside u s
  | .run u p => Sys2Proof.Machine.execRun u p s
  | .streamOpen u => Sys2Proof.Machine.execStreamOpen u s
  | .streamFeed u => Sys2Proof.Machine.execStreamFeed u s
  | .streamMark u => Sys2Proof.Machine.execStreamMark u s
  | .streamClose u => Sys2Proof.Machine.execStreamClose u s
  | .streamLoop u p => Sys2Proof.Machine.execStreamLoop u p s
  | .kvSeqOpen u => Sys2Proof.Machine.execKvSeqOpen u s
  | .kvSeqClose u => Sys2Proof.Machine.execKvSeqClose u s
  | .kvPolicySet u => Sys2Proof.Machine.execKvPolicySet u s
  | .poolGrant u => Sys2Proof.Machine.execPoolGrant u s
  | .kvPolicyPin u => Sys2Proof.Machine.execKvPolicyPin u s
  | .kvPolicyUnpin u => Sys2Proof.Machine.execKvPolicyUnpin u s
  | .rngKey u => Sys2Proof.Machine.execRngKey u s
  | .rngStateGet u => Sys2Proof.Machine.execRngStateGet u s
  | .valveSet u => Sys2Proof.Machine.execValveSet u s
  | .valveSignal u => Sys2Proof.Machine.execValveSignal u s
  | .valveWait u => Sys2Proof.Machine.execValveWait u s
  | .valveWaitPass u => Sys2Proof.Machine.execValveWaitPass u s
  | .valveWaitTimeout u => Sys2Proof.Machine.execValveWaitTimeout u s
  | .fence u => Sys2Proof.Machine.execFence u s
  | .outBind u => Sys2Proof.Machine.execOutBind u s
  | .outUnbind u => Sys2Proof.Machine.execOutUnbind u s
  | .loadKey u => Sys2Proof.Machine.execLoadKey u s
  | .wmConfigStream u => Sys2Proof.Machine.execWmConfigStream u s
  | .wmDetect u cyc => Sys2Proof.Machine.execWmDetect u cyc s
  | .provConfig u => Sys2Proof.Machine.execProvConfig u s
  | .attest u => Sys2Proof.Machine.execAttest u s
  | .kill u => Sys2Proof.Machine.execKill u s
  | .scrub u cyc => Sys2Proof.Machine.execScrub u cyc s
  | .powerHint u => Sys2Proof.Machine.execPowerHint u s
  | .statsSnapshot u => Sys2Proof.Machine.execStatsSnapshot u s
  | .vendorDebug u => Sys2Proof.Machine.execVendorDebug u s
  | .heldLineSnoop stores q line count => Sys2Proof.Machine.execHeldLineSnoop stores q line count s
  | .linePoll stores => Sys2Proof.Machine.execLinePoll stores s
  | .packetFetch q => Sys2Proof.Machine.execPacketFetch q s
  | .dispatch pumpCore => Sys2Proof.Machine.execDispatch pumpCore s
  | .kvSecureRetry u => Sys2Proof.Machine.execKvSecureRetry u s
  | .kvWaitTimeout u => Sys2Proof.Machine.execKvWaitTimeout u s
  | .sharePreemption u ran => Sys2Proof.Machine.execSharePreemption u ran s
  | .swapOut g ctx cyc idle waited => Sys2Proof.Machine.execSwapOut g ctx cyc idle waited s
  | .swapIn g ctx cyc => Sys2Proof.Machine.execSwapIn g ctx cyc s
  | .mengineSlice core clash => Sys2Proof.Machine.execMengineSlice core clash s
  | .narrow core => Sys2Proof.Machine.execNarrow core s
  | .recStep core => Sys2Proof.Machine.execRecStep core s
  | .convStep core clash => Sys2Proof.Machine.execConvStep core clash s
  | .argmax core => Sys2Proof.Machine.execArgmax core s
  | .gumbelArgmax core => Sys2Proof.Machine.execGumbelArgmax core s
  | .noise core => Sys2Proof.Machine.execNoise core s
  | .cropStep core => Sys2Proof.Machine.execCropStep core s
  | .attentionBlock core => Sys2Proof.Machine.execAttentionBlock core s
  | .floatWait core waited => Sys2Proof.Machine.execFloatWait core waited s
  | .floatWaitTimeout core waited => Sys2Proof.Machine.execFloatWaitTimeout core waited s
  | .siphonStep core => Sys2Proof.Machine.execSiphonStep core s
  | .pumpDescriptor core => Sys2Proof.Machine.execPumpDescriptor core s
  | .saturationPass u cyc => Sys2Proof.Machine.execSaturationPass u cyc s
  | .widenRerun u => Sys2Proof.Machine.execWidenRerun u s
  | .planCommit u cyc => Sys2Proof.Machine.execPlanCommit u cyc s
  | .remoteWriteCommit core clash meets => Sys2Proof.Machine.execRemoteWriteCommit core clash meets s
  | .remoteRead core clash => Sys2Proof.Machine.execRemoteRead core clash s
  | .siphonArrival => Sys2Proof.Machine.execSiphonArrival s
  | .rngParityFail u unit cyc => Sys2Proof.Machine.execRngParityFail u unit cyc s
  | .pacerTick l => Sys2Proof.Machine.execPacerTick l s
  | .blockGate l ran => Sys2Proof.Machine.execBlockGate l ran s
  | .streamStep l => Sys2Proof.Machine.execStreamStep l s
  | .blockCommit l cyc => Sys2Proof.Machine.execBlockCommit l cyc s
  | .dueTick l => Sys2Proof.Machine.execDueTick l s
  | .chunkRelease stream => Sys2Proof.Machine.execChunkRelease stream s
  | .consLineSnoop stores r count => Sys2Proof.Machine.execConsLineSnoop stores r count s
  | .gapRecordWrite bind idx => Sys2Proof.Machine.execGapRecordWrite bind idx s
  | .ringWriteFail r => Sys2Proof.Machine.execRingWriteFail r s
  | .intervalTick => Sys2Proof.Machine.execIntervalTick s
  | .intervalBuild => Sys2Proof.Machine.execIntervalBuild s
  | .intervalFull => Sys2Proof.Machine.execIntervalFull s
  | .manifestSign => Sys2Proof.Machine.execManifestSign s
  | .manifestWrite => Sys2Proof.Machine.execManifestWrite s
  | .withheldGapWrite stream => Sys2Proof.Machine.execWithheldGapWrite stream s
  | .flashProgramConfirm ok => Sys2Proof.Machine.execFlashProgramConfirm ok s
  | .nextTreeReady => Sys2Proof.Machine.execNextTreeReady s
  | .subtreeRebuild => Sys2Proof.Machine.execSubtreeRebuild s
  | .portTrained p far => Sys2Proof.Machine.execPortTrained p far s
  | .flitReceive p flit => Sys2Proof.Machine.execFlitReceive p flit s
  | .replayTimeout p => Sys2Proof.Machine.execReplayTimeout p s
  | .portRetrain p => Sys2Proof.Machine.execPortRetrain p s
  | .retrainDone p failed => Sys2Proof.Machine.execRetrainDone p failed s
  | .portFailed p failed => Sys2Proof.Machine.execPortFailed p failed s
  | .write => Sys2Proof.Machine.execWrite s
  | .valve => Sys2Proof.Machine.execValve s
  | .ready => Sys2Proof.Machine.execReady s
  | .go => Sys2Proof.Machine.execGo s
  | .done => Sys2Proof.Machine.execDone s
  | .commit => Sys2Proof.Machine.execCommit s
  | .abort => Sys2Proof.Machine.execAbort s
  | .refuse => Sys2Proof.Machine.execRefuse s
  | .gap => Sys2Proof.Machine.execGap s
  | .mass => Sys2Proof.Machine.execMass s
  | .mcastReplicate => Sys2Proof.Machine.execMcastReplicate s
  | .holdExpiry => Sys2Proof.Machine.execHoldExpiry s
  | .groupWaitTimeout g => Sys2Proof.Machine.execGroupWaitTimeout g s
  | .domainStepDown n => Sys2Proof.Machine.execDomainStepDown n s
  | .domainWake n => Sys2Proof.Machine.execDomainWake n s
  | .pllLock n => Sys2Proof.Machine.execPllLock n s
  | .weirGrant r pRest => Sys2Proof.Machine.execWeirGrant r pRest s
  | .overCurrent d => Sys2Proof.Machine.execOverCurrent d s
  | .overCurrentRestore d => Sys2Proof.Machine.execOverCurrentRestore d s
  | .sensorRead temps => Sys2Proof.Machine.execSensorRead temps s
  | .thermalStepDown d => Sys2Proof.Machine.execThermalStepDown d s
  | .thermalStepUp d => Sys2Proof.Machine.execThermalStepUp d s
  | .tdpStepDown avg => Sys2Proof.Machine.execTdpStepDown avg s
  | .tdpStepUp avg => Sys2Proof.Machine.execTdpStepUp avg s
  | .voltageSettled d => Sys2Proof.Machine.execVoltageSettled d s
  | .avsNoAck d => Sys2Proof.Machine.execAvsNoAck d s
  | .calibrationDone d measured => Sys2Proof.Machine.execCalibrationDone d measured s
  | .slowclkLoss => Sys2Proof.Machine.execSlowclkLoss s
  | .slowclkReturn => Sys2Proof.Machine.execSlowclkReturn s
  | .refclkLoss => Sys2Proof.Machine.execRefclkLoss s
  | .hintExpiry n => Sys2Proof.Machine.execHintExpiry n s
  | .patrolScrub well granule => Sys2Proof.Machine.execPatrolScrub well granule s
  | .pageRetire page => Sys2Proof.Machine.execPageRetire page s
  | .hdmCommit base size lock => Sys2Proof.Machine.execHdmCommit base size lock s
  | .hdmPark win park => Sys2Proof.Machine.execHdmPark win park s
  | .hostMemRead addr len => Sys2Proof.Machine.execHostMemRead addr len s
  | .hostMemWrite addr data => Sys2Proof.Machine.execHostMemWrite addr data s
  | .debugRead off len => Sys2Proof.Machine.execDebugRead off len s
  | .debugWrite off data => Sys2Proof.Machine.execDebugWrite off data s
  | .hotReset env => Sys2Proof.Machine.execHotReset env s
  | .hostWriteFail kind q => Sys2Proof.Machine.execHostWriteFail kind q s
  | .registerWrite off len v => Sys2Proof.Machine.execRegisterWrite off len v s
  | .clearAll core => Sys2Proof.Machine.execClearAll core s
  | .portEn mask => Sys2Proof.Machine.execPortEn mask s
  | .aqEnable on => Sys2Proof.Machine.execAqEnable on s
  | .clientClear tag all => Sys2Proof.Machine.execClientClear tag all s
  | .clearPeak => Sys2Proof.Machine.execClearPeak s
  | .msixUnmask v => Sys2Proof.Machine.execMsixUnmask v s
  | .assign frame => Sys2Proof.Machine.execAssign frame s
  | .chainBaseTimeout => Sys2Proof.Machine.execChainBaseTimeout s
  | .chainRepeat => Sys2Proof.Machine.execChainRepeat s
  | .devId => Sys2Proof.Machine.execDevId s
  | .status => Sys2Proof.Machine.execStatus s
  | .deviceNum => Sys2Proof.Machine.execDeviceNum s
  | .setBase base => Sys2Proof.Machine.execSetBase base s
  | .chainStart => Sys2Proof.Machine.execChainStart s
  | .events => Sys2Proof.Machine.execEvents s
  | .eventClear mask => Sys2Proof.Machine.execEventClear mask s
  | .alertMask a => Sys2Proof.Machine.execAlertMask a s
  | .fatalCause => Sys2Proof.Machine.execFatalCause s
  | .temp => Sys2Proof.Machine.execTemp s
  | .power => Sys2Proof.Machine.execPower s
  | .tdpSet a => Sys2Proof.Machine.execTdpSet a s
  | .peakSet a => Sys2Proof.Machine.execPeakSet a s
  | .measure => Sys2Proof.Machine.execMeasure s
  | .smbusArp addr => Sys2Proof.Machine.execSmbusArp addr s
  | .alertResponse => Sys2Proof.Machine.execAlertResponse s
  | .perstAssert ns => Sys2Proof.Machine.execPerstAssert ns s
  | .perstRelease env => Sys2Proof.Machine.execPerstRelease env s
  | .bootReady => Sys2Proof.Machine.execBootReady s
  | .minSvnCommit => Sys2Proof.Machine.execMinSvnCommit s
  | .watchdogExpiry => Sys2Proof.Machine.execWatchdogExpiry s
  | .fatalError => Sys2Proof.Machine.execFatalError s
  | .internalLinkRetrain l => Sys2Proof.Machine.execInternalLinkRetrain l s
  | .dieQuarantine d => Sys2Proof.Machine.execDieQuarantine d s
  | .vddHLow => Sys2Proof.Machine.execVddHLow s
  | .vddCLow d => Sys2Proof.Machine.execVddCLow d s
  | .wellSupplyFault dies => Sys2Proof.Machine.execWellSupplyFault dies s
  | .powerUp => Sys2Proof.Machine.execPowerUp s
  | .powerLoss => Sys2Proof.Machine.execPowerLoss s
  | .wellPowerDown d => Sys2Proof.Machine.execWellPowerDown d s
  | .internalLinkReplay l => Sys2Proof.Machine.execInternalLinkReplay l s
  | .internalLinkRetrainDone l ok => Sys2Proof.Machine.execInternalLinkRetrainDone l ok s
  | .cxlLinkRetrain => Sys2Proof.Machine.execCxlLinkRetrain s
  | .cxlLinkL1 enter => Sys2Proof.Machine.execCxlLinkL1 enter s
  | .ceilPoint d point => Sys2Proof.Machine.execCeilPoint d point s
  | .accessErrRead off len => Sys2Proof.Machine.execAccessErrRead off len s

end Sys2Proof.Machine
end

