-- ==== Sys2Proof/Machine/Step.lean ====
section
/-!
DEFINITION. One step of the part: the command at the front of the queue, or one hub cycle of idling.
-/

namespace Sys2Proof.Machine

/-- The front command runs on the state with the queue's rest. With no command waiting the part idles for one hub
cycle of 1 ns, in which nothing but the cycle count moves (R292; assumption 5). -/
def step (s : State) : Host.Outcome State Fault Refusal :=
  match s.pending with
  | [] => .next { s with hubCycle := s.hubCycle + 1 }
  | c :: rest => exec c { s with pending := rest }

/-- The host's placing of a word at the front of the queue. No row of the table gives bits, so no word spells a
command and the state stays. -/
def State.withFetchWord (s : State) (nbits w : Nat) : State :=
  match decodeTableWord nbits w with
  | some c => { s with pending := c :: s.pending }
  | none => s

end Sys2Proof.Machine
end

