-- ==== Sys2Proof/Safety.lean ====
section
/-!
DEFINITION. The terms that claims are stated in: what a step answers, what may start, what raising an event, driving an
answer and completing a command leave behind, and which memories are well formed.
-/

namespace Sys2Proof.Machine

/-- A command answers a next state. -/
def Answers (c : Instr) (s t : State) : Prop := exec c s = .next t

-- ## Memories

/-- The byte stores are in their canonical form. -/
def MemoriesOk (s : State) : Prop :=
  Memory.wf s.host = true ∧ Memory.wf s.cis = true ∧ Memory.wf s.wellMem = true

/-- Addresses of a range. -/
def inRange (a n x : Nat) : Prop := a ≤ x ∧ x < a + n

/-- A store holds the given bytes from an address, and elsewhere what another store held. -/
def StoredAt (a : Nat) (bs : List Byte) (m m' : Mem) : Prop :=
  mread m' a bs.length = bs ∧ ∀ x, ¬ inRange a bs.length x → mget m' x = mget m x

-- ## Events and answers

/-- What raising event e leaves (R364): its bit is set; where it was clear and enabled, its MSI-X message is sent, or is
pending while the vector is masked; nothing else changes. -/
structure Signals (e : Nat) (s t : State) : Prop where
  bit : t.dev.events = s.dev.events ||| BitVec.ofNat 14 (2 ^ e)
  rest : t = { s with
    dev := { s.dev with events := t.dev.events, pendingMsix := t.dev.pendingMsix }, outputs := t.outputs }
  sent : t.outputs =
    if !s.dev.events.getLsbD e && s.dev.eventEn.getLsbD e && s.dev.unmasked.contains (1057 + e)
    then s.outputs ++ [.msix (1057 + e)] else s.outputs
  pending : t.dev.pendingMsix =
    if !s.dev.events.getLsbD e && s.dev.eventEn.getLsbD e && !s.dev.unmasked.contains (1057 + e) &&
      !s.dev.pendingMsix.contains (1057 + e)
    then s.dev.pendingMsix ++ [1057 + e] else s.dev.pendingMsix

/-- The part drives one answer and nothing else changes. -/
def Drives (o : Output) (s t : State) : Prop := t = { s with outputs := s.outputs ++ [o] }

/-- PEC of an SMBus read: CRC-8 over both address bytes, the command byte and the data (R371). -/
def readPec (s : State) (cmd : Nat) (data : List Byte) : Byte :=
  let a : Byte := BitVec.ofNat 8 (2 * s.dev.smbAddr.toNat)
  BitVec.ofNat 8 (crc8 ([a, BitVec.ofNat 8 cmd, a ||| 1] ++ data))

/-- The target answers a Read Word or a Block Read, PEC last. -/
def SmbusAnswer (cmd : Nat) (data : List Byte) (s t : State) : Prop :=
  Drives (.smbus (data ++ [readPec s cmd data])) s t

-- ## Commands that packets carry

/-- A fetched command of an opcode that the part serves and the ordering rules let start. -/
structure Startable (u op : Nat) (c : Cmd) (s : State) : Prop where
  found : s.cmd? u = some c
  serves : s.dev.mode = .serving
  fetched : c.phase = .fetched
  opcode : c.opcode = op
  free : canStart s c = true

/-- A pump-only command whose transfer is under way on cores that no plan has taken from it (R21, R276). -/
structure Pumping (u op : Nat) (c : Cmd) (s : State) : Prop where
  found : s.cmd? u = some c
  serves : s.dev.mode = .serving
  opcode : c.opcode = op
  onPump : atPump s c = true
  began : c.started = true

-- ## Steps of a running plan

/-- A plan occupies core g as `a` says, and no word that it could read is upset, poisoned or withdrawn. -/
structure Engaged (g : Nat) (a : At) (s : State) : Prop where
  runs : at? s g = some a
  serves : s.dev.mode = .serving
  upsets : s.upsets = {}
  poison : s.cisPoison = [] ∧ s.accPoison = [] ∧ s.wellPoison = []
  pages : ∀ d, (s.well d).withdrawn = []

/-- The rank on core g stands at a step, and the step is not that of a lane that stays parked (R103, R424). -/
structure StandsAt (g : Nat) (a : At) (st : PlanStep) (s : State) : Prop where
  engaged : Engaged g a s
  next : stepAt s a = some st
  live : parkedStep s a st = false

/-- The commands that carry out a step of a plan on core g, and the steps that each carries out (assumption 1). -/
def carriesOut (g : Nat) : Instr → PlanStep → Prop
  | .mengineSlice h _, .matmul _ => h = g
  | .narrow h, .narrow _ => h = g
  | .recStep h, .recur _ _ => h = g
  | .convStep h _, .conv _ => h = g
  | .cropStep h, .crop _ => h = g
  | .argmax h, .argmax _ => h = g
  | .gumbelArgmax h, .gumbel _ => h = g
  | .noise h, .noise _ _ => h = g
  | .attentionBlock h, .attention _ => h = g
  | .floatWait h _, .floatWait _ _ => h = g
  | .siphonStep h, .siphon _ _ _ _ _ => h = g
  | .pumpDescriptor h, .pump _ => h = g
  | .pumpDescriptor h, .frame _ => h = g
  | .remoteWriteCommit h _ _, .write _ => h = g
  | .remoteRead h _, .read _ _ => h = g
  | _, _ => False

/-- The context region and accumulator share that a plan uses on its core. -/
def ownRegion (s : State) (a : At) : Region := (s.core a.core).regions.getD a.slot {}

/-- Cistern-space address of an offset into the context region, and whether n bytes from it lie in the region. -/
def ownAddr (s : State) (a : At) (off : Nat) : Nat := csAddr a.core ((ownRegion s a).base * 8192 + off)
def ownFits (s : State) (a : At) (off n : Nat) : Prop := off + n ≤ (ownRegion s a).size * 8192

/-- Bytes of the context region. -/
def ownBytes (s : State) (a : At) (off n : Nat) : List Byte := mread s.cis (ownAddr s a off) n

/-- Keys of n values that the plan names from a lane of an entry row on, row after row: all lie in its share (R23), and a
row of the state area is that of the working half (R96). -/
def RowAt (s : State) (a : At) (row lane n : Nat) (ks : List Nat) : Prop :=
  let r := ownRegion s a
  (∀ i < n, entryRow s a (row + (lane + i) / 64) < r.accSize * 64) ∧
  ks = (List.range n).map (fun i => accKey a.core (r.accBase * 64 + entryRow s a (row + (lane + i) / 64)) ((lane + i) % 64))

/-- Values under keys of the accumulator file. -/
def valuesAt (s : State) (ks : List Nat) : List Nat := ks.map (fun k => (tget s.acc k 0).toNat)

/-- The values stand under the keys; every other value is as before. -/
def KeysWritten (ks vs : List Nat) (s t : State) : Prop :=
  (∀ i < ks.length, tget t.acc (ks.getD i 0) 0 = BitVec.ofNat 48 (vs.getD i 0)) ∧ ∀ k, k ∉ ks → tget t.acc k 0 = tget s.acc k 0

/-- A computation of an engine step that does not end early yields a value and a state. -/
def Yields {α : Type} (x : Eng α) (s : State) (v : α) (t : State) : Prop := StateT.run (OptionT.run x) s = (some v, t)

/-- n bytes from an offset of the context region, or of a resident image of the plan, lie in it and are these (R421). -/
def Readable (s : State) (a : At) (image : Option Nat) (off n : Nat) (bs : List Byte) : Prop :=
  ∃ r, regionFor s a image = some r ∧ off + n ≤ r.size * 8192 ∧ bs = mread s.cis (csAddr a.core (r.base * 8192 + off)) n

/-- n bytes from an offset lie in the context region, so that the plan may write them. -/
def Writable (s : State) (a : At) (off n : Nat) : Prop :=
  ∃ r, regionFor s a none = some r ∧ off + n ≤ r.size * 8192

/-- The raw values of a row in its format (Table 4.3). -/
def RowIs (s : State) (a : At) (src : RowSrc) (n : Nat) (vs : List Nat) : Prop :=
  match src with
  | .acc row lane => ∃ ks, RowAt s a row lane n ks ∧ vs = valuesAt s ks
  | .fp32 off => ∃ b, Readable s a none off (4 * n) b ∧ vs = splitLE 4 n b
  | .bf16 off => ∃ b, Readable s a none off (2 * n) b ∧ vs = splitLE 2 n b
  | .a8 off => ∃ b, Readable s a none off n b ∧ vs = splitLE 1 n b
  | .a8block off _ _ _ => ∃ b, Readable s a none off n b ∧ vs = splitLE 1 n b

/-- TAG and TOKENS of a data block and of a scale block agree (R85). -/
def TagsAgree (s : State) (a : At) (trailer scale : Nat) : Prop :=
  ∃ b, Readable s a none trailer 2 b ∧ Readable s a none (scale + 0x140) 2 b

/-- A scale block holds s_a and zp for a token (Table 4.5). -/
def ScaleIs (s : State) (a : At) (block token sa zp : Nat) : Prop :=
  ∃ x z, Readable s a none (block + 4 * token) 4 x ∧ Readable s a none (block + 0x100 + token) 1 z ∧
    sa = field x 0 4 ∧ zp = field z 0 1

/-- The exact values of a row: decoded A8 where its tags agree (R85), else the numbers that its format holds. -/
def ValuesAre (s : State) (a : At) (src : RowSrc) (n : Nat) (xs : List Fl) : Prop :=
  ∃ vs, RowIs s a src n vs ∧
    match src with
    | .a8block _ scale token trailer => TagsAgree s a trailer scale ∧ ∃ sa zp, ScaleIs s a scale token sa zp ∧
        xs = vs.map (fun v => decA8 v (decF fp32 sa) zp)
    | .a8 _ => xs = vs.map (fun v => Fl.ofInt v)
    | _ => xs = vs.map (decF (srcFormat src))

/-- The codes of 64 weight columns of the first tile, n from an index on (R63). -/
def TileIs (s : State) (a : At) (w : Weights) (first n : Nat) (cs : List (List Nat)) : Prop :=
  cs.length = 64 ∧ ∀ c < 64, ∃ b,
    Readable s a w.image (w.codeOff + c * codeBytes w.pair (unitK w) + codeBytes w.pair first) (codeBytes w.pair n) b ∧
    cs.getD c [] = splitCodes w.pair n b

/-- Group scales and group sums of the tile, as bytes; a step with ZP_ZERO has no sums (R64, R65). -/
def GroupsAre (s : State) (a : At) (w : Weights) (sc sm : List Byte) : Prop :=
  Readable s a w.image w.scaleOff (2 * 64 * unitGroups w) sc ∧
  (if w.zpZero then sm = [] else Readable s a w.image w.gsumOff (4 * 64 * unitGroups w) sm)

/-- Scale of group j of column c, and its sum. -/
def groupScale (w : Weights) (sc : List Byte) (c j : Nat) : Nat := field sc (2 * (c * unitGroups w + j)) 2
def groupSum (w : Weights) (sm : List Byte) (c j : Nat) : Int :=
  if w.zpZero then 0 else sextN 32 (field sm (4 * (c * unitGroups w + j)) 4)

/-- Bytes written at an offset of the context region. -/
def ownWrite (s : State) (a : At) (off : Nat) (bs : List Byte) (m : Mem) : Mem := mwrite m (ownAddr s a off) bs

/-- The tile that lies u tiles after the first: its sections (Table 3.7). -/
def tileAt (w : Weights) (u : Nat) : Weights :=
  { w with codeOff := w.codeOff + u * 64 * codeBytes w.pair (unitK w), scaleOff := w.scaleOff + u * 2 * 64 * unitGroups w
           gsumOff := w.gsumOff + u * 4 * 64 * unitGroups w }

/-- One input element of a convolution, as the array takes it: a BF16 value, an A8 code, or in a widened run the BF16
value of the wide region or of the decoded code (R70, R89, R90). -/
def ElemIs (s : State) (a : At) (k : ConvBlk) (op : ConvOp) (sa zp c h w v : Nat) : Prop :=
  let i := inOffset k 1 op.n c h w
  let code (f : Nat → Nat) : Prop := ∃ b, Readable s a none (k.inBase + i) 1 b ∧ v = f (leNat b)
  let wide (src : RowSrc) : Prop := ∃ x, ValuesAre s a src 1 [x] ∧ v = (rowConv src bf16 x).1
  if k.inBf then ∃ b, Readable s a none (k.inBase + inOffset k 2 op.n c h w) 2 b ∧ v = leNat b
  else if a.cmd.widened then
    match op.wide with
    | some (.acc row lane) => wide (.acc row (lane + i))
    | some (.fp32 off) => wide (.fp32 (off + 4 * i))
    | some (.bf16 off) => wide (.bf16 (off + 2 * i))
    | _ => code (fun q => (decodeBf16 sa zp q).1)
  else code id

/-- Bytes of well space that a plan may read. -/
def WellHas (s : State) (ad : Nat) (bs : List Byte) : Prop :=
  addrOk s (.well ad) bs.length = true ∧ bs = wellRead s ad bs.length

/-- A channel of a pixel of a frame as FP32 (R186). -/
def PixelIs (s : State) (k : CropBlk) (frame y x c v : Nat) : Prop :=
  ∃ b, WellHas s (frame + y * k.pitch + (x * k.c + c) * elemBytes k.bf) b ∧ b.length = elemBytes k.bf ∧
    v = if k.bf then (convF bf16 fp32 (leNat b)).1 else fp32OfNat (leNat b)

/-- A sampling position lies outside the frame; it is a number within it (R187). -/
def outsideFrame (k : CropBlk) (y x : Nat) : Prop := beyond y k.h = true ∨ beyond x k.w = true
def insideFrame (k : CropBlk) (y x : Nat) : Prop :=
  ¬ outsideFrame k y x ∧ (decF fp32 y).isFin = true ∧ (decF fp32 x).isFin = true

/-- The sample at a position: EXTRAP outside, else the interpolation of the four pixels about it (R187). -/
def SampleIs (s : State) (k : CropBlk) (frame y x c v : Nat) : Prop :=
  outsideFrame k y x ∧ v = k.extrap ∨
  insideFrame k y x ∧
    let ya := (floorFrac y).1
    let xa := (floorFrac x).1
    ∃ p00 p01 p10 p11, PixelIs s k frame ya xa c p00 ∧ PixelIs s k frame ya (min (xa + 1) (k.w - 1)) c p01 ∧
      PixelIs s k frame (min (ya + 1) (k.h - 1)) xa c p10 ∧
      PixelIs s k frame (min (ya + 1) (k.h - 1)) (min (xa + 1) (k.w - 1)) c p11 ∧
      let top := fp32Fma (floorFrac x).2 (fp32Sub p01 p00) p00
      let bot := fp32Fma (floorFrac x).2 (fp32Sub p11 p10) p10
      v = fp32Fma (floorFrac y).2 (fp32Sub bot top) top

/-- Tokens of a live page under the masks of R134: key and value of the KV head for each that the row sees. -/
def PageTokensAre (s : State) (a : At) (op : AttnOp) (x : Seq) (k : KvBind) (entry block : Nat) (ts : Tokens) : Prop :=
  ts.length = x.tokens ∧ ∀ t < x.tokens,
    if masked x k (lengthAt a.cmd k.seq) op.posBase op.query (block * x.tokens + t) false then ts[t]? = some (true, [], [])
    else ∃ b, WellHas s ((s.mapEntry entry).page * 65536 + (op.layer * x.tokens + t) * x.rowBytes) b ∧
      b.length = x.rowBytes ∧ ts[t]? = some (false, keyValue b op)

/-- Tokens of a staged block, whose rows lie on the plan's first core (R126, R134). -/
def StagedTokensAre (s : State) (a : At) (op : AttnOp) (x : Seq) (k : KvBind) (block : Nat) (ts : Tokens) : Prop :=
  let len := lengthAt a.cmd k.seq
  let g := a.cmd.cores.headD a.core
  let first : At := { a with core := g, slot := (slotOf s a.cmd.ctx g).getD 0, rank := 0 }
  ts.length = x.tokens ∧ ∀ t < x.tokens,
    if masked x k len op.posBase op.query (block * x.tokens + t) true then ts[t]? = some (true, [], [])
    else ∃ b, Readable s first none
        (stagedOffset s a.plan (argsOf s a.cmd) op.binding op.layer (block * x.tokens + t - len)) x.rowBytes b ∧
      ts[t]? = some (false, keyValue b op)

/-- What a narrowing stores for one piece: where, the piece, its values, and its bytes. -/
abbrev PieceBytes := Nat × NarrowPiece × List Fl × List Byte

/-- Each piece and its line buffer lie in the context region. -/
def piecesFit (s : State) (a : At) (ps : List PieceBytes) : Prop :=
  ∀ p ∈ ps, Writable s a p.1 p.2.2.2.length ∧
    ∀ off, p.2.1.keep = some off → Writable s a off (2 * (p.2.2.1.length + p.2.1.pads))

/-- The pieces stored one after the other; a line buffer takes the values of its piece as BF16 (R168, R178). -/
def pieceWrites (s : State) (a : At) : List PieceBytes → Mem → Mem
  | [], m => m
  | (out, q, xs, bs) :: ps, m =>
    let m := ownWrite s a out bs m
    pieceWrites s a ps (match q.keep with
      | some off => ownWrite s a off (xs.flatMap (fun x => leBytes 2 (rowConv q.src bf16 x).1) ++
          List.replicate (2 * q.pads) 0) m
      | none => m)

/-- A chunk's mark is reached, and the slot's working history has not been cleared for it yet (R81). -/
def clearsSlot (s : State) (a : At) (slot t : Nat) : Prop :=
  ∃ i start m, chunkOf s a = some (i, start, some m) ∧ start ≤ m ∧ m ≤ start + t ∧
    ((s.cmd? a.u).getD a.cmd).cleared.contains slot = false

/-- Working history blocks of a slot (R77), and the context region after FILL, HEAD and STEPS of each are 0. -/
def slotHistory (a : At) (slot : Nat) : List Nat :=
  ((a.plan.scalePoints.map scalePoint).filter (fun q => q.src == 0)).map (fun q => q.histBase + 256 * slot + 128)
def clearedSlot (s : State) (a : At) (slot : Nat) (m : Mem) : Mem :=
  (slotHistory a slot).foldl (fun m o => ownWrite s a (o + 0x48) (leBytes 4 0) (ownWrite s a (o + 0x44) [0, 0] m)) m

/-- The random bits of the pieces of a narrowing, drawn piece after piece (R194, R197). -/
def DrawnRows (a : At) (op : NarrowOp) : Nat → List NarrowPiece → State → List (List Nat) → Prop
  | _, [], _, bits => bits = []
  | done, q :: qs, s, bits => ∃ b bs r, bits = b :: bs ∧
      Yields (draws a op.draw op.srBits (firstLane q.src) q.width done) s b r ∧ DrawnRows a op (done + q.width) qs r bs

/-- The bytes stand at a typed address, and every other byte of the three stores is as before. -/
def Moved (dst : Addr) (bs : List Byte) (s t : State) : Prop :=
  match dst with
  | .host a => StoredAt a bs s.host t.host ∧ t.wellMem = s.wellMem ∧ t.cis = s.cis
  | .well a => StoredAt a bs s.wellMem t.wellMem ∧ t.host = s.host ∧ t.cis = s.cis
  | .cis a => StoredAt a bs s.cis t.cis ∧ t.host = s.host ∧ t.wellMem = s.wellMem

/-- A step that is done: the rank on core g stands at its next step. It may have touched the two stores and the
counters of its core, its command and its loop; of the core itself its port, its held sums, its compared tags and its
error bits; of other cores nothing. -/
structure StepDone (g : Nat) (s t : State) : Prop where
  only : t = { s with cis := t.cis, acc := t.acc, perf := t.perf, inflight := t.inflight, loops := t.loops, cores := t.cores }
  uids : t.inflight.map (fun d => d.uid) = s.inflight.map (fun d => d.uid)
  others : ∀ h, h ≠ g → t.core h = s.core h
  pos : (t.core g).pos = (s.core g).pos + 1
  rest : t.core g = { s.core g with
    pos := (t.core g).pos, wideHolder := (t.core g).wideHolder, phaseRows := (t.core g).phaseRows
    heldSums := (t.core g).heldSums, checked := (t.core g).checked, err := (t.core g).err }

/-- First address of the completion record that a queue writes next (R248). -/
def recordAddr (x : Queue) : Nat := x.cqBase + x.cqProd.toNat % 2 ^ x.cqLog * 32

/-- A ring has room for one record and none waits; a ring is full (R249). -/
def ringRoom (x : Queue) : Prop := x.waits = [] ∧ (x.cqProd - x.cqCons).toNat < 2 ^ x.cqLog
def ringFull (x : Queue) : Prop := 2 ^ x.cqLog ≤ (x.cqProd - x.cqCons).toNat

/-- Host bytes that a retirement of a command writes: its record and the CQ_PROD line of its queue (R238, R248); none
where the ring is full. -/
def inRecord (s : State) (c : Cmd) (a : Nat) : Prop :=
  ∃ x, s.queue? c.queue = some x ∧ x.opened = true ∧ x.discards = false ∧ ¬ ringFull x ∧
    (inRange (recordAddr x) 32 a ∨ inRange (x.lineBase + 0x80) 64 a)

/-- The queue's record slot and its CQ_PROD line do not overlap. -/
def ringApart (x : Queue) : Prop :=
  recordAddr x + 32 ≤ x.lineBase + 0x80 ∨ x.lineBase + 0x80 + 64 ≤ recordAddr x

/-- The parts of the machine that no retirement with ST_OK touches. -/
structure SameMachine (s t : State) : Prop where
  pending : t.pending = s.pending
  hubCycle : t.hubCycle = s.hubCycle
  cmdw : t.cmdw = s.cmdw
  nextUid : t.nextUid = s.nextUid
  cores : t.cores = s.cores
  floats : t.floats = s.floats
  perf : t.perf = s.perf
  acc : t.acc = s.acc
  cis : t.cis = s.cis
  cisPoison : t.cisPoison = s.cisPoison
  accPoison : t.accPoison = s.accPoison
  wellMem : t.wellMem = s.wellMem
  wellPoison : t.wellPoison = s.wellPoison
  upsets : t.upsets = s.upsets
  wells : t.wells = s.wells
  valves : t.valves = s.valves
  streams : t.streams = s.streams
  loops : t.loops = s.loops
  bindings : t.bindings = s.bindings
  rings : t.rings = s.rings
  spouts : t.spouts = s.spouts
  prov : t.prov = s.prov
  wmKeys : t.wmKeys = s.wmKeys
  seqs : t.seqs = s.seqs
  map : t.map = s.map
  images : t.images = s.images
  hdm : t.hdm = s.hdm
  siphon : t.siphon = s.siphon
  pwr : t.pwr = s.pwr

/-- What a retirement keeps of a context: all but the counters of its page. -/
def keptCtx (x : Ctx) : Ctx := { x with stats := {} }

/-- What a retirement keeps of a queue: all but its completion ring's count and contexts, and the records that wait. -/
def keptQueue (x : Queue) : Queue := { x with cqProd := 0, ringCtxs := [], waits := [] }

/-- The bytes of a completion record carry the command's SEQ, status, opcode, context and DETAIL (Table 11.7). -/
def RecordOf (c : Cmd) (status detail : Nat) (b : Block) : Prop :=
  b.take 4 = leBytes 4 c.seq ∧ (b.drop 4).take 1 = leBytes 1 status ∧ (b.drop 5).take 1 = leBytes 1 c.opcode ∧
  (b.drop 8).take 2 = leBytes 2 c.ctx ∧ (b.drop 28).take 4 = leBytes 4 detail

/-- What a retirement keeps of the device window: all but EVENT_STATUS and the pending messages. -/
def keptDev (d : Device) : Device := { d with events := 0, pendingMsix := [] }

/-- What a retirement keeps of the scheduler window: all but the device page's counters that it adds to. -/
def keptSched (d : Sched) : Sched :=
  { d with admissionRefusals := 0, deadlockRefusals := 0, clientSatEvents := 0 }

/-- A command completes (R248 to R250): it has left the flight, the others are still in flight, and its record with the
status and DETAIL stands in its queue's ring, or is the last of those that wait for room in a full one. Only its
queue's ring, counters and events move; the lateral fabric only for a command of a lateral group. -/
structure Completes (c : Cmd) (status detail : Nat) (s t : State) : Prop where
  left : t.inflight.map (fun d => d.uid) = (s.inflight.map (fun d => d.uid)).filter (· != c.uid)
  same : SameMachine s t
  ctxs : ∀ k, (t.ctx? k).map keptCtx = (s.ctx? k).map keptCtx
  queues : ∀ q, (t.queue? q).map keptQueue = (s.queue? q).map keptQueue
  dev : keptDev t.dev = keptDev s.dev
  sched : keptSched t.sched = keptSched s.sched
  lat : groupOf s c.uid = none → t.lat = s.lat ∧ t.freeCtr = s.freeCtr
  host : (∀ x, s.queue? c.queue = some x → x.waits = [] ∨ ringFull x) → ∀ a, ¬ inRecord s c a →
    mget t.host a = mget s.host a
  counted : ∀ x, s.queue? c.queue = some x → x.opened = true → x.discards = false → ringRoom x →
    (t.queue? c.queue).map (fun y => (y.cqProd, y.waits)) = some (x.cqProd + 1, [])
  record : Memory.wf s.host = true → ∀ x, s.queue? c.queue = some x → x.opened = true → x.discards = false →
    ringRoom x → ringApart x →
    RecordOf c status detail (mread t.host (recordAddr x) 32) ∧
    field (mread t.host (recordAddr x) 32) 6 2 / 2 ^ 15 = phaseOf x
  waits : ∀ x, s.queue? c.queue = some x → x.opened = true → x.discards = false → ringFull x →
    ∃ r, (t.queue? c.queue).map (fun y => (y.cqProd, y.waits)) = some (x.cqProd, x.waits ++ [r]) ∧
      RecordOf c status detail r.bytes

end Sys2Proof.Machine
end

