-- ==== Sys2Proof/Certificates/Slice0/Obligations.lean ====
section
/-!
DEFINITION. The statements for the provers, by the parts of spec/ that they come from. Each docstring names the rules.
-/

section
open Sys2Proof Sys2Proof.Machine

-- ## SMBus, ALERT# and the management chain

/-- R371, Table 16.9: the words and blocks that the commands marked AON answer while VDD_AON is present, bit by bit. The
others answer out of reset and before a fatal error; while PERST# is asserted and after a fatal error their command byte is
NACKed. A read changes nothing. -/
def Obligations.SmbusReadsAnswerTheirFields : Prop :=
  (∀ s : State, s.dev.mode ≠ .off →
    (∃ t, ∃ v : W32, Answers .devId s t ∧ SmbusAnswer 0x01 (4 :: leBytes 4 v.toNat) s t ∧
      v.extractLsb' 0 16 = 0x960#16 ∧ v.getLsbD 16 = s.dev.fuses.orderingA1 ∧
      v.extractLsb' 17 7 = s.dev.fuses.stepping ∧ v.extractLsb' 24 8 = 0#8) ∧
    (∃ t, ∃ v : W16, Answers .status s t ∧ SmbusAnswer 0x02 (leBytes 2 v.toNat) s t ∧
      v.getLsbD 0 = s.dev.ready ∧ v.getLsbD 1 = (s.dev.mode == .fatal) ∧ v.getLsbD 2 = s.dev.thermTrip ∧
      v.getLsbD 3 = s.dev.numValid ∧ v.extractLsb' 4 8 = s.dev.dies ∧ v.extractLsb' 12 4 = 0#4) ∧
    (∃ t, ∃ v : W16, Answers .deviceNum s t ∧ SmbusAnswer 0x03 (leBytes 2 v.toNat) s t ∧
      v.extractLsb' 0 14 = s.dev.number ∧ v.getLsbD 14 = s.dev.numValid ∧ v.getLsbD 15 = s.dev.head) ∧
    (∃ t, ∃ v : W16, Answers .events s t ∧ SmbusAnswer 0x06 (leBytes 2 v.toNat) s t ∧
      v.extractLsb' 0 14 = s.dev.events ∧ v.extractLsb' 14 2 = 0#2) ∧
    (∃ t, ∃ v : W16, Answers (.alertMask .read) s t ∧ SmbusAnswer 0x08 (leBytes 2 v.toNat) s t ∧
      v.extractLsb' 0 14 = s.dev.alertEn ∧ v.extractLsb' 14 2 = 0#2) ∧
    (∃ t, ∃ v : W16, Answers .fatalCause s t ∧ SmbusAnswer 0x09 (leBytes 2 v.toNat) s t ∧
      v.extractLsb' 0 4 = s.dev.fatalCause ∧ v.extractLsb' 4 12 = 0#12)) ∧
  (∀ s : State,
    (s.dev.mode ≠ .off → s.dev.mode ≠ .reset → s.dev.mode ≠ .fatal →
      (∃ t, ∃ b : List Byte, Answers .temp s t ∧ SmbusAnswer 0x0A (9 :: b) s t ∧ b.length = 9 ∧
        (∀ d < 8, b.getD d 0 = if s.dieIn d then (s.diePerf d).tj else 0x80#8) ∧ b.getD 8 0 = s.pwr.hubTj) ∧
      (∃ t, Answers .power s t ∧ SmbusAnswer 0x0B (leBytes 2 s.pwr.avgW) s t) ∧
      (∃ t, ∃ v : W16, Answers (.tdpSet .read) s t ∧ SmbusAnswer 0x0C (leBytes 2 v.toNat) s t ∧
        v.extractLsb' 0 12 = s.pwr.tdpW) ∧
      (∃ t, ∃ v : W16, Answers (.peakSet .read) s t ∧ SmbusAnswer 0x0D (leBytes 2 v.toNat) s t ∧
        v.extractLsb' 0 12 = s.pwr.peakW) ∧
      (∃ t, ∃ b : List Byte, Answers .measure s t ∧ SmbusAnswer 0x0E (32 :: b) s t ∧ b.length = 32 ∧
        (s.dev.pyornHash.length = 32 → b = s.dev.pyornHash))) ∧
    (s.dev.mode = .reset ∨ s.dev.mode = .fatal →
      ∀ c ∈ [Instr.temp, .power, .tdpSet .read, .peakSet .read, .measure], ∃ t, Answers c s t ∧ Drives .smbusNack s t))

/-- R9, R365, R371, R372, Table 16.9: SMBus writes. EVENT_CLEAR and ALERT_MASK are AON; ALERT_EN [13] stays 1; TDP_W is
held within 300 to 1,500; PEAK_W changes only while PEAK_LOCK is open, and a closed lock refuses the write, counts it in
LOCKED_WRITES of the power window and raises LOCKED_WRITE, which in the boot-halted state raises nothing (R381). SMBus ARP
assigns the address. TDP_SET and PEAK_SET are NACKed while PERST# is asserted and after a fatal error. -/
def Obligations.SmbusWritesTakeEffect : Prop :=
  ∀ (s : State) (v : W16), s.dev.mode ≠ .off →
    (∃ t, Answers (.eventClear v) s t ∧
      t = { s with dev := { s.dev with events := s.dev.events &&& ~~~(v.extractLsb' 0 14) } }) ∧
    (∃ t, ∃ m : BitVec 14, Answers (.alertMask (.write v)) s t ∧ t = { s with dev := { s.dev with alertEn := m } } ∧
      m.getLsbD 13 = true ∧ ∀ i < 13, m.getLsbD i = v.getLsbD i) ∧
    (∀ a : BitVec 7, ∃ t, Answers (.smbusArp a) s t ∧ t = { s with dev := { s.dev with smbAddr := a } }) ∧
    (s.dev.mode ≠ .reset → s.dev.mode ≠ .fatal →
      (∃ t, ∃ w : BitVec 12, Answers (.tdpSet (.write v)) s t ∧ t = { s with pwr := { s.pwr with tdpW := w } } ∧
        300 ≤ w.toNat ∧ w.toNat ≤ 1500 ∧ (300 ≤ v.toNat → v.toNat ≤ 1500 → w.toNat = v.toNat)) ∧
      (s.pwr.peakLock = false → ∃ t, Answers (.peakSet (.write v)) s t ∧
        t = { s with pwr := { s.pwr with peakW := v.extractLsb' 0 12 } }) ∧
      (s.pwr.peakLock = true → ∃ t r, Answers (.peakSet (.write v)) s t ∧
        (let counted : State :=
           { s with dev := { s.dev with locked := tset s.dev.locked 4 (ctrAdd (tget s.dev.locked 4 0) 1) } }
         if s.dev.mode = .halted then r = counted else Signals evLocked counted r) ∧ Drives .smbusNack r t)) ∧
    (s.dev.mode = .reset ∨ s.dev.mode = .fatal → ∀ c ∈ [Instr.tdpSet (.write v), .peakSet (.write v)],
      ∃ t, Answers c s t ∧ Drives .smbusNack s t)

/-- R365: while it drives ALERT# low, the part answers the SMBus Alert Response Address with its own address in bits
[7:1] (bit 0 is open), and the answer changes nothing; while ALERT# is high it does not answer. -/
def Obligations.AlertResponseAnswersWithTheAddress : Prop :=
  ∀ s : State, s.dev.mode ≠ .off →
    ((s.dev.events &&& s.dev.alertEn ≠ 0 ∨ s.dev.mode = .fatal) →
      ∃ t, ∃ b p : Byte, Answers .alertResponse s t ∧ b.extractLsb' 1 7 = s.dev.smbAddr ∧
        t = { s with outputs := s.outputs ++ [.smbus [b, p]], freeCtr := s.freeCtr + 1 }) ∧
    (s.dev.events &&& s.dev.alertEn = 0 → s.dev.mode ≠ .fatal → Answers .alertResponse s s)

/-- Every bit of an ASSIGN frame is read back as it was sent, and a frame with one wrong bit is told apart by its CRC-8
(Table 16.8). -/
def Obligations.ChainFramesCarryTheirFields : Prop :=
  ∀ number < 2 ^ 14, ∀ index < 2 ^ 8,
    let f := assignFrame number index
    frameOk f = true ∧ f.extractLsb' 0 4 = 1#4 ∧ f.extractLsb' 4 14 = BitVec.ofNat 14 number ∧
    f.extractLsb' 18 8 = BitVec.ofNat 8 index ∧ f.extractLsb' 26 6 = 0#6 ∧
    ∀ k < 40, frameOk (f ^^^ BitVec.ofNat 40 (2 ^ k)) = false

/-- A device latches a number and an index (R368 to R370): CHAIN is raised (not in the boot-halted state, R381), the
enabled ports that are DOWN start training where the part is up, and the ASSIGN of the next number goes out where there can
be a next device. -/
def Numbers (n : BitVec 14) (i : Byte) (s t : State) : Prop :=
  ∃ r q, (let latched : State := { s with dev := { s.dev with number := n, index := i, numValid := true } }
          if s.dev.mode = .halted then r = latched else Signals evChain latched r) ∧
    q = { r with lat := { r.lat with ports := q.lat.ports }, pwr := q.pwr } ∧
    (∀ p < 4, q.port p = if s.up = true ∧ s.lat.portEn.getLsbD p = true ∧ (s.port p).state = 0 then
      { state := 1, crcErrors := (s.port p).crcErrors, replays := (s.port p).replays, retrains := (s.port p).retrains }
      else s.port p) ∧
    (s.up = false ∨ s.lat.portEn = 0 → q = r) ∧
    (if i.toNat < 255 ∧ n.toNat < 0x3FFF then Drives (.chain (assignFrame (n.toNat + 1) (i.toNat + 1))) q t else t = q)

/-- R368, R370, R371: a head that has not latched numbers its segment at SET_BASE, at CHAIN_START, and 100 ms after the
release of PERST# without either: it latches its base, 0 without one, with INDEX 0, raises CHAIN, trains the ports that are
enabled and sends ASSIGN of the next number. While PERST# is asserted SET_BASE is only kept. SET_BASE is refused by a member
and by a head that has latched: its last byte is NACKed and nothing changes. CHAIN_START and the timeout are then ignored. -/
def Obligations.HeadNumbersItsSegment : Prop :=
  (∀ s : State, s.dev.mode ≠ .off → s.dev.mode ≠ .reset → s.dev.head = true → s.dev.numValid = false →
    let numbered (s t : State) (n : BitVec 14) : Prop := Numbers n 0 s t
    (∀ b : W16, ∃ t, Answers (.setBase b) s t ∧
      numbered { s with dev := { s.dev with base := some (b.extractLsb' 0 14) } } t (b.extractLsb' 0 14)) ∧
    (∃ t, Answers .chainStart s t ∧ numbered s t (s.dev.base.getD 0)) ∧
    (∃ t, Answers .chainBaseTimeout s t ∧ numbered s t (s.dev.base.getD 0))) ∧
  (∀ s : State, s.dev.mode = .reset → s.dev.head = true → s.dev.numValid = false →
    (∀ b : W16, ∃ t, Answers (.setBase b) s t ∧ t = { s with dev := { s.dev with base := some (b.extractLsb' 0 14) } }) ∧
    Answers .chainStart s s ∧ Answers .chainBaseTimeout s s) ∧
  (∀ s : State, s.dev.mode ≠ .off → s.dev.head = false ∨ s.dev.numValid = true →
    (∀ b : W16, ∃ t, Answers (.setBase b) s t ∧ Drives .smbusNack s t) ∧ Answers .chainStart s s ∧
    Answers .chainBaseTimeout s s)

/-- R368 to R370: what a device out of reset does with a frame on CHAIN_IN. A frame whose CRC fails is counted and raises
CHAIN; a head counts a good frame as foreign; a member ignores a reserved type, latches the first ASSIGN, trains the ports
that are enabled and passes on the next number, ignores the same number, and counts another one, sets CONFLICT and raises
CHAIN. CHAIN_REPEAT sends the ASSIGN again, where there can be a next device. In the boot-halted state nothing is raised
(R381), and while PERST# is asserted no frame is taken. -/
def Obligations.ChainFramesAreTakenAsR369Says : Prop :=
  ∀ (s : State) (f : BitVec 40),
    (s.dev.mode = .off ∨ s.dev.mode = .reset → Answers (.assign f) s s ∧ Answers .chainRepeat s s) ∧
    (s.dev.mode ≠ .off → s.dev.mode ≠ .reset →
    let n := f.extractLsb' 4 14
    let i := f.extractLsb' 18 8
    let foreign (s : State) : State := { s with dev := { s.dev with chainForeign := ctrAdd s.dev.chainForeign 1 } }
    let signals (s t : State) : Prop := if s.dev.mode = .halted then t = s else Signals evChain s t
    (frameOk f = false → ∃ t, Answers (.assign f) s t ∧
      signals { s with dev := { s.dev with chainCrc := ctrAdd s.dev.chainCrc 1 } } t) ∧
    (frameOk f = true → s.dev.head = true → ∃ t, Answers (.assign f) s t ∧ t = foreign s) ∧
    (frameOk f = true → s.dev.head = false → f.extractLsb' 0 4 ≠ 1#4 → Answers (.assign f) s s) ∧
    (frameOk f = true → s.dev.head = false → f.extractLsb' 0 4 = 1#4 → s.dev.numValid = false →
      ∃ t, Answers (.assign f) s t ∧ Numbers n i s t) ∧
    (frameOk f = true → s.dev.head = false → f.extractLsb' 0 4 = 1#4 → s.dev.numValid = true →
      (s.dev.number = n → Answers (.assign f) s s) ∧
      (s.dev.number ≠ n → ∃ t, Answers (.assign f) s t ∧
        signals { foreign s with dev := { (foreign s).dev with conflict := true } } t)) ∧
    (s.dev.numValid = true → s.dev.index.toNat < 255 → s.dev.number.toNat < 0x3FFF → ∃ t, Answers .chainRepeat s t ∧
      Drives (.chain (assignFrame (s.dev.number.toNat + 1) (s.dev.index.toNat + 1))) s t) ∧
    (s.dev.numValid = false ∨ s.dev.index.toNat = 255 ∨ s.dev.number.toNat = 0x3FFF → Answers .chainRepeat s s))

-- ## Register windows

/-- R8: an access that touches a register of a window that answers and is not exactly that register (narrower, wider or
misaligned) has no effect as a write and returns all ones as a read, sets the window's bit in WIN_ERR and raises
ACCESS_ERR. -/
def Obligations.WrongAccessesAreRefusedAndRaiseAccessErr : Prop :=
  ∀ (s : State) (off len w o r n v : Nat) (x : W64),
    s.dev.mode = .serving ∨ s.dev.mode = .booting → windowOf off = some (w, o) → regAt s w r = some (n, v) →
    0 < len → o < r + n → r < o + len → (o, len) ≠ (r, n) →
      let erred (s : State) : State :=
        { s with dev := { s.dev with winErr := s.dev.winErr ||| BitVec.ofNat 10 (2 ^ w) } }
      (∃ t, Answers (.registerWrite off len x) s t ∧ Signals evAccess (erred s) t) ∧
      (∃ t r, Answers (.accessErrRead off len) s t ∧ Signals evAccess (erred s) r ∧
        Drives (.busData (List.replicate len 0xFF)) r t)

/-- R9, R359, R360, R381: a read of a register's full width returns its value; an offset in no window reads 0 and ignores
writes; windows 8 and 9 ignore writes; after a fatal error and while boot is halted windows 1 to 9 read all ones and
ignore writes; nothing answers while PERST# is asserted. None of these is an access error. -/
def Obligations.ReadsReturnValuesAndDarkWindowsAreSilent : Prop :=
  ∀ (s : State) (off : Nat) (x : W64),
    (∀ n, s.dev.mode = .off ∨ s.dev.mode = .reset →
      Answers (.registerWrite off n x) s s ∧ Answers (.accessErrRead off n) s s) ∧
    (∀ w o n v, s.dev.mode = .serving ∨ s.dev.mode = .booting → windowOf off = some (w, o) → regAt s w o = some (n, v) →
      ∃ t, Answers (.accessErrRead off n) s t ∧ Drives (.busData (leBytes n v)) s t) ∧
    (∀ n, 0 < n → n ≤ 8 → windowOf off = none → s.dev.mode = .serving →
      Answers (.registerWrite off n x) s s ∧
      ∃ t, Answers (.accessErrRead off n) s t ∧ Drives (.busData (List.replicate n 0)) s t) ∧
    (s.dev.mode = .serving → 0x400000 ≤ off → off < 0x1000000 → off % 8 = 0 → Answers (.registerWrite off 8 x) s s) ∧
    (∀ w o n, 0 < n → windowOf off = some (w, o) → 1 ≤ w → s.dev.mode = .fatal ∨ s.dev.mode = .halted →
      Answers (.registerWrite off n x) s s ∧
      ∃ t, Answers (.accessErrRead off n) s t ∧ Drives (.busData (List.replicate n 0xFF)) s t)

/-- R9, Tables 2.4, 11.10, 12.7, 14.6, 15.10 and 16.6: writes by access code, one register of each kind in each window
that has writable ones. W1C clears the bits written 1; RW takes the written bits; reserved and RO bits do not move; a
closed lock ignores the write, counts it and raises LOCKED_WRITE. Each write moves only its register. -/
def Obligations.RegisterWritesFollowTheirAccessCodes : Prop :=
  ∀ (s : State) (v : W64), s.dev.mode = .serving →
    (∃ t, Answers (.registerWrite 0x10 4 v) s t ∧
      t = { s with dev := { s.dev with events := s.dev.events &&& ~~~(v.extractLsb' 0 14) } }) ∧
    (∃ t, Answers (.registerWrite 0x14 4 v) s t ∧ t = { s with dev := { s.dev with eventEn := v.extractLsb' 0 14 } }) ∧
    (∃ t, Answers (.registerWrite 0x20 4 v) s t ∧
      t = { s with dev := { s.dev with winErr := s.dev.winErr &&& ~~~(v.extractLsb' 0 10) } }) ∧
    (∃ t, Answers (.registerWrite 0x58 8 v) s t ∧ t = { s with dev := { s.dev with dbgBase := v.extractLsb' 31 7 } }) ∧
    Answers (.registerWrite 0x00 4 v) s s ∧
    (∃ t, Answers (.registerWrite 0x10004 4 v) s t ∧ t = { s with cmdw := { s.cmdw with pollUs := v.extractLsb' 0 16 } }) ∧
    (∃ t b, Answers (.registerWrite 0x10020 8 v) s t ∧ t = { s with cmdw := { s.cmdw with aqSqBase := b } } ∧
      b.extractLsb' 0 12 = 0#12 ∧ b.extractLsb' 12 40 = v.extractLsb' 12 40 ∧ b.extractLsb' 52 12 = 0#12) ∧
    (s.lat.topo.getLsbD 31 = false → ∃ t w, Answers (.registerWrite 0x20000 4 v) s t ∧
      t = { s with lat := { s.lat with topo := w } } ∧ w.extractLsb' 0 16 = v.extractLsb' 0 16 ∧
      w.extractLsb' 16 15 = 0#15 ∧ w.getLsbD 31 = v.getLsbD 31) ∧
    (s.lat.topo.getLsbD 31 = true → ∃ t, Answers (.registerWrite 0x20000 4 v) s t ∧ Signals evLocked
      { s with dev := { s.dev with locked := tset s.dev.locked 2 (ctrAdd (tget s.dev.locked 2 0) 1) } } t) ∧
    (∃ t, Answers (.registerWrite 0x40010 8 v) s t ∧ t = { s with pwr := { s.pwr with
      idleLowUs := v.extractLsb' 0 16, idleDrainUs := v.extractLsb' 16 16, idleDryMs := v.extractLsb' 32 16 } }) ∧
    (∀ d < 8, ∃ t, Answers (.registerWrite (0x50004 + 0x100 * d) 4 v) s t ∧
      t = { s with wells := tset s.wells d { s.well d with ceRetire := v.extractLsb' 0 8 } }) ∧
    (∀ g < 256, (∃ t, Answers (.registerWrite (0x100010 + 0x1000 * g) 4 v) s t ∧
        t = { s with cores := tset s.cores g { s.core g with err := (s.core g).err &&& ~~~(v.extractLsb' 0 8) } }) ∧
      (∃ t, Answers (.registerWrite (0x100020 + 0x1000 * g) 4 v) s t ∧
        t = { s with cores := tset s.cores g { s.core g with waitLimit := v.extractLsb' 0 32 } })) ∧
    (∀ c < 64, ∃ t, Answers (.registerWrite (0x200100 + 4 * c) 4 v) s t ∧
      t = { s with sched := { s.sched with shares := tset s.sched.shares c (v.extractLsb' 0 16) } })

/-- R48, R166, R267, R293, R351: the clearing commands zero exactly their counters: a core's ten performance counters or
the lateral counters, a client entry or all of them, and PEAK of every rail, which becomes its GRANTED. -/
def Obligations.ClearingCommandsZeroTheirCounters : Prop :=
  ∀ s : State, s.dev.mode = .serving →
    (∀ g, ∃ t, Answers (.clearAll (some g)) s t ∧ t = { s with perf := t.perf } ∧
      ∀ k, tget? t.perf k = if k / 16 = g then none else tget? s.perf k) ∧
    (∃ t, Answers (.clearAll none) s t ∧ t = { s with lat := { s.lat with
        ports := t.lat.ports, unroutable := 0, stale := 0, badType := 0, inboundDiscards := 0, shed := 0, holdExpiries := 0 } } ∧
      ∀ p, t.port p = { s.port p with crcErrors := 0, replays := 0, retrains := 0 }) ∧
    (∀ (tag : W16) (all : Bool), ∃ t, Answers (.clientClear tag all) s t ∧ t = { s with clients := t.clients } ∧
      ∀ k, tget? t.clients k = if all ∨ k = tag.toNat then none else tget? s.clients k) ∧
    (∃ t, Answers .clearPeak s t ∧ t = { s with pwr := { s.pwr with rails := t.pwr.rails } } ∧
      ∀ r, t.rail r = { s.rail r with peak := granted (s.rail r) })

/-- R262: enabling queue 0 opens it with the AQ fields, its counts at 0; disabling it, and writing the value it has,
leaves the queue as it is. -/
def Obligations.AqEnableOpensQueueZero : Prop :=
  ∀ s : State,
    (s.cmdw.aqEnable = false → ∃ t x, Answers (.aqEnable true) s t ∧
      t = { s with cmdw := { s.cmdw with aqEnable := true }, queues := tset s.queues 0 x } ∧
      x.opened = true ∧ x.error = false ∧ x.head = 0 ∧ x.tail = 0 ∧ x.cqProd = 0 ∧ x.cqCons = 0 ∧
      x.sqBase = s.cmdw.aqSqBase.toNat ∧ x.cqBase = s.cmdw.aqCqBase.toNat ∧ x.lineBase = s.cmdw.aqLineBase.toNat ∧
      x.notify = s.cmdw.aqNotify.toNat ∧ 4 ≤ x.sqLog ∧ x.sqLog ≤ 16 ∧ 4 ≤ x.cqLog ∧ x.cqLog ≤ 16) ∧
    (s.cmdw.aqEnable = true → ∃ t, Answers (.aqEnable false) s t ∧
      t = { s with cmdw := { s.cmdw with aqEnable := false } }) ∧
    Answers (.aqEnable s.cmdw.aqEnable) s s

/-- R364: unmasking an MSI-X vector sends the message that was pending on it, and only then; a vector that is unmasked
already, or is not there, changes nothing. -/
def Obligations.UnmaskingSendsThePendingMessage : Prop :=
  ∀ (s : State) (v : Nat), s.dev.mode = .serving →
    (v < 1071 → v ∉ s.dev.unmasked → ∃ t, Answers (.msixUnmask v) s t ∧
      t = { s with
        dev := { s.dev with unmasked := s.dev.unmasked ++ [v], pendingMsix := s.dev.pendingMsix.filter (· != v) }
        outputs := if v ∈ s.dev.pendingMsix then s.outputs ++ [.msix v] else s.outputs }) ∧
    (v ∈ s.dev.unmasked ∨ 1071 ≤ v → Answers (.msixUnmask v) s s)

/-- R142, R143, R149, R166, R370: PORT_EN takes the mask; of a device that has a number, a port whose bit is set from clear
and that is DOWN starts training, and its domain is at flowing or waking; a port whose bit is unchanged keeps its state;
without a number no port trains. A mask that clears no bit moves nothing else. A port whose bit is cleared goes DOWN and its
domain dry, which is stated where no lateral group is active, since a group that loses a route aborts. -/
def Obligations.PortEnableStartsTraining : Prop :=
  ∀ (s : State) (m : BitVec 4), s.dev.mode = .serving → s.lat.portEn &&& ~~~m = 0 ∨ s.lat.groups = [] →
    ∃ t, Answers (.portEn m) s t ∧ t.lat.portEn = m ∧
      (s.lat.portEn &&& ~~~m = 0 →
        t = { s with lat := { s.lat with portEn := m, ports := t.lat.ports }, pwr := t.pwr }) ∧
      (s.lat.groups = [] →
        t = { s with lat := t.lat, pwr := t.pwr, dev := t.dev, outputs := t.outputs } ∧
        ∀ p < 4, m.getLsbD p = false → s.lat.portEn.getLsbD p = true →
          (t.port p).state = 0 ∧ ((s.port p).state ≠ 0 → (t.port p).outq = []) ∧ (t.dom (42 + p)).state = 4 ∧ (t.dom (42 + p)).waking = 0) ∧
      ∀ p < 4,
        (s.dev.numValid = true → m.getLsbD p = true → s.lat.portEn.getLsbD p = false → (s.port p).state = 0 →
          (t.port p).state = 1 ∧ ((t.dom (42 + p)).state = 0 ∨ (t.dom (42 + p)).waking ≠ 0)) ∧
        (s.lat.portEn &&& ~~~m = 0 → m.getLsbD p = s.lat.portEn.getLsbD p ∨ s.dev.numValid = false → t.port p = s.port p)

-- ## Wells, the HDM decoder and the debug aperture

/-- R301, R303: the patrol of an in-service well reads its next granule and goes on, and back to granule 0 with
PATROL_PASSES counted after the last. A good granule changes nothing else (the well is accessed, so the power manager's
state may move). One wrong symbol is corrected, counted for the well and the page, and raises CORRECTED; two poison the
granule, are counted, and mark the page for retirement. A withdrawn page meets nothing. No other granule is read, and none of
a well that is not in service. -/
def Obligations.PatrolReadsTheNextGranule : Prop :=
  ∀ (s : State) (d k : Nat), s.dev.mode = .serving → s.dieIn d = true → (s.well d).state = 1 → (s.well d).patrol = k →
    k < 2 ^ 29 →
    let w := d * 2 ^ 29 + k
    let moved (x : Well) : Well :=
      { x with patrol := if k + 1 = 2 ^ 29 then 0 else k + 1
               patrolPasses := if k + 1 = 2 ^ 29 then ctrAdd x.patrolPasses 1 else x.patrolPasses }
    ∃ t, Answers (.patrolScrub d k) s t ∧
      ((withdrawnAt s (w * 64) = true ∨ (w ∉ s.upsets.wellSingle ∧ w ∉ s.upsets.wellDouble)) →
        t = { s with wells := tset s.wells d (moved (s.well d)), pwr := t.pwr }) ∧
      (withdrawnAt s (w * 64) = false → w ∈ s.upsets.wellSingle → w ∉ s.upsets.wellDouble →
        Signals evCorrected { s with
          upsets := { s.upsets with wellSingle := s.upsets.wellSingle.filter (· != w) }
          wells := tset s.wells d (moved { s.well d with
            ce := ctrAdd (s.well d).ce 1
            pageCe := tset (s.well d).pageCe (w / 1024) (tget (s.well d).pageCe (w / 1024) 0 + 1) })
          pwr := t.pwr } t) ∧
      (withdrawnAt s (w * 64) = false → w ∈ s.upsets.wellDouble →
        w ∈ t.wellPoison ∧ w ∉ t.upsets.wellDouble ∧ (t.well d).ue = ctrAdd (s.well d).ue 1 ∧
        w / 1024 ∈ (t.well d).uePages ∧ t.dev = s.dev ∧ t.wellMem = s.wellMem ∧
        t = { s with wells := t.wells, upsets := t.upsets, wellPoison := t.wellPoison, pwr := t.pwr }) ∧
      (∀ j, j ≠ k → Answers (.patrolScrub d j) s s) ∧ ∀ e, s.dieIn e = false ∨ (s.well e).state ≠ 1 → Answers (.patrolScrub e k) s s

/-- R304, R305, R387: a page that is due is retired: to a spare while the well has one (SPARES falls, RETIRED counts, the
page stays in use), else it is withdrawn (WITHDRAWN counts). Either way the retirement is logged, in the well and, while
it has room, in the flash; the page's error counts start again, and it is one device recovery. The contents of wells,
cisterns and accumulators stand. A page of the map region that would be withdrawn takes its die with it. A page that is not
due, or of a die that is out of service, stays. -/
def Obligations.PageRetirementTakesASpareOrWithdraws : Prop :=
  ∀ (s : State) (page : Nat), s.dev.mode = .serving →
    let d := page / 2 ^ 19
    (s.dieIn d = false ∨ retireDue (s.well d) page = false → Answers (.pageRetire page) s s) ∧
    (s.dieIn d = true → retireDue (s.well d) page = true → (s.well d).spares = 0 → inMapRegion (page * 65536) = true →
      ∃ t, Answers (.pageRetire page) s t ∧ Answers (.dieQuarantine d) s t) ∧
    (s.dieIn d = true → retireDue (s.well d) page = true → (s.well d).spares ≠ 0 ∨ inMapRegion (page * 65536) = false →
    let wd : Bool := (s.well d).spares == 0
    let ue : Bool := (s.well d).uePages.contains page
    ∃ t, Answers (.pageRetire page) s t ∧
      (wd = false → (t.well d).spares = (s.well d).spares - 1 ∧ (t.well d).retired = ctrAdd (s.well d).retired 1 ∧
        (t.well d).withdrawn = (s.well d).withdrawn) ∧
      (wd = true → (t.well d).spares = 0 ∧ (t.well d).withdrawn = (s.well d).withdrawn ++ [page] ∧
        (t.well d).withdrawnCount = ctrAdd (s.well d).withdrawnCount 1 ∧ (t.well d).retired = (s.well d).retired) ∧
      (t.well d).log.head? = some (page, ue, wd) ∧ (t.well d).log.length ≤ 16 ∧
      page ∉ (t.well d).uePages ∧ tget? (t.well d).pageCe page = none ∧
      t.dev.flash.retired = (if s.dev.flash.retired.length < 4096 then s.dev.flash.retired ++
        [retireRecord s.dev.flash.retired.length page ue wd] else s.dev.flash.retired) ∧
      t.dev.recoveries = min (s.dev.recoveries + 1) (2 ^ 32 - 1) ∧ t.dev.events.getLsbD evRecovery = true ∧
      t.wellMem = s.wellMem ∧ t.cis = s.cis ∧ t.acc = s.acc ∧ t.ctxs = s.ctxs ∧ t.cores = s.cores)

/-- R316, R356: HDM_COMMIT. A base or size that is not a multiple of 256 MiB, or more than 64 GiB, sets
error-not-committed and nothing else. Otherwise the decoder is committed and only it changes: a disabled range keeps its
register; an enabled one reads STATUS 0x11 and is not in the window, or is in the window with STATUS 0, or with STATUS
0x61 and parked where its die is out of service. A decoder committed with lock-on-commit ignores it. -/
def Obligations.HdmCommitLatchesTheRanges : Prop :=
  ∀ (s : State) (base size : Nat) (lock : Bool), s.dev.mode = .serving →
    (s.hdm.committed = true → s.hdm.locked = true → Answers (.hdmCommit base size lock) s s) ∧
    ((s.hdm.committed = false ∨ s.hdm.locked = false) →
      ((base % 2 ^ 28 ≠ 0 ∨ size % 2 ^ 28 ≠ 0 ∨ 2 ^ 36 < size) → ∃ t, Answers (.hdmCommit base size lock) s t ∧
        t = { s with hdm := { s.hdm with errorNotCommitted := true } }) ∧
      (base % 2 ^ 28 = 0 → size % 2 ^ 28 = 0 → size ≤ 2 ^ 36 → ∃ t, Answers (.hdmCommit base size lock) s t ∧
        t = { s with hdm := { s.hdm with ranges := t.hdm.ranges, window := t.hdm.window, committed := true, decBase := base
                                         decSize := size, errorNotCommitted := false, locked := lock } } ∧
        (t.hdm.window.foldl (fun n e => n + e.2.2) 0 ≤ 2 ^ 36) ∧
        ∀ i < 8,
          let v := hdmReg s i
          let v' := hdmReg t i
          v'.extractLsb' 16 48 = v.extractLsb' 16 48 ∧ v'.getLsbD 0 = v.getLsbD 0 ∧
          (v.getLsbD 0 = false → v' = v ∧ ∀ e ∈ t.hdm.window, e.1 ≠ i) ∧
          (v.getLsbD 0 = true → (∀ e ∈ t.hdm.window, e.1 ≠ i) → v'.extractLsb' 8 8 = 0x11#8) ∧
          (v.getLsbD 0 = true → ∀ e ∈ t.hdm.window, e.1 = i →
            e.2.1 = hdmWell v * 2 ^ 35 + hdmBase v * 2 ^ 28 ∧ e.2.2 = hdmSize v * 2 ^ 28 ∧ 0 < hdmSize v ∧
            v'.extractLsb' 8 8 = (if s.dieIn (hdmWell v) then 0#8 else 0x61#8) ∧
            (s.dieIn (hdmWell v) = false → v'.getLsbD 1 = true))))

/-- R317, R356: HDM_PARK writes one bit of one range's register, at once; there are 8 ranges. -/
def Obligations.HdmParkWritesThePark : Prop :=
  ∀ (s : State) (i : Nat) (park : Bool), s.dev.mode = .serving → (8 ≤ i → Answers (.hdmPark i park) s s) ∧ (i < 8 →
    ∃ t, Answers (.hdmPark i park) s t ∧ t = { s with hdm := { s.hdm with ranges := t.hdm.ranges }, pwr := t.pwr } ∧
      (hdmReg t i).getLsbD 1 = park ∧ (∀ k < 64, k ≠ 1 → (hdmReg t i).getLsbD k = (hdmReg s i).getLsbD k) ∧
      ∀ j, j ≠ i → hdmReg t j = hdmReg s j)

/-- R302, R305, R317, R318, R356: one line of CXL.mem. A read of an unparked range on a die in service is answered with its
bytes: with the well's, and without the poison indication, where no symbol is wrong and nothing is poisoned; with it where
the line is poisoned. A write stores its bytes and nothing else in well space, unless its page is withdrawn, and is
acknowledged; a parked range or a die out of service reads all ones with the
poison indication, and a write there is dropped, counted and acknowledged; an address the decoder does not claim is not
the part's. An access over several lines is its lines' accesses in order. -/
def Obligations.HostMemoryAccessesReachTheWindow : Prop :=
  (∀ (s : State) (a n : Nat) (data : List Byte), s.dev.mode = .serving → 0 < n → a % 64 + n ≤ 64 → data.length = n →
    (hdmHit s a = false → Answers (.hostMemRead a n) s s ∧ Answers (.hostMemWrite a data) s s) ∧
    (hdmHit s a = true → hdmTarget s (a - s.hdm.decBase) = none →
      (∃ t, Answers (.hostMemRead a n) s t ∧ Drives (.memData (List.replicate n 0xFF) true) s t) ∧
      (∃ t, Answers (.hostMemWrite a data) s t ∧
        Drives .memAck { s with hdm := { s.hdm with parkedWrites := ctrAdd s.hdm.parkedWrites 1 } } t)) ∧
    (∀ p, hdmHit s a = true → hdmTarget s (a - s.hdm.decBase) = some p → p % 64 = a % 64 →
      (p / 64 ∉ s.upsets.wellSingle → p / 64 ∉ s.upsets.wellDouble → wellPoisoned s p n = false →
        ∃ t, Answers (.hostMemRead a n) s t ∧
          t = { s with outputs := s.outputs ++ [.memData (wellRead s p n) false], pwr := t.pwr }) ∧
      (∃ t bs poison, Answers (.hostMemRead a n) s t ∧ t.outputs.getLast? = some (.memData bs poison) ∧ bs.length = n ∧
        (wellPoisoned s p n = true → poison = true)) ∧
      (MemoriesOk s → withdrawnAt s p = false → ∃ t, Answers (.hostMemWrite a data) s t ∧
        t = { s with wellMem := t.wellMem, wellPoison := t.wellPoison, upsets := t.upsets, pwr := t.pwr
                     outputs := s.outputs ++ [.memAck] } ∧
        StoredAt p data s.wellMem t.wellMem ∧ (n = 64 → p / 64 ∉ t.wellPoison)) ∧
      (withdrawnAt s p = true → ∃ t, Answers (.hostMemWrite a data) s t ∧ t.wellMem = s.wellMem ∧
        (t.well (p / 2 ^ 35)).withdrawnWrites = ctrAdd (s.well (p / 2 ^ 35)).withdrawnWrites 1 ∧
        t.outputs = s.outputs ++ [.memAck]))) ∧
  (∀ (s : State) (a n m : Nat) (x y : List Byte), (a + n) % 64 = 0 → x.length = n → 0 < n → 0 < m → y.length = m →
    (∀ r t, Answers (.hostMemRead a n) s r → Answers (.hostMemRead (a + n) m) r t → Answers (.hostMemRead a (n + m)) s t) ∧
    (∀ r t, Answers (.hostMemWrite a x) s r → Answers (.hostMemWrite (a + n) y) r t →
      Answers (.hostMemWrite a (x ++ y)) s t))

/-- R27, R305, R361: one piece of the debug aperture, which lies in one line. Offsets below 2 GiB are cistern space, offsets
from there to 4 GiB the 2 GiB of well space at DBG_WELL_BASE. A read of cistern bytes inside a core's regions, or of well
bytes, delivers them where nothing is wrong or poisoned, and all ones where the range is poisoned; a write stores exactly its
bytes. Outside every region a read gives all ones and a write is discarded, with INBOUND_BAD set on the core; a write into
the page-map region, or a withdrawn page, is discarded; on a die out of service, and beyond the package, a read gives all
ones and a write does nothing. Every read is answered with as many bytes as it asks for. -/
def Obligations.DebugApertureReachesCisternAndWell : Prop :=
  ∀ (s : State) (o n : Nat) (data : List Byte), s.dev.mode = .serving → 0 < n → o % 64 + n ≤ 64 → data.length = n →
    (∃ t b, Answers (.debugRead o n) s t ∧ t.outputs.getLast? = some (.busData b) ∧ b.length = n) ∧
    ((2 ^ 32 ≤ o ∨ ∃ ad, debugTarget s o = some ad ∧ s.dieIn (debugDie ad) = false) →
      (∃ t, Answers (.debugRead o n) s t ∧ Drives (.busData (List.replicate n 0xFF)) s t) ∧
      Answers (.debugWrite o data) s s) ∧
    (o < 2 ^ 31 → s.dieIn (dieOfCore (csCore o)) = true →
      (csAllowed s o n = true → (∀ w ∈ unitsOf 32 o n, w ∉ s.upsets.cisSingle ∧ w ∉ s.upsets.cisDouble) →
        cisPoisoned s o n = false → ∃ t, Answers (.debugRead o n) s t ∧
          t = { s with outputs := s.outputs ++ [.busData (mread s.cis o n)], perf := t.perf, pwr := t.pwr }) ∧
      (csAllowed s o n = true → cisPoisoned s o n = true → ∃ t, Answers (.debugRead o n) s t ∧
        t.outputs.getLast? = some (.busData (List.replicate n 0xFF)) ∧ t.cis = s.cis) ∧
      (MemoriesOk s → csAllowed s o n = true → ∃ t, Answers (.debugWrite o data) s t ∧
        t = { s with cis := t.cis, cisPoison := t.cisPoison, upsets := t.upsets, perf := t.perf, pwr := t.pwr } ∧
        StoredAt o data s.cis t.cis) ∧
      (csAllowed s o n = false →
        (∃ t, Answers (.debugRead o n) s t ∧ (t.core (csCore o)).err.getLsbD 7 = true ∧
          t = { s with outputs := s.outputs ++ [.busData (List.replicate n 0xFF)], cores := t.cores, pwr := t.pwr }) ∧
        (∃ t, Answers (.debugWrite o data) s t ∧ (t.core (csCore o)).err.getLsbD 7 = true ∧
          t = { s with cores := t.cores, pwr := t.pwr }))) ∧
    (2 ^ 31 ≤ o → o < 2 ^ 32 →
      let p := s.dev.dbgBase.toNat * 2 ^ 31 + (o - 2 ^ 31)
      s.dieIn (wellOf p) = true →
      (p / 64 ∉ s.upsets.wellSingle → p / 64 ∉ s.upsets.wellDouble → wellPoisoned s p n = false →
        ∃ t, Answers (.debugRead o n) s t ∧
          t = { s with outputs := s.outputs ++ [.busData (wellRead s p n)], pwr := t.pwr }) ∧
      (wellPoisoned s p n = true → ∃ t, Answers (.debugRead o n) s t ∧
        t.outputs.getLast? = some (.busData (List.replicate n 0xFF)) ∧ t.wellMem = s.wellMem) ∧
      (inMapRegion p = false → withdrawnAt s p = true → ∃ t, Answers (.debugWrite o data) s t ∧ t.wellMem = s.wellMem ∧
        (t.well (p / 2 ^ 35)).withdrawnWrites = ctrAdd (s.well (p / 2 ^ 35)).withdrawnWrites 1) ∧
      (inMapRegion p = true → Answers (.debugWrite o data) s s) ∧
      (MemoriesOk s → inMapRegion p = false → withdrawnAt s p = false → ∃ t, Answers (.debugWrite o data) s t ∧
        t = { s with wellMem := t.wellMem, wellPoison := t.wellPoison, upsets := t.upsets, pwr := t.pwr } ∧
        StoredAt p data s.wellMem t.wellMem))

/-- R355: a write that the host refuses raises HOST_WRITE_FAIL; a refused completion write also puts its queue into
ERROR, raises QUEUE_ERR and discards the records of the commands already fetched. -/
def Obligations.RefusedHostWritesStopTheQueue : Prop :=
  ∀ (s : State) (q : Nat), s.dev.mode = .serving →
    (∃ t, Answers (.hostWriteFail .other q) s t ∧ Signals evHostWrite s t) ∧
    (∀ x, s.queue? q = some x → x.opened = true → ∃ r t, Answers (.hostWriteFail .completion q) s t ∧
      Signals evHostWrite s r ∧
      Signals evQueue { r with queues := tset r.queues q { x with error := true, discards := true } } t) ∧
    ((∀ x, s.queue? q = some x → x.opened = false) → ∃ t, Answers (.hostWriteFail .completion q) s t ∧
      Signals evHostWrite s t)

-- ## Power-up, PERST# and boot

/-- What PERST# leaves (R10, R353, R374, R409): every register at its reset value but for the fuses, the SPI flash, the
latched straps and the always-on clock source; what lies in the wells and outside the part stays, but for the bytes that a
COPY, FILL, SCRUB or CTX_SAVE under way may have written (R312). A pulse below 1 µs does nothing. An index-log program that it
cuts off is torn (R233). HOT_RESET is an assertion and a release. -/
def Obligations.PerstResetsTheMachine : Prop :=
  ∀ (s : State) (ns : Nat),
    (ns < 1000 ∨ s.dev.mode = .off → Answers (.perstAssert ns) s s) ∧
    (1000 ≤ ns → s.dev.mode ≠ .off → ∃ t r, Answers (.perstAssert ns) s t ∧
      ((∀ c ∈ s.inflight, c.inPlace = false) → r = s) ∧ r.pending = s.pending ∧
      t = { State.reset with
        pending := s.pending, outputs := r.outputs, freeCtr := r.freeCtr, host := r.host, hostPoison := r.hostPoison
        wellMem := r.wellMem, wellPoison := r.wellPoison, upsets := t.upsets
        pwr := { State.reset.pwr with slowSrc := s.pwr.slowSrc }
        dev := { State.reset.dev with
          fuses := s.dev.fuses, flash := s.dev.flash, compatOrd := s.dev.compatOrd, head := s.dev.head
          bootSrc := s.dev.bootSrc, torn := s.prov.pendingChunk.or s.dev.torn, strapsOpen := decide (ns < 100000) } } ∧
      t.dev.mode = .reset ∧
      t.upsets = { wellSingle := r.upsets.wellSingle, wellDouble := r.upsets.wellDouble }) ∧
    (∀ (env : BootEnv), s.dev.mode = .off ∨ s.dev.mode = .reset → Answers (.hotReset env) s s) ∧
    (∀ (env : BootEnv), s.dev.mode ≠ .off → s.dev.mode ≠ .reset →
      ∃ r t, Answers (.perstAssert 100000) s r ∧ Answers (.perstRelease env) r t ∧ Answers (.hotReset env) s t)

/-- R376, R377, R379, R380, R381: the release of PERST# with the straps latched. With no slot that passes, the part is
halted and nothing else but the straps and the cycle count moves. Else it boots the first slot that passes, in the order
of BOOT_SRC, and measures it; every die that fails is out of service, and none where all pass. That is stated of a part as
PERST# leaves it, without contexts, commands or queues, and with no base to number from. Whatever the straps and the base,
the part then boots or is halted; a part whose PERST# is not asserted stays as it is. -/
def Obligations.ReleaseBootsTheFirstGoodSlot : Prop :=
  (∀ (s : State) (env : BootEnv), (s.dev.mode ≠ .reset → Answers (.perstRelease env) s s) ∧
    (s.dev.mode = .reset → s.ctxs = [] → s.inflight = [] → s.queues = [] → ∃ t, Answers (.perstRelease env) s t ∧
      (t.dev.mode = .booting ∨ t.dev.mode = .halted) ∧ t.dev.fuses = s.dev.fuses ∧ t.dev.strapsOpen = false ∧ t.host = s.host ∧
      t.wellMem = s.wellMem)) ∧
  ∀ (s : State) (env : BootEnv) (v : W16), s.dev.mode = .reset → s.dev.strapsOpen = false → env.straps = some v →
    s.ctxs = [] → s.inflight = [] → s.queues = [] → s.dev.base = none →
    let order := slotOrder (v.extractLsb' 2 2) env
    let straps (d : Device) : Device :=
      { d with compatOrd := v.getLsbD 0, head := v.getLsbD 1, bootSrc := v.extractLsb' 2 2 }
    ((∀ x ∈ order, slotOk s.dev.fuses x.2 = false) → ∃ t, Answers (.perstRelease env) s t ∧
      t = { s with hubCycle := 0, dev := { straps s.dev with mode := .halted } }) ∧
    (∀ i x, order[i]? = some x → slotOk s.dev.fuses x.2 = true → (∀ j y, j < i → order[j]? = some y →
        slotOk s.dev.fuses y.2 = false) →
      ∃ t, Answers (.perstRelease env) s t ∧ t.dev.mode = .booting ∧ t.dev.ready = s.dev.ready ∧ t.hubCycle = 0 ∧
        t.dev.slotB = x.1 ∧ t.dev.fallback = decide (i ≠ 0) ∧ t.dev.pyornHash = sha256 x.2.signed ∧
        t.dev.logDigest = logDigestOf s.dev.fuses (sha256 x.2.signed) ∧ t.dev.pyornSvn = field x.2.header 12 1 ∧
        t.dev.fuses = s.dev.fuses ∧ t.dev.head = v.getLsbD 1 ∧ t.wellMem = s.wellMem ∧ t.host = s.host ∧
        (∀ d < 8, t.dieIn d = true → env.dieOk.getD d false = true) ∧
        ((∀ d < 8, env.dieOk.getD d false = true) → t.dev.dies = 0xFF))

/-- R378, R379: READY brings the part into service; after it Pyorn sets MIN_SVN to the SVN of an image that asks for it,
and leaves it alone otherwise. -/
def Obligations.ReadyThenMinSvnRises : Prop :=
  ∀ s : State,
    (s.dev.mode = .booting → ∃ t, Answers .bootReady s t ∧ t = { s with dev := { s.dev with mode := .serving, ready := true } }) ∧
    (s.dev.mode ≠ .booting → Answers .bootReady s s) ∧
    (s.dev.mode = .serving → s.dev.commitSvn = true → s.dev.fuses.minSvn < s.dev.pyornSvn → ∃ t, Answers .minSvnCommit s t ∧
      t = { s with dev := { s.dev with fuses := { s.dev.fuses with minSvn := s.dev.pyornSvn } } }) ∧
    ((s.dev.commitSvn = false ∨ s.dev.pyornSvn ≤ s.dev.fuses.minSvn) → Answers .minSvnCommit s s)

/-- R378, R404, R405, R411: power-up starts the always-on domain on its RC oscillator with PERST# asserted; a loss of
power loses every volatile content and keeps the flash and the fuses, but that MIN_SVN may stand anywhere between its
value and the SVN of an image whose commit was under way. What lies outside the part stays, but for bytes that a transfer
under way may have written (R312). Power that is there is not lost twice, nor comes twice. -/
def Obligations.PowerLossKeepsOnlyFlashAndFuses : Prop :=
  ∀ s : State, (s.dev.mode ≠ .off → Answers .powerUp s s) ∧ (s.dev.mode = .off → Answers .powerLoss s s) ∧
    (s.dev.mode = .off → ∃ t, Answers .powerUp s t ∧
      t = { s with dev := { s.dev with mode := .reset }, pwr := { s.pwr with slowSrc := true } }) ∧
    (s.dev.mode ≠ .off → ∃ t, Answers .powerLoss s t ∧
      t = { State.reset with
        pending := s.pending, outputs := t.outputs, freeCtr := t.freeCtr, host := t.host, hostPoison := t.hostPoison
        dev := t.dev } ∧
      ((∀ c ∈ s.inflight, c.inPlace = false) → t.host = s.host ∧ t.hostPoison = s.hostPoison ∧ t.outputs = s.outputs) ∧
      t.dev.mode = .off ∧ t.dev.flash = s.dev.flash ∧ t.dev.ready = false ∧ t.dev.numValid = false ∧
      t.dev.fuses = { s.dev.fuses with minSvn := t.dev.fuses.minSvn } ∧ s.dev.fuses.minSvn ≤ t.dev.fuses.minSvn ∧
      (t.dev.fuses.minSvn ≠ s.dev.fuses.minSvn → t.dev.fuses.minSvn ≤ s.dev.pyornSvn))

-- ## Fatal errors, recoveries and internal links

/-- R312, R342, R385, R386, R406: a watchdog expiry, an uncorrectable fault in H and a low VDD_H are fatal with cause 1, a
lost REFCLK with cause 2: no command is in flight any more, no core runs, no record is written, and FATAL is raised; transfers
under way stop part way, and nothing else moves where there is none. A part that is not up stays as it is. -/
def Obligations.FatalErrorsStopEveryCommand : Prop :=
  ∀ s : State, ∀ c ∈ [(Instr.watchdogExpiry, 1#4), (.fatalError, 1#4), (.vddHLow, 1#4), (.refclkLoss, 2#4)],
    (s.dev.mode = .serving ∨ s.dev.mode = .booting → ∃ t r, Answers c.1 s t ∧
      ((∀ d ∈ s.inflight, d.inPlace = false) → r = s) ∧ r.queues = s.queues ∧ r.loops = s.loops ∧ r.streams = s.streams ∧
      Signals evFatal { r with
        dev := { r.dev with mode := .fatal, fatalCause := c.2 }, inflight := [], siphon := [], cores := t.cores } t ∧
      ∀ g, (t.core g).running = none ∧ (t.core g).wideHolder = 0 ∧ (t.core g).regions = (r.core g).regions) ∧
    (s.dev.mode ≠ .serving → s.dev.mode ≠ .booting → Answers c.1 s s)

/-- The dies that a quarantine of die d takes out of service: itself and those outside the arc that R391 keeps. -/
def Leaving (s : State) (d : Nat) : List Nat :=
  d :: (dieList s.dev.dies).filter (fun e => e != d && !(diesAfter s.dev.dies d).getLsbD e)

/-- Commands that a quarantine of die d runs again: those that involve a die that leaves and whose context is not torn down
(R389). -/
def RunAgain (s : State) (d : Nat) (torn : List Nat) : List Nat :=
  (s.inflight.filter (fun c => (Leaving s d).any (fun e => involves s e c) &&
    (isDevice c.opcode || !torn.contains c.ctx))).map (fun c => c.uid)

/-- R19, R157, R389, R391, R406: a die leaves service, at a quarantine or when its rail dips, as one device recovery that
raises DIE_LOST: each die that leaves is out of DIES, its well is quarantined, its domains are dry and its cistern bytes gone,
and no die comes back. Each context with state on a die that leaves is then torn down, and each other command that involves
one runs again; where there is neither, no context, command, queue or host byte moves. A die that is out of service stays. -/
def Obligations.QuarantineTakesTheDieOut : Prop :=
  ∀ (s : State) (d : Nat), s.dev.mode = .serving → ∀ c ∈ [Instr.dieQuarantine d, .vddCLow d],
    (s.dieIn d = false → Answers c s s) ∧
    (s.dieIn d = true →
      let torn := contextsWhere s (fun c => (Leaving s d).any (fun e => stateOnDie s e c))
      let again := RunAgain s d torn
      ∃ r t, Answers c s t ∧
        (∀ e ∈ Leaving s d, r.dieIn e = false ∧ (r.well e).state = 2 ∧ (∀ n ∈ domainsOf e, (r.dom n).state = 4) ∧
          (∀ a, dieOfCore (csCore a) = e → a < 2 ^ 31 → mget r.cis a = 0) ∧ r.dev.lost.getLsbD e = true) ∧
        (∀ e, r.dieIn e = true → s.dieIn e = true) ∧ r.dev.events.getLsbD evDieLost = true ∧
        r.dev.recoveries = min (s.dev.recoveries + 1) (2 ^ 32 - 1) ∧ r.ctxs = s.ctxs ∧ r.wellMem = s.wellMem ∧
        r.valves = s.valves ∧ r.inflight.map (fun d => d.uid) = s.inflight.map (fun d => d.uid) ∧
        t = calSettle (again.foldl (fun s u => runAgain u s) ((torn.map (fun k =>
          (k, ((Leaving s d).find? (fun e => stateOnDie s e k)).getD d))).foldl (fun s p => teardown p.1 stDieLost p.2 s)
            (settleHeld torn r))) ∧
        (torn = [] → again = [] → t.dev.dies = r.dev.dies ∧ t.ctxs = s.ctxs ∧ t.inflight = s.inflight ∧
          t.queues = s.queues ∧ t.host = s.host ∧ t.cores = r.cores ∧ t.cis = r.cis))

/-- R391, R406: a supply fault of the wells quarantines the dies that carry them, one after another; quarantining a die
that is out of service changes nothing. -/
def Obligations.WellSupplyFaultQuarantinesItsDies : Prop :=
  ∀ (s : State) (d : Nat) (ds : List Nat),
    Answers (.wellSupplyFault []) s s ∧
    (∀ r t, Answers (.dieQuarantine d) s r → Answers (.wellSupplyFault ds) r t → Answers (.wellSupplyFault (d :: ds)) s t) ∧
    (∃ r t, Answers (.dieQuarantine d) s r ∧ Answers (.wellSupplyFault ds) r t) ∧
    (s.dieIn d = false → Answers (.dieQuarantine d) s s)

/-- R12, R322, R373, R387, R388: a replay on an internal link corrects and raises CORRECTED; a retrain raises CORRECTED and is
a device recovery, after which each command with a transaction outstanding on the link runs again; when it is done the link
carries traffic again, or after a first and a second failure keeps retraining, and after the third the die at its far end is
quarantined. A link with an end out of service, or that already retrains, or whose retraining is not under way, stays as it
is. The CXL link's retraining changes nothing; entering L1 takes the CXL domain to low, and leaving it wakes it. -/
def Obligations.InternalLinksRetrainThenGiveUp : Prop :=
  (∀ (s : State) (l : LinkRef), s.dev.mode = .serving →
    (linkIn s l = true → ∃ t, Answers (.internalLinkReplay l) s t ∧ Signals evCorrected s t) ∧
    (linkIn s l = false → Answers (.internalLinkReplay l) s s ∧ Answers (.internalLinkRetrain l) s s) ∧
    (∀ n, tget? s.dev.links (linkKey l) = some n → Answers (.internalLinkRetrain l) s s) ∧
    (linkIn s l = true → tget? s.dev.links (linkKey l) = none →
      let cs := s.inflight.filter (onLink s l)
      ∃ r t, Answers (.internalLinkRetrain l) s t ∧ tget? r.dev.links (linkKey l) = some 0 ∧
        r.dev.events.getLsbD evCorrected = true ∧ r.dev.events.getLsbD evRecovery = true ∧
        r.dev.recoveries = min (s.dev.recoveries + 1) (2 ^ 32 - 1) ∧ r.ctxs = s.ctxs ∧ r.wellMem = s.wellMem ∧
        r.cis = s.cis ∧ r.cores = s.cores ∧ r.inflight.map (fun d => d.uid) = s.inflight.map (fun d => d.uid) ∧
        (cs = [] → r = { s with dev := r.dev, outputs := r.outputs }) ∧
        t = cs.foldl (fun s c => runAgain c.uid s) r) ∧
    (tget? s.dev.links (linkKey l) = none → ∀ ok, Answers (.internalLinkRetrainDone l ok) s s) ∧
    (∀ n, tget? s.dev.links (linkKey l) = some n →
      (∃ t, Answers (.internalLinkRetrainDone l true) s t ∧
        t = { s with dev := { s.dev with links := tdel s.dev.links (linkKey l) } }) ∧
      (n + 1 < 3 → ∃ t, Answers (.internalLinkRetrainDone l false) s t ∧
        t = { s with dev := { s.dev with links := tset s.dev.links (linkKey l) (n + 1) } }) ∧
      (2 ≤ n → ∃ t, Answers (.internalLinkRetrainDone l false) s t ∧
        Answers (.dieQuarantine (farDie l)) { s with dev := { s.dev with links := tdel s.dev.links (linkKey l) } } t))) ∧
  (∀ s : State, Answers .cxlLinkRetrain s s ∧ Answers (.cxlLinkL1 s.pwr.linkL1) s s ∧
    (s.dev.mode = .serving → s.pwr.linkL1 = false → ∃ t, Answers (.cxlLinkL1 true) s t ∧ t = { s with pwr := t.pwr } ∧
      t.pwr.linkL1 = true ∧ (t.dom 41).state = 2) ∧
    (s.dev.mode = .serving → s.pwr.linkL1 = true → ∃ t, Answers (.cxlLinkL1 false) s t ∧ t = { s with pwr := t.pwr } ∧
      t.pwr.linkL1 = false ∧ ((t.dom 41).state = 0 ∨ (t.dom 41).waking ≠ 0)))

-- ## Power

/-- R323, R325, R326, R328, R332: an idle domain of a die goes one state down when no floor, clamp or cluster forbids it:
its standing charge becomes that of the new state (a loop's clamp keeps it) and the well follows its uncore; a cluster
that goes dry loses its cistern contents, and where it holds no slots, which would first be swapped out, no other cluster's
cistern moves. A domain that may not step down, a busy one and a hub domain stay. -/
def Obligations.IdleDomainsStepDownTheLadder : Prop :=
  ∀ (s : State) (n : Nat), s.dev.mode = .serving →
    let may : Bool := decide (n < 40) && s.dieIn (dieOfDomain n) && (s.dom n).waking == 0 && decide ((s.dom n).state < 4) &&
      !domainBusy s n && mayStepDown s n
    (may = false → Answers (.domainStepDown n) s s) ∧
    (may = true →
      ∃ t, Answers (.domainStepDown n) s t ∧ (t.dom n).state = (s.dom n).state + 1 ∧
        (∀ m, m ≠ n → t.dom m = s.dom m) ∧
        (loopClamp s n = false → (t.rail (railOf n)).holds.filter (isStanding n) =
          (let p := standingParts n ((s.dom n).state + 1)
           if p = [] then [] else [{ what := .standing n ((s.dom n).state + 1), cls := 2, parts := p
                                     units := partUnits s (railOf n) (railPoint s (railOf n)) p }])) ∧
        (32 ≤ n → wellState t (n - 32) = if 2 ≤ (s.dom n).state then 2 else max 1 (wellState s (n - 32))) ∧
        ((s.dom n).state < 3 ∨ 32 ≤ n → t = { s with pwr := t.pwr }) ∧
        (n < 32 → (s.dom n).state = 3 → ∀ a, (clusterOfCore (csCore a) = n → mget t.cis a = 0) ∧
          ((∀ g ∈ coresOf n, slotsOn s g = []) → clusterOfCore (csCore a) ≠ n → mget t.cis a = mget s.cis a)))

/-- R323, R327, R332: work or a floor wakes a die uncore or a cluster; a switch that has closed asks for the still charge, a
PLL that has locked for the flowing charge, at the end of the rail's queue; a hub domain asks for its one charge; nothing else
moves. A cluster whose die uncore is not up waits for it, and a domain that is not waking stays. -/
def Obligations.WakesAskForTheirCharges : Prop :=
  (∀ (s : State) (n : Nat), s.dev.mode = .serving →
    (40 ≤ n ∨ s.dieIn (dieOfDomain n) = false → Answers (.domainWake n) s s) ∧
    ((s.dom n).waking ≠ 1 → (s.dom n).waking ≠ 2 → Answers (.pllLock n) s s) ∧
    (40 ≤ n → (s.dom n).waking = 1 ∨ (s.dom n).waking = 2 → ∃ t q, Answers (.pllLock n) s t ∧ t = { s with pwr := t.pwr } ∧
      (t.dom n).waking = 3 ∧ (t.rail (railOf n)).queue = (s.rail (railOf n)).queue ++ [q] ∧ q.what = .standing n 0 ∧
      q.parts = standingParts n 0) ∧
    (n < 32 → 2 ≤ (s.dom (uncoreOf n)).state → Answers (.pllLock n) s s)) ∧
  ∀ (s : State) (n : Nat), s.dev.mode = .serving → n < 40 → s.dieIn (dieOfDomain n) = true →
    (wakeWanted s n = false → Answers (.domainWake n) s s) ∧
    (wakeWanted s n = true → ∃ t, Answers (.domainWake n) s t ∧ t = { s with pwr := t.pwr } ∧
      ((t.dom n).state = 0 ∨ (t.dom n).waking ≠ 0)) ∧
    (32 ≤ n ∨ (s.dom (uncoreOf n)).state ≤ 1 →
      ((s.dom n).waking = 1 → ∃ t q, Answers (.pllLock n) s t ∧ t = { s with pwr := t.pwr } ∧ (t.dom n).waking = 4 ∧
        (t.rail (railOf n)).queue = (s.rail (railOf n)).queue ++ [q] ∧ q.what = .standing n 1 ∧
        q.parts = standingParts n 1) ∧
      ((s.dom n).waking = 2 → ∃ t q, Answers (.pllLock n) s t ∧ t = { s with pwr := t.pwr } ∧ (t.dom n).waking = 3 ∧
        (t.rail (railOf n)).queue = (s.rail (railOf n)).queue ++ [q] ∧ q.what = .standing n 0 ∧
        q.parts = standingParts n 0))

/-- R330, R335, R337: the weir serves a rail's requests by class, the oldest of the lowest class first. Without
headroom nothing moves; with it the request leaves the queue. A stage, spout or loop charge is then held with the units
it asks for at the rail's point; a standing charge takes its domain to the state that it was asked for, a point's charges
switch the die's clocks up. Whatever the request, GRANTED does not pass LIMIT. -/
def Obligations.GrantsKeepTheRailWithinItsLimit : Prop :=
  ∀ (s : State) (r pRest : Nat), s.dev.mode = .serving →
    ∃ t, Answers (.weirGrant r pRest) s t ∧
      (granted (s.rail r) ≤ railLimit r → granted (t.rail r) ≤ railLimit r) ∧
      t = { s with pwr := t.pwr } ∧
      ((s.rail r).queue = [] → t = s) ∧
      (∀ i q, nextRequest (s.rail r) = some i → (s.rail r).queue[i]? = some q →
        (∀ (j : Nat) (p : ChargeReq), (s.rail r).queue[j]? = some p →
          min q.cls 2 ≤ min p.cls 2 ∧ (min q.cls 2 = min p.cls 2 → i ≤ j)) ∧
        (headroom s r (askedUnits s r q) pRest = false → t = s) ∧
        (headroom s r (askedUnits s r q) pRest = true →
          (t.rail r).queue = (s.rail r).queue.take i ++ (s.rail r).queue.drop (i + 1) ∧
          ((∀ n st, q.what ≠ .standing n st) → (∀ d, q.what ≠ .point d) →
            (t.rail r).holds = (s.rail r).holds ++ [{ q with units := partUnits s r (railPoint s r) q.parts }]) ∧
          (∀ n st, q.what = .standing n st → (t.dom n).state = st ∧ (t.dom n).waking = if st = 1 then 2 else 0) ∧
          (∀ d, q.what = .point d → (t.diePerf d).point = (s.diePerf d).point - 1 ∧ (t.diePerf d).rising = false)))

/-- R339, R341, R325: over-current halves a die's clocks, is counted and raises POWER; they come back when it is over. A
lost SLOWCLK hands over to the RC oscillator and raises POWER; its return only moves the source. A well that is not
accessed powers down. A die out of service has no clocks to halve. -/
def Obligations.ClockAndCurrentEventsTakeEffect : Prop :=
  ∀ (s : State) (d : Nat), s.dev.mode = .serving →
    (s.dieIn d = false → Answers (.overCurrent d) s s) ∧
    (s.dieIn d = true → ∃ t, Answers (.overCurrent d) s t ∧ Signals evPower { s with pwr := { s.pwr with
      perf := tset s.pwr.perf d { s.diePerf d with overCur := true }, overCount := ctrAdd s.pwr.overCount 1 } } t) ∧
    (∃ t, Answers (.overCurrentRestore d) s t ∧
      t = { s with pwr := { s.pwr with perf := tset s.pwr.perf d { s.diePerf d with overCur := false } } }) ∧
    (s.pwr.slowSrc = false → ∃ t, Answers .slowclkLoss s t ∧
      Signals evPower { s with pwr := { s.pwr with slowSrc := true } } t) ∧
    (s.pwr.slowSrc = true → Answers .slowclkLoss s s) ∧
    (∃ t, Answers .slowclkReturn s t ∧ t = { s with pwr := { s.pwr with slowSrc := false } }) ∧
    (wellState s d = 0 → ∃ t, Answers (.wellPowerDown d) s t ∧
      t = { s with pwr := { s.pwr with wells := tset s.pwr.wells d 1 } }) ∧
    (wellState s d ≠ 0 → Answers (.wellPowerDown d) s s)

/-- R345, R347: a sensor reading sets TJ of the dies and of the hub; one at TJ_TRIP of the ordering code is fatal with
cause 3, asserts THERMTRIP# and leaves every domain of the dies dry; memory then moves only where a transfer was under
way (R312). -/
def Obligations.SensorReadingsSetTheTemperatures : Prop :=
  ∀ (s : State) (temps : List Byte), s.dev.mode = .serving → temps.length = 9 →
    ((∀ x ∈ temps, tempOf x < tjTrip s) → ∃ t, Answers (.sensorRead temps) s t ∧ t = { s with pwr := t.pwr } ∧
      t.pwr.hubTj = temps.getD 8 0 ∧ ∀ d < 8, t.diePerf d = { s.diePerf d with tj := temps.getD d 0 }) ∧
    ((∃ x ∈ temps, tjTrip s ≤ tempOf x) → ∃ t, Answers (.sensorRead temps) s t ∧ t.dev.mode = .fatal ∧
      t.dev.fatalCause = 3#4 ∧ t.dev.thermTrip = true ∧ t.inflight = [] ∧
      ((∀ c ∈ s.inflight, c.inPlace = false) → t.wellMem = s.wellMem ∧ t.host = s.host) ∧
      ∀ n < 40, (t.dom n).state = 4)

/-- R344, R345, R402: operating points. A die at TJ_THROTTLE goes one point down, or at P3 has its clocks halved, and
raises THERMAL the first time; one that has cooled asks for the voltage of the next point up, unless it is at its
CEIL_POINT. Going down writes the lower voltage at once. A die out of service stays. -/
def Obligations.HeatMovesTheOperatingPoint : Prop :=
  ∀ (s : State) (d : Nat), s.dev.mode = .serving →
    (s.dieIn d = false → Answers (.thermalStepDown d) s s ∧ Answers (.thermalStepUp d) s s) ∧ (s.dieIn d = true →
    let p := s.diePerf d
    let hot : Prop := tjThrottle s ≤ tempOf p.tj
    (¬ hot → Answers (.thermalStepDown d) s s) ∧
    (hot → ∃ t, Answers (.thermalStepDown d) s t ∧ t.pwr.throttled = s.pwr.throttled ||| BitVec.ofNat 8 (2 ^ d) ∧
      t = { s with pwr := t.pwr, dev := t.dev, outputs := t.outputs } ∧
      (s.pwr.throttled.getLsbD d = false → t.dev.events.getLsbD evThermal = true) ∧
      (s.pwr.throttled.getLsbD d = true → t.dev = s.dev) ∧
      (p.point < 3 → (t.diePerf d).point = p.point + 1 ∧ (t.diePerf d).rising = false ∧
        t.outputs.getLast? = some (.avs d (railMv5 s d (p.point + 1)))) ∧
      (3 ≤ p.point → (t.diePerf d) = { p with hot := true })) ∧
    (s.pwr.throttled.getLsbD d = false ∨ tjThrottle s - 5 ≤ tempOf p.tj → Answers (.thermalStepUp d) s s) ∧
    (s.pwr.throttled.getLsbD d = true → tempOf p.tj < tjThrottle s - 5 → ∃ t, Answers (.thermalStepUp d) s t ∧
      (t.diePerf d).hot = false ∧ (t.diePerf d).point = p.point ∧
      (p.ceil.toNat < p.point → p.rising = false → (t.diePerf d).rising = true ∧
        t.outputs = s.outputs ++ [.avs d (railMv5 s d (p.point - 1))]) ∧
      (p.point ≤ p.ceil.toNat → t.pwr.throttled = s.pwr.throttled &&& ~~~BitVec.ofNat 8 (2 ^ d) ∧ t.outputs = s.outputs)))

/-- R346: TDP. An average above TDP_W takes every die in service one point down, down to P3, and sets TDP_LIMITED; one
below 95 per cent clears it and lets the dies go up; either reading is what POWER then answers. -/
def Obligations.PackagePowerFollowsTdp : Prop :=
  ∀ (s : State) (avg : Nat), s.dev.mode = .serving →
    (avg ≤ s.pwr.tdpW.toNat → ∃ t, Answers (.tdpStepDown avg) s t ∧ t = { s with pwr := { s.pwr with avgW := avg } }) ∧
    (s.pwr.tdpW.toNat < avg → ∃ t, Answers (.tdpStepDown avg) s t ∧
      t = { s with pwr := t.pwr, outputs := t.outputs } ∧ t.pwr.avgW = avg ∧ t.pwr.tdpLimited = true ∧
      ∀ d < 8, (t.diePerf d).point =
        if s.dieIn d = true ∧ (s.diePerf d).point < 3 then (s.diePerf d).point + 1 else (s.diePerf d).point) ∧
    (95 * s.pwr.tdpW.toNat ≤ 100 * avg → ∃ t, Answers (.tdpStepUp avg) s t ∧
      t = { s with pwr := { s.pwr with avgW := avg } }) ∧
    (100 * avg < 95 * s.pwr.tdpW.toNat → ∃ t, Answers (.tdpStepUp avg) s t ∧
      t = { s with pwr := t.pwr, outputs := t.outputs } ∧ t.pwr.avgW = avg ∧ t.pwr.tdpLimited = false ∧
      ∀ d < 8, t.diePerf d = { s.diePerf d with
        rising := (s.diePerf d).rising || (s.dieIn d && decide ((s.diePerf d).ceil.toNat < (s.diePerf d).point)) })

/-- R344, R402: CEIL_POINT takes effect at once and takes a die that is above it down to it; a voltage that has settled
switches the clocks up where the rise asks for no charge, and asks for it otherwise; an AVSBus write that is not
acknowledged leaves the die at its lower point and raises CORRECTED. A rise whose charges wait takes neither. -/
def Obligations.VoltageStepsCompleteOrGiveUp : Prop :=
  ∀ (s : State) (d : Nat), s.dev.mode = .serving → d < 8 →
    (∀ c : BitVec 2, ∃ t, Answers (.ceilPoint d c) s t ∧ t = { s with pwr := t.pwr, outputs := t.outputs } ∧
      (t.diePerf d).ceil = c ∧ (t.diePerf d).point = max (s.diePerf d).point c.toNat ∧
      ∀ e, e ≠ d → t.diePerf e = s.diePerf e) ∧
    ((s.diePerf d).rising = false ∨ waiting (fun h => h.what == .point d) s = true → Answers (.voltageSettled d) s s ∧ Answers (.avsNoAck d) s s) ∧
    ((s.diePerf d).rising = true → waiting (fun h => h.what == .point d) s = false →
      (∃ t, Answers (.voltageSettled d) s t ∧ t = { s with pwr := t.pwr } ∧
        (pointRise s d ((s.diePerf d).point - 1) = 0 →
          (t.diePerf d).point = (s.diePerf d).point - 1 ∧ (t.diePerf d).rising = false) ∧
        (pointRise s d ((s.diePerf d).point - 1) ≠ 0 → t.diePerf d = s.diePerf d ∧
          waiting (fun h => h.what == .point d) t = true)) ∧
      (∃ t, Answers (.avsNoAck d) s t ∧ Signals evCorrected { s with pwr := { s.pwr with
        perf := tset s.pwr.perf d { s.diePerf d with rising := false } } } t))

/-- R338: a calibration takes the measured charge of each entry that lies within 0.75 to 1.25 times its nominal value,
rounded up to units of 0.25 A with one unit of margin, and keeps the others; a die with an entry out of range is in
CAL_FAIL; CAL_DONE is set once every die in service has been calibrated. A die is calibrated once, and one out of service is
not. -/
def Obligations.CalibrationTakesTheMeasuredCharges : Prop :=
  (∀ (s : State) (d : Nat) (m : List Nat), s.dieIn d = false → Answers (.calibrationDone d m) s s) ∧
  ∀ (s : State) (d : Nat) (m : List Nat), s.dev.mode = .serving → s.dieIn d = true → m.length = 14 →
    (s.pwr.calDies.getLsbD d = true → Answers (.calibrationDone d m) s s) ∧
    (s.pwr.calDies.getLsbD d = false → ∃ t, Answers (.calibrationDone d m) s t ∧ t = { s with pwr := t.pwr } ∧
      t.pwr.calDies = s.pwr.calDies ||| BitVec.ofNat 8 (2 ^ d) ∧
      (∀ e < 14, ∀ x, m[e]? = some x → x < 2 ^ 16 → calEntry t d e =
        if calInRange e x then cdiv x 250 + 1 else calEntry s d e) ∧
      (∀ k e, k ≠ d → e < 14 → calEntry t k e = calEntry s k e) ∧
      t.pwr.calFail = (if ∀ e < 14, calInRange e (m.getD e 0) = true then s.pwr.calFail
        else s.pwr.calFail ||| BitVec.ofNat 8 (2 ^ d)) ∧
      (t.pwr.calDone = true ↔ s.pwr.calDone = true ∨ ∀ k < 8, s.dieIn k = true → t.pwr.calDies.getLsbD k = true))

/-- R327, R329: POWER_HINT sets the floor of its domains, and those on dies in service that are deeper than their effective
floor then are awake or waking; when the hold time of a timed hint is over, the domain's default floor is in force again, and a
domain deeper than its effective floor wakes. A hint that is not timed does not expire. -/
def Obligations.PowerHintsSetFloors : Prop :=
  (∀ (s : State) (u : Nat) (c : Cmd), Startable u opPowerHint c s →
    c.p 0 1 ≤ 2 → (c.p 0 1 = 1 → s.dieIn (c.p 1 1) = true) →
    (c.p 0 1 = 2 → c.p 1 1 < 32 ∧ s.dieIn (dieOfCluster (c.p 1 1)) = true) → c.p 2 1 ≤ 4 →
    ∃ t, Answers (.powerHint u) s t ∧ Completes c stOk 0 { s with pwr := t.pwr } t ∧
      (∀ n ∈ hintDomains (c.p 0 1) (c.p 1 1),
        (t.dom n).hint = some (c.p 2 1) ∧ (t.dom n).hintTimed = decide (c.p 4 4 ≠ 0) ∧
        (s.dieIn (dieOfDomain n) = true → (t.dom n).state ≤ floorOf t n ∨ (t.dom n).waking ≠ 0)) ∧
      (∀ n, n ∉ hintDomains (c.p 0 1) (c.p 1 1) → (t.dom n).hint = (s.dom n).hint)) ∧
  (∀ (s : State) (n : Nat), s.dev.mode = .serving →
    ((s.dom n).hintTimed = true → ∃ t, Answers (.hintExpiry n) s t ∧ t = { s with pwr := t.pwr } ∧
      (t.dom n).hint = none ∧ (t.dom n).hintTimed = false ∧ hintFloor t n = 3 ∧
      (n < 40 → s.dieIn (dieOfDomain n) = true → (t.dom n).state ≤ floorOf t n ∨ (t.dom n).waking ≠ 0)) ∧
    ((s.dom n).hintTimed = false → Answers (.hintExpiry n) s s))

-- ## The lateral fabric

/-- R152, R153, R155, R161, R164: a message of a group that is not active here, or whose GEN is not the group's, is
discarded and counted. A WRITE and the record of a GAP land where R27 lets them, with their float; else only INBOUND_BAD,
on the first core of the data where the place is bad, and the lateral counter record them. A VALVE counts once at its valve,
and a MASS replaces its sender's earlier one. With no message of its kind a row changes nothing. -/
def Obligations.LateralMessagesTakeEffect : Prop :=
  (∀ s : State, s.dev.mode = .serving →
    ∀ e ∈ [(Instr.write, 0), (.valve, 1), (.gap, 3), (.mass, 4)], takeMsg (fun m => m.type == e.2) s = none →
      Answers e.1 s s) ∧
  ∀ (s r : State) (m : Msg), s.dev.mode = .serving →
    let late : State := { r with lat := { r.lat with stale := ctrAdd r.lat.stale 1 } }
    (∀ c type, (c = .write ∧ type = 0) ∨ (c = .gap ∧ type = 3) → takeMsg (fun m => m.type == type) s = some (m, r) →
      (genOk s m = false → Answers c s late) ∧
      (genOk s m = true → csAllowed s m.addr m.data.length = true → floatLive s m.float m.floatInc = true → ∃ t, Answers c s t ∧
        t = { s with lat := r.lat, cis := t.cis, cisPoison := t.cisPoison, upsets := t.upsets, perf := t.perf
                     floats := t.floats } ∧
        (Memory.wf s.cis = true → StoredAt m.addr m.data s.cis t.cis) ∧
        floatGet t (floatCore m.float) (floatPhys m.float) =
          floatGet s (floatCore m.float) (floatPhys m.float) + BitVec.ofNat 32 m.floatInc) ∧
      (genOk s m = true → csAllowed s m.addr m.data.length = false ∨ floatLive s m.float m.floatInc = false →
        ∃ t, Answers c s t ∧
          t = { s with cores := t.cores, lat := { r.lat with inboundDiscards := ctrAdd r.lat.inboundDiscards 1 } } ∧
          (csAllowed s m.addr m.data.length = false → m.data ≠ [] →
            (t.core (csCore m.addr)).err.getLsbD 7 = true))) ∧
    (takeMsg (fun m => m.type == 1) s = some (m, r) →
      (genOk s m = false → Answers .valve s late) ∧
      (genOk s m = true → ∃ t, Answers .valve s t ∧ t = { s with lat := r.lat, valves := t.valves } ∧
        ∀ v, tget t.valves v 0 = if v = field m.data 0 4 % 2 ^ 14 then tget s.valves v 0 + BitVec.ofNat 32 (field m.data 4 4)
          else tget s.valves v 0)) ∧
    (takeMsg (fun m => m.type == 4) s = some (m, r) →
      (m.group = 0xFFFF ∨ genOk s m = false → Answers .mass s late) ∧
      (∀ g, m.group ≠ 0xFFFF → genOk s m = true → tget? s.lat.groups m.group = some g → ∃ t, Answers .mass s t ∧
        t = { r with lat := { r.lat with groups := t.lat.groups } } ∧
        (∀ k, k ≠ m.group → tget? t.lat.groups k = tget? s.lat.groups k) ∧
        tget? t.lat.groups m.group = some { g with masses := g.masses.filter (fun e => e.1 != m.src) ++
          [(m.src, (List.range (m.data.length / 4)).map (fun i => BitVec.ofNat 32 (field m.data (4 * i) 4)))] }))

/-- The rows of the group codes of Table 7.7. -/
def ctrlRows : List (Instr × Nat) :=
  [(.ready, ctrlReady), (.go, ctrlGo), (.done, ctrlDone), (.commit, ctrlCommit), (.abort, ctrlAbort), (.refuse, ctrlRefuse)]

/-- What takeMsg finds for a group code: the code's next message. One that may commit waits until it can (assumption
715). -/
def nextCtrl (code : Nat) (s : State) : Option (Msg × State) :=
  takeMsg (fun m => m.type == 2 && m.addr == code && ((code != ctrlDone && code != ctrlCommit) || mayCommit s m)) s

/-- The message with which a row of a group code acts: it is the next of its code, and of the generation of an active
group. -/
structure OnCtrl (code gid : Nat) (g : Group) (s r : State) (m : Msg) : Prop where
  serves : s.dev.mode = .serving
  found : nextCtrl code s = some (m, r)
  active : m.group = gid ∧ tget? s.lat.groups gid = some g
  current : ctrlOk g m = true

/-- Only one group of a state changes, and is then g. -/
def GroupIs (gid : Nat) (g : Group) (s t : State) : Prop :=
  t = { s with lat := { s.lat with groups := t.lat.groups } } ∧
  ∀ k, tget? t.lat.groups k = if k = gid then some g else tget? s.lat.groups k

/-- A member's part of an abort (R156): below RETRY_MAX the next generation begins; what runs or is held is discarded and
waits to run again, and a member that had sent READY sends it again. Beyond RETRY_MAX a RUN has left. -/
def Aborts (gid : Nat) (g : Group) (s t : State) : Prop :=
  let next : Group := { g with
    gen := g.gen + 1, masses := [], shards := [], readies := [], dones := [], started := false, readySent := false }
  (g.gen < g.retryMax → g.started = false →
    ∃ q, q = { s with lat := { s.lat with groups := q.lat.groups }, inflight := q.inflight } ∧
      (∀ k, tget? q.lat.groups k = if k = gid then some next else tget? s.lat.groups k) ∧
      (∀ c, s.cmd? g.cmd = some c → q.cmd? g.cmd = some { c with rerunDue := true }) ∧
      (g.readySent = false → t = q) ∧ (g.readySent = true → t = sendReady gid q)) ∧
  (g.gen < g.retryMax → g.started = true →
    (tget? t.lat.groups gid).map (fun h => (h.gen, h.started, h.readySent)) = some (g.gen + 1, false, false) ∧
    ∀ c, s.cmd? g.cmd = some c →
      (t.cmd? g.cmd).map (fun d => (d.phase, d.rerunDue, d.cores)) = some (Phase.ready, true, [])) ∧
  (g.retryMax ≤ g.gen → (∀ c, s.cmd? g.cmd = some c → c.opcode = opRun) → ∀ d ∈ t.inflight, d.uid ≠ g.cmd)

/-- R155 to R157: a group message of another generation, or for a group that is not active here, is discarded and counted.
The leader keeps each member's READY until it holds one from every member, and then sends GO of the generation to each;
where two differ it sends REFUSE to the others and its own command leaves. A member whose command waits in place starts it
at GO of its leader, and leaves at REFUSE; the start is stated for a plan that copies nothing in. The leader keeps each
DONE until it holds one from every member; then it sends COMMIT to the others and its own held results commit. COMMIT of
the leader commits a member's held results. An ABORT before COMMIT aborts the generation: the leader passes it on. So does
the end of a leader's wait; another member's ends its own part, or carries out a COMMIT that waits for MASS (the model's
choice, assumptions 713 and 715). An ABORT after COMMIT does nothing. -/
def Obligations.GroupsStartTogetherAndCommitOrRunAgain : Prop :=
  (∀ (s r : State) (m : Msg), s.dev.mode = .serving → ∀ e ∈ ctrlRows,
    (nextCtrl e.2 s = none → Answers e.1 s s) ∧
    (nextCtrl e.2 s = some (m, r) → (∀ g, tget? s.lat.groups m.group = some g → ctrlOk g m = false) →
      Answers e.1 s { r with lat := { r.lat with stale := ctrAdd r.lat.stale 1 } })) ∧
  (∀ (s r : State) (m : Msg) (gid : Nat) (g : Group),
    let x := (m.src, field m.data 0 1, field m.data 1 1, field m.data 4 4)
    let rs := g.readies.filter (fun e => e.1 != m.src) ++ [x]
    let ds := donesWith g m
    let lead : Prop := g.leader = selfDev s
    (OnCtrl ctrlReady gid g s r m →
      (¬ (lead ∧ g.started = false ∧ m.src ∈ g.devices) → Answers .ready s r) ∧
      (lead → g.started = false → m.src ∈ g.devices →
        ((∀ e ∈ rs, e.2 = x.2) → rs.length ≠ g.members → ∃ t, Answers .ready s t ∧ GroupIs gid { g with readies := rs } r t) ∧
        ((∀ e ∈ rs, e.2 = x.2) → rs.length = g.members → ∃ t q, Answers .ready s t ∧
          GroupIs gid { g with readies := [], dones := [] } r q ∧
          t = g.devices.foldl (fun s d => sendCtrl d gid ctrlGo (leBytes 4 g.gen) s) q) ∧
        ((∃ e ∈ rs, e.2 ≠ x.2) → ∃ t q, Answers .ready s t ∧ GroupIs gid { g with readies := rs } r q ∧
          t = memberRefuse gid (sendOthers gid ctrlRefuse g [] q) ∧ ∀ c ∈ t.inflight, c.uid ≠ g.cmd))) ∧
    (OnCtrl ctrlGo gid g s r m →
      (¬ (m.src = g.leader ∧ g.readySent = true ∧ g.started = false) → Answers .go s r) ∧
      (m.src = g.leader → g.readySent = true → g.started = false → ∀ c p, s.cmd? g.cmd = some c → c.plan = some p →
        (c.phase ≠ .placed → Answers .go s r) ∧
        (c.phase = .placed → c.opcode = opRun → p.stateRows = 0 → p.tempOff = none →
          (∀ w ∈ p.scalePoints, (scalePoint w).src ≠ 0) → (argsOf s c).chunk = none →
          ∃ t, Answers .go s t ∧ (t.cmd? g.cmd).map (fun d => (d.phase, d.started)) = some (.running, true) ∧
            tget? t.lat.groups gid = some { g with started := true } ∧ ∀ k ∈ c.cores, (t.core k).running = some c.uid))) ∧
    (OnCtrl ctrlRefuse gid g s r m →
      (m.src = g.leader → g.started = false → ∃ t, Answers .refuse s t ∧ t = memberRefuse gid r ∧
        ∀ c ∈ t.inflight, c.uid ≠ g.cmd) ∧
      (m.src ≠ g.leader ∨ g.started = true → Answers .refuse s r)) ∧
    (OnCtrl ctrlDone gid g s r m →
      (¬ lead ∨ g.committed = true → Answers .done s r) ∧
      (lead → g.committed = false →
        (ds.length < g.members → ∃ t, Answers .done s t ∧ GroupIs gid { g with dones := ds } r t) ∧
        (g.members ≤ ds.length → ∃ t q, Answers .done s t ∧ GroupIs gid { g with dones := ds } r q ∧
          (g.orphan = false → t = commitMember gid g (sendOthers gid ctrlCommit g (leBytes 4 g.gen) q)) ∧
          (g.orphan = true → tget? t.lat.groups gid = none)))) ∧
    (OnCtrl ctrlCommit gid g s r m →
      (∀ c, m.src = g.leader → s.cmd? g.cmd = some c → c.phase = .held → ∃ t q, Answers .commit s t ∧
        GroupIs gid { g with committed := true } r q ∧ t = commitRun c.uid c.heldCyc q) ∧
      (m.src ≠ g.leader ∨ (∀ c, s.cmd? g.cmd = some c → c.phase ≠ .held) → Answers .commit s r)) ∧
    (OnCtrl ctrlAbort gid g s r m →
      (g.committed = true ∨ (¬ lead ∧ m.src ≠ g.leader) → Answers .abort s r) ∧
      (g.committed = false → lead → g.orphan = false → ∃ t, Answers .abort s t ∧
        Aborts gid g (sendOthers gid ctrlAbort g (leBytes 4 g.gen) r) t) ∧
      (g.committed = false → ¬ lead → m.src = g.leader → ∃ t, Answers .abort s t ∧ Aborts gid g r t))) ∧
  ∀ (s : State) (gid : Nat), s.dev.mode = .serving →
    (tget? s.lat.groups gid = none → Answers (.groupWaitTimeout gid) s s) ∧
    ∀ g, tget? s.lat.groups gid = some g →
      (g.committed = true ∨ (g.readySent = false ∧ g.started = false) → Answers (.groupWaitTimeout gid) s s) ∧
      (g.committed = false → g.readySent = true ∨ g.started = true →
        (g.leader = selfDev s → g.orphan = false → ∃ t, Answers (.groupWaitTimeout gid) s t ∧
          Aborts gid g (sendOthers gid ctrlAbort g (leBytes 4 g.gen) s) t) ∧
        (g.leader ≠ selfDev s →
          (awaitsLeader s g = false → Answers (.groupWaitTimeout gid) s s) ∧
          (awaitsLeader s g = true → commitWaiting s gid g = none → ∃ t, Answers (.groupWaitTimeout gid) s t ∧
            Aborts gid g s t) ∧
          (∀ i c, commitWaiting s gid g = some i → s.cmd? g.cmd = some c → c.phase = .held →
            ∃ t q, Answers (.groupWaitTimeout gid) s t ∧
            GroupIs gid { g with committed := true } { s with lat := { s.lat with inbox := s.lat.inbox.eraseIdx i } } q ∧
            t = commitRun c.uid c.heldCyc q)))

/-- No port has anything to send: no flit waits, no credit is owed and no acknowledgement is due. -/
def QuietPorts (s : State) : Prop :=
  ∀ q < 4, (s.port q).outq = [] ∧ (∀ e ∈ (s.port q).owed, e.2 = 0) ∧ (s.port q).ackDue = false

/-- R142 to R144, R148, R149: a port whose domain is flowing and that trains against the neighbour R143 names is UP with the
full credits of Table 7.3; trained against another it is FAILED. A timeout sends every unacknowledged flit again, and counts
one replay of each. With a flit replayed 16 times the port retrains; a retrain that succeeds, the earlier ones that failed
counted with it, resumes from the oldest unacknowledged flit; three that fail make it FAILED: what waits there is
discarded and counted. LATERAL tells of UP and of FAILED. Otherwise these events change nothing. The state without groups is
stated; UP and the resumption for ports with nothing else to send. -/
def Obligations.PortsTrainReplayAndFail : Prop :=
  ∀ (s : State) (p : Nat), s.dev.mode = .serving → p < 4 → s.lat.groups = [] →
    let x := s.port p
    let failed (t : State) (far : Option Nat) (retrains : Ctr) : Prop :=
      ∃ r, r = { s with lat := r.lat } ∧ r.port p = { state := 4, far := far, crcErrors := x.crcErrors, replays := x.replays
                                                      retrains := retrains } ∧
        ((∀ q < 4, ∀ f ∈ (s.port q).outq, f.src ≠ p) → r.lat.unroutable = ctrAdd s.lat.unroutable x.outq.length) ∧
        Signals evLateral r t
    let trains : Prop := x.state = 1 ∧ s.dev.numValid = true ∧ flowing s (42 + p) = true
    (trains → ∀ far : Option Nat,
      (far ≠ none → far = neighbour s p → QuietPorts s → ∃ t r, Answers (.portTrained p far) s t ∧ r = { s with lat := r.lat } ∧
        r.port p = { x with state := 2, far := far, owed := []
                            credits := (List.range 8).map (fun k => (k, bufferFlits (k / 2))) } ∧ Signals evLateral r t) ∧
      (far = none ∨ far ≠ neighbour s p → ∃ t, Answers (.portTrained p far) s t ∧ failed t far x.retrains)) ∧
    (¬ trains → ∀ far, Answers (.portTrained p far) s s) ∧
    (x.state = 2 → mayReplay x = true → ∃ t r, Answers (.replayTimeout p) s t ∧
      r = { s with lat := r.lat, outputs := s.outputs ++ x.retry.map (fun e => Output.flit p e.2) } ∧
      r.port p = { x with replays := ctrAdd x.replays 1, retry := x.retry.map (fun e => (e.1 + 1, e.2)) } ∧
      Signals evCorrected r t) ∧
    (¬ (x.state = 2 ∧ mayReplay x = true) → Answers (.replayTimeout p) s s) ∧
    (x.state = 2 → (∃ e ∈ x.retry, 16 ≤ e.1) → ∃ t, Answers (.portRetrain p) s t ∧ t = { s with lat := t.lat } ∧
      t.port p = { x with state := 3, retrains := ctrAdd x.retrains 1 }) ∧
    (¬ (x.state = 2 ∧ ∃ e ∈ x.retry, 16 ≤ e.1) → Answers (.portRetrain p) s s) ∧
    (∀ n, x.state = 3 → n ≤ 2 → QuietPorts s → ∃ t r q, Answers (.retrainDone p n) s t ∧
      r = { s with lat := r.lat, outputs := s.outputs ++ x.retry.map (fun e => Output.flit p e.2) } ∧
      r.port p = { x with state := 2, failed := x.failed + n, retrains := ctrAdd x.retrains n
                          retry := x.retry.map (fun e => (0, e.2)) } ∧
      Signals evCorrected r q ∧ Signals evLateral q t) ∧
    (∀ n, x.state ≠ 3 ∨ 2 < n → Answers (.retrainDone p n) s s) ∧
    (∀ n, x.state = 3 → 1 ≤ n → n ≤ 3 → 3 ≤ x.failed + n →
      ∃ t, Answers (.portFailed p n) s t ∧ failed t x.far (ctrAdd x.retrains (n - 1))) ∧
    (∀ n, ¬ (x.state = 3 ∧ 1 ≤ n ∧ n ≤ 3 ∧ 3 ≤ x.failed + n) → Answers (.portFailed p n) s s)

/-- R147, R148, R151, R163, R164: a flit whose CRC fails is counted and answered by a NAK, one out of order by a NAK alone;
nothing of it is taken. A flit in order is the last accepted one; a message of one flit for this device waits here for its
row, and behind a multicast message of its input and channel the flit waits for that. On a port that is not UP nothing is
taken. Multicast is stated for one waiting message of this device: of an entry that is not in use it is discarded and
counted; an entry that only delivers here gives it to this device at LOCAL_BASE with LOCAL_FLOAT; a port with the credits
gets its flits; under HOLD it waits for a port without them. When HOLD_LIMIT has passed, a port that still lacks them is
dropped and counted, and owes a gap that starts and ends with the message's number. -/
def Obligations.FlitsAndMulticastsAreTakenInOrder : Prop :=
  (∀ (s : State) (p : Nat) (flit : Block), s.dev.mode = .serving →
    let x := s.port p
    let good : Prop := field flit 252 4 = crc32c (flit.take 252)
    let h := leNat (flit.take 12)
    let counts : Prop := bitOf h 26 = false ∨ bitsOf h 38 33 ≠ 0
    let pay := ((flit.drop 12).take 240).take (min 240 (bitsOf h 80 73))
    let nak (t : State) (y : Port) : Prop := t = { s with lat := t.lat, outputs := t.outputs, freeCtr := s.freeCtr + 1 } ∧
      t.port p = { y with ackDue := false } ∧ (∀ q, q ≠ p → t.port q = s.port q) ∧
      ∃ b, t.outputs = s.outputs ++ [.flit p b] ∧ field b 252 4 = crc32c (b.take 252) ∧ bitOf (leNat (b.take 12)) 25 = true ∧
        ∀ a, x.lastRx = some a → bitOf (leNat (b.take 12)) 24 = true ∧ bitsOf (leNat (b.take 12)) 23 12 = a.toNat
    (x.state ≠ 2 ∨ flit.length ≠ 256 → Answers (.flitReceive p flit) s s) ∧
    (x.state = 2 → flit.length = 256 →
      (¬ good → ∃ t, Answers (.flitReceive p flit) s t ∧ nak t { x with crcErrors := ctrAdd x.crcErrors 1 }) ∧
      (good → counts → h % 4096 ≠ x.rxSeq.toNat → ∃ t, Answers (.flitReceive p flit) s t ∧ nak t x) ∧
      (good → ¬ counts → ∃ t, Answers (.flitReceive p flit) s t ∧ (t.port p).rxSeq = x.rxSeq ∧ t.lat.inbox = s.lat.inbox) ∧
      (good → counts → h % 4096 = x.rxSeq.toNat → ∃ t, Answers (.flitReceive p flit) s t ∧
        (t.port p).rxSeq = x.rxSeq + 1 ∧ (t.port p).lastRx = some x.rxSeq ∧
        (bitOf h 26 = false → castWaits s (some p) (hdrVc h) = true →
          (t.port p).behind = x.behind ++ [(h, pay)] ∧ t.lat.inbox = s.lat.inbox) ∧
        (bitOf h 26 = false → castWaits s (some p) (hdrVc h) = false → bitOf h 89 = false → bitsOf h 52 39 = selfDev s →
          bitOf h 71 = true → bitOf h 72 = true → bitsOf h 70 67 < 5 → bitsOf h 70 67 ≠ 2 →
          t.lat.inbox = s.lat.inbox ++ [msgOf h pay])))) ∧
  (∀ (s : State) (m : Msg) (g : Nat) (ports : Option (List Nat)), s.dev.mode = .serving → m.mcast = some g → m.type < 4 →
    m.type ≠ 2 → s.lat.mcastQ = [{ msg := m, ports := ports }] → s.lat.ownQ = [] → s.lat.gaps = [] → QuietPorts s →
    let e := tget s.lat.mcast g 0
    let gone : State := { s with lat := { s.lat with mcastQ := [] } }
    let dl (p : Nat) := replicaDl s { msg := m, ports := ports } p
    (ports = none → e.getLsbD 6 = false → ∃ t, Answers .mcastReplicate s t ∧
      t = { s with lat := { s.lat with mcastQ := [], stale := ctrAdd s.lat.stale 1 } }) ∧
    (ports = none → e.getLsbD 6 = true → e.getLsbD 4 = true → mcastPorts e = [] → ∃ t, Answers .mcastReplicate s t ∧
      t = { s with lat := { s.lat with
        mcastQ := []
        inbox := s.lat.inbox ++ [{ m with addr := (e.toNat / 2 ^ 32 + m.addr) % 2 ^ 32, float := e.toNat / 2 ^ 16 % 2 ^ 14
                                          mcast := none }] } }) ∧
    (∀ p < 4, portUsable s p = true → (ports = some [p] ∨ (ports = none ∧ e.getLsbD 6 = true ∧ e.getLsbD 4 = false ∧
        mcastPorts e = [p])) →
      (flitCount m ≤ tget (s.port p).credits (2 * m.vc + dl p) 0 → ∃ t, Answers .mcastReplicate s t ∧
        t = latSettle (putFlits p (flitsOf m 5 0 (dl p)) gone)) ∧
      (tget (s.port p).credits (2 * m.vc + dl p) 0 < flitCount m → ports = none → e.getLsbD 5 = true →
        ∃ t, Answers .mcastReplicate s t ∧ t = { s with lat := { s.lat with mcastQ := [{ msg := m, ports := some [p] }] } }) ∧
      (tget (s.port p).credits (2 * m.vc + dl p) 0 < flitCount m → ports = some [p] →
        Answers .mcastReplicate s s ∧ ∃ t, Answers .holdExpiry s t ∧ t = { s with lat := { s.lat with
          mcastQ := [], holdExpiries := ctrAdd s.lat.holdExpiries 1, shed := ctrAdd s.lat.shed 1
          gaps := [{ port := p, first := (mseqs m).1, last := (mseqs m).2, msg := { m with data := [] }, dl := dl p }] } })) ∧
    (ports = none → Answers .holdExpiry s s))

-- ## Output bindings, watermark and provenance

/-- R215 to R218: OUT_BIND adds the binding of the block that it reads, OUT_UNBIND deletes one that serves no stream. The
host's write to a consumer line is read into its target or the manifest ring. A target with a free slot gets the gap
record it is owed, and its producer line the new count; a failed write abandons the target, or stops the manifest ring,
and raises HOST_WRITE. Stated for bindings with nothing waiting under HOLD. -/
def Obligations.OutputRingsFollowTheirLines : Prop :=
  (∀ (s r : State) (u : Nat) (c : Cmd) (ad : Addr) (b : Block), Startable u opOutBind c s → typedAddr (c.p 0 8) = some ad →
    let n := 32 + 32 * min 8 (field (peekAt s (c.p 0 8) 32) 3 1)
    addrOk s ad n = true → readAt ad n (startCmd u s) = (.bytes b, r) → failing (bindChecks r b) = [] →
    ∃ t, Answers (.outBind u) s t ∧ Completes c stOk 0 { r with
      inflight := s.inflight, rings := r.rings + 1
      bindings := tset r.bindings (field b 0 2) { takeLines r (bindingOf c.ctx b) with made := r.rings } } t) ∧
  (∀ (s : State) (u : Nat) (c : Cmd) (x : Binding), Startable u opOutUnbind c s → tget? s.bindings (c.p 0 2) = some x →
    x.ctx = c.ctx → x.stream = none →
    ∃ t, Answers (.outUnbind u) s t ∧ Completes c stOk 0 { s with bindings := tdel s.bindings (c.p 0 2) } t) ∧
  (∀ (s : State) (b k : Nat) (x : Binding) (y : Target), s.dev.mode = .serving → Memory.wf s.host = true →
    tget? s.bindings b = some x → x.targets[k]? = some y → x.held = [] →
    let put (y : Target) : Table Binding := tset s.bindings b { x with targets := x.targets.modify k (fun _ => y) }
    (∀ stores count, lineHeld s (.target b k) = true → ∃ t, Answers (.consLineSnoop stores (.target b k) count) s t ∧
      t = { hostWrite y.consLine (leBytes 8 count.toNat) (hostStores stores s) with bindings := put { y with cons := count } }) ∧
    (∀ stores count, lineHeld s (.target b k) = false →
      Answers (.consLineSnoop stores (.target b k) count) s (hostWrite y.consLine (leBytes 8 count.toNat) (hostStores stores s))) ∧
    (∀ m, y.missed = some m → y.abandoned = false → y.full = false → ∃ t h, Answers (.gapRecordWrite b k) s t ∧
      (let y' := { y with prod := y.prod + 1, lastBseq := m.first, missed := none }
       t = { s with host := t.host, hostPoison := t.hostPoison, bindings := put y' }) ∧
      StoredAt (y.base + y.prod.toNat % y.slots * y.slotBytes) (padTo y.slotBytes (gapRecord m)) s.host h ∧
      StoredAt y.prodLine (leBytes 8 (y.prod + 1).toNat ++ leBytes 8 m.first ++ List.replicate 48 0) h t.host) ∧
    (let dead : State := { s with bindings := put { y with abandoned := true, missed := none } }
     ∃ t, Answers (.ringWriteFail (.target b k)) s t ∧
      Signals evHostWrite (dead.modStats x.ctx (fun n => { n with ringWriteFails := ctrAdd n.ringWriteFails 1 })) t)) ∧
  (∀ (s : State) (g : MRing) (stores : List HostStore) (count : W64), s.dev.mode = .serving → Memory.wf s.host = true →
    s.prov.ring = some g → lineHeld s .manifest = true → ∃ t, Answers (.consLineSnoop stores .manifest count) s t ∧
    t = { hostWrite g.consLine (leBytes 8 count.toNat) (hostStores stores s) with
          prov := { s.prov with ring := some { g with cons := count } } }) ∧
  (∀ s : State, s.dev.mode = .serving →
    (∀ g, s.prov.ring = some g → ∃ t, Answers (.ringWriteFail .manifest) s t ∧
      Signals evHostWrite { s with prov := { s.prov with ring := some { g with stopped := true } } } t) ∧
    (s.prov.ring = none → Answers (.ringWriteFail .manifest) s s))

/-- R225, R228, R229, R231, R234: each tick takes the settings that wait for it and closes the current interval where it is
older; with CUT no segment stays open. A closed interval is built once every spout in service has acknowledged its tick,
and a full one at once: its segment records, in rising order, wait for the signer. The oldest built interval takes its
manifest: signed with the next HSS index, which is then used up, or marked UNSIGNED after exhaustion; the next header
chains to this one. The oldest held manifest goes into the ring where it has room and no write to it has failed; the
producer line follows, and the manifest vector is signalled where it is unmasked. -/
def Obligations.IntervalsAndManifestsAreBuiltSignedAndWritten : Prop :=
  (∀ s : State, s.dev.mode = .booting ∨ s.dev.mode = .serving →
    let p := s.prov
    let cfg := p.nextCfg.getD p.cfg
    let built (k ms : Nat) (q : Prov) (t : State) : Prop :=
      let rs := (p.records.filter (fun r => r.1 == k)).map Prod.snd
      let left := { q with records := p.records.filter (fun r => r.1 != k) }
      t = { s with prov := t.prov, dev := t.dev, outputs := t.outputs } ∧
      (rs = [] → t = { s with prov := left }) ∧
      (rs ≠ [] → ∃ l, l.Perm rs ∧ l.Pairwise (fun a b => field a 0 8 ≤ field b 0 8) ∧
        t.prov = { left with unsignedQ := p.unsignedQ ++ [{ interval := k, intervalMs := ms, records := l }] })
    (∃ t, Answers .intervalTick s t ∧ t.prov.ticks = p.ticks + 1 ∧ t.prov.cfg = cfg ∧ t.prov.nextCfg = none ∧
      t.prov.ring = (p.nextRing.map (fun r => { r with cons := lineCount s r.consLine })).or p.ring ∧ t.prov.nextRing = none ∧
      (∀ k ∈ spoutsIn s, (tget t.spouts k {}).acked = p.ticks + 1) ∧
      (cfg.cut = true → ∀ i x, tget? t.streams i = some x → x.seg = none) ∧
      (cfg.cut = false → t = { s with prov := t.prov, spouts := t.spouts } ∧
        (p.interval ≤ p.ticks → t.prov.interval = satAdd 64 p.interval 1 ∧
          t.prov.closed = p.closed ++ [(p.interval, p.ticks + 1, p.cfg.intervalMs)]) ∧
        (p.ticks < p.interval → t.prov.interval = p.interval ∧ t.prov.closed = p.closed))) ∧
    (∀ k n ms rest, p.closed = (k, n, ms) :: rest →
      ((∀ j ∈ spoutsIn s, n ≤ (tget s.spouts j {}).acked) → ∃ t, Answers .intervalBuild s t ∧
        built k ms { p with closed := rest } t) ∧
      ((∃ j ∈ spoutsIn s, (tget s.spouts j {}).acked < n) → Answers .intervalBuild s s)) ∧
    (65535 ≤ intervalCount p → ∃ t, Answers .intervalFull s t ∧
      built p.interval p.cfg.intervalMs { p with interval := satAdd 64 p.interval 1 } t) ∧
    (intervalCount p < 65535 → Answers .intervalFull s s)) ∧
  (∀ (s : State) (m : Manifest) (rest : List Manifest), s.dev.mode = .serving →
    let p := s.prov
    let signed (m : Manifest) (hdr sig : Block) (t : State) : Prop :=
      t.prov.unsignedQ = rest ∧ t.prov.held = p.held ++ [{ m with bytes := some (manifestBytes hdr m sig) }] ∧
      t.prov.manifestSeq = satAdd 64 p.manifestSeq 1 ∧ t.prov.prev = some (sha256 hdr) ∧
      t = { s with prov := t.prov, dev := t.dev, outputs := t.outputs }
    (p.unsignedQ = m :: rest → p.held.length < 64 →
      (p.signer = 0 → p.nextIndex < lastIndex → ∃ t, Answers .manifestSign s t ∧ t.prov.nextIndex = p.nextIndex + 1 ∧
        (let hdr := manifestHeader s m (some p.nextIndex); signed m hdr (hssSignature p.nextIndex hdr) t)) ∧
      (p.signer = 2 → ∃ t, Answers .manifestSign s t ∧ signed (markUnsigned m) (manifestHeader s (markUnsigned m) none) [] t ∧
        t.prov.nextIndex = p.nextIndex ∧ t.prov.unsignedCount = ctrAdd p.unsignedCount 1) ∧
      (p.signer = 1 → Answers .manifestSign s s)) ∧
    (p.unsignedQ = m :: rest → 64 ≤ p.held.length → Answers .manifestSign s s) ∧
    (∀ g bs, p.held = m :: rest → p.ring = some g → m.bytes = some bs → Memory.wf s.host = true →
      let o := g.prod.toNat % max 1 g.bytes
      let first := min bs.length (g.bytes - o)
      (g.stopped = true ∨ g.bytes < (g.prod - g.cons).toNat + bs.length → Answers .manifestWrite s s) ∧
      (g.stopped = false → (g.prod - g.cons).toNat + bs.length ≤ g.bytes → ∃ t h1 h2, Answers .manifestWrite s t ∧
        StoredAt (g.base + o) (bs.take first) s.host h1 ∧ StoredAt g.base (bs.drop first) h1 h2 ∧
        StoredAt g.prodLine (countLine (g.prod + BitVec.ofNat 64 bs.length)) h2 t.host ∧ t.prov.held = rest ∧
        t.prov.ring = some { g with prod := g.prod + BitVec.ofNat 64 bs.length } ∧
        (s.dev.unmasked.contains 1056 = true → t.outputs = s.outputs ++ [.msix 1056]))))

/-- R218, R230, R232, R233: while blocks are withheld no gap record of the run goes out; then it does, and the run is over.
The flash's confirmation of a chunk's record puts it into both copies of the index log and reserves the chunk's indices; a
failed program leaves the chunk pending. The next bottom tree is made, and stands in the tree store under its MAC, and the
subtree that the signer needs is rebuilt; SIGNER_STATE follows what the signer has. Where nothing is lacking these events
change nothing. -/
def Obligations.TheSignerGetsWhatItLacks : Prop :=
  ∀ s : State, s.dev.mode = .serving →
    let p := s.prov
    let only (t : State) : Prop := t = { s with prov := t.prov, dev := t.dev, outputs := t.outputs } ∧
      t.prov.signer = signerState t.prov
    (∀ c, p.pendingChunk = some c →
      (∃ t, Answers (.flashProgramConfirm true) s t ∧ only t ∧ t.prov.reservedEnd = (c + 1) * 4096 ∧
        t.prov.pendingChunk = none ∧ t.prov.flashFails = 0 ∧ t.prov.logRecords = ctrAdd p.logRecords 1 ∧
        t.prov.logSeq = (p.logSeq + 1) % 2 ^ 32 ∧ t.dev.flash = logWrite s.dev.logSectors c p.logSeq s.dev.flash) ∧
      (∃ t, Answers (.flashProgramConfirm false) s t ∧ only t ∧ t.prov.pendingChunk = some c ∧
        t.prov.flashFails = p.flashFails + 1 ∧ t.prov.reservedEnd = p.reservedEnd)) ∧
    (p.pendingChunk = none → ∀ ok, Answers (.flashProgramConfirm ok) s s) ∧
    (p.nextTree = true → Answers .nextTreeReady s s) ∧
    (p.treeReady = false ∨ p.subtreeReady = true → Answers .subtreeRebuild s s) ∧
    (withholding s = true → ∀ i, Answers (.withheldGapWrite i) s s) ∧
    (p.nextTree = false → p.nextIndex < 2 ^ 40 →
      (p.treeReady = false → ∃ t, Answers .nextTreeReady s t ∧ only t ∧ t.prov.treeReady = true ∧
        treeHeld t.dev.flash (p.nextIndex / 2 ^ 20) = true) ∧
      (p.treeReady = true → p.nextIndex / 2 ^ 20 < 2 ^ 20 - 1 → ∃ t, Answers .nextTreeReady s t ∧ only t ∧
        t.prov.nextTree = true ∧ treeHeld t.dev.flash (p.nextIndex / 2 ^ 20 + 1) = true)) ∧
    (p.treeReady = true → p.subtreeReady = false → ∃ t, Answers .subtreeRebuild s t ∧ only t ∧
      t.prov = { p with subtreeReady := true, signer := t.prov.signer }) ∧
    (∀ i st b x y m, withholding s = false → Memory.wf s.host = true → tget? s.streams i = some st →
      st.binding = some b → tget? s.bindings b = some x → x.held = [] → x.withheld = some m → m.final = false → x.targets = [y] →
      y.missed = none → y.abandoned = false → y.full = false → ∃ t h, Answers (.withheldGapWrite i) s t ∧
        t = { s with host := t.host, hostPoison := t.hostPoison, bindings := tset s.bindings b { x with
          withheld := none, targets := [{ y with prod := y.prod + 1, lastBseq := m.first }] } } ∧
        StoredAt (y.base + y.prod.toNat % y.slots * y.slotBytes) (padTo y.slotBytes (gapRecord m)) s.host h ∧
        StoredAt y.prodLine (leBytes 8 (y.prod + 1).toNat ++ leBytes 8 m.first ++ List.replicate 48 0) h t.host)

/-- R219, R220, R224, R228, R383: LOAD_KEY loads a slot that no stream uses; WM_CONFIG of a stream sets its strength and
the key slot and tag that wait; WM_DETECT writes the best candidate; PROV_CONFIG's values wait for the next tick; ATTEST
writes the report, signed with the next index, and waits while the signer is STALLED. -/
def Obligations.WatermarkAndAttestationCommandsComplete : Prop :=
  ∀ (s : State) (u : Nat) (c : Cmd),
    (Startable u opWmConfig c s →
      (∀ k, 1 ≤ k → k ≤ 63 → c.arg = 256 * k →
        (∀ e ∈ s.streams, e.2.state ≠ 0 → e.2.keySlot ≠ k ∧ e.2.nextKeySlot ≠ some k) →
        ∃ t, Answers (.loadKey u) s t ∧ Completes c stOk 0 { s with wmKeys := tset s.wmKeys k (padTo 32 c.params) } t) ∧
      (c.arg = 1 → ownStream s c (c.p 0 2) = true → c.p 2 1 < 64 → (c.p 2 1 = 0 ∨ thas s.wmKeys (c.p 2 1) = true) →
        40 ≤ c.p 3 1 → c.p 3 1 ≤ 120 → ∃ t, Answers (.wmConfigStream u) s t ∧
        Completes c stOk 0 (s.modStream (c.p 0 2) (fun st => { st with
          strength := c.p 3 1, nextKeySlot := some (c.p 2 1), nextTag := some (c.p 8 8 % 2 ^ 34) })) t)) ∧
    (∀ cyc a bs r, Pumping u opWmDetect c s → wellAddr (c.p 0 8) = some a →
      let pcm24 := bitOf (c.p 12 1) 0
      readFrom c.cores.head? (.well a) (c.p 8 4 * (if pcm24 then 3 else 2)) s = (.bytes bs, r) →
      ∃ t, Answers (.wmDetect u cyc) s t ∧ Completes c stOk 0 (leavePump u cyc (hostWrite (c.p 48 8)
        (detectResult (detectBest (wmKey r (c.p 13 1)) c ((List.range (c.p 8 4)).map (pcmValue pcm24 bs)))) r)) t) ∧
    (Startable u opProvConfig c s → 10 ≤ c.p 0 2 → c.p 0 2 ≤ 1000 → c.p 0 2 % 10 = 0 → 1 ≤ c.p 2 1 → c.p 2 1 ≤ 100 →
      let ring := c.params.drop 8
      let cfg : ProvCfg := { intervalMs := c.p 0 2, segBlocks := c.p 2 1, cut := bitOf (c.p 3 1) 0 }
      (bitOf (c.p 3 1) 1 = false → ∃ t, Answers (.provConfig u) s t ∧
        Completes c stOk 0 { s with prov := { s.prov with nextCfg := some cfg } } t) ∧
      (bitOf (c.p 3 1) 1 = true → failing (targetChecks ring 0) = [] → 8 * 2 ^ 20 ≤ (mringOf ring).bytes →
        ∃ t, Answers (.provConfig u) s t ∧ Completes c stOk 0 { s with
          rings := s.rings + 1
          prov := { s.prov with nextCfg := some cfg, nextRing := some { mringOf ring with made := s.rings } } } t)) ∧
    (s.prov.signer = 1 → Answers (.attest u) s s) ∧
    (Startable u opAttest c s → s.prov.signer = 0 → s.prov.nextIndex < lastIndex → Memory.wf s.host = true →
      let q := s.prov.nextIndex
      let msg := reportBytes s ((c.params.drop 16).take 16) (some q)
      let total := cdiv (0x770 + 48 * s.images.length + 3604) 64 * 64
      c.p 0 8 + total ≤ 2 ^ 52 → total ≤ c.p 8 4 →
      ∃ t r, Answers (.attest u) s t ∧ Completes c stOk 0 r t ∧ r.prov.nextIndex = q + 1 ∧
        r = { s with prov := r.prov, dev := r.dev, outputs := r.outputs, host := r.host, hostPoison := r.hostPoison } ∧
        StoredAt (c.p 0 8) (pad64 (msg ++ hssSignature q msg)) s.host r.host)

-- ## Streams and loops

/-- R101, R102, R104, R108 to R110, R115, R283: STREAM_OPEN without a loop opens the stream on its spout and completes; with a
loop the stream takes the lowest free lane and the command waits for its first block. STREAM_FEED sets FEED_LIMIT, and
with TRIM the pacer of the stream's loop. STREAM_MARK leaves the mark pending, and waits while another mark is; one that
waited for a mark of its own index completes with it. STREAM_CLOSE of a loop's stream, or of the loop, sets where it ends,
and waits for that. -/
def Obligations.StreamCommandsChangeTheirStream : Prop :=
  ∀ (s : State) (u : Nat) (c : Cmd),
    let i := c.p 0 2
    (∀ y, Startable u opStreamOpen c s → s.ctx? c.ctx = some y → silenced s c.ctx = false →
      let l := c.p 2 2
      let b := c.p 4 2
      let loop := if l != 0xFFFF then openLoop s c l else none
      let bind := tget s.bindings b {}
      let bl := match loop with | some x => x.blockLen | none => bind.blockLen
      let k := spoutFor s loop b
      let need := stagingFor (match loop with | some x => x.deadline | none => 2) bl
      let st : Stream :=
        { ctx := c.ctx, hopLen := c.p 6 2, frameBytes := c.p 8 2, binding := if b == 0xFFFF then none else some b
          feedBase := c.p 16 8, feedFrames := c.p 24 4, spout := k, reserved := need, blockLen := bl
          rate := match loop with | some x => x.rate | none => bind.rate }
      failing (openChecks s c y (l != 0xFFFF) loop) = [] → poolReserved s k + poolClaimed s k + need ≤ 4 * 2 ^ 20 →
      spoutLoad s k < 512 →
      (l = 0xFFFF → noSpout s b = false → closesCycle y bl = false → ∃ t r, Answers (.streamOpen u) s t ∧
        Completes c stOk 0 r t ∧ (tget? r.bindings b).map (fun x => x.stream) = some (some i) ∧
        r = { s with streams := tset s.streams i { st with state := 1 }, bindings := r.bindings, pwr := r.pwr }) ∧
      (∀ x j, loop = some x → freeLane x = some j → ∃ t, Answers (.streamOpen u) s t ∧
        t = { s with streams := t.streams, bindings := t.bindings, loops := t.loops, pwr := t.pwr, inflight := t.inflight } ∧
        t.streams = tset s.streams i { st with state := 2, lane := some j, loop := some l, openCmd := some u } ∧
        (tget? t.loops l).map (fun x => tget? x.lanes j) = some (some i) ∧
        (t.cmd? u).map (fun d => d.phase) = some .accepted)) ∧
    (∀ st, tget? s.streams i = some st → st.state ≠ 0 → st.ctx = c.ctx →
      (Startable u opStreamFeed c s → (BitVec.ofNat 32 (c.p 4 4) - st.feedLimit).toNat < 2 ^ 31 →
        let fed := tset s.streams i { st with feedLimit := BitVec.ofNat 32 (c.p 4 4) }
        (bitOf (c.p 2 1) 0 = false → ∃ t, Answers (.streamFeed u) s t ∧ Completes c stOk 0 { s with streams := fed } t) ∧
        (∀ l x, bitOf (c.p 2 1) 0 = true → st.loop = some l → tget? s.loops l = some x → -1000000 ≤ c.pInt 8 →
          c.pInt 8 ≤ 1000000 → ∃ t, Answers (.streamFeed u) s t ∧ Completes c stOk 0 { s with
            streams := fed
            loops := tset s.loops l { x with trim := c.pInt 8, pacerInc := pacerIncOf x.rate (c.pInt 8) } } t)) ∧
      (s.cmd? u = some c → st.markPending = true → Answers (.streamMark u) s s) ∧
      (Startable u opStreamMark c s → st.markPending = false → c.landed = true → ∃ t, Answers (.streamMark u) s t ∧
        Completes c stOk 0 s t) ∧
      (Startable u opStreamMark c s → st.markPending = false → c.landed = false → st.ended = false → st.sampleIndex ≤ c.p 8 6 →
        (∀ e, endOfStream s st = some e → c.p 8 6 < e) → ∃ t, Answers (.streamMark u) s t ∧
        (tget? t.streams i).map (fun x => (x.markPending, x.markIndex, x.markCmd)) = some (true, c.p 8 6, some u) ∧
        (st.chunks = [] → (t.cmd? u).map (fun d => d.phase) = some .accepted)) ∧
      (∀ l, Startable u opStreamClose c s → bitOf (c.p 2 1) 0 = false → st.state ≠ 3 → st.ended = false → st.loop = some l →
        ∃ t, Answers (.streamClose u) s t ∧ t = { s with streams := t.streams, inflight := t.inflight } ∧
        (let e := c.p 8 6
         let idx := if e = 2 ^ 48 - 1 ∨ e ≤ st.sampleIndex then none else some e
         t.streams = tset s.streams i { st with
          state := 3, closing := true, endIndex := idx, closeCmd := some u
          finalAt := if idx = none then (tget? s.loops l).map (fun x => x.blockIndex) else none }) ∧
        (t.cmd? u).map (fun d => d.phase) = some .accepted)) ∧
    (∀ x, Startable u opStreamClose c s → bitOf (c.p 2 1) 0 = true → openLoop s c i = some x → x.stopped = false →
      ∃ t, Answers (.streamClose u) s t ∧ t = { s with streams := t.streams, loops := t.loops, inflight := t.inflight } ∧
      tget? t.loops i = some { x with closing := true, closeCmd := some u } ∧
      (∀ e ∈ x.lanes, ∀ st, tget? s.streams e.2 = some st →
        tget? t.streams e.2 = some { st with state := 3, closing := true, finalAt := some x.blockIndex }) ∧
      (t.cmd? u).map (fun d => d.phase) = some .accepted)

/-- Nothing that a plan could read is upset, poisoned or withdrawn. -/
def NoErrors (s : State) : Prop :=
  s.upsets = {} ∧ s.cisPoison = [] ∧ s.accPoison = [] ∧ s.wellPoison = [] ∧ ∀ d, (s.well d).withdrawn = []

/-- A plan has no HISTORY scale point, so that its starts and commits copy no history. -/
def NoHistory (p : Plan) : Prop := ∀ w ∈ p.scalePoints, (scalePoint w).src ≠ 0

/-- n bytes from an offset lie in the context region of a plan's first core. -/
def FirstFits (s : State) (as : List At) (off n : Nat) : Prop :=
  ∃ a rest r, as = a :: rest ∧ regionFor s a none = some r ∧ off + n ≤ r.size * 8192

/-- R95, R97, R98, R100, R103, R107, R109, R110, R114, R276, R284: an admitted STREAM_LOOP whose context holds its slots
stands from then on; stated for a plan without images. The pacer ticks at each carry of its phase. At its gate a block in
which no lane steps is skipped; another, once it is served, starts on the loop's cores, from step 0, and a RUN that a tier-1
block finds there is killed and waits to run again; stated for a plan without images or HISTORY points whose areas lie in its region.
A step of the loop updates the state row of its gate, and at its end delivers the sample of each stepping lane: stated for
one core and one stepping lane. A block that a mark has made obsolete is discarded at the end of its step. The commit swaps
the halves and goes on to the next block: stated for a plan without HISTORY points and commit writes. No due tick passes
before its time. The next chunk of a RUN-vocoded stream, once it is committed, goes to the spout: the stream's sample index
moves past it, and its staging is free; stated for a chunk that is not the last, of a stream that no mark, end, wait or
withheld run concerns. -/
def Obligations.LoopsAndChunksRunInSampleOrder : Prop :=
  (∀ (s : State) (u : Nat) (c : Cmd) (p : Plan) (y : Ctx), Startable u opStreamLoop c s → s.ctx? c.ctx = some y →
    let x := loopOfParams c p
    failing (loopChecks s c p y) = [] → silenced s c.ctx = false → tget? s.loops (c.p 0 2) = none → p.images = [] →
    (y.realtime = true → x.freeRun = false → admits s x = true) → (∀ g ∈ x.cores, (slotOf s c.ctx g).isSome = true) →
    failing (placedChecks s c x.plan) = [] → armsBusy s c.ctx x.plan x.cores = false →
    ∃ t, Answers (.streamLoop u p) s t ∧ tget? t.loops (c.p 0 2) = some { x with admitted := true, stopped := false } ∧
      t = { s with loops := t.loops, ctxs := t.ctxs, pwr := t.pwr, inflight := t.inflight, floats := t.floats } ∧
      (t.cmd? u).map (fun d => (d.phase, d.object, d.cores)) = some (.accepted, some (c.p 0 2), x.cores)) ∧
  (∀ (s : State) (l : Nat) (x : Loop), s.dev.mode = .serving → tget? s.loops l = some x → x.stopped = false →
    let due := lanesDue s x
    let as := loopPlaces s x
    let loops (t : State) := tget? t.loops l
    (x.pacerInc ≠ 0 → ∃ t n, Answers (.pacerTick l) s t ∧ 2 ^ 48 ≤ x.pacer.toNat + n * x.pacerInc.toNat ∧
      x.pacer.toNat + n * x.pacerInc.toNat < 2 ^ 48 + x.pacerInc.toNat ∧
      t = { s with loops := tset s.loops l { x with
        ticks := satAdd 64 x.ticks 1, pacer := BitVec.ofNat 48 (x.pacer.toNat + n * x.pacerInc.toNat) } }) ∧
    (∀ ran, x.running = true ∨ x.dead = true ∨ x.admitted = false ∨ gateReached x = false →
      Answers (.blockGate l ran) s s) ∧
    (∀ ran, x.running = false → x.dead = false → x.admitted = true → gateReached x = true →
      (due = [] → x.closing = false → ∃ t, Answers (.blockGate l ran) s t ∧
        (loops t).map (fun z => (z.blockIndex, z.running, z.stepping)) = some (satAdd 64 x.blockIndex 1, false, none)) ∧
      (due ≠ [] → blockServed s l x = false → Answers (.blockGate l ran) s s) ∧
      (∀ c, due ≠ [] → blockServed s l x = true → NoErrors s → s.cmd? x.cmd = some c → c.opcode = opStreamLoop →
        c.object = some l → c.ctx = x.ctx → x.plan.images = [] → NoHistory x.plan → waiting (isLoopCharge l) s = false →
        (∀ g ∈ x.cores, coreFlowing s g = true ∧ (s.dom (clusterOfCore g)).state = 0 ∧
          (s.dom (uncoreOf (clusterOfCore g))).state = 0 ∧ settled s g = true) →
        (x.stepping ≠ none → armsBusy s x.ctx x.plan x.cores = false) → (∀ e ∈ x.lanes, e.1 < x.lanesMax) →
        (∀ a ∈ as, x.stateBase + 2 * x.stateRows ≤ (ownRegion s a).accSize * 64) → as.length = x.split →
        FirstFits s as x.plan.posOff (512 * x.split) → (∀ off, x.plan.tempOff = some off → FirstFits s as off 256) →
        ∃ t, Answers (.blockGate l ran) s t ∧ (∀ g ∈ x.cores, (t.core g).running = some x.cmd) ∧
          (loops t).map (fun z => (z.running, z.stepsDone, z.satBlock, z.blockIndex, z.stepping)) =
            some (true, 0, 0, x.blockIndex, some (due.map Prod.fst)) ∧
          (tierOne s x = true → ∀ g ∈ x.cores, ∀ d, runningOn s g = some d → d.opcode = opRun →
            (t.cmd? d.uid).map (fun e => (e.phase, e.rerunDue)) = some (Phase.ready, true)))) ∧
    (∀ cyc c, s.cmd? x.cmd = some c → c.opcode = opStreamLoop → c.object = some l → NoErrors s → NoHistory x.plan →
      x.plan.commit = [] → FirstFits s as x.plan.posOff (512 * x.split) → x.running = true →
      x.stepsDone = x.blockLen → x.rerunAsked = false → x.closing = false → satPasses c x.satBlock = false →
      ∃ t, Answers (.blockCommit l cyc) s t ∧ (∀ g, (t.core g).running ≠ some x.cmd) ∧
      (loops t).map (fun z => (z.committedHalf, z.blockIndex, z.running, z.stepping, z.pos)) =
        some (!x.committedHalf, satAdd 64 x.blockIndex 1, false, none, x.workPos)) ∧
    (∀ cyc, x.running = false ∨ x.stepsDone ≠ x.blockLen ∨ x.rerunAsked = true → Answers (.blockCommit l cyc) s s) ∧
    (x.running = false ∨ x.blockLen ≤ x.stepsDone → Answers (.streamStep l) s s) ∧
    (x.running = true → x.stepsDone < x.blockLen → (∀ a ∈ as, ∀ g, stepAt s a ≠ some (.gate g)) →
      atEnd s x.plan x.cores = true → x.rerunAsked = true → ∃ t, Answers (.streamStep l) s t ∧
      (loops t).map (fun z => (z.running, z.stepsDone, z.workPos, z.rerunAsked)) = some (false, 0, x.pos, false)) ∧
    (x.freeRun = true ∨ x.ticks < (x.nextDue + x.deadline) * x.blockLen → Answers (.dueTick l) s s) ∧
    (x.freeRun = false → x.dead = false → (x.nextDue + x.deadline) * x.blockLen ≤ x.ticks → ∃ t, Answers (.dueTick l) s t ∧
      (loops t).map (fun z => (z.nextDue, z.blockIndex)) = some (x.nextDue + 1, x.blockIndex))) ∧
  (∀ (s : State) (l i lane : Nat) (x : Loop) (a : At) (st : Stream), s.dev.mode = .serving → NoErrors s →
    tget? s.loops l = some x → loopPlaces s x = [a] → x.running = true → x.stepsDone < x.blockLen →
    x.stepping = some [lane] → tget? x.lanes lane = some i → tget? s.streams i = some st →
    (∀ (g : GateOp) hs zs rs ns, stepAt s a = some (.gate g) → g.bz = none → g.br = none → g.bn = none →
      let n := g.rows * 64
      RowAt s a (x.stateBase + lane * laneRows x) 0 n hs → hs.Nodup → RowAt s a (g.az + lane * g.rows) 0 n zs →
      RowAt s a (g.ar + lane * g.rows) 0 n rs → RowAt s a (g.an + lane * g.rows) 0 n ns →
      ∃ t, Answers (.streamStep l) s t ∧ (t.core a.core).pos = (s.core a.core).pos + 1 ∧ t.streams = s.streams ∧
        let h := valuesAt s hs
        let z := valuesAt s zs
        let r := valuesAt s rs
        let c := valuesAt s ns
        KeysWritten hs ((List.range n).map (fun j => (gateValue (h.getD j 0) (z.getD j 0) (r.getD j 0) (c.getD j 0)).1)) s t) ∧
    (∀ q v, (∀ g, stepAt s a ≠ some (.gate g)) → atEnd s x.plan x.cores = true → x.rerunAsked = false →
      st.markPending = false → x.plan.loopSamples.find? (fun q => q.lane == lane) = some q → q.rank = a.rank →
      RowIs s a q.src 1 [v] → ∃ t, Answers (.streamStep l) s t ∧
        t = { s with loops := t.loops, streams := t.streams, inflight := t.inflight, cores := t.cores } ∧
        (tget? t.loops l).map (fun z => (z.stepsDone, z.running)) = some (x.stepsDone + 1, true) ∧
        tget? t.streams i = some { st with
          staged := st.staged ++ [(spoutWord (isLinear s st) q.src v).1], steps := st.steps + 1 } ∧
        ∀ g ∈ x.cores, (t.core g).pos = if x.stepsDone + 1 = x.blockLen then (s.core g).pos else 0)) ∧
  (∀ (s : State) (i : Nat) (st : Stream) (k : Chunk), s.dev.mode = .serving → tget? s.streams i = some st →
    st.loop = none → st.finished = false → withholding s = false → silenced s st.ctx = false → st.markPending = false →
    st.endIndex = none → (∀ b x, st.binding = some b → tget? s.bindings b = some x → x.held = [] ∧ x.withheld = none) →
    (k ∈ st.chunks → k.committed = true → k.released = false → k.start = st.sampleIndex → k.final = false →
      (∀ j ∈ st.chunks, j = k ∨ j.uid ≠ k.uid ∧ (j.start ≠ st.sampleIndex ∨ j.committed = false ∨ j.released = true)) →
      0 < st.blockLen → st.nextBseq + k.samples.length < 2 ^ 48 - 1 →
      ∃ t x, Answers (.chunkRelease i) s t ∧ tget? t.streams i = some x ∧ x.sampleIndex = k.start + k.len ∧
        x.voice = k.voice ∧ ∀ j ∈ x.chunks, j.uid = k.uid → j.released = true) ∧
    ((∀ j ∈ st.chunks, j.released = false ∧ (j.committed = false ∨ j.start ≠ st.sampleIndex)) → st.state ≠ 3 →
      ∃ t, Answers (.chunkRelease i) s t ∧ tget? t.streams i = some st ∧ t = { s with streams := t.streams }))

-- ## Commands that packets carry

/-- R206, R263, R280, R286 to R289, R292, R396: CTX_CREATE makes the context of the descriptor that it reads, CTX_DESTROY
leaves none, CTX_PIN pins it. CTX_SAVE writes the image, CTX_RESTORE makes everything that an image names, SCRUB zeroes
what it names, STATS_SNAPSHOT writes the page. CTX_SAVE is stated where nothing that it reads is upset or poisoned. -/
def Obligations.ContextCommandsComplete : Prop :=
  ∀ (s r : State) (u : Nat) (c : Cmd),
    (∀ ad d, Startable u opCtxCreate c s → typedAddr (c.p 0 8) = some ad → addrOk s ad 64 = true → s.ctx? c.ctx = none →
      readAt ad 64 (startCmd u s) = (.bytes d, r) → field d 0 2 = c.ctx → failing (descChecks r c.ctx d) = [] →
      ∃ t, Answers (.ctxCreate u) s t ∧
      Completes c stOk 0 (countFetch c { r with inflight := s.inflight, ctxs := tset r.ctxs c.ctx (ctxOfDesc d) }) t) ∧
    (Startable u opCtxDestroy c s → ∃ t, Answers (.ctxDestroy u) s t ∧ t.ctx? c.ctx = none ∧
      (∀ k, k ≠ c.ctx → (t.ctx? k).isSome = (s.ctx? k).isSome) ∧ ∀ d ∈ t.inflight, d.uid ≠ u) ∧
    (Startable u opCtxPin c s → c.p 0 1 ≤ 1 → ∃ t, Answers (.ctxPin u) s t ∧
      Completes c stOk 0 (pinSlots c.ctx (c.p 0 1 == 1) s) t ∧
      ∀ g k, slotOf s c.ctx g = some k → ((t.core g).regions.getD k {}).pinned = (c.p 0 1 == 1)) ∧
    (∀ cyc x dst, Pumping u opCtxSave c s → (∀ e ∈ s.loops, u ∉ e.2.saves) → s.ctx? c.ctx = some x →
      typedAddr (c.p 0 8) = some dst → NoErrors s → writeTo c.cores.head? dst (saveImage s c x).1 s = (true, r) →
      ∃ t, Answers (.ctxSave u cyc) s t ∧ Completes c stOk 0 (leavePump u cyc r) t) ∧
    (∀ ad b q, Startable u opCtxRestore c s → typedAddr (c.p 0 8) = some ad → addrOk s ad (c.p 8 8) = true → 256 ≤ c.p 8 8 →
      s.ctx? c.ctx = none → readAt ad (c.p 8 8) (startCmd u s) = (.bytes b, r) → failing (imgForm b (c.p 8 8)) = [] →
      failing (restoreChecks r c.ctx b) = [] → restoreSeqs c.ctx (imgSeqs b) (imgEntries b) r = some q →
      ∃ t, Answers (.ctxRestore u) s t ∧ Completes c stOk 0 (countFetch c { restoreAll c.ctx b q with inflight := s.inflight }) t) ∧
    (∀ cyc, Pumping u opScrub c s → ∃ t, Answers (.scrub u cyc) s t ∧
      Completes c stOk 0 (leavePump u cyc (scrubAll c s)) t ∧
      ∀ x p, Memory.wf s.wellMem = true → bitOf (c.p 0 1) 0 = false → bitOf (c.p 0 1) 1 = true → s.ctx? c.ctx = some x →
        p ∈ x.pool → (∀ d, (s.well d).withdrawn = []) → ∀ a, inRange (p * 65536) 65536 a → mget t.wellMem a = 0) ∧
    (∀ x, Startable u opStatsSnapshot c s → c.p 0 8 % 4096 = 0 → c.p 0 8 + 4096 ≤ 2 ^ 52 → s.ctx? c.ctx = some x →
      (c.p 8 1 = 0 → ∃ t, Answers (.statsSnapshot u) s t ∧
        Completes c stOk 0 (hostWrite (c.p 0 8) (contextPage s c.ctx x) s) t) ∧
      (c.p 8 1 = 1 → ∃ t, Answers (.statsSnapshot u) s t ∧
        Completes c stOk 0 (hostWrite (c.p 0 8) (devicePage s) s) t))

/-- R238, R243, R247, R253, R257, R423: QUEUE_OPEN opens the queue it describes; QUEUE_CLOSE waits for the queue's last
command and record, counts those that retired, and the queue is closed. KILL of nothing and KILL of one command that is no
STREAM_LOOP end what they name and themselves, FENCE completes as soon as it starts. A packet with a vendor opcode completes
with ST_BAD_OPCODE at its fetch; VENDOR_DEBUG is the visit that fetches one such packet (the model's cut, assumption 1).
Valves are set, signalled here or by a VALVE message, and waited for until the count reaches TARGET or the time is over. -/
def Obligations.QueueAndValveCommandsComplete : Prop :=
  ∀ (s : State) (u : Nat) (c : Cmd),
    let v := c.p 0 2 % 2 ^ 14
    let gone (t : State) : Prop := ∀ d ∈ t.inflight, d.uid ≠ u
    (Startable u opQueueOpen c s → failing (queueOpenChecks s c) = [] →
      let x : Queue := { opened := true, sqLog := c.p 2 1, cqLog := c.p 3 1, maxInflight := c.p 4 2, notify := c.p 6 2,
                         sqBase := c.p 8 8, cqBase := c.p 16 8, lineBase := c.p 24 8 }
      ∃ t, Answers (.queueOpen u) s t ∧ Completes c stOk 0 { s with queues := tset s.queues (c.p 0 2) x } t) ∧
    (∀ x, Startable u opQueueClose c s → c.p 0 2 ≠ 0 → s.queue? (c.p 0 2) = some x → x.opened = true → x.closing = none →
      (∀ d ∈ s.inflight, d.queue ≠ c.p 0 2 ∨ d.opcode ≠ opStreamLoop) → ∃ t, Answers (.queueClose u) s t ∧
      t = { s with queues := tset s.queues (c.p 0 2) { x with closing := some u }, inflight := t.inflight } ∧
      (t.cmd? u).map (fun d => (d.phase, d.object)) = some (.accepted, some (c.p 0 2))) ∧
    (∀ q, s.cmd? u = some c → s.dev.mode = .serving → c.opcode = opQueueClose → c.phase = .accepted → c.started = true →
      c.object = some q →
      ((∃ d ∈ s.inflight, d.queue = q ∧ d.uid ≠ u) ∨ (∃ x, s.queue? q = some x ∧ x.waits ≠ []) →
        Answers (.queueClosed u) s s) ∧
      ((∀ d ∈ s.inflight, d.queue ≠ q ∨ d.uid = u) → (∀ x, s.queue? q = some x → x.waits = []) → ∃ t r, Answers (.queueClosed u) s t ∧
        Completes c stOk c.tally s r ∧ t = { r with queues := tdel r.queues q })) ∧
    (Startable u opKill c s → c.p 0 1 ≤ 2 → (c.p 0 1 ≠ 2 → c.p 2 2 ≤ 1023) →
      (killTargets s c = [] → ∃ t, Answers (.kill u) s t ∧ Completes c stOk 0 s t) ∧
      (∀ d, killTargets s c = [d] → s.cmd? d.uid = some d → d.opcode ≠ opStreamLoop → ∃ t, Answers (.kill u) s t ∧ gone t ∧
        ∀ e ∈ t.inflight, e.uid ≠ d.uid)) ∧
    (Startable u opFence c s → ∃ t, Answers (.fence u) s t ∧ Completes c stOk 0 s t) ∧
    (∀ q x, s.dev.mode = .serving → s.queue? q = some x → (∀ d ∈ s.inflight, d.uid ≠ s.nextUid) →
      let d := parsePacket (hostRead s (x.sqBase + x.head.toNat % 2 ^ x.sqLog * 64) 64) s.nextUid q s.hubCycle
      (nextQueue s ≠ some q ∨ isVendor d.opcode = false → Answers (.vendorDebug q) s s) ∧
      (nextQueue s = some q → isVendor d.opcode = true → ∃ t, Answers (.vendorDebug q) s t ∧ t.inflight = s.inflight ∧
        t.nextUid = s.nextUid + 1 ∧ (t.queue? q).map (fun y => y.head) = some (x.head + 1) ∧
        t.valves = s.valves ∧ t.wellMem = s.wellMem ∧ t.cis = s.cis ∧ t.cores = s.cores ∧
        (Memory.wf s.host = true → x.discards = false → ringRoom x →
          (recordAddr x + 32 ≤ x.lineBase + 0x40 ∨ x.lineBase + 0xC0 ≤ recordAddr x) →
          RecordOf d stBadOpcode 0 (mread t.host (recordAddr x) 32)))) ∧
    (Startable u opValveSet c s → ∃ t, Answers (.valveSet u) s t ∧
      Completes c stOk 0 { s with valves := tset s.valves v (BitVec.ofNat 32 (c.p 4 4)) } t) ∧
    (Startable u opValveSignal c s →
      (c.p 2 2 = 0xFFFF ∨ s.dev.numValid = true ∧ c.p 2 2 = selfDev s → ∃ t, Answers (.valveSignal u) s t ∧
        Completes c stOk 0 { s with valves := tset s.valves v (tget s.valves v 0 + BitVec.ofNat 32 (c.p 4 4)) } t) ∧
      (c.p 2 2 < 2 ^ 14 → s.dev.numValid = false ∨ c.p 2 2 ≠ selfDev s →
        let m : Msg := { type := 1, vc := vcSync, dest := c.p 2 2, data := leBytes 4 v ++ leBytes 4 (c.p 4 4) }
        ∃ t, Answers (.valveSignal u) s t ∧
        Completes c stOk 0 { (sendMsg m (startCmd u s)) with inflight := s.inflight } t)) ∧
    (Startable u opValveWait c s → ∃ t, Answers (.valveWait u) s t ∧ t = { s with inflight := t.inflight } ∧
      (t.cmd? u).map (fun d => d.phase) = some .accepted) ∧
    (s.cmd? u = some c → s.dev.mode = .serving → c.opcode = opValveWait → c.phase = .accepted → c.started = true →
      c.cores = [] →
      (valveReached s c = true → (∃ t, Answers (.valveWaitPass u) s t ∧ Completes c stOk 0 s t) ∧
        Answers (.valveWaitTimeout u) s s) ∧
      (valveReached s c = false → Answers (.valveWaitPass u) s s ∧
        (c.p 8 4 ≠ 0 → ∃ t, Answers (.valveWaitTimeout u) s t ∧ Completes c stKilled byValveTimeout s t)))

/-- R21, R46, R47, R306 to R315: COPY and FILL write their bytes at DST, in any of the three spaces, count their float once
and complete. A siphon transfer of SIPHON_PUT travels; at its arrival it writes its bytes and counts its float, or R27
discards it and its command ends. RESIDE gives each named core a region of the image and records owners and hash; UNRESIDE
releases the image on the named cores that no plan occupies, and completes once none of them holds it. -/
def Obligations.TransferCommandsMoveTheirBytes : Prop :=
  (∀ (s r q : State) (u cyc : Nat) (c : Cmd) (dst : Addr) (bs : List Byte),
    let ends : State := leavePump u cyc (floatInc (c.p 24 2) (c.p 26 2) q).2
    let puts : Prop := floatLive r (c.p 24 2) (c.p 26 2) = true ∧ writeTo c.cores.head? dst bs r = (true, q)
    let moved : Prop := MemoriesOk r → (∀ d, (r.well d).withdrawn = []) → Moved dst bs r q
    (∀ src, Pumping u opCopy c s → typedAddr (c.p 0 8) = some src → typedAddr (c.p 8 8) = some dst →
      readFrom c.cores.head? src (c.p 16 6) s = (.bytes bs, r) → puts →
      ∃ t, Answers (.copy u cyc) s t ∧ Completes c stOk 0 ends t ∧ moved) ∧
    (Pumping u opFill c s → typedAddr (c.p 0 8) = some dst → bs = fillBytes (leBytes 8 (c.p 16 8)) (c.p 8 6) → r = s → puts →
      ∃ t, Answers (.fill u cyc) s t ∧ Completes c stOk 0 ends t ∧ moved)) ∧
  (∀ (s : State) (u : Nat) (c : Cmd), Startable u opSiphonPut c s → siphonDst s (c.p 0 4) (c.p 4 2) = true →
    floatTarget s (c.p 6 2) (c.p 8 2) = true →
    let x : Siphon := { dst := c.p 0 4, data := (c.params.drop 16).take (c.p 4 2), float := BitVec.ofNat 16 (c.p 6 2),
                        inc := BitVec.ofNat 16 (c.p 8 2), uid := some u }
    ∃ t, Answers (.siphonPut u) s t ∧ t = { s with inflight := t.inflight, siphon := s.siphon ++ [x] } ∧
    (t.cmd? u).map (fun d => d.phase) = some .accepted) ∧
  (∀ s : State, s.dev.mode = .serving → s.siphon = [] → Answers .siphonArrival s s) ∧
  (∀ (s : State) (x : Siphon) (rest : List Siphon), s.dev.mode = .serving → s.siphon = x :: rest →
    let lands : Prop := csAllowed s x.dst x.data.length = true ∧ floatLive s x.float.toNat x.inc.toNat = true
    (lands → ∃ t r, Answers .siphonArrival s t ∧
      r = { s with siphon := rest, cis := r.cis, cisPoison := r.cisPoison, upsets := r.upsets, perf := r.perf
                   floats := r.floats } ∧
      (Memory.wf s.cis = true → StoredAt x.dst x.data s.cis r.cis) ∧
      floatGet r (floatCore x.float.toNat) (floatPhys x.float.toNat) =
        floatGet s (floatCore x.float.toNat) (floatPhys x.float.toNat) + BitVec.ofNat 32 x.inc.toNat ∧
      (x.uid = none ∨ x.fromPlan = true → t = r) ∧
      (∀ u c, x.uid = some u → x.fromPlan = false → s.cmd? u = some c → c.started = true → Completes c stOk 0 r t)) ∧
    (¬ lands →
      (x.uid = none → ∃ t, Answers .siphonArrival s t ∧ t = { s with siphon := rest, cores := t.cores }) ∧
      (∀ u, x.uid = some u → x.fromPlan = false → ∃ t, Answers .siphonArrival s t ∧ ∀ d ∈ t.inflight, d.uid ≠ u))) ∧
  (∀ (s r : State) (u cyc : Nat) (c : Cmd) (img : ImageHdr) (bs : List Byte), Pumping u opReside c s →
    failing (resideChecks s c ++ imageChecks s c img) = [] →
    let h := c.p 8 2 % 4096
    let a := c.p 0 8 % 2 ^ 39
    let gs := (List.range (c.p 11 1)).map (c.p 10 1 + ·)
    resideRoom s h (c.p 12 1) (c.p 10 1) img gs = true → readAt (.well a) img.bytes s = (.bytes bs, r) → NoErrors s →
    ∃ t x, Answers (.reside u img cyc) s t ∧ tget? t.images h = some x ∧ x.wellAddr = a ∧ x.hdr = img ∧
      (∀ g ∈ gs, (g, c.ctx) ∈ x.owners ∧ (imageRegion t h g).isSome = true) ∧
      (tget? s.images h = none → x.hash = sha256 bs) ∧ ∀ d ∈ t.inflight, d.uid ≠ u) ∧
  (∀ (s : State) (u : Nat) (c : Cmd),
    let h := c.p 0 2
    let gs := (List.range (c.p 3 1)).map (c.p 2 1 + ·)
    let goes : Prop :=
      (Startable u opUnreside c s ∧ h < 4096 ∧ thas s.images h = true ∧ c.p 2 1 + c.p 3 1 ≤ 256 ∧
        (∀ g ∈ gs, s.dieIn (dieOfCore g) = true) ∧ ∀ o ∈ (tget s.images h {}).owners, o.1 ∈ gs → o.2 = c.ctx) ∨
      (s.cmd? u = some c ∧ s.dev.mode = .serving ∧ c.opcode = opUnreside ∧ c.phase = .accepted ∧ c.started = true)
    let freed : State := (gs.filter (fun g => !planOn s g)).foldl (fun s g => freeImageOn h g s) s
    goes →
      ((∀ g ∈ gs, planOn s g = true → imageRegion s h g = none) → ∃ t, Answers (.unreside u) s t ∧
        Completes c stOk 0 freed t ∧
        ∀ x, tget? t.images h = some x → ∀ g ∈ gs, planOn s g = false → ∀ o ∈ x.owners, o.1 ≠ g) ∧
      ((∃ g ∈ gs, planOn s g = true ∧ (imageRegion s h g).isSome = true) → ∃ t, Answers (.unreside u) s t ∧
        t = { freed with inflight := t.inflight } ∧ (t.cmd? u).map (fun d => d.phase) = some .accepted))

/-- R117 to R133, R203 to R205, R270: a RUN whose checks hold waits for cores with its plan. KV_SEQ_OPEN takes a span of
its home well, KV_SEQ_CLOSE closes the sequence, KV_POLICY sets the policy, grants pages and sets PIN. A command that waits
for pages tries again, and goes on once it secures them all; after its wait it ends. RNG_KEY changes the key, and waits for
running loops; RNG_STATE_GET writes the record. Stated where nothing that is read is upset or poisoned. -/
def Obligations.RunAndStoreCommandsComplete : Prop :=
  ∀ (s r : State) (u : Nat) (c : Cmd), s.upsets = {} → s.wellPoison = [] → (∀ d, (s.well d).withdrawn = []) →
    let gone (t : State) : Prop := ∀ d ∈ t.inflight, d.uid ≠ u
    let q := c.p 0 2
    (∀ p x, Startable u opRun c s → s.ctx? c.ctx = some x → wellOk s (c.p 0 8) 1 = true → c.p 24 8 = 0 →
      (c.p 8 8 = 0 → failing (planChecks s c x p false p.tokens ++ kvChecks s c p {}) = [] → ∃ t, Answers (.run u p) s t ∧
        t = { s with inflight := t.inflight } ∧
        (t.cmd? u).map (fun d => (d.phase, d.plan)) = some (.ready, some p)) ∧
      (∀ ad ab, c.p 8 8 ≠ 0 → typedAddr (c.p 8 8) = some ad →
        let len := 64 + 16 * min 128 (field (peekAt s (c.p 8 8) 2) 0 2)
        addrOk s ad len = true → readAt ad len s = (.bytes ab, r) → r.ctx? c.ctx = some x →
        failing (runArgChecks ab ++ planChecks r c x p false p.tokens ++ kvChecks r c p (runArgsOf ab) ++
          chunkChecks r c x (runArgsOf ab)) = [] → silenced r c.ctx = false → ∃ t, Answers (.run u p) s t ∧
        t = { r with inflight := t.inflight } ∧
        (t.cmd? u).map (fun d => (d.phase, d.plan, d.argBlock)) = some (.ready, some p, some ab))) ∧
    (∀ base, Startable u opKvSeqOpen c s → q ≠ 0xFFFF → tget? s.seqs q = none →
      let x := seqOfParams c
      failing (seqChecks s x (inParams c)) = [] → findSpan s x.homeDie x.mapSpan = some base →
      let s' := { s with seqs := tset s.seqs q { x with mapBase := base } }
      (x.ring = false → ∃ t, Answers (.kvSeqOpen u) s t ∧ Completes c stOk 0 s' t) ∧
      (x.ring = true → x.mapSpan ≤ (poolOf s c.ctx).length → ∃ t, Answers (.kvSeqOpen u) s t ∧
        Completes c stOk 0 (fillRing q { x with mapBase := base } s') t)) ∧
    (Startable u opKvSeqClose c s → ownSeq s c q = true → ∃ t, Answers (.kvSeqClose u) s t ∧
      Completes c stOk 0 (closeSeq q s) t ∧ tget? t.seqs q = none) ∧
    (Startable u opKvPolicy c s → c.p 0 1 = 0 →
      (c.p 2 2 = 0xFFFF → c.p 8 4 ≤ 1000000 → ∃ t, Answers (.kvPolicySet u) s t ∧
        Completes c stOk 0 (s.modCtx c.ctx (fun x => { x with kvWaitUs := c.p 8 4 })) t) ∧
      (∀ x, c.p 2 2 ≠ 0xFFFF → tget? s.seqs (c.p 2 2) = some x → x.ctx = c.ctx → x.ring = false → c.p 4 1 ≤ 64 →
        1 ≤ c.p 5 1 → c.p 5 1 ≤ 7 → c.p 6 2 < 1024 → ∃ t, Answers (.kvPolicySet u) s t ∧
        Completes c stOk 0 { s with seqs := tset s.seqs (c.p 2 2) { x with
          evict := bitOf (c.p 1 1) 0, pinRecent := c.p 4 1, scoreShift := c.p 5 1, scoreInit := c.p 6 2 } } t)) ∧
    (Startable u opKvPolicy c s → c.p 0 1 = 1 → 1 ≤ c.p 20 4 → c.p 20 4 ≤ 524224 →
      let ps := (List.range (c.p 20 4)).map (c.p 16 4 + ·)
      (∀ p ∈ ps, grantable s p = true) → ∃ t, Answers (.poolGrant u) s t ∧
      Completes c stOk 0 (givePages c.ctx ps s) t) ∧
    (∀ x e, Startable u opKvPolicy c s → tget? s.seqs (c.p 2 2) = some x → x.ctx = c.ctx → x.ring = false →
      (liveEntries s (c.p 2 2)).find? (fun e => e.2.block == c.p 12 2) = some e →
      (c.p 0 1 = 2 → ∃ t, Answers (.kvPolicyPin u) s t ∧
        Completes c stOk 0 { s with map := tset s.map e.1 { e.2 with pin := true } } t) ∧
      (c.p 0 1 = 3 → ∃ t, Answers (.kvPolicyUnpin u) s t ∧
        Completes c stOk 0 { s with map := tset s.map e.1 { e.2 with pin := false } } t)) ∧
    (s.cmd? u = some c → s.dev.mode = .serving →
      (c.phase ≠ .kvWait → Answers (.kvSecureRetry u) s s ∧ Answers (.kvWaitTimeout u) s s) ∧
      (c.phase = .kvWait → let ks := (argsOf s c).bindings
        (∀ got pool, secureFrom s ks (needsOf s ks) (poolOf s c.ctx) [] = .ok (got, pool) →
          ∀ e ∈ [Instr.kvSecureRetry u, .kvWaitTimeout u], ∃ t, Answers e s t ∧
            t = { s with inflight := t.inflight, ctxs := t.ctxs } ∧ (∀ x, s.ctx? c.ctx = some x → poolOf t c.ctx = pool) ∧
            (t.cmd? u).map (fun d => (d.phase, d.secured, d.waitsOn)) = some (.ready, got, none)) ∧
        (∀ k, secureFrom s ks (needsOf s ks) (poolOf s c.ctx) [] = .error k → (∃ t, Answers (.kvSecureRetry u) s t ∧
          t = { s with inflight := t.inflight } ∧
          (t.cmd? u).map (fun d => (d.phase, d.waitsOn)) = some (.kvWait, some k)) ∧
          ∃ t, Answers (.kvWaitTimeout u) s t ∧ gone t))) ∧
    (Startable u opRngKey c s →
      let ls := (s.loops.filter (fun e => e.2.ctx == c.ctx && !e.2.stopped && !e.2.dead)).map Prod.fst
      let keyed := s.modCtx c.ctx (fun x => { x with key := padTo 32 c.params })
      (ls = [] → ∃ t, Answers (.rngKey u) s t ∧ Completes c stOk 0 keyed t) ∧
      (ls ≠ [] → ∃ t, Answers (.rngKey u) s t ∧ t = { keyed with inflight := t.inflight } ∧
        (t.cmd? u).map (fun d => (d.phase, d.waitLoops)) = some (.accepted, ls))) ∧
    (∀ y l, Startable u opRngStateGet c s → s.ctx? c.ctx = some y →
      (l = none ∧ c.p 8 2 = 0xFFFF ∧ tget? s.loops (c.p 8 2) = none ∨
        ∃ x, l = some (c.p 8 2, x) ∧ tget? s.loops (c.p 8 2) = some x ∧ x.ctx = c.ctx ∧ x.dead = false) →
      c.p 0 8 % 64 = 0 → c.p 0 8 + (rngRecord y l).length ≤ 2 ^ 52 →
      ∃ t, Answers (.rngStateGet u) s t ∧ Completes c stOk 0 (hostWrite (c.p 0 8) (rngRecord y l) s) t)

-- ## Steps of a running plan

/-- R52 to R56, R63 to R85, R93, R113, R185, R200, R202: what an engine step computes from the values that it reads, where
it puts it, and that it touches nothing else. The row of the step that a rank stands at carries it out; the step of a lane
that stays parked is passed over, and any other row does nothing. An M-engine slice adds its products to the entry row: in
BF16 with one rounding per 16 products, else group by group; W8 with G = 128 holds the sums of a group's first half. FINAL
multiplies by s_a, and may narrow. A slice of a block whose tags differ ends the command, and its context is torn down.
NARROW writes codes, scale, zero point, its history and its tags. A recurrence, an argmax, a draw and NOISE write their
results. -/
def Obligations.EngineStepsComputeTheirValues : Prop :=
  ∀ (s : State) (g : Nat) (a : At),
    (∀ i st, carriesOut g i st → s.dev.mode = .serving → at? s g = some a → stepAt s a = some st → parkedStep s a st = true →
      Answers i s (advance a s)) ∧
    (∀ i, (∃ st, carriesOut g i st) →
      s.dev.mode ≠ .serving ∨ at? s g = none ∨ (at? s g = some a ∧ ∀ st, stepAt s a = some st → ¬ carriesOut g i st) →
      Answers i s s) ∧
    let counted (n k : Nat) (t : State) : Prop := tget t.perf (16 * g + n) 0 = ctrAdd (tget s.perf (16 * g + n) 0) k
    (∀ (op : MSlice) (clash : Clash) (ks e : List Nat), StandsAt g a (.matmul op) s → RowAt s a op.entry 0 64 ks →
      e = (if op.first then List.replicate 64 0 else valuesAt s ks) →
      let w := op.w
      let k := sliceK w.pair
      let size := groupSize w.gsize
      let compares := w.pair ≠ .bf16 ∧ (a.cmd.widened = true → op.wide = none) ∧
        (op.opens = true ∨ (s.core g).checked ≠ some (op.trailer, op.scaleBlock))
      let done (vs : List Nat) (n : Nat) : Prop := ∃ t, Answers (.mengineSlice g clash) s t ∧ StepDone g s t ∧ t.cis = s.cis ∧
        KeysWritten ks vs s t ∧ counted 0 n t
      let puts (vs : List Nat) (n : Nat) : Prop :=
        (op.final = false ∨ op.narrow = none → done vs n) ∧
        ∀ z, op.final = true → op.narrow = some z → ∃ m, KeysWritten ks vs s m ∧ (∀ h, h ≠ g → m.core h = s.core h) ∧
          m = { s with acc := m.acc, perf := m.perf, inflight := m.inflight, loops := m.loops, cores := m.cores } ∧
          ∀ q, Yields (narrowStep a z) m () q → Answers (.mengineSlice g clash) s (advance a (q.perfAdd g 0 n))
      (∀ b b', compares → Readable s a none op.trailer 2 b → Readable s a none (op.scaleBlock + 0x140) 2 b' → b ≠ b' →
        a.cmd.opcode = opRun → ∃ t, Answers (.mengineSlice g clash) s t ∧ (∀ d ∈ t.inflight, d.uid ≠ a.u) ∧
        ((s.ctx? a.cmd.ctx).isSome = true → (t.ctx? a.cmd.ctx).map (fun x => (x.faulted, x.fault)) =
          some (true, field b 0 1 + field b' 0 1 * 2 ^ 8 + g * 2 ^ 16 + (s.core g).pos % 2 ^ 16 * 2 ^ 24 + stScaleSkew * 2 ^ 40))) ∧
      ((compares → TagsAgree s a op.trailer op.scaleBlock) →
        (∀ x cs, w.pair ≠ .bf16 → a.cmd.widened = false → Readable s a none op.actOff k x →
          let dot (c : Nat) : Int := dotInt (levelsOf w.pair (cs.getD c [])).1 (splitLE 1 k x)
          (∀ sc sm zb sa zp, k = unitK w ∨ op.second = true → TileIs s a w (if k < unitK w then k else 0) k cs →
            GroupsAre s a w sc sm → Readable s a none (op.scaleBlock + 0x100 + op.token) 1 zb →
            (op.final = true → ScaleIs s a op.scaleBlock op.token sa zp) →
            let groups (c : Nat) : List (List Int × List Nat × Nat × Int) :=
              if k < unitK w then [([dot c + (s.core g).heldSums.getD c 0], [1], groupScale w sc c 0, groupSum w sm c 0)]
              else (List.range (unitGroups w)).map (fun j =>
                (((levelsOf w.pair (cs.getD c [])).1.drop (j * size)).take size, ((splitLE 1 k x).drop (j * size)).take size,
                  groupScale w sc c j, groupSum w sm c j))
            let v (c : Nat) : Nat := addGroups (w.pair == .b4a8) w.zpZero (field zb 0 1) (groups c) (e.getD c 0)
            puts ((List.range 64).map (fun c =>
              if op.final then encF c48 ((decF c48 (v c)).mul (decF fp32 sa)) else v c)) 1) ∧
          (k < unitK w → op.second = false → op.final = false → TileIs s a w 0 k cs →
            ∃ t, Answers (.mengineSlice g clash) s t ∧ StepDone g s t ∧ t.cis = s.cis ∧ KeysWritten ks e s t ∧
              counted 0 1 t ∧ (t.core g).heldSums = (List.range 64).map dot)) ∧
        (∀ xs cs sc, w.pair = .bf16 ∨ a.cmd.widened = true →
          let first := if k < unitK w ∧ op.second = true then k else 0
          TileIs s a w first k cs → (if w.pair = .bf16 then sc = [] else Readable s a w.image w.scaleOff (2 * 64 * unitGroups w) sc) →
          (if w.pair = .bf16 then ∃ b, Readable s a none op.actOff (2 * k) b ∧ xs = splitLE 2 k b
           else match op.wide with
            | some src => ∃ ys, ValuesAre s a src k ys ∧ xs = ys.map (fun y => (rowConv src bf16 y).1)
            | none => ∃ b sa zp, Readable s a none op.actOff k b ∧ ScaleIs s a op.scaleBlock op.token sa zp ∧
                xs = (splitLE 1 k b).map (fun q => (decodeBf16 sa zp q).1)) →
          puts ((List.range 64).map (fun c => bfCycles (k / 16) (e.getD c 0)
            ((widenColumn w first (cs.getD c []) ((List.range (unitGroups w)).map (groupScale w sc c))).map Prod.fst) xs)) (k / 16)))) ∧
    (∀ (op : NarrowOp) (xss : List (List Fl)), StandsAt g a (.narrow op) s → xss.length = op.pieces.length →
      (∀ p ∈ op.pieces.zip xss, ValuesAre s a p.1.src p.1.width p.2) →
      let rows := op.pieces.zip xss
      let pass := (op.pieces.map (fun p => passCycles p.src p.width)).foldl (· + ·) 0
      let done (m : Mem) (n : Nat) (t : State) : Prop := Answers (.narrow g) s t ∧ StepDone g s t ∧ t.acc = s.acc ∧ t.cis = m ∧
        counted 1 n t
      let given (enc : Fl → Nat × Nat) (pack : List Nat → List Byte) : Prop :=
        let ps := rows.map (fun p =>
          (p.1.out, p.1, p.2, pack (p.2.map (fun x => (enc x).1) ++ List.replicate p.1.pads (enc (.fin false 0 0)).1)))
        piecesFit s a ps → ∃ t, done (pieceWrites s a ps s.cis) pass t
      (∀ sc, op.fmt = .b4 sc → given (fun x => encB4 x (decF bf16 sc.toNat)) packNibbles) ∧
      (∀ sc, op.fmt = .w8 sc → given (fun x => encW8 x (decF bf16 sc.toNat)) (fun cs => cs.map (BitVec.ofNat 8))) ∧
      (op.fmt = .a8 → ∀ (m0 : Mem) (hist : Block) (bits : List (List Nat)),
        let q := scalePoint (a.plan.scalePoints.getD op.point 0)
        let hoff := q.histBase + 256 * op.slot + 128
        let z := scaleFor (cleanMax ((calTable s a.plan).getD q.cal 0).toNat) q a.cmd.widened hist (rowMax (rows.flatMap Prod.snd))
        let round (i j : Nat) : A8Round :=
          if op.srBits = 0 then .nearest else .stochastic op.srBits ((bits.getD i []).getD j 0)
        let ps := ((List.range rows.length).zip rows).map (fun e =>
          (match op.block with
            | some b => b.base + op.token * narrowWidth op + narrowWidth { op with pieces := op.pieces.take e.1 }
            | none => e.2.1.out, e.2.1, e.2.2,
            ((List.range e.2.2.length).zip e.2.2).map (fun p =>
              (BitVec.ofNat 8 (encA8 p.2 (decF fp32 z.1) z.2 (round e.1 p.1)).1 : Byte)) ++
              if op.block.isSome then [] else List.replicate e.2.1.pads (BitVec.ofNat 8 z.2)))
        let m := ownWrite s a (op.scaleBlock + 0x142) (List.replicate 190 0)
          (ownWrite s a (op.scaleBlock + 0x100 + op.token) (leBytes 1 z.2)
            (ownWrite s a (op.scaleBlock + 4 * op.token) (leBytes 4 z.1) (pieceWrites s a ps m0)))
        let m := if q.src = 0 then ownWrite s a hoff (pushHistory hist (rowMax (rows.flatMap Prod.snd)) z.1) m else m
        let n := pass + if needsRow (cleanMax ((calTable s a.plan).getD q.cal 0).toNat) q a.cmd.widened hist then pass + 10 else 0
        (clearsSlot s a op.slot op.draw.t → (∀ o ∈ slotHistory a op.slot, Writable s a (o + 0x44) 2 ∧ Writable s a (o + 0x48) 4) ∧
          m0 = clearedSlot s a op.slot s.cis) →
        (¬ clearsSlot s a op.slot op.draw.t → m0 = s.cis) →
        (if q.src = 0 then Writable s a hoff 128 ∧ hist = mread m0 (ownAddr s a hoff) 128 else hist = []) →
        (op.srBits = 0 ∨ (a.cmd.argBlock ≠ none ∨ a.cmd.opcode ≠ opRun) ∧ DrawnRows a op 0 op.pieces s bits) →
        piecesFit s a ps → Writable s a (op.scaleBlock + 4 * op.token) 4 → Writable s a (op.scaleBlock + 0x100 + op.token) 1 →
        Writable s a (op.scaleBlock + 0x142) 190 →
        ((∀ b, op.block = some b → b.complete = false) → ∃ t, done m n t) ∧
        ∀ b, op.block = some b → b.complete = true → Writable s a (op.scaleBlock + 0x140) 2 →
          Writable s a (b.base + b.rows * 512 - 64) 64 →
          let emitted := tget (blocksOf s a) b.stream 0
          let tag := leBytes 1 (((argsOf { s with cis := m } a.cmd).tagBase.getD b.stream 0).toNat + emitted) ++ leBytes 1 b.tokens
          ∃ t, done (ownWrite s a (b.base + b.rows * 512 - 64) (tag ++ leBytes 2 (narrowWidth op) ++ List.replicate 60 0)
              (ownWrite s a (op.scaleBlock + 0x140) tag m)) n t ∧ tget (blocksOf t a) b.stream 0 = emitted + 1)) ∧
    (∀ (slot : Option Nat) (word : W64) (kc kt : Nat → List Nat) (kx ky : List Nat), StandsAt g a (.recur slot word) s →
      let r := recOf word
      let w := (stateArea s a).1 + r.st
      let n := recStateRows r.kind false
      let lane (ks : List Nat) (i : Nat) : Nat := (valuesAt s ks).getD i 0
      let plain (i : Nat) : Fl := recExact r.kind ((List.range (recCoefRows r.kind)).map (fun j => decF c48 (lane (kc j) i)))
        ((List.range n).map (fun j => decF c48 (lane (kt j) i))) (decF c48 (lane kx i))
      let exact (i : Nat) : Fl := if r.ef then (plain i).add (decF c48 (lane (kt n) i)) else plain i
      let y (i : Nat) : Nat := encF c48 (exact i)
      let next (i : Nat) : List Nat := (if r.kind = 0 then [y i] else if r.kind = 1 then [lane kx i, y i]
        else [lane kx i, lane (kt 0) i, y i, lane (kt 2) i]) ++ [residueOf (exact i) (y i)]
      (∀ j < recCoefRows r.kind, RowAt s a (r.coef + j) 0 64 (kc j)) → (∀ j < n + b2n r.ef, RowAt s a (w + j) 0 64 (kt j)) →
      (∀ i j, i < j → j < n + b2n r.ef → ∀ k ∈ kt i, k ∉ kt j) → RowAt s a r.inp 0 64 kx → RowAt s a r.out 0 64 ky →
      ∃ t, Answers (.recStep g) s t ∧ StepDone g s t ∧ t.cis = s.cis ∧
        counted 1 ((if r.kind = 2 then 2 else 1) + b2n r.ef) t ∧
        (∀ i < 64, tget t.acc (ky.getD i 0) 0 = BitVec.ofNat 48 (y i)) ∧
        (∀ j < n + b2n r.ef, (∀ k ∈ kt j, k ∉ ky) → ∀ i < 64,
          tget t.acc ((kt j).getD i 0) 0 = BitVec.ofNat 48 ((next i).getD j 0)) ∧
        ∀ k, k ∉ ky → (∀ j < n + b2n r.ef, k ∉ kt j) → tget t.acc k 0 = tget s.acc k 0) ∧
    (∀ (op : ArgmaxOp) (vs : List Nat) (xs : List Fl), StandsAt g a (.argmax op) s → 0 < op.channels →
      RowIs s a op.src op.channels vs → ValuesAre s a op.src op.channels xs →
      let w := winner xs
      let value := valueBytes op.src (vs.getD w 0)
      let m := ownWrite s a op.outOff (leBytes 2 w) s.cis
      w < op.channels ∧ (∀ i < op.channels, beats (xs.getD i (.fin false 0 0)) (xs.getD w (.fin false 0 0)) = false) ∧
      (∀ i < w, beats (xs.getD w (.fin false 0 0)) (xs.getD i (.fin false 0 0)) = true) ∧
      (Writable s a op.outOff 2 → (∀ off, op.valueOff = some off → Writable s a off value.length) →
        ∃ t, Answers (.argmax g) s t ∧ StepDone g s t ∧ t.acc = s.acc ∧ counted 1 (cdiv op.channels 64 + 6) t ∧
          t.cis = match op.valueOff with | some off => ownWrite s a off value m | none => m)) ∧
    (∀ (op : GumbelOp) (xs : List Fl) (ks : List Nat) (r : State), StandsAt g a (.gumbel op) s →
      ValuesAre s a op.src op.channels xs → Writable s a op.outOff 2 →
      Yields (draws a op.draw 24 (firstLane op.src) op.channels 0) s ks r →
      let temp := ((tempsOf s a).getD (op.draw.slot % 64) 0).toNat
      let score (x : Fl) (k : Nat) : Nat := if badTemp temp || (decF fp32 temp).isZero then (rowConv op.src fp32 x).1
        else fp32Fma (rowConv op.src fp32 x).1 (fp32Div fp32One temp) (noiseOf k)
      ∃ t, Answers (.gumbelArgmax g) s t ∧ StepDone g s t ∧ t.acc = s.acc ∧ drawPos t a = drawPos r a ∧
        counted 1 (cdiv op.channels 64) t ∧
        t.cis = ownWrite s a op.outOff (leBytes 2 (winner ((List.zipWith score xs ks).map (decF fp32)))) s.cis) ∧
    (∀ (i o : Nat) (ki ko : List Nat), StandsAt g a (.noise i o) s → RowAt s a i 0 64 ki → RowAt s a o 0 64 ko →
      ∃ t, Answers (.noise g) s t ∧ StepDone g s t ∧ t.cis = s.cis ∧ counted 1 1 t ∧
        KeysWritten ko ((valuesAt s ki).map (fun v => (convF fp32 c48 (noiseOf (v % 2 ^ 24))).1)) s t)

/-- R111, R134 to R139, R158 to R160, R167 to R184, R186 to R188: a convolution step adds the products of the values under
its window to its entry row, tile after tile in K order, and stores a finished position in the output tensor. A crop step
writes the samples of its box, and beside them its status. An attention step merges one block into its row; a row without
a group goes on at the same step until it is finished; then it is divided and written. In a lateral group a step merges one
block of its own or of another shard, and a CANONICAL group keeps a partial for each origin. -/
def Obligations.WindowStepsComputeTheirValues : Prop :=
  ∀ (s : State) (g : Nat) (a : At),
    (∀ (op : ConvOp) (clash : Clash) (ks e : List Nat) (val : Nat → Nat → Nat → Nat) (cs : Nat → List (List Nat))
        (sc sm : Nat → List Byte) (sa zp : Nat) (outs : Nat → List Nat),
      StandsAt g a (.conv op) s → RowAt s a op.entry 0 64 ks →
      e = (if op.first then List.replicate 64 0 else valuesAt s ks) →
      let k := convBlk op.block
      let w := op.w
      let wide := w.pair = .bf16 ∨ a.cmd.widened = true
      let narrow := k.inBf = false ∧ a.cmd.widened = false
      let pad := if narrow then zp else 0
      let (lo, hi) := convEdges s a k op
      let (c0, cn) := tileChans k op.tile
      let ct := tileCt k op.tile
      let tap (t : Nat × Nat) : Tap := tapOf k lo hi op.ho op.wo t.1 t.2
      let holds (c : Nat) : Bool := c < cn || stored k (c0 + c)
      let es : List (Bool × Nat) := (tapsOf k).flatMap (fun t => match tap t with
        | .real h x => (List.range ct).map (fun c => (true, if holds c then val (c0 + c) h x else pad))
        | _ => List.replicate ct (false, pad))
      let n := unitK w
      let size := groupSize w.gsize
      let tiles := cdiv es.length n
      let at' (u i : Nat) : Bool × Nat := (((es.drop (u * n)).take n)[i]?).getD (false, pad)
      let own (j u i : Nat) : Bool := ownChannel k j ((u * n + i) % max 1 ct)
      let real (u : Nat) : Prop := ∃ i < n, (at' u i).1 = true
      let weight (j u i : Nat) : Nat := ((widenColumn w 0 ((cs u).getD j [])
        ((List.range (unitGroups w)).map (groupScale w (sc u) j))).getD i (0, 0)).1
      let level (j u i : Nat) : Int := if own j u i then (levelsOf w.pair ((cs u).getD j [])).1.getD i 0 else 0
      (∀ t ∈ tapsOf k, tap t ≠ .outside) → (if k.inBf then sa = 0 ∧ zp = 0 else ScaleIs s a op.scaleBlock op.token sa zp) →
      (∀ t ∈ tapsOf k, ∀ h x, tap t = .real h x → ∀ c < ct, holds c = true → ElemIs s a k op sa zp (c0 + c) h x (val (c0 + c) h x)) →
      (∀ u < tiles, real u → TileIs s a (tileAt w u) 0 n (cs u) ∧
        (if wide then (if w.pair = .bf16 then sc u = [] else
            Readable s a w.image (tileAt w u).scaleOff (2 * 64 * unitGroups w) (sc u))
         else GroupsAre s a (tileAt w u) (sc u) (sm u))) →
      outs 0 = e →
      (∀ u < tiles,
        (¬ real u → outs (u + 1) = (List.range 64).map (fun j => c48Add ((outs u).getD j 0) 0)) ∧
        (real u → wide → outs (u + 1) = (List.range 64).map (fun j => bfCycles (n / 16) ((outs u).getD j 0)
          ((List.range n).map (fun i => if (at' u i).1 && own j u i then weight j u i else 0))
          ((List.range n).map (fun i => if own j u i then (at' u i).2 else 0)))) ∧
        (real u → ¬ wide → outs (u + 1) = (List.range 64).map (fun j => addGroups (w.pair == .b4a8) w.zpZero zp
          ((List.range (unitGroups w)).map (fun l =>
            ((((List.range n).map (level j u)).drop (l * size)).take size,
              (((List.range n).map (fun i => (at' u i).2)).drop (l * size)).take size,
              groupScale w (sc u) j l, groupSum w (sm u) j l))) ((outs u).getD j 0)))) →
      let vs := if narrow then (outs tiles).map (fun v => encF c48 ((decF c48 v).mul (decF fp32 sa))) else outs tiles
      let cells := convCells k op vs
      (op.store = true → ∀ c ∈ cells, Writable s a c.1 2) →
      ∃ t, Answers (.convStep g clash) s t ∧ StepDone g s t ∧ KeysWritten ks vs s t ∧
        t.cis = if op.store then cells.foldl (fun m c => ownWrite s a c.1 (leBytes 2 c.2.1) m) s.cis else s.cis) ∧
    (∀ (op : CropOp), StandsAt g a (.crop op) s →
      let k := cropBlk op.block
      let s1 := holdPort a (.crop op) s
      (k.count ≤ op.box → Answers (.cropStep g) s (advance a s1)) ∧
      (∀ (bb ft : List Byte), op.box < k.count → bb.length = 32 → WellHas s (k.boxes + 32 * op.box) bb →
        let x := boxOf bb
        let bad := x.invalid k.frames
        let flat := x.zeroArea
        let fill := bad || flat
        let frame := field ft 0 8 % 2 ^ 39
        let py (i : Nat) : Nat := samplePos x.y1 x.y2 k.h k.outH i
        let px (j : Nat) : Nat := samplePos x.x1 x.x2 k.w k.outW j
        let status (out : Bool) : List Byte := leBytes 1 (b2n flat + 2 * b2n out + 4 * b2n bad)
        (bad = false → ft.length = 8 ∧ WellHas s (k.table + 8 * x.frame) ft) →
        csAllowed s (k.statusBase + op.box) 1 = true →
        (∀ (v : Nat → Nat → Nat → Nat),
          (∀ i < k.outH, ∀ j < k.outW, ∀ c < k.c,
            if fill then v i j c = k.extrap else SampleIs s k frame (py i) (px j) c (v i j c)) →
          let line (i : Nat) : List Byte := (List.range k.outW).flatMap (fun j =>
            (List.range k.c).flatMap (fun c => leBytes 2 (convF fp32 bf16 (v i j c)).1) ++
              List.replicate (2 * (cropChans k.c - k.c)) 0)
          let out := !fill && (List.range k.outH).any (fun i => (List.range k.outW).any (fun j =>
            0 < k.c && (beyond (py i) k.h || beyond (px j) k.w)))
          let place (i : Nat) : Nat := k.outBase + (op.box * k.outH + i) * k.linePitch
          (∀ i < k.outH, csAllowed s (place i) (line i).length = true) →
          ∃ t, Answers (.cropStep g) s t ∧ StepDone g { s with pwr := t.pwr } t ∧ t.acc = s.acc ∧
            t.cis = mwrite ((List.range k.outH).foldl (fun m i => mwrite m (place i) (line i)) s.cis)
              (k.statusBase + op.box) (status out)) ∧
        (∀ r r' sat out q, Yields (wellLoad a (k.boxes + 32 * op.box) 32) s1 bb r →
          (if bad then r' = r else Yields (wellLoad a (k.table + 8 * x.frame) 8) r ft r') →
          Yields (cropLines a k x (if bad then 0 else frame) op.box fill (List.range k.outH)) r' (sat, out) q →
          Memory.wf q.cis = true →
          ∃ t, Answers (.cropStep g) s t ∧ StoredAt (k.statusBase + op.box) (status out) q.cis t.cis ∧
            (t.core g).pos = (s.core g).pos + 1))) ∧
    (∀ (op : AttnOp), StandsAt g a (.attention op) s →
      let args := argsOf s a.cmd
      let base : AttnRow := { binding := op.binding, layer := op.layer, head := op.head, query := op.query }
      let row := findRow s a.u base
      let query (qs : List Nat) : Prop := ∃ b, Readable s a none op.qOff (2 * op.headDim) b ∧ qs = splitLE 2 op.headDim b
      (∀ k, groupOf s a.u = none → args.bindings[op.binding]? = some k →
        let x := tget s.seqs k.seq {}
        let order := visitOrder s a.cmd k
        let ends (w : AttnRow) : Prop := ∀ ks, RowAt s a op.outEntry 0 (rowOut w op.headDim).length ks → ks.Nodup →
          ∃ t, Answers (.attentionBlock g) s t ∧ StepDone g { s with pwr := t.pwr, freeCtr := t.freeCtr } t ∧ t.cis = s.cis ∧
            KeysWritten ks (rowOut w op.headDim) s t ∧ findRow t a.u base = { w with closed := true } ∧
            ((t.cmd? a.u).map (fun d => d.emptyAttn) = some true ↔
              a.cmd.emptyAttn = true ∨ (w.fresh = true ∧ w.nan = false))
        (order[row.count]? = none → ends row) ∧
        (∀ b qs ts, order[row.count]? = some b → query qs →
          (match b with
            | .page e n => PageTokensAre s a op x k e n ts
            | .staged n => StagedTokensAre s a op x k n ts) →
          let key := match b with | .page e _ => e | .staged n => 2 ^ 32 + n
          let w := (mergeBlock { row with count := row.count + 1 } qs op.smScale.toNat key ts).1
          (row.count + 1 < order.length → ∃ t, Answers (.attentionBlock g) s t ∧ t.cis = s.cis ∧ t.acc = s.acc ∧
            findRow t a.u base = w ∧ (t.core g).pos = (s.core g).pos) ∧
          (order.length ≤ row.count + 1 → ends w))) ∧
      (groupOf s a.u = none → args.bindings[op.binding]? = none →
        Answers (.attentionBlock g) s (advance a (holdPort a (.attention op) s))) ∧
      (∀ gid r, groupOf s a.u = some gid → op.last = false →
        Yields (groupTokens a op (tget s.lat.groups gid {})) (holdPort a (.attention op) s) none r →
        Answers (.attentionBlock g) s (advance a r)) ∧
      (∀ gid origin i n ts r qs row0, groupOf s a.u = some gid →
        let d := tget s.lat.groups gid {}
        let canonical := d.flags % 2 = 1
        let name : AttnRow := { base with binding := op.logical, source := if canonical then some origin else none }
        let start := findRow s a.u name
        Yields (groupTokens a op d) (holdPort a (.attention op) s) (some (origin, i, n, ts)) r → r.cis = s.cis → query qs →
        (if canonical ∧ 0 < start.count then ∃ p, Readable s a none (partialOff op d origin) (6 * (2 + op.headDim)) p ∧
            row0 = { start with
              m := BitVec.ofNat 48 (field p 0 6), l := BitVec.ofNat 48 (field p 6 6)
              o := (List.range op.headDim).map (fun j => BitVec.ofNat 48 (field p (12 + 6 * j) 6))
              nan := decF c48 (field p 0 6) == .nan, fresh := (decF c48 (field p 6 6)).isZero }
         else row0 = start) →
        let w := (mergeBlock { row0 with count := row0.count + 1 } qs op.smScale.toNat (2 ^ 16 * origin + i) ts).1
        (canonical → Writable s a (partialOff op d origin) (partialBytes w op.headDim).length) →
        let kept (t : State) : Prop := findRow t a.u name = w ∧
          (tget? t.lat.groups gid).map (fun y => y.shards) =
            some ((d.shards.filter (fun e => e.1 != origin)) ++ [(origin, n)]) ∧
          t.cis = if canonical then ownWrite s a (partialOff op d origin) (partialBytes w op.headDim) s.cis else s.cis
        (op.last = false → ∃ t, Answers (.attentionBlock g) s t ∧ kept t ∧ t.acc = s.acc ∧
          (t.core g).pos = (s.core g).pos + 1) ∧
        (op.last = true → ∃ m, kept m ∧ m.acc = s.acc ∧ ∀ acc q ks,
          (if canonical then Yields (mergePartials a op d { base with binding := op.logical } (risingDevices d.devices)
              { base with binding := op.logical }) m acc q
           else q = m ∧ acc = findRow m a.u { base with binding := op.logical }) →
          RowAt s a op.outEntry 0 (rowOut acc op.headDim).length ks → ks.Nodup →
          ∃ t, Answers (.attentionBlock g) s t ∧ t.cis = q.cis ∧ KeysWritten ks (rowOut acc op.headDim) s t ∧
            (t.core g).pos = (s.core g).pos + 1)))

/-- R27, R33 to R44, R79, R87 to R98, R102, R110, R126, R157, R193, R306 to R314: what befalls a running plan. A float wait
passes once its target is reached, within the limit; a longer wait ends the run, which is made again until FLOAT_RETRY_MAX.
The siphon and the pump move bytes, a frame of conditioning comes in, and remote accesses read and write; of two writes of
one row in one cycle the port that comes first wins. A run that saturates too often stops and runs again widened, or ends; a
failed parity makes it run again, the third in a row ends it. When every rank has carried out its last step the commit lets
the results take effect together and retires the command, or holds them for its group. Otherwise these events change nothing. -/
def Obligations.PlanEventsTakeEffect : Prop :=
  (∀ (s : State) (g : Nat) (a : At),
    let limit := waitMax s g
    let c := a.cmd
    let gone (t : State) : Prop := ∀ d ∈ t.inflight, d.uid ≠ a.u
    let tied : Prop := c.opcode = opStreamLoop → ∃ l x, c.object = some l ∧ tget? s.loops l = some x ∧ x.cmd = a.u
    let again (t : State) (f : Cmd → Nat) (n : Nat) : Prop :=
      (c.opcode = opRun → (t.cmd? a.u).map (fun d => (d.phase, d.rerunDue, d.cores, f d)) = some (.ready, true, [], n)) ∧
      (∀ l x, c.opcode = opStreamLoop → c.object = some l → tget? s.loops l = some x → x.running = true → x.cmd = a.u →
        (tget? t.loops l).map (fun y => (y.running, y.stepsDone, y.workPos)) = some (false, 0, x.pos) ∧ (t.core g).running = none)
    let counted (n k : Nat) (t : State) : Prop := tget t.perf (16 * g + n) 0 = ctrAdd (tget s.perf (16 * g + n) 0) k
    (∀ f target waited, StandsAt g a (.floatWait f target) s →
      let there := reached (floatGet s g (16 * a.slot + f)) target
      let s1 := holdPort a (.floatWait f target) s
      (waited ≤ limit → there = true → Answers (.floatWait g waited) s (advance a (s1.perfAdd g 7 waited))) ∧
      (limit < waited ∨ there = false → Answers (.floatWait g waited) s s1) ∧
      (waited ≤ limit ∨ there = true → Answers (.floatWaitTimeout g waited) s s) ∧
      (limit < waited → there = false →
        (c.timeouts < (s.core g).retryMax.toNat → ∃ t, Answers (.floatWaitTimeout g waited) s t ∧
          again t (fun d => d.timeouts) (c.timeouts + 1) ∧ (t.core g).err.getLsbD 4 = true ∧ counted 8 1 t ∧ counted 7 waited t) ∧
        ((s.core g).retryMax.toNat ≤ c.timeouts → tied → ∃ t, Answers (.floatWaitTimeout g waited) s t ∧ gone t))) ∧
    (at? s g = none → ∀ waited, Answers (.floatWaitTimeout g waited) s s) ∧
    (∀ off len dst f inc bs, StandsAt g a (.siphon off len dst f inc) s → Readable s a none off len bs →
      let x : Siphon := { dst := dst, data := bs, float := f, inc := inc, uid := some a.u, fromPlan := true, core := some g }
      Answers (.siphonStep g) s
        (advance a { ((holdPort a (.siphon off len dst f inc) s).perfAdd g 4 len) with siphon := s.siphon ++ [x] })) ∧
    (∀ (desc : Block), StandsAt g a (.pump desc) s → MemoriesOk s →
      let d := pumpDesc desc
      let s1 := pumpPhase g (phaseRowsOf g d) (d.phaseEnd || d.next == 0) s
      let ok := pumpFieldsOk desc && pumpEndsOk s c.ctx desc
      (ok = false ∨ floatLive s d.float d.inc = false → tied → ∃ t, Answers (.pumpDescriptor g) s t ∧ gone t) ∧
      (ok = true → floatLive s d.float d.inc = true →
        (∀ r, Yields (pumpRows a d d.rows 0) s1 () r →
          Answers (.pumpDescriptor g) s (advance a (floatInc d.float d.inc r).2)) ∧
        (∀ src dst bs r, d.rows = 1 → rowAddr d.dst 0 d.dstStride = some dst → (writeTo (some g) dst bs s1).1 = true →
          (if d.op = 0 then rowAddr d.src 0 d.srcStride = some src ∧ readFrom (some g) src d.rowBytes s1 = (.bytes bs, r)
            else bs = (List.range d.rowBytes).map (fun k => if d.op = 1 then d.pattern.getD (k % 8) 0 else 0)) →
          ∃ t, Answers (.pumpDescriptor g) s t ∧ Moved dst bs s t ∧ t.floats = (floatInc d.float d.inc s).2.floats ∧
            t.inflight = s.inflight ∧ t.acc = s.acc ∧ (t.core g).pos = (s.core g).pos + 1))) ∧
    (∀ (op : FrameOp), StandsAt g a (.frame op) s →
      (frameSample s a op = none → Answers (.pumpDescriptor g) s (advance a s)) ∧
      (∀ st sample bs, frameSample s a op = some (st, sample) →
        WellHas s (frameAddr st (sample / max 1 st.hopLen + op.ahead)) bs → bs.length = st.frameBytes →
        Writable s a op.off st.frameBytes → ∃ t, Answers (.pumpDescriptor g) s t ∧ StepDone g { s with pwr := t.pwr } t ∧
          t.acc = s.acc ∧ t.cis = ownWrite s a op.off bs s.cis)) ∧
    (∀ (w : RemoteWrite) (clash : Clash), StandsAt g a (.write w) s → MemoriesOk s →
      let s1 := holdPort a (.write w) s
      (∀ bs meets, w.lat = none → w.src = .nothing ∧ bs = [] ∨ (∃ off len, w.src = .region off len ∧ Readable s a none off len bs) →
        (csAllowed s w.dst bs.length = false ∨ floatLive s w.float.toNat w.inc.toNat = false → tied →
          ∃ t, Answers (.remoteWriteCommit g clash meets) s t ∧ gone t) ∧
        (csAllowed s w.dst bs.length = true → floatLive s w.float.toNat w.inc.toNat = true →
          (meets = none → ∃ t, Answers (.remoteWriteCommit g clash none) s t ∧ StoredAt w.dst bs s.cis t.cis ∧
            StepDone g { s with floats := t.floats } t ∧ t.acc = s.acc ∧
            t.floats = (floatInc w.float.toNat w.inc.toNat s).2.floats) ∧
          (∀ m, meets = some m → (∃ r ∈ unitsOf 512 m.addr m.len, r ∈ unitsOf 512 w.dst bs.length) →
            portOrder m.port ≠ portOrder m.mine → ∃ t, Answers (.remoteWriteCommit g clash meets) s t ∧
            (t.core (csCore w.dst)).err.getLsbD 5 = true ∧
            let loses (x : Nat) : Prop := portOrder m.port < portOrder m.mine ∧ inRange m.addr m.len x
            ∀ x, (inRange w.dst bs.length x → ¬ loses x → mget t.cis x = bs.getD (x - w.dst) 0) ∧
              (¬ inRange w.dst bs.length x ∨ loses x → mget t.cis x = mget s.cis x)))) ∧
      (∀ dst data meets d r, Yields (writeBytes a w) s1 (some (dst, data)) r → w.lat = some d →
        Answers (.remoteWriteCommit g clash meets) s (advance a (lateralWrite a.u w d dst data r))) ∧
      (∀ meets r, Yields (writeBytes a w) s1 none r → Answers (.remoteWriteCommit g clash meets) s (advance a r)) ∧
      (∀ i logical base d meets k e n page, w.src = .shard i logical base → w.lat = some d →
        (ownShard s c)[i]? = some (k, .page e n) → page.length = 65536 → WellHas s ((s.mapEntry e).page * 65536) page →
        let gr := ((groupOf s a.u).bind (tget? s.lat.groups)).getD {}
        ∃ r, r = { s1 with pwr := r.pwr } ∧ Answers (.remoteWriteCommit g clash meets) s (advance a (lateralWrite a.u w d
          (shardSlotAddr w.dst (shardSlot gr 1 i (ownShard s c).length)) (ringHeader s c k e n i logical base ++ page) r)))) ∧
    (∀ ad len clash, StandsAt g a (.read ad len) s →
      (csAllowed s ad len = true → ∃ t, Answers (.remoteRead g clash) s t ∧
        StepDone g { s with outputs := s.outputs ++ [.remoteData g (mread s.cis ad len)] } t ∧ t.cis = s.cis ∧ t.acc = s.acc ∧
        counted 5 len t) ∧
      (csAllowed s ad len = false → tied → ∃ t, Answers (.remoteRead g clash) s t ∧ gone t)) ∧
    (∀ unit cyc u, unit / 4 = g →
      (s.dev.mode ≠ .serving ∨ at? s g = none ∨ (at? s g = some a ∧ a.u ≠ u) → Answers (.rngParityFail u unit cyc) s s) ∧
      (s.dev.mode = .serving → at? s g = some a → a.u = u →
        (c.parityFails < 2 → ∃ t, Answers (.rngParityFail u unit cyc) s t ∧ again t (fun d => d.parityFails) (c.parityFails + 1) ∧
          t.dev.events.getLsbD evCorrected = true) ∧
        (2 ≤ c.parityFails → tied → ∃ t, Answers (.rngParityFail u unit cyc) s t ∧ gone t)))) ∧
  (∀ (s : State) (u cyc : Nat),
    (s.dev.mode ≠ .serving ∨ s.cmd? u = none →
      Answers (.saturationPass u cyc) s s ∧ Answers (.widenRerun u) s s ∧ Answers (.planCommit u cyc) s s) ∧
    ∀ c, s.dev.mode = .serving → s.cmd? u = some c →
      let gone (t : State) : Prop := ∀ d ∈ t.inflight, d.uid ≠ u
      (c.opcode ≠ opStreamLoop → (c.opcode ≠ opRun ∨ c.phase ≠ .running ∨ c.stopping = true ∨ satPasses c c.sat = false) →
        Answers (.saturationPass u cyc) s s) ∧
      (c.opcode = opRun → c.phase = .running → c.stopping = false → satPasses c c.sat = true →
        (c.autoWiden = true → c.widened = false → ∃ t, Answers (.saturationPass u cyc) s t ∧
          t = (chargeRun u cyc s).modCmd u (fun d => { d with stopping := true })) ∧
        (c.autoWiden = false ∨ c.widened = true → ∃ t, Answers (.saturationPass u cyc) s t ∧ gone t)) ∧
      (∀ l x, c.opcode = opStreamLoop → c.phase = .accepted → c.object = some l → tget? s.loops l = some x → x.cmd = u →
        x.running = true → x.dead = false → satPasses c x.satBlock = true →
        ∃ t, Answers (.saturationPass u cyc) s t ∧ gone t) ∧
      (c.phase ≠ .running ∨ c.stopping = false → Answers (.widenRerun u) s s) ∧
      (c.phase = .running → c.stopping = true → ∃ t, Answers (.widenRerun u) s t ∧
        (t.cmd? u).map (fun e => (e.phase, e.widened, e.rerun, e.rerunDue, e.sat)) =
          some (.ready, true, c.rerun, c.rerunDue, 0) ∧
        ∀ x, s.ctx? c.ctx = some x → (t.ctx? c.ctx).map (fun y => y.stats.widened) = some (ctrAdd x.stats.widened 1)) ∧
      (c.opcode ≠ opRun ∨ c.phase ≠ .running ∨ c.stopping = true ∨ satPasses c c.sat = true ∨ c.plan = none ∨
        (∃ p, c.plan = some p ∧ atEnd s p c.cores = false) → Answers (.planCommit u cyc) s s) ∧
      (∀ p as first, c.opcode = opRun → c.phase = .running → c.stopping = false → satPasses c c.sat = false →
        c.plan = some p → atEnd s p c.cores = true → placesOf s c p c.cores = first :: as →
        let args := argsOf s c
        let s1 := endRun u cyc s
        (∀ gid, groupOf s u = some gid →
          let r := (sendMasses u gid s).modCmd u (fun d => { d with phase := .held, heldCyc := cyc })
          let gr := tget r.lat.groups gid {}
          ∃ t, Answers (.planCommit u cyc) s t ∧ t = sendCtrl gr.leader gid ctrlDone (leBytes 4 gr.gen) r ∧
            (t.cmd? u).map (fun d => (d.phase, d.heldCyc, d.cores)) = some (.held, cyc, c.cores)) ∧
        (groupOf s u = none → NoErrors s →
          (∀ rows ws xs q, Yields (do
              let rows ← allStaged first
              let ws ← commitData (first :: as) p
              let xs ← chunkSamples first
              eachM historyMeet (first :: as)
              eachM historyOut (first :: as)
              pure (rows, ws, xs)) s1 (rows, ws, xs) q →
            let w := commitWrites u ws (commitEffects u p rows xs q)
            (w.1 = true → ∃ t, Answers (.planCommit u cyc) s t ∧ Completes c stOk 0 (freeCores u w.2) t) ∧
            (w.1 = false → ∃ t, Answers (.planCommit u cyc) s t ∧ gone t)) ∧
          (args.bindings = [] → args.chunk = none → p.commit = [] → as = [] →
            let m := (historyOffs s first).foldl (fun m o => ownWrite s first o (mread m (ownAddr s first (o + 128)) 128) m) s.cis
            (∀ o ∈ historyOffs s first, Writable s first o 256) → (∀ e ∈ s.streams, ∀ k ∈ e.2.chunks, k.uid ≠ u) →
            ∃ t, Answers (.planCommit u cyc) s t ∧ Completes c stOk 0 { freeCores u (flipCarry c p s1) with cis := m } t) ∧
          (∀ i k0 n vs st, args.bindings = [] → args.chunk = some (i, k0, n) → p.commit = [] → NoHistory p →
            RowIs s first p.samples n vs → tget? s.streams i = some st →
            ∃ t, Answers (.planCommit u cyc) s t ∧ gone t ∧
              (tget? t.streams i).map (fun y => y.chunks) = some (st.chunks.map (fun k =>
                if k.uid = u then { k with committed := true, samples := vs.map (fun v => (spoutWord (isLinear s st) p.samples v).1) }
                else k))) ∧
          (∀ k x rows r, args.chunk = none → p.commit = [] → NoHistory p → args.bindings = [k] → k.append = true →
            tget? s.seqs k.seq = some x → Yields (allStaged first) s1 rows r →
            ∃ t, Answers (.planCommit u cyc) s t ∧ gone t ∧
              (tget? t.seqs k.seq).map (fun y => y.length) = some (x.length + k.count)))))

-- ## Queues and the scheduler

/-- R238 to R243, R362: the host's write of a queue's line, or a poll where POLL_US is not 0, takes its count, also in ERROR;
a count out of range puts the queue in ERROR. Records that waited for room follow a new CQ_CONS. A visit fetches the packet
at HEAD, counts it in HEAD and its line, and the command waits, its parameters read where the packet points to them. One that
a check at fetch refuses, with an opcode the part does not have (a vendor one too), a bad field or a faulted context, has
retired at once. -/
def Obligations.QueueLinesAreReadAndPacketsFetched : Prop :=
  ∀ (s : State) (q : Nat) (x : Queue) (stores : List HostStore), s.dev.mode = .serving → s.queue? q = some x →
    x.opened = true → queueEnabled s q = true →
    let h := hostStores stores s
    let taken (cons : W64) : Queue :=
      { x with cqCons := cons, ringCtxs := x.ringCtxs.drop (x.ringCtxs.length - (x.cqProd - cons).toNat) }
    (∀ (count : W64), Memory.wf h.host = true →
      ((count - x.head).toNat ≤ 2 ^ x.sqLog → ∃ t, Answers (.heldLineSnoop stores q .sqTail count) s t ∧
        t = { (hostWrite x.lineBase (leBytes 8 count.toNat) h) with queues := t.queues } ∧
        t.queue? q = some { x with tail := count } ∧ ∀ k, k ≠ q → t.queue? k = s.queue? k) ∧
      (2 ^ x.sqLog < (count - x.head).toNat → ∃ t, Answers (.heldLineSnoop stores q .sqTail count) s t ∧
        t.queue? q = some { x with error := true } ∧ (x.error = false → t.dev.events.getLsbD evQueue = true)) ∧
      ((x.cqProd - count).toNat ≤ 2 ^ x.cqLog → ∃ r, r = { (hostWrite (x.lineBase + 0xC0) (leBytes 8 count.toNat) h) with
          queues := r.queues } ∧ r.queue? q = some (taken count) ∧ (∀ k, k ≠ q → r.queue? k = s.queue? k) ∧
        Answers (.heldLineSnoop stores q .cqHead count) s (drainRing x.waits.length q r) ∧
        (x.waits = [] → drainRing x.waits.length q r = r)) ∧
      (2 ^ x.cqLog < (x.cqProd - count).toNat → ∃ t, Answers (.heldLineSnoop stores q .cqHead count) s t ∧
        t.queue? q = some { x with error := true } ∧ (x.error = false → t.dev.events.getLsbD evQueue = true))) ∧
    (s.cmdw.pollUs = 0 → Answers (.linePoll stores) s h) ∧
    (s.cmdw.pollUs ≠ 0 → (∀ e ∈ s.queues, e.2.waits = []) →
      let tail := lineCount h x.lineBase
      let cons := lineCount h (x.lineBase + 0xC0)
      (tail - x.head).toNat ≤ 2 ^ x.sqLog → (x.cqProd - cons).toNat ≤ 2 ^ x.cqLog → (∀ e ∈ s.bindings, e.2.held = []) →
      ∃ t, Answers (.linePoll stores) s t ∧ t.queue? q = some { taken cons with tail := tail } ∧
        ∀ b y, tget? s.bindings b = some y → tget? t.bindings b = some { y with
          targets := y.targets.map (fun z => { z with cons := lineCount h z.consLine }) }) ∧
    (nextQueue s = some q → x.tail = x.head + 1 → MemoriesOk s → (∀ d ∈ s.inflight, d.uid ≠ s.nextUid) →
      let b := hostRead s (x.sqBase + x.head.toNat % 2 ^ x.sqLog * 64) 64
      let c := parsePacket b s.nextUid q s.hubCycle
      let fetched (d : Cmd) (t : State) : Prop := Answers (.packetFetch q) s t ∧ t.inflight = s.inflight ++ [d] ∧
        t.nextUid = s.nextUid + 1 ∧ t.cmdw = { s.cmdw with lastVisit := q } ∧ t.queue? q = some { x with head := x.head + 1 } ∧
        StoredAt (x.lineBase + 0x40) (countLine (x.head + 1)) s.host t.host ∧ t.cis = s.cis ∧ t.wellMem = s.wellMem
      let refused (status : Nat) : Prop := ∃ t, Answers (.packetFetch q) s t ∧
        t.inflight.map (fun d => d.uid) = s.inflight.map (fun d => d.uid) ∧ (x.waits = [] → x.discards = false →
          (t.queue? q).map (fun y => (y.head, y.cqProd)) = some (x.head + 1, x.cqProd + 1) ∧
          (ringApart x → recordAddr x + 32 ≤ x.lineBase + 0x40 ∨ x.lineBase + 0x80 ≤ recordAddr x →
            field (mread t.host (recordAddr x) 32) 4 1 = status))
      (opcodes.contains c.opcode = false → refused stBadOpcode) ∧
      (opcodes.contains c.opcode = true → failing (packetChecks b c) ≠ [] → refused stBadParam) ∧
      (opcodes.contains c.opcode = true → failing (packetChecks b c) = [] → ctxCheck s c = true →
        (c.pointer = true → failing (pointerChecks s b) = []) → inFaulted s c = true → refused stContextFault) ∧
      (opcodes.contains c.opcode = true → failing (packetChecks b c) = [] → ctxCheck s c = true → c.pointer = false →
        inFaulted s c = false → (failing (fetchChecks s c) = [] → ∃ t, fetched c t) ∧
        (failing (fetchChecks s c) ≠ [] → refused stBadParam)) ∧
      (∀ ad blk r, opcodes.contains c.opcode = true → failing (packetChecks b c) = [] → ctxCheck s c = true → c.pointer = true →
        failing (pointerChecks s b) = [] → inFaulted s c = false → typedAddr (field b 0x20 8) = some ad →
        readAt ad (field b 0x28 4) s = (.bytes blk, r) → s.upsets = {} → let d := { c with params := blk }
        (failing (fetchChecks s d) = [] → ∃ t, fetched d t)))

/-- R43, R47, R97, R155, R265, R269 to R281, R420: DISPATCH starts a placed command whose domains flow and whose charges are
held: it takes its slots, occupies its cores, its committed state is copied and the floats that a plan arms are 0; a group
member sends READY instead; where no slot has room it waits for cores again. Else it places the first command of the service
order that can be placed, whose class is then the one served most recently. A running plan in the way of a class with a
lower VT is queued again. A slot that a waiting context needs goes to the sump, that idle longest first, and comes back.
Otherwise nothing happens. Stated where nothing is upset, poisoned or withdrawn; a start, for a RUN without sequences, chunk
or HISTORY points whose areas lie in its regions. -/
def Obligations.TheSchedulerPlacesStartsAndSwaps : Prop :=
  ∀ (s : State), s.dev.mode = .serving → NoErrors s → MemoriesOk s →
    (∀ pc c, startable s = some c →
      (isPump c.opcode = true → ∃ t, Answers (.dispatch pc) s t ∧
        (t.cmd? c.uid).map (fun d => (d.phase, d.started)) = some (.running, true) ∧
        ∀ g ∈ c.cores, (t.core g).running = some c.uid) ∧
      (∀ p x, isPump c.opcode = false → c.plan = some p → s.ctx? c.ctx = some x → s.cmd? c.uid = some c →
        (takeSlots c.ctx x c.cores s = none → ∃ t, Answers (.dispatch pc) s t ∧
          (t.cmd? c.uid).map (fun d => (d.phase, d.cores)) = some (.ready, [])) ∧
        (∀ w r, takeSlots c.ctx x c.cores s = some w → failing (placedChecks w c p) = [] →
          reloadAll c.uid p (c.cores.zip (List.range c.cores.length)) w = (.done, r) → armsBusy r c.ctx p c.cores = false →
          stagingOk r c = true →
          (∀ gid, groupOf r c.uid = some gid → (tget r.lat.groups gid {}).readySent = false →
            Answers (.dispatch pc) s (sendReady gid r)) ∧
          (∀ as, groupOf r c.uid = none → c.opcode = opRun → (argsOf r c).bindings = [] → (argsOf r c).chunk = none →
            NoErrors r → NoHistory p → placesOf r c p c.cores = as →
            (∀ a ∈ as, p.stateBase + 2 * p.stateRows ≤ (ownRegion r a).accSize * 64) →
            (∀ off, p.tempOff = some off → FirstFits r as off 256) → ∃ t, Answers (.dispatch pc) s t ∧
            (t.cmd? c.uid).map (fun d => (d.phase, d.started, d.sat, d.pos)) = some (.running, true, 0, []) ∧
            (∀ g ∈ c.cores, (t.core g).running = some c.uid) ∧
            (∀ a ∈ as, ∀ i < 64 * p.stateRows,
              let at' (row : Nat) : Nat := accKey a.core ((ownRegion r a).accBase * 64 + row + i / 64) (i % 64)
              tget t.acc (at' (halves r a).2) 0 = tget r.acc (at' (halves r a).1) 0) ∧
            ∀ g ∈ c.cores, ∀ k, slotOf r c.ctx g = some k → ∀ n ∈ p.arms, floatGet t g (16 * k + n) = 0)))) ∧
    (∀ pc, startable s = none → serveList (enterBacklog s) = [] → Answers (.dispatch pc) s (enterBacklog s)) ∧
    (∀ pc c pre post, startable s = none → serveList (enterBacklog s) = pre ++ c :: post →
      let w := enterBacklog s
      (∀ d ∈ pre, canPlace w d = false) → w.dev.dies ≠ 0 →
      let placed (gs : List Nat) : Prop := ∃ t, Answers (.dispatch pc) s t ∧
        (t.cmd? c.uid).map (fun d => (d.phase, d.cores)) = some (.placed, gs) ∧ t.sched.lastClass = some (classOf w c.ctx)
      (isPump c.opcode = true → failing (pumpChecks w c) = [] → (pumpCores w c pc).all (coreFree w) = true →
        placed (pumpCores w c pc)) ∧
      (isPump c.opcode = true → failing (pumpChecks w c) ≠ [] →
        ∃ t, Answers (.dispatch pc) s t ∧ ∀ d ∈ t.inflight, d.uid ≠ c.uid) ∧
      (∀ p, isPump c.opcode = false → c.plan = some p →
        (c.opcode = opStreamLoop → canPlace w c = true → Answers (.dispatch pc) s w) ∧
        (c.opcode ≠ opStreamLoop → groupLost w p = true →
          ∃ t, Answers (.dispatch pc) s t ∧ ∀ d ∈ t.inflight, d.uid ≠ c.uid) ∧
        (∀ f, c.opcode ≠ opStreamLoop → groupLost w p = false → choose w (coreFree w) c p = some f →
          let gs := groupCores f p.split
          (wantsHome w c.ctx gs = false → placed gs) ∧
          (wantsHome w c.ctx gs = true → Answers (.dispatch pc) s (giveHomes c.ctx gs w))))) ∧
    (∀ u ran, s.cmd? u = none → Answers (.sharePreemption u ran) s s) ∧
    (∀ u ran c, s.cmd? u = some c →
      (mayPreempt s ran c = false ∨ preemptor (enterBacklog s) ran c = false → Answers (.sharePreemption u ran) s s) ∧
      (c.opcode = opRun → c.phase = .running → s.sched.quantum ≠ 0 →
        s.sched.quantum.toNat * c.cores.length ≤ ranOf ran u → c.preempts < s.sched.preemptMax.toNat →
        preemptor (enterBacklog s) ran c = true → ∃ t, Answers (.sharePreemption u ran) s t ∧
        (t.cmd? u).map (fun d => (d.phase, d.rerunDue, d.preempts, d.cores)) = some (.ready, true, c.preempts + 1, []) ∧
        t.sched.preemptKills = ctrAdd s.sched.preemptKills 1)) ∧
    (∀ g cand cyc idle waited,
      let grace := s.sched.graceUs.toNat * 1000
      let ripe : Prop := isCandidate s g cand = true ∧ grace ≤ waited ∧
        ∀ e ∈ slotsOn s g, slotIdle s g e.2 = true ∧ grace ≤ idle.getD e.1 0
      (¬ ripe → Answers (.swapOut g cand cyc idle waited) s s) ∧
      (ripe → slotsOn s g ≠ [] → (∀ e ∈ slotsOn s g, ctxPinnedOn s e.2 g = true) →
        ∃ t, Answers (.swapOut g cand cyc idle waited) s t ∧
        t = { s with ctxs := t.ctxs, sched := { s.sched with pinStarve := ctrAdd s.sched.pinStarve 1 } }) ∧
      (∀ k cid x, ripe → (k, cid) ∈ slotsOn s g → ctxPinnedOn s cid g = false →
        (∀ e ∈ slotsOn s g, ctxPinnedOn s e.2 g = false →
          idle.getD e.1 0 < idle.getD k 0 ∨ (idle.getD e.1 0 = idle.getD k 0 ∧ k ≤ e.1)) →
        s.ctx? cid = some x →
        (coreFlowing s g = false ∨ settled s g = false → Answers (.swapOut g cand cyc idle waited) s s) ∧
        (coreFlowing s g = true → settled s g = true → ∃ t, Answers (.swapOut g cand cyc idle waited) s t ∧
          StoredAt (x.sumpBase % 2 ^ 39 + freeImageIndex x * x.imageBytes) (slotImage s g k) s.wellMem t.wellMem ∧
          ((t.core g).regions.getD k {}).valid = false ∧
          (t.core g).swapFor = (s.core g).swapFor ++ [(cand, cid)] ∧
          (t.ctx? cid).map (fun y => y.swapped) = some (x.swapped ++
            [{ index := freeImageIndex x, home := some g, srcCore := g, srcSlot := k }]) ∧
          t.sched.swapOuts = ctrAdd s.sched.swapOuts 1))) ∧
    (∀ g cid cyc, needsSlot s g cid = false → Answers (.swapIn g cid cyc) s s) ∧
    (∀ g cid x i k c cyc, s.ctx? cid = some x → x.swapped.find? (fun i => i.home == some g && i.rank.isNone) = some i →
      withSlot cid x (s.core g) = some (k, c) → needsSlot s g cid = true → coreFlowing s g = true → settled s g = true →
      (s.core g).running = none → x.faulted = false → ∃ t, Answers (.swapIn g cid cyc) s t ∧
      (t.core g).regions = c.regions.modify k (fun r => { r with pinned := i.pinned }) ∧
      (t.core g).swapFor = (s.core g).swapFor.filter (fun e => e.1 != cid) ∧
      (t.ctx? cid).map (fun y => y.swapped) = some (x.swapped.filter (fun j => j.index != i.index)) ∧
      mread t.cis (csAddr g ((c.regions.getD k {}).base * 8192)) ((c.regions.getD k {}).size * 8192) =
        ((mread s.wellMem (x.sumpBase % 2 ^ 39 + i.index * x.imageBytes) x.imageBytes).drop 4096).take
          ((c.regions.getD k {}).size * 8192))

-- ## The machine as a whole

/-- The model's step (its own choice, assumption 5): the command at the front of the queue leaves it and runs, by its own
meaning, on the rest; with an empty queue the part idles for one hub cycle. -/
def Obligations.StepRunsTheFrontCommand : Prop :=
  (∀ (s : State) (c : Instr) (cs : List Instr), s.pending = c :: cs → step s = exec c { s with pending := cs }) ∧
  ∀ s : State, s.pending = [] → step s = .next { s with hubCycle := s.hubCycle + 1 }

/-- R5, R17, R297: right after reset the three byte stores list nothing twice, nothing out of order and no byte that an
unlisted address reads as; they are in their canonical form (the model's choice of what an unlisted byte reads as: assumption 6). -/
def Obligations.ResetMemoriesAreCanonical : Prop := MemoriesOk State.reset

/-- The byte stores of host memory, cistern space and well space stay in their canonical form, whatever command comes: two
states whose bytes read alike hold equal stores, and so no command can tell how its bytes came about. -/
def Obligations.EveryStepKeepsTheMemoriesCanonical : Prop :=
  ∀ s t : State, MemoriesOk s → step s = .next t → MemoriesOk t

end
end

