-- ==== Sys2Proof/Laws/Memory.lean ====
section
/-!
SUPPORT. The laws of tables and byte stores: read after write, what a write leaves alone, and the canonical form.
-/

namespace Sys2Proof.Machine

-- ## Tables

section Tables
variable {α : Type}

@[simp] theorem tget?_tset_self (t : Table α) (k : Nat) (v : α) : tget? (tset t k v) k = some v := by
  induction t with
  | nil => simp [tset, tget?]
  | cons e t ih => obtain ⟨j, w⟩ := e; simp only [tset]; split <;> (try split) <;> simp_all [tget?]; omega

theorem tget?_tset_ne (t : Table α) (k j : Nat) (v : α) (h : j ≠ k) : tget? (tset t k v) j = tget? t j := by
  induction t with
  | nil => simp [tset, tget?, Ne.symm h]
  | cons e t ih =>
    obtain ⟨i, w⟩ := e
    simp only [tset]
    split
    · simp [tget?, Ne.symm h]
    · split
      · rename_i _ hk
        have : k = i := by simpa using hk
        subst this
        simp [tget?, Ne.symm h]
      · simp [tget?, ih]

theorem tget?_tset (t : Table α) (k j : Nat) (v : α) : tget? (tset t k v) j = if j = k then some v else tget? t j := by
  split
  · next h => subst h; simp
  · next h => exact tget?_tset_ne t k j v h

@[simp] theorem tget_tset_self (t : Table α) (k : Nat) (v d : α) : tget (tset t k v) k d = v := by simp [tget]

theorem tget_tset_ne (t : Table α) (k j : Nat) (v d : α) (h : j ≠ k) : tget (tset t k v) j d = tget t j d := by
  simp [tget, tget?_tset_ne t k j v h]

theorem tget?_filter (t : Table α) (p : Nat → Bool) (j : Nat) :
    tget? (t.filter (fun e => p e.1)) j = if p j then tget? t j else none := by
  induction t with
  | nil => simp [tget?]
  | cons e t ih =>
    obtain ⟨i, w⟩ := e
    by_cases hi : p i <;> by_cases hj : i = j <;> simp_all [tget?]

@[simp] theorem tget?_tdel_self (t : Table α) (k : Nat) : tget? (tdel t k) k = none := by
  simp [tdel, tget?_filter t (fun i => i != k)]

theorem tget?_tdel_ne (t : Table α) (k j : Nat) (h : j ≠ k) : tget? (tdel t k) j = tget? t j := by
  simp [tdel, tget?_filter t (fun i => i != k), h]

@[simp] theorem tget?_tmap (t : Table α) (f : Nat → α → α) (j : Nat) : tget? (tmap t f) j = (tget? t j).map (f j) := by
  induction t with
  | nil => rfl
  | cons e t ih =>
    obtain ⟨i, w⟩ := e
    simp only [tmap, List.map_cons, tget?]
    split
    · next h => simp at h; subst h; rfl
    · exact ih

theorem tget?_tmod (t : Table α) (k j : Nat) (f : α → α) :
    tget? (tmod t k f) j = if j = k then (tget? t j).map f else tget? t j := by
  unfold tmod
  split
  · next v h => rw [tget?_tset]; split <;> simp_all
  · next h => split <;> simp_all

theorem tget?_tupd (t : Table α) (k j : Nat) (d : α) (f : α → α) :
    tget? (tupd t k d f) j = if j = k then some (f (tget t k d)) else tget? t j := by
  unfold tupd; rw [tget?_tset]

end Tables

-- ## Byte stores

theorem mget_mset_ne (m : Mem) (a x : Nat) (v : Byte) (h : x ≠ a) : mget (mset m a v) x = mget m x := by
  induction m with
  | nil => simp only [mset]; split <;> simp [mget, Ne.symm h]
  | cons e m ih =>
    obtain ⟨j, b⟩ := e
    simp only [mset]
    split
    · split <;> simp [mget, Ne.symm h]
    · split
      · rename_i _ hj
        have : a = j := by simpa using hj
        subst this
        split <;> simp [mget, Ne.symm h]
      · simp [mget, ih]

theorem wfFrom_le {lo lo' : Nat} {m : Mem} (h : Memory.wfFrom lo m = true) (hl : lo' ≤ lo) :
    Memory.wfFrom lo' m = true := by
  cases m with
  | nil => rfl
  | cons e m =>
    obtain ⟨j, b⟩ := e
    simp only [Memory.wfFrom, Bool.and_eq_true, decide_eq_true_eq] at *
    exact ⟨⟨le_trans hl h.1.1, h.1.2⟩, h.2⟩

theorem wfFrom_mset {lo : Nat} {m : Mem} (a : Nat) (v : Byte) (h : Memory.wfFrom lo m = true) (ha : lo ≤ a) :
    Memory.wfFrom lo (mset m a v) = true := by
  induction m generalizing lo with
  | nil => simp only [mset]; split <;> simp_all [Memory.wfFrom]
  | cons e m ih =>
    obtain ⟨j, b⟩ := e
    simp only [Memory.wfFrom, Bool.and_eq_true, decide_eq_true_eq] at h
    obtain ⟨⟨hj, hb⟩, hm⟩ := h
    simp only [mset]
    split
    · split <;> simp_all [Memory.wfFrom]
    · split
      · rename_i _ hj
        have : a = j := by simpa using hj
        subst this
        split
        · exact wfFrom_le hm (by omega)
        · simp_all [Memory.wfFrom]
      · rename_i h1 h2
        have hne : a ≠ j := by simpa using h2
        simp only [Memory.wfFrom, Bool.and_eq_true, decide_eq_true_eq]
        exact ⟨⟨hj, hb⟩, ih hm (by omega)⟩

theorem wf_mset (m : Mem) (a : Nat) (v : Byte) (h : Memory.wf m = true) : Memory.wf (mset m a v) = true :=
  wfFrom_mset a v h (Nat.zero_le a)

theorem wf_mwrite (m : Mem) (a : Nat) (bs : List Byte) (h : Memory.wf m = true) : Memory.wf (mwrite m a bs) = true := by
  induction bs generalizing m a with
  | nil => exact h
  | cons b bs ih => exact ih _ _ (wf_mset m a b h)

theorem wfFrom_filter {lo : Nat} {m : Mem} (p : Host.Cell → Bool) (h : Memory.wfFrom lo m = true) :
    Memory.wfFrom lo (m.filter p) = true := by
  induction m generalizing lo with
  | nil => rfl
  | cons e m ih =>
    obtain ⟨j, b⟩ := e
    simp only [Memory.wfFrom, Bool.and_eq_true, decide_eq_true_eq] at h
    obtain ⟨⟨hj, hb⟩, hm⟩ := h
    simp only [List.filter_cons]
    split
    · simp only [Memory.wfFrom, Bool.and_eq_true, decide_eq_true_eq]; exact ⟨⟨hj, hb⟩, ih hm⟩
    · exact wfFrom_le (ih hm) (by omega)

theorem wf_filter (m : Mem) (p : Host.Cell → Bool) (h : Memory.wf m = true) : Memory.wf (m.filter p) = true :=
  wfFrom_filter p h

theorem wf_mclear (m : Mem) (a n : Nat) (h : Memory.wf m = true) : Memory.wf (mclear m a n) = true := wf_filter m _ h

theorem mget_below {lo : Nat} {m : Mem} {x : Nat} (h : Memory.wfFrom lo m = true) (hx : x < lo) : mget m x = 0 := by
  induction m generalizing lo with
  | nil => rfl
  | cons e m ih =>
    obtain ⟨j, b⟩ := e
    simp only [Memory.wfFrom, Bool.and_eq_true, decide_eq_true_eq] at h
    obtain ⟨⟨hj, hb⟩, hm⟩ := h
    simp only [mget]
    split
    · next hjx => simp at hjx; omega
    · exact ih hm (by omega)

theorem mget_mset_from {lo : Nat} {m : Mem} (a : Nat) (v : Byte) (h : Memory.wfFrom lo m = true) :
    mget (mset m a v) a = v := by
  induction m generalizing lo with
  | nil => simp only [mset]; split <;> simp_all [mget]
  | cons e m ih =>
    obtain ⟨j, b⟩ := e
    simp only [Memory.wfFrom, Bool.and_eq_true, decide_eq_true_eq] at h
    obtain ⟨⟨hj, hb⟩, hm⟩ := h
    simp only [mset]
    split
    · next haj =>
      split
      · next hv =>
        have : mget ((j, b) :: m) a = 0 := mget_below (lo := j) (by simp [Memory.wfFrom]; exact ⟨by simpa using hb, hm⟩) haj
        simp_all
      · simp [mget]
    · split
      · next hj' =>
        have : a = j := by simpa using hj'
        subst this
        split
        · next hv => rw [mget_below hm (by omega)]; simp_all
        · simp [mget]
      · next h1 h2 =>
        have hne : a ≠ j := by simpa using h2
        simp [mget, Ne.symm hne, ih hm]

theorem mget_mset_self (m : Mem) (a : Nat) (v : Byte) (h : Memory.wf m = true) : mget (mset m a v) a = v :=
  mget_mset_from a v h

theorem mget_mwrite_out (m : Mem) (a x : Nat) (bs : List Byte) (h : x < a ∨ a + bs.length ≤ x) :
    mget (mwrite m a bs) x = mget m x := by
  induction bs generalizing m a with
  | nil => rfl
  | cons b bs ih =>
    simp only [List.length_cons] at h
    rw [mwrite, ih _ _ (by omega), mget_mset_ne _ _ _ _ (by omega)]

theorem mget_mwrite_in (m : Mem) (a x : Nat) (bs : List Byte) (h : Memory.wf m = true) (h1 : a ≤ x)
    (h2 : x < a + bs.length) : mget (mwrite m a bs) x = bs.getD (x - a) 0 := by
  induction bs generalizing m a with
  | nil => simp at h2; omega
  | cons b bs ih =>
    simp only [List.length_cons] at h2
    rw [mwrite]
    by_cases hx : x = a
    · subst hx
      rw [mget_mwrite_out _ _ _ _ (by omega), mget_mset_self _ _ _ h]; simp
    · rw [ih _ _ (wf_mset m a b h) (by omega) (by omega), show x - a = (x - (a + 1)) + 1 by omega]; simp

@[simp] theorem length_mread (m : Mem) (a n : Nat) : (mread m a n).length = n := by
  induction n generalizing a with
  | zero => rfl
  | succ n ih => simp [mread, ih]

theorem mread_congr {m m' : Mem} {a n : Nat} (h : ∀ x, a ≤ x → x < a + n → mget m x = mget m' x) :
    mread m a n = mread m' a n := by
  induction n generalizing a with
  | zero => rfl
  | succ n ih => rw [mread, mread, h a (by omega) (by omega), ih (fun x h1 h2 => h x (by omega) (by omega))]

/-- A range of what was written reads back. -/
theorem mread_mwrite_sub (m : Mem) (a : Nat) (bs : List Byte) (k n : Nat) (h : Memory.wf m = true)
    (hk : k + n ≤ bs.length) : mread (mwrite m a bs) (a + k) n = (bs.drop k).take n := by
  induction n generalizing k with
  | zero => simp [mread]
  | succ n ih =>
    rw [mread, mget_mwrite_in m a _ bs h (by omega) (by omega), show a + k + 1 = a + (k + 1) by omega,
      ih (k + 1) (by omega), List.drop_eq_getElem_cons (by omega : k < bs.length), List.take_succ_cons]
    simp [List.getD_eq_getElem?_getD, show a + k - a = k by omega, List.getElem?_eq_getElem (by omega : k < bs.length)]

theorem mread_mwrite_self (m : Mem) (a : Nat) (bs : List Byte) (h : Memory.wf m = true) :
    mread (mwrite m a bs) a bs.length = bs := by
  simpa using mread_mwrite_sub m a bs 0 bs.length h (by omega)

theorem mread_mwrite_out (m : Mem) (a : Nat) (bs : List Byte) (x n : Nat) (h : x + n ≤ a ∨ a + bs.length ≤ x) :
    mread (mwrite m a bs) x n = mread m x n :=
  mread_congr (fun y h1 h2 => mget_mwrite_out m a y bs (by omega))

theorem mget_mclear (m : Mem) (a n x : Nat) : mget (mclear m a n) x = if a ≤ x ∧ x < a + n then 0 else mget m x := by
  induction m with
  | nil => simp [mclear, mget]
  | cons e m ih =>
    obtain ⟨j, b⟩ := e
    simp only [mclear, List.filter_cons] at *
    by_cases hj : j = x
    · subst hj
      by_cases hr : a ≤ j ∧ j < a + n
      · have : (decide (j < a) || decide (a + n ≤ j)) = false := by simp; omega
        simp only [this, Bool.false_eq_true, if_false]; rw [ih]; simp [hr]
      · have : (decide (j < a) || decide (a + n ≤ j)) = true := by simp; omega
        simp [this, mget, hr]
    · split <;> simp [mget, hj, ih]

@[simp] theorem length_leBytes (n v : Nat) : (leBytes n v).length = n := by
  induction n generalizing v with
  | zero => rfl
  | succ n ih => simp [leBytes, ih]

end Sys2Proof.Machine
end

