-- ==== Sys2Proof/Laws/Retire.lean ====
section
/-!
SUPPORT. What raising an event, sending a lateral message and retiring a command leave, said once for each.
-/

namespace Sys2Proof.Machine

/-- A relation that a function keeps is kept by a fold over it. -/
theorem foldl_rel {α β : Type} (R : α → α → Prop) (f : α → β → α) (refl : ∀ a, R a a)
    (trans : ∀ {a b c}, R a b → R b c → R a c) (step : ∀ a x, R a (f a x)) (xs : List β) (a : α) :
    R a (xs.foldl f a) := by
  induction xs generalizing a with
  | nil => exact refl a
  | cons x xs ih => exact trans (step a x) (ih (f a x))

-- ## Events

theorem raise_signals (e : Nat) (s : State) : Signals e s (raise e s) := by
  constructor <;> simp only [raise, msix, emit] <;> split <;> (try split) <;> (try split) <;> simp_all

-- ## The lateral fabric

/-- Only the lateral fabric, the outputs and the count of free values move. -/
def LatOnly (s t : State) : Prop := ∃ l o f, t = { s with lat := l, outputs := o, freeCtr := f }

theorem LatOnly.refl (s : State) : LatOnly s s := ⟨_, _, _, rfl⟩

theorem LatOnly.trans {r s t : State} (h : LatOnly r s) (k : LatOnly s t) : LatOnly r t := by
  obtain ⟨_, _, _, rfl⟩ := h; obtain ⟨_, _, _, rfl⟩ := k; exact ⟨_, _, _, rfl⟩

theorem LatOnly.fold {β : Type} (f : State → β → State) (h : ∀ s x, LatOnly s (f s x)) (xs : List β) (s : State) :
    LatOnly s (xs.foldl f s) := foldl_rel LatOnly f LatOnly.refl LatOnly.trans h xs s

theorem modLat_latOnly (f : Lateral → Lateral) (s : State) : LatOnly s (s.modLat f) := ⟨_, _, _, rfl⟩

theorem modPort_latOnly (p : Nat) (f : Port → Port) (s : State) : LatOnly s (s.modPort p f) := ⟨_, _, _, rfl⟩

theorem sendSequenced_latOnly (p base : Nat) (b : Block) (s : State) : LatOnly s (sendSequenced p base b s) :=
  ⟨_, _, _, rfl⟩

theorem sendIdle_latOnly (p : Nat) (nak : Bool) (s : State) : LatOnly s (sendIdle p nak s) := ⟨_, _, _, rfl⟩

theorem owe_latOnly (p k n : Nat) (s : State) : LatOnly s (owe p k n s) := by
  unfold owe; split
  · exact .refl s
  · exact modPort_latOnly ..

theorem pumpOne_latOnly (p : Nat) (s : State) : LatOnly s (pumpOne p s) := by
  unfold pumpOne
  simp only
  split
  · exact .refl s
  · split
    · exact .refl s
    · split
      · exact .refl s
      · exact ((modPort_latOnly ..).trans (sendSequenced_latOnly ..)).trans (owe_latOnly ..)

theorem pumpPort_latOnly (n p : Nat) (s : State) : LatOnly s (pumpPort n p s) := by
  induction n generalizing s with
  | zero => exact .refl s
  | succ n ih => exact (pumpOne_latOnly p s).trans (ih _)

theorem flushPort_latOnly (n p : Nat) (s : State) : LatOnly s (flushPort n p s) := by
  induction n generalizing s with
  | zero => exact .refl s
  | succ n ih =>
    simp only [flushPort]
    split
    · exact .refl s
    · split
      · exact (sendSequenced_latOnly ..).trans (ih _)
      · split
        · exact sendIdle_latOnly ..
        · exact .refl s

theorem latSettle_latOnly (s : State) : LatOnly s (latSettle s) :=
  (LatOnly.fold _ (fun s p => pumpPort_latOnly _ p s) _ s).trans (LatOnly.fold _ (fun s p => flushPort_latOnly _ p s) _ _)

theorem deliverMsg_latOnly (m : Msg) (s : State) : LatOnly s (deliverMsg m s) := by
  unfold deliverMsg
  split
  · exact modLat_latOnly ..
  · split
    · exact .refl s
    · exact modLat_latOnly ..

theorem putFlits_latOnly (p : Nat) (fs : List OutFlit) (s : State) : LatOnly s (putFlits p fs s) := by
  unfold putFlits; split
  · exact modPort_latOnly ..
  · exact modLat_latOnly ..

theorem sendNow_latOnly (m : Msg) (s : State) : LatOnly s (sendNow m s) := by
  unfold sendNow
  split
  · exact modLat_latOnly ..
  · split
    · exact deliverMsg_latOnly ..
    · split
      · exact modLat_latOnly ..
      · exact (putFlits_latOnly ..).trans (latSettle_latOnly _)

theorem sendMsg_latOnly (m : Msg) (s : State) : LatOnly s (sendMsg m s) := by
  unfold sendMsg
  simp only
  split
  · exact modLat_latOnly ..
  · exact sendNow_latOnly ..

theorem sendOthers_latOnly (gid code : Nat) (g : Group) (d : List Byte) (s : State) :
    LatOnly s (sendOthers gid code g d s) := LatOnly.fold _ (fun s _ => sendMsg_latOnly _ s) _ s

theorem reportAbort_latOnly (u : Nat) (s : State) : LatOnly s (reportAbort u s) := by
  unfold reportAbort
  split
  · exact .refl s
  · split
    · exact .refl s
    · split
      · exact sendMsg_latOnly ..
      · exact .refl s

theorem leaveGroup_latOnly (u : Nat) (s : State) : LatOnly s (leaveGroup u s) := by
  unfold leaveGroup
  split
  · exact .refl s
  · simp only
    split
    · exact (sendOthers_latOnly ..).trans (modLat_latOnly ..)
    · exact modLat_latOnly ..

theorem leaveGroup_none {u : Nat} {s : State} (h : groupOf s u = none) : leaveGroup u s = s := by
  unfold leaveGroup; rw [h]

-- ## Retirement

/-- What the record, the counters and the rest of a retirement may move. -/
def RetireOnly (s t : State) : Prop :=
  ∃ fl ho hp qs cx cl sc ev pm ou la fr, t = { s with
    inflight := fl, host := ho, hostPoison := hp, queues := qs, ctxs := cx, clients := cl, sched := sc
    dev := { s.dev with events := ev, pendingMsix := pm }, outputs := ou, lat := la, freeCtr := fr }

theorem RetireOnly.refl (s : State) : RetireOnly s s := ⟨_, _, _, _, _, _, _, _, _, _, _, _, rfl⟩

theorem RetireOnly.trans {r s t : State} (h : RetireOnly r s) (k : RetireOnly s t) : RetireOnly r t := by
  obtain ⟨_, _, _, _, _, _, _, _, _, _, _, _, rfl⟩ := h
  obtain ⟨_, _, _, _, _, _, _, _, _, _, _, _, rfl⟩ := k
  exact ⟨_, _, _, _, _, _, _, _, _, _, _, _, rfl⟩

theorem LatOnly.retireOnly {s t : State} (h : LatOnly s t) : RetireOnly s t := by
  obtain ⟨_, _, _, rfl⟩ := h; exact ⟨_, _, _, _, _, _, _, _, _, _, _, _, rfl⟩

theorem RetireOnly.same {s t : State} (h : RetireOnly s t) : SameMachine s t := by
  obtain ⟨_, _, _, _, _, _, _, _, _, _, _, _, rfl⟩ := h; constructor <;> rfl

theorem RetireOnly.dev {s t : State} (h : RetireOnly s t) : keptDev t.dev = keptDev s.dev := by
  obtain ⟨_, _, _, _, _, _, _, _, _, _, _, _, rfl⟩ := h; rfl

/-- What counting a retirement may move. -/
structure CountOnly (s t : State) : Prop where
  rest : ∃ cx cl sc ev pm ou, t = { s with
    ctxs := cx, clients := cl, sched := sc, dev := { s.dev with events := ev, pendingMsix := pm }, outputs := ou }
  ctxs : ∀ k, (t.ctx? k).map keptCtx = (s.ctx? k).map keptCtx
  sched : keptSched t.sched = keptSched s.sched

theorem CountOnly.refl (s : State) : CountOnly s s := ⟨⟨_, _, _, _, _, _, rfl⟩, fun _ => rfl, rfl⟩

theorem CountOnly.trans {r s t : State} (h : CountOnly r s) (k : CountOnly s t) : CountOnly r t := by
  refine ⟨?_, fun x => (k.ctxs x).trans (h.ctxs x), k.sched.trans h.sched⟩
  obtain ⟨_, _, _, _, _, _, rfl⟩ := h.rest
  obtain ⟨_, _, _, _, _, _, rfl⟩ := k.rest
  exact ⟨_, _, _, _, _, _, rfl⟩

theorem CountOnly.retireOnly {s t : State} (h : CountOnly s t) : RetireOnly s t := by
  obtain ⟨_, _, _, _, _, _, rfl⟩ := h.rest; exact ⟨_, _, _, _, _, _, _, _, _, _, _, _, rfl⟩

theorem CountOnly.raise {r s : State} (e : Nat) (h : CountOnly r s) : CountOnly r (raise e s) := by
  refine h.trans ?_
  have k := raise_signals e s
  refine ⟨⟨s.ctxs, s.clients, s.sched, (Machine.raise e s).dev.events, (Machine.raise e s).dev.pendingMsix,
    (Machine.raise e s).outputs, k.rest⟩, fun k' => ?_, ?_⟩
  · rw [k.rest]; rfl
  · rw [k.rest]

theorem CountOnly.modSched {r s : State} (f : Sched → Sched) (hf : ∀ k, keptSched (f k) = keptSched k)
    (h : CountOnly r s) : CountOnly r (s.modSched f) :=
  h.trans ⟨⟨_, _, _, _, _, _, rfl⟩, fun _ => rfl, hf _⟩

theorem CountOnly.clients {r s : State} (x : Table Client) (h : CountOnly r s) :
    CountOnly r { s with clients := x } := h.trans ⟨⟨_, _, _, _, _, _, rfl⟩, fun _ => rfl, rfl⟩

theorem CountOnly.modStats {r s : State} (c : Nat) (f : CtxStats → CtxStats) (h : CountOnly r s) :
    CountOnly r (s.modStats c f) := by
  refine h.trans ⟨⟨_, _, _, _, _, _, rfl⟩, fun k => ?_, rfl⟩
  simp only [State.ctx?, State.modStats, State.modCtx, tget?_tmod]
  split
  · cases tget? s.ctxs k <;> rfl
  · rfl

theorem CountOnly.clientAdd {r s : State} (tag which : Nat) (h : CountOnly r s) :
    CountOnly r (clientAdd tag which s) := by
  unfold Machine.clientAdd
  extract_lets e v s1
  split
  · split
    · exact h
    · exact .raise _ (.modSched _ (fun _ => rfl) (.clients _ h))
  · exact .clients _ h

theorem CountOnly.countRetire {r s : State} (c : Cmd) (status backlog : Nat) (h : CountOnly r s) :
    CountOnly r (countRetire c status backlog s) := by
  unfold Machine.countRetire
  extract_lets s1
  have h1 : CountOnly r s1 := .modSched _ (fun _ => rfl) h
  split
  · exact h1
  · split
    · exact h1
    · refine .modStats _ _ ?_
      split
      · exact .clientAdd _ _ h1
      · split
        · exact .clientAdd _ _ h1
        · exact h1

/-- What writing completion records to a queue's ring may move. -/
structure PushOnly (s t : State) : Prop where
  rest : ∃ ho hp qs pm ou, t = { s with
    host := ho, hostPoison := hp, queues := qs, dev := { s.dev with pendingMsix := pm }, outputs := ou }
  queues : ∀ q, (t.queue? q).map keptQueue = (s.queue? q).map keptQueue

theorem PushOnly.refl (s : State) : PushOnly s s := ⟨⟨_, _, _, _, _, rfl⟩, fun _ => rfl⟩

theorem PushOnly.trans {r s t : State} (h : PushOnly r s) (k : PushOnly s t) : PushOnly r t := by
  refine ⟨?_, fun q => (k.queues q).trans (h.queues q)⟩
  obtain ⟨_, _, _, _, _, rfl⟩ := h.rest
  obtain ⟨_, _, _, _, _, rfl⟩ := k.rest
  exact ⟨_, _, _, _, _, rfl⟩

theorem modQueue_pushOnly (q : Nat) (f : Queue → Queue) (hf : ∀ x, keptQueue (f x) = keptQueue x) (s : State) :
    PushOnly s (s.modQueue q f) := by
  refine ⟨⟨_, _, _, _, _, rfl⟩, fun k => ?_⟩
  simp only [State.queue?, State.modQueue, tget?_tmod]
  split
  · cases tget? s.queues k <;> simp [hf]
  · rfl

theorem setWaits_pushOnly (q : Nat) (f : Queue → List RingRec) (s : State) :
    PushOnly s (s.modQueue q (fun x => { x with waits := f x })) :=
  modQueue_pushOnly q (fun x => { x with waits := f x }) (fun _ => rfl) s

theorem msix_rest (v : Nat) (s : State) :
    ∃ pm ou, msix v s = { s with dev := { s.dev with pendingMsix := pm }, outputs := ou } := by
  unfold msix emit
  split
  · exact ⟨_, _, rfl⟩
  · split
    · exact ⟨_, _, rfl⟩
    · exact ⟨_, _, rfl⟩

@[simp] theorem length_countLine (n : W64) : (countLine n).length = 64 := by simp [countLine]

/-- The bytes of one record as they are written: its PHASE, or the recovery count (R248, R258). -/
def ringBytes (x : Queue) (r : RingRec) (s : State) : Block :=
  withPhase (phaseOf x) (if r.mark then markBytes s.dev.recoveries else r.bytes)

/-- Writing one record: the record, the count line that covers it, and the count (R238, R248). -/
theorem writeRing_writes (q : Nat) (x : Queue) (r : RingRec) (s : State) :
    ∃ hp pm ou, writeRing q x r s = { s with
      host := mwrite (mwrite s.host (recordAddr x) (ringBytes x r s)) (x.lineBase + 0x80) (countLine (x.cqProd + 1))
      hostPoison := hp
      queues := tmod s.queues q (fun y => { y with cqProd := x.cqProd + 1, ringCtxs := y.ringCtxs ++ [r.ctx] })
      dev := { s.dev with pendingMsix := pm }, outputs := ou } := by
  unfold writeRing
  simp only
  generalize hw : (hostWrite (x.lineBase + 0x80) (countLine (x.cqProd + 1))
    (hostWrite (x.cqBase + x.cqProd.toNat % 2 ^ x.cqLog * 32)
      (withPhase (phaseOf x) (if r.mark then markBytes s.dev.recoveries else r.bytes)) s)) = w
  have hw' : ∃ hp, w = { s with
      host := mwrite (mwrite s.host (recordAddr x) (ringBytes x r s)) (x.lineBase + 0x80) (countLine (x.cqProd + 1))
      hostPoison := hp } := ⟨w.hostPoison, by rw [← hw]; rfl⟩
  obtain ⟨hp, rfl⟩ := hw'
  split
  · obtain ⟨pm, ou, h⟩ := msix_rest q (State.modQueue _ q _)
    rw [h]
    refine ⟨hp, pm, ou, ?_⟩
    simp only [State.modQueue]
  · refine ⟨hp, s.dev.pendingMsix, s.outputs, ?_⟩
    simp only [State.modQueue]

theorem writeRing_pushOnly (q : Nat) (x : Queue) (r : RingRec) (s : State) : PushOnly s (writeRing q x r s) := by
  obtain ⟨hp, pm, ou, h⟩ := writeRing_writes q x r s
  rw [h]
  refine ⟨⟨_, _, _, _, _, rfl⟩, fun k => ?_⟩
  simp only [State.queue?, tget?_tmod]
  split
  · cases tget? s.queues k <;> rfl
  · rfl

theorem drainRing_pushOnly (n q : Nat) (s : State) : PushOnly s (drainRing n q s) := by
  induction n generalizing s with
  | zero => exact .refl s
  | succ n ih =>
    simp only [drainRing]
    split
    · exact .refl s
    · split
      · exact .refl s
      · split
        · exact .refl s
        · refine PushOnly.trans (PushOnly.trans ?_ (writeRing_pushOnly ..)) (ih _)
          exact setWaits_pushOnly q (fun _ => _) s

theorem pushRecord_pushOnly (q : Nat) (r : RingRec) (s : State) : PushOnly s (pushRecord q r s) := by
  unfold pushRecord
  split
  · exact .refl s
  · split
    · exact .refl s
    · refine PushOnly.trans ?_ (drainRing_pushOnly ..)
      exact setWaits_pushOnly q (fun x => x.waits ++ [r]) s

theorem queue?_modQueue {q : Nat} {x : Queue} {s : State} (f : Queue → Queue) (hq : s.queue? q = some x) :
    (s.modQueue q f).queue? q = some (f x) := by
  have hq' : tget? s.queues q = some x := hq
  simp only [State.queue?, State.modQueue, tget?_tmod, if_true, hq', Option.map_some]

/-- One record that waits is written where the ring has room, and stays where it has none. -/
theorem drainRing_head {n q : Nat} {x : Queue} {r : RingRec} {rs : List RingRec} {s : State} (hq : s.queue? q = some x)
    (hw : x.waits = r :: rs) : drainRing (n + 1) q s =
      if 2 ^ x.cqLog ≤ (x.cqProd - x.cqCons).toNat then s
      else drainRing n q (writeRing q x r (s.modQueue q (fun x => { x with waits := rs }))) := by
  simp only [drainRing, hq, hw]

/-- What is written to the ring of an open queue: the record waits behind the others, and those that find room go. -/
theorem pushRecord_eq {q : Nat} {x : Queue} {s : State} (r : RingRec) (hq : s.queue? q = some x)
    (ho : x.opened = true) (hd : x.discards = false) :
    pushRecord q r s = drainRing (x.waits.length + 1) q (s.modQueue q (fun x => { x with waits := x.waits ++ [r] })) := by
  unfold pushRecord
  rw [hq]
  simp only [ho, hd, Bool.not_true, Bool.or_self, Bool.false_eq_true, if_false]

/-- A record that finds room is written at once (R249). -/
theorem pushRecord_room {q : Nat} {x : Queue} {s : State} (r : RingRec) (hq : s.queue? q = some x)
    (ho : x.opened = true) (hd : x.discards = false) (hr : ringRoom x) :
    (pushRecord q r s).host =
      mwrite (mwrite s.host (recordAddr x) (ringBytes x r s)) (x.lineBase + 0x80) (countLine (x.cqProd + 1)) ∧
    ((pushRecord q r s).queue? q).map (fun y => (y.cqProd, y.waits)) = some (x.cqProd + 1, []) := by
  obtain ⟨hw, hn⟩ := hr
  rw [pushRecord_eq r hq ho hd, hw]
  have h1 := queue?_modQueue (fun x => { x with waits := x.waits ++ [r] }) hq
  rw [List.length_nil, drainRing_head (r := r) (rs := []) h1 (by simp only [hw, List.nil_append]), if_neg (Nat.not_le.2 hn)]
  generalize hs1 : s.modQueue q (fun x => { x with waits := x.waits ++ [r] }) = s1 at h1 ⊢
  have h2 := queue?_modQueue (fun x => { x with waits := [] }) h1
  generalize hs2 : s1.modQueue q (fun x => { x with waits := [] }) = s2 at h2 ⊢
  have hh : s2.host = s.host ∧ s2.dev = s.dev := by rw [← hs2, ← hs1]; exact ⟨rfl, rfl⟩
  simp only [drainRing]
  obtain ⟨hp, pm, ou, h⟩ := writeRing_writes q { x with waits := x.waits ++ [r] } r s2
  rw [h]
  have h3 : tget? s2.queues q = _ := h2
  refine ⟨?_, ?_⟩
  · simp only [hh, recordAddr, ringBytes, phaseOf]
  · simp only [State.queue?, tget?_tmod, if_true, h3, Option.map_some]

/-- A record that finds the ring full waits behind the others (R249). -/
theorem pushRecord_full {q : Nat} {x : Queue} {s : State} (r : RingRec) (hq : s.queue? q = some x)
    (ho : x.opened = true) (hd : x.discards = false) (hf : ringFull x) :
    pushRecord q r s = s.modQueue q (fun x => { x with waits := x.waits ++ [r] }) := by
  rw [pushRecord_eq r hq ho hd]
  have h1 := queue?_modQueue (fun x => { x with waits := x.waits ++ [r] }) hq
  cases hw : x.waits with
  | nil => rw [List.length_nil, drainRing_head (r := r) (rs := []) h1 (by simp only [hw, List.nil_append])]; exact if_pos hf
  | cons w ws => rw [drainRing_head (r := w) (rs := ws ++ [r]) h1 (by simp only [hw, List.cons_append])]; exact if_pos hf

/-- A queue that is closed or discards its records takes none (R355). -/
theorem pushRecord_none {q : Nat} {s : State} (r : RingRec)
    (h : ∀ x, s.queue? q = some x → x.opened = false ∨ x.discards = true) : pushRecord q r s = s := by
  unfold pushRecord
  split
  · rfl
  · next x hq => rw [if_pos (by rcases h x hq with h | h <;> simp [h])]

/-- Bytes that a record does not touch (R238, R248). -/
theorem pushRecord_host {c : Cmd} {r : RingRec} {s : State} (hm : ∀ x, (ringBytes x r s).length = 32)
    (hs : ∀ x, s.queue? c.queue = some x → x.waits = [] ∨ ringFull x) (a : Nat) (ha : ¬ inRecord s c a) :
    mget (pushRecord c.queue r s).host a = mget s.host a := by
  by_cases hx : ∃ x, s.queue? c.queue = some x ∧ x.opened = true ∧ x.discards = false
  · obtain ⟨x, hq, ho, hd⟩ := hx
    by_cases hf : ringFull x
    · rw [pushRecord_full r hq ho hd hf]; rfl
    · have hr : ringRoom x := ⟨(hs x hq).resolve_right hf, Nat.lt_of_not_le hf⟩
      rw [(pushRecord_room r hq ho hd hr).1]
      have hn : ¬ inRange (recordAddr x) 32 a ∧ ¬ inRange (x.lineBase + 0x80) 64 a :=
        ⟨fun k => ha ⟨x, hq, ho, hd, hf, .inl k⟩, fun k => ha ⟨x, hq, ho, hd, hf, .inr k⟩⟩
      simp only [inRange, not_and, not_lt] at hn
      rw [mget_mwrite_out _ _ _ _ (by rw [length_countLine]; omega), mget_mwrite_out _ _ _ _ (by rw [hm]; omega)]
  · rw [pushRecord_none]
    intro x hq
    by_contra hc
    simp only [not_or, Bool.not_eq_false, Bool.not_eq_true] at hc
    exact hx ⟨x, hq, hc.1, hc.2⟩

theorem PushOnly.retireOnly {s t : State} (h : PushOnly s t) : RetireOnly s t := by
  obtain ⟨_, _, _, _, _, rfl⟩ := h.rest; exact ⟨_, _, _, _, _, _, _, _, _, _, _, _, rfl⟩

@[simp] theorem length_recordBytes (c : Cmd) (a b d e : Nat) : (recordBytes c a b d e).length = 32 := by
  simp [recordBytes]

/-- The bytes of a record carry what it reports. -/
theorem recordBytes_of (c : Cmd) (status detail depth b : Nat) :
    RecordOf c status detail (recordBytes c status detail depth b) := by
  refine ⟨?_, ?_, ?_, ?_, ?_⟩ <;> simp [recordBytes, leBytes]

/-- PHASE touches only FLAGS (R248). -/
theorem withPhase_of {c : Cmd} {status detail ph : Nat} {b : Block} (hb : b.length = 32)
    (h : RecordOf c status detail b) : RecordOf c status detail (withPhase ph b) := by
  match b, hb with
  | [a0, a1, a2, a3, a4, a5, a6, a7, a8, a9, b0, b1, b2, b3, b4, b5, b6, b7, b8, b9, c0, c1, c2, c3, c4, c5, c6, c7, c8, c9,
      d0, d1], _ => exact h

theorem withPhase_phase {ph : Nat} {b : Block} (hb : b.length = 32) (hp : ph < 2) :
    (withPhase ph b).length = 32 ∧ field (withPhase ph b) 6 2 / 2 ^ 15 = ph := by
  match b, hb with
  | [a0, a1, a2, a3, a4, a5, a6, a7, a8, a9, b0, b1, b2, b3, b4, b5, b6, b7, b8, b9, c0, c1, c2, c3, c4, c5, c6, c7, c8, c9,
      d0, d1], _ =>
    refine ⟨rfl, ?_⟩
    simp only [withPhase, splice, field, leNat, leBytes, List.take_succ_cons, List.take_zero, List.drop_succ_cons, List.drop_zero,
      List.cons_append, List.nil_append, List.length_cons, List.length_nil, BitVec.toNat_ofNat]
    omega

theorem map_uid_modCmd (u : Nat) (f : Cmd → Cmd) (hf : ∀ d, (f d).uid = d.uid) (s : State) :
    (s.modCmd u f).inflight.map (fun d => d.uid) = s.inflight.map (fun d => d.uid) := by
  simp only [State.modCmd, List.map_map]
  exact List.map_congr_left (fun d _ => by simp only [Function.comp]; split <;> simp [hf])

theorem tallyClose_rest (q : Nat) (s : State) :
    (∃ fl, tallyClose q s = { s with inflight := fl }) ∧
    (tallyClose q s).inflight.map (fun d => d.uid) = s.inflight.map (fun d => d.uid) := by
  unfold tallyClose
  split
  · split
    · exact ⟨⟨_, rfl⟩, map_uid_modCmd _ (fun d => { d with tally := d.tally + 1 }) (fun _ => rfl) s⟩
    · exact ⟨⟨_, rfl⟩, rfl⟩
  · exact ⟨⟨_, rfl⟩, rfl⟩

/-- The record reads back from the ring (Table 11.7). -/
theorem record_reads {m : Mem} {x : Queue} (hwf : Memory.wf m = true) (ha : ringApart x) {r l : List Byte}
    (hr : r.length = 32) (hl : l.length = 64) :
    mread (mwrite (mwrite m (recordAddr x) r) (x.lineBase + 0x80) l) (recordAddr x) 32 = r := by
  unfold ringApart at ha
  rw [mread_mwrite_out _ _ _ _ _ (by rw [hl]; omega), ← hr, mread_mwrite_self _ _ _ hwf]

/-- A command that has started and whose slots are not scrubbed retires: what Completes says. -/
theorem retireOnly_completes {u status detail : Nat} {c : Cmd} {s : State} (hc : s.cmd? u = some c)
    (hu : c.uid = u) (hs : scrubAtRetire c status s = s) (hst : c.started = true) :
    Completes c status detail s (retireOnly u status detail s) := by
  obtain ⟨b, hb⟩ : ∃ b, backlogOf c s = (b, s) := by unfold backlogOf; rw [if_pos hst]; exact ⟨_, rfl⟩
  obtain ⟨r, hrb, hrm, hr⟩ : ∃ r : RingRec, r.bytes = recordBytes c status detail (backlogDepth s c) b ∧ r.mark = false ∧
      retireOnly u status detail s =
        (tallyClose c.queue (leaveGroup u (countRetire c status b (pushRecord c.queue r s)))).dropCmd u := by
    refine ⟨{ bytes := recordBytes c status detail (backlogDepth s c) b,
              ctx := if isDevice c.opcode then none else some c.ctx }, rfl, rfl, ?_⟩
    unfold retireOnly
    rw [hc]
    simp only [hs, hb]
  have hph : ∀ x, phaseOf x < 2 := fun x => by unfold phaseOf; omega
  have hlb : r.bytes.length = 32 := by rw [hrb, length_recordBytes]
  have hby : ∀ x, ringBytes x r s = withPhase (phaseOf x) r.bytes := fun x => by simp [ringBytes, hrm]
  have hlen : ∀ x, (ringBytes x r s).length = 32 := fun x => by rw [hby]; exact (withPhase_phase hlb (hph x)).1
  have hp := pushRecord_pushOnly c.queue r s
  have hroom := fun x (hq : s.queue? c.queue = some x) ho hd hr => pushRecord_room r hq ho hd hr
  have hfull : ∀ x, s.queue? c.queue = some x → x.opened = true → x.discards = false → ringFull x →
      ((pushRecord c.queue r s).queue? c.queue).map (fun y => (y.cqProd, y.waits)) = some (x.cqProd, x.waits ++ [r]) := by
    intro x hq ho hd hf
    rw [pushRecord_full r hq ho hd hf, queue?_modQueue _ hq]
    simp only [Option.map_some]
  have hhost := fun hs a ha => pushRecord_host (c := c) (r := r) (s := s) hlen hs a ha
  rw [hr]
  generalize pushRecord c.queue r s = t1 at *
  have hk := CountOnly.countRetire c status b (CountOnly.refl t1)
  generalize countRetire c status b t1 = t2 at *
  have hl := leaveGroup_latOnly u t2
  have hn := fun h => leaveGroup_none (u := u) (s := t2) h
  generalize leaveGroup u t2 = t3 at *
  obtain ⟨⟨fl, ht⟩, hm⟩ := tallyClose_rest c.queue t3
  generalize tallyClose c.queue t3 = t4 at *
  subst ht
  obtain ⟨_, _, _, _, _, rfl⟩ := hp.rest
  obtain ⟨_, _, _, _, _, _, rfl⟩ := hk.rest
  obtain ⟨_, _, _, rfl⟩ := hl
  refine ⟨?_, ?_, hk.ctxs, hp.queues, rfl, hk.sched, ?_, hhost, ?_, ?_, ?_⟩
  · simp only [State.dropCmd, hu] at *
    rw [← hm, List.filter_map]
    rfl
  · constructor <;> rfl
  · intro hg
    rw [hu] at hg
    have := hn hg
    have h1 := congrArg State.lat this
    have h2 := congrArg State.freeCtr this
    exact ⟨h1, h2⟩
  · exact fun x hq ho hd hr => (hroom x hq ho hd hr).2
  · intro hwf x hq ho hd hr ha
    have h : _ = mwrite (mwrite s.host (recordAddr x) (ringBytes x r s)) (x.lineBase + 0x80) (countLine (x.cqProd + 1)) :=
      (hroom x hq ho hd hr).1
    have h' := record_reads hwf ha (hlen x) (length_countLine (x.cqProd + 1))
    rw [← h] at h'
    have k1 : RecordOf c status detail (ringBytes x r s) := by
      rw [hby]; exact withPhase_of hlb (by rw [hrb]; exact recordBytes_of ..)
    have k2 : field (ringBytes x r s) 6 2 / 2 ^ 15 = phaseOf x := by
      rw [hby]; exact (withPhase_phase hlb (hph x)).2
    rw [← h'] at k1 k2
    exact ⟨k1, k2⟩
  · exact fun x hq ho hd hf => ⟨r, hfull x hq ho hd hf, by rw [hrb]; exact recordBytes_of ..⟩

theorem completeOk_completes {u : Nat} {c : Cmd} {s : State} (hc : s.cmd? u = some c) (hst : c.started = true) :
    Completes c stOk 0 s (completeOk u s) := by
  have hu : c.uid = u := by simpa using List.find?_some hc
  have : completeOk u s = retireOnly u stOk 0 s := by
    unfold completeOk retire; rw [hc]; simp [isFault, stOk, stScaleSkew, stContextFault, stPoison, stDieLost]
  rw [this]
  exact retireOnly_completes hc hu (by simp [scrubAtRetire]) hst

end Sys2Proof.Machine
end

