-- ==== Sys2Proof/Laws/Start.lean ====
section
/-!
SUPPORT. The start of a packet's command: what the common shape of the meanings does on a command that may start, and
how a completion after it reads in terms of the state before it.
-/

namespace Sys2Proof.Machine

/-- The command as it stands once it has started. -/
def startedCmd (s : State) (c : Cmd) : Cmd := if c.started then c else { c with started := true, startedAt := s.hubCycle }

@[simp] theorem startedCmd_started (s : State) (c : Cmd) : (startedCmd s c).started = true := by
  unfold startedCmd; split <;> simp_all

@[simp] theorem startedCmd_uid (s : State) (c : Cmd) : (startedCmd s c).uid = c.uid := by unfold startedCmd; split <;> rfl
@[simp] theorem startedCmd_queue (s : State) (c : Cmd) : (startedCmd s c).queue = c.queue := by
  unfold startedCmd; split <;> rfl
@[simp] theorem startedCmd_seq (s : State) (c : Cmd) : (startedCmd s c).seq = c.seq := by unfold startedCmd; split <;> rfl
@[simp] theorem startedCmd_ctx (s : State) (c : Cmd) : (startedCmd s c).ctx = c.ctx := by unfold startedCmd; split <;> rfl
@[simp] theorem startedCmd_opcode (s : State) (c : Cmd) : (startedCmd s c).opcode = c.opcode := by
  unfold startedCmd; split <;> rfl

theorem startedCmd_record (s : State) (c : Cmd) : RecordOf (startedCmd s c) = RecordOf c := by
  funext a b d
  simp only [RecordOf, startedCmd_seq, startedCmd_opcode, startedCmd_ctx]

theorem cmd?_uid {s : State} {u : Nat} {c : Cmd} (h : s.cmd? u = some c) : c.uid = u := by
  simpa using List.find?_some h

theorem find_map_uid (u : Nat) (f : Cmd → Cmd) (hf : ∀ d, (f d).uid = d.uid) (l : List Cmd) :
    (l.map f).find? (fun d => d.uid == u) = (l.find? (fun d => d.uid == u)).map f := by
  induction l with
  | nil => rfl
  | cons d l ih => by_cases h : d.uid = u <;> simp [h, hf, ih]

theorem cmd?_modCmd {s : State} {u : Nat} (f : Cmd → Cmd) (hf : ∀ d, (f d).uid = d.uid) :
    (s.modCmd u f).cmd? u = (s.cmd? u).map f := by
  simp only [State.modCmd, State.cmd?]
  rw [find_map_uid u _ (fun d => by split <;> simp [hf])]
  cases h : List.find? (fun d => d.uid == u) s.inflight with
  | none => rfl
  | some d =>
    have := List.find?_some (p := fun d : Cmd => d.uid == u) h
    simp_all

theorem cmd?_startCmd {s : State} {u : Nat} {c : Cmd} (h : s.cmd? u = some c) :
    (startCmd u s).cmd? u = some (startedCmd s c) := by
  unfold startCmd
  rw [cmd?_modCmd _ (fun d => by split <;> rfl), h]
  rfl

theorem uids_startCmd (u : Nat) (s : State) :
    (startCmd u s).inflight.map (fun d => d.uid) = s.inflight.map (fun d => d.uid) :=
  map_uid_modCmd u _ (fun d => by split <;> rfl) s

/-- The common shape of the meanings, on a command that may start. -/
theorem onStart_eq {u op : Nat} {c : Cmd} {s : State} (h : Startable u op c s) (body : Cmd → State → State) :
    onStart u op s body = body c (startCmd u s) := by
  unfold onStart
  rw [h.found]
  simp [State.serving, h.serves, h.fetched, h.opcode, h.free]

theorem checked_ok (u : Nat) (cs : List Check) (s : State) (go : State → State) (h : failing cs = []) :
    checked u cs s go = go s := by unfold checked; rw [h]

/-- A completion after the start, in terms of the state before it: `s1` is the state that the command's effect has made
of the started one. -/
theorem completeOk_of_start {u : Nat} {c : Cmd} {s s1 : State} (hc : s.cmd? u = some c)
    (hi : s1.inflight = (startCmd u s).inflight) :
    Completes c stOk 0 { s1 with inflight := s.inflight } (completeOk u s1) := by
  have h1 : s1.cmd? u = some (startedCmd s c) := by
    have := cmd?_startCmd hc
    unfold State.cmd? at *
    rw [hi]
    exact this
  have k := completeOk_completes h1 (startedCmd_started s c)
  refine ⟨?_, ?_, k.ctxs, k.queues, k.dev, k.sched, ?_, ?_, ?_, ?_, ?_⟩
  · have := k.left
    rw [hi, uids_startCmd, startedCmd_uid] at this
    exact this
  · have := k.same
    constructor <;> first
      | exact this.pending | exact this.hubCycle | exact this.cmdw | exact this.nextUid | exact this.cores
      | exact this.floats | exact this.perf | exact this.acc | exact this.cis | exact this.cisPoison
      | exact this.accPoison | exact this.wellMem | exact this.wellPoison | exact this.upsets | exact this.wells
      | exact this.valves | exact this.streams | exact this.loops | exact this.bindings | exact this.rings
      | exact this.spouts | exact this.prov | exact this.wmKeys | exact this.seqs | exact this.map
      | exact this.images | exact this.hdm | exact this.siphon | exact this.pwr
  · have := k.lat
    rw [startedCmd_uid] at this
    exact this
  · intro hw a ha
    refine k.host (by rw [startedCmd_queue]; exact hw) a ?_
    rintro ⟨x, hx, h⟩
    rw [startedCmd_queue] at hx
    exact ha ⟨x, hx, h⟩
  · have := k.counted
    rw [startedCmd_queue] at this
    exact this
  · have := k.record
    rw [startedCmd_queue, startedCmd_record] at this
    exact this
  · have := k.waits
    rw [startedCmd_queue, startedCmd_record] at this
    exact this

end Sys2Proof.Machine
end

