-- ==== Sys2Proof/Laws/State.lean ====
section
/-!
SUPPORT. What each named update of the state leaves in each field: one lemma per field per update, so that no proof
unfolds a record update.
-/

namespace Sys2Proof.Machine

section
variable (s : State) (f : Device → Device)
@[simp] theorem State.modDev_pending : (s.modDev f).pending = s.pending := rfl
@[simp] theorem State.modDev_outputs : (s.modDev f).outputs = s.outputs := rfl
@[simp] theorem State.modDev_freeCtr : (s.modDev f).freeCtr = s.freeCtr := rfl
@[simp] theorem State.modDev_hubCycle : (s.modDev f).hubCycle = s.hubCycle := rfl
@[simp] theorem State.modDev_dev : (s.modDev f).dev = f s.dev := rfl
@[simp] theorem State.modDev_cmdw : (s.modDev f).cmdw = s.cmdw := rfl
@[simp] theorem State.modDev_queues : (s.modDev f).queues = s.queues := rfl
@[simp] theorem State.modDev_inflight : (s.modDev f).inflight = s.inflight := rfl
@[simp] theorem State.modDev_nextUid : (s.modDev f).nextUid = s.nextUid := rfl
@[simp] theorem State.modDev_ctxs : (s.modDev f).ctxs = s.ctxs := rfl
@[simp] theorem State.modDev_clients : (s.modDev f).clients = s.clients := rfl
@[simp] theorem State.modDev_sched : (s.modDev f).sched = s.sched := rfl
@[simp] theorem State.modDev_cores : (s.modDev f).cores = s.cores := rfl
@[simp] theorem State.modDev_floats : (s.modDev f).floats = s.floats := rfl
@[simp] theorem State.modDev_perf : (s.modDev f).perf = s.perf := rfl
@[simp] theorem State.modDev_acc : (s.modDev f).acc = s.acc := rfl
@[simp] theorem State.modDev_cis : (s.modDev f).cis = s.cis := rfl
@[simp] theorem State.modDev_cisPoison : (s.modDev f).cisPoison = s.cisPoison := rfl
@[simp] theorem State.modDev_accPoison : (s.modDev f).accPoison = s.accPoison := rfl
@[simp] theorem State.modDev_wellMem : (s.modDev f).wellMem = s.wellMem := rfl
@[simp] theorem State.modDev_wellPoison : (s.modDev f).wellPoison = s.wellPoison := rfl
@[simp] theorem State.modDev_upsets : (s.modDev f).upsets = s.upsets := rfl
@[simp] theorem State.modDev_wells : (s.modDev f).wells = s.wells := rfl
@[simp] theorem State.modDev_host : (s.modDev f).host = s.host := rfl
@[simp] theorem State.modDev_hostPoison : (s.modDev f).hostPoison = s.hostPoison := rfl
@[simp] theorem State.modDev_valves : (s.modDev f).valves = s.valves := rfl
@[simp] theorem State.modDev_streams : (s.modDev f).streams = s.streams := rfl
@[simp] theorem State.modDev_loops : (s.modDev f).loops = s.loops := rfl
@[simp] theorem State.modDev_bindings : (s.modDev f).bindings = s.bindings := rfl
@[simp] theorem State.modDev_rings : (s.modDev f).rings = s.rings := rfl
@[simp] theorem State.modDev_spouts : (s.modDev f).spouts = s.spouts := rfl
@[simp] theorem State.modDev_prov : (s.modDev f).prov = s.prov := rfl
@[simp] theorem State.modDev_wmKeys : (s.modDev f).wmKeys = s.wmKeys := rfl
@[simp] theorem State.modDev_seqs : (s.modDev f).seqs = s.seqs := rfl
@[simp] theorem State.modDev_map : (s.modDev f).map = s.map := rfl
@[simp] theorem State.modDev_images : (s.modDev f).images = s.images := rfl
@[simp] theorem State.modDev_hdm : (s.modDev f).hdm = s.hdm := rfl
@[simp] theorem State.modDev_siphon : (s.modDev f).siphon = s.siphon := rfl
@[simp] theorem State.modDev_lat : (s.modDev f).lat = s.lat := rfl
@[simp] theorem State.modDev_pwr : (s.modDev f).pwr = s.pwr := rfl
end

section
variable (s : State) (f : Power → Power)
@[simp] theorem State.modPwr_pending : (s.modPwr f).pending = s.pending := rfl
@[simp] theorem State.modPwr_outputs : (s.modPwr f).outputs = s.outputs := rfl
@[simp] theorem State.modPwr_freeCtr : (s.modPwr f).freeCtr = s.freeCtr := rfl
@[simp] theorem State.modPwr_hubCycle : (s.modPwr f).hubCycle = s.hubCycle := rfl
@[simp] theorem State.modPwr_dev : (s.modPwr f).dev = s.dev := rfl
@[simp] theorem State.modPwr_cmdw : (s.modPwr f).cmdw = s.cmdw := rfl
@[simp] theorem State.modPwr_queues : (s.modPwr f).queues = s.queues := rfl
@[simp] theorem State.modPwr_inflight : (s.modPwr f).inflight = s.inflight := rfl
@[simp] theorem State.modPwr_nextUid : (s.modPwr f).nextUid = s.nextUid := rfl
@[simp] theorem State.modPwr_ctxs : (s.modPwr f).ctxs = s.ctxs := rfl
@[simp] theorem State.modPwr_clients : (s.modPwr f).clients = s.clients := rfl
@[simp] theorem State.modPwr_sched : (s.modPwr f).sched = s.sched := rfl
@[simp] theorem State.modPwr_cores : (s.modPwr f).cores = s.cores := rfl
@[simp] theorem State.modPwr_floats : (s.modPwr f).floats = s.floats := rfl
@[simp] theorem State.modPwr_perf : (s.modPwr f).perf = s.perf := rfl
@[simp] theorem State.modPwr_acc : (s.modPwr f).acc = s.acc := rfl
@[simp] theorem State.modPwr_cis : (s.modPwr f).cis = s.cis := rfl
@[simp] theorem State.modPwr_cisPoison : (s.modPwr f).cisPoison = s.cisPoison := rfl
@[simp] theorem State.modPwr_accPoison : (s.modPwr f).accPoison = s.accPoison := rfl
@[simp] theorem State.modPwr_wellMem : (s.modPwr f).wellMem = s.wellMem := rfl
@[simp] theorem State.modPwr_wellPoison : (s.modPwr f).wellPoison = s.wellPoison := rfl
@[simp] theorem State.modPwr_upsets : (s.modPwr f).upsets = s.upsets := rfl
@[simp] theorem State.modPwr_wells : (s.modPwr f).wells = s.wells := rfl
@[simp] theorem State.modPwr_host : (s.modPwr f).host = s.host := rfl
@[simp] theorem State.modPwr_hostPoison : (s.modPwr f).hostPoison = s.hostPoison := rfl
@[simp] theorem State.modPwr_valves : (s.modPwr f).valves = s.valves := rfl
@[simp] theorem State.modPwr_streams : (s.modPwr f).streams = s.streams := rfl
@[simp] theorem State.modPwr_loops : (s.modPwr f).loops = s.loops := rfl
@[simp] theorem State.modPwr_bindings : (s.modPwr f).bindings = s.bindings := rfl
@[simp] theorem State.modPwr_rings : (s.modPwr f).rings = s.rings := rfl
@[simp] theorem State.modPwr_spouts : (s.modPwr f).spouts = s.spouts := rfl
@[simp] theorem State.modPwr_prov : (s.modPwr f).prov = s.prov := rfl
@[simp] theorem State.modPwr_wmKeys : (s.modPwr f).wmKeys = s.wmKeys := rfl
@[simp] theorem State.modPwr_seqs : (s.modPwr f).seqs = s.seqs := rfl
@[simp] theorem State.modPwr_map : (s.modPwr f).map = s.map := rfl
@[simp] theorem State.modPwr_images : (s.modPwr f).images = s.images := rfl
@[simp] theorem State.modPwr_hdm : (s.modPwr f).hdm = s.hdm := rfl
@[simp] theorem State.modPwr_siphon : (s.modPwr f).siphon = s.siphon := rfl
@[simp] theorem State.modPwr_lat : (s.modPwr f).lat = s.lat := rfl
@[simp] theorem State.modPwr_pwr : (s.modPwr f).pwr = f s.pwr := rfl
end

section
variable (s : State) (f : Lateral → Lateral)
@[simp] theorem State.modLat_pending : (s.modLat f).pending = s.pending := rfl
@[simp] theorem State.modLat_outputs : (s.modLat f).outputs = s.outputs := rfl
@[simp] theorem State.modLat_freeCtr : (s.modLat f).freeCtr = s.freeCtr := rfl
@[simp] theorem State.modLat_hubCycle : (s.modLat f).hubCycle = s.hubCycle := rfl
@[simp] theorem State.modLat_dev : (s.modLat f).dev = s.dev := rfl
@[simp] theorem State.modLat_cmdw : (s.modLat f).cmdw = s.cmdw := rfl
@[simp] theorem State.modLat_queues : (s.modLat f).queues = s.queues := rfl
@[simp] theorem State.modLat_inflight : (s.modLat f).inflight = s.inflight := rfl
@[simp] theorem State.modLat_nextUid : (s.modLat f).nextUid = s.nextUid := rfl
@[simp] theorem State.modLat_ctxs : (s.modLat f).ctxs = s.ctxs := rfl
@[simp] theorem State.modLat_clients : (s.modLat f).clients = s.clients := rfl
@[simp] theorem State.modLat_sched : (s.modLat f).sched = s.sched := rfl
@[simp] theorem State.modLat_cores : (s.modLat f).cores = s.cores := rfl
@[simp] theorem State.modLat_floats : (s.modLat f).floats = s.floats := rfl
@[simp] theorem State.modLat_perf : (s.modLat f).perf = s.perf := rfl
@[simp] theorem State.modLat_acc : (s.modLat f).acc = s.acc := rfl
@[simp] theorem State.modLat_cis : (s.modLat f).cis = s.cis := rfl
@[simp] theorem State.modLat_cisPoison : (s.modLat f).cisPoison = s.cisPoison := rfl
@[simp] theorem State.modLat_accPoison : (s.modLat f).accPoison = s.accPoison := rfl
@[simp] theorem State.modLat_wellMem : (s.modLat f).wellMem = s.wellMem := rfl
@[simp] theorem State.modLat_wellPoison : (s.modLat f).wellPoison = s.wellPoison := rfl
@[simp] theorem State.modLat_upsets : (s.modLat f).upsets = s.upsets := rfl
@[simp] theorem State.modLat_wells : (s.modLat f).wells = s.wells := rfl
@[simp] theorem State.modLat_host : (s.modLat f).host = s.host := rfl
@[simp] theorem State.modLat_hostPoison : (s.modLat f).hostPoison = s.hostPoison := rfl
@[simp] theorem State.modLat_valves : (s.modLat f).valves = s.valves := rfl
@[simp] theorem State.modLat_streams : (s.modLat f).streams = s.streams := rfl
@[simp] theorem State.modLat_loops : (s.modLat f).loops = s.loops := rfl
@[simp] theorem State.modLat_bindings : (s.modLat f).bindings = s.bindings := rfl
@[simp] theorem State.modLat_rings : (s.modLat f).rings = s.rings := rfl
@[simp] theorem State.modLat_spouts : (s.modLat f).spouts = s.spouts := rfl
@[simp] theorem State.modLat_prov : (s.modLat f).prov = s.prov := rfl
@[simp] theorem State.modLat_wmKeys : (s.modLat f).wmKeys = s.wmKeys := rfl
@[simp] theorem State.modLat_seqs : (s.modLat f).seqs = s.seqs := rfl
@[simp] theorem State.modLat_map : (s.modLat f).map = s.map := rfl
@[simp] theorem State.modLat_images : (s.modLat f).images = s.images := rfl
@[simp] theorem State.modLat_hdm : (s.modLat f).hdm = s.hdm := rfl
@[simp] theorem State.modLat_siphon : (s.modLat f).siphon = s.siphon := rfl
@[simp] theorem State.modLat_lat : (s.modLat f).lat = f s.lat := rfl
@[simp] theorem State.modLat_pwr : (s.modLat f).pwr = s.pwr := rfl
end

section
variable (s : State) (f : Prov → Prov)
@[simp] theorem State.modProv_pending : (s.modProv f).pending = s.pending := rfl
@[simp] theorem State.modProv_outputs : (s.modProv f).outputs = s.outputs := rfl
@[simp] theorem State.modProv_freeCtr : (s.modProv f).freeCtr = s.freeCtr := rfl
@[simp] theorem State.modProv_hubCycle : (s.modProv f).hubCycle = s.hubCycle := rfl
@[simp] theorem State.modProv_dev : (s.modProv f).dev = s.dev := rfl
@[simp] theorem State.modProv_cmdw : (s.modProv f).cmdw = s.cmdw := rfl
@[simp] theorem State.modProv_queues : (s.modProv f).queues = s.queues := rfl
@[simp] theorem State.modProv_inflight : (s.modProv f).inflight = s.inflight := rfl
@[simp] theorem State.modProv_nextUid : (s.modProv f).nextUid = s.nextUid := rfl
@[simp] theorem State.modProv_ctxs : (s.modProv f).ctxs = s.ctxs := rfl
@[simp] theorem State.modProv_clients : (s.modProv f).clients = s.clients := rfl
@[simp] theorem State.modProv_sched : (s.modProv f).sched = s.sched := rfl
@[simp] theorem State.modProv_cores : (s.modProv f).cores = s.cores := rfl
@[simp] theorem State.modProv_floats : (s.modProv f).floats = s.floats := rfl
@[simp] theorem State.modProv_perf : (s.modProv f).perf = s.perf := rfl
@[simp] theorem State.modProv_acc : (s.modProv f).acc = s.acc := rfl
@[simp] theorem State.modProv_cis : (s.modProv f).cis = s.cis := rfl
@[simp] theorem State.modProv_cisPoison : (s.modProv f).cisPoison = s.cisPoison := rfl
@[simp] theorem State.modProv_accPoison : (s.modProv f).accPoison = s.accPoison := rfl
@[simp] theorem State.modProv_wellMem : (s.modProv f).wellMem = s.wellMem := rfl
@[simp] theorem State.modProv_wellPoison : (s.modProv f).wellPoison = s.wellPoison := rfl
@[simp] theorem State.modProv_upsets : (s.modProv f).upsets = s.upsets := rfl
@[simp] theorem State.modProv_wells : (s.modProv f).wells = s.wells := rfl
@[simp] theorem State.modProv_host : (s.modProv f).host = s.host := rfl
@[simp] theorem State.modProv_hostPoison : (s.modProv f).hostPoison = s.hostPoison := rfl
@[simp] theorem State.modProv_valves : (s.modProv f).valves = s.valves := rfl
@[simp] theorem State.modProv_streams : (s.modProv f).streams = s.streams := rfl
@[simp] theorem State.modProv_loops : (s.modProv f).loops = s.loops := rfl
@[simp] theorem State.modProv_bindings : (s.modProv f).bindings = s.bindings := rfl
@[simp] theorem State.modProv_rings : (s.modProv f).rings = s.rings := rfl
@[simp] theorem State.modProv_spouts : (s.modProv f).spouts = s.spouts := rfl
@[simp] theorem State.modProv_prov : (s.modProv f).prov = f s.prov := rfl
@[simp] theorem State.modProv_wmKeys : (s.modProv f).wmKeys = s.wmKeys := rfl
@[simp] theorem State.modProv_seqs : (s.modProv f).seqs = s.seqs := rfl
@[simp] theorem State.modProv_map : (s.modProv f).map = s.map := rfl
@[simp] theorem State.modProv_images : (s.modProv f).images = s.images := rfl
@[simp] theorem State.modProv_hdm : (s.modProv f).hdm = s.hdm := rfl
@[simp] theorem State.modProv_siphon : (s.modProv f).siphon = s.siphon := rfl
@[simp] theorem State.modProv_lat : (s.modProv f).lat = s.lat := rfl
@[simp] theorem State.modProv_pwr : (s.modProv f).pwr = s.pwr := rfl
end

section
variable (s : State) (f : Sched → Sched)
@[simp] theorem State.modSched_pending : (s.modSched f).pending = s.pending := rfl
@[simp] theorem State.modSched_outputs : (s.modSched f).outputs = s.outputs := rfl
@[simp] theorem State.modSched_freeCtr : (s.modSched f).freeCtr = s.freeCtr := rfl
@[simp] theorem State.modSched_hubCycle : (s.modSched f).hubCycle = s.hubCycle := rfl
@[simp] theorem State.modSched_dev : (s.modSched f).dev = s.dev := rfl
@[simp] theorem State.modSched_cmdw : (s.modSched f).cmdw = s.cmdw := rfl
@[simp] theorem State.modSched_queues : (s.modSched f).queues = s.queues := rfl
@[simp] theorem State.modSched_inflight : (s.modSched f).inflight = s.inflight := rfl
@[simp] theorem State.modSched_nextUid : (s.modSched f).nextUid = s.nextUid := rfl
@[simp] theorem State.modSched_ctxs : (s.modSched f).ctxs = s.ctxs := rfl
@[simp] theorem State.modSched_clients : (s.modSched f).clients = s.clients := rfl
@[simp] theorem State.modSched_sched : (s.modSched f).sched = f s.sched := rfl
@[simp] theorem State.modSched_cores : (s.modSched f).cores = s.cores := rfl
@[simp] theorem State.modSched_floats : (s.modSched f).floats = s.floats := rfl
@[simp] theorem State.modSched_perf : (s.modSched f).perf = s.perf := rfl
@[simp] theorem State.modSched_acc : (s.modSched f).acc = s.acc := rfl
@[simp] theorem State.modSched_cis : (s.modSched f).cis = s.cis := rfl
@[simp] theorem State.modSched_cisPoison : (s.modSched f).cisPoison = s.cisPoison := rfl
@[simp] theorem State.modSched_accPoison : (s.modSched f).accPoison = s.accPoison := rfl
@[simp] theorem State.modSched_wellMem : (s.modSched f).wellMem = s.wellMem := rfl
@[simp] theorem State.modSched_wellPoison : (s.modSched f).wellPoison = s.wellPoison := rfl
@[simp] theorem State.modSched_upsets : (s.modSched f).upsets = s.upsets := rfl
@[simp] theorem State.modSched_wells : (s.modSched f).wells = s.wells := rfl
@[simp] theorem State.modSched_host : (s.modSched f).host = s.host := rfl
@[simp] theorem State.modSched_hostPoison : (s.modSched f).hostPoison = s.hostPoison := rfl
@[simp] theorem State.modSched_valves : (s.modSched f).valves = s.valves := rfl
@[simp] theorem State.modSched_streams : (s.modSched f).streams = s.streams := rfl
@[simp] theorem State.modSched_loops : (s.modSched f).loops = s.loops := rfl
@[simp] theorem State.modSched_bindings : (s.modSched f).bindings = s.bindings := rfl
@[simp] theorem State.modSched_rings : (s.modSched f).rings = s.rings := rfl
@[simp] theorem State.modSched_spouts : (s.modSched f).spouts = s.spouts := rfl
@[simp] theorem State.modSched_prov : (s.modSched f).prov = s.prov := rfl
@[simp] theorem State.modSched_wmKeys : (s.modSched f).wmKeys = s.wmKeys := rfl
@[simp] theorem State.modSched_seqs : (s.modSched f).seqs = s.seqs := rfl
@[simp] theorem State.modSched_map : (s.modSched f).map = s.map := rfl
@[simp] theorem State.modSched_images : (s.modSched f).images = s.images := rfl
@[simp] theorem State.modSched_hdm : (s.modSched f).hdm = s.hdm := rfl
@[simp] theorem State.modSched_siphon : (s.modSched f).siphon = s.siphon := rfl
@[simp] theorem State.modSched_lat : (s.modSched f).lat = s.lat := rfl
@[simp] theorem State.modSched_pwr : (s.modSched f).pwr = s.pwr := rfl
end

section
variable (s : State) (c : Nat) (f : Ctx → Ctx)
@[simp] theorem State.modCtx_pending : (s.modCtx c f).pending = s.pending := rfl
@[simp] theorem State.modCtx_outputs : (s.modCtx c f).outputs = s.outputs := rfl
@[simp] theorem State.modCtx_freeCtr : (s.modCtx c f).freeCtr = s.freeCtr := rfl
@[simp] theorem State.modCtx_hubCycle : (s.modCtx c f).hubCycle = s.hubCycle := rfl
@[simp] theorem State.modCtx_dev : (s.modCtx c f).dev = s.dev := rfl
@[simp] theorem State.modCtx_cmdw : (s.modCtx c f).cmdw = s.cmdw := rfl
@[simp] theorem State.modCtx_queues : (s.modCtx c f).queues = s.queues := rfl
@[simp] theorem State.modCtx_inflight : (s.modCtx c f).inflight = s.inflight := rfl
@[simp] theorem State.modCtx_nextUid : (s.modCtx c f).nextUid = s.nextUid := rfl
@[simp] theorem State.modCtx_ctxs : (s.modCtx c f).ctxs = tmod s.ctxs c f := rfl
@[simp] theorem State.modCtx_clients : (s.modCtx c f).clients = s.clients := rfl
@[simp] theorem State.modCtx_sched : (s.modCtx c f).sched = s.sched := rfl
@[simp] theorem State.modCtx_cores : (s.modCtx c f).cores = s.cores := rfl
@[simp] theorem State.modCtx_floats : (s.modCtx c f).floats = s.floats := rfl
@[simp] theorem State.modCtx_perf : (s.modCtx c f).perf = s.perf := rfl
@[simp] theorem State.modCtx_acc : (s.modCtx c f).acc = s.acc := rfl
@[simp] theorem State.modCtx_cis : (s.modCtx c f).cis = s.cis := rfl
@[simp] theorem State.modCtx_cisPoison : (s.modCtx c f).cisPoison = s.cisPoison := rfl
@[simp] theorem State.modCtx_accPoison : (s.modCtx c f).accPoison = s.accPoison := rfl
@[simp] theorem State.modCtx_wellMem : (s.modCtx c f).wellMem = s.wellMem := rfl
@[simp] theorem State.modCtx_wellPoison : (s.modCtx c f).wellPoison = s.wellPoison := rfl
@[simp] theorem State.modCtx_upsets : (s.modCtx c f).upsets = s.upsets := rfl
@[simp] theorem State.modCtx_wells : (s.modCtx c f).wells = s.wells := rfl
@[simp] theorem State.modCtx_host : (s.modCtx c f).host = s.host := rfl
@[simp] theorem State.modCtx_hostPoison : (s.modCtx c f).hostPoison = s.hostPoison := rfl
@[simp] theorem State.modCtx_valves : (s.modCtx c f).valves = s.valves := rfl
@[simp] theorem State.modCtx_streams : (s.modCtx c f).streams = s.streams := rfl
@[simp] theorem State.modCtx_loops : (s.modCtx c f).loops = s.loops := rfl
@[simp] theorem State.modCtx_bindings : (s.modCtx c f).bindings = s.bindings := rfl
@[simp] theorem State.modCtx_rings : (s.modCtx c f).rings = s.rings := rfl
@[simp] theorem State.modCtx_spouts : (s.modCtx c f).spouts = s.spouts := rfl
@[simp] theorem State.modCtx_prov : (s.modCtx c f).prov = s.prov := rfl
@[simp] theorem State.modCtx_wmKeys : (s.modCtx c f).wmKeys = s.wmKeys := rfl
@[simp] theorem State.modCtx_seqs : (s.modCtx c f).seqs = s.seqs := rfl
@[simp] theorem State.modCtx_map : (s.modCtx c f).map = s.map := rfl
@[simp] theorem State.modCtx_images : (s.modCtx c f).images = s.images := rfl
@[simp] theorem State.modCtx_hdm : (s.modCtx c f).hdm = s.hdm := rfl
@[simp] theorem State.modCtx_siphon : (s.modCtx c f).siphon = s.siphon := rfl
@[simp] theorem State.modCtx_lat : (s.modCtx c f).lat = s.lat := rfl
@[simp] theorem State.modCtx_pwr : (s.modCtx c f).pwr = s.pwr := rfl
end

section
variable (s : State) (c : Nat) (f : CtxStats → CtxStats)
@[simp] theorem State.modStats_pending : (s.modStats c f).pending = s.pending := rfl
@[simp] theorem State.modStats_outputs : (s.modStats c f).outputs = s.outputs := rfl
@[simp] theorem State.modStats_freeCtr : (s.modStats c f).freeCtr = s.freeCtr := rfl
@[simp] theorem State.modStats_hubCycle : (s.modStats c f).hubCycle = s.hubCycle := rfl
@[simp] theorem State.modStats_dev : (s.modStats c f).dev = s.dev := rfl
@[simp] theorem State.modStats_cmdw : (s.modStats c f).cmdw = s.cmdw := rfl
@[simp] theorem State.modStats_queues : (s.modStats c f).queues = s.queues := rfl
@[simp] theorem State.modStats_inflight : (s.modStats c f).inflight = s.inflight := rfl
@[simp] theorem State.modStats_nextUid : (s.modStats c f).nextUid = s.nextUid := rfl
@[simp] theorem State.modStats_ctxs : (s.modStats c f).ctxs = tmod s.ctxs c (fun x => { x with stats := f x.stats }) := rfl
@[simp] theorem State.modStats_clients : (s.modStats c f).clients = s.clients := rfl
@[simp] theorem State.modStats_sched : (s.modStats c f).sched = s.sched := rfl
@[simp] theorem State.modStats_cores : (s.modStats c f).cores = s.cores := rfl
@[simp] theorem State.modStats_floats : (s.modStats c f).floats = s.floats := rfl
@[simp] theorem State.modStats_perf : (s.modStats c f).perf = s.perf := rfl
@[simp] theorem State.modStats_acc : (s.modStats c f).acc = s.acc := rfl
@[simp] theorem State.modStats_cis : (s.modStats c f).cis = s.cis := rfl
@[simp] theorem State.modStats_cisPoison : (s.modStats c f).cisPoison = s.cisPoison := rfl
@[simp] theorem State.modStats_accPoison : (s.modStats c f).accPoison = s.accPoison := rfl
@[simp] theorem State.modStats_wellMem : (s.modStats c f).wellMem = s.wellMem := rfl
@[simp] theorem State.modStats_wellPoison : (s.modStats c f).wellPoison = s.wellPoison := rfl
@[simp] theorem State.modStats_upsets : (s.modStats c f).upsets = s.upsets := rfl
@[simp] theorem State.modStats_wells : (s.modStats c f).wells = s.wells := rfl
@[simp] theorem State.modStats_host : (s.modStats c f).host = s.host := rfl
@[simp] theorem State.modStats_hostPoison : (s.modStats c f).hostPoison = s.hostPoison := rfl
@[simp] theorem State.modStats_valves : (s.modStats c f).valves = s.valves := rfl
@[simp] theorem State.modStats_streams : (s.modStats c f).streams = s.streams := rfl
@[simp] theorem State.modStats_loops : (s.modStats c f).loops = s.loops := rfl
@[simp] theorem State.modStats_bindings : (s.modStats c f).bindings = s.bindings := rfl
@[simp] theorem State.modStats_rings : (s.modStats c f).rings = s.rings := rfl
@[simp] theorem State.modStats_spouts : (s.modStats c f).spouts = s.spouts := rfl
@[simp] theorem State.modStats_prov : (s.modStats c f).prov = s.prov := rfl
@[simp] theorem State.modStats_wmKeys : (s.modStats c f).wmKeys = s.wmKeys := rfl
@[simp] theorem State.modStats_seqs : (s.modStats c f).seqs = s.seqs := rfl
@[simp] theorem State.modStats_map : (s.modStats c f).map = s.map := rfl
@[simp] theorem State.modStats_images : (s.modStats c f).images = s.images := rfl
@[simp] theorem State.modStats_hdm : (s.modStats c f).hdm = s.hdm := rfl
@[simp] theorem State.modStats_siphon : (s.modStats c f).siphon = s.siphon := rfl
@[simp] theorem State.modStats_lat : (s.modStats c f).lat = s.lat := rfl
@[simp] theorem State.modStats_pwr : (s.modStats c f).pwr = s.pwr := rfl
end

section
variable (s : State) (g : Nat) (f : Core → Core)
@[simp] theorem State.modCore_pending : (s.modCore g f).pending = s.pending := rfl
@[simp] theorem State.modCore_outputs : (s.modCore g f).outputs = s.outputs := rfl
@[simp] theorem State.modCore_freeCtr : (s.modCore g f).freeCtr = s.freeCtr := rfl
@[simp] theorem State.modCore_hubCycle : (s.modCore g f).hubCycle = s.hubCycle := rfl
@[simp] theorem State.modCore_dev : (s.modCore g f).dev = s.dev := rfl
@[simp] theorem State.modCore_cmdw : (s.modCore g f).cmdw = s.cmdw := rfl
@[simp] theorem State.modCore_queues : (s.modCore g f).queues = s.queues := rfl
@[simp] theorem State.modCore_inflight : (s.modCore g f).inflight = s.inflight := rfl
@[simp] theorem State.modCore_nextUid : (s.modCore g f).nextUid = s.nextUid := rfl
@[simp] theorem State.modCore_ctxs : (s.modCore g f).ctxs = s.ctxs := rfl
@[simp] theorem State.modCore_clients : (s.modCore g f).clients = s.clients := rfl
@[simp] theorem State.modCore_sched : (s.modCore g f).sched = s.sched := rfl
@[simp] theorem State.modCore_cores : (s.modCore g f).cores = tupd s.cores g {} f := rfl
@[simp] theorem State.modCore_floats : (s.modCore g f).floats = s.floats := rfl
@[simp] theorem State.modCore_perf : (s.modCore g f).perf = s.perf := rfl
@[simp] theorem State.modCore_acc : (s.modCore g f).acc = s.acc := rfl
@[simp] theorem State.modCore_cis : (s.modCore g f).cis = s.cis := rfl
@[simp] theorem State.modCore_cisPoison : (s.modCore g f).cisPoison = s.cisPoison := rfl
@[simp] theorem State.modCore_accPoison : (s.modCore g f).accPoison = s.accPoison := rfl
@[simp] theorem State.modCore_wellMem : (s.modCore g f).wellMem = s.wellMem := rfl
@[simp] theorem State.modCore_wellPoison : (s.modCore g f).wellPoison = s.wellPoison := rfl
@[simp] theorem State.modCore_upsets : (s.modCore g f).upsets = s.upsets := rfl
@[simp] theorem State.modCore_wells : (s.modCore g f).wells = s.wells := rfl
@[simp] theorem State.modCore_host : (s.modCore g f).host = s.host := rfl
@[simp] theorem State.modCore_hostPoison : (s.modCore g f).hostPoison = s.hostPoison := rfl
@[simp] theorem State.modCore_valves : (s.modCore g f).valves = s.valves := rfl
@[simp] theorem State.modCore_streams : (s.modCore g f).streams = s.streams := rfl
@[simp] theorem State.modCore_loops : (s.modCore g f).loops = s.loops := rfl
@[simp] theorem State.modCore_bindings : (s.modCore g f).bindings = s.bindings := rfl
@[simp] theorem State.modCore_rings : (s.modCore g f).rings = s.rings := rfl
@[simp] theorem State.modCore_spouts : (s.modCore g f).spouts = s.spouts := rfl
@[simp] theorem State.modCore_prov : (s.modCore g f).prov = s.prov := rfl
@[simp] theorem State.modCore_wmKeys : (s.modCore g f).wmKeys = s.wmKeys := rfl
@[simp] theorem State.modCore_seqs : (s.modCore g f).seqs = s.seqs := rfl
@[simp] theorem State.modCore_map : (s.modCore g f).map = s.map := rfl
@[simp] theorem State.modCore_images : (s.modCore g f).images = s.images := rfl
@[simp] theorem State.modCore_hdm : (s.modCore g f).hdm = s.hdm := rfl
@[simp] theorem State.modCore_siphon : (s.modCore g f).siphon = s.siphon := rfl
@[simp] theorem State.modCore_lat : (s.modCore g f).lat = s.lat := rfl
@[simp] theorem State.modCore_pwr : (s.modCore g f).pwr = s.pwr := rfl
end

section
variable (s : State) (g m n : Nat)
@[simp] theorem State.perfAdd_pending : (s.perfAdd g m n).pending = s.pending := rfl
@[simp] theorem State.perfAdd_outputs : (s.perfAdd g m n).outputs = s.outputs := rfl
@[simp] theorem State.perfAdd_freeCtr : (s.perfAdd g m n).freeCtr = s.freeCtr := rfl
@[simp] theorem State.perfAdd_hubCycle : (s.perfAdd g m n).hubCycle = s.hubCycle := rfl
@[simp] theorem State.perfAdd_dev : (s.perfAdd g m n).dev = s.dev := rfl
@[simp] theorem State.perfAdd_cmdw : (s.perfAdd g m n).cmdw = s.cmdw := rfl
@[simp] theorem State.perfAdd_queues : (s.perfAdd g m n).queues = s.queues := rfl
@[simp] theorem State.perfAdd_inflight : (s.perfAdd g m n).inflight = s.inflight := rfl
@[simp] theorem State.perfAdd_nextUid : (s.perfAdd g m n).nextUid = s.nextUid := rfl
@[simp] theorem State.perfAdd_ctxs : (s.perfAdd g m n).ctxs = s.ctxs := rfl
@[simp] theorem State.perfAdd_clients : (s.perfAdd g m n).clients = s.clients := rfl
@[simp] theorem State.perfAdd_sched : (s.perfAdd g m n).sched = s.sched := rfl
@[simp] theorem State.perfAdd_cores : (s.perfAdd g m n).cores = s.cores := rfl
@[simp] theorem State.perfAdd_floats : (s.perfAdd g m n).floats = s.floats := rfl
@[simp] theorem State.perfAdd_perf : (s.perfAdd g m n).perf = tupd s.perf (16 * g + m) 0 (fun c => ctrAdd c n) := rfl
@[simp] theorem State.perfAdd_acc : (s.perfAdd g m n).acc = s.acc := rfl
@[simp] theorem State.perfAdd_cis : (s.perfAdd g m n).cis = s.cis := rfl
@[simp] theorem State.perfAdd_cisPoison : (s.perfAdd g m n).cisPoison = s.cisPoison := rfl
@[simp] theorem State.perfAdd_accPoison : (s.perfAdd g m n).accPoison = s.accPoison := rfl
@[simp] theorem State.perfAdd_wellMem : (s.perfAdd g m n).wellMem = s.wellMem := rfl
@[simp] theorem State.perfAdd_wellPoison : (s.perfAdd g m n).wellPoison = s.wellPoison := rfl
@[simp] theorem State.perfAdd_upsets : (s.perfAdd g m n).upsets = s.upsets := rfl
@[simp] theorem State.perfAdd_wells : (s.perfAdd g m n).wells = s.wells := rfl
@[simp] theorem State.perfAdd_host : (s.perfAdd g m n).host = s.host := rfl
@[simp] theorem State.perfAdd_hostPoison : (s.perfAdd g m n).hostPoison = s.hostPoison := rfl
@[simp] theorem State.perfAdd_valves : (s.perfAdd g m n).valves = s.valves := rfl
@[simp] theorem State.perfAdd_streams : (s.perfAdd g m n).streams = s.streams := rfl
@[simp] theorem State.perfAdd_loops : (s.perfAdd g m n).loops = s.loops := rfl
@[simp] theorem State.perfAdd_bindings : (s.perfAdd g m n).bindings = s.bindings := rfl
@[simp] theorem State.perfAdd_rings : (s.perfAdd g m n).rings = s.rings := rfl
@[simp] theorem State.perfAdd_spouts : (s.perfAdd g m n).spouts = s.spouts := rfl
@[simp] theorem State.perfAdd_prov : (s.perfAdd g m n).prov = s.prov := rfl
@[simp] theorem State.perfAdd_wmKeys : (s.perfAdd g m n).wmKeys = s.wmKeys := rfl
@[simp] theorem State.perfAdd_seqs : (s.perfAdd g m n).seqs = s.seqs := rfl
@[simp] theorem State.perfAdd_map : (s.perfAdd g m n).map = s.map := rfl
@[simp] theorem State.perfAdd_images : (s.perfAdd g m n).images = s.images := rfl
@[simp] theorem State.perfAdd_hdm : (s.perfAdd g m n).hdm = s.hdm := rfl
@[simp] theorem State.perfAdd_siphon : (s.perfAdd g m n).siphon = s.siphon := rfl
@[simp] theorem State.perfAdd_lat : (s.perfAdd g m n).lat = s.lat := rfl
@[simp] theorem State.perfAdd_pwr : (s.perfAdd g m n).pwr = s.pwr := rfl
end

section
variable (s : State) (q : Nat) (f : Queue → Queue)
@[simp] theorem State.modQueue_pending : (s.modQueue q f).pending = s.pending := rfl
@[simp] theorem State.modQueue_outputs : (s.modQueue q f).outputs = s.outputs := rfl
@[simp] theorem State.modQueue_freeCtr : (s.modQueue q f).freeCtr = s.freeCtr := rfl
@[simp] theorem State.modQueue_hubCycle : (s.modQueue q f).hubCycle = s.hubCycle := rfl
@[simp] theorem State.modQueue_dev : (s.modQueue q f).dev = s.dev := rfl
@[simp] theorem State.modQueue_cmdw : (s.modQueue q f).cmdw = s.cmdw := rfl
@[simp] theorem State.modQueue_queues : (s.modQueue q f).queues = tmod s.queues q f := rfl
@[simp] theorem State.modQueue_inflight : (s.modQueue q f).inflight = s.inflight := rfl
@[simp] theorem State.modQueue_nextUid : (s.modQueue q f).nextUid = s.nextUid := rfl
@[simp] theorem State.modQueue_ctxs : (s.modQueue q f).ctxs = s.ctxs := rfl
@[simp] theorem State.modQueue_clients : (s.modQueue q f).clients = s.clients := rfl
@[simp] theorem State.modQueue_sched : (s.modQueue q f).sched = s.sched := rfl
@[simp] theorem State.modQueue_cores : (s.modQueue q f).cores = s.cores := rfl
@[simp] theorem State.modQueue_floats : (s.modQueue q f).floats = s.floats := rfl
@[simp] theorem State.modQueue_perf : (s.modQueue q f).perf = s.perf := rfl
@[simp] theorem State.modQueue_acc : (s.modQueue q f).acc = s.acc := rfl
@[simp] theorem State.modQueue_cis : (s.modQueue q f).cis = s.cis := rfl
@[simp] theorem State.modQueue_cisPoison : (s.modQueue q f).cisPoison = s.cisPoison := rfl
@[simp] theorem State.modQueue_accPoison : (s.modQueue q f).accPoison = s.accPoison := rfl
@[simp] theorem State.modQueue_wellMem : (s.modQueue q f).wellMem = s.wellMem := rfl
@[simp] theorem State.modQueue_wellPoison : (s.modQueue q f).wellPoison = s.wellPoison := rfl
@[simp] theorem State.modQueue_upsets : (s.modQueue q f).upsets = s.upsets := rfl
@[simp] theorem State.modQueue_wells : (s.modQueue q f).wells = s.wells := rfl
@[simp] theorem State.modQueue_host : (s.modQueue q f).host = s.host := rfl
@[simp] theorem State.modQueue_hostPoison : (s.modQueue q f).hostPoison = s.hostPoison := rfl
@[simp] theorem State.modQueue_valves : (s.modQueue q f).valves = s.valves := rfl
@[simp] theorem State.modQueue_streams : (s.modQueue q f).streams = s.streams := rfl
@[simp] theorem State.modQueue_loops : (s.modQueue q f).loops = s.loops := rfl
@[simp] theorem State.modQueue_bindings : (s.modQueue q f).bindings = s.bindings := rfl
@[simp] theorem State.modQueue_rings : (s.modQueue q f).rings = s.rings := rfl
@[simp] theorem State.modQueue_spouts : (s.modQueue q f).spouts = s.spouts := rfl
@[simp] theorem State.modQueue_prov : (s.modQueue q f).prov = s.prov := rfl
@[simp] theorem State.modQueue_wmKeys : (s.modQueue q f).wmKeys = s.wmKeys := rfl
@[simp] theorem State.modQueue_seqs : (s.modQueue q f).seqs = s.seqs := rfl
@[simp] theorem State.modQueue_map : (s.modQueue q f).map = s.map := rfl
@[simp] theorem State.modQueue_images : (s.modQueue q f).images = s.images := rfl
@[simp] theorem State.modQueue_hdm : (s.modQueue q f).hdm = s.hdm := rfl
@[simp] theorem State.modQueue_siphon : (s.modQueue q f).siphon = s.siphon := rfl
@[simp] theorem State.modQueue_lat : (s.modQueue q f).lat = s.lat := rfl
@[simp] theorem State.modQueue_pwr : (s.modQueue q f).pwr = s.pwr := rfl
end

section
variable (s : State) (i : Nat) (f : Stream → Stream)
@[simp] theorem State.modStream_pending : (s.modStream i f).pending = s.pending := rfl
@[simp] theorem State.modStream_outputs : (s.modStream i f).outputs = s.outputs := rfl
@[simp] theorem State.modStream_freeCtr : (s.modStream i f).freeCtr = s.freeCtr := rfl
@[simp] theorem State.modStream_hubCycle : (s.modStream i f).hubCycle = s.hubCycle := rfl
@[simp] theorem State.modStream_dev : (s.modStream i f).dev = s.dev := rfl
@[simp] theorem State.modStream_cmdw : (s.modStream i f).cmdw = s.cmdw := rfl
@[simp] theorem State.modStream_queues : (s.modStream i f).queues = s.queues := rfl
@[simp] theorem State.modStream_inflight : (s.modStream i f).inflight = s.inflight := rfl
@[simp] theorem State.modStream_nextUid : (s.modStream i f).nextUid = s.nextUid := rfl
@[simp] theorem State.modStream_ctxs : (s.modStream i f).ctxs = s.ctxs := rfl
@[simp] theorem State.modStream_clients : (s.modStream i f).clients = s.clients := rfl
@[simp] theorem State.modStream_sched : (s.modStream i f).sched = s.sched := rfl
@[simp] theorem State.modStream_cores : (s.modStream i f).cores = s.cores := rfl
@[simp] theorem State.modStream_floats : (s.modStream i f).floats = s.floats := rfl
@[simp] theorem State.modStream_perf : (s.modStream i f).perf = s.perf := rfl
@[simp] theorem State.modStream_acc : (s.modStream i f).acc = s.acc := rfl
@[simp] theorem State.modStream_cis : (s.modStream i f).cis = s.cis := rfl
@[simp] theorem State.modStream_cisPoison : (s.modStream i f).cisPoison = s.cisPoison := rfl
@[simp] theorem State.modStream_accPoison : (s.modStream i f).accPoison = s.accPoison := rfl
@[simp] theorem State.modStream_wellMem : (s.modStream i f).wellMem = s.wellMem := rfl
@[simp] theorem State.modStream_wellPoison : (s.modStream i f).wellPoison = s.wellPoison := rfl
@[simp] theorem State.modStream_upsets : (s.modStream i f).upsets = s.upsets := rfl
@[simp] theorem State.modStream_wells : (s.modStream i f).wells = s.wells := rfl
@[simp] theorem State.modStream_host : (s.modStream i f).host = s.host := rfl
@[simp] theorem State.modStream_hostPoison : (s.modStream i f).hostPoison = s.hostPoison := rfl
@[simp] theorem State.modStream_valves : (s.modStream i f).valves = s.valves := rfl
@[simp] theorem State.modStream_streams : (s.modStream i f).streams = tmod s.streams i f := rfl
@[simp] theorem State.modStream_loops : (s.modStream i f).loops = s.loops := rfl
@[simp] theorem State.modStream_bindings : (s.modStream i f).bindings = s.bindings := rfl
@[simp] theorem State.modStream_rings : (s.modStream i f).rings = s.rings := rfl
@[simp] theorem State.modStream_spouts : (s.modStream i f).spouts = s.spouts := rfl
@[simp] theorem State.modStream_prov : (s.modStream i f).prov = s.prov := rfl
@[simp] theorem State.modStream_wmKeys : (s.modStream i f).wmKeys = s.wmKeys := rfl
@[simp] theorem State.modStream_seqs : (s.modStream i f).seqs = s.seqs := rfl
@[simp] theorem State.modStream_map : (s.modStream i f).map = s.map := rfl
@[simp] theorem State.modStream_images : (s.modStream i f).images = s.images := rfl
@[simp] theorem State.modStream_hdm : (s.modStream i f).hdm = s.hdm := rfl
@[simp] theorem State.modStream_siphon : (s.modStream i f).siphon = s.siphon := rfl
@[simp] theorem State.modStream_lat : (s.modStream i f).lat = s.lat := rfl
@[simp] theorem State.modStream_pwr : (s.modStream i f).pwr = s.pwr := rfl
end

section
variable (s : State) (l : Nat) (f : Loop → Loop)
@[simp] theorem State.modLoop_pending : (s.modLoop l f).pending = s.pending := rfl
@[simp] theorem State.modLoop_outputs : (s.modLoop l f).outputs = s.outputs := rfl
@[simp] theorem State.modLoop_freeCtr : (s.modLoop l f).freeCtr = s.freeCtr := rfl
@[simp] theorem State.modLoop_hubCycle : (s.modLoop l f).hubCycle = s.hubCycle := rfl
@[simp] theorem State.modLoop_dev : (s.modLoop l f).dev = s.dev := rfl
@[simp] theorem State.modLoop_cmdw : (s.modLoop l f).cmdw = s.cmdw := rfl
@[simp] theorem State.modLoop_queues : (s.modLoop l f).queues = s.queues := rfl
@[simp] theorem State.modLoop_inflight : (s.modLoop l f).inflight = s.inflight := rfl
@[simp] theorem State.modLoop_nextUid : (s.modLoop l f).nextUid = s.nextUid := rfl
@[simp] theorem State.modLoop_ctxs : (s.modLoop l f).ctxs = s.ctxs := rfl
@[simp] theorem State.modLoop_clients : (s.modLoop l f).clients = s.clients := rfl
@[simp] theorem State.modLoop_sched : (s.modLoop l f).sched = s.sched := rfl
@[simp] theorem State.modLoop_cores : (s.modLoop l f).cores = s.cores := rfl
@[simp] theorem State.modLoop_floats : (s.modLoop l f).floats = s.floats := rfl
@[simp] theorem State.modLoop_perf : (s.modLoop l f).perf = s.perf := rfl
@[simp] theorem State.modLoop_acc : (s.modLoop l f).acc = s.acc := rfl
@[simp] theorem State.modLoop_cis : (s.modLoop l f).cis = s.cis := rfl
@[simp] theorem State.modLoop_cisPoison : (s.modLoop l f).cisPoison = s.cisPoison := rfl
@[simp] theorem State.modLoop_accPoison : (s.modLoop l f).accPoison = s.accPoison := rfl
@[simp] theorem State.modLoop_wellMem : (s.modLoop l f).wellMem = s.wellMem := rfl
@[simp] theorem State.modLoop_wellPoison : (s.modLoop l f).wellPoison = s.wellPoison := rfl
@[simp] theorem State.modLoop_upsets : (s.modLoop l f).upsets = s.upsets := rfl
@[simp] theorem State.modLoop_wells : (s.modLoop l f).wells = s.wells := rfl
@[simp] theorem State.modLoop_host : (s.modLoop l f).host = s.host := rfl
@[simp] theorem State.modLoop_hostPoison : (s.modLoop l f).hostPoison = s.hostPoison := rfl
@[simp] theorem State.modLoop_valves : (s.modLoop l f).valves = s.valves := rfl
@[simp] theorem State.modLoop_streams : (s.modLoop l f).streams = s.streams := rfl
@[simp] theorem State.modLoop_loops : (s.modLoop l f).loops = tmod s.loops l f := rfl
@[simp] theorem State.modLoop_bindings : (s.modLoop l f).bindings = s.bindings := rfl
@[simp] theorem State.modLoop_rings : (s.modLoop l f).rings = s.rings := rfl
@[simp] theorem State.modLoop_spouts : (s.modLoop l f).spouts = s.spouts := rfl
@[simp] theorem State.modLoop_prov : (s.modLoop l f).prov = s.prov := rfl
@[simp] theorem State.modLoop_wmKeys : (s.modLoop l f).wmKeys = s.wmKeys := rfl
@[simp] theorem State.modLoop_seqs : (s.modLoop l f).seqs = s.seqs := rfl
@[simp] theorem State.modLoop_map : (s.modLoop l f).map = s.map := rfl
@[simp] theorem State.modLoop_images : (s.modLoop l f).images = s.images := rfl
@[simp] theorem State.modLoop_hdm : (s.modLoop l f).hdm = s.hdm := rfl
@[simp] theorem State.modLoop_siphon : (s.modLoop l f).siphon = s.siphon := rfl
@[simp] theorem State.modLoop_lat : (s.modLoop l f).lat = s.lat := rfl
@[simp] theorem State.modLoop_pwr : (s.modLoop l f).pwr = s.pwr := rfl
end

section
variable (s : State) (b : Nat) (f : Binding → Binding)
@[simp] theorem State.modBinding_pending : (s.modBinding b f).pending = s.pending := rfl
@[simp] theorem State.modBinding_outputs : (s.modBinding b f).outputs = s.outputs := rfl
@[simp] theorem State.modBinding_freeCtr : (s.modBinding b f).freeCtr = s.freeCtr := rfl
@[simp] theorem State.modBinding_hubCycle : (s.modBinding b f).hubCycle = s.hubCycle := rfl
@[simp] theorem State.modBinding_dev : (s.modBinding b f).dev = s.dev := rfl
@[simp] theorem State.modBinding_cmdw : (s.modBinding b f).cmdw = s.cmdw := rfl
@[simp] theorem State.modBinding_queues : (s.modBinding b f).queues = s.queues := rfl
@[simp] theorem State.modBinding_inflight : (s.modBinding b f).inflight = s.inflight := rfl
@[simp] theorem State.modBinding_nextUid : (s.modBinding b f).nextUid = s.nextUid := rfl
@[simp] theorem State.modBinding_ctxs : (s.modBinding b f).ctxs = s.ctxs := rfl
@[simp] theorem State.modBinding_clients : (s.modBinding b f).clients = s.clients := rfl
@[simp] theorem State.modBinding_sched : (s.modBinding b f).sched = s.sched := rfl
@[simp] theorem State.modBinding_cores : (s.modBinding b f).cores = s.cores := rfl
@[simp] theorem State.modBinding_floats : (s.modBinding b f).floats = s.floats := rfl
@[simp] theorem State.modBinding_perf : (s.modBinding b f).perf = s.perf := rfl
@[simp] theorem State.modBinding_acc : (s.modBinding b f).acc = s.acc := rfl
@[simp] theorem State.modBinding_cis : (s.modBinding b f).cis = s.cis := rfl
@[simp] theorem State.modBinding_cisPoison : (s.modBinding b f).cisPoison = s.cisPoison := rfl
@[simp] theorem State.modBinding_accPoison : (s.modBinding b f).accPoison = s.accPoison := rfl
@[simp] theorem State.modBinding_wellMem : (s.modBinding b f).wellMem = s.wellMem := rfl
@[simp] theorem State.modBinding_wellPoison : (s.modBinding b f).wellPoison = s.wellPoison := rfl
@[simp] theorem State.modBinding_upsets : (s.modBinding b f).upsets = s.upsets := rfl
@[simp] theorem State.modBinding_wells : (s.modBinding b f).wells = s.wells := rfl
@[simp] theorem State.modBinding_host : (s.modBinding b f).host = s.host := rfl
@[simp] theorem State.modBinding_hostPoison : (s.modBinding b f).hostPoison = s.hostPoison := rfl
@[simp] theorem State.modBinding_valves : (s.modBinding b f).valves = s.valves := rfl
@[simp] theorem State.modBinding_streams : (s.modBinding b f).streams = s.streams := rfl
@[simp] theorem State.modBinding_loops : (s.modBinding b f).loops = s.loops := rfl
@[simp] theorem State.modBinding_bindings : (s.modBinding b f).bindings = tmod s.bindings b f := rfl
@[simp] theorem State.modBinding_rings : (s.modBinding b f).rings = s.rings := rfl
@[simp] theorem State.modBinding_spouts : (s.modBinding b f).spouts = s.spouts := rfl
@[simp] theorem State.modBinding_prov : (s.modBinding b f).prov = s.prov := rfl
@[simp] theorem State.modBinding_wmKeys : (s.modBinding b f).wmKeys = s.wmKeys := rfl
@[simp] theorem State.modBinding_seqs : (s.modBinding b f).seqs = s.seqs := rfl
@[simp] theorem State.modBinding_map : (s.modBinding b f).map = s.map := rfl
@[simp] theorem State.modBinding_images : (s.modBinding b f).images = s.images := rfl
@[simp] theorem State.modBinding_hdm : (s.modBinding b f).hdm = s.hdm := rfl
@[simp] theorem State.modBinding_siphon : (s.modBinding b f).siphon = s.siphon := rfl
@[simp] theorem State.modBinding_lat : (s.modBinding b f).lat = s.lat := rfl
@[simp] theorem State.modBinding_pwr : (s.modBinding b f).pwr = s.pwr := rfl
end

section
variable (s : State) (q : Nat) (f : Seq → Seq)
@[simp] theorem State.modSeq_pending : (s.modSeq q f).pending = s.pending := rfl
@[simp] theorem State.modSeq_outputs : (s.modSeq q f).outputs = s.outputs := rfl
@[simp] theorem State.modSeq_freeCtr : (s.modSeq q f).freeCtr = s.freeCtr := rfl
@[simp] theorem State.modSeq_hubCycle : (s.modSeq q f).hubCycle = s.hubCycle := rfl
@[simp] theorem State.modSeq_dev : (s.modSeq q f).dev = s.dev := rfl
@[simp] theorem State.modSeq_cmdw : (s.modSeq q f).cmdw = s.cmdw := rfl
@[simp] theorem State.modSeq_queues : (s.modSeq q f).queues = s.queues := rfl
@[simp] theorem State.modSeq_inflight : (s.modSeq q f).inflight = s.inflight := rfl
@[simp] theorem State.modSeq_nextUid : (s.modSeq q f).nextUid = s.nextUid := rfl
@[simp] theorem State.modSeq_ctxs : (s.modSeq q f).ctxs = s.ctxs := rfl
@[simp] theorem State.modSeq_clients : (s.modSeq q f).clients = s.clients := rfl
@[simp] theorem State.modSeq_sched : (s.modSeq q f).sched = s.sched := rfl
@[simp] theorem State.modSeq_cores : (s.modSeq q f).cores = s.cores := rfl
@[simp] theorem State.modSeq_floats : (s.modSeq q f).floats = s.floats := rfl
@[simp] theorem State.modSeq_perf : (s.modSeq q f).perf = s.perf := rfl
@[simp] theorem State.modSeq_acc : (s.modSeq q f).acc = s.acc := rfl
@[simp] theorem State.modSeq_cis : (s.modSeq q f).cis = s.cis := rfl
@[simp] theorem State.modSeq_cisPoison : (s.modSeq q f).cisPoison = s.cisPoison := rfl
@[simp] theorem State.modSeq_accPoison : (s.modSeq q f).accPoison = s.accPoison := rfl
@[simp] theorem State.modSeq_wellMem : (s.modSeq q f).wellMem = s.wellMem := rfl
@[simp] theorem State.modSeq_wellPoison : (s.modSeq q f).wellPoison = s.wellPoison := rfl
@[simp] theorem State.modSeq_upsets : (s.modSeq q f).upsets = s.upsets := rfl
@[simp] theorem State.modSeq_wells : (s.modSeq q f).wells = s.wells := rfl
@[simp] theorem State.modSeq_host : (s.modSeq q f).host = s.host := rfl
@[simp] theorem State.modSeq_hostPoison : (s.modSeq q f).hostPoison = s.hostPoison := rfl
@[simp] theorem State.modSeq_valves : (s.modSeq q f).valves = s.valves := rfl
@[simp] theorem State.modSeq_streams : (s.modSeq q f).streams = s.streams := rfl
@[simp] theorem State.modSeq_loops : (s.modSeq q f).loops = s.loops := rfl
@[simp] theorem State.modSeq_bindings : (s.modSeq q f).bindings = s.bindings := rfl
@[simp] theorem State.modSeq_rings : (s.modSeq q f).rings = s.rings := rfl
@[simp] theorem State.modSeq_spouts : (s.modSeq q f).spouts = s.spouts := rfl
@[simp] theorem State.modSeq_prov : (s.modSeq q f).prov = s.prov := rfl
@[simp] theorem State.modSeq_wmKeys : (s.modSeq q f).wmKeys = s.wmKeys := rfl
@[simp] theorem State.modSeq_seqs : (s.modSeq q f).seqs = tmod s.seqs q f := rfl
@[simp] theorem State.modSeq_map : (s.modSeq q f).map = s.map := rfl
@[simp] theorem State.modSeq_images : (s.modSeq q f).images = s.images := rfl
@[simp] theorem State.modSeq_hdm : (s.modSeq q f).hdm = s.hdm := rfl
@[simp] theorem State.modSeq_siphon : (s.modSeq q f).siphon = s.siphon := rfl
@[simp] theorem State.modSeq_lat : (s.modSeq q f).lat = s.lat := rfl
@[simp] theorem State.modSeq_pwr : (s.modSeq q f).pwr = s.pwr := rfl
end

section
variable (s : State) (d : Nat) (f : Well → Well)
@[simp] theorem State.modWell_pending : (s.modWell d f).pending = s.pending := rfl
@[simp] theorem State.modWell_outputs : (s.modWell d f).outputs = s.outputs := rfl
@[simp] theorem State.modWell_freeCtr : (s.modWell d f).freeCtr = s.freeCtr := rfl
@[simp] theorem State.modWell_hubCycle : (s.modWell d f).hubCycle = s.hubCycle := rfl
@[simp] theorem State.modWell_dev : (s.modWell d f).dev = s.dev := rfl
@[simp] theorem State.modWell_cmdw : (s.modWell d f).cmdw = s.cmdw := rfl
@[simp] theorem State.modWell_queues : (s.modWell d f).queues = s.queues := rfl
@[simp] theorem State.modWell_inflight : (s.modWell d f).inflight = s.inflight := rfl
@[simp] theorem State.modWell_nextUid : (s.modWell d f).nextUid = s.nextUid := rfl
@[simp] theorem State.modWell_ctxs : (s.modWell d f).ctxs = s.ctxs := rfl
@[simp] theorem State.modWell_clients : (s.modWell d f).clients = s.clients := rfl
@[simp] theorem State.modWell_sched : (s.modWell d f).sched = s.sched := rfl
@[simp] theorem State.modWell_cores : (s.modWell d f).cores = s.cores := rfl
@[simp] theorem State.modWell_floats : (s.modWell d f).floats = s.floats := rfl
@[simp] theorem State.modWell_perf : (s.modWell d f).perf = s.perf := rfl
@[simp] theorem State.modWell_acc : (s.modWell d f).acc = s.acc := rfl
@[simp] theorem State.modWell_cis : (s.modWell d f).cis = s.cis := rfl
@[simp] theorem State.modWell_cisPoison : (s.modWell d f).cisPoison = s.cisPoison := rfl
@[simp] theorem State.modWell_accPoison : (s.modWell d f).accPoison = s.accPoison := rfl
@[simp] theorem State.modWell_wellMem : (s.modWell d f).wellMem = s.wellMem := rfl
@[simp] theorem State.modWell_wellPoison : (s.modWell d f).wellPoison = s.wellPoison := rfl
@[simp] theorem State.modWell_upsets : (s.modWell d f).upsets = s.upsets := rfl
@[simp] theorem State.modWell_wells : (s.modWell d f).wells = tupd s.wells d {} f := rfl
@[simp] theorem State.modWell_host : (s.modWell d f).host = s.host := rfl
@[simp] theorem State.modWell_hostPoison : (s.modWell d f).hostPoison = s.hostPoison := rfl
@[simp] theorem State.modWell_valves : (s.modWell d f).valves = s.valves := rfl
@[simp] theorem State.modWell_streams : (s.modWell d f).streams = s.streams := rfl
@[simp] theorem State.modWell_loops : (s.modWell d f).loops = s.loops := rfl
@[simp] theorem State.modWell_bindings : (s.modWell d f).bindings = s.bindings := rfl
@[simp] theorem State.modWell_rings : (s.modWell d f).rings = s.rings := rfl
@[simp] theorem State.modWell_spouts : (s.modWell d f).spouts = s.spouts := rfl
@[simp] theorem State.modWell_prov : (s.modWell d f).prov = s.prov := rfl
@[simp] theorem State.modWell_wmKeys : (s.modWell d f).wmKeys = s.wmKeys := rfl
@[simp] theorem State.modWell_seqs : (s.modWell d f).seqs = s.seqs := rfl
@[simp] theorem State.modWell_map : (s.modWell d f).map = s.map := rfl
@[simp] theorem State.modWell_images : (s.modWell d f).images = s.images := rfl
@[simp] theorem State.modWell_hdm : (s.modWell d f).hdm = s.hdm := rfl
@[simp] theorem State.modWell_siphon : (s.modWell d f).siphon = s.siphon := rfl
@[simp] theorem State.modWell_lat : (s.modWell d f).lat = s.lat := rfl
@[simp] theorem State.modWell_pwr : (s.modWell d f).pwr = s.pwr := rfl
end

section
variable (s : State) (u : Nat) (f : Cmd → Cmd)
@[simp] theorem State.modCmd_pending : (s.modCmd u f).pending = s.pending := rfl
@[simp] theorem State.modCmd_outputs : (s.modCmd u f).outputs = s.outputs := rfl
@[simp] theorem State.modCmd_freeCtr : (s.modCmd u f).freeCtr = s.freeCtr := rfl
@[simp] theorem State.modCmd_hubCycle : (s.modCmd u f).hubCycle = s.hubCycle := rfl
@[simp] theorem State.modCmd_dev : (s.modCmd u f).dev = s.dev := rfl
@[simp] theorem State.modCmd_cmdw : (s.modCmd u f).cmdw = s.cmdw := rfl
@[simp] theorem State.modCmd_queues : (s.modCmd u f).queues = s.queues := rfl
@[simp] theorem State.modCmd_inflight : (s.modCmd u f).inflight = s.inflight.map (fun d => if d.uid == u then f d else d) := rfl
@[simp] theorem State.modCmd_nextUid : (s.modCmd u f).nextUid = s.nextUid := rfl
@[simp] theorem State.modCmd_ctxs : (s.modCmd u f).ctxs = s.ctxs := rfl
@[simp] theorem State.modCmd_clients : (s.modCmd u f).clients = s.clients := rfl
@[simp] theorem State.modCmd_sched : (s.modCmd u f).sched = s.sched := rfl
@[simp] theorem State.modCmd_cores : (s.modCmd u f).cores = s.cores := rfl
@[simp] theorem State.modCmd_floats : (s.modCmd u f).floats = s.floats := rfl
@[simp] theorem State.modCmd_perf : (s.modCmd u f).perf = s.perf := rfl
@[simp] theorem State.modCmd_acc : (s.modCmd u f).acc = s.acc := rfl
@[simp] theorem State.modCmd_cis : (s.modCmd u f).cis = s.cis := rfl
@[simp] theorem State.modCmd_cisPoison : (s.modCmd u f).cisPoison = s.cisPoison := rfl
@[simp] theorem State.modCmd_accPoison : (s.modCmd u f).accPoison = s.accPoison := rfl
@[simp] theorem State.modCmd_wellMem : (s.modCmd u f).wellMem = s.wellMem := rfl
@[simp] theorem State.modCmd_wellPoison : (s.modCmd u f).wellPoison = s.wellPoison := rfl
@[simp] theorem State.modCmd_upsets : (s.modCmd u f).upsets = s.upsets := rfl
@[simp] theorem State.modCmd_wells : (s.modCmd u f).wells = s.wells := rfl
@[simp] theorem State.modCmd_host : (s.modCmd u f).host = s.host := rfl
@[simp] theorem State.modCmd_hostPoison : (s.modCmd u f).hostPoison = s.hostPoison := rfl
@[simp] theorem State.modCmd_valves : (s.modCmd u f).valves = s.valves := rfl
@[simp] theorem State.modCmd_streams : (s.modCmd u f).streams = s.streams := rfl
@[simp] theorem State.modCmd_loops : (s.modCmd u f).loops = s.loops := rfl
@[simp] theorem State.modCmd_bindings : (s.modCmd u f).bindings = s.bindings := rfl
@[simp] theorem State.modCmd_rings : (s.modCmd u f).rings = s.rings := rfl
@[simp] theorem State.modCmd_spouts : (s.modCmd u f).spouts = s.spouts := rfl
@[simp] theorem State.modCmd_prov : (s.modCmd u f).prov = s.prov := rfl
@[simp] theorem State.modCmd_wmKeys : (s.modCmd u f).wmKeys = s.wmKeys := rfl
@[simp] theorem State.modCmd_seqs : (s.modCmd u f).seqs = s.seqs := rfl
@[simp] theorem State.modCmd_map : (s.modCmd u f).map = s.map := rfl
@[simp] theorem State.modCmd_images : (s.modCmd u f).images = s.images := rfl
@[simp] theorem State.modCmd_hdm : (s.modCmd u f).hdm = s.hdm := rfl
@[simp] theorem State.modCmd_siphon : (s.modCmd u f).siphon = s.siphon := rfl
@[simp] theorem State.modCmd_lat : (s.modCmd u f).lat = s.lat := rfl
@[simp] theorem State.modCmd_pwr : (s.modCmd u f).pwr = s.pwr := rfl
end

section
variable (s : State) (u : Nat)
@[simp] theorem State.dropCmd_pending : (s.dropCmd u).pending = s.pending := rfl
@[simp] theorem State.dropCmd_outputs : (s.dropCmd u).outputs = s.outputs := rfl
@[simp] theorem State.dropCmd_freeCtr : (s.dropCmd u).freeCtr = s.freeCtr := rfl
@[simp] theorem State.dropCmd_hubCycle : (s.dropCmd u).hubCycle = s.hubCycle := rfl
@[simp] theorem State.dropCmd_dev : (s.dropCmd u).dev = s.dev := rfl
@[simp] theorem State.dropCmd_cmdw : (s.dropCmd u).cmdw = s.cmdw := rfl
@[simp] theorem State.dropCmd_queues : (s.dropCmd u).queues = s.queues := rfl
@[simp] theorem State.dropCmd_inflight : (s.dropCmd u).inflight = s.inflight.filter (fun d => d.uid != u) := rfl
@[simp] theorem State.dropCmd_nextUid : (s.dropCmd u).nextUid = s.nextUid := rfl
@[simp] theorem State.dropCmd_ctxs : (s.dropCmd u).ctxs = s.ctxs := rfl
@[simp] theorem State.dropCmd_clients : (s.dropCmd u).clients = s.clients := rfl
@[simp] theorem State.dropCmd_sched : (s.dropCmd u).sched = s.sched := rfl
@[simp] theorem State.dropCmd_cores : (s.dropCmd u).cores = s.cores := rfl
@[simp] theorem State.dropCmd_floats : (s.dropCmd u).floats = s.floats := rfl
@[simp] theorem State.dropCmd_perf : (s.dropCmd u).perf = s.perf := rfl
@[simp] theorem State.dropCmd_acc : (s.dropCmd u).acc = s.acc := rfl
@[simp] theorem State.dropCmd_cis : (s.dropCmd u).cis = s.cis := rfl
@[simp] theorem State.dropCmd_cisPoison : (s.dropCmd u).cisPoison = s.cisPoison := rfl
@[simp] theorem State.dropCmd_accPoison : (s.dropCmd u).accPoison = s.accPoison := rfl
@[simp] theorem State.dropCmd_wellMem : (s.dropCmd u).wellMem = s.wellMem := rfl
@[simp] theorem State.dropCmd_wellPoison : (s.dropCmd u).wellPoison = s.wellPoison := rfl
@[simp] theorem State.dropCmd_upsets : (s.dropCmd u).upsets = s.upsets := rfl
@[simp] theorem State.dropCmd_wells : (s.dropCmd u).wells = s.wells := rfl
@[simp] theorem State.dropCmd_host : (s.dropCmd u).host = s.host := rfl
@[simp] theorem State.dropCmd_hostPoison : (s.dropCmd u).hostPoison = s.hostPoison := rfl
@[simp] theorem State.dropCmd_valves : (s.dropCmd u).valves = s.valves := rfl
@[simp] theorem State.dropCmd_streams : (s.dropCmd u).streams = s.streams := rfl
@[simp] theorem State.dropCmd_loops : (s.dropCmd u).loops = s.loops := rfl
@[simp] theorem State.dropCmd_bindings : (s.dropCmd u).bindings = s.bindings := rfl
@[simp] theorem State.dropCmd_rings : (s.dropCmd u).rings = s.rings := rfl
@[simp] theorem State.dropCmd_spouts : (s.dropCmd u).spouts = s.spouts := rfl
@[simp] theorem State.dropCmd_prov : (s.dropCmd u).prov = s.prov := rfl
@[simp] theorem State.dropCmd_wmKeys : (s.dropCmd u).wmKeys = s.wmKeys := rfl
@[simp] theorem State.dropCmd_seqs : (s.dropCmd u).seqs = s.seqs := rfl
@[simp] theorem State.dropCmd_map : (s.dropCmd u).map = s.map := rfl
@[simp] theorem State.dropCmd_images : (s.dropCmd u).images = s.images := rfl
@[simp] theorem State.dropCmd_hdm : (s.dropCmd u).hdm = s.hdm := rfl
@[simp] theorem State.dropCmd_siphon : (s.dropCmd u).siphon = s.siphon := rfl
@[simp] theorem State.dropCmd_lat : (s.dropCmd u).lat = s.lat := rfl
@[simp] theorem State.dropCmd_pwr : (s.dropCmd u).pwr = s.pwr := rfl
end

section
variable (s : State) (a : Nat) (bs : List Byte)
@[simp] theorem hostWrite_pending : (hostWrite a bs s).pending = s.pending := rfl
@[simp] theorem hostWrite_outputs : (hostWrite a bs s).outputs = s.outputs := rfl
@[simp] theorem hostWrite_freeCtr : (hostWrite a bs s).freeCtr = s.freeCtr := rfl
@[simp] theorem hostWrite_hubCycle : (hostWrite a bs s).hubCycle = s.hubCycle := rfl
@[simp] theorem hostWrite_dev : (hostWrite a bs s).dev = s.dev := rfl
@[simp] theorem hostWrite_cmdw : (hostWrite a bs s).cmdw = s.cmdw := rfl
@[simp] theorem hostWrite_queues : (hostWrite a bs s).queues = s.queues := rfl
@[simp] theorem hostWrite_inflight : (hostWrite a bs s).inflight = s.inflight := rfl
@[simp] theorem hostWrite_nextUid : (hostWrite a bs s).nextUid = s.nextUid := rfl
@[simp] theorem hostWrite_ctxs : (hostWrite a bs s).ctxs = s.ctxs := rfl
@[simp] theorem hostWrite_clients : (hostWrite a bs s).clients = s.clients := rfl
@[simp] theorem hostWrite_sched : (hostWrite a bs s).sched = s.sched := rfl
@[simp] theorem hostWrite_cores : (hostWrite a bs s).cores = s.cores := rfl
@[simp] theorem hostWrite_floats : (hostWrite a bs s).floats = s.floats := rfl
@[simp] theorem hostWrite_perf : (hostWrite a bs s).perf = s.perf := rfl
@[simp] theorem hostWrite_acc : (hostWrite a bs s).acc = s.acc := rfl
@[simp] theorem hostWrite_cis : (hostWrite a bs s).cis = s.cis := rfl
@[simp] theorem hostWrite_cisPoison : (hostWrite a bs s).cisPoison = s.cisPoison := rfl
@[simp] theorem hostWrite_accPoison : (hostWrite a bs s).accPoison = s.accPoison := rfl
@[simp] theorem hostWrite_wellMem : (hostWrite a bs s).wellMem = s.wellMem := rfl
@[simp] theorem hostWrite_wellPoison : (hostWrite a bs s).wellPoison = s.wellPoison := rfl
@[simp] theorem hostWrite_upsets : (hostWrite a bs s).upsets = s.upsets := rfl
@[simp] theorem hostWrite_wells : (hostWrite a bs s).wells = s.wells := rfl
@[simp] theorem hostWrite_host : (hostWrite a bs s).host = mwrite s.host a bs := rfl
@[simp] theorem hostWrite_hostPoison : (hostWrite a bs s).hostPoison = without s.hostPoison (unitsIn 64 a bs.length) := rfl
@[simp] theorem hostWrite_valves : (hostWrite a bs s).valves = s.valves := rfl
@[simp] theorem hostWrite_streams : (hostWrite a bs s).streams = s.streams := rfl
@[simp] theorem hostWrite_loops : (hostWrite a bs s).loops = s.loops := rfl
@[simp] theorem hostWrite_bindings : (hostWrite a bs s).bindings = s.bindings := rfl
@[simp] theorem hostWrite_rings : (hostWrite a bs s).rings = s.rings := rfl
@[simp] theorem hostWrite_spouts : (hostWrite a bs s).spouts = s.spouts := rfl
@[simp] theorem hostWrite_prov : (hostWrite a bs s).prov = s.prov := rfl
@[simp] theorem hostWrite_wmKeys : (hostWrite a bs s).wmKeys = s.wmKeys := rfl
@[simp] theorem hostWrite_seqs : (hostWrite a bs s).seqs = s.seqs := rfl
@[simp] theorem hostWrite_map : (hostWrite a bs s).map = s.map := rfl
@[simp] theorem hostWrite_images : (hostWrite a bs s).images = s.images := rfl
@[simp] theorem hostWrite_hdm : (hostWrite a bs s).hdm = s.hdm := rfl
@[simp] theorem hostWrite_siphon : (hostWrite a bs s).siphon = s.siphon := rfl
@[simp] theorem hostWrite_lat : (hostWrite a bs s).lat = s.lat := rfl
@[simp] theorem hostWrite_pwr : (hostWrite a bs s).pwr = s.pwr := rfl
end

section
variable (s : State) (a : Nat) (bs : List Byte)
@[simp] theorem cisWrite_pending : (cisWrite a bs s).pending = s.pending := rfl
@[simp] theorem cisWrite_outputs : (cisWrite a bs s).outputs = s.outputs := rfl
@[simp] theorem cisWrite_freeCtr : (cisWrite a bs s).freeCtr = s.freeCtr := rfl
@[simp] theorem cisWrite_hubCycle : (cisWrite a bs s).hubCycle = s.hubCycle := rfl
@[simp] theorem cisWrite_dev : (cisWrite a bs s).dev = s.dev := rfl
@[simp] theorem cisWrite_cmdw : (cisWrite a bs s).cmdw = s.cmdw := rfl
@[simp] theorem cisWrite_queues : (cisWrite a bs s).queues = s.queues := rfl
@[simp] theorem cisWrite_inflight : (cisWrite a bs s).inflight = s.inflight := rfl
@[simp] theorem cisWrite_nextUid : (cisWrite a bs s).nextUid = s.nextUid := rfl
@[simp] theorem cisWrite_ctxs : (cisWrite a bs s).ctxs = s.ctxs := rfl
@[simp] theorem cisWrite_clients : (cisWrite a bs s).clients = s.clients := rfl
@[simp] theorem cisWrite_sched : (cisWrite a bs s).sched = s.sched := rfl
@[simp] theorem cisWrite_cores : (cisWrite a bs s).cores = s.cores := rfl
@[simp] theorem cisWrite_floats : (cisWrite a bs s).floats = s.floats := rfl
@[simp] theorem cisWrite_perf : (cisWrite a bs s).perf = s.perf := rfl
@[simp] theorem cisWrite_acc : (cisWrite a bs s).acc = s.acc := rfl
@[simp] theorem cisWrite_cis : (cisWrite a bs s).cis = mwrite s.cis a bs := rfl
@[simp] theorem cisWrite_accPoison : (cisWrite a bs s).accPoison = s.accPoison := rfl
@[simp] theorem cisWrite_wellMem : (cisWrite a bs s).wellMem = s.wellMem := rfl
@[simp] theorem cisWrite_wellPoison : (cisWrite a bs s).wellPoison = s.wellPoison := rfl
@[simp] theorem cisWrite_wells : (cisWrite a bs s).wells = s.wells := rfl
@[simp] theorem cisWrite_host : (cisWrite a bs s).host = s.host := rfl
@[simp] theorem cisWrite_hostPoison : (cisWrite a bs s).hostPoison = s.hostPoison := rfl
@[simp] theorem cisWrite_valves : (cisWrite a bs s).valves = s.valves := rfl
@[simp] theorem cisWrite_streams : (cisWrite a bs s).streams = s.streams := rfl
@[simp] theorem cisWrite_loops : (cisWrite a bs s).loops = s.loops := rfl
@[simp] theorem cisWrite_bindings : (cisWrite a bs s).bindings = s.bindings := rfl
@[simp] theorem cisWrite_rings : (cisWrite a bs s).rings = s.rings := rfl
@[simp] theorem cisWrite_spouts : (cisWrite a bs s).spouts = s.spouts := rfl
@[simp] theorem cisWrite_prov : (cisWrite a bs s).prov = s.prov := rfl
@[simp] theorem cisWrite_wmKeys : (cisWrite a bs s).wmKeys = s.wmKeys := rfl
@[simp] theorem cisWrite_seqs : (cisWrite a bs s).seqs = s.seqs := rfl
@[simp] theorem cisWrite_map : (cisWrite a bs s).map = s.map := rfl
@[simp] theorem cisWrite_images : (cisWrite a bs s).images = s.images := rfl
@[simp] theorem cisWrite_hdm : (cisWrite a bs s).hdm = s.hdm := rfl
@[simp] theorem cisWrite_siphon : (cisWrite a bs s).siphon = s.siphon := rfl
@[simp] theorem cisWrite_lat : (cisWrite a bs s).lat = s.lat := rfl
@[simp] theorem cisWrite_pwr : (cisWrite a bs s).pwr = s.pwr := rfl
end

section
variable (s : State) (o : Output)
@[simp] theorem emit_pending : (emit o s).pending = s.pending := rfl
@[simp] theorem emit_outputs : (emit o s).outputs = s.outputs ++ [o] := rfl
@[simp] theorem emit_freeCtr : (emit o s).freeCtr = s.freeCtr := rfl
@[simp] theorem emit_hubCycle : (emit o s).hubCycle = s.hubCycle := rfl
@[simp] theorem emit_dev : (emit o s).dev = s.dev := rfl
@[simp] theorem emit_cmdw : (emit o s).cmdw = s.cmdw := rfl
@[simp] theorem emit_queues : (emit o s).queues = s.queues := rfl
@[simp] theorem emit_inflight : (emit o s).inflight = s.inflight := rfl
@[simp] theorem emit_nextUid : (emit o s).nextUid = s.nextUid := rfl
@[simp] theorem emit_ctxs : (emit o s).ctxs = s.ctxs := rfl
@[simp] theorem emit_clients : (emit o s).clients = s.clients := rfl
@[simp] theorem emit_sched : (emit o s).sched = s.sched := rfl
@[simp] theorem emit_cores : (emit o s).cores = s.cores := rfl
@[simp] theorem emit_floats : (emit o s).floats = s.floats := rfl
@[simp] theorem emit_perf : (emit o s).perf = s.perf := rfl
@[simp] theorem emit_acc : (emit o s).acc = s.acc := rfl
@[simp] theorem emit_cis : (emit o s).cis = s.cis := rfl
@[simp] theorem emit_cisPoison : (emit o s).cisPoison = s.cisPoison := rfl
@[simp] theorem emit_accPoison : (emit o s).accPoison = s.accPoison := rfl
@[simp] theorem emit_wellMem : (emit o s).wellMem = s.wellMem := rfl
@[simp] theorem emit_wellPoison : (emit o s).wellPoison = s.wellPoison := rfl
@[simp] theorem emit_upsets : (emit o s).upsets = s.upsets := rfl
@[simp] theorem emit_wells : (emit o s).wells = s.wells := rfl
@[simp] theorem emit_host : (emit o s).host = s.host := rfl
@[simp] theorem emit_hostPoison : (emit o s).hostPoison = s.hostPoison := rfl
@[simp] theorem emit_valves : (emit o s).valves = s.valves := rfl
@[simp] theorem emit_streams : (emit o s).streams = s.streams := rfl
@[simp] theorem emit_loops : (emit o s).loops = s.loops := rfl
@[simp] theorem emit_bindings : (emit o s).bindings = s.bindings := rfl
@[simp] theorem emit_rings : (emit o s).rings = s.rings := rfl
@[simp] theorem emit_spouts : (emit o s).spouts = s.spouts := rfl
@[simp] theorem emit_prov : (emit o s).prov = s.prov := rfl
@[simp] theorem emit_wmKeys : (emit o s).wmKeys = s.wmKeys := rfl
@[simp] theorem emit_seqs : (emit o s).seqs = s.seqs := rfl
@[simp] theorem emit_map : (emit o s).map = s.map := rfl
@[simp] theorem emit_images : (emit o s).images = s.images := rfl
@[simp] theorem emit_hdm : (emit o s).hdm = s.hdm := rfl
@[simp] theorem emit_siphon : (emit o s).siphon = s.siphon := rfl
@[simp] theorem emit_lat : (emit o s).lat = s.lat := rfl
@[simp] theorem emit_pwr : (emit o s).pwr = s.pwr := rfl
end

end Sys2Proof.Machine
end

