-- ==== Sys2Proof/Machine/ConfigSpace.lean ====
section
/-!
DEFINITION. What configuration space shows of the part (R353, R357, Table 16.2): constants, fuses, and the two memory bits
that follow from State. No row of the table reads it; fields that Table 16.2 does not name are left out (assumption 1612).
-/

namespace Sys2Proof.Machine

/-- The fields of Table 16.2 that have a value of their own. -/
structure ConfigSpace where
  deviceId : BitVec 16
  classCode : BitVec 24
  cacheCapable : Bool := true
  ioCapable : Bool := true
  memCapable : Bool := true
  memHwInitMode : Bool := false
  hdmCount : Nat := 1
  writebackInvalidate : Bool := true
  cxlResetCapable : Bool := false
  viralCapable : Bool := true
  /-- bytes -/
  range1Size : Nat := 0x1000000000
  memoryInfoValid : Bool
  memoryActive : Bool
  /-- seconds -/
  memoryActiveTimeout : Nat := 1
  flit256 : Bool := true
  flit68 : Bool := false
  part : BitVec 16 := 0x0960
  orderingA1 : Bool
  lanes : Nat := 64
  cores : Nat := 256
  windowMap : Nat := 1
  deriving DecidableEq, Repr

/-- Configuration requests are answered: boot has brought up the port, or has halted; after a fatal error too (R353, R360,
R381). -/
def configServed (s : State) : Bool := s.dev.mode != .off && s.dev.mode != .reset

/-- The well of a die has trained. -/
def wellTrained (s : State) (d : Nat) : Bool := (s.well d).state == 1

/-- Configuration space as it reads now (R357). -/
def configSpace (s : State) : ConfigSpace :=
  { deviceId := if s.dev.fuses.orderingA1 then 0x0961 else 0x0960
    classCode := 0x120000
    memoryInfoValid := (dieList s.dev.dies).any (wellTrained s)
    memoryActive := s.dev.dies != 0 && (dieList s.dev.dies).all (wellTrained s)
    orderingA1 := s.dev.fuses.orderingA1 }

end Sys2Proof.Machine
end

