-- ==== Sys2Proof/WellFormed.lean ====
section
/-!
DEFINITION. Which command terms name things that the part has: cores, dies, wells, ports, rails, domains, queues and
rings within the numbers of spec/01 and the windows of spec/16. The meanings do not need it: a command on a thing
that is not there changes nothing.
-/

namespace Sys2Proof

def isCore (g : Nat) : Bool := g < 256
def isDie (d : Nat) : Bool := d < 8
def isWell (w : Nat) : Bool := w < 8
def isPort (p : Nat) : Bool := p < 4
def isRail (r : Nat) : Bool := r < 9
def isDomain (n : Nat) : Bool := n < 47
def isQueue (q : Nat) : Bool := q < 1024
def isCtx (c : Nat) : Bool := c < 4096
def isVector (v : Nat) : Bool := v < 1071
/-- A 256-byte flit (R146). -/
def isFlit (b : Block) : Bool := b.length == 256
/-- An access of the register windows: 1 to 8 bytes. -/
def isAccess (n : Nat) : Bool := 0 < n && n ≤ 8

def linkOk : LinkRef → Bool
  | .spoke d => isDie d
  | .ring d => isDie d

def Instr.wf : Instr → Bool
  | .heldLineSnoop _ q _ _ => isQueue q
  | .packetFetch q => isQueue q
  | .dispatch g => isCore g
  | .swapOut g c _ idle _ => isCore g && isCtx c && idle.length == 4
  | .swapIn g c _ => isCore g && isCtx c
  | .mengineSlice g _ => isCore g
  | .narrow g => isCore g
  | .recStep g => isCore g
  | .convStep g _ => isCore g
  | .argmax g => isCore g
  | .gumbelArgmax g => isCore g
  | .noise g => isCore g
  | .cropStep g => isCore g
  | .attentionBlock g => isCore g
  | .floatWait g _ => isCore g
  | .floatWaitTimeout g _ => isCore g
  | .siphonStep g => isCore g
  | .pumpDescriptor g => isCore g
  | .remoteWriteCommit g _ _ => isCore g
  | .remoteRead g _ => isCore g
  | .portTrained p far => isPort p && (match far with | some d => d < 16384 | none => true)
  | .flitReceive p b => isPort p && isFlit b
  | .replayTimeout p => isPort p
  | .portRetrain p => isPort p
  | .retrainDone p failed => isPort p && failed ≤ 2
  | .portFailed p failed => isPort p && 1 ≤ failed && failed ≤ 3
  | .domainStepDown n => isDomain n
  | .domainWake n => isDomain n
  | .pllLock n => isDomain n
  | .hintExpiry n => isDomain n
  | .weirGrant r _ => isRail r
  | .overCurrent d => isDie d
  | .overCurrentRestore d => isDie d
  | .sensorRead ts => ts.length == 9
  | .thermalStepDown d => isDie d
  | .thermalStepUp d => isDie d
  | .voltageSettled d => isDie d
  | .avsNoAck d => isDie d
  | .calibrationDone d m => isDie d && m.length == 14
  | .patrolScrub w _ => isWell w
  | .hdmPark i _ => i < 8
  | .hostWriteFail _ q => isQueue q
  | .registerWrite _ n _ => isAccess n
  | .accessErrRead _ n => isAccess n
  | .clearAll (some g) => isCore g
  | .clearAll none => true
  | .msixUnmask v => isVector v
  | .internalLinkRetrain l => linkOk l
  | .internalLinkReplay l => linkOk l
  | .internalLinkRetrainDone l _ => linkOk l
  | .dieQuarantine d => isDie d
  | .vddCLow d => isDie d
  | .wellSupplyFault ds => ds.all isDie
  | .wellPowerDown d => isDie d
  | .ceilPoint d _ => isDie d
  | .ctxCreate _ | .ctxDestroy _ | .ctxSave _ _ | .ctxRestore _ | .ctxPin _ | .queueOpen _ | .queueClose _ => true
  | .queueClosed _ | .copy _ _ | .fill _ _ | .siphonPut _ | .reside _ _ _ | .unreside _ | .run _ _ => true
  | .streamOpen _ | .streamFeed _ | .streamMark _ | .streamClose _ | .streamLoop _ _ | .kvSeqOpen _ => true
  | .kvSeqClose _ | .kvPolicySet _ | .poolGrant _ | .kvPolicyPin _ | .kvPolicyUnpin _ | .rngKey _ => true
  | .rngStateGet _ | .valveSet _ | .valveSignal _ | .valveWait _ | .valveWaitPass _ | .valveWaitTimeout _ => true
  | .fence _ | .outBind _ | .outUnbind _ | .loadKey _ | .wmConfigStream _ | .wmDetect _ _ | .provConfig _ => true
  | .attest _ | .kill _ | .scrub _ _ | .powerHint _ | .statsSnapshot _ | .vendorDebug _ | .linePoll _ => true
  | .kvSecureRetry _ | .kvWaitTimeout _ | .sharePreemption _ _ | .saturationPass _ _ | .widenRerun _ => true
  | .planCommit _ _ | .siphonArrival | .rngParityFail _ _ _ | .pacerTick _ | .blockGate _ _ => true
  | .streamStep _ | .blockCommit _ _ | .dueTick _ | .chunkRelease _ | .consLineSnoop _ _ _ => true
  | .gapRecordWrite _ _ | .ringWriteFail _ | .intervalTick | .intervalBuild | .intervalFull => true
  | .manifestSign | .manifestWrite | .withheldGapWrite _ | .flashProgramConfirm _ | .nextTreeReady => true
  | .subtreeRebuild | .write | .valve | .ready | .go | .done | .commit | .abort | .refuse | .gap | .mass => true
  | .mcastReplicate | .holdExpiry | .groupWaitTimeout _ | .tdpStepDown _ | .tdpStepUp _ | .slowclkLoss => true
  | .slowclkReturn | .refclkLoss | .pageRetire _ | .hdmCommit _ _ _ | .hostMemRead _ _ | .hostMemWrite _ _ => true
  | .debugRead _ _ | .debugWrite _ _ | .hotReset _ | .portEn _ | .aqEnable _ | .clientClear _ _ | .clearPeak => true
  | .assign _ | .chainBaseTimeout | .chainRepeat | .devId | .status | .deviceNum | .setBase _ | .chainStart => true
  | .events | .eventClear _ | .alertMask _ | .fatalCause | .temp | .power | .tdpSet _ | .peakSet _ | .measure => true
  | .smbusArp _ | .alertResponse | .perstAssert _ | .perstRelease _ | .bootReady | .minSvnCommit => true
  | .watchdogExpiry | .fatalError | .vddHLow | .powerUp | .powerLoss | .cxlLinkRetrain | .cxlLinkL1 _ => true

end Sys2Proof
end

