-- ==== Sys2Proof/Tests/Slice0.lean ====
section
/-!
SUPPORT. Tests: ill-formed terms that WellFormed refuses, small steps with the results that the spec gives, and a witness
for the hypotheses of every statement.
-/

set_option maxRecDepth 20000

namespace Sys2Proof.Tests
open Sys2Proof Sys2Proof.Machine

-- ## Well-formed terms

/-- Terms just beyond a limit. -/
def tooFar1 : List Instr :=
  [ .heldLineSnoop [] 1024 .sqTail 0, .packetFetch 1024, .dispatch 256, .swapOut 256 0 0 [0, 0, 0, 0] 0
  , .swapOut 0 4096 0 [0, 0, 0, 0] 0, .swapOut 0 0 0 [0, 0, 0] 0, .swapIn 256 0 0, .swapIn 0 4096 0, .mengineSlice 256 {}
  , .narrow 256, .recStep 256, .argmax 256 ]

/-- Terms just beyond a limit. -/
def tooFar2 : List Instr :=
  [ .convStep 256 {}, .gumbelArgmax 256, .noise 256, .cropStep 256, .floatWait 256 0, .floatWaitTimeout 256 0, .siphonStep 256
  , .pumpDescriptor 256 ]

/-- Terms just beyond a limit. -/
def tooFar3 : List Instr :=
  [ .attentionBlock 256, .remoteWriteCommit 256 {} none, .remoteRead 256 {}, .portTrained 4 none
  , .portTrained 0 (some 16384), .flitReceive 4 (List.replicate 256 0), .flitReceive 0 (List.replicate 255 0)
  , .replayTimeout 4, .portRetrain 4, .retrainDone 4 0, .retrainDone 0 3, .portFailed 4 1, .portFailed 0 0, .portFailed 0 4
  , .domainStepDown 47, .domainWake 47, .pllLock 47, .hintExpiry 47, .weirGrant 9 0 ]

/-- Terms just beyond a limit. -/
def tooFar4 : List Instr :=
  [ .overCurrent 8, .overCurrentRestore 8, .sensorRead (List.replicate 8 0), .thermalStepDown 8, .thermalStepUp 8
  , .voltageSettled 8, .avsNoAck 8, .calibrationDone 8 (List.replicate 14 0), .calibrationDone 0 (List.replicate 13 0)
  , .patrolScrub 8 0, .hdmPark 8 true, .hostWriteFail .other 1024, .registerWrite 0 0 0, .registerWrite 0 9 0
  , .accessErrRead 0 0, .clearAll (some 256), .msixUnmask 1071, .internalLinkRetrain (.ring 8) ]

/-- Terms just beyond a limit. -/
def tooFar5 : List Instr :=
  [ .internalLinkReplay (.spoke 8), .internalLinkRetrainDone (.spoke 8) true, .dieQuarantine 8, .vddCLow 8
  , .wellSupplyFault [0, 8], .wellPowerDown 8, .ceilPoint 8 0 ]

/-- The checks refuse every one of them. -/
theorem test_wf_refuses : [tooFar1, tooFar2, tooFar3, tooFar4, tooFar5].all (fun l => l.all (fun c => !c.wf)) = true := rfl

/-- They accept the last thing of each kind. -/
theorem test_wf_accepts : List.all [Instr.packetFetch 1023, .dispatch 255, .swapOut 255 4095 0 [0, 0, 0, 0] 0, .portTrained 3 (some 16383),
    .domainWake 46, .weirGrant 8 0, .overCurrent 7, .registerWrite 0 8 0, .msixUnmask 1070, .wellSupplyFault [0, 7],
    .siphonStep 255, .retrainDone 3 2, .portFailed 3 3, .flitReceive 3 (List.replicate 256 0)] Instr.wf = true := rfl

-- ## States

/-- A part in service with all its dies. -/
def srv : State := { dev := { mode := .serving, dies := 0xFF } }

/-- Little-endian fields, one after the other. -/
def fields (fs : List (Nat × Nat)) : Block := fs.flatMap (fun f => leBytes f.1 f.2)

/-- Context 5. -/
def ctx5 : Ctx := {}

/-- A fetched command of context 5 (or of none, for a device-scope opcode), with number 7. -/
def cmdOf (op : Nat) (params : Block) : Cmd :=
  { uid := 7, queue := 1, opcode := op, ctx := if isDevice op then 0 else 5, seq := 9, params := params }

/-- A part in service with that command in flight. -/
def withCmd (c : Cmd) : State := { srv with inflight := [c], ctxs := [(5, ctx5)], queues := [(1, { opened := true })] }

/-- What a command leaves; commands always answer a next state here. -/
def after (c : Instr) (s : State) : State :=
  match exec c s with
  | .next t => t
  | .fault _ => s
  | .refused _ => s

-- ## SMBus, ALERT# and the management chain

/-- srv in another mode. -/
def inMode (m : Mode) : State := { srv with dev := { srv.dev with mode := m } }

/-- A frame of the given low 32 bits, with its CRC-8. -/
def frameOf (v : Nat) : BitVec 40 := BitVec.ofNat 40 (v + crc8 (leBytes 4 v) * 2 ^ 32)

/-- A member of the chain, and one that has latched number 0x201. -/
def member : State := { dev := { mode := .booting, head := false } }
def numbered : State := { dev := { mode := .booting, head := false, numValid := true, number := 0x201, index := 254 } }

/-- The worked example after R370: a head numbered 0x200 sends ASSIGN(0x201, 1). -/
theorem test_assign_frame : assignFrame 0x201 1 = 0x6600042011#40 := by decide

theorem hyp_smbus_reads : (State.reset.dev.mode ≠ .off ∧ State.reset.dev.mode = .reset) ∧ (inMode .fatal).dev.mode = .fatal ∧
    srv.dev.mode ≠ .off ∧ srv.dev.mode ≠ .reset ∧ srv.dev.mode ≠ .fatal ∧ srv.dev.pyornHash.length = 32 := by decide

theorem hyp_smbus_writes : (srv.dev.mode ≠ .off ∧ srv.dev.mode ≠ .reset ∧ srv.dev.mode ≠ .fatal ∧ srv.dev.mode ≠ .halted) ∧
    (300 ≤ (0x12C#16).toNat ∧ (0x12C#16).toNat ≤ 1500) ∧ (300 ≤ (0x5DC#16).toNat ∧ (0x5DC#16).toNat ≤ 1500) ∧
    srv.pwr.peakLock = false ∧
    (let t : State := { srv with pwr := { peakLock := true } }; t.pwr.peakLock = true ∧ t.dev.mode = .serving) := by decide

/-- CHAIN, bit 9, is enabled for ALERT# at reset. -/
theorem hyp_alert : (let t : State := { srv with dev := { srv.dev with events := 0x200 } };
      t.dev.mode ≠ .off ∧ t.dev.events &&& t.dev.alertEn ≠ 0) ∧
    (srv.dev.events &&& srv.dev.alertEn = 0 ∧ srv.dev.mode ≠ .fatal) := by decide

theorem hyp_chain_fields : 2 ^ 14 - 1 < 2 ^ 14 ∧ 255 < 2 ^ 8 ∧ 39 < 40 ∧ frameOk (assignFrame (2 ^ 14 - 1) 255) = true ∧
    frameOk (assignFrame (2 ^ 14 - 1) 255 ^^^ BitVec.ofNat 40 (2 ^ 39)) = false := by decide

theorem hyp_head_numbers : (let t : State := { dev := { mode := .booting } };
      t.dev.mode = .booting ∧ t.lat.portEn = 0 ∧ t.dev.head = true ∧ t.dev.numValid = false) ∧
    (srv.dev.mode = .serving ∧ srv.lat.portEn = 0 ∧ srv.dev.head = true ∧ srv.dev.numValid = false) ∧
    ((0x3FFE#16).extractLsb' 0 14).toNat < 0x3FFF ∧ ¬ ((0x3FFF#16).extractLsb' 0 14).toNat < 0x3FFF ∧
    (member.dev.mode ≠ .off ∧ member.dev.head = false) ∧ numbered.dev.numValid = true := by decide

theorem hyp_chain_frames : (member.dev.mode = .booting ∧ member.lat.portEn = 0) ∧
    frameOk (assignFrame 0x201 1 ^^^ 1) = false ∧ (frameOk (assignFrame 0x201 1) = true ∧ srv.dev.head = true) ∧
    (frameOk (frameOf 2) = true ∧ member.dev.head = false ∧ (frameOf 2).extractLsb' 0 4 ≠ 1#4) ∧
    (frameOk (assignFrame 0x201 254) = true ∧ (assignFrame 0x201 254).extractLsb' 0 4 = 1#4 ∧ member.dev.numValid = false) ∧
    ((assignFrame 0x201 254).extractLsb' 18 8).toNat < 255 ∧ ¬ ((assignFrame 0x201 255).extractLsb' 18 8).toNat < 255 ∧
    (numbered.dev.numValid = true ∧ numbered.dev.number = (assignFrame 0x201 3).extractLsb' 4 14 ∧
      numbered.dev.number ≠ (assignFrame 0x202 3).extractLsb' 4 14) ∧
    numbered.dev.index.toNat < 255 ∧ numbered.dev.number.toNat < 0x3FFF := by decide

/-- R369: a second ASSIGN of another number is a conflict, and the first number stands. -/
theorem test_conflict : (after (.assign (assignFrame 0x202 3)) numbered).dev.conflict = true ∧
    (after (.assign (assignFrame 0x202 3)) numbered).dev.number = 0x201 := by decide

-- ## Register windows

theorem hyp_wrong_access : srv.dev.mode = .serving ∧ windowOf 0x12 = some (0, 0x12) ∧ windowOf 0x10 = some (0, 0x10) ∧
    (regAt srv 0 0x10).map Prod.fst = some 4 ∧
    (0 < 2 ∧ 0x12 < 0x10 + 4 ∧ 0x10 < 0x12 + 2 ∧ (0x12, 2) ≠ (0x10, 4)) ∧
    (0 < 8 ∧ 0x10 < 0x10 + 4 ∧ 0x10 < 0x10 + 8 ∧ (0x10, 8) ≠ (0x10, 4)) := by decide

theorem hyp_reads : srv.dev.mode = .serving ∧ windowOf 0x10 = some (0, 0x10) ∧ (regAt srv 0 0x10).map Prod.fst = some 4 ∧
    (0 < 8 ∧ windowOf 0x60000 = none ∧ windowOf 0xFFFFF = none) ∧
    (0x400000 ≤ 0xFFFFF8 ∧ 0xFFFFF8 < 0x1000000 ∧ 0xFFFFF8 % 8 = 0) ∧
    (0 < 4 ∧ windowOf 0x10000 = some (1, 0) ∧ 1 ≤ 1 ∧ (inMode .fatal).dev.mode = .fatal ∧
      (inMode .halted).dev.mode = .halted) := by decide

theorem hyp_register_writes : srv.dev.mode = .serving ∧ srv.lat.topo.getLsbD 31 = false ∧
    (let t : State := { srv with lat := { topo := 0x80000000 } }; t.dev.mode = .serving ∧ t.lat.topo.getLsbD 31 = true) ∧
    7 < 8 ∧ 255 < 256 ∧ 63 < 64 := by decide

/-- R8: half of EVENT_STATUS. The write has no effect; WIN_ERR and ACCESS_ERR say so. -/
theorem test_half_write : (after (.registerWrite 0x12 2 0xFFFF) (inMode .serving)).dev.winErr = 1 ∧
    (after (.registerWrite 0x12 2 0xFFFF) srv).dev.events.getLsbD evAccess = true := by decide

theorem hyp_clearing : srv.dev.mode = .serving := rfl

theorem hyp_aq : State.reset.cmdw.aqEnable = false ∧
    (let t : State := { cmdw := { aqEnable := true } }; t.cmdw.aqEnable = true) := by decide

theorem hyp_unmasking : srv.dev.mode = .serving ∧ 1070 < 1071 ∧ 1070 ∉ srv.dev.unmasked ∧
    (let t : State := { srv with dev := { srv.dev with unmasked := [0] } }; 0 ∈ t.dev.unmasked) := by decide

theorem hyp_port_en : (let t : State := { srv with dev := { srv.dev with numValid := true }, lat := { portEn := 1 } };
      t.dev.mode = .serving ∧ t.lat.portEn &&& ~~~(9#4) = 0 ∧ t.dev.numValid = true ∧ (9#4).getLsbD 3 = true ∧
      t.lat.portEn.getLsbD 3 = false ∧ (t.port 3).state = 0 ∧ (9#4).getLsbD 0 = t.lat.portEn.getLsbD 0) ∧
    srv.dev.numValid = false := by decide

-- ## Wells, the HDM decoder and the debug aperture

/-- srv with well 0 in service at the last granule of a pass, and with wrong symbols there. -/
def patrolled (u : Upsets) : State := { srv with wells := [(0, { state := 1, patrol := 2 ^ 29 - 1 })], upsets := u }

theorem hyp_patrol : ((patrolled {}).dev.mode = .serving ∧ (patrolled {}).dieIn 0 = true ∧ ((patrolled {}).well 0).state = 1 ∧
      ((patrolled {}).well 0).patrol = 2 ^ 29 - 1 ∧ 2 ^ 29 - 1 < 2 ^ 29) ∧
    (2 ^ 29 - 1 ∉ (patrolled {}).upsets.wellSingle ∧ 2 ^ 29 - 1 ∉ (patrolled {}).upsets.wellDouble) ∧
    (let t := patrolled { wellSingle := [2 ^ 29 - 1] };
      withdrawnAt t ((2 ^ 29 - 1) * 64) = false ∧ 2 ^ 29 - 1 ∈ t.upsets.wellSingle ∧ 2 ^ 29 - 1 ∉ t.upsets.wellDouble) ∧
    (let t := patrolled { wellDouble := [2 ^ 29 - 1] };
      withdrawnAt t ((2 ^ 29 - 1) * 64) = false ∧ 2 ^ 29 - 1 ∈ t.upsets.wellDouble) := by decide

theorem test_patrol_wraps : ((after (.patrolScrub 0 (2 ^ 29 - 1)) (patrolled {})).well 0).patrol = 0 ∧
    ((after (.patrolScrub 0 (2 ^ 29 - 1)) (patrolled {})).well 0).patrolPasses = 1 := by decide

/-- srv whose well 0 has met an uncorrectable granule in page 3. -/
def dueIn (spares : Nat) : State := { srv with wells := [(0, { state := 1, spares := spares, uePages := [3] })] }

theorem hyp_page_retirement : ((dueIn 1).dev.mode = .serving ∧ (dueIn 1).dieIn (3 / 2 ^ 19) = true ∧
      retireDue ((dueIn 1).well 0) 3 = true ∧ ((dueIn 1).well 0).spares ≠ 0) ∧
    ((dueIn 0).dieIn (3 / 2 ^ 19) = true ∧ retireDue ((dueIn 0).well 0) 3 = true ∧ inMapRegion (3 * 65536) = false) := by decide

/-- One range of 256 MiB at the bottom of well 0: ENABLE, SIZE 1. -/
def ranged (v : W64) : State := { srv with hdm := { ranges := [(0, v)] } }
def windowed (v : W64) : State := after (.hdmCommit 0 (2 ^ 28) true) (ranged v)

theorem hyp_hdm : ((windowed 0x10000001).dev.mode = .serving ∧ (windowed 0x10000001).hdm.committed = true ∧
      (windowed 0x10000001).hdm.locked = true) ∧ (ranged 1).hdm.committed = false ∧ (2 ^ 28 + 1) % 2 ^ 28 ≠ 0 ∧
    ¬ (2 ^ 36 < 2 ^ 36) ∧ 2 ^ 36 < 2 ^ 36 + 2 ^ 28 ∧ (2 ^ 36) % 2 ^ 28 = 0 ∧ 7 < 8 ∧
    ((hdmReg (ranged 0x10000001) 0).getLsbD 0 = true ∧ (windowed 0x10000001).hdm.window = [(0, 0, 2 ^ 28)]) ∧
    ((hdmReg (ranged 1) 0).getLsbD 0 = true ∧ (windowed 1).hdm.window = []) ∧
    (hdmReg (ranged 0x10000001) 1).getLsbD 0 = false := by decide

/-- srv with the window open, and with the range parked. -/
def open4k : State := windowed 0x10000001
def parked : State := after (.hdmPark 0 true) open4k

theorem hyp_host_memory : (open4k.dev.mode = .serving ∧ 0 < 64 ∧ 64 % 64 + 64 ≤ 64 ∧ (List.replicate 64 (7 : Byte)).length = 64) ∧
    (hdmHit open4k (2 ^ 28) = false ∧ hdmHit open4k (2 ^ 28 - 1) = true) ∧
    (hdmHit parked 64 = true ∧ hdmTarget parked (64 - parked.hdm.decBase) = none) ∧
    (hdmTarget open4k (64 - open4k.hdm.decBase) = some 64 ∧ 64 / 64 ∉ open4k.upsets.wellSingle ∧
      64 / 64 ∉ open4k.upsets.wellDouble ∧ wellPoisoned open4k 64 64 = false ∧ withdrawnAt open4k 64 = false) ∧
    (let t : State := { open4k with wells := [(0, { state := 1, withdrawn := [0] })] };
      hdmHit t 64 = true ∧ hdmTarget t (64 - t.hdm.decBase) = some 64 ∧ withdrawnAt t 64 = true) ∧
    MemoriesOk open4k ∧ (60 + 4) % 64 = 0 := by
  refine ⟨?_, ?_, ?_, ?_, ?_, ⟨?_, ?_, ?_⟩, ?_⟩ <;> decide

theorem hyp_host_memory_split : (∃ r, Answers (.hostMemRead 60 4) open4k r ∧ ∃ t, Answers (.hostMemRead (60 + 4) 4) r t) ∧
    ∃ r, Answers (.hostMemWrite 60 [1, 2, 3, 4]) open4k r ∧ ∃ t, Answers (.hostMemWrite (60 + 4) [5]) r t :=
  ⟨⟨_, rfl, _, rfl⟩, _, rfl, _, rfl⟩

/-- srv with a region of one granule on core 0. -/
def region0 : State := { srv with cores := [(0, { regions := [{ base := 0, size := 1, valid := true }] })] }

theorem hyp_debug : (region0.dev.mode = .serving ∧ 0 < 1 ∧ (2 ^ 13 - 1) % 64 + 1 ≤ 64) ∧
    (let t := inMode .serving; t.dieIn (debugDie (.cis 0)) = true) ∧
    (let t : State := { srv with dev := { srv.dev with dies := 0 } };
      debugTarget t (2 ^ 31) = some (.well 0) ∧ t.dieIn (debugDie (.well 0)) = false) ∧
    (2 ^ 13 - 1 < 2 ^ 31 ∧ region0.dieIn (dieOfCore (csCore (2 ^ 13 - 1))) = true ∧ csAllowed region0 (2 ^ 13 - 1) 1 = true ∧
      (∀ w ∈ unitsOf 32 (2 ^ 13 - 1) 1, w ∉ region0.upsets.cisSingle ∧ w ∉ region0.upsets.cisDouble) ∧
      cisPoisoned region0 (2 ^ 13 - 1) 1 = false) ∧ csAllowed region0 (2 ^ 13) 1 = false ∧
    (2 ^ 31 ≤ 2 ^ 32 - 64 ∧ 2 ^ 32 - 64 < 2 ^ 32 ∧ region0.dieIn (wellOf (2 ^ 31 - 64)) = true ∧
      wellPoisoned region0 (2 ^ 31 - 64) 64 = false ∧ inMapRegion (2 ^ 31 - 64) = false ∧
      withdrawnAt region0 (2 ^ 31 - 64) = false) ∧
    inMapRegion (15 * 2 ^ 31 + (2 ^ 32 - 64 - 2 ^ 31)) = true := by decide

theorem hyp_refused_writes : (let t : State := { srv with queues := [(1, { opened := true })] };
      t.dev.mode = .serving ∧ (t.queue? 1).map (fun x => x.opened) = some true) ∧ srv.queue? 1 = none := by decide

-- ## Power-up, PERST# and boot

theorem hyp_perst : 999 < 1000 ∧ State.reset.dev.mode ≠ .off ∧ (inMode .off).dev.mode = .off ∧
    (srv.dev.mode ≠ .off ∧ srv.dev.mode ≠ .reset) ∧ (decide (99999 < 100000) = true ∧ decide (100000 < 100000) = false) := by
  decide

/-- A slot's 256-byte header: PYRN, version 1, device 0x960, 256 signed bytes, MIN_SVN commit, LMS levels 2. -/
def header : Block :=
  fields [(4, 0x4E525950), (2, 1), (2, 0x960), (4, 256), (1, 1), (1, 1), (1, 2), (1, 0)] ++ List.replicate 240 0
def goodSlot : SlotImage := { header := header, signed := header, sigOk := true }
/-- A part under PERST# whose fuses hold the hash of that slot's key. -/
def fused : State := { dev := { fuses := { fwKeyHash := sha256 (List.replicate 56 0) } } }

set_option maxHeartbeats 1000000 in
theorem hyp_boot_good : slotOk fused.dev.fuses goodSlot = true := by decide +kernel

theorem hyp_boot : (fused.dev.mode = .reset ∧ fused.dev.strapsOpen = false ∧ fused.ctxs = [] ∧ fused.inflight = [] ∧
      fused.queues = [] ∧ fused.dev.base = none) ∧ slotOk fused.dev.fuses {} = false ∧
    (slotOrder 2 { slotA := {} }).length = 1 ∧
    (slotOrder ((2#16).extractLsb' 2 2) { slotB := goodSlot })[1]? = some (true, goodSlot) := by decide

theorem hyp_ready : (inMode .booting).dev.mode = .booting ∧ srv.dev.mode ≠ .booting ∧
    (let t : State := { srv with dev := { srv.dev with commitSvn := true, pyornSvn := 1 } };
      t.dev.mode = .serving ∧ t.dev.commitSvn = true ∧ t.dev.fuses.minSvn < t.dev.pyornSvn) ∧
    srv.dev.commitSvn = false := by decide

theorem hyp_power_loss : (inMode .off).dev.mode = .off ∧ srv.dev.mode ≠ .off := by decide

-- ## Fatal errors, recoveries and internal links

theorem hyp_fatal : srv.dev.mode = .serving ∧ (inMode .booting).dev.mode = .booting ∧
    ((inMode .fatal).dev.mode ≠ .serving ∧ (inMode .fatal).dev.mode ≠ .booting) := by decide

/-- R385: the cause is latched, and nothing is in flight any more. -/
theorem test_fatal : (after .watchdogExpiry (withCmd (cmdOf 0x10 []))).dev.fatalCause = 1 ∧
    (after .watchdogExpiry (withCmd (cmdOf 0x10 []))).inflight = [] := by decide

theorem hyp_quarantine : srv.dev.mode = .serving ∧ srv.dieIn 7 = true ∧
    (∀ e < 8, ∀ k, stateOnDie srv e k = false) ∧ (∀ e < 8, ∀ c ∈ srv.inflight, involves srv e c = false) :=
  ⟨rfl, rfl, fun _ _ _ => rfl, fun _ _ _ h => by cases h⟩

theorem hyp_well_supply : srv.dieIn 8 = false := rfl

/-- A ring link whose retraining has failed n times. -/
def retraining (n : Nat) : State := { srv with dev := { srv.dev with links := [(15, n)] } }

theorem hyp_links : (srv.dev.mode = .serving ∧ linkIn srv (.ring 7) = true ∧ linkIn srv (.spoke 0) = true) ∧
    (tget? srv.dev.links (linkKey (.ring 7)) = none ∧ ∀ c ∈ srv.inflight, onLink srv (.ring 7) c = false) ∧
    (tget? (retraining 1).dev.links (linkKey (.ring 7)) = some 1 ∧ 1 + 1 < 3) ∧
    (tget? (retraining 2).dev.links (linkKey (.ring 7)) = some 2 ∧ 2 ≤ 2) ∧ srv.pwr.linkL1 = false ∧
    (let t : State := { srv with pwr := { linkL1 := true } }; t.pwr.linkL1 = true ∧ t.dev.mode = .serving) := by decide

-- ## Power

/-- srv with domain n in a state, and a wake under way. -/
def domIn (n st wk : Nat) : State := { srv with pwr := { doms := [(n, { state := st, waking := wk, hint := some 4 })], idleDryMs := 1 } }

theorem hyp_step_down : srv.dev.mode = .serving ∧
    (let s := domIn 0 3 0; decide (0 < 40) && s.dieIn (dieOfDomain 0) && (s.dom 0).waking == 0 && decide ((s.dom 0).state < 4) &&
      !domainBusy s 0 && mayStepDown s 0) = true ∧ (∀ g ∈ coresOf 0, slotsOn (domIn 0 3 0) g = []) ∧
    ((domIn 0 3 0).dom 0).state = 3 ∧ loopClamp (domIn 0 3 0) 0 = false ∧
    (let s := domIn 39 0 0; decide (39 < 40) && s.dieIn (dieOfDomain 39) && (s.dom 39).waking == 0 &&
      decide ((s.dom 39).state < 4) && !domainBusy s 39 && mayStepDown s 39) = true ∧
    (let s := srv; decide (46 < 40) && s.dieIn (dieOfDomain 46)) = false := by decide

theorem hyp_wakes : srv.dev.mode = .serving ∧ 39 < 40 ∧ srv.dieIn (dieOfDomain 39) = true ∧ wakeWanted (domIn 39 4 0) 39 = false ∧
    (let s : State := { srv with pwr := { doms := [(39, { state := 4, hint := some 0 })] } }; wakeWanted s 39 = true) ∧
    ((domIn 39 4 1).dom 39).waking = 1 ∧ 32 ≤ 39 ∧ ((domIn 39 1 2).dom 39).waking = 2 ∧
    (let s : State := { srv with pwr := { doms := [(0, { state := 4, waking := 1 }), (32, { state := 1 })] } };
      (s.dom (uncoreOf 0)).state ≤ 1 ∧ (s.dom 0).waking = 1) := by decide

/-- srv with a stage charge of one core waiting on the rail of die 0. -/
def asking (cls : Nat) : State :=
  { srv with pwr := { rails := [(0, { queue := [{ what := .stage 7 0, cls := 2, parts := [(0, 1)], units := 0 },
    { what := .spout 0, cls := cls, parts := [(5, 1)], units := 0 }] })] } }

theorem hyp_grants : srv.dev.mode = .serving ∧ granted (srv.rail 0) ≤ railLimit 0 ∧ (srv.rail 0).queue = [] ∧
    nextRequest ((asking 0).rail 0) = some 1 ∧ nextRequest ((asking 2).rail 0) = some 0 ∧
    (let s := asking 0; (s.rail 0).queue[1]? = some { what := .spout 0, cls := 0, parts := [(5, 1)], units := 0 } ∧
      headroom s 0 (askedUnits s 0 { what := .spout 0, cls := 0, parts := [(5, 1)], units := 0 }) 0 = true) ∧
    headroom (asking 0) 0 (askedUnits (asking 0) 0 { what := .spout 0, cls := 0, parts := [(5, 1)], units := 0 })
      (2 ^ 20) = false := by decide

theorem hyp_clock_events : srv.dev.mode = .serving ∧ srv.dieIn 7 = true ∧ srv.pwr.slowSrc = false ∧
    (let t : State := { srv with pwr := { slowSrc := true } }; t.pwr.slowSrc = true) ∧
    (let t : State := { srv with pwr := { wells := [(7, 0)] } }; wellState t 7 = 0) ∧ wellState srv 7 ≠ 0 := by decide

theorem hyp_sensors : srv.dev.mode = .serving ∧ (List.replicate 9 (109 : Byte)).length = 9 ∧
    (∀ x ∈ List.replicate 9 (109 : Byte), tempOf x < tjTrip srv) ∧ (List.replicate 8 (0 : Byte) ++ [110]).length = 9 ∧
    (∃ x ∈ List.replicate 8 (0 : Byte) ++ [110], tjTrip srv ≤ tempOf x) := by decide

/-- srv with die 7 at a temperature, a point and a ceiling, throttled or not. -/
def dieAt (tj : Byte) (point : Nat) (ceil : BitVec 2) (rising thr : Bool) : State :=
  { srv with pwr := { perf := [(7, { point := point, ceil := ceil, tj := tj, rising := rising })]
                      throttled := if thr then 0x80 else 0 } }

theorem hyp_heat : (srv.dev.mode = .serving ∧ srv.dieIn 7 = true) ∧
    ¬ tjThrottle (dieAt 94 0 0 false false) ≤ tempOf ((dieAt 94 0 0 false false).diePerf 7).tj ∧
    (tjThrottle (dieAt 95 2 0 false false) ≤ tempOf ((dieAt 95 2 0 false false).diePerf 7).tj ∧
      (dieAt 95 2 0 false false).pwr.throttled.getLsbD 7 = false ∧ ((dieAt 95 2 0 false false).diePerf 7).point < 3) ∧
    (tjThrottle (dieAt 95 3 0 false true) ≤ tempOf ((dieAt 95 3 0 false true).diePerf 7).tj ∧
      (dieAt 95 3 0 false true).pwr.throttled.getLsbD 7 = true ∧ 3 ≤ ((dieAt 95 3 0 false true).diePerf 7).point) ∧
    tjThrottle srv - 5 ≤ tempOf (90 : Byte) ∧
    (let t := dieAt 89 1 0 false true; t.pwr.throttled.getLsbD 7 = true ∧ tempOf (t.diePerf 7).tj < tjThrottle t - 5 ∧
      (t.diePerf 7).ceil.toNat < (t.diePerf 7).point ∧ (t.diePerf 7).rising = false) ∧
    (let t := dieAt 89 1 1 false true; t.pwr.throttled.getLsbD 7 = true ∧ tempOf (t.diePerf 7).tj < tjThrottle t - 5 ∧
      (t.diePerf 7).point ≤ (t.diePerf 7).ceil.toNat) := by decide

/-- R345: at TJ_THROTTLE one point down, THERMAL raised. -/
theorem test_throttle : ((after (.thermalStepDown 7) (dieAt 95 2 0 false false)).diePerf 7).point = 3 ∧
    (after (.thermalStepDown 7) (dieAt 95 2 0 false false)).dev.events.getLsbD evThermal = true := by decide

theorem hyp_tdp : srv.dev.mode = .serving ∧ 1500 ≤ srv.pwr.tdpW.toNat ∧ srv.pwr.tdpW.toNat < 1501 ∧
    95 * srv.pwr.tdpW.toNat ≤ 100 * 1425 ∧ 100 * 1424 < 95 * srv.pwr.tdpW.toNat := by decide

theorem hyp_voltage : srv.dev.mode = .serving ∧ 7 < 8 ∧ (srv.diePerf 7).rising = false ∧
    (let t := dieAt 0 1 0 true false; (t.diePerf 7).rising = true ∧ waiting (fun h => h.what == .point 7) t = false ∧
      pointRise t 7 ((t.diePerf 7).point - 1) = 0) ∧
    (let t : State := { dieAt 0 1 0 true false with pwr := { (dieAt 0 1 0 true false).pwr with
        rails := [(7, { holds := [{ what := .stage 7 224, cls := 2, parts := [(0, 1)], units := 1 }] })] } };
      (t.diePerf 7).rising = true ∧ waiting (fun h => h.what == .point 7) t = false ∧
      pointRise t 7 ((t.diePerf 7).point - 1) ≠ 0) := by decide

theorem hyp_calibration : (srv.dev.mode = .serving ∧ srv.dieIn 7 = true ∧ (List.replicate 14 0).length = 14 ∧
      srv.pwr.calDies.getLsbD 7 = false) ∧
    (let t : State := { srv with pwr := { calDies := 0x80 } }; t.pwr.calDies.getLsbD 7 = true) ∧
    (13 < 14 ∧ (List.replicate 14 (2 ^ 16 - 1))[13]? = some (2 ^ 16 - 1) ∧ 2 ^ 16 - 1 < 2 ^ 16) := by decide

/-- POWER_HINT for die 7, and for cluster 31, at DRY. -/
def hintDie : Cmd := cmdOf opPowerHint [1, 7, 4]
def hintCluster : Cmd := cmdOf opPowerHint [2, 31, 4]

theorem hyp_hints : Startable 7 opPowerHint hintDie (withCmd hintDie) ∧ (hintDie.p 0 1 ≤ 2 ∧ hintDie.p 0 1 = 1 ∧
      (withCmd hintDie).dieIn (hintDie.p 1 1) = true ∧ hintDie.p 2 1 ≤ 4) ∧
    Startable 7 opPowerHint hintCluster (withCmd hintCluster) ∧ (hintCluster.p 0 1 = 2 ∧ hintCluster.p 1 1 < 32 ∧
      (withCmd hintCluster).dieIn (dieOfCluster (hintCluster.p 1 1)) = true) ∧
    (let t : State := { srv with pwr := { doms := [(39, { hintTimed := true })] } }; (t.dom 39).hintTimed = true) ∧
    (srv.dom 39).hintTimed = false :=
  ⟨⟨rfl, rfl, rfl, rfl, by decide⟩, by decide, ⟨rfl, rfl, rfl, rfl, by decide⟩, by decide, rfl, rfl⟩

-- ## The lateral fabric

/-- Device 5, with a message waiting, group 1 active, and its commands in flight. -/
def lateral (m : List Msg) (g : List (Nat × Group)) (cs : List Cmd) : State :=
  { region0 with
    dev := { srv.dev with number := 5, numValid := true }, lat := { inbox := m, groups := g }, inflight := cs, ctxs := [(5, ctx5)] }

/-- A WRITE of one byte with an increment of float 0 of core 0. -/
def write1 : Msg := { type := 0, vc := 1, src := 6, len := 1, addr := 2 ^ 13 - 1, floatInc := 1, data := [7] }

theorem hyp_write : (lateral [write1] [] []).dev.mode = .serving ∧
    takeMsg (fun m => m.type == 0) (lateral [write1] [] []) = some (write1, lateral [] [] []) ∧
    genOk (lateral [write1] [] []) write1 = true ∧ csAllowed (lateral [write1] [] []) write1.addr write1.data.length = true ∧
    floatLive (lateral [write1] [] []) write1.float write1.floatInc = true ∧
    takeMsg (fun m => m.type == 0) (lateral [{ write1 with group := 1 }] [] []) =
      some ({ write1 with group := 1 }, lateral [] [] []) ∧
    genOk (lateral [{ write1 with group := 1 }] [] []) { write1 with group := 1 } = false ∧
    csAllowed (lateral [{ write1 with addr := 2 ^ 13 }] [] []) (2 ^ 13) 1 = false ∧
    floatLive (lateral [] [] []) 0x100 1 = false := by decide

/-- R152, R164: the record of a GAP lands as a WRITE does, and a VALVE counts. -/
theorem test_gap_lands : mget (after .gap (lateral [{ write1 with type := 3 }] [] [])).cis (2 ^ 13 - 1) = 7 ∧
    tget (after .valve (lateral [{ write1 with type := 1, data := leBytes 4 3 ++ leBytes 4 2 }] [] [])).valves 3 0 = 2 := by
  decide

/-- A member of a group of two whose leader is device 5, and one whose leader is device 6. -/
def lead : Group := { devices := [5, 6], cmd := 7, retryMax := 1 }
def follow : Group := { devices := [6, 5], cmd := 7, rank := 1, retryMax := 1 }
/-- MASS of both members has come. -/
def massed (g : Group) : Group := { g with masses := [(5, []), (6, [])] }
/-- A control message of group 1. -/
def ctl (code src : Nat) (data : List Byte) : Msg := { type := 2, vc := 2, src := src, addr := code, group := 1, data := data }
/-- The member's RUN. -/
def member7 (ph : Phase) : Cmd := { cmdOf opRun [] with phase := ph, plan := some {}, cores := [0], started := ph == .held }

theorem hyp_valve_mass : takeMsg (fun m => m.type == 1) (lateral [{ write1 with type := 1 }] [] []) =
      some ({ write1 with type := 1 }, lateral [] [] []) ∧
    (let m : Msg := { type := 4, vc := 2, src := 6, group := 1, data := leBytes 4 0x3F800000 };
      takeMsg (fun m => m.type == 4) (lateral [m] [(1, lead)] []) = some (m, lateral [] [(1, lead)] []) ∧
      m.group ≠ 0xFFFF ∧ genOk (lateral [m] [(1, lead)] []) m = true ∧
      tget? (lateral [m] [(1, lead)] []).lat.groups m.group = some lead ∧ genOk (lateral [m] [] []) m = false) := by decide

/-- The next message of a code is the inbox's only one, of group 1. -/
theorem on_ctrl (code : Nat) (g : Group) (m : Msg) (cs : List Cmd)
    (h : (nextCtrl code (lateral [m] [(1, g)] cs) == some (m, lateral [] [(1, g)] cs) && m.group == 1 && ctrlOk g m) = true) :
    OnCtrl code 1 g (lateral [m] [(1, g)] cs) (lateral [] [(1, g)] cs) m := by
  simp only [Bool.and_eq_true, beq_iff_eq] at h
  exact ⟨rfl, h.1.1, ⟨h.1.2, rfl⟩, h.2⟩

theorem hyp_group_stale : nextCtrl ctrlReady (lateral [] [] []) = none ∧
    (let m := ctl ctrlReady 6 []; nextCtrl ctrlReady (lateral [m] [] []) = some (m, lateral [] [] []) ∧
      tget? (lateral [m] [] []).lat.groups 1 = none) ∧
    (let m := { ctl ctrlGo 6 (leBytes 4 0) with gen := 1 }; nextCtrl ctrlGo (lateral [m] [(1, follow)] []) =
      some (m, lateral [] [(1, follow)] []) ∧ ctrlOk follow m = false) := by decide

theorem hyp_group_ready : (let m := ctl ctrlReady 6 (leBytes 1 2 ++ leBytes 7 0);
      let x := (m.src, field m.data 0 1, field m.data 1 1, field m.data 4 4); let s := lateral [m] [(1, lead)] [];
      OnCtrl ctrlReady 1 lead s (lateral [] [(1, lead)] []) m ∧
      lead.leader = selfDev s ∧ lead.started = false ∧ m.src ∈ lead.devices ∧
      (∀ e ∈ lead.readies.filter (fun e => e.1 != m.src) ++ [x], e.2 = x.2) ∧
      (lead.readies.filter (fun e => e.1 != m.src) ++ [x]).length ≠ lead.members ∧
      ([(5, x.2)].filter (fun e => e.1 != m.src) ++ [x]).length = lead.members ∧
      (∀ e ∈ [(5, x.2)].filter (fun e => e.1 != m.src) ++ [x], e.2 = x.2) ∧
      (∃ e ∈ [(5, 3, 0, 0)].filter (fun e => e.1 != m.src) ++ [x], e.2 ≠ x.2)) ∧
    (let m := ctl ctrlReady 6 []; OnCtrl ctrlReady 1 follow (lateral [m] [(1, follow)] []) (lateral [] [(1, follow)] []) m ∧
      follow.leader ≠ selfDev (lateral [m] [(1, follow)] [])) :=
  ⟨⟨on_ctrl _ _ _ _ (by decide), by decide⟩, on_ctrl _ _ _ _ (by decide), by decide⟩

theorem hyp_group_go : (let m := ctl ctrlGo 6 (leBytes 4 0); let g := { follow with readySent := true };
      let c := member7 .placed; let s := lateral [m] [(1, g)] [c];
      OnCtrl ctrlGo 1 g s (lateral [] [(1, g)] [c]) m ∧ m.src = g.leader ∧ g.readySent = true ∧ g.started = false ∧
      s.cmd? g.cmd = some c ∧ c.plan = some {} ∧ c.phase = .placed ∧ c.opcode = opRun ∧
      (∀ w ∈ ({} : Plan).scalePoints, (scalePoint w).src ≠ 0) ∧ (argsOf s c).chunk = none) ∧
    (member7 .running).phase ≠ .placed ∧
    (let m := ctl ctrlGo 6 (leBytes 4 0); OnCtrl ctrlGo 1 follow (lateral [m] [(1, follow)] []) (lateral [] [(1, follow)] []) m ∧
      follow.readySent = false) ∧
    (let m := ctl ctrlRefuse 6 []; OnCtrl ctrlRefuse 1 follow (lateral [m] [(1, follow)] []) (lateral [] [(1, follow)] []) m ∧
      m.src = follow.leader ∧ follow.started = false ∧ ({ follow with started := true } : Group).started = true) :=
  ⟨⟨on_ctrl _ _ _ _ (by decide), rfl, rfl, rfl, rfl, rfl, rfl, rfl, fun w h => (by cases h), rfl⟩, by decide,
    ⟨on_ctrl _ _ _ _ (by decide), rfl⟩, on_ctrl _ _ _ _ (by decide), rfl, rfl, rfl⟩

theorem hyp_group_done : (let m := ctl ctrlDone 6 (leBytes 4 0); let s := lateral [m] [(1, lead)] [];
      OnCtrl ctrlDone 1 lead s (lateral [] [(1, lead)] []) m ∧ lead.leader = selfDev s ∧ lead.committed = false ∧
      (donesWith lead m).length < lead.members) ∧
    (let m := ctl ctrlDone 6 (leBytes 4 0); let g := massed { lead with dones := [5] };
      OnCtrl ctrlDone 1 g (lateral [m] [(1, g)] []) (lateral [] [(1, g)] []) m ∧ g.members ≤ (donesWith g m).length ∧
      g.orphan = false) ∧
    (let m := ctl ctrlDone 6 (leBytes 4 0); let g := { lead with dones := [5], orphan := true };
      OnCtrl ctrlDone 1 g (lateral [m] [(1, g)] []) (lateral [] [(1, g)] []) m ∧ g.members ≤ (donesWith g m).length) ∧
    (let m := ctl ctrlDone 6 (leBytes 4 0); OnCtrl ctrlDone 1 follow (lateral [m] [(1, follow)] []) (lateral [] [(1, follow)] []) m ∧
      follow.leader ≠ selfDev (lateral [m] [(1, follow)] [])) ∧
    (let m := ctl ctrlCommit 6 (leBytes 4 0); let g := massed follow; let c := member7 .held; let s := lateral [m] [(1, g)] [c];
      OnCtrl ctrlCommit 1 g s (lateral [] [(1, g)] [c]) m ∧ m.src = g.leader ∧ s.cmd? g.cmd = some c ∧ c.phase = .held) ∧
    (let m := ctl ctrlCommit 9 (leBytes 4 0); let g := massed follow;
      OnCtrl ctrlCommit 1 g (lateral [m] [(1, g)] []) (lateral [] [(1, g)] []) m ∧ m.src ≠ g.leader) :=
  ⟨⟨on_ctrl _ _ _ _ (by decide), by decide⟩, ⟨on_ctrl _ _ _ _ (by decide), by decide⟩, ⟨on_ctrl _ _ _ _ (by decide), by decide⟩, ⟨on_ctrl _ _ _ _ (by decide), by decide⟩,
    ⟨on_ctrl _ _ _ _ (by decide), by decide⟩, on_ctrl _ _ _ _ (by decide), by decide⟩

theorem hyp_group_abort : (let m := ctl ctrlAbort 6 (leBytes 4 0); let c := member7 .running; let s := lateral [m] [(1, follow)] [c];
      OnCtrl ctrlAbort 1 follow s (lateral [] [(1, follow)] [c]) m ∧ follow.leader ≠ selfDev s ∧ m.src = follow.leader ∧
      follow.committed = false ∧ follow.gen < follow.retryMax ∧ follow.started = false ∧ follow.readySent = false ∧
      s.cmd? follow.cmd = some c ∧ ({ follow with started := true } : Group).started = true) ∧
    (let m := ctl ctrlAbort 6 (leBytes 4 0); let c := member7 .running; let s := lateral [m] [(1, lead)] [c];
      OnCtrl ctrlAbort 1 lead s (lateral [] [(1, lead)] [c]) m ∧ lead.leader = selfDev s ∧ lead.committed = false ∧
      lead.orphan = false ∧ lead.gen < lead.retryMax) ∧
    (let m := ctl ctrlAbort 9 (leBytes 4 0); OnCtrl ctrlAbort 1 follow (lateral [m] [(1, follow)] []) (lateral [] [(1, follow)] []) m ∧
      follow.leader ≠ selfDev (lateral [m] [(1, follow)] []) ∧ m.src ≠ follow.leader) ∧
    (let g := { follow with gen := 1 }; g.retryMax ≤ g.gen ∧ (member7 .running).opcode = opRun) :=
  ⟨⟨on_ctrl _ _ _ _ (by decide), by decide⟩, ⟨on_ctrl _ _ _ _ (by decide), by decide⟩, ⟨on_ctrl _ _ _ _ (by decide), by decide⟩,
    by decide⟩

theorem hyp_group_timeout : tget? (lateral [] [] []).lat.groups 1 = none ∧
    (let g := { lead with readySent := true }; let s := lateral [] [(1, g)] [member7 .running];
      s.dev.mode = .serving ∧ tget? s.lat.groups 1 = some g ∧ g.committed = false ∧ g.readySent = true ∧ g.leader = selfDev s ∧
      g.orphan = false) ∧
    (lead.readySent = false ∧ lead.started = false) ∧
    (let g := { follow with readySent := true }; let s := lateral [] [(1, g)] [member7 .placed];
      g.leader ≠ selfDev s ∧ awaitsLeader s g = true ∧ commitWaiting s 1 g = none ∧ awaitsLeader (lateral [] [(1, g)] []) g = false) ∧
    (let g := { follow with started := true }; let c := member7 .held;
      let s := lateral [ctl ctrlCommit 6 (leBytes 4 0)] [(1, g)] [c];
      g.leader ≠ selfDev s ∧ awaitsLeader s g = true ∧ commitWaiting s 1 g = some 0 ∧ s.cmd? g.cmd = some c ∧ c.phase = .held) := by
  decide

/-- Device 0 in a row of two, with port 1 in a state and its domain flowing. -/
def ported (x : Port) : State :=
  { srv with dev := { srv.dev with numValid := true }, lat := { topo := 1, portEn := 2, ports := [(1, x)] },
             pwr := { doms := [(43, { state := 0 })] } }

theorem quiet (x : Port) (h : x.outq = [] ∧ x.owed = [] ∧ x.ackDue = false) : QuietPorts (ported x) := by
  intro q hq
  rcases q with _ | _ | q
  · exact ⟨rfl, fun e he => (by cases he), rfl⟩
  · exact ⟨h.1, fun e (he : e ∈ x.owed) => (by rw [h.2.1] at he; cases he), h.2.2⟩
  · exact ⟨rfl, fun e he => (by cases he), rfl⟩

theorem hyp_ports : ((ported { state := 1 }).dev.mode = .serving ∧ 1 < 4 ∧ (ported { state := 1 }).lat.groups = [] ∧
      QuietPorts (ported { state := 1 }) ∧ ((ported { state := 1 }).port 1).state = 1 ∧
      (ported { state := 1 }).dev.numValid = true ∧ Machine.flowing (ported { state := 1 }) 43 = true ∧
      neighbour (ported { state := 1 }) 1 = some 1 ∧ none ≠ some 1 ∧
      ∀ q < 4, ∀ f ∈ ((ported { state := 1 }).port q).outq, f.src ≠ 1) ∧
    (let x : Port := { state := 2, retry := [(15, [0])] }; ((ported x).port 1).state = 2 ∧ mayReplay x = true) ∧
    (let x : Port := { state := 2, retry := [(16, [0])] }; mayReplay x = false ∧ ∃ e ∈ x.retry, 16 ≤ e.1) ∧
    (let x : Port := { state := 3, failed := 2 }; ((ported x).port 1).state = 3 ∧ 2 ≤ 2 ∧ 1 ≤ 1 ∧ 3 ≤ x.failed + 1 ∧
      QuietPorts (ported x)) ∧ ((ported {}).port 1).state ≠ 3 :=
  ⟨⟨rfl, by decide, rfl, quiet _ (by decide), by decide⟩, by decide, by decide,
    ⟨rfl, by decide, by decide, by decide, quiet _ (by decide)⟩, by decide⟩

/-- A flit with its CRC. -/
def flit (h : Nat) (pay : Block) : Block := let b := leBytes 12 h ++ padTo 240 pay; b ++ leBytes 4 (crc32c b)
/-- One message of one flit, number FSEQ, for device 0. -/
def whole (fseq : Nat) : Block := flit (fseq + 2 ^ 71 + 2 ^ 72 + 20 * 2 ^ 73) (fields [(3, 4), (13, 0), (4, 1)])

theorem hyp_flit : ((ported { state := 2 }).port 1).state = 2 ∧ (whole 0).length = 256 ∧
    field (whole 0) 252 4 = crc32c ((whole 0).take 252) ∧
    ¬ field (leBytes 1 1 ++ (whole 0).drop 1) 252 4 = crc32c ((leBytes 1 1 ++ (whole 0).drop 1).take 252) ∧
    ((ported { state := 1 }).port 1).state ≠ 2 := by decide +kernel

theorem hyp_flit_order : (let h := leNat ((whole 0).take 12); (bitOf h 26 = false ∨ bitsOf h 38 33 ≠ 0) ∧
      h % 4096 = ((ported {}).port 1).rxSeq.toNat ∧ bitOf h 26 = false ∧ castWaits (ported {}) (some 1) (hdrVc h) = false ∧
      bitOf h 89 = false ∧ bitsOf h 52 39 = selfDev (ported {}) ∧ bitOf h 71 = true ∧ bitOf h 72 = true ∧
      bitsOf h 70 67 < 5 ∧ bitsOf h 70 67 ≠ 2) ∧
    leNat ((whole 4095).take 12) % 4096 ≠ ((ported {}).port 1).rxSeq.toNat ∧
    (let h := leNat ((flit (2 ^ 26) []).take 12); field (flit (2 ^ 26) []) 252 4 = crc32c ((flit (2 ^ 26) []).take 252) ∧
      ¬ (bitOf h 26 = false ∨ bitsOf h 38 33 ≠ 0)) ∧
    (let s : State := { ported {} with lat := { mcastQ := [{ msg := { write1 with vc := 0 }, src := some 1 }] } };
      castWaits s (some 1) 0 = true) := by
  decide +kernel

/-- A multicast WRITE of entry 255. -/
def cast (e : W64) (ports : Option (List Nat)) : State :=
  { ported { state := 2 } with lat := { (ported { state := 2 }).lat with
      mcast := [(255, e)], mcastQ := [{ msg := { write1 with mcast := some 255 }, ports := ports }] } }

theorem quiet_cast (e : W64) (ports : Option (List Nat)) : QuietPorts (cast e ports) := by
  intro q hq
  rcases q with _ | _ | q <;> exact ⟨rfl, fun e he => (by cases he), rfl⟩

theorem hyp_mcast : ((cast 0 none).dev.mode = .serving ∧ ({ write1 with mcast := some 255 } : Msg).mcast = some 255 ∧
      write1.type < 4 ∧ write1.type ≠ 2 ∧
      (cast 0 none).lat.mcastQ = [{ msg := { write1 with mcast := some 255 }, ports := none }] ∧
      (cast 0 none).lat.ownQ = [] ∧ (cast 0 none).lat.gaps = [] ∧ (tget (cast 0 none).lat.mcast 255 0).getLsbD 6 = false) ∧
    (let e := tget (cast 0x50 none).lat.mcast 255 0; e.getLsbD 6 = true ∧ e.getLsbD 4 = true ∧ mcastPorts e = []) ∧
    (let e := tget (cast 0x62 none).lat.mcast 255 0; e.getLsbD 6 = true ∧ e.getLsbD 5 = true ∧ e.getLsbD 4 = false ∧
      mcastPorts e = [1]) ∧
    portUsable (cast 0x62 (some [1])) 1 = true ∧ 0 < flitCount write1 ∧
    ∀ k, tget ((cast 0x62 (some [1])).port 1).credits k 0 = 0 :=
  ⟨by decide, by decide, by decide, by decide, by decide, fun _ => rfl⟩

-- ## Output bindings, watermark and provenance

/-- A command with number 7, and srv with it in flight and bytes of host memory at 0x1000. -/
def withHost (c : Cmd) (bs : Block) : State := { withCmd c with host := mwrite [] 0x1000 bs }

/-- Bounds of a run that the checks read. -/
def ringBytes : Block := fields [(8, 0x4000), (4, 65536), (2, 128), (2, 0), (8, 0x2000), (8, 0x3000)]
/-- A binding block: number 3, one target, N 16 at 8 kHz. -/
def bindBlock : Block := fields [(2, 3), (1, 0), (1, 1), (1, 0), (1, 0xFF), (2, 16), (2, 8000), (2, 0), (20, 0)] ++ ringBytes
def outBind : Cmd := cmdOf opOutBind (fields [(8, 0x1000)])
def bound (x : Binding) : State := { withCmd (cmdOf opOutUnbind [3]) with bindings := [(3, x)] }

theorem hyp_out_bind : Startable 7 opOutBind outBind (withHost outBind bindBlock) ∧ typedAddr (outBind.p 0 8) = some (.host 0x1000) ∧
    32 + 32 * min 8 (field (peekAt (withHost outBind bindBlock) (outBind.p 0 8) 32) 3 1) = 64 ∧
    addrOk (withHost outBind bindBlock) (.host 0x1000) 64 = true ∧
    readAt (.host 0x1000) 64 (startCmd 7 (withHost outBind bindBlock)) = (.bytes bindBlock, startCmd 7 (withHost outBind bindBlock)) ∧
    failing (bindChecks (startCmd 7 (withHost outBind bindBlock)) bindBlock) = [] :=
  ⟨⟨rfl, rfl, rfl, rfl, by decide⟩, by decide, by decide, by decide, by decide, by decide⟩

theorem hyp_out_unbind : Startable 7 opOutUnbind (cmdOf opOutUnbind [3]) (bound { ctx := 5 }) ∧
    tget? (bound { ctx := 5 }).bindings ((cmdOf opOutUnbind [3]).p 0 2) = some { ctx := 5 } :=
  ⟨⟨rfl, rfl, rfl, rfl, by decide⟩, by decide⟩

theorem hyp_output_lines : (let y : Target := { missed := some { stream := 1, first := 2, last := 3 } };
      let s := bound { targets := [y] };
      s.dev.mode = .serving ∧ Memory.wf s.host = true ∧ tget? s.bindings 3 = some { targets := [y] } ∧
      ({ targets := [y] } : Binding).targets[0]? = some y ∧ lineHeld s (.target 3 0) = true ∧ y.abandoned = false ∧
      y.full = false) ∧
    (let t : State := { srv with prov := { ring := some { bytes := 2 ^ 23 } } }; lineHeld t .manifest = true) := by decide

/-- srv with the security block as given. -/
def secured (p : Prov) : State := { srv with prov := p }

theorem hyp_intervals : srv.dev.mode = .serving ∧ (inMode .booting).dev.mode = .booting ∧
    (secured { interval := 0, ticks := 0 }).prov.interval ≤ 0 ∧ (secured { interval := 1, ticks := 0 }).prov.ticks < 1 ∧
    (({} : ProvCfg).cut = false ∧ ({ cut := true } : ProvCfg).cut = true) ∧
    (let s := secured { closed := [(0, 1, 100)] }; s.prov.closed = [(0, 1, 100)] ∧ ∃ j ∈ spoutsIn s, (tget s.spouts j {}).acked < 1) ∧
    (let s := secured { closed := [(0, 0, 100)] }; ∀ j ∈ spoutsIn s, 0 ≤ (tget s.spouts j {}).acked) ∧
    intervalCount (secured {}).prov < 65535 := by decide

theorem many_records (n : Nat) : n ≤ intervalCount (secured { records := List.replicate n (0, []) }).prov := by
  simp [secured, intervalCount]

theorem hyp_interval_full : 65535 ≤ intervalCount (secured { records := List.replicate 65535 (0, []) }).prov :=
  many_records 65535

theorem hyp_manifest_sign : (let m : Manifest := { interval := 0, intervalMs := 100 };
      let p : Prov := { unsignedQ := [m], signer := 0, nextIndex := lastIndex - 1 };
      (secured p).prov.unsignedQ = m :: [] ∧ (secured p).prov.held.length < 64 ∧ (secured p).prov.signer = 0 ∧
      (secured p).prov.nextIndex < lastIndex) ∧ (secured { signer := 2 }).prov.signer = 2 ∧ (secured {}).prov.signer = 1 := by
  decide

theorem hyp_manifest_write : (let m : Manifest := { interval := 0, intervalMs := 100, bytes := some (List.replicate 128 0) };
      let g : MRing := { base := 0x4000, bytes := 128 };
      let s := secured { held := [m], ring := some g };
      s.prov.held = m :: [] ∧ s.prov.ring = some g ∧ m.bytes = some (List.replicate 128 0) ∧ Memory.wf s.host = true ∧
      (g.prod - g.cons).toNat + 128 ≤ g.bytes) ∧
    (let g : MRing := { bytes := 128, prod := 1 }; g.bytes < (g.prod - g.cons).toNat + 128) := by decide

theorem hyp_signer_lacks : srv.dev.mode = .serving ∧
    (secured { pendingChunk := some 1 }).prov.pendingChunk = some 1 ∧
    (let p : Prov := { nextIndex := 2 ^ 40 - 1 }; p.nextTree = false ∧ p.nextIndex < 2 ^ 40 ∧ p.treeReady = false) ∧
    (let p : Prov := { treeReady := true, nextIndex := (2 ^ 20 - 1) * 2 ^ 20 - 1 };
      p.treeReady = true ∧ p.nextIndex / 2 ^ 20 < 2 ^ 20 - 1 ∧ p.subtreeReady = false) ∧
    (let y : Target := {}; let m : Missed := { stream := 1, first := 2, last := 3 };
      let s : State := { bound { targets := [y], withheld := some m } with
        streams := [(1, { binding := some 3 })], prov := { ring := some {} } };
      withholding s = false ∧ Memory.wf s.host = true ∧ tget? s.streams 1 = some { binding := some 3 } ∧
      tget? s.bindings 3 = some { targets := [y], withheld := some m } ∧ m.final = false ∧ y.missed = none ∧
      y.abandoned = false ∧ y.full = false ∧ ({ targets := [y], withheld := some m } : Binding).held = []) := by decide

def wmKeyCmd (k : Nat) : Cmd := { cmdOf opWmConfig (List.replicate 32 1) with arg := 256 * k }
def wmStream : Cmd := { cmdOf opWmConfig (fields [(2, 1), (1, 0), (1, 40)]) with arg := 1 }
def wmDetect : Cmd :=
  { cmdOf opWmDetect (fields [(8, 2 ^ 63), (4, 16)]) with started := true, inPlace := true, phase := .running, cores := [0] }
def provConf (flags : Nat) : Cmd := cmdOf opProvConfig (fields [(2, 10), (1, 100), (1, flags), (4, 0)] ++ ringBytes)
def attest : Cmd := cmdOf opAttest (fields [(8, 0), (4, 5568)])
/-- A core that runs command 7. -/
def onCore7 (s : State) : State := { s with cores := [(0, { running := some 7, regions := [{ base := 0, size := 1, valid := true }] })] }

theorem hyp_watermark : (Startable 7 opWmConfig (wmKeyCmd 63) (withCmd (wmKeyCmd 63)) ∧ 1 ≤ 63 ∧ 63 ≤ 63 ∧
      (wmKeyCmd 63).arg = 256 * 63 ∧ (∀ e ∈ (withCmd (wmKeyCmd 63)).streams, e.2.state ≠ 0 → e.2.keySlot ≠ 63 ∧
        e.2.nextKeySlot ≠ some 63)) ∧
    (let s : State := { withCmd wmStream with streams := [(1, { ctx := 5, state := 1 })] };
      Startable 7 opWmConfig wmStream s ∧ wmStream.arg = 1 ∧ ownStream s wmStream (wmStream.p 0 2) = true ∧
      wmStream.p 2 1 = 0 ∧ 40 ≤ wmStream.p 3 1 ∧ wmStream.p 3 1 ≤ 120) :=
  ⟨⟨⟨rfl, rfl, rfl, rfl, by decide⟩, by decide, by decide, by decide, by decide⟩,
    ⟨rfl, rfl, rfl, rfl, by decide⟩, by decide, by decide, by decide, by decide, by decide⟩

theorem hyp_wm_detect : Pumping 7 opWmDetect wmDetect (onCore7 (withCmd wmDetect)) ∧ wellAddr (wmDetect.p 0 8) = some 0 ∧
    readFrom wmDetect.cores.head? (.well 0) (wmDetect.p 8 4 * 2) (onCore7 (withCmd wmDetect)) =
      (.bytes (List.replicate 32 0), (readFrom wmDetect.cores.head? (.well 0) 32 (onCore7 (withCmd wmDetect))).2) :=
  ⟨⟨rfl, rfl, rfl, by decide, rfl⟩, by decide, rfl⟩

theorem hyp_prov_config : Startable 7 opProvConfig (provConf 2) (withCmd (provConf 2)) ∧ (10 ≤ (provConf 2).p 0 2 ∧
      (provConf 2).p 0 2 ≤ 1000 ∧ (provConf 2).p 0 2 % 10 = 0 ∧ 1 ≤ (provConf 2).p 2 1 ∧ (provConf 2).p 2 1 ≤ 100 ∧
      bitOf ((provConf 2).p 3 1) 1 = true ∧ failing (targetChecks ((provConf 2).params.drop 8) 0) = [] ∧
      8 * 2 ^ 20 ≤ (mringOf ((provConf 2).params.drop 8)).bytes) ∧
    Startable 7 opProvConfig (provConf 1) (withCmd (provConf 1)) ∧ bitOf ((provConf 1).p 3 1) 1 = false :=
  ⟨⟨rfl, rfl, rfl, rfl, by decide⟩, by decide, ⟨rfl, rfl, rfl, rfl, by decide⟩, by decide⟩

theorem hyp_attest : (let s : State := { withCmd attest with prov := { signer := 0 } };
      Startable 7 opAttest attest s ∧ s.prov.signer = 0 ∧ s.prov.nextIndex < lastIndex ∧ Memory.wf s.host = true ∧
      attest.p 0 8 + cdiv (0x770 + 48 * s.images.length + 3604) 64 * 64 ≤ 2 ^ 52 ∧
      cdiv (0x770 + 48 * s.images.length + 3604) 64 * 64 ≤ attest.p 8 4) ∧ (withCmd attest).prov.signer = 1 :=
  ⟨⟨⟨rfl, rfl, rfl, rfl, by decide⟩, by decide, by decide, by decide, by decide, by decide⟩, by decide⟩

-- ## Streams and loops

/-- Context 5 with room for chunks. -/
def ctxY : Ctx := { chunkMax := 16, accUnits := 4 }
/-- A slot of context 5 on core 0: one granule, 64 accumulator rows. -/
def slot5 : Core := { regions := [{ base := 0, size := 1, owner := 5, valid := true, accSize := 1 }] }
/-- A numbered part with a command, a slot, a loop 2, a stream 1 and a binding 3. -/
def staged (c : Cmd) (l : List (Nat × Loop)) (st : List (Nat × Stream)) (b : List (Nat × Binding)) : State :=
  { withCmd c with dev := { srv.dev with numValid := true }, ctxs := [(5, ctxY)], cores := [(0, slot5)], loops := l, streams := st
                   bindings := b }

def openOf (l b : Nat) : Cmd :=
  cmdOf opStreamOpen (fields [(2, 1), (2, l), (2, b), (2, 4096), (2, 64), (6, 0), (8, 2 ^ 63), (4, 1)])
def loop5 : Loop := { ctx := 5, cmd := 7, admitted := true }
def bind5 : Binding := { ctx := 5, blockLen := 16, rate := 8000 }

theorem hyp_stream_open : (let c := openOf 0xFFFF 3; let s := staged c [] [] [(3, bind5)];
      Startable 7 opStreamOpen c s ∧ s.ctx? c.ctx = some ctxY ∧ silenced s c.ctx = false ∧
      failing (openChecks s c ctxY (c.p 2 2 != 0xFFFF) none) = [] ∧ poolReserved s 0 + poolClaimed s 0 + stagingFor 2 16 ≤ 4 * 2 ^ 20 ∧
      spoutFor s none 3 = 0 ∧ spoutLoad s 0 < 512 ∧ c.p 2 2 = 0xFFFF ∧ noSpout s (c.p 4 2) = false ∧
      closesCycle ctxY 16 = false) ∧
    (let c := openOf 2 0xFFFF; let s := staged c [(2, loop5)] [] [];
      Startable 7 opStreamOpen c s ∧ openLoop s c 2 = some loop5 ∧ freeLane loop5 = some 0 ∧
      failing (openChecks s c ctxY (c.p 2 2 != 0xFFFF) (some loop5)) = []) :=
  ⟨⟨⟨rfl, rfl, rfl, rfl, by decide⟩, by decide, by decide, by decide, by decide, by decide, by decide, by decide, by decide,
    by decide⟩, ⟨rfl, rfl, rfl, rfl, by decide⟩, by decide, by decide, by decide⟩

def feedOf (trim : Nat) : Cmd := cmdOf opStreamFeed (fields [(2, 1), (1, trim), (1, 0), (4, 2 ^ 31 - 1), (4, 1000000)])
def looped : Stream := { ctx := 5, state := 2, loop := some 2, lane := some 0 }

theorem hyp_stream_feed : (let s := staged (feedOf 1) [(2, loop5)] [(1, looped)] [];
      tget? s.streams ((feedOf 1).p 0 2) = some looped ∧ looped.state ≠ 0 ∧ looped.ctx = (feedOf 1).ctx ∧
      Startable 7 opStreamFeed (feedOf 1) s ∧ (BitVec.ofNat 32 ((feedOf 1).p 4 4) - looped.feedLimit).toNat < 2 ^ 31 ∧
      bitOf ((feedOf 1).p 2 1) 0 = true ∧ looped.loop = some 2 ∧ tget? s.loops 2 = some loop5 ∧ -1000000 ≤ (feedOf 1).pInt 8 ∧
      (feedOf 1).pInt 8 ≤ 1000000) ∧
    Startable 7 opStreamFeed (feedOf 0) (staged (feedOf 0) [(2, loop5)] [(1, looped)] []) ∧ bitOf ((feedOf 0).p 2 1) 0 = false :=
  ⟨⟨by decide, by decide, by decide, ⟨rfl, rfl, rfl, rfl, by decide⟩, by decide, by decide, by decide, by decide, by decide,
    by decide⟩, ⟨rfl, rfl, rfl, rfl, by decide⟩, by decide⟩

def markCmd : Cmd := cmdOf opStreamMark (fields [(8, 1), (6, 99)])
def closeOf (flags e : Nat) : Cmd := cmdOf opStreamClose (fields [(2, if flags = 1 then 2 else 1), (6, flags), (6, e)])
def ending : Stream := { ctx := 5, state := 1, endIndex := some 100, closing := true, sampleIndex := 99 }

theorem hyp_mark_landed : (let c := { markCmd with landed := true }; Startable 7 opStreamMark c (staged c [] [(1, ending)] []) ∧
    c.landed = true) :=
  ⟨⟨rfl, rfl, rfl, rfl, by decide⟩, rfl⟩

theorem hyp_stream_mark : (tget? (staged markCmd [] [(1, ending)] []).streams (markCmd.p 0 2) = some ending ∧
      Startable 7 opStreamMark markCmd (staged markCmd [] [(1, ending)] []) ∧ ending.markPending = false ∧ markCmd.landed = false ∧
      ending.ended = false ∧
      ending.sampleIndex ≤ markCmd.p 8 6 ∧
      (∀ e, endOfStream (staged markCmd [] [(1, ending)] []) ending = some e → markCmd.p 8 6 < e) ∧ ending.chunks = []) ∧
    ({ ending with markPending := true } : Stream).markPending = true := by
  refine ⟨⟨by decide, ⟨rfl, rfl, rfl, rfl, by decide⟩, rfl, rfl, rfl, by decide, ?_, rfl⟩, rfl⟩
  intro e h
  injection h with h
  subst h
  decide

theorem hyp_stream_close : (let c := closeOf 0 (2 ^ 48 - 1); let s := staged c [(2, loop5)] [(1, looped)] [];
      Startable 7 opStreamClose c s ∧ tget? s.streams (c.p 0 2) = some looped ∧ bitOf (c.p 2 1) 0 = false ∧ looped.state ≠ 3 ∧
      looped.ended = false ∧ looped.loop = some 2) ∧
    (let c := closeOf 1 0; let s := staged c [(2, loop5)] [(1, looped)] [];
      Startable 7 opStreamClose c s ∧ bitOf (c.p 2 1) 0 = true ∧ openLoop s c (c.p 0 2) = some loop5 ∧ loop5.stopped = false) :=
  ⟨⟨⟨rfl, rfl, rfl, rfl, by decide⟩, by decide, by decide, by decide, by decide, by decide⟩,
    ⟨rfl, rfl, rfl, rfl, by decide⟩, by decide, by decide, by decide⟩

def loopCmd : Cmd := cmdOf opStreamLoop (fields [(2, 255), (1, 0), (1, 1), (1, 64), (1, 8), (2, 0), (2, 48000), (2, 4800), (12, 0), (8, 2 ^ 63)])

theorem hyp_stream_loop : Startable 7 opStreamLoop loopCmd (staged loopCmd [] [] []) ∧
    failing (loopChecks (staged loopCmd [] [] []) loopCmd {} ctxY) = [] ∧ silenced (staged loopCmd [] [] []) 5 = false ∧
    tget? (staged loopCmd [] [] []).loops (loopCmd.p 0 2) = none ∧ ctxY.realtime = false ∧
    (∀ g ∈ (loopOfParams loopCmd {}).cores, (slotOf (staged loopCmd [] [] []) 5 g).isSome = true) ∧
    failing (placedChecks (staged loopCmd [] [] []) loopCmd {}) = [] ∧ armsBusy (staged loopCmd [] [] []) 5 {} [0] = false :=
  ⟨⟨rfl, rfl, rfl, rfl, by decide⟩, by decide, by decide, by decide, by decide, by decide, by decide, by decide⟩

/-- The standing command of loop 2, and a part whose domains all flow. -/
def standing7 : Cmd := { cmdOf opStreamLoop [] with phase := .accepted, object := some 2, plan := some {}, started := true, cores := [0] }
def flowing (l : Loop) : State :=
  { staged standing7 [(2, l)] [(1, looped)] [] with pwr := { doms := [(0, { state := 0 }), (32, { state := 0 })] } }
def gated : Loop := { loop5 with stepping := some [0], lanes := [(0, 1)], blockIndex := 1, pacerInc := 1, nextDue := 0 }

theorem no_errors {s : State} (h : (s.upsets == {} && s.cisPoison == [] && s.accPoison == [] && s.wellPoison == [] && s.wells == []) = true) :
    NoErrors s := by
  simp only [Bool.and_eq_true, beq_iff_eq] at h
  exact ⟨h.1.1.1.1, h.1.1.1.2, h.1.1.2, h.1.2, fun d => by simp [State.well, h.2, tget, tget?]⟩

theorem hyp_block_gate : (flowing gated).dev.mode = .serving ∧ tget? (flowing gated).loops 2 = some gated ∧ gated.stopped = false ∧
    gated.pacerInc ≠ 0 ∧ gated.running = false ∧ gated.dead = false ∧ gated.admitted = true ∧ gateReached gated = true ∧
    lanesDue (flowing gated) gated ≠ [] ∧
    lanesDue (flowing { gated with lanes := [] }) { gated with lanes := [] } = [] ∧ gated.closing = false := by decide

theorem hyp_block_starts : (let s := flowing gated; let as := loopPlaces s gated; blockServed s 2 gated = true ∧ NoErrors s ∧
      s.cmd? gated.cmd = some standing7 ∧ standing7.opcode = opStreamLoop ∧ standing7.object = some 2 ∧ standing7.ctx = gated.ctx ∧
      gated.plan.images = [] ∧ NoHistory gated.plan ∧ waiting (isLoopCharge 2) s = false ∧
      (∀ g ∈ gated.cores, coreFlowing s g = true ∧ (s.dom (clusterOfCore g)).state = 0 ∧
        (s.dom (uncoreOf (clusterOfCore g))).state = 0 ∧ settled s g = true) ∧
      armsBusy s gated.ctx gated.plan gated.cores = false ∧ (∀ e ∈ gated.lanes, e.1 < gated.lanesMax) ∧
      (∀ a ∈ as, gated.stateBase + 2 * gated.stateRows ≤ (ownRegion s a).accSize * 64) ∧ as.length = gated.split ∧
      FirstFits s as gated.plan.posOff (512 * gated.split) ∧ gated.plan.tempOff = none) ∧
    (let s : State := { flowing gated with ctxs := [(5, { ctxY with realtime := true })] };
      tierOne s gated = true ∧ blockServed s 2 gated = true) ∧
    (let s : State := { flowing gated with ctxs := [(5, { ctxY with realtime := true })], cores := [(0, { slot5 with running := some 9 })]
                                           inflight := [standing7, { cmdOf opRun [] with uid := 9, phase := .held }] };
      blockServed s 2 gated = false) :=
  ⟨⟨by decide, no_errors (by decide), rfl, rfl, rfl, rfl, rfl, fun w h => (by cases h), by decide, by decide, by decide, by decide,
    by decide, by decide, ⟨_, _, _, rfl, rfl, by decide⟩, rfl⟩, by decide, by decide⟩

theorem hyp_block_commit : (let x := { gated with running := true, stepsDone := 16 }; let s := flowing x;
      s.cmd? x.cmd = some standing7 ∧ standing7.opcode = opStreamLoop ∧ standing7.object = some 2 ∧ NoErrors s ∧ NoHistory x.plan ∧
      x.plan.commit = [] ∧ FirstFits s (loopPlaces s x) x.plan.posOff (512 * x.split) ∧ x.running = true ∧ x.stepsDone = x.blockLen ∧
      x.rerunAsked = false ∧ x.closing = false ∧ satPasses standing7 x.satBlock = false) ∧
    (({ gated with freeRun := true } : Loop).freeRun = true) ∧
    (({ gated with ticks := 31 } : Loop).ticks < (gated.nextDue + gated.deadline) * gated.blockLen) ∧
    (gated.freeRun = false ∧ gated.dead = false ∧ (gated.nextDue + gated.deadline) * gated.blockLen ≤ ({ gated with ticks := 32 } : Loop).ticks) :=
  ⟨⟨rfl, rfl, rfl, no_errors (by decide), fun w h => (by cases h), rfl, ⟨_, _, _, rfl, rfl, by decide⟩, rfl, by decide, rfl, rfl,
    by decide⟩, rfl, by decide, by decide⟩

/-- The frame of an engine step of command 7 on core 0. -/
def frame (c : Cmd) : At := { u := 7, core := 0, slot := 0, rank := 0, cmd := c, plan := c.plan.getD {} }
/-- Loop 2 in a step of its block, with a plan. -/
def stepping2 (p : Plan) : Loop := { gated with running := true, stepsDone := 15, plan := p }
def standingAs (p : Plan) : Cmd := { standing7 with plan := some p }
def busy (p : Plan) : State :=
  { flowing (stepping2 p) with cores := [(0, { slot5 with running := some 7 })], inflight := [standingAs p] }

/-- A plan whose one step is the gate of one row: state in row 0 of the working half, projections in rows 60 to 62. -/
def gatePlan : Plan := { steps := [[.gate { rows := 1, az := 60, ar := 61, an := 62 }]] }
/-- A plan that samples entry row 63. -/
def samplePlan : Plan := { loopSamples := [{ lane := 0, rank := 0, src := .acc 63 0 }] }

theorem rowAt (s : State) (a : At) (row lane n : Nat)
    (h : ((List.range n).all fun i => decide (entryRow s a (row + (lane + i) / 64) < (ownRegion s a).accSize * 64)) = true) :
    ∃ ks, RowAt s a row lane n ks :=
  ⟨_, fun i hi => of_decide_eq_true (List.all_eq_true.mp h i (List.mem_range.mpr hi)), rfl⟩

theorem hyp_stream_step : (let s := busy gatePlan; let x := stepping2 gatePlan; let a := frame (standingAs gatePlan);
      s.dev.mode = .serving ∧ NoErrors s ∧ tget? s.loops 2 = some x ∧ loopPlaces s x = [a] ∧ x.running = true ∧
      x.stepsDone < x.blockLen ∧ x.stepping = some [0] ∧ tget? x.lanes 0 = some 1 ∧ tget? s.streams 1 = some looped ∧
      stepAt s a = some (.gate { rows := 1, az := 60, ar := 61, an := 62 }) ∧
      (∃ ks, RowAt s a (x.stateBase + 0 * laneRows x) 0 64 ks) ∧ (∃ ks, RowAt s a (60 + 0 * 1) 0 64 ks) ∧
      (∃ ks, RowAt s a (61 + 0 * 1) 0 64 ks) ∧ ∃ ks, RowAt s a (62 + 0 * 1) 0 64 ks) :=
  ⟨rfl, no_errors (by decide), by decide, by decide, rfl, by decide, rfl, rfl, rfl, by decide, rowAt _ _ _ _ _ (by decide),
    rowAt _ _ _ _ _ (by decide), rowAt _ _ _ _ _ (by decide), rowAt _ _ _ _ _ (by decide)⟩

theorem hyp_state_nodup : ∃ ks, RowAt (busy gatePlan) (frame (standingAs gatePlan)) 0 0 64 ks ∧ ks.Nodup :=
  ⟨(List.range 64).map (fun i => accKey 0 0 i), ⟨by decide, by decide⟩, by decide⟩

theorem hyp_sample_step : (let s := busy samplePlan; let x := stepping2 samplePlan; let a := frame (standingAs samplePlan);
      loopPlaces s x = [a] ∧ (∀ g, stepAt s a ≠ some (.gate g)) ∧ atEnd s x.plan x.cores = true ∧ x.rerunAsked = false ∧
      looped.markPending = false ∧ x.plan.loopSamples.find? (fun q => q.lane == 0) = some { lane := 0, rank := 0, src := .acc 63 0 } ∧
      RowIs s a (.acc 63 0) 1 [0]) ∧ ({ stepping2 samplePlan with rerunAsked := true } : Loop).rerunAsked = true :=
  ⟨⟨by decide, fun g h => (by cases h), by decide, rfl, rfl, by decide, _, ⟨by decide, rfl⟩, by decide⟩, rfl⟩

/-- A stream with one committed chunk of 16 samples, and without it. -/
def chunk16 : Chunk := { uid := 9, start := 0, len := 16, committed := true, samples := List.replicate 16 0 }
def chunked (ks : List Chunk) : State :=
  { staged (cmdOf opFence []) [] [(1, { ctx := 5, state := 1, chunks := ks, blockLen := 16 })] [] with prov := { ring := some {} } }

theorem hyp_chunk_release : (let s := chunked [chunk16]; s.dev.mode = .serving ∧
      withholding s = false ∧ silenced s 5 = false ∧ chunk16 ∈ [chunk16] ∧ chunk16.committed = true ∧ chunk16.released = false ∧
      chunk16.start = 0 ∧ chunk16.final = false ∧
      (∀ j ∈ [chunk16], j = chunk16 ∨ j.uid ≠ chunk16.uid ∧ (j.start ≠ 0 ∨ j.committed = false ∨ j.released = true)) ∧ 0 < 16 ∧
      (({ } : Stream).markPending = false ∧ ({} : Stream).endIndex = none ∧ ({} : Stream).binding = none ∧
        ({} : Stream).finished = false ∧ ({} : Stream).loop = none) ∧ 0 + chunk16.samples.length < 2 ^ 48 - 1) ∧
    (let k := { chunk16 with committed := false }; ∀ j ∈ [k], j.released = false ∧ (j.committed = false ∨ j.start ≠ 0)) := by decide

-- ## Commands that packets carry

/-- A context descriptor of Table 12.1: id 5, one granule, one accumulator unit, one slot, a sump of 1 MiB. -/
def desc5 : Block := fields [(2, 5), (1, 63), (1, 0), (2, 0), (2, 1), (1, 1), (1, 1), (2, 0), (4, 0), (1, 0), (7, 0), (8, 0), (8, 2 ^ 20), (24, 0)]
/-- srv with a command in flight, host bytes at 0x1000, and no context. -/
def fresh (c : Cmd) (bs : Block) : State := { withHost c bs with ctxs := [] }
def ctxCreate : Cmd := cmdOf opCtxCreate (fields [(8, 0x1000)])

theorem hyp_ctx_create : Startable 7 opCtxCreate ctxCreate (fresh ctxCreate desc5) ∧ typedAddr (ctxCreate.p 0 8) = some (.host 0x1000) ∧
    addrOk (fresh ctxCreate desc5) (.host 0x1000) 64 = true ∧ (fresh ctxCreate desc5).ctx? 5 = none ∧
    readAt (.host 0x1000) 64 (startCmd 7 (fresh ctxCreate desc5)) = (.bytes desc5, startCmd 7 (fresh ctxCreate desc5)) ∧
    field desc5 0 2 = 5 ∧ failing (descChecks (startCmd 7 (fresh ctxCreate desc5)) 5 desc5) = [] :=
  ⟨⟨rfl, rfl, rfl, rfl, by decide⟩, by decide, by decide, by decide, by decide, by decide, by decide⟩

theorem hyp_ctx_simple : Startable 7 opCtxDestroy (cmdOf opCtxDestroy []) (withCmd (cmdOf opCtxDestroy [])) ∧
    Startable 7 opCtxPin (cmdOf opCtxPin [1]) (withCmd (cmdOf opCtxPin [1])) ∧ (cmdOf opCtxPin [1]).p 0 1 ≤ 1 :=
  ⟨⟨rfl, rfl, rfl, rfl, by decide⟩, ⟨rfl, rfl, rfl, rfl, by decide⟩, by decide⟩

/-- A pump-only command whose transfer runs on core 0. -/
def pumping (op : Nat) (params : Block) : Cmd :=
  { cmdOf op params with started := true, inPlace := true, phase := .running, cores := [0] }
def ctxSave : Cmd := pumping opCtxSave (fields [(8, 0x10000), (8, 2 ^ 20)])

theorem hyp_ctx_save : (let s := onCore7 (withCmd ctxSave); Pumping 7 opCtxSave ctxSave s ∧ (∀ e ∈ s.loops, 7 ∉ e.2.saves) ∧
      s.ctx? 5 = some ctx5 ∧ typedAddr (ctxSave.p 0 8) = some (.host 0x10000) ∧ s.upsets = {} ∧ s.cisPoison = [] ∧
      s.wellPoison = [] ∧ (∀ d, (s.well d).withdrawn = []) ∧
      (writeTo ctxSave.cores.head? (.host 0x10000) (saveImage s ctxSave ctx5).1 s).1 = true) :=
  ⟨⟨rfl, rfl, rfl, by decide, rfl⟩, by decide, by decide, by decide, rfl, rfl, rfl, fun _ => rfl, rfl⟩

/-- An image of Table 12.4 with a descriptor and nothing else. -/
def image5 : Block :=
  fields [(4, 0x474D4953), (2, 1), (1, 64), (1, 1), (2, 0), (2, 0), (4, 0), (16, 0)] ++ desc5 ++
  fields [(8, 256), (24, 0), (8, 256), (8, 256), (8, 256), (8, 256), (8, 256), (8, 256), (80, 0)]
def ctxRestore : Cmd := cmdOf opCtxRestore (fields [(8, 0x1000), (8, 256)])

theorem hyp_ctx_restore : (let s := fresh ctxRestore image5; Startable 7 opCtxRestore ctxRestore s ∧
      typedAddr (ctxRestore.p 0 8) = some (.host 0x1000) ∧ addrOk s (.host 0x1000) (ctxRestore.p 8 8) = true ∧ 256 ≤ ctxRestore.p 8 8 ∧
      s.ctx? 5 = none ∧ readAt (.host 0x1000) (ctxRestore.p 8 8) (startCmd 7 s) = (.bytes image5, startCmd 7 s) ∧
      failing (imgForm image5 (ctxRestore.p 8 8)) = [] ∧ failing (restoreChecks (startCmd 7 s) 5 image5) = [] ∧
      restoreSeqs 5 (imgSeqs image5) (imgEntries image5) (startCmd 7 s) = some (startCmd 7 s)) :=
  ⟨⟨rfl, rfl, rfl, rfl, by decide⟩, by decide, by decide, by decide, by decide, by decide, by decide, by decide, rfl⟩

def scrub : Cmd := pumping opScrub [2]
def snapshot (what : Nat) : Cmd := cmdOf opStatsSnapshot (fields [(8, 0x1000), (1, what)])

theorem hyp_scrub : (let s : State := { onCore7 (withCmd scrub) with ctxs := [(5, { pool := [3] })] };
      Pumping 7 opScrub scrub s ∧ Memory.wf s.wellMem = true ∧ bitOf (scrub.p 0 1) 0 = false ∧ bitOf (scrub.p 0 1) 1 = true ∧
      s.ctx? 5 = some { pool := [3] } ∧ 3 ∈ [3] ∧ (∀ d, (s.well d).withdrawn = []) ∧ inRange (3 * 65536) 65536 (4 * 65536 - 1)) ∧
    (Startable 7 opStatsSnapshot (snapshot 0) (withCmd (snapshot 0)) ∧ (snapshot 0).p 0 8 % 4096 = 0 ∧
      (snapshot 0).p 0 8 + 4096 ≤ 2 ^ 52 ∧ (snapshot 0).p 8 1 = 0) ∧
    Startable 7 opStatsSnapshot (snapshot 1) (withCmd (snapshot 1)) ∧ (snapshot 1).p 8 1 = 1 :=
  ⟨⟨⟨rfl, rfl, rfl, by decide, rfl⟩, by decide, by decide, by decide, by decide, by decide, fun _ => rfl, by unfold inRange; decide⟩,
    ⟨⟨rfl, rfl, rfl, rfl, by decide⟩, by decide, by decide, by decide⟩, ⟨rfl, rfl, rfl, rfl, by decide⟩, by decide⟩

def queueOpen : Cmd := cmdOf opQueueOpen (fields [(2, 1023), (1, 16), (1, 4), (2, 4096), (2, 0), (8, 0x1000), (8, 0x2000), (8, 0x3000)])
def queueClose : Cmd := { cmdOf opQueueClose [1] with queue := 2 }
def closing : Cmd := { queueClose with phase := .accepted, started := true, object := some 1 }

theorem hyp_queues : (Startable 7 opQueueOpen queueOpen (withCmd queueOpen) ∧ failing (queueOpenChecks (withCmd queueOpen) queueOpen) = []) ∧
    (let s := withCmd queueClose; Startable 7 opQueueClose queueClose s ∧ queueClose.p 0 2 ≠ 0 ∧
      s.queue? 1 = some { opened := true } ∧ (∀ d ∈ s.inflight, d.queue ≠ queueClose.p 0 2 ∨ d.opcode ≠ opStreamLoop)) ∧
    (let s := withCmd closing; s.cmd? 7 = some closing ∧ closing.phase = .accepted ∧ closing.started = true ∧
      closing.object = some 1 ∧ (∀ d ∈ s.inflight, d.queue ≠ 1 ∨ d.uid = 7) ∧ ∀ x, s.queue? 1 = some x → x.waits = []) ∧
    (let s : State := { withCmd closing with inflight := [closing, { cmdOf opFence [] with uid := 8 }] };
      ∃ d ∈ s.inflight, d.queue = 1 ∧ d.uid ≠ 7) :=
  ⟨⟨⟨rfl, rfl, rfl, rfl, by decide⟩, by decide⟩, ⟨⟨rfl, rfl, rfl, rfl, by decide⟩, by decide, by decide, by decide⟩,
    ⟨by decide, rfl, rfl, rfl, by decide, fun x h => by injection h with h; subst h; rfl⟩, by decide⟩

def killOf (q : Nat) : Cmd := cmdOf opKill (fields [(2, 1), (2, q)])
def waiting6 : Cmd := { cmdOf opValveWait [] with uid := 6, phase := .accepted, started := true }

theorem hyp_kill_fence : (let c := killOf 1023; Startable 7 opKill c (withCmd c) ∧ c.p 0 1 ≤ 2 ∧ c.p 0 1 ≠ 2 ∧ c.p 2 2 ≤ 1023 ∧
      killTargets (withCmd c) c = []) ∧
    (let c := killOf 1; let s : State := { withCmd c with inflight := [waiting6, c] };
      Startable 7 opKill c s ∧ killTargets s c = [waiting6] ∧ s.cmd? 6 = some waiting6 ∧ waiting6.opcode ≠ opStreamLoop) ∧
    Startable 7 opFence (cmdOf opFence []) (withCmd (cmdOf opFence [])) :=
  ⟨⟨⟨rfl, rfl, rfl, rfl, by decide⟩, by decide, by decide, by decide, by decide⟩,
    ⟨⟨rfl, rfl, rfl, rfl, by decide⟩, by decide, by decide, by decide⟩, rfl, rfl, rfl, rfl, by decide⟩

def signalOf (dev : Nat) : Cmd := cmdOf opValveSignal (fields [(2, 3), (2, dev), (4, 1)])
def valveWait (target : Nat) : Cmd := { cmdOf opValveWait (fields [(2, 3), (2, 0), (4, target), (4, 1)]) with phase := .accepted, started := true }

theorem hyp_valves : Startable 7 opValveSet (cmdOf opValveSet []) (withCmd (cmdOf opValveSet [])) ∧
    Startable 7 opValveSignal (signalOf 0xFFFF) (withCmd (signalOf 0xFFFF)) ∧ (signalOf 0xFFFF).p 2 2 = 0xFFFF ∧
    (Startable 7 opValveSignal (signalOf 5) (withCmd (signalOf 5)) ∧ (signalOf 5).p 2 2 < 2 ^ 14 ∧
      (withCmd (signalOf 5)).dev.numValid = false) ∧
    Startable 7 opValveWait { valveWait 0 with phase := .fetched, started := false }
      (withCmd { valveWait 0 with phase := .fetched, started := false }) ∧
    ((withCmd (valveWait 0)).cmd? 7 = some (valveWait 0) ∧ (valveWait 0).cores = [] ∧
      valveReached (withCmd (valveWait 0)) (valveWait 0) = true ∧
      valveReached (withCmd (valveWait 1)) (valveWait 1) = false ∧ (valveWait 1).p 8 4 ≠ 0) :=
  ⟨⟨rfl, rfl, rfl, rfl, by decide⟩, ⟨rfl, rfl, rfl, rfl, by decide⟩, by decide, ⟨⟨rfl, rfl, rfl, rfl, by decide⟩, by decide, by decide⟩,
    ⟨rfl, rfl, rfl, rfl, by decide⟩, by decide⟩

/-- R247: VALVE_SIGNAL of this device adds to the valve, modulo 2^32. -/
theorem test_valve_wraps : tget (after (.valveSignal 7) { withCmd (signalOf 0xFFFF) with valves := [(3, 0xFFFFFFFF)] }).valves 3 0 = 0 := by
  decide

def copy : Cmd := pumping opCopy (fields [(8, 0x1000), (8, 0x2000), (6, 4), (2, 0), (2, 0), (2, 1)])
def fill : Cmd := pumping opFill (fields [(8, 0x2000), (6, 9), (2, 0), (8, 0x0102030405060708), (2, 0), (2, 0)])

theorem hyp_copy : (let s : State := { onCore7 (withCmd copy) with host := mwrite [] 0x1000 [1, 2, 3, 4] };
      Pumping 7 opCopy copy s ∧ typedAddr (copy.p 0 8) = some (.host 0x1000) ∧ typedAddr (copy.p 8 8) = some (.host 0x2000) ∧
      readFrom copy.cores.head? (.host 0x1000) (copy.p 16 6) s = (.bytes [1, 2, 3, 4], s) ∧
      floatLive s (copy.p 24 2) (copy.p 26 2) = true ∧ (writeTo copy.cores.head? (.host 0x2000) [1, 2, 3, 4] s).1 = true ∧
      Memory.wf s.host = true ∧ Memory.wf s.cis = true) ∧
    (let s := onCore7 (withCmd fill); Pumping 7 opFill fill s ∧ typedAddr (fill.p 0 8) = some (.host 0x2000) ∧
      fillBytes (leBytes 8 (fill.p 16 8)) (fill.p 8 6) = [8, 7, 6, 5, 4, 3, 2, 1, 8] ∧ floatLive s (fill.p 24 2) (fill.p 26 2) = true ∧
      (writeTo fill.cores.head? (.host 0x2000) [8, 7, 6, 5, 4, 3, 2, 1, 8] s).1 = true) :=
  ⟨⟨⟨rfl, rfl, rfl, by decide, rfl⟩, by decide, by decide, rfl, by decide, by decide, by decide, by decide⟩,
    ⟨⟨rfl, rfl, rfl, by decide, rfl⟩, by decide, by decide, by decide, by decide⟩⟩

def siphonPut : Cmd := cmdOf opSiphonPut (fields [(4, 2 ^ 13 - 1), (2, 1), (2, 0), (2, 1), (6, 0), (1, 7)])
def arriving (u : Option Nat) (fromPlan : Bool) : State :=
  { region0 with inflight := [{ siphonPut with started := true, phase := .accepted }]
                 siphon := [{ dst := 2 ^ 13 - 1, data := [7], inc := 1, uid := u, fromPlan := fromPlan }] }

theorem hyp_siphon : (let s : State := { withCmd siphonPut with cores := region0.cores };
      Startable 7 opSiphonPut siphonPut s ∧ siphonDst s (siphonPut.p 0 4) (siphonPut.p 4 2) = true ∧
      floatTarget s (siphonPut.p 6 2) (siphonPut.p 8 2) = true) ∧ srv.siphon = [] ∧
    (let s : State := { arriving (some 7) false with cores := [] }; csAllowed s (2 ^ 13 - 1) 1 = false) ∧
    ((arriving (some 7) false).dev.mode = .serving ∧ csAllowed (arriving (some 7) false) (2 ^ 13 - 1) 1 = true ∧
      floatLive (arriving (some 7) false) 0 1 = true ∧ Memory.wf (arriving (some 7) false).cis = true ∧
      (arriving (some 7) false).cmd? 7 = some { siphonPut with started := true, phase := .accepted }) ∧
    ((arriving none false).siphon.map (fun x => x.uid) = [none] ∧ (arriving (some 7) true).siphon.map (fun x => x.fromPlan) = [true]) :=
  ⟨⟨⟨rfl, rfl, rfl, rfl, by decide⟩, by decide, by decide⟩, by decide, by decide, by decide, by decide⟩

def reside : Cmd := pumping opReside (fields [(8, 2 ^ 63), (2, 4095), (1, 0), (1, 1), (1, 1)])
def unreside : Cmd := cmdOf opUnreside (fields [(2, 4095), (1, 255), (1, 1)])

theorem hyp_reside : (let s := onCore7 (withCmd reside); Pumping 7 opReside reside s ∧
      failing (resideChecks s reside ++ imageChecks s reside { bytes := 64 }) = [] ∧ resideRoom s 4095 1 0 { bytes := 64 } [0] = true ∧
      readAt (.well 0) 64 s = (.bytes (List.replicate 64 0), (readAt (.well 0) 64 s).2) ∧ tget? s.images 4095 = none) ∧
    (let s : State := { withCmd unreside with images := [(4095, { owners := [(255, 5), (3, 6)] })] };
      Startable 7 opUnreside unreside s ∧ unreside.p 0 2 < 4096 ∧ thas s.images (unreside.p 0 2) = true ∧
      unreside.p 2 1 + unreside.p 3 1 ≤ 256 ∧ (∀ g ∈ [255], s.dieIn (dieOfCore g) = true) ∧
      (∀ g ∈ [255], planOn s g = true → imageRegion s 4095 g = none) ∧
      (∀ o ∈ (tget s.images (unreside.p 0 2) {}).owners, o.1 ∈ [255] → o.2 = unreside.ctx)) ∧
    (let c := { unreside with phase := .accepted, started := true };
      let s : State := { withCmd c with cores := [(255, { running := some 8, regions := List.replicate 4 {} ++ [{ kind := 2, owner := 4095, valid := true }] })]
                                        inflight := [c, { cmdOf opRun [] with uid := 8, phase := .running }] };
      s.cmd? 7 = some c ∧ ∃ g ∈ [255], planOn s g = true ∧ (imageRegion s 4095 g).isSome = true) :=
  ⟨⟨⟨rfl, rfl, rfl, by decide, rfl⟩, by decide, by decide, rfl, by decide⟩,
    ⟨⟨rfl, rfl, rfl, rfl, by decide⟩, by decide, by decide, by decide, by decide, by decide, by decide⟩, by decide⟩

/-- RUN with its plan in well space, and with an argument block at 0x1000. -/
def runOf (args : Nat) : Cmd := { cmdOf opRun (fields [(8, 2 ^ 63), (8, args), (16, 0)]) with drawClass := 1 }
def args0 : Block := fields [(4, 0), (2, 0xFFFF), (58, 0)]

theorem hyp_run : (let s := withCmd (runOf 0); s.upsets = {} ∧ s.wellPoison = [] ∧ (∀ d, (s.well d).withdrawn = []) ∧
      Startable 7 opRun (runOf 0) s ∧ s.ctx? 5 = some ctx5 ∧ wellOk s ((runOf 0).p 0 8) 1 = true ∧ (runOf 0).p 24 8 = 0 ∧
      (runOf 0).p 8 8 = 0 ∧ failing (planChecks s (runOf 0) ctx5 {} false 1 ++ kvChecks s (runOf 0) {} {}) = []) ∧
    (let s := withHost (runOf 0x1000) args0; Startable 7 opRun (runOf 0x1000) s ∧ (runOf 0x1000).p 8 8 ≠ 0 ∧
      typedAddr ((runOf 0x1000).p 8 8) = some (.host 0x1000) ∧
      64 + 16 * min 128 (field (peekAt s ((runOf 0x1000).p 8 8) 2) 0 2) = 64 ∧ addrOk s (.host 0x1000) 64 = true ∧
      readAt (.host 0x1000) 64 s = (.bytes args0, s) ∧ s.ctx? 5 = some ctx5 ∧
      failing (runArgChecks args0 ++ planChecks s (runOf 0x1000) ctx5 {} false 1 ++ kvChecks s (runOf 0x1000) {} (runArgsOf args0) ++
        chunkChecks s (runOf 0x1000) ctx5 (runArgsOf args0)) = [] ∧ silenced s 5 = false) :=
  ⟨⟨rfl, rfl, fun _ => rfl, ⟨rfl, rfl, rfl, rfl, by decide⟩, by decide, by decide, by decide, by decide, by decide⟩,
    ⟨rfl, rfl, rfl, rfl, by decide⟩, by decide, by decide, by decide, by decide, rfl, by decide, by decide, by decide⟩

def seqOpen (ring : Nat) : Cmd :=
  cmdOf opKvSeqOpen (fields [(2, 3), (1, ring), (1, 4), (1, 1), (1, 0), (1, 1 - ring), (1, 7), (2, 64), (2, 0), (4, 2), (4, 17 * ring)])

theorem hyp_kv_open : (let c := seqOpen 0; let s := withCmd c; Startable 7 opKvSeqOpen c s ∧ c.p 0 2 ≠ 0xFFFF ∧ tget? s.seqs 3 = none ∧
      failing (seqChecks s (seqOfParams c) (inParams c)) = [] ∧ findSpan s 7 2 = some (7 * 2 ^ 19) ∧ (seqOfParams c).ring = false) ∧
    (let c := seqOpen 1; let s : State := { withCmd c with ctxs := [(5, { pool := [8, 9] })] }; Startable 7 opKvSeqOpen c s ∧
      failing (seqChecks s (seqOfParams c) (inParams c)) = [] ∧ findSpan s 7 2 = some (7 * 2 ^ 19) ∧ (seqOfParams c).ring = true ∧
      (seqOfParams c).mapSpan ≤ (poolOf s 5).length) :=
  ⟨⟨⟨rfl, rfl, rfl, rfl, by decide⟩, by decide, by decide, by decide, by decide, by decide⟩,
    ⟨rfl, rfl, rfl, rfl, by decide⟩, by decide, by decide, by decide, by decide⟩

/-- A part with sequence 3 of context 5, its block 9 in entry 4. -/
def kv (c : Cmd) : State :=
  { withCmd c with seqs := [(3, { ctx := 5, mapSpan := 8 })], map := [(4, { page := 1, seq := 3, block := 9 })] }
def policy (op : Nat) (seq rest : Nat) : Cmd :=
  cmdOf opKvPolicy (fields [(1, op), (1, 0), (2, seq), (1, 64), (1, 7), (2, 1023), (4, 1000000), (2, rest), (2, 0), (4, 3), (4, 1)])

theorem hyp_kv_policy : (Startable 7 opKvSeqClose (cmdOf opKvSeqClose [3]) (kv (cmdOf opKvSeqClose [3])) ∧
      ownSeq (kv (cmdOf opKvSeqClose [3])) (cmdOf opKvSeqClose [3]) 3 = true) ∧
    (let c := policy 0 0xFFFF 0; Startable 7 opKvPolicy c (kv c) ∧ c.p 0 1 = 0 ∧ c.p 2 2 = 0xFFFF ∧ c.p 8 4 ≤ 1000000) ∧
    (let c := policy 0 3 0; Startable 7 opKvPolicy c (kv c) ∧ c.p 2 2 ≠ 0xFFFF ∧
      (tget? (kv c).seqs (c.p 2 2)).map (fun x => (x.ctx, x.ring)) = some (5, false) ∧ c.p 4 1 ≤ 64 ∧ 1 ≤ c.p 5 1 ∧
      c.p 5 1 ≤ 7 ∧ c.p 6 2 < 1024) ∧
    (let c := policy 1 0 0; Startable 7 opKvPolicy c (kv c) ∧ c.p 0 1 = 1 ∧ 1 ≤ c.p 20 4 ∧ c.p 20 4 ≤ 524224 ∧
      ∀ p ∈ (List.range (c.p 20 4)).map (c.p 16 4 + ·), grantable (kv c) p = true) ∧
    (let c := policy 2 3 9; Startable 7 opKvPolicy c (kv c) ∧ c.p 0 1 = 2 ∧
      (liveEntries (kv c) (c.p 2 2)).find? (fun e => e.2.block == c.p 12 2) = some (4, { page := 1, seq := 3, block := 9 })) ∧
    (let c := policy 3 3 9; Startable 7 opKvPolicy c (kv c) ∧ c.p 0 1 = 3) :=
  ⟨⟨⟨rfl, rfl, rfl, rfl, by decide⟩, by decide⟩, ⟨⟨rfl, rfl, rfl, rfl, by decide⟩, by decide, by decide, by decide⟩,
    ⟨⟨rfl, rfl, rfl, rfl, by decide⟩, by decide, by decide, by decide, by decide, by decide, by decide⟩,
    ⟨⟨rfl, rfl, rfl, rfl, by decide⟩, by decide, by decide, by decide, by decide⟩,
    ⟨⟨rfl, rfl, rfl, rfl, by decide⟩, by decide, by decide⟩, ⟨rfl, rfl, rfl, rfl, by decide⟩, by decide⟩

/-- A RUN that waits for a page of sequence 3: it appends one token, and the pool is empty or not. -/
def appendArgs : Block := fields [(2, 1), (2, 0), (2, 0xFFFF), (58, 0), (2, 3), (1, 0), (1, 1), (4, 1), (8, 0)]
def kvWaiting : Cmd := { runOf 0x1000 with phase := .kvWait, argBlock := some appendArgs, plan := some {} }
def kvWaits (pool : List Nat) : State :=
  { withCmd kvWaiting with seqs := [(3, { ctx := 5, mapSpan := 8 })], ctxs := [(5, { pool := pool })] }

theorem hyp_kv_wait : ((kvWaits [8]).cmd? 7 = some kvWaiting ∧ kvWaiting.phase = .kvWait ∧ (runOf 0).phase ≠ .kvWait) ∧
    (let s := kvWaits [8]; let ks := (argsOf s kvWaiting).bindings;
      (secureFrom s ks (needsOf s ks) (poolOf s 5) []).toOption.isSome = true) ∧
    (let s := kvWaits []; let ks := (argsOf s kvWaiting).bindings; secureFrom s ks (needsOf s ks) (poolOf s 5) [] = .error 3) := by
  decide

def rngKey : Cmd := cmdOf opRngKey (List.replicate 32 1)
def rngGet (l : Nat) : Cmd := cmdOf opRngStateGet (fields [(8, 0x1000), (2, l)])

theorem hyp_rng : (let s := withCmd rngKey; Startable 7 opRngKey rngKey s ∧
      (s.loops.filter (fun e => e.2.ctx == rngKey.ctx && !e.2.stopped && !e.2.dead)).map Prod.fst = []) ∧
    (let s := staged rngKey [(2, loop5)] [] []; Startable 7 opRngKey rngKey s ∧
      (s.loops.filter (fun e => e.2.ctx == rngKey.ctx && !e.2.stopped && !e.2.dead)).map Prod.fst ≠ []) ∧
    (let c := rngGet 0xFFFF; let s := withCmd c; Startable 7 opRngStateGet c s ∧ c.p 8 2 = 0xFFFF ∧ tget? s.loops (c.p 8 2) = none ∧
      c.p 0 8 % 64 = 0 ∧ c.p 0 8 + (rngRecord ctx5 none).length ≤ 2 ^ 52) ∧
    (let c := rngGet 2; let s := staged c [(2, loop5)] [] []; Startable 7 opRngStateGet c s ∧ tget? s.loops (c.p 8 2) = some loop5 ∧
      loop5.ctx = c.ctx ∧ loop5.dead = false) :=
  ⟨⟨⟨rfl, rfl, rfl, rfl, by decide⟩, by decide⟩, ⟨⟨rfl, rfl, rfl, rfl, by decide⟩, by decide⟩,
    ⟨⟨rfl, rfl, rfl, rfl, by decide⟩, by decide, by decide, by decide, by decide⟩,
    ⟨rfl, rfl, rfl, rfl, by decide⟩, by decide, by decide, by decide⟩

-- ## Steps of a running plan

/-- RUN 7 of context 5 on core 0, which holds a region of four granules and 256 accumulator rows; memory is all zeros. -/
def runR (p : Plan) : Cmd := { runOf 0 with phase := .running, plan := some p, cores := [0], started := true }
def engaged (c : Cmd) : State :=
  { withCmd c with cores := [(0, { regions := [{ base := 0, size := 4, owner := 5, valid := true, accSize := 4 }], running := some 7 })] }
/-- A plan of one step. -/
def one (st : PlanStep) : Plan := { steps := [[st]] }
def at7 (st : PlanStep) : State := engaged (runR (one st))
def place7 (st : PlanStep) : At := frame (runR (one st))

theorem engaged_ok (p : Plan) : Engaged 0 (frame (runR p)) (engaged (runR p)) :=
  ⟨rfl, rfl, rfl, ⟨rfl, rfl, rfl⟩, fun _ => rfl⟩

theorem hyp_memories_ok : MemoriesOk (engaged (runR {})) := ⟨rfl, rfl, rfl⟩

theorem stands (st : PlanStep) : StandsAt 0 (place7 st) st (at7 st) := ⟨engaged_ok _, rfl, rfl⟩

/-- A run that has been widened. -/
def wide (p : Plan) : Cmd := { runR p with widened := true }

theorem stands_wide (st : PlanStep) : StandsAt 0 (frame (wide (one st))) st (engaged (wide (one st))) :=
  ⟨⟨rfl, rfl, rfl, ⟨rfl, rfl, rfl⟩, fun _ => rfl⟩, rfl, rfl⟩

theorem reads (c : Cmd) (off n : Nat) (h : off + n ≤ 4 * 8192) :
    Readable (engaged c) (frame c) none off n (mread (engaged c).cis (csAddr 0 (0 * 8192 + off)) n) := ⟨_, rfl, h, rfl⟩

theorem writes (c : Cmd) (off n : Nat) (h : off + n ≤ 4 * 8192) : Writable (engaged c) (frame c) off n := ⟨_, rfl, h⟩

/-- Keys of a row of the share. -/
def rowKeys (row : Nat) : List Nat := (List.range 64).map (fun i => accKey 0 row i)

theorem row_at (c : Cmd) (hl : c.opcode = opRun) (hs : (c.plan.getD {}).stateRows = 0) (row : Nat) (h : row < 256) :
    RowAt (engaged c) (frame c) row 0 64 (rowKeys row) := by
  have e : ∀ r, entryRow (engaged c) (frame c) r = r := by
    intro r
    have l : loopOfAt (engaged c) (frame c) = none := by simp [loopOfAt, loopOfCmd, frame, hl, opRun, opStreamLoop]
    have p : (frame c).plan.stateRows = 0 := hs
    simp [entryRow, stateArea, l, p]
  have r : ownRegion (engaged c) (frame c) = { base := 0, size := 4, owner := 5, valid := true, accSize := 4 } := rfl
  constructor
  · intro i hi
    rw [e, r]
    show row + (0 + i) / 64 < 256
    omega
  · apply List.map_congr_left
    intro i hi
    have hi := List.mem_range.mp hi
    rw [e, r]
    show accKey 0 row i = accKey 0 (0 * 64 + (row + (0 + i) / 64)) ((0 + i) % 64)
    simp only [accKey]
    omega

theorem row7 (st : PlanStep) (row : Nat) (h : row < 256) : RowAt (at7 st) (place7 st) row 0 64 (rowKeys row) :=
  row_at _ rfl rfl row h

/-- The codes of a tile that lies in the region. -/
theorem tile (c : Cmd) (w : Weights) (first n : Nat) (hi : w.image = none)
    (h : w.codeOff + 63 * codeBytes w.pair (unitK w) + codeBytes w.pair first + codeBytes w.pair n ≤ 4 * 8192) :
    ∃ cs, TileIs (engaged c) (frame c) w first n cs := by
  refine ⟨(List.range 64).map (fun j => splitCodes w.pair n (mread (engaged c).cis (csAddr 0 (0 * 8192 +
    (w.codeOff + j * codeBytes w.pair (unitK w) + codeBytes w.pair first))) (codeBytes w.pair n))), by simp, fun j hj => ?_⟩
  have b := Nat.mul_le_mul_right (codeBytes w.pair (unitK w)) (Nat.le_of_lt_succ hj : j ≤ 63)
  rw [hi]
  exact ⟨_, reads c _ _ (by omega), by simp [hj]⟩

/-- A parked lane's step, and commands that find no step of theirs. -/
theorem hyp_idle_steps : (let st : PlanStep := .recur (some 1) 0; let a := frame (standingAs (one st));
      (busy (one st)).dev.mode = .serving ∧ at? (busy (one st)) 0 = some a ∧ stepAt (busy (one st)) a = some st ∧
      parkedStep (busy (one st)) a st = true ∧ carriesOut 0 (.recStep 0) st) ∧
    (carriesOut 0 (.narrow 0) (.narrow { pieces := [] }) ∧ at? srv 0 = none) ∧
    ∀ st, stepAt (at7 (.noise 0 0)) (place7 (.noise 0 0)) = some st → ¬ carriesOut 0 (.narrow 0) st := by
  refine ⟨⟨rfl, by decide, by decide, by decide, rfl⟩, ⟨rfl, by decide⟩, fun st h => ?_⟩
  injection h with h
  subst h
  exact id

def tileB4 : Weights := { pair := .b4a8, gsize := 1, codeOff := 0, scaleOff := 0x2000, gsumOff := 0x4000 }
def tileW8 : Weights := { pair := .w8a8, codeOff := 0x1000, scaleOff := 0x3000, gsumOff := 0x4000 }
def tileBf : Weights := { pair := .bf16, gsize := 0, codeOff := 0x1000 }
def slice (w : Weights) : MSlice :=
  { w := w, entry := 255, actOff := 0, scaleBlock := 0x7000, trailer := 0x7800, opens := true, final := true }

/-- A slice that compares the tags of its blocks, which agree, or differ. -/
theorem hyp_slice_tags : (let op := slice tileB4; let c := runR (one (.matmul op));
      (op.w.pair ≠ .bf16 ∧ (c.widened = true → op.wide = none) ∧ op.opens = true) ∧
      TagsAgree (engaged c) (frame c) op.trailer op.scaleBlock ∧ c.opcode = opRun) ∧
    (let op := slice tileB4; let c := runR (one (.matmul op)); let s : State := { engaged c with cis := [(0x7800, 1)] };
      StandsAt 0 (frame c) (.matmul op) s ∧ Readable s (frame c) none op.trailer 2 [1, 0] ∧
      Readable s (frame c) none (op.scaleBlock + 0x140) 2 [0, 0] ∧ (s.ctx? 5).isSome = true) :=
  ⟨⟨by decide, ⟨_, reads _ _ _ (by decide), reads _ _ _ (by decide)⟩, rfl⟩,
    ⟨⟨rfl, rfl, rfl, ⟨rfl, rfl, rfl⟩, fun _ => rfl⟩, rfl, rfl⟩, ⟨_, rfl, by decide, by decide⟩, ⟨_, rfl, by decide, by decide⟩, rfl⟩

/-- Groups of 32 in B4, and the second half of a group of 128 in W8. -/
theorem hyp_slice_narrow : (let op := slice tileB4; let c := runR (one (.matmul op));
      sliceK op.w.pair = unitK op.w ∧ RowAt (engaged c) (frame c) op.entry 0 64 (rowKeys 255) ∧
      (∃ x, Readable (engaged c) (frame c) none op.actOff (sliceK op.w.pair) x) ∧
      (∃ cs, TileIs (engaged c) (frame c) op.w 0 (sliceK op.w.pair) cs) ∧ (∃ sc sm, GroupsAre (engaged c) (frame c) op.w sc sm) ∧
      (∃ zb, Readable (engaged c) (frame c) none (op.scaleBlock + 0x100 + op.token) 1 zb) ∧
      ∃ sa zp, ScaleIs (engaged c) (frame c) op.scaleBlock op.token sa zp) ∧
    (let op := slice tileW8; let c := runR (one (.matmul op)); sliceK op.w.pair < unitK op.w ∧ op.second = true ∧
      (∃ cs, TileIs (engaged c) (frame c) op.w (sliceK op.w.pair) (sliceK op.w.pair) cs) ∧
      ∃ sc sm, GroupsAre (engaged c) (frame c) op.w sc sm) ∧
    (let op : MSlice := { slice tileW8 with second := false, final := false }; let c := runR (one (.matmul op));
      op.second = false ∧ op.final = false ∧ ∃ cs, TileIs (engaged c) (frame c) op.w 0 (sliceK op.w.pair) cs) :=
  ⟨⟨by decide, row7 _ _ (by decide), ⟨_, reads _ _ _ (by decide)⟩, tile _ _ _ _ rfl (by decide),
      ⟨_, _, reads _ _ _ (by decide), reads _ _ _ (by decide)⟩, ⟨_, reads _ _ _ (by decide)⟩,
      _, _, _, _, reads _ _ _ (by decide), reads _ _ _ (by decide), rfl, rfl⟩,
    ⟨by decide, rfl, tile _ _ _ _ rfl (by decide), _, _, reads _ _ _ (by decide), reads _ _ _ (by decide)⟩,
    rfl, rfl, tile _ _ _ _ rfl (by decide)⟩

/-- BF16 weights, and a widened run that decodes codes or reads wide values. -/
theorem hyp_slice_wide : (let op := slice tileBf; let c := runR (one (.matmul op));
      (∃ cs, TileIs (engaged c) (frame c) op.w 0 (sliceK op.w.pair) cs) ∧
      ∃ b, Readable (engaged c) (frame c) none op.actOff (2 * sliceK op.w.pair) b) ∧
    (let op := slice tileW8; let c := wide (one (.matmul op)); StandsAt 0 (frame c) (.matmul op) (engaged c) ∧ op.wide = none ∧
      (∃ cs, TileIs (engaged c) (frame c) op.w 64 (sliceK op.w.pair) cs) ∧
      (∃ sc, Readable (engaged c) (frame c) op.w.image op.w.scaleOff (2 * 64 * unitGroups op.w) sc) ∧
      (∃ b, Readable (engaged c) (frame c) none op.actOff (sliceK op.w.pair) b) ∧
      ∃ sa zp, ScaleIs (engaged c) (frame c) op.scaleBlock op.token sa zp) ∧
    (let op : MSlice := { slice tileW8 with wide := some (.fp32 0) }; let c := wide (one (.matmul op));
      ∃ ys, ValuesAre (engaged c) (frame c) (.fp32 0) (sliceK op.w.pair) ys) :=
  ⟨⟨tile _ _ _ _ rfl (by decide), _, reads _ _ _ (by decide)⟩,
    ⟨stands_wide _, rfl, tile _ _ _ _ rfl (by decide), ⟨_, reads _ _ _ (by decide)⟩, ⟨_, reads _ _ _ (by decide)⟩,
      _, _, _, _, reads _ _ _ (by decide), reads _ _ _ (by decide), rfl, rfl⟩,
    _, _, ⟨_, reads _ _ _ (by decide), rfl⟩, rfl⟩

/-- The output stage narrows the entry row of a FINAL slice. -/
theorem hyp_slice_final : (let z : NarrowOp := { fmt := .b4 0x3F80, pieces := [{ src := .acc 255 0, width := 64, out := 0x6000 }] };
    let op : MSlice := { slice tileBf with narrow := some z }; op.final = true ∧ op.narrow = some z ∧
      ∃ q, Yields (narrowStep (place7 (.matmul op)) z) (at7 (.matmul op)) () q) :=
  ⟨rfl, rfl, _, rfl⟩

theorem values_row (c : Cmd) (hl : c.opcode = opRun) (hs : (c.plan.getD {}).stateRows = 0) (row : Nat) (h : row < 256) :
    ∃ xs, xs.length = 64 ∧ ValuesAre (engaged c) (frame c) (.acc row 0) 64 xs :=
  ⟨_, by simp [valuesAt, rowKeys], _, ⟨_, row_at c hl hs row h, rfl⟩, rfl⟩

theorem fits (c : Cmd) (out : Nat) (p : NarrowPiece) (xs : List Fl) (bs : List Byte) (h : out + bs.length ≤ 4 * 8192)
    (k : ∀ off, p.keep = some off → off + 2 * (xs.length + p.pads) ≤ 4 * 8192) :
    piecesFit (engaged c) (frame c) [(out, p, xs, bs)] := by
  intro q hq
  rw [List.mem_singleton] at hq
  subst hq
  exact ⟨writes _ _ _ h, fun off e => writes _ _ _ (k off e)⟩

/-- A row of 64 values that goes out in B4, in W8 or in A8, with padding and a line buffer. -/
def piece : NarrowPiece := { src := .acc 255 0, width := 64, out := 0x6000, pads := 4, keep := some 0x6800 }
def narrowOp (f : NarrowFmt) (b : Option DataBlock) (sr : Nat) : NarrowOp :=
  { fmt := f, pieces := [piece], scaleBlock := 0x7000, block := b, srBits := sr }
def block8 : DataBlock := { base := 0x5000, rows := 1, tokens := 1, stream := 0, complete := true }

theorem hyp_narrow (f : NarrowFmt) (b : Option DataBlock) (sr : Nat) (out : Nat) (bs : List Byte) (h : bs.length ≤ 72)
    (ho : out ≤ 0x6000) :
    (let op := narrowOp f b sr; let c := runR (one (.narrow op)); StandsAt 0 (frame c) (.narrow op) (engaged c) ∧
      ∃ xs, ValuesAre (engaged c) (frame c) piece.src piece.width xs ∧ [xs].length = op.pieces.length ∧
        piecesFit (engaged c) (frame c) [(out, piece, xs, bs)]) := by
  obtain ⟨xs, hx, hv⟩ := values_row (runR (one (.narrow (narrowOp f b sr)))) rfl rfl 255 (by decide)
  refine ⟨stands _, xs, hv, rfl, fits _ _ _ _ _ (by omega) fun off e => ?_⟩
  injection e with e
  subst e
  rw [hx]
  decide

/-- The rest of what a narrowing to A8 reads and writes, with and without draws, at a HISTORY point or not, in a data block. -/
theorem hyp_narrow_a8 : (let op := narrowOp .a8 (some block8) 8; let p : Plan := { one (.narrow op) with scalePoints := [0] };
      let c := runR p; let s := engaged c; let a := frame c;
      StandsAt 0 a (.narrow op) s ∧ (scalePoint 0).src = 0 ∧ (scalePoint (BitVec.ofNat 64 3)).src ≠ 0 ∧
      Writable s a ((scalePoint 0).histBase + 256 * op.slot + 128) 128 ∧ ¬ clearsSlot s a op.slot op.draw.t ∧
      (∃ bits, DrawnRows a op 0 op.pieces s bits) ∧ Writable s a (op.scaleBlock + 4 * op.token) 4 ∧
      Writable s a (op.scaleBlock + 0x100 + op.token) 1 ∧ Writable s a (op.scaleBlock + 0x142) 190 ∧
      Writable s a (op.scaleBlock + 0x140) 2 ∧ Writable s a (block8.base + block8.rows * 512 - 64) 64) :=
  ⟨⟨engaged_ok _, rfl, rfl⟩, by decide, by decide, writes _ _ _ (by decide),
    fun ⟨i, t, m, h, _⟩ => (by cases h), ⟨_, _, _, _, rfl, rfl, rfl⟩, writes _ _ _ (by decide), writes _ _ _ (by decide),
    writes _ _ _ (by decide), writes _ _ _ (by decide), writes _ _ _ (by decide)⟩

/-- A chunk of stream 1 that a mark at its first sample concerns: the slot's history is cleared. -/
theorem hyp_narrow_mark : (let c : Cmd := { runR { one (.narrow (narrowOp .a8 none 0)) with scalePoints := [0] } with
        params := (runOf 0x1000).params
        argBlock := some (fields [(4, 0), (2, 1), (2, 0), (8, 0), (4, 16), (44, 0)]) };
      let s : State := { engaged c with streams := [(1, { ctx := 5, chunks := [{ uid := 7, start := 0, len := 16, mark := some 0 }] })] };
      clearsSlot s (frame c) 0 0 ∧ ∀ o ∈ slotHistory (frame c) 0, Writable s (frame c) (o + 0x44) 2 ∧ Writable s (frame c) (o + 0x48) 4) := by
  refine ⟨⟨1, 0, 0, by decide, by decide, by decide, by decide⟩, fun o h => ?_⟩
  have e : o = 128 := by
    have := (List.mem_singleton (a := o) (b := 128)).mp h
    exact this
  subst e
  exact ⟨⟨_, rfl, by decide⟩, _, rfl, by decide⟩

/-- A biquad (TYPE 2) with error feedback: input row 200, output row 201, coefficients from row 210, state from row 0. -/
def biquad : W64 := BitVec.ofNat 64 (2 + 4 + 210 * 2 ^ 4 + 200 * 2 ^ 28 + 201 * 2 ^ 40)

theorem hyp_rec : (let st : PlanStep := .recur none biquad; let r := recOf biquad; StandsAt 0 (place7 st) st (at7 st) ∧
      (∀ j < recCoefRows r.kind, RowAt (at7 st) (place7 st) (r.coef + j) 0 64 (rowKeys (r.coef + j))) ∧
      (∀ j < recStateRows r.kind false + b2n r.ef,
        RowAt (at7 st) (place7 st) ((stateArea (at7 st) (place7 st)).1 + r.st + j) 0 64 (rowKeys j)) ∧
      (∀ i j, i < j → ∀ k ∈ rowKeys i, k ∉ rowKeys j) ∧ RowAt (at7 st) (place7 st) r.inp 0 64 (rowKeys r.inp) ∧
      RowAt (at7 st) (place7 st) r.out 0 64 (rowKeys r.out)) := by
  refine ⟨stands _, fun j h => row7 _ _ ?_, fun j h => ?_, fun i j h k hi hj => ?_, row7 _ _ (by decide), row7 _ _ (by decide)⟩
  · have h5 : j < 5 := h
    show 210 + j < 256
    omega
  · have h5 : j < 5 := h
    have e : (stateArea (at7 (.recur none biquad)) (place7 (.recur none biquad))).1 + (recOf biquad).st + j = j :=
      (show 0 + 0 + j = j by omega)
    rw [e]
    exact row7 _ _ (by omega)
  · simp only [rowKeys, List.mem_map, List.mem_range, accKey] at hi hj
    obtain ⟨x, hx, rfl⟩ := hi
    obtain ⟨y, hy, e⟩ := hj
    omega

/-- ARGMAX and GUMBEL_ARGMAX over a row, and NOISE. -/
theorem hyp_results : (let op : ArgmaxOp := { src := .bf16 0, channels := 64, outOff := 32766, valueOff := some 0 };
      let st : PlanStep := .argmax op; StandsAt 0 (place7 st) st (at7 st) ∧ (∃ vs, RowIs (at7 st) (place7 st) op.src op.channels vs) ∧
      (∃ xs, ValuesAre (at7 st) (place7 st) op.src op.channels xs) ∧ Writable (at7 st) (place7 st) op.outOff 2 ∧
      Writable (at7 st) (place7 st) 0 2) ∧
    (let op : GumbelOp := { src := .fp32 0, channels := 64, draw := {}, outOff := 32766 };
      let st : PlanStep := .gumbel op; (∃ xs, ValuesAre (at7 st) (place7 st) op.src op.channels xs) ∧
      Writable (at7 st) (place7 st) op.outOff 2 ∧
      ∃ ks r, Yields (draws (place7 st) op.draw 24 (firstLane op.src) op.channels 0) (at7 st) ks r) ∧
    (let st : PlanStep := .noise 0 255; RowAt (at7 st) (place7 st) 0 0 64 (rowKeys 0) ∧
      RowAt (at7 st) (place7 st) 255 0 64 (rowKeys 255)) :=
  ⟨⟨stands _, ⟨_, _, reads _ _ _ (by decide), rfl⟩, ⟨_, _, ⟨_, reads _ _ _ (by decide), rfl⟩, rfl⟩, writes _ _ _ (by decide),
      writes _ _ _ (by decide)⟩,
    ⟨⟨_, _, ⟨_, reads _ _ _ (by decide), rfl⟩, rfl⟩, writes _ _ _ (by decide), _, _, rfl⟩, row7 _ _ (by decide), row7 _ _ (by decide)⟩

/-- The other formats of a row (Table 4.3). -/
theorem hyp_rows : (∃ xs, ValuesAre (engaged (runR {})) (frame (runR {})) (.a8 0) 64 xs) ∧
    ∃ xs, ValuesAre (engaged (runR {})) (frame (runR {})) (.a8block 0 0x7000 0 0x7800) 64 xs :=
  ⟨⟨_, _, ⟨_, reads _ _ _ (by decide), rfl⟩, rfl⟩, _, _, ⟨_, reads _ _ _ (by decide), rfl⟩,
    ⟨_, reads _ _ _ (by decide), reads _ _ _ (by decide)⟩, _, _, ⟨_, _, reads _ _ _ (by decide), reads _ _ _ (by decide), rfl, rfl⟩, rfl⟩

/-- A 1 x 1 convolution of 16 channels in one line at offset 0. -/
def convBlock : Block :=
  fields [(4, 0), (2, 1), (2, 0), (2, 16), (2, 64), (2, 1), (2, 1), (4, 1), (1, 1), (1, 1), (2, 0), (2, 1), (2, 1), (2, 1), (2, 1), (8, 0), (4, 0),
    (4, 0), (4, 1), (4, 0x4000), (2, 1), (1, 4), (5, 0)]
def conv7 : ConvOp := { block := convBlock, w := { tileB4 with codeOff := 0x1000 }, scaleBlock := 0x7000, store := true }

theorem hyp_conv : (let k := convBlk convBlock; let st : PlanStep := .conv conv7; let s := at7 st; let a := place7 st;
      StandsAt 0 a st s ∧ RowAt s a conv7.entry 0 64 (rowKeys 0) ∧ (k.inBf = false ∧ a.cmd.widened = false) ∧
      (∀ t ∈ tapsOf k, tapOf k (convEdges s a k conv7).1 (convEdges s a k conv7).2 0 0 t.1 t.2 = .real 0 0) ∧
      tileChans k 0 = (0, 16) ∧ tileCt k 0 = 16 ∧ (∃ sa zp, ScaleIs s a conv7.scaleBlock conv7.token sa zp) ∧
      (∀ sa zp, ∀ c < 16, ∃ v, ElemIs s a k conv7 sa zp (0 + c) 0 0 v) ∧
      (∃ cs, TileIs s a (tileAt conv7.w 0) 0 (unitK conv7.w) cs) ∧ (∃ sc sm, GroupsAre s a (tileAt conv7.w 0) sc sm) ∧
      cdiv 16 (unitK conv7.w) = 1 ∧ ∀ vs, ∀ c ∈ convCells k conv7 vs, Writable s a c.1 2) := by
  refine ⟨stands _, row7 _ _ (by decide), by decide, by decide, by decide, by decide,
    ⟨_, _, _, _, reads _ _ _ (by decide), reads _ _ _ (by decide), rfl, rfl⟩, fun sa zp c h => ?_, tile _ _ _ _ rfl (by decide),
    ⟨_, _, reads _ _ _ (by decide), reads _ _ _ (by decide)⟩, by decide, fun vs c h => ?_⟩
  · have all : ∀ c < 16, (convBlk convBlock).inBase + inOffset (convBlk convBlock) 1 conv7.n (0 + c) 0 0 + 1 ≤ 4 * 8192 := by decide
    exact ⟨_, _, reads _ _ _ (all c h), rfl⟩
  · obtain ⟨i, hi, rfl⟩ := List.mem_map.mp h
    have all : ∀ i < 64, (convBlk convBlock).outOffset conv7.n (64 * conv7.tile + i) conv7.ho conv7.wo + 2 ≤ 4 * 8192 := by decide
    exact writes _ _ _ (all i (List.mem_range.mp (List.mem_filter.mp hi).1))

/-- The entries after each tile, whichever of its cases holds. -/
theorem hyp_conv_outs (real : Nat → Prop) (wide : Prop) (e : List Nat) (f g h : Nat → List Nat → List Nat) :
    ∃ outs : Nat → List Nat, outs 0 = e ∧ ∀ u, (¬ real u → outs (u + 1) = f u (outs u)) ∧
      (real u → wide → outs (u + 1) = g u (outs u)) ∧ (real u → ¬ wide → outs (u + 1) = h u (outs u)) := by
  classical
  exact ⟨Nat.rec e fun u o => if real u then if wide then g u o else h u o else f u o, rfl, fun u =>
    ⟨fun n => by simp [n], fun r w => by simp [r, w], fun r w => by simp [r, w]⟩⟩

/-- A widened convolution: wide values in a region, or decoded codes; and a BF16 input. -/
theorem hyp_conv_wide : (let op : ConvOp := { conv7 with wide := some (.fp32 0) }; let c := wide (one (.conv op));
      StandsAt 0 (frame c) (.conv op) (engaged c) ∧ (∃ v, ElemIs (engaged c) (frame c) (convBlk convBlock) op 0 0 0 0 0 v) ∧
      ∃ sc, Readable (engaged c) (frame c) op.w.image (tileAt op.w 0).scaleOff (2 * 64 * unitGroups op.w) sc) ∧
    (∃ v, ElemIs (engaged (wide (one (.conv conv7)))) (frame (wide (one (.conv conv7)))) (convBlk convBlock) conv7 0 0 0 0 0 v) ∧
    (let b := convBlock.set 6 4; (convBlk b).inBf = true ∧
      ∃ v, ElemIs (at7 (.conv { conv7 with block := b })) (place7 (.conv { conv7 with block := b })) (convBlk b)
        { conv7 with block := b } 0 0 0 0 0 v) :=
  ⟨⟨stands_wide _, ⟨_, _, ⟨_, ⟨_, reads _ _ _ (by decide), rfl⟩, rfl⟩, rfl⟩, _, reads _ _ _ (by decide)⟩,
    ⟨_, _, reads _ _ _ (by decide), rfl⟩, by decide, _, _, reads _ _ _ (by decide), rfl⟩

/-- A crop of one box whose status byte lies at the end of the region; frames at well byte 0, the box at 64. -/
def cropBlock : Block :=
  fields [(8, 2 ^ 63), (2, 1), (2, 1), (2, 1), (1, 1), (1, 0), (4, 1), (4, 0), (8, 2 ^ 63 + 64), (2, 1), (2, 1), (2, 1), (2, 0), (4, 0), (4, 0),
    (4, 32767), (12, 0)]
def crop7 : PlanStep := .crop { block := cropBlock, box := 0 }
/-- The box covers the frame, or is of no area. -/
def boxed (b : Block) : State := { at7 crop7 with wellMem := mwrite [] 64 b }
def fullBox : Block := fields [(8, 0), (4, 0x3F800000), (4, 0x3F800000), (16, 0)]

theorem stands_boxed (b : Block) : StandsAt 0 (place7 crop7) crop7 (boxed b) := ⟨⟨rfl, rfl, rfl, ⟨rfl, rfl, rfl⟩, fun _ => rfl⟩, rfl, rfl⟩

theorem hyp_crop : (let k := cropBlk cropBlock; let s := boxed fullBox; let x := boxOf fullBox; StandsAt 0 (place7 crop7) crop7 s ∧
      0 < k.count ∧ k.count ≤ 1 ∧ fullBox.length = 32 ∧ WellHas s (k.boxes + 32 * 0) fullBox ∧ x.invalid k.frames = false ∧
      x.zeroArea = false ∧ WellHas s (k.table + 8 * x.frame) (List.replicate 8 0) ∧ csAllowed s (k.statusBase + 0) 1 = true ∧
      (∃ v, SampleIs s k 0 (samplePos x.y1 x.y2 k.h k.outH 0) (samplePos x.x1 x.x2 k.w k.outW 0) 0 v) ∧
      csAllowed s k.outBase 2 = true) ∧ (boxOf (List.replicate 32 0)).zeroArea = true ∧
    (boxOf (fields [(16, 0), (2, 1)])).invalid (cropBlk cropBlock).frames = true := by
  refine ⟨⟨stands_boxed _, by decide, by decide, by decide, ⟨by decide, by decide⟩, by decide, by decide, ⟨by decide, by decide⟩,
    by decide, ⟨_, .inr ⟨⟨by unfold outsideFrame; decide, by decide, by decide⟩, _, _, _, _, ⟨[0], ⟨by decide, by decide⟩, by decide, rfl⟩,
      ⟨[0], ⟨by decide, by decide⟩, by decide, rfl⟩, ⟨[0], ⟨by decide, by decide⟩, by decide, rfl⟩,
      ⟨[0], ⟨by decide, by decide⟩, by decide, rfl⟩, rfl⟩⟩,
    by decide⟩, by decide, by decide⟩

theorem hyp_crop_outside : outsideFrame (cropBlk cropBlock) (0xBF800000) 0 := by unfold outsideFrame; decide

theorem hyp_crop_reads : (let k := cropBlk cropBlock; let a := place7 crop7; let s1 := holdPort a crop7 (boxed fullBox);
    ∃ bb r ft r' o q, Yields (wellLoad a (k.boxes + 32 * 0) 32) s1 bb r ∧
      Yields (wellLoad a (k.table + 8 * (boxOf bb).frame) 8) r ft r' ∧
      Yields (cropLines a k (boxOf bb) (field ft 0 8 % 2 ^ 39) 0 false (List.range k.outH)) r' o q ∧ Memory.wf q.cis = true) :=
  ⟨_, _, _, _, _, _, rfl, rfl, rfl, by decide⟩

/-- A RUN with one binding of sequence 3, to read it or to append a token, that stands at an attention step. -/
def argsOne (append : Nat) : Block := fields [(2, 1), (2, 0), (2, 0xFFFF), (58, 0), (2, 3), (1, 0), (1, append), (2, append), (2, 0), (8, 0)]
def attnOp : AttnOp := { binding := 0, layer := 0, head := 0, headDim := 16, kvHead := 0, query := 0, qOff := 0, smScale := 0 }
def kvRun (op : AttnOp) (append len : Nat) : Cmd :=
  { runR (one (.attention op)) with params := (runOf 0x1000).params, argBlock := some (argsOne append), lengths := [(3, len)] }
/-- The core with the sequence, of tokens of one 64-byte row, and a page in its entry 4 or none. -/
def kvCores (c : Cmd) (pages : Table MapEntry) : State :=
  { engaged c with seqs := [(3, { ctx := 5, mapSpan := 8, length := 1 })], map := pages }
def page4 : Table MapEntry := [(4, { page := 1, seq := 3 })]
def bindR : KvBind := { seq := 3, slot := 0, append := false, count := 0, minPos := 0 }
def bindA : KvBind := { seq := 3, slot := 0, append := true, count := 1, minPos := 0 }
def row0 : AttnRow := { binding := 0, layer := 0, head := 0, query := 0 }

theorem stands_kv (op : AttnOp) (p n : Nat) (pages : Table MapEntry) :
    StandsAt 0 (frame (kvRun op p n)) (.attention op) (kvCores (kvRun op p n) pages) :=
  ⟨⟨rfl, rfl, rfl, ⟨rfl, rfl, rfl⟩, fun _ => rfl⟩, rfl, rfl⟩

theorem hyp_attention_empty : (let c := kvRun attnOp 0 0; let s := kvCores c [];
      groupOf s 7 = none ∧ (argsOf s c).bindings[0]? = some bindR ∧ findRow s 7 row0 = row0 ∧ visitOrder s c bindR = [] ∧
      (rowOut row0 16).length = 16 ∧ (∃ ks, RowAt s (frame c) 255 0 16 ks ∧ ks.Nodup) ∧ (argsOf s c).bindings[1]? = none) :=
  ⟨by decide, by decide, by decide, by decide, by decide,
    ⟨(List.range 16).map (fun i => accKey 0 255 i), ⟨by decide, by decide⟩, by decide⟩, by decide⟩

theorem hyp_attention_page : (let c := kvRun attnOp 1 1; let s := kvCores c page4; let x := tget s.seqs 3 {};
      groupOf s 7 = none ∧ (argsOf s c).bindings[0]? = some bindA ∧ visitOrder s c bindA = [.page 4 0, .staged 1] ∧
      (findRow s 7 row0).count = 0 ∧ (∃ b, Readable s (frame c) none 0 (2 * 16) b) ∧ x.tokens = 1 ∧
      masked x bindA (lengthAt c 3) 0 0 (0 * 1 + 0) false = false ∧ masked x bindA (lengthAt c 3) 0 0 (1 * 1 + 0) true = false ∧
      (∃ ts, PageTokensAre s (frame c) attnOp x bindA 4 0 ts) ∧ ∃ ts, StagedTokensAre s (frame c) attnOp x bindA 1 ts) := by
  refine ⟨by decide, by decide, by decide, by decide, ⟨_, _, rfl, by decide, rfl⟩, by decide, by decide, by decide,
    ⟨[(false, keyValue (List.replicate 64 0) attnOp)], rfl, fun t h => ?_⟩,
    ⟨[(false, keyValue (List.replicate 64 0) attnOp)], rfl, fun t h => ?_⟩⟩
  · obtain rfl : t = 0 := Nat.lt_one_iff.mp h
    exact ⟨List.replicate 64 0, ⟨by decide, by decide⟩, by decide, rfl⟩
  · obtain rfl : t = 0 := Nat.lt_one_iff.mp h
    exact ⟨List.replicate 64 0, ⟨_, rfl, by decide, by decide⟩, rfl⟩

/-- The same in a lateral group of devices 0 and 1, with block 0 of the shard of device 1 in receive slot 1. -/
def shardHdr : Block := fields [(4, 9), (2, 1), (2, 0), (8, 0), (1, 0), (1, 0), (2, 64), (2, 1), (2, 0), (4, 1)]
def kvGroup (c : Cmd) (flags : Nat) : State :=
  { kvCores c page4 with cis := mwrite [] 0 shardHdr,
                         lat := { groups := [(1, { devices := [0, 1], cmd := 7, flags := flags, shardSlots := 1 })] } }
def attnG (hop : Nat) (last : Bool) : AttnOp := { attnOp with logical := 9, hop := hop, shardBlocks := 1, last := last }

/-- A computation that yields something yields some value. -/
theorem yields {β : Type} (x : Eng (Option β)) (s : State) (m : Mem)
    (h : (match StateT.run (OptionT.run x) s with | (some (some _), r) => r.cis == m | _ => false) = true) :
    ∃ v r, Yields x s (some v) r ∧ r.cis = m := by
  unfold Yields
  split at h
  · rename_i v r e
    exact ⟨v, r, e, by simpa using h⟩
  · cases h

theorem hyp_attention_group : (let c := kvRun (attnG 0 false) 0 1; let s := kvGroup c 0; groupOf s 7 = some 1 ∧
      ∃ x r, Yields (groupTokens (frame c) (attnG 0 false) (tget s.lat.groups 1 {})) (holdPort (frame c) (.attention (attnG 0 false)) s)
        (some x) r ∧ r.cis = s.cis ∧ Readable s (frame c) none 0 (2 * 16) (mread s.cis 0 32)) :=
  ⟨by decide, _, _, rfl, by decide, _, rfl, by decide, by decide⟩

theorem hyp_attention_none : (let op : AttnOp := { attnG 0 false with shardBlock := 1 }; let c := kvRun op 0 1; let s := kvGroup c 0;
      ∃ r, Yields (groupTokens (frame c) op (tget s.lat.groups 1 {})) (holdPort (frame c) (.attention op) s) none r) := ⟨_, rfl⟩

theorem hyp_attention_hop : (let c := kvRun (attnG 1 true) 0 1; let s := kvGroup c 1; groupOf s 7 = some 1 ∧
      (∃ x r, Yields (groupTokens (frame c) (attnG 1 true) (tget s.lat.groups 1 {})) (holdPort (frame c) (.attention (attnG 1 true)) s)
        (some x) r ∧ r.cis = s.cis) ∧ Writable s (frame c) (partialOff (attnG 1 true) (tget s.lat.groups 1 {}) 1) (6 * (2 + 16))) :=
  ⟨by decide, yields _ _ _ (by decide +kernel), _, rfl, by decide⟩

/-- The end of a CANONICAL row. -/
theorem hyp_partials : (let op := attnG 1 true; let c := kvRun op 0 1; let s := kvGroup c 1; let d := tget s.lat.groups 1 {};
    ∃ acc q, Yields (mergePartials (frame c) op d { row0 with binding := 9 } (risingDevices d.devices) { row0 with binding := 9 }) s acc q) :=
  ⟨_, _, rfl⟩

-- ## Events of a running plan

/-- A step of a loop that runs. -/
theorem stands_loop (st : PlanStep) (h : stepSlot st = none) : StandsAt 0 (frame (standingAs (one st))) st (busy (one st)) := by
  refine ⟨⟨rfl, rfl, rfl, ⟨rfl, rfl, rfl⟩, fun _ => rfl⟩, rfl, ?_⟩
  simp only [parkedStep, h]
  split
  · rename_i e
    cases e
  · rfl

/-- A float wait that is reached, within the limit or beyond it; one that is not, with runs left or none, of a RUN and of a
loop. -/
theorem hyp_float_wait : (let st : PlanStep := .floatWait 15 0; StandsAt 0 (place7 st) st (at7 st) ∧
      reached (floatGet (at7 st) 0 (16 * 0 + 15)) 0 = true ∧ waitMax (at7 st) 0 < waitMax (at7 st) 0 + 1) ∧
    (let st : PlanStep := .floatWait 15 1; StandsAt 0 (place7 st) st (at7 st) ∧
      reached (floatGet (at7 st) 0 (16 * 0 + 15)) 1 = false ∧ (place7 st).cmd.timeouts < ((at7 st).core 0).retryMax.toNat ∧
      (place7 st).cmd.opcode = opRun) ∧
    (let st : PlanStep := .floatWait 15 1; let c := { runR (one st) with timeouts := 3 }; StandsAt 0 (frame c) st (engaged c) ∧
      ((engaged c).core 0).retryMax.toNat ≤ c.timeouts) ∧
    (let st : PlanStep := .floatWait 15 1; let c := standingAs (one st); StandsAt 0 (frame c) st (busy (one st)) ∧
      c.opcode = opStreamLoop ∧ c.object = some 2 ∧ tget? (busy (one st)).loops 2 = some (stepping2 (one st)) ∧
      (stepping2 (one st)).running = true ∧ (stepping2 (one st)).cmd = 7) ∧ at? srv 0 = none :=
  ⟨⟨stands _, by decide, by decide⟩, ⟨stands _, by decide, by decide, rfl⟩,
    ⟨⟨⟨rfl, rfl, rfl, ⟨rfl, rfl, rfl⟩, fun _ => rfl⟩, rfl, rfl⟩, by decide⟩, ⟨stands_loop _ rfl, rfl, rfl, rfl, rfl, rfl⟩, by decide⟩

/-- Descriptors over 64 bytes: a copy from the first to the second granule of core 0's cistern, and a fill there. -/
def pumpBlock (op : Nat) : Block :=
  fields [(8, 2 ^ 63 + 2 ^ 38), (8, 2 ^ 63 + 2 ^ 38 + 8192), (4, 64), (4, 1), (8, 64), (8, 64), (2, 0), (2, 1), (1, op), (1, 0), (2, 0),
    (8, 0x0102030405060708), (8, 0)]

theorem hyp_siphon_step : (let st : PlanStep := .siphon 0 256 8192 0 1; StandsAt 0 (place7 st) st (at7 st) ∧
    ∃ bs, Readable (at7 st) (place7 st) none 0 256 bs) := ⟨stands _, _, reads _ _ _ (by decide)⟩

theorem hyp_pump : (let st : PlanStep := .pump (pumpBlock 0); let s := at7 st; let d := pumpDesc (pumpBlock 0);
      let s1 := pumpPhase 0 (phaseRowsOf 0 d) (d.phaseEnd || d.next == 0) s; StandsAt 0 (place7 st) st s ∧ MemoriesOk s ∧
      pumpFieldsOk (pumpBlock 0) = true ∧ pumpEndsOk s 5 (pumpBlock 0) = true ∧ floatLive s d.float d.inc = true ∧
      (∃ r, Yields (pumpRows (place7 st) d d.rows 0) s1 () r) ∧ d.rows = 1 ∧ d.op = 0 ∧
      rowAddr d.src 0 d.srcStride = some (.cis 0) ∧ rowAddr d.dst 0 d.dstStride = some (.cis 8192) ∧
      ∃ bs r, readFrom (some 0) (.cis 0) d.rowBytes s1 = (.bytes bs, r) ∧ (writeTo (some 0) (.cis 8192) bs s1).1 = true) ∧
    (let st : PlanStep := .pump (pumpBlock 1); pumpFieldsOk (pumpBlock 1) = true ∧ pumpEndsOk (at7 st) 5 (pumpBlock 1) = true ∧
      (pumpDesc (pumpBlock 1)).op = 1) ∧ pumpFieldsOk [] = false :=
  ⟨⟨stands _, ⟨rfl, rfl, rfl⟩, by decide, by decide, by decide, ⟨_, rfl⟩, by decide, by decide, by decide, by decide, _, _, rfl, by decide⟩,
    by decide, by decide⟩

theorem hyp_frame : (let op : FrameOp := { off := 0 }; let st : PlanStep := .frame op; frameSample (at7 st) (place7 st) op = none) ∧
    (let op : FrameOp := { off := 0 }; let st : PlanStep := .recur none 0; let s := busy (one st);
      frameSample s (frame (standingAs (one st))) op = some (looped, 15) ∧
      WellHas s (frameAddr looped (15 / max 1 looped.hopLen + op.ahead)) (List.replicate 64 0) ∧
      (List.replicate 64 (0 : Byte)).length = looped.frameBytes ∧ Writable s (frame (standingAs (one st))) 0 64) :=
  ⟨by decide, by decide, ⟨by decide, by decide⟩, by decide, _, rfl, by decide⟩

/-- A write of one byte of the region, one of a float alone, and one that meets another in its row. -/
def write7 (src : WriteSrc) (lat : Option LatDest) : RemoteWrite := { src := src, dst := 4 * 8192 - 1, float := 0, inc := 1, lat := lat }

theorem hyp_remote_write : (let w := write7 (.region 0 1) none; let st : PlanStep := .write w; StandsAt 0 (place7 st) st (at7 st) ∧
      MemoriesOk (at7 st) ∧ (∃ bs, bs.length = 1 ∧ Readable (at7 st) (place7 st) none 0 1 bs) ∧ csAllowed (at7 st) w.dst 1 = true ∧
      floatLive (at7 st) w.float.toNat w.inc.toNat = true ∧ csAllowed (at7 st) (2 ^ 30) 1 = false) ∧
    (let m : RowMeet := { addr := 4 * 8192 - 2, len := 2, port := .wide };
      (∃ r ∈ unitsOf 512 m.addr m.len, r ∈ unitsOf 512 (4 * 8192 - 1) 1) ∧ portOrder m.port ≠ portOrder m.mine) ∧
    (let w := write7 (.region 0 1) (some {}); let st : PlanStep := .write w;
      ∃ x r, Yields (writeBytes (place7 st) w) (holdPort (place7 st) st (at7 st)) (some x) r) ∧
    (let w := write7 (.shard 0 0 0) (some {}); let st : PlanStep := .write w;
      ∃ r, Yields (writeBytes (place7 st) w) (holdPort (place7 st) st (at7 st)) none r) :=
  ⟨⟨stands _, ⟨rfl, rfl, rfl⟩, ⟨_, by decide, reads _ _ _ (by decide)⟩, by decide, by decide, by decide⟩, by decide, ⟨_, _, rfl⟩, _, rfl⟩

theorem well_length (s : State) (a n : Nat) : (wellRead s a n).length = n := by
  unfold wellRead
  split
  · rw [List.length_map, List.length_range]
  · exact length_mread _ _ _

theorem well_page (s : State) (p : Nat) (h : addrOk s (.well p) 65536 = true) : ∃ page, page.length = 65536 ∧ WellHas s p page :=
  ⟨wellRead s p 65536, well_length _ _ _, by unfold WellHas; rw [well_length]; exact ⟨h, rfl⟩⟩

/-- A block of the own shard that goes round a lateral group. -/
theorem hyp_shard_write : (let c := { kvRun attnOp 0 1 with plan := some (one (.write (write7 (.shard 0 9 0) (some {})))) };
      let s := kvGroup c 0; StandsAt 0 (frame c) (.write (write7 (.shard 0 9 0) (some {}))) s ∧
      (ownShard s c)[0]? = some (bindR, .page 4 0) ∧ ∃ page, page.length = 65536 ∧ WellHas s ((s.mapEntry 4).page * 65536) page) := by
  exact ⟨⟨⟨rfl, rfl, rfl, ⟨rfl, rfl, rfl⟩, fun _ => rfl⟩, rfl, rfl⟩, by decide, well_page _ _ (by decide)⟩

theorem hyp_remote_read : (let st : PlanStep := .read 0 64; StandsAt 0 (place7 st) st (at7 st) ∧ csAllowed (at7 st) 0 64 = true ∧
    csAllowed (at7 st) (2 ^ 30) 64 = false) := ⟨stands _, by decide, by decide⟩

theorem hyp_parity : 3 / 4 = 0 ∧ at? (engaged (runR {})) 0 = some (frame (runR {})) ∧ (frame (runR {})).u = 7 ∧
    (runR {}).parityFails < 2 ∧ 2 ≤ ({ runR {} with parityFails := 2 } : Cmd).parityFails ∧ (frame (runR {})).u ≠ 8 := by decide

/-- A run that saturates more than its threshold allows, narrow and with AUTO_WIDEN, and one that has stopped for it. -/
def sated (auto : Bool) : Cmd := { runR {} with sat := 1, satThreshold := 0, autoWiden := auto }

theorem hyp_saturation : (let s := engaged (sated true); s.cmd? 7 = some (sated true) ∧ (sated true).opcode = opRun ∧
      (sated true).phase = .running ∧ (sated true).stopping = false ∧ satPasses (sated true) (sated true).sat = true ∧
      (sated true).widened = false) ∧ (sated false).autoWiden = false ∧ satPasses (runR {}) (runR {}).sat = false ∧
    (let x := { stepping2 {} with satBlock := 1 }; let c := { standing7 with satThreshold := 0 };
      satPasses c x.satBlock = true ∧ c.phase = .accepted ∧ c.object = some 2 ∧ x.cmd = 7 ∧ x.running = true ∧ x.dead = false) ∧
    (let c := { sated true with stopping := true }; let s := withCmd c; s.cmd? 7 = some c ∧ c.phase = .running ∧ c.stopping = true) ∧
    srv.cmd? 7 = none := by
  decide

/-- A run whose every rank is at its end. -/
theorem hyp_commit : (let c := runR {}; let s := engaged c; let a := frame c; s.cmd? 7 = some c ∧ c.stopping = false ∧
      satPasses c c.sat = false ∧ atEnd s {} c.cores = true ∧ placesOf s c {} c.cores = [a] ∧ (argsOf s c).bindings = [] ∧
      (argsOf s c).chunk = none ∧ groupOf s 7 = none ∧ NoErrors s ∧ historyOffs s a = [] ∧ (∀ e ∈ s.streams, ∀ k ∈ e.2.chunks, k.uid ≠ 7) ∧
      (∃ rows ws xs q, Yields (do
        let rows ← allStaged a
        let ws ← commitData [a] {}
        let xs ← chunkSamples a
        eachM historyMeet [a]
        eachM historyOut [a]
        pure (rows, ws, xs)) (endRun 7 9 s) (rows, ws, xs) q ∧ (commitWrites 7 ws (commitEffects 7 {} rows xs q)).1 = true)) ∧
    atEnd (at7 (.noise 0 0)) (one (.noise 0 0)) [0] = false ∧
    (let c := kvRun attnOp 0 1; groupOf (kvGroup c 0) 7 = some 1) :=
  ⟨⟨rfl, rfl, by decide, by decide, by decide, by decide, by decide, by decide, no_errors (by decide), by decide, fun _ h => (by cases h),
    _, _, _, _, rfl, by decide⟩, by decide, by decide⟩

/-- A commit write that R27 turns away. -/
theorem hyp_commit_fails : (commitWrites 7 [(0, write7 .nothing none, 4 * 8192 - 1, [1])] { engaged (runR {}) with cores := [] }).1 = false := by decide

/-- A RUN of a chunk of stream 1 that starts at sample 0, and one that appends a token to sequence 3. -/
def chunkRun : Cmd := { runR { samples := .acc 0 0 } with
  params := (runOf 0x1000).params, argBlock := some (fields [(4, 0), (2, 1), (2, 0), (8, 0), (4, 16), (44, 0)]) }
def appendRun : Cmd :=
  { runR {} with params := (runOf 0x1000).params, argBlock := some (argsOne 1), lengths := [(3, 1)],
                 secured := [{ binding := 0, block := 1, entry := 5, page := some 9 }] }

theorem hyp_commit_more : (let s : State := { engaged chunkRun with streams := [(1, { ctx := 5, state := 1, blockLen := 16 })] };
      (argsOf s chunkRun).bindings = [] ∧ (argsOf s chunkRun).chunk = some (1, 0, 16) ∧ (tget? s.streams 1).isSome = true ∧
      placesOf s chunkRun { samples := .acc 0 0 } [0] = [frame chunkRun] ∧ ∃ vs, RowIs s (frame chunkRun) (.acc 0 0) 16 vs) ∧
    (let s := kvCores appendRun []; (argsOf s appendRun).chunk = none ∧ (argsOf s appendRun).bindings = [bindA] ∧ bindA.append = true ∧
      (tget? s.seqs bindA.seq).isSome = true ∧ ∃ rows r, Yields (allStaged (frame appendRun)) (endRun 7 9 s) rows r) := by
  refine ⟨⟨by decide, by decide, by decide, by decide, ?_⟩, by decide, by decide, by decide, by decide, _, _, rfl⟩
  obtain ⟨ks, h⟩ := rowAt { engaged chunkRun with streams := [(1, { ctx := 5, state := 1, blockLen := 16 })] } (frame chunkRun) 0 0 16 (by decide)
  exact ⟨_, ks, h, rfl⟩

-- ## Queues and the scheduler

/-- Queue 1 with 16 entries; the host has written a packet at its head. -/
def queue1 : Queue := { opened := true, sqBase := 0x1000, lineBase := 0x8000 }
/-- A packet of context 5 (or of none, for a device-scope opcode) with inline parameters. -/
def packet (op : Nat) (params : Block) : Block :=
  fields [(1, op), (1, 0), (2, 0), (2, if isDevice op then 0 else 5), (1, 0), (1, 0), (4, 9), (2, 0xFFFF), (2, 0), (6, 0), (2, 0), (8, 0)] ++
    padTo 32 params
def fenced : Block := packet opFence []
def queued (q : Queue) (bs : Block) : State := { srv with queues := [(1, q)], host := mwrite [] 0x1000 bs, ctxs := [(5, ctx5)] }
/-- The command that the visit of queue 1 fetches. -/
def parsed (bs : Block) : Cmd := parsePacket (hostRead (queued { queue1 with tail := 1 } bs) 0x1000 64) 0 1 0

theorem hyp_queue_lines : ((queued queue1 []).dev.mode = .serving ∧ (queued queue1 []).queue? 1 = some queue1 ∧ queue1.opened = true ∧
      queueEnabled (queued queue1 []) 1 = true ∧ Memory.wf (hostStores [] (queued queue1 [])).host = true ∧ queue1.error = false) ∧
    ((16#64 - queue1.head).toNat ≤ 2 ^ queue1.sqLog ∧ 2 ^ queue1.sqLog < (17#64 - queue1.head).toNat) ∧
    ((queue1.cqProd - (0#64 - 16#64)).toNat ≤ 2 ^ queue1.cqLog ∧ 2 ^ queue1.cqLog < (queue1.cqProd - (0#64 - 17#64)).toNat) ∧
    queue1.waits = [] ∧ (let t : State := { queued queue1 [] with cmdw := { pollUs := 0 } }; t.cmdw.pollUs = 0) ∧
    (queued queue1 []).cmdw.pollUs ≠ 0 ∧ (∀ e ∈ (queued queue1 []).queues, e.2.waits = []) ∧
    (lineCount (queued queue1 []) queue1.lineBase - queue1.head).toNat ≤ 2 ^ queue1.sqLog ∧
    (queue1.cqProd - lineCount (queued queue1 []) (queue1.lineBase + 0xC0)).toNat ≤ 2 ^ queue1.cqLog ∧
    (∀ e ∈ (queued queue1 []).bindings, e.2.held = []) := by decide

theorem hyp_packet_fetch : (let x := { queue1 with tail := 1 }; let s := queued x fenced;
      nextQueue s = some 1 ∧ x.tail = x.head + 1 ∧ x.sqBase + x.head.toNat % 2 ^ x.sqLog * 64 = 0x1000 ∧ x.discards = false ∧
      (∀ d ∈ s.inflight, d.uid ≠ s.nextUid) ∧ Memory.wf s.host = true ∧ Memory.wf s.cis = true ∧ Memory.wf s.wellMem = true ∧
      opcodes.contains (parsed fenced).opcode = true ∧ failing (packetChecks fenced (parsed fenced)) = [] ∧
      ctxCheck s (parsed fenced) = true ∧ (parsed fenced).pointer = false ∧ inFaulted s (parsed fenced) = false ∧
      failing (fetchChecks s (parsed fenced)) = []) ∧
    opcodes.contains (parsed (packet 0xEF [])).opcode = false ∧ opcodes.contains (parsed (packet 0xF0 [])).opcode = false ∧
    failing (packetChecks (fields [(1, opFence), (1, 2)]) (parsed (fields [(1, opFence), (1, 2)]))) ≠ [] ∧
    inFaulted { queued queue1 fenced with ctxs := [(5, { faulted := true })] } (parsed fenced) = true ∧
    failing (fetchChecks srv (parsed (packet opFence [1]))) ≠ [] := by decide

/-- A FENCE whose parameters lie at 0x3000: 33 bytes of zeros. -/
def pointed : Block :=
  fields [(1, opFence), (1, 1), (2, 0), (2, 5), (1, 0), (1, 0), (4, 9), (2, 0xFFFF), (2, 0), (6, 0), (2, 0), (8, 0), (8, 0x3000), (4, 33), (20, 0)]

theorem hyp_packet_pointer : (let s := queued { queue1 with tail := 1 } pointed; let d := { parsed pointed with params := List.replicate 33 0 };
      opcodes.contains (parsed pointed).opcode = true ∧ failing (packetChecks pointed (parsed pointed)) = [] ∧
      ctxCheck s (parsed pointed) = true ∧ (parsed pointed).pointer = true ∧ failing (pointerChecks s pointed) = [] ∧
      inFaulted s (parsed pointed) = false ∧ typedAddr (field pointed 0x20 8) = some (.host 0x3000) ∧
      readAt (.host 0x3000) (field pointed 0x28 4) s = (.bytes d.params, s) ∧ s.upsets = {} ∧ failing (fetchChecks s d) = []) :=
  ⟨by decide, by decide, by decide, by decide, by decide, by decide, by decide, rfl, rfl, by decide⟩

theorem hyp_vendor : (let s := queued { queue1 with tail := 1 } (packet 0xF0 []); nextQueue s = some 1 ∧
      isVendor (parsed (packet 0xF0 [])).opcode = true ∧ Memory.wf s.host = true ∧ queue1.discards = false ∧ ringRoom queue1 ∧
      (recordAddr queue1 + 32 ≤ queue1.lineBase + 0x40 ∨ queue1.lineBase + 0xC0 ≤ recordAddr queue1)) ∧
    isVendor (parsed fenced).opcode = false ∧ nextQueue (queued queue1 fenced) ≠ some 1 := by
  refine ⟨⟨by decide, by decide, by decide, by decide, ?_, by decide⟩, by decide, by decide⟩
  unfold ringRoom; decide

/-- Commands in flight on a part whose domains of core 0 flow; context 5 has its slot on core 0. -/
def placing (cs : List Cmd) : State :=
  { flowing loop5 with inflight := cs, loops := [], streams := [], ctxs := [(5, ctxY), (6, { shareClass := 1, accUnits := 4 })] }
/-- A plan that runs on core 0 and arms a float. -/
def plan0 : Plan := { firstCore := some 0, arms := [15] }
def placed7 : Cmd := { runOf 0 with phase := .placed, plan := some plan0, cores := [0] }

theorem hyp_dispatch_start : (let s := placing [placed7]; NoErrors s ∧ startable s = some placed7 ∧ isPump placed7.opcode = false ∧
      placed7.plan = some plan0 ∧ s.ctx? 5 = some ctxY ∧ s.cmd? 7 = some placed7 ∧ takeSlots 5 ctxY placed7.cores s = some s ∧
      failing (placedChecks s placed7 plan0) = [] ∧ reloadAll 7 plan0 (placed7.cores.zip (List.range placed7.cores.length)) s = (.done, s) ∧
      armsBusy s 5 plan0 [0] = false ∧ stagingOk s placed7 = true ∧ groupOf s 7 = none ∧ placed7.opcode = opRun ∧
      (argsOf s placed7).bindings = [] ∧ (argsOf s placed7).chunk = none ∧ NoHistory plan0 ∧
      (∀ a ∈ placesOf s placed7 plan0 placed7.cores, plan0.stateBase + 2 * plan0.stateRows ≤ (ownRegion s a).accSize * 64) ∧
      FirstFits s (placesOf s placed7 { plan0 with tempOff := some 256 } [0]) 256 256 ∧ slotOf s 5 0 = some 0) :=
  ⟨no_errors rfl, by decide, by decide, by decide, by decide, by decide, rfl, by decide, rfl, by decide, by decide, by decide, by decide,
    by decide, by decide, by intro w h; simp [plan0] at h, by decide, ⟨_, _, _, rfl, rfl, by decide⟩, by decide⟩

/-- A core whose accumulators are all taken. -/
def full : Core := { regions := [{ base := 0, size := 1, owner := 6, valid := true, accSize := 64 }] }

theorem hyp_dispatch_waits : (let s : State := { placing [placed7] with cores := [(0, full)] }; startable s = some placed7 ∧
      takeSlots 5 ctxY placed7.cores s = none) ∧
    (let s : State := { placing [placed7] with lat := { groups := [(3, { cmd := 7 })] } };
      startable s = some placed7 ∧ groupOf s 7 = some 3 ∧ (tget s.lat.groups 3 {}).readySent = false) ∧
    (let c := { copy with phase := .placed, started := false }; startable (placing [c]) = some c ∧ isPump c.opcode = true) := by
  decide

/-- A RUN that waits for core 0, and one whose fixed core has lost its die. -/
def ready7 : Cmd := { placed7 with phase := .ready, cores := [] }
def lost7 : Cmd := { ready7 with plan := some { firstCore := some 255 } }
def lostDie : State := { placing [lost7] with dev := { srv.dev with dies := 0x7F } }
/-- A COPY that the checks pass, and one whose source is no address. -/
def copyFine : Cmd := cmdOf opCopy copy.params
def copyBad : Cmd := cmdOf opCopy (fields [(8, 2 ^ 62), (8, 0x2000), (6, 4), (2, 0), (2, 0), (2, 1)])

theorem hyp_dispatch_place : (let s := placing [ready7]; startable s = none ∧ serveList (enterBacklog s) = [] ++ ready7 :: [] ∧
      isPump ready7.opcode = false ∧ ready7.plan = some plan0 ∧ (enterBacklog s).dev.dies ≠ 0 ∧ ready7.opcode ≠ opStreamLoop ∧
      groupLost (enterBacklog s) plan0 = false ∧ choose (enterBacklog s) (coreFree (enterBacklog s)) ready7 plan0 = some 0 ∧
      wantsHome (enterBacklog s) 5 (groupCores 0 1) = false) ∧
    (let s : State := { placing [ready7] with cores := [], ctxs := [(5, { ctxY with swapped := [{ index := 0, home := none }] })] };
      startable s = none ∧ serveList (enterBacklog s) = [ready7] ∧
      choose (enterBacklog s) (coreFree (enterBacklog s)) ready7 plan0 = some 0 ∧ wantsHome (enterBacklog s) 5 (groupCores 0 1) = true) ∧
    (startable lostDie = none ∧ serveList (enterBacklog lostDie) = [lost7] ∧ (enterBacklog lostDie).dev.dies ≠ 0 ∧
      groupLost (enterBacklog lostDie) { firstCore := some 255 } = true) ∧
    (startable (placing []) = none ∧ serveList (enterBacklog (placing [])) = []) := by decide

theorem hyp_dispatch_pump : (let s := placing [copyFine]; startable s = none ∧ serveList (enterBacklog s) = [copyFine] ∧
      isPump copyFine.opcode = true ∧ failing (pumpChecks (enterBacklog s) copyFine) = [] ∧
      (pumpCores (enterBacklog s) copyFine 3).all (coreFree (enterBacklog s)) = true) ∧
    (let s := placing [copyBad]; startable s = none ∧ serveList (enterBacklog s) = [copyBad] ∧
      failing (pumpChecks (enterBacklog s) copyBad) ≠ []) := by decide

/-- A standing loop of context 5, not real-time, whose lane is due. -/
def loopReady : State := { flowing gated with inflight := [standingAs { firstCore := some 0 }], lat := {} }

theorem hyp_dispatch_loop : startable loopReady = none ∧
    serveList (enterBacklog loopReady) = [] ++ standingAs { firstCore := some 0 } :: [] ∧
    (standingAs { firstCore := some 0 }).opcode = opStreamLoop ∧ canPlace (enterBacklog loopReady) (standingAs { firstCore := some 0 }) = true := by
  decide

/-- Context 5's plan runs on core 0; a plan of context 6, whose class has the lower VT, waits for it. -/
def ready6 : Cmd := { runOf 0 with uid := 8, ctx := 6, phase := .ready, plan := some { firstCore := some 0 } }
def running7 : Cmd := { placed7 with phase := .running, started := true }
def contested : State :=
  { placing [running7, ready6] with
    cores := [(0, { slot5 with running := some 7 })], sched := { vt := [(0, 10), (1, 0)], backlogged := [0, 1] } }

theorem hyp_preemption : contested.cmd? 9 = none ∧ contested.cmd? 7 = some running7 ∧ running7.opcode = opRun ∧
    contested.sched.quantum ≠ 0 ∧ contested.sched.quantum.toNat * running7.cores.length ≤ ranOf [(7, 200000)] 7 ∧
    running7.preempts < contested.sched.preemptMax.toNat ∧ preemptor (enterBacklog contested) [(7, 200000)] running7 = true ∧
    mayPreempt contested [] running7 = false ∧
    (let s := { contested with sched := { contested.sched with vt := [] } }; preemptor (enterBacklog s) [(7, 200000)] running7 = false) := by
  decide

/-- Context 5's slot fills core 0, and context 6 waits for one there; context 5 is pinned or not. -/
def crowded (pinned : Bool) : State :=
  { placing [ready6] with cores := [(0, { regions := [{ base := 0, size := 1024, owner := 5, valid := true, accSize := 1, pinned := pinned }] })] }
/-- Hub cycles for which the slots have been idle. -/
def idle5 : List Nat := [100000, 0, 0, 0]
def travels : Siphon := { dst := 0, data := [7], core := some 0 }

theorem hyp_swap_out : (let s := crowded false; let grace := s.sched.graceUs.toNat * 1000;
      isCandidate s 0 6 = true ∧ grace ≤ 100000 ∧ (∀ e ∈ slotsOn s 0, slotIdle s 0 e.2 = true ∧ grace ≤ idle5.getD e.1 0) ∧
      (0, 5) ∈ slotsOn s 0 ∧ ctxPinnedOn s 5 0 = false ∧
      (∀ e ∈ slotsOn s 0, ctxPinnedOn s e.2 0 = false → idle5.getD e.1 0 < idle5.getD 0 0 ∨ (idle5.getD e.1 0 = idle5.getD 0 0 ∧ 0 ≤ e.1)) ∧
      s.ctx? 5 = some ctxY ∧ coreFlowing s 0 = true ∧ settled s 0 = true ∧ settled { s with siphon := [travels] } 0 = false ∧
      ¬ grace ≤ 0) ∧
    (let s := crowded true; isCandidate s 0 6 = true ∧ slotsOn s 0 ≠ [] ∧ ∀ e ∈ slotsOn s 0, ctxPinnedOn s e.2 0 = true) := by decide

/-- Context 5 waits for core 0, where its image 0 has its home. -/
def ctxAway : Ctx := { ctxY with swapped := [{ index := 0, home := some 0 }] }
def away : State := { placing [ready7] with cores := [], ctxs := [(5, ctxAway)] }

theorem hyp_swap_in : needsSlot (placing []) 0 5 = false ∧
    (away.ctx? 5 = some ctxAway ∧ ctxAway.swapped.find? (fun i => i.home == some 0 && i.rank.isNone) = some { index := 0, home := some 0 } ∧
      (withSlot 5 ctxAway (away.core 0)).isSome = true ∧ needsSlot away 0 5 = true ∧ coreFlowing away 0 = true ∧ settled away 0 = true ∧
      (away.core 0).running = none ∧ ctxAway.faulted = false) := by decide

-- ## The edges of the statements' ranges

theorem hyp_edges_chain : (State.reset.dev.mode = .reset ∧ State.reset.dev.head = true ∧ State.reset.dev.numValid = false) ∧
    (let t : State := { dev := { mode := .off } }; t.dev.mode = .off) ∧
    (let t : State := { numbered with dev := { numbered.dev with number := 0x3FFF } }; t.dev.number.toNat = 0x3FFF) ∧
    (let t : State := { numbered with dev := { numbered.dev with index := 255 } }; t.dev.index.toNat = 255) := by decide

theorem hyp_edges_ports : (let t : State := { srv with lat := { portEn := 1, ports := [(0, { state := 2 })] } };
      t.dev.mode = .serving ∧ t.lat.groups = [] ∧ (0#4).getLsbD 0 = false ∧ t.lat.portEn.getLsbD 0 = true ∧ (t.port 0).state ≠ 0) ∧
    1071 ≤ 1071 ∧ 8 ≤ 8 := by decide

theorem hyp_edges_wells : srv.dieIn 8 = false ∧ (srv.well 0).state ≠ 1 ∧
    (let t : State := { srv with wells := [(0, { state := 1, patrol := 1024, withdrawn := [1] })] }; withdrawnAt t (1024 * 64) = true) ∧
    (let t : State := { srv with wells := [(0, { state := 1, spares := 0, uePages := [0x7FFFF] })] };
      t.dieIn (0x7FFFF / 2 ^ 19) = true ∧ retireDue (t.well 0) 0x7FFFF = true ∧ (t.well 0).spares = 0 ∧
      inMapRegion (0x7FFFF * 65536) = true) ∧ retireDue ((dueIn 0).well 0) 4 = false ∧
    (let t : State := { open4k with wellPoison := [1] }; hdmTarget t (64 - t.hdm.decBase) = some 64 ∧ wellPoisoned t 64 64 = true) := by
  decide

theorem hyp_edges_debug : 2 ^ 32 ≤ 2 ^ 32 ∧
    (let t : State := { region0 with cisPoison := [255] }; csAllowed t (2 ^ 13 - 1) 1 = true ∧ cisPoisoned t (2 ^ 13 - 1) 1 = true) ∧
    (let t : State := { region0 with wellPoison := [0] }; t.dieIn (wellOf 0) = true ∧ wellPoisoned t 0 64 = true) ∧
    (let t : State := { region0 with wells := [(0, { withdrawn := [0] })] }; inMapRegion 0 = false ∧ withdrawnAt t 0 = true) := by decide

theorem hyp_edges_links : (let t : State := { srv with dev := { srv.dev with dies := 0xFE } }; linkIn t (.ring 7) = false) ∧
    tget? srv.dev.links (linkKey (.ring 7)) = none ∧
    (let t : State := { srv with queues := [(1, { opened := false })] }; (t.queue? 1).map (fun x => x.opened) = some false) := by decide

theorem hyp_edges_power : 40 ≤ 40 ∧ srv.dieIn (dieOfDomain 40) = false ∧ ((domIn 0 4 0).dom 0).waking ≠ 1 ∧
    ((domIn 0 4 0).dom 0).waking ≠ 2 ∧ ((domIn 42 4 1).dom 42).waking = 1 ∧ ((domIn 45 4 2).dom 45).waking = 2 ∧
    2 ≤ ((domIn 32 2 1).dom (uncoreOf 0)).state ∧ srv.dieIn 8 = false ∧
    (let t : State := { dieAt 0 1 0 true false with pwr := { (dieAt 0 1 0 true false).pwr with
        rails := [(7, { queue := [{ what := .point 7, cls := 2, parts := [(0, 1)], units := 0 }] })] } };
      waiting (fun h => h.what == .point 7) t = true) := by decide

theorem hyp_edges_output : (secured { ring := some {} }).prov.ring = some {} ∧ srv.prov.ring = none ∧
    (let p : Prov := { unsignedQ := [{ interval := 0, intervalMs := 100 }], held := List.replicate 64 { interval := 0, intervalMs := 100 } };
      64 ≤ p.held.length) ∧ ({ stopped := true } : MRing).stopped = true ∧
    (let s : State := { srv with dev := { srv.dev with unmasked := [1056] } }; s.dev.unmasked.contains 1056 = true) := by decide

theorem hyp_edges_signer : srv.prov.pendingChunk = none ∧ ({ nextTree := true } : Prov).nextTree = true ∧
    ({ treeReady := true } : Prov).treeReady = true ∧ ({ treeReady := false } : Prov).treeReady = false ∧
    ({ subtreeReady := true } : Prov).subtreeReady = true ∧
    (let s : State := { srv with prov := { signer := 1, ring := some {}, held := List.replicate 64 { interval := 0, intervalMs := 100 } } };
      withholding s = true) ∧
    (let s : State := { withCmd wmStream with wmKeys := [(63, List.replicate 32 1)] }; 63 < 64 ∧ thas s.wmKeys 63 = true) := by decide

/-- Binding 3 comes after the lines of binding 2. -/
def lastLine (ts : List Target) : State := { srv with bindings := [(2, { targets := ts }), (3, { targets := [{}], made := 1 })] }

theorem line_beyond (ts : List Target) (h : 8192 ≤ ts.length) : lineHeld (lastLine ts) (.target 3 0) = false := by
  have e : lineHeld (lastLine ts) (.target 3 0) = decide (0 + ts.length + 0 + 0 + 2 * 0 < 8192) := rfl
  rw [e]; exact decide_eq_false (by omega)

theorem hyp_edges_line : lineHeld (lastLine (List.replicate 8192 {})) (.target 3 0) = false :=
  line_beyond _ (Nat.le_of_eq List.length_replicate.symm)

-- ## The machine as a whole

theorem hyp_step : ({ srv with pending := [.bootReady] } : State).pending = .bootReady :: [] ∧ srv.pending = [] := by decide

theorem hyp_memories : MemoriesOk State.reset ∧ step State.reset = .next { State.reset with hubCycle := 1 } :=
  ⟨⟨rfl, rfl, rfl⟩, rfl⟩


-- ## The spec's worked values (R51, R52, R54, R55, R66, R74, R108, R135, R118, R210, R222, R20)

theorem test_b4_code : let s : Fl := .fin false 1 (-2);
    [Fl.fin false 0 0, .fin false 347 (-14), .fin true 347 (-14), decF fp32 0xBDCCCCCD, decF fp32 0x3E428F5C, decF fp32 0x3E99999A].map
      (fun x => encB4 x s) = [(8, 0), (8, 0), (6, 0), (3, 0), (14, 0), (15, 1)] := by decide +kernel

theorem test_a8_code : let s : Fl := .fin false 1 (-6);
    encA8 (.fin false 17 (-7)) s 128 .nearest = (136, 0) ∧ encA8 (decF fp32 0xBFBD6666) s 128 (.stochastic 4 4) = (34, 0) ∧
    encA8 (decF fp32 0xBFBD6666) s 128 (.stochastic 4 5) = (33, 0) := by decide +kernel

theorem test_group_term :
    addGroups true false 128 [(List.replicate 20 261 ++ List.replicate 12 (-261), List.replicate 20 140 ++ List.replicate 12 100,
      0x3E80, 2088)] 0 = encF c48 (.fin false 150336 (-13)) := by decide +kernel

theorem test_scale : scaleOf 0x40600000 0x50 127 = 0x3D0D1A34 := by decide +kernel
theorem test_pacer_inc : pacerIncOf 24000 0 = 67553994411 ∧ pacerIncOf 24000 (-100000) = 67547239011 := by decide +kernel
theorem test_score : scoreUpdate 40 4 0x3AF9096C = 38 := by decide +kernel
theorem test_page_entry : entryBytes { page := 0x80025, seq := 4101, block := 128, score := 512 } = leBytes 8 0x2000200401480025 := by
  decide +kernel
theorem test_element_place : elemOffset 0 80 32 1 1 0 37 0 250 = 36773 := by decide +kernel
theorem test_companded : (fromCode 512).1 = 179 := by decide +kernel
theorem test_payload : payloadOf 0x201 0x205 0x12345678 = 0x048D159E00814201 := by decide +kernel
theorem test_typed_address : csCore 0x5B600A40 = 182 ∧ csOff 0x5B600A40 = 0x600A40 := by decide +kernel
theorem test_float_compare : reached 0xFFFFFFFF 2 = false ∧ reached 2 2 = true := by decide +kernel
theorem test_config_space : (configSpace State.reset).deviceId = 0x0960 ∧ (configSpace State.reset).memoryActive = false := by decide
end Sys2Proof.Tests
end

section
/-!
## O60: the byte stores stay in their canonical form

What keeps `MemoriesOk`: first the rules that every function of the model is taken apart with, then one lemma per
function in the order of the model's text, then the commands and the step. A function that touches no store keeps the
form because its result has the same three stores (`MemoriesOk.frame`); the few that do touch one end in `wf_mwrite`,
`wf_mclear` or `wf_filter`.
-/
namespace Sys2Proof.Machine

/-! ### Rules about states -/

theorem MemoriesOk.hostWf {s : State} (h : MemoriesOk s) : Memory.wf s.host = true := h.1

theorem MemoriesOk.cisWf {s : State} (h : MemoriesOk s) : Memory.wf s.cis = true := h.2.1

theorem MemoriesOk.wellWf {s : State} (h : MemoriesOk s) : Memory.wf s.wellMem = true := h.2.2

/-- The form is about the three stores alone: what leaves them as they are keeps it. -/
theorem MemoriesOk.frame {s t : State} (h : MemoriesOk s)
    (e : (t.host, t.cis, t.wellMem) = (s.host, s.cis, s.wellMem)) : MemoriesOk t := by
  obtain ⟨host, cis, well⟩ : t.host = s.host ∧ t.cis = s.cis ∧ t.wellMem = s.wellMem := by simpa using e
  exact ⟨host ▸ h.hostWf, cis ▸ h.cisWf, well ▸ h.wellWf⟩

theorem MemoriesOk.ite {c : Prop} [Decidable c] {a b : State} (ha : MemoriesOk a) (hb : MemoriesOk b) :
    MemoriesOk (if c then a else b) := by
  split <;> assumption

theorem MemoriesOk.foldl {β : Type} {f : State → β → State} {xs : List β} {s : State} (h : MemoriesOk s)
    (hf : ∀ s x, MemoriesOk s → MemoriesOk (f s x)) : MemoriesOk (xs.foldl f s) :=
  List.foldlRecOn xs f h fun s h x _ => hf s x h

/-- The state of a pair whose computation was given a name. -/
theorem MemoriesOk.snd {α : Type} {p : α × State} {a : α} {t : State} (h : MemoriesOk p.2) (e : p = (a, t)) :
    MemoriesOk t := by
  subst e; exact h

/-- A command's answer, where it is a next state, has canonical stores. -/
def KeepsNext : Host.Outcome State Fault Refusal → Prop
  | .next t => MemoriesOk t
  | _ => True

theorem MemoriesOk.next {t : State} (h : MemoriesOk t) : KeepsNext (.next t) := h

/-! ### Rules about engine computations -/

/-- A computation of the engine, from canonical stores, leaves canonical stores, also where it stops. -/
def Eng.Keeps {α : Type} (x : Eng α) : Prop :=
  ∀ s, MemoriesOk s → MemoriesOk (StateT.run (OptionT.run x) s).2

/-- What a computation followed by another does: the second runs only where the first came to a value. -/
theorem Eng.run_bind {α β : Type} (x : Eng α) (f : α → Eng β) (s : State) :
    StateT.run (OptionT.run (x >>= f)) s = match StateT.run (OptionT.run x) s with
      | (none, t) => (none, t)
      | (some a, t) => StateT.run (OptionT.run (f a)) t := by
  change (match StateT.run (OptionT.run x) s with
    | (o, t) => StateT.run (match o with | some a => OptionT.run (f a) | none => pure none) t) = _
  rcases StateT.run (OptionT.run x) s with ⟨_ | a, t⟩ <;> rfl

theorem Eng.Keeps.bind {α β : Type} {x : Eng α} {f : α → Eng β} (hx : x.Keeps) (hf : ∀ a, (f a).Keeps) :
    Eng.Keeps (x >>= f) := by
  intro s hs
  have h1 := hx s hs
  rw [Eng.run_bind]
  split
  next e => exact h1.snd e
  next e => exact hf _ _ (h1.snd e)

theorem Eng.Keeps.pure {α : Type} {a : α} : Eng.Keeps (pure a : Eng α) := fun _ h => h

theorem Eng.Keeps.getS : Eng.Keeps getS := fun _ h => h

theorem Eng.Keeps.modS {f : State → State} (hf : ∀ s, MemoriesOk s → MemoriesOk (f s)) : Eng.Keeps (modS f) := hf

theorem Eng.Keeps.ite {α : Type} {c : Prop} [Decidable c] {x y : Eng α} (hx : x.Keeps) (hy : y.Keeps) :
    Eng.Keeps (if c then x else y) := by
  split <;> assumption

theorem Eng.Keeps.run {x : Eng Unit} {s : State} (hx : x.Keeps) (h : MemoriesOk s) : MemoriesOk (x.run s) := hx s h

/-- Where the rest of a computation uses the state it reads, that state's stores are canonical. -/
theorem Eng.Keeps.bindS {α : Type} {f : State → Eng α} (hf : ∀ s, MemoriesOk s → (f s).Keeps) :
    Eng.Keeps (Machine.getS >>= f) :=
  fun s hs => hf s hs s hs

/-- Two ways to a value, and what is done with it. -/
theorem Eng.Keeps.branch {α β : Type} {c : Prop} [Decidable c] {x y : Eng α} {f : α → Eng β} (hx : x.Keeps)
    (hy : y.Keeps) (hf : ∀ a, (f a).Keeps) : Eng.Keeps (if c then x >>= f else y >>= f) :=
  .ite (.bind hx hf) (.bind hy hf)

/-- An action that is carried out on a condition, and what follows either way. -/
theorem Eng.Keeps.when {β : Type} {c : Prop} [Decidable c] {x : Eng Unit} {f : Unit → Eng β} (hx : x.Keeps)
    (hf : ∀ a, (f a).Keeps) : Eng.Keeps (if c then x >>= f else f ()) :=
  .ite (.bind hx hf) (hf ())

/-- A count of the core, last in a step that goes on. -/
theorem Eng.Keeps.count {α : Type} {g m n : Nat} {v : α} :
    Eng.Keeps (Machine.modS (fun s => s.perfAdd g m n) >>= fun _ => (Pure.pure v : Eng α)) :=
  .bind (.modS fun _ h => h.frame rfl) fun _ => .pure

end Sys2Proof.Machine
end

section
/-! ### The model's functions, in the order of its text -/
namespace Sys2Proof.Machine

/-! #### Sys2Proof/Machine/Ops.lean -/

theorem MemoriesOk.takeFree {s : State} (h : MemoriesOk s) : MemoriesOk (takeFree s).2 := h.frame rfl

theorem MemoriesOk.emit {o : Output} {s : State} (h : MemoriesOk s) : MemoriesOk (emit o s) := h.frame rfl

theorem MemoriesOk.msix {v : Nat} {s : State} (h : MemoriesOk s) : MemoriesOk (msix v s) :=
  .ite h.emit (.ite h (h.frame rfl))

theorem MemoriesOk.raise {e : Nat} {s : State} (h : MemoriesOk s) : MemoriesOk (raise e s) :=
  .ite (h.frame (by rfl)).msix (h.frame rfl)

theorem MemoriesOk.modDev {s : State} {f : Device → Device} (h : MemoriesOk s) : MemoriesOk (s.modDev f) := h.frame rfl

theorem MemoriesOk.modPwr {s : State} {f : Power → Power} (h : MemoriesOk s) : MemoriesOk (s.modPwr f) := h.frame rfl

theorem MemoriesOk.modLat {s : State} {f : Lateral → Lateral} (h :
    MemoriesOk s) : MemoriesOk (s.modLat f) := h.frame rfl

theorem MemoriesOk.modProv {s : State} {f : Prov → Prov} (h :
    MemoriesOk s) : MemoriesOk (s.modProv f) := h.frame rfl

theorem MemoriesOk.modSched {s : State} {f : Sched → Sched} (h :
    MemoriesOk s) : MemoriesOk (s.modSched f) := h.frame rfl

theorem MemoriesOk.modCtx {s : State} {c : Nat} {f : Ctx → Ctx} (h : MemoriesOk s) : MemoriesOk (s.modCtx c f) :=
  h.frame rfl

theorem MemoriesOk.modStats {s : State} {c : Nat} {f : CtxStats → CtxStats} (h : MemoriesOk s) :
    MemoriesOk (s.modStats c f) :=
  h.modCtx

theorem MemoriesOk.modCore {s : State} {g : Nat} {f : Core → Core} (h : MemoriesOk s) : MemoriesOk (s.modCore g f) :=
  h.frame rfl

theorem MemoriesOk.perfAdd {s : State} {g m n : Nat} (h : MemoriesOk s) : MemoriesOk (s.perfAdd g m n) := h.frame rfl

theorem MemoriesOk.modQueue {s : State} {q : Nat} {f : Queue → Queue} (h : MemoriesOk s) :
    MemoriesOk (s.modQueue q f) :=
  h.frame rfl

theorem MemoriesOk.modStream {s : State} {i : Nat} {f : Stream → Stream} (h : MemoriesOk s) :
    MemoriesOk (s.modStream i f) :=
  h.frame rfl

theorem MemoriesOk.modLoop {s : State} {l : Nat} {f : Loop → Loop} (h : MemoriesOk s) : MemoriesOk (s.modLoop l f) :=
  h.frame rfl

theorem MemoriesOk.modBinding {s : State} {b : Nat} {f : Binding → Binding} (h : MemoriesOk s) :
    MemoriesOk (s.modBinding b f) :=
  h.frame rfl

theorem MemoriesOk.modSeq {s : State} {q : Nat} {f : Seq → Seq} (h : MemoriesOk s) : MemoriesOk (s.modSeq q f) :=
  h.frame rfl

theorem MemoriesOk.modWell {s : State} {d : Nat} {f : Well → Well} (h : MemoriesOk s) : MemoriesOk (s.modWell d f) :=
  h.frame rfl

theorem MemoriesOk.modDom {s : State} {n : Nat} {f : Dom → Dom} (h : MemoriesOk s) : MemoriesOk (s.modDom n f) :=
  h.modPwr

theorem MemoriesOk.modRail {s : State} {r : Nat} {f : Rail → Rail} (h : MemoriesOk s) : MemoriesOk (s.modRail r f) :=
  h.modPwr

theorem MemoriesOk.modDie {s : State} {d : Nat} {f : DiePerf → DiePerf} (h : MemoriesOk s) :
    MemoriesOk (s.modDie d f) :=
  h.modPwr

theorem MemoriesOk.modPort {s : State} {p : Nat} {f : Port → Port} (h : MemoriesOk s) : MemoriesOk (s.modPort p f) :=
  h.modLat

theorem MemoriesOk.hostWrite {a : Nat} {bs : List Byte} {s : State} (h : MemoriesOk s) :
    MemoriesOk (hostWrite a bs s) :=
  ⟨wf_mwrite _ _ _ h.hostWf, h.cisWf, h.wellWf⟩

theorem MemoriesOk.hostStore {x : HostStore} {s : State} (h : MemoriesOk s) : MemoriesOk (hostStore x s) :=
  .ite (h.hostWrite.frame rfl) h.hostWrite

theorem MemoriesOk.hostStores {xs : List HostStore} {s : State} (h : MemoriesOk s) : MemoriesOk (hostStores xs s) :=
  h.foldl fun _ _ h => h.hostStore

theorem MemoriesOk.coreErr {g bit : Nat} {s : State} (h : MemoriesOk s) : MemoriesOk (coreErr g bit s) := h.modCore

theorem MemoriesOk.markImageWord {w : Nat} {s : State} (h : MemoriesOk s) : MemoriesOk (markImageWord w s) := by
  unfold Machine.markImageWord
  extract_lets +onlyGivenNames _
  split; exacts [.ite h.modCore h, h]

theorem MemoriesOk.meetCisWord {w : Nat} {s : State} (h : MemoriesOk s) : MemoriesOk (meetCisWord w s) := by
  unfold Machine.meetCisWord
  extract_lets +onlyGivenNames _
  refine .ite (h.frame (by rfl)).coreErr.markImageWord (.ite h.markImageWord ?_)
  exact .ite (h.frame (by rfl)).modCore.coreErr.raise h

theorem MemoriesOk.meetCis {n n' : Nat} {s : State} (h : MemoriesOk s) : MemoriesOk (meetCis n n' s) :=
  h.foldl fun _ _ h => h.meetCisWord

theorem MemoriesOk.cisWrite {a : Nat} {bs : List Byte} {s : State} (h : MemoriesOk s) : MemoriesOk (cisWrite a bs s) :=
  ⟨h.hostWf, wf_mwrite _ _ _ h.cisWf, h.wellWf⟩

theorem MemoriesOk.cisZero {a n : Nat} {s : State} (h : MemoriesOk s) : MemoriesOk (cisZero a n s) :=
  ⟨h.hostWf, wf_mclear _ _ _ h.cisWf, h.wellWf⟩

theorem MemoriesOk.accPut {k v : Nat} {s : State} (h : MemoriesOk s) : MemoriesOk (accPut k v s) := h.frame rfl

theorem MemoriesOk.accSet {g row lane v : Nat} {s : State} (h : MemoriesOk s) : MemoriesOk (accSet g row lane v s) :=
  h.accPut

theorem MemoriesOk.accPuts {ks vs : List Nat} {s : State} (h : MemoriesOk s) : MemoriesOk (accPuts ks vs s) :=
  h.foldl fun _ _ h => h.accPut

theorem MemoriesOk.accWrite {g row : Nat} {vs : List Nat} {s : State} (h : MemoriesOk s) :
    MemoriesOk (accWrite g row vs s) :=
  h.foldl fun _ _ h => h.accSet

theorem MemoriesOk.meetAccKey {k : Nat} {s : State} (h : MemoriesOk s) : MemoriesOk (meetAccKey k s) :=
  .ite (h.frame (by rfl)).coreErr (.ite (h.frame (by rfl)).modCore.coreErr.raise h)

theorem MemoriesOk.meetKeys {ks : List Nat} {s : State} (h : MemoriesOk s) : MemoriesOk (meetKeys ks s) :=
  h.foldl fun _ _ h => h.meetAccKey

theorem MemoriesOk.meetAcc {g row n : Nat} {s : State} (h : MemoriesOk s) : MemoriesOk (meetAcc g row n s) :=
  h.meetKeys

theorem MemoriesOk.accZero {g row rows : Nat} {s : State} (h : MemoriesOk s) : MemoriesOk (accZero g row rows s) :=
  h.frame rfl

theorem MemoriesOk.floatSet {g n : Nat} {v : W32} {s : State} (h : MemoriesOk s) : MemoriesOk (floatSet g n v s) :=
  h.frame rfl

theorem MemoriesOk.floatInc {f inc : Nat} {s : State} (h : MemoriesOk s) : MemoriesOk (floatInc f inc s).2 := by
  unfold Machine.floatInc
  split
  · exact h
  · extract_lets _ _
    split; exacts [h.floatSet, h.coreErr]

theorem MemoriesOk.meetWellGranule {w : Nat} {s : State} (h : MemoriesOk s) : MemoriesOk (meetWellGranule w s) :=
  .ite (h.frame (by rfl)).modWell (.ite (h.frame (by rfl)).modWell.raise h)

theorem MemoriesOk.touchWell {d : Nat} {s : State} (h : MemoriesOk s) : MemoriesOk (touchWell d s) := .ite h.modPwr h

theorem MemoriesOk.meetWell {n n' : Nat} {s : State} (h : MemoriesOk s) : MemoriesOk (meetWell n n' s) :=
  h.foldl fun _ _ h => h.meetWellGranule

theorem MemoriesOk.wellWritePiece {a : Nat} {bs : List Byte} {s : State} (h : MemoriesOk s) :
    MemoriesOk (wellWritePiece a bs s) :=
  .ite h.modWell ⟨h.hostWf, h.cisWf, wf_mwrite _ _ _ h.wellWf⟩

theorem MemoriesOk.wellWrite {n : Nat} {bs : List Byte} {s : State} (h : MemoriesOk s) :
    MemoriesOk (wellWrite n bs s) :=
  h.foldl fun _ _ h => h.wellWritePiece

theorem MemoriesOk.wellPoisonRange {n n' : Nat} {s : State} (h : MemoriesOk s) :
    MemoriesOk (wellPoisonRange n n' s) :=
  h.frame rfl

end Sys2Proof.Machine
end

section
/-! #### Sys2Proof/Machine/Operands.lean -/
namespace Sys2Proof.Machine

theorem MemoriesOk.inboundBad {n n' : Nat} {s : State} (h : MemoriesOk s) : MemoriesOk (inboundBad n n' s) :=
  h.foldl fun _ _ h => h.coreErr

theorem MemoriesOk.countInbound {own : Option Nat} {n n' : Nat} {s : State} (h : MemoriesOk s) :
    MemoriesOk (countInbound own n n' s) :=
  h.foldl fun _ _ h => .ite h h.perfAdd

theorem MemoriesOk.readFrom {own : Option Nat} {ad : Addr} {n : Nat} {s : State} (h : MemoriesOk s) :
    MemoriesOk (readFrom own ad n s).2 := by
  unfold Machine.readFrom
  split
  · exact h
  · exact h.meetWell.touchWell
  · split
    · extract_lets s2
      have h2 : MemoriesOk s2 := h.meetCis.countInbound
      split; exacts [h2.perfAdd, h2]
    · exact h.inboundBad

theorem MemoriesOk.readAt {ad : Addr} {n : Nat} {s : State} (h : MemoriesOk s) : MemoriesOk (readAt ad n s).2 :=
  h.readFrom

theorem MemoriesOk.writeTo {own : Option Nat} {ad : Addr} {bs : List Byte} {s : State} (h : MemoriesOk s) :
    MemoriesOk (writeTo own ad bs s).2 := by
  unfold Machine.writeTo
  split
  · exact h.hostWrite
  · exact h.touchWell.wellWrite
  · split; exacts [h.cisWrite.countInbound, h.inboundBad]

theorem MemoriesOk.writeAt {ad : Addr} {bs : List Byte} {s : State} (h : MemoriesOk s) :
    MemoriesOk (writeAt ad bs s).2 :=
  h.writeTo

theorem MemoriesOk.pickDetail {ds : List Nat} {s : State} (h : MemoriesOk s) : MemoriesOk (pickDetail ds s).2 := by
  unfold Machine.pickDetail
  split; exacts [h, h, h.takeFree]

end Sys2Proof.Machine
end

section
/-! #### Sys2Proof/Machine/Flags.lean -/
namespace Sys2Proof.Machine

theorem MemoriesOk.putCmd {s : State} {c : Cmd} (h : MemoriesOk s) : MemoriesOk (s.putCmd c) := h.frame rfl

theorem MemoriesOk.dropCmd {s : State} {u : Nat} (h : MemoriesOk s) : MemoriesOk (s.dropCmd u) := h.frame rfl

theorem MemoriesOk.modCmd {s : State} {u : Nat} {f : Cmd → Cmd} (h : MemoriesOk s) : MemoriesOk (s.modCmd u f) :=
  h.frame rfl

theorem MemoriesOk.countSat {u n : Nat} {s : State} (h : MemoriesOk s) : MemoriesOk (countSat u n s) := h.modCmd

end Sys2Proof.Machine
end

section
/-! #### Sys2Proof/Machine/LatSend.lean -/
namespace Sys2Proof.Machine

theorem MemoriesOk.sendSequenced {p base : Nat} {payload : Block} {s : State} (h : MemoriesOk s) :
    MemoriesOk (sendSequenced p base payload s) :=
  h.modPort.emit

theorem MemoriesOk.sendIdle {p : Nat} {nak : Bool} {s : State} (h : MemoriesOk s) : MemoriesOk (sendIdle p nak s) :=
  h.takeFree.modPort.emit

theorem MemoriesOk.owe {p key n : Nat} {s : State} (h : MemoriesOk s) : MemoriesOk (owe p key n s) := .ite h h.modPort

theorem MemoriesOk.pumpOne {p : Nat} {s : State} (h : MemoriesOk s) : MemoriesOk (pumpOne p s) := by
  unfold Machine.pumpOne
  extract_lets +onlyGivenNames _
  refine .ite h ?_
  split
  · exact h
  · split; exacts [h, h.modPort.sendSequenced.owe]

theorem MemoriesOk.pumpPort {n p : Nat} {s : State} (h : MemoriesOk s) : MemoriesOk (pumpPort n p s) := by
  induction n generalizing s with
  | zero => exact h
  | succ n ih => exact ih h.pumpOne

theorem MemoriesOk.flushPort {n p : Nat} {s : State} (h : MemoriesOk s) : MemoriesOk (flushPort n p s) := by
  induction n generalizing s with
  | zero => exact h
  | succ n ih => exact .ite h (.ite (ih h.sendSequenced) (.ite h.sendIdle h))

theorem MemoriesOk.latSettle {s : State} (h : MemoriesOk s) : MemoriesOk (latSettle s) :=
  (h.foldl (fun _ _ h => h.pumpPort)).foldl fun _ _ h => h.flushPort

theorem MemoriesOk.deliverMsg {m : Msg} {s : State} (h : MemoriesOk s) : MemoriesOk (deliverMsg m s) :=
  .ite h.modLat (.ite h h.modLat)

theorem MemoriesOk.putFlits {p : Nat} {fs : List OutFlit} {s : State} (h : MemoriesOk s) :
    MemoriesOk (putFlits p fs s) :=
  .ite h.modPort h.modLat

theorem MemoriesOk.sendNow {m : Msg} {s : State} (h : MemoriesOk s) : MemoriesOk (sendNow m s) := by
  unfold Machine.sendNow
  split
  · exact h.modLat
  · refine .ite h.deliverMsg ?_
    split; exacts [h.modLat, h.putFlits.latSettle]

theorem MemoriesOk.sendMsg {m : Msg} {s : State} (h : MemoriesOk s) : MemoriesOk (sendMsg m s) :=
  .ite h.modLat h.sendNow

theorem MemoriesOk.drainOwn {n : Nat} {s : State} (h : MemoriesOk s) : MemoriesOk (drainOwn n s) := by
  induction n generalizing s with
  | zero => exact h
  | succ n ih =>
    unfold Machine.drainOwn
    split
    · exact h
    · split; exacts [h, ih h.modLat.sendNow]

theorem MemoriesOk.sendCtrl {dest gid code : Nat} {data : List Byte} {s : State} (h : MemoriesOk s) :
    MemoriesOk (sendCtrl dest gid code data s) :=
  h.sendMsg

theorem MemoriesOk.sendReady {gid : Nat} {s : State} (h : MemoriesOk s) : MemoriesOk (sendReady gid s) := by
  unfold Machine.sendReady
  split; exacts [h, h.modLat.sendCtrl]

theorem MemoriesOk.reportAbort {u : Nat} {s : State} (h : MemoriesOk s) : MemoriesOk (reportAbort u s) := by
  unfold Machine.reportAbort
  split
  · exact h
  · split; exacts [h, .ite h.sendCtrl h]

theorem MemoriesOk.sendOthers {gid code : Nat} {g : Group} {data : List Byte} {s : State} (h : MemoriesOk s) :
    MemoriesOk (sendOthers gid code g data s) :=
  h.foldl fun _ _ h => h.sendCtrl

theorem MemoriesOk.leaveGroup {u : Nat} {s : State} (h : MemoriesOk s) : MemoriesOk (leaveGroup u s) := by
  unfold Machine.leaveGroup
  split; exacts [h, .modLat (.ite h.sendOthers h)]

end Sys2Proof.Machine
end

section
/-! #### Sys2Proof/Machine/Secure.lean -/
namespace Sys2Proof.Machine

theorem MemoriesOk.trySecure {u : Nat} {s : State} (h : MemoriesOk s) : MemoriesOk (trySecure u s).2 := by
  unfold Machine.trySecure
  split
  · exact h
  · extract_lets _
    split; exacts [h.modCtx.modCmd, h]

theorem MemoriesOk.kvGranted {u : Nat} {s : State} (h : MemoriesOk s) : MemoriesOk (kvGranted u s) := h.modCmd

theorem MemoriesOk.kvRetry {u : Nat} {s : State} (h : MemoriesOk s) : MemoriesOk (kvRetry u s) := by
  unfold Machine.kvRetry
  split
  · exact h
  · refine .ite h ?_
    split
    next e => exact (h.trySecure.snd e).kvGranted
    next e => exact (h.trySecure.snd e).modCmd

theorem MemoriesOk.wakeWaiters {c : Nat} {s : State} (h : MemoriesOk s) : MemoriesOk (wakeWaiters c s) :=
  h.foldl fun _ _ h => h.kvRetry

theorem MemoriesOk.givePages {c : Nat} {ps : List Nat} {s : State} (h : MemoriesOk s) :
    MemoriesOk (givePages c ps s) :=
  .ite h h.modCtx.wakeWaiters

end Sys2Proof.Machine
end

section
/-! #### Sys2Proof/Machine/Weir.lean -/
namespace Sys2Proof.Machine

theorem MemoriesOk.request {r : Nat} {q : ChargeReq} {s : State} (h : MemoriesOk s) : MemoriesOk (request r q s) :=
  h.modRail

theorem MemoriesOk.holdCharge {r : Nat} {r' : ChargeReq} {s : State} (h : MemoriesOk s) :
    MemoriesOk (holdCharge r r' s) :=
  h.modRail

theorem MemoriesOk.dropCharges {p : ChargeReq → Bool} {s : State} (h : MemoriesOk s) : MemoriesOk (dropCharges p s) :=
  h.modPwr

theorem MemoriesOk.setStanding {n st : Nat} {s : State} (h : MemoriesOk s) : MemoriesOk (setStanding n st s) :=
  .ite h.modRail h.modRail.holdCharge

theorem MemoriesOk.requestStanding {n st cls : Nat} {s : State} (h : MemoriesOk s) :
    MemoriesOk (requestStanding n st cls s) :=
  h.request

theorem MemoriesOk.relaxCluster {n : Nat} {s : State} (h : MemoriesOk s) : MemoriesOk (relaxCluster n s) :=
  .ite h.setStanding h

theorem MemoriesOk.beginWake {n cls : Nat} {s : State} (h : MemoriesOk s) : MemoriesOk (beginWake n cls s) := by
  unfold Machine.beginWake
  extract_lets +onlyGivenNames _
  exact .ite h (.ite (.ite h.modDom.setStanding h.modDom.requestStanding) (.ite h.modDom h.modDom))

theorem MemoriesOk.requestStages {what : ChargeFor} {g cls draw pump : Nat} {s : State} (h : MemoriesOk s) :
    MemoriesOk (requestStages what g cls draw pump s) :=
  h.request.foldl fun _ _ h => h.request

theorem MemoriesOk.requestPump {u g cls : Nat} {s : State} (h : MemoriesOk s) : MemoriesOk (requestPump u g cls s) :=
  h.request

theorem MemoriesOk.spoutCharge {k : Nat} {s : State} (h : MemoriesOk s) : MemoriesOk (spoutCharge k s) :=
  .ite (.ite h h.request) (.ite h.dropCharges h)

theorem MemoriesOk.rescale {r : Nat} {s : State} (h : MemoriesOk s) : MemoriesOk (rescale r s) := h.modRail

theorem MemoriesOk.standingGranted {n st : Nat} {s : State} (h : MemoriesOk s) :
    MemoriesOk (standingGranted n st s) :=
  .ite (.ite h.setStanding.modDom.modPwr h.setStanding.modDom) h.setStanding.modDom

theorem MemoriesOk.endThrottle {d : Nat} {s : State} (h : MemoriesOk s) : MemoriesOk (endThrottle d s) :=
  .ite h.modPwr h

theorem MemoriesOk.pointGranted {d : Nat} {s : State} (h : MemoriesOk s) : MemoriesOk (pointGranted d s) :=
  h.modDie.rescale.endThrottle

theorem MemoriesOk.grantNext {r pRest : Nat} {s : State} (h : MemoriesOk s) : MemoriesOk (grantNext r pRest s) := by
  unfold Machine.grantNext
  extract_lets +onlyGivenNames _
  split
  · exact h
  · split
    · exact h
    · extract_lets +onlyGivenNames _
      refine .ite ?_ h
      extract_lets s3
      have h3 : MemoriesOk s3 := h.modRail
      split; exacts [h3.standingGranted, h3.pointGranted, h3.holdCharge]

end Sys2Proof.Machine
end

section
/-! #### Sys2Proof/Machine/Spout.lean -/
namespace Sys2Proof.Machine

theorem MemoriesOk.provEdge {s t : State} (h : MemoriesOk t) : MemoriesOk (provEdge s t) := .ite h.raise h

theorem MemoriesOk.closeSegment {i : Nat} {s : State} (h : MemoriesOk s) : MemoriesOk (closeSegment i s) := by
  unfold Machine.closeSegment
  split
  · exact h
  · split; exacts [h, h.modStream.modProv]

theorem MemoriesOk.openSegment {i bseq payload fmt : Nat} {s : State} (h : MemoriesOk s) :
    MemoriesOk (openSegment i bseq payload fmt s) := by
  unfold Machine.openSegment
  split; exacts [h, h.frame rfl]

theorem MemoriesOk.closeIfChanged {i payload fmt : Nat} {s : State} (h : MemoriesOk s) :
    MemoriesOk (closeIfChanged i payload fmt s) := by
  unfold Machine.closeIfChanged
  split
  · exact h
  · split; exacts [h, .ite h h.closeSegment]

theorem MemoriesOk.writeRecord {t : Target} {bytes : Block} {bseq : Nat} {s : State} (h : MemoriesOk s) :
    MemoriesOk (writeRecord t bytes bseq s).2 :=
  h.hostWrite.hostWrite

theorem MemoriesOk.writeGap {t : Target} {s : State} (h : MemoriesOk s) : MemoriesOk (writeGap t s).2 := by
  unfold Machine.writeGap
  split
  · split; exacts [h, h.writeRecord]
  · exact h

theorem MemoriesOk.eachTarget {f : Target → State → Target × State} {ts : List Target} {s : State} (h : MemoriesOk s)
    (hf : ∀ t s, MemoriesOk s → MemoriesOk (f t s).2) : MemoriesOk (eachTarget f ts s).2 := by
  induction ts generalizing s with
  | nil => exact h
  | cons t ts ih => exact ih (hf t s h)

theorem MemoriesOk.putBlock {b : OutBlock} {t : Target} {s : State} (h : MemoriesOk s) :
    MemoriesOk (putBlock b t s).2 := by
  unfold Machine.putBlock
  split
  · exact h
  · split
    next e =>
      have h1 := h.writeGap.snd e
      split; exacts [h1, h1.writeRecord]

theorem MemoriesOk.setTargets {b : Nat} {ts : List Target} {s : State} (h : MemoriesOk s) :
    MemoriesOk (setTargets b ts s) :=
  h.modBinding

theorem MemoriesOk.releaseBinding {b : Nat} {s : State} (h : MemoriesOk s) : MemoriesOk (releaseBinding b s) := by
  unfold Machine.releaseBinding
  split; exacts [h, .ite (h.frame rfl) h.modBinding]

theorem MemoriesOk.freeStream {i : Nat} {s : State} (h : MemoriesOk s) : MemoriesOk (freeStream i s) := by
  unfold Machine.freeStream
  split
  · exact h
  · extract_lets +onlyGivenNames _
    refine .ite h.modStream ?_
    extract_lets s2 s3 s4
    have h2 : MemoriesOk s2 := .ite (h.frame rfl) (h.frame rfl)
    have h3 : MemoriesOk s3 := by unfold s3; split; exacts [h2.modLoop, h2]
    have h4 : MemoriesOk s4 := by unfold s4; split; exacts [h3.releaseBinding, h3]
    exact h4.spoutCharge

theorem MemoriesOk.putGap {b : Nat} {m : Missed} {s : State} (h : MemoriesOk s) : MemoriesOk (putGap b m s) := by
  unfold Machine.putGap
  split
  · exact h
  · split
    next e =>
      have h2 := (h.eachTarget (fun _ _ h => by split; exacts [h, h.writeGap])).snd e
      exact .ite h2.setTargets.freeStream h2.setTargets

theorem MemoriesOk.deliverBlock {b : Nat} {blk : OutBlock} {s : State} (h : MemoriesOk s) :
    MemoriesOk (deliverBlock b blk s) := by
  unfold Machine.deliverBlock
  split
  · exact h
  · split
    next e =>
      have h2 := (h.eachTarget (fun _ _ h => h.putBlock)).snd e
      extract_lets _ s3 _ s4
      have h3 : MemoriesOk s3 := h2.setTargets.modBinding
      have h4 : MemoriesOk s4 := .ite h3.msix h3
      exact .ite h4.freeStream h4

theorem MemoriesOk.deliver {b : Nat} {blk : OutBlock} {s : State} (h : MemoriesOk s) :
    MemoriesOk (deliver b blk s) := by
  unfold Machine.deliver
  split; exacts [h.putGap, h.deliverBlock]

theorem MemoriesOk.drainHeld {n b : Nat} {s : State} (h : MemoriesOk s) : MemoriesOk (drainHeld n b s) := by
  induction n generalizing s with
  | zero => exact h
  | succ n ih =>
    unfold Machine.drainHeld
    split
    · exact h
    · split; exacts [h, .ite h (ih h.modBinding.deliver)]

theorem MemoriesOk.shedHeld {p : OutBlock → Bool} {b : Nat} {s : State} (h : MemoriesOk s) :
    MemoriesOk (shedHeld p b s) := by
  unfold Machine.shedHeld
  split; exacts [h, h.modBinding.foldl (fun _ _ h => h.deliver)]

theorem MemoriesOk.flushWithheld {b : Nat} {s : State} (h : MemoriesOk s) : MemoriesOk (flushWithheld b s) := by
  unfold Machine.flushWithheld
  split
  · exact h
  · split; exacts [h, .ite h.modBinding.putGap h.modBinding]

theorem MemoriesOk.offer {b : Nat} {blk : OutBlock} {now : Bool} {s : State} (h : MemoriesOk s) :
    MemoriesOk (offer b blk now s) := by
  unfold Machine.offer
  extract_lets s1
  have h1 : MemoriesOk s1 := h.flushWithheld
  split; exacts [h1, .ite h1.modBinding (.ite h1.shedHeld.deliver h1.deliver)]

theorem MemoriesOk.withholdBlock {i bseq : Nat} {final : Bool} {s : State} (h : MemoriesOk s) :
    MemoriesOk (withholdBlock i bseq final s) := by
  unfold Machine.withholdBlock
  split
  · exact h
  · extract_lets s2 s3 s4 s5
    have h2 : MemoriesOk s2 := h.modStream
    have h3 : MemoriesOk s3 := h2.modProv.modSched
    have h4 : MemoriesOk s4 := h3.modStats
    have h5 : MemoriesOk s5 := .ite h4.closeSegment h4
    split; exacts [.ite h5.freeStream h5, h5.modBinding]

theorem MemoriesOk.emitBlock {i : Nat} {vals : List Int} {e : Emission} {s : State} (h : MemoriesOk s) :
    MemoriesOk (emitBlock i vals e s) := by
  unfold Machine.emitBlock
  split
  · exact h
  · refine .ite h ?_
    extract_lets +onlyGivenNames _ _
    refine .ite h.withholdBlock ?_
    extract_lets +onlyGivenNames _ _ _ _ _
    split
    · extract_lets _ s3 s4 s5 _ _ _ _ s6 s7 s8
      have h3 : MemoriesOk s3 := h.frame rfl
      have h4 : MemoriesOk s4 := h3.closeIfChanged
      have h5 : MemoriesOk s5 := .ite h4.openSegment h4
      have h6 : MemoriesOk s6 := h5.modStream
      have h7 : MemoriesOk s7 := .ite h6.closeSegment h6
      have h8 : MemoriesOk s8 := h7.modStats
      split; exacts [.ite h8.freeStream h8, h8.offer]

theorem MemoriesOk.emitConceal {i : Nat} {e : Emission} {s : State} (h : MemoriesOk s) :
    MemoriesOk (emitConceal i e s) := by
  unfold Machine.emitConceal
  split; exacts [h, h.emitBlock]

theorem MemoriesOk.emitSamples {i : Nat} {xs : List W32} {e : Emission} {s : State} (h : MemoriesOk s) :
    MemoriesOk (emitSamples i xs e s) := by
  unfold Machine.emitSamples
  split; exacts [h, h.emitBlock]

theorem MemoriesOk.closeAllSegments {s : State} (h : MemoriesOk s) : MemoriesOk (closeAllSegments s) :=
  h.foldl fun _ _ h => h.closeSegment

end Sys2Proof.Machine
end

section
/-! #### Sys2Proof/Machine/Ready.lean -/
namespace Sys2Proof.Machine

theorem MemoriesOk.enterBacklog {s : State} (h : MemoriesOk s) : MemoriesOk (enterBacklog s) := h.modSched

end Sys2Proof.Machine
end

section
/-! #### Sys2Proof/Machine/Life.lean -/
namespace Sys2Proof.Machine

theorem MemoriesOk.writeRing {q : Nat} {x : Queue} {r : RingRec} {s : State} (h : MemoriesOk s) :
    MemoriesOk (writeRing q x r s) :=
  .ite h.hostWrite.hostWrite.modQueue.msix h.hostWrite.hostWrite.modQueue

theorem MemoriesOk.drainRing {n q : Nat} {s : State} (h : MemoriesOk s) : MemoriesOk (drainRing n q s) := by
  induction n generalizing s with
  | zero => exact h
  | succ n ih =>
    unfold Machine.drainRing
    split
    · exact h
    · split; exacts [h, .ite h (ih h.modQueue.writeRing)]

theorem MemoriesOk.pushRecord {q : Nat} {r : RingRec} {s : State} (h : MemoriesOk s) :
    MemoriesOk (pushRecord q r s) := by
  unfold Machine.pushRecord
  split; exacts [h, .ite h h.modQueue.drainRing]

theorem MemoriesOk.pushMark {q : Nat} {s : State} (h : MemoriesOk s) : MemoriesOk (pushMark q s) := by
  unfold Machine.pushMark
  split; exacts [h, .ite h h.pushRecord]

theorem MemoriesOk.recovery {cs : List Nat} {s : State} (h : MemoriesOk s) : MemoriesOk (recovery cs s) :=
  (h.modDev.raise.foldl (fun _ _ h => h.pushMark)).frame rfl

theorem MemoriesOk.clientAdd {tag which : Nat} {s : State} (h : MemoriesOk s) : MemoriesOk (clientAdd tag which s) :=
  .ite (.ite h (h.frame (by rfl)).modSched.raise) (h.frame rfl)

theorem MemoriesOk.ledgerCharge {cls n : Nat} {s : State} (h : MemoriesOk s) : MemoriesOk (ledgerCharge cls n s) :=
  h.enterBacklog.modSched

theorem MemoriesOk.countFetch {c : Cmd} {s : State} (h : MemoriesOk s) : MemoriesOk (countFetch c s) := by
  unfold Machine.countFetch
  refine .ite h ?_
  split; exacts [h, h.modStats.clientAdd]

theorem MemoriesOk.startCmd {u : Nat} {s : State} (h : MemoriesOk s) : MemoriesOk (startCmd u s) := h.modCmd

theorem MemoriesOk.zeroSlot {g k : Nat} {s : State} (h : MemoriesOk s) : MemoriesOk (zeroSlot g k s) :=
  h.cisZero.frame rfl

theorem MemoriesOk.freeRegion {g i : Nat} {s : State} (h : MemoriesOk s) : MemoriesOk (freeRegion g i s) := h.modCore

theorem MemoriesOk.zeroKey {c : Nat} {s : State} (h : MemoriesOk s) : MemoriesOk (zeroKey c s) := h.modCtx

theorem MemoriesOk.scrubSlot {c g k : Nat} {s : State} (h : MemoriesOk s) : MemoriesOk (scrubSlot c g k s) :=
  h.zeroSlot.zeroKey

theorem MemoriesOk.zeroSlotsOn {c : Nat} {gs : List Nat} {s : State} (h : MemoriesOk s) :
    MemoriesOk (zeroSlotsOn c gs s) := by
  unfold Machine.zeroSlotsOn
  refine h.foldl fun _ _ h => ?_
  split; exacts [h.scrubSlot, h]

theorem MemoriesOk.freeImageOn {k g : Nat} {s : State} (h : MemoriesOk s) : MemoriesOk (freeImageOn k g s) := by
  unfold Machine.freeImageOn
  extract_lets s1
  have h1 : MemoriesOk s1 := by unfold s1; split; exacts [h.freeRegion, h]
  exact h1.frame rfl

theorem MemoriesOk.scrubAtRetire {c : Cmd} {status : Nat} {s : State} (h : MemoriesOk s) :
    MemoriesOk (scrubAtRetire c status s) := by
  unfold Machine.scrubAtRetire
  refine .ite h ?_
  split; exacts [h, .ite h.zeroSlotsOn h]

theorem MemoriesOk.countRetire {c : Cmd} {status backlog : Nat} {s : State} (h : MemoriesOk s) :
    MemoriesOk (countRetire c status backlog s) := by
  unfold Machine.countRetire
  extract_lets +onlyGivenNames s1
  have h1 : MemoriesOk s1 := h.modSched
  refine .ite h1 ?_
  split; exacts [h1, .modStats (.ite h1.clientAdd (.ite h1.clientAdd h1))]

theorem MemoriesOk.backlogOf {c : Cmd} {s : State} (h : MemoriesOk s) : MemoriesOk (backlogOf c s).2 := by
  unfold Machine.backlogOf
  split; exacts [h, h.takeFree]

theorem MemoriesOk.tallyClose {q : Nat} {s : State} (h : MemoriesOk s) : MemoriesOk (tallyClose q s) := by
  unfold Machine.tallyClose
  split
  · split; exacts [h.modCmd, h]
  · exact h

theorem MemoriesOk.retireOnly {u status detail : Nat} {s : State} (h : MemoriesOk s) :
    MemoriesOk (retireOnly u status detail s) := by
  unfold Machine.retireOnly
  split; exacts [h, h.scrubAtRetire.backlogOf.pushRecord.countRetire.leaveGroup.tallyClose.dropCmd]

theorem MemoriesOk.vacate {u : Nat} {s : State} (h : MemoriesOk s) : MemoriesOk (vacate u s) := h.frame rfl

theorem MemoriesOk.occupy {u : Nat} {gs : List Nat} {s : State} (h : MemoriesOk s) : MemoriesOk (occupy u gs s) :=
  (h.foldl (fun _ _ h => h.modCore)).modCmd

theorem MemoriesOk.freeCores {u : Nat} {s : State} (h : MemoriesOk s) : MemoriesOk (freeCores u s) :=
  h.vacate.dropCharges

theorem MemoriesOk.chargeRun {u cyc : Nat} {s : State} (h : MemoriesOk s) : MemoriesOk (chargeRun u cyc s) := by
  unfold Machine.chargeRun
  split; exacts [h, h.modCmd.ledgerCharge]

theorem MemoriesOk.freeCycles {s : State} (h : MemoriesOk s) : MemoriesOk (freeCycles s).2 := h.takeFree

theorem MemoriesOk.pumpHeld {u cyc : Nat} {s : State} (h : MemoriesOk s) : MemoriesOk (pumpHeld u cyc s) := by
  unfold Machine.pumpHeld
  split; exacts [h, h.foldl (fun _ _ h => .ite h.takeFree.perfAdd h)]

theorem MemoriesOk.leavePump {u cyc : Nat} {s : State} (h : MemoriesOk s) : MemoriesOk (leavePump u cyc s) :=
  h.pumpHeld.chargeRun.freeCores

theorem MemoriesOk.releaseSecured {u : Nat} {s : State} (h : MemoriesOk s) : MemoriesOk (releaseSecured u s) := by
  unfold Machine.releaseSecured
  split; exacts [h, h.modCmd.givePages]

theorem MemoriesOk.releaseStaging {u : Nat} {s : State} (h : MemoriesOk s) : MemoriesOk (releaseStaging u s) :=
  h.frame rfl

theorem MemoriesOk.discardRun {u : Nat} {s : State} (h : MemoriesOk s) : MemoriesOk (discardRun u s) :=
  h.freeCores.releaseSecured.releaseStaging

theorem MemoriesOk.partialWrite {ad : Addr} {new : List Byte} {s : State} (h : MemoriesOk s) :
    MemoriesOk (partialWrite ad new s) := by
  unfold Machine.partialWrite
  split
  next e =>
    have h1 := h.takeFree.snd e
    extract_lets +onlyGivenNames _
    split; exacts [h1.hostWrite, h1.wellWrite.frame rfl, .ite (h1.cisWrite.frame rfl) h1]

theorem MemoriesOk.stopScrubSlot {g k : Nat} {s : State} (h : MemoriesOk s) : MemoriesOk (stopScrubSlot g k s) :=
  h.frame rfl

theorem MemoriesOk.stopScrub {c : Cmd} {s : State} (h : MemoriesOk s) : MemoriesOk (stopScrub c s) := by
  unfold Machine.stopScrub
  extract_lets +onlyGivenNames s1
  have h1 : MemoriesOk s1 := h.foldl fun _ _ h => h.partialWrite
  refine .ite ?_ h1
  extract_lets s2
  have h2 : MemoriesOk s2 := h1.foldl fun _ _ h => by split; exacts [h.stopScrubSlot, h]
  exact h2.takeFree.modCtx

theorem MemoriesOk.stopTransfer {c : Cmd} {s : State} (h : MemoriesOk s) : MemoriesOk (stopTransfer c s) := by
  unfold Machine.stopTransfer
  refine .ite h (.ite ?_ ?_)
  · split
    · split
      next e => exact (h.readAt.snd e).partialWrite
      next e => exact (h.readAt.snd e)
    · exact h
  · refine .ite ?_ ?_
    · split; exacts [h.partialWrite, h]
    · refine .ite h.stopScrub (.ite ?_ ?_)
      · split; exacts [h.takeFree.partialWrite, h]
      · exact h

theorem MemoriesOk.stopTransfers {s : State} (h : MemoriesOk s) : MemoriesOk (stopTransfers s) :=
  h.foldl fun _ _ h => h.stopTransfer

theorem MemoriesOk.stopRun {u : Nat} {s : State} (h : MemoriesOk s) : MemoriesOk (stopRun u s) := by
  unfold Machine.stopRun
  split
  · exact h
  · extract_lets s2 s3 s4
    have h2 : MemoriesOk s2 := h.stopTransfer
    have h3 : MemoriesOk s3 := .ite h2.freeCycles.chargeRun (.ite h2.chargeRun h2)
    have h4 : MemoriesOk s4 := h3.reportAbort
    exact h4.discardRun

theorem MemoriesOk.requeue {u cyc : Nat} {s : State} (h : MemoriesOk s) : MemoriesOk (requeue u cyc s) :=
  h.reportAbort.chargeRun.discardRun.modLat.modCmd

theorem MemoriesOk.closeSeq {q : Nat} {s : State} (h : MemoriesOk s) : MemoriesOk (closeSeq q s) := by
  unfold Machine.closeSeq
  split; exacts [h, (h.frame (by rfl)).givePages]

theorem MemoriesOk.retireWaiters {st : Stream} {status detail : Nat} {s : State} (h : MemoriesOk s) :
    MemoriesOk (retireWaiters st status detail s) := by
  unfold Machine.retireWaiters
  extract_lets s1 s2
  have h1 : MemoriesOk s1 := by unfold s1; split; exacts [h.retireOnly, h]
  have h2 : MemoriesOk s2 := by unfold s2; split; exacts [h1.retireOnly, h1]
  split; exacts [.ite h2.retireOnly h2.retireOnly, h2]

theorem MemoriesOk.releaseKeyWait {l : Nat} {s : State} (h : MemoriesOk s) : MemoriesOk (releaseKeyWait l s) :=
  (h.frame (by rfl)).foldl fun _ _ h => h.retireOnly

theorem MemoriesOk.finalConceal {i : Nat} {s : State} (h : MemoriesOk s) : MemoriesOk (finalConceal i s) := by
  unfold Machine.finalConceal
  split; exacts [h, .ite h (.ite h.emitConceal h.freeStream)]

theorem MemoriesOk.buryLoop {l : Nat} {s : State} (h : MemoriesOk s) : MemoriesOk (buryLoop l s) := by
  unfold Machine.buryLoop
  split; exacts [h, (h.foldl (fun _ _ h => h.finalConceal)).frame rfl]

theorem MemoriesOk.endUnder {i status detail : Nat} {s : State} (h : MemoriesOk s) :
    MemoriesOk (endUnder i status detail s) := by
  unfold Machine.endUnder
  split; exacts [h, h.retireWaiters.modStream]

theorem MemoriesOk.endWaits {l detail : Nat} {s : State} (h : MemoriesOk s) : MemoriesOk (endWaits l detail s) := by
  unfold Machine.endWaits
  extract_lets s1 s2
  have h1 : MemoriesOk s1 := by unfold s1; split; exacts [h.retireOnly, h]
  have h2 : MemoriesOk s2 := h1.frame rfl
  exact h2.releaseKeyWait

theorem MemoriesOk.dropWaitingLoop {l status detail : Nat} {s : State} (h : MemoriesOk s) :
    MemoriesOk (dropWaitingLoop l status detail s) := by
  unfold Machine.dropWaitingLoop
  split
  · exact h
  · extract_lets s2 _ s3 s4
    have h2 : MemoriesOk s2 := h.dropCharges.endWaits
    have h3 : MemoriesOk s3 := h2.foldl fun _ _ h => h.endUnder.finalConceal
    have h4 : MemoriesOk s4 := .ite h3.modLoop (h3.frame rfl)
    exact h4.relaxCluster

theorem MemoriesOk.endLoop {l status detail : Nat} {s : State} (h : MemoriesOk s) :
    MemoriesOk (endLoop l status detail s) := by
  unfold Machine.endLoop
  split
  · exact h
  · refine .ite h.dropWaitingLoop.retireOnly ?_
    extract_lets s2 s3 s4 s5 s6 s7
    have h2 : MemoriesOk s2 := .ite h.freeCycles.chargeRun h
    have h3 : MemoriesOk s3 := h2.frame rfl
    have h4 : MemoriesOk s4 := h3.vacate
    have h5 : MemoriesOk s5 := h4.dropCharges.relaxCluster
    have h6 : MemoriesOk s6 := h5.foldl fun _ _ h => h.endUnder
    have h7 : MemoriesOk s7 := h6.endWaits.retireOnly
    exact .ite h7.buryLoop h7

theorem MemoriesOk.killAs {u status detail : Nat} {s : State} (h : MemoriesOk s) :
    MemoriesOk (killAs u status detail s) := by
  unfold Machine.killAs
  split
  · exact h
  · refine .ite ?_ ?_
    · split; exacts [h.endLoop, h.retireOnly]
    · exact (h.stopRun.frame (by rfl)).retireOnly

theorem MemoriesOk.releaseSlots {c : Nat} {scrub : Bool} {s : State} (h : MemoriesOk s) :
    MemoriesOk (releaseSlots c scrub s) := by
  unfold Machine.releaseSlots
  extract_lets s1 s2
  have h1 : MemoriesOk s1 := h.foldl fun _ _ h => by split; exacts [.freeRegion (.ite h.scrubSlot h), h]
  have h2 : MemoriesOk s2 := by
    unfold s2
    split; exacts [h1, .modCtx (.ite (h1.foldl (fun _ _ h => h.wellWrite.zeroKey)) h1)]
  exact h2.foldl fun _ _ h => h.foldl fun _ _ h => h.freeImageOn

theorem MemoriesOk.teardown {c status detail : Nat} {s : State} (h : MemoriesOk s) :
    MemoriesOk (teardown c status detail s) := by
  unfold Machine.teardown
  split
  · exact h
  · refine .ite h ?_
    extract_lets _ _ s2 s3 _ s4 s5 _ s6 s7 s8
    have h2 : MemoriesOk s2 := h.modCtx
    have h3 : MemoriesOk s3 := h2.modSched
    have h4 : MemoriesOk s4 := h3.foldl fun _ _ h => h.shedHeld
    have h5 : MemoriesOk s5 := h4.foldl fun _ _ h => h.killAs
    have h6 : MemoriesOk s6 := h5.foldl fun _ _ h => h.finalConceal
    have h7 : MemoriesOk s7 := h6.foldl fun _ _ h => .ite (h.frame rfl) h.modBinding
    have h8 : MemoriesOk s8 := h7.foldl fun _ _ h => h.closeSeq
    exact h8.releaseSlots

theorem MemoriesOk.retire {u status detail : Nat} {s : State} (h : MemoriesOk s) :
    MemoriesOk (retire u status detail s) := by
  unfold Machine.retire
  split; exacts [h, .ite h.retireOnly.teardown h.retireOnly]

theorem MemoriesOk.completeOk {u : Nat} {s : State} (h : MemoriesOk s) : MemoriesOk (completeOk u s) := h.retire

theorem MemoriesOk.refuse {u : Nat} {ds : List Nat} {s : State} (h : MemoriesOk s) : MemoriesOk (refuse u ds s) :=
  h.pickDetail.retire

theorem MemoriesOk.faultPlan {u status detail : Nat} {s : State} (h : MemoriesOk s) :
    MemoriesOk (faultPlan u status detail s) := by
  unfold Machine.faultPlan
  split
  · exact h
  · refine .ite ?_ ?_
    · split; exacts [.ite h.endLoop.teardown h.endLoop, h.stopRun.retire]
    · exact h.stopRun.retire

end Sys2Proof.Machine
end

section
/-! #### Sys2Proof/Machine/Order.lean -/
namespace Sys2Proof.Machine

theorem MemoriesOk.onStart {u op : Nat} {s : State} {body : Cmd → State → State} (h : MemoriesOk s)
    (hbody : ∀ c s, MemoriesOk s → MemoriesOk (body c s)) : MemoriesOk (onStart u op s body) := by
  unfold Machine.onStart
  split; exacts [h, .ite (hbody _ _ h.startCmd) h]

theorem MemoriesOk.checked {u : Nat} {cs : List Check} {s : State} {go : State → State} (h : MemoriesOk s)
    (hgo : ∀ s, MemoriesOk s → MemoriesOk (go s)) : MemoriesOk (checked u cs s go) := by
  unfold Machine.checked
  split; exacts [hgo _ h, h.refuse]

theorem MemoriesOk.withObject {u : Nat} {ad : Addr} {n : Nat} {s : State} {go : Block → State → State}
    (h : MemoriesOk s) (hgo : ∀ b s, MemoriesOk s → MemoriesOk (go b s)) : MemoriesOk (withObject u ad n s go) := by
  unfold Machine.withObject
  split
  next e =>
    have h1 := h.readAt.snd e
    exact hgo _ _ h1
  next e => exact (h.readAt.snd e).retire
  next e => exact (h.readAt.snd e).retire

end Sys2Proof.Machine
end

section
/-! #### Sys2Proof/Machine/Queues.lean -/
namespace Sys2Proof.Machine

theorem MemoriesOk.execQueueOpen {u : Nat} {s : State} (h : MemoriesOk s) : KeepsNext (execQueueOpen u s) :=
  (h.onStart (fun _ _ h => h.checked (fun _ h => (h.frame (by rfl)).completeOk))).next

theorem MemoriesOk.execQueueClose {u : Nat} {s : State} (h : MemoriesOk s) : KeepsNext (execQueueClose u s) :=
  (h.onStart (fun _ _ h => h.checked (fun _ h => h.modQueue.modCmd))).next

theorem MemoriesOk.execQueueClosed {u : Nat} {s : State} (h : MemoriesOk s) : KeepsNext (execQueueClosed u s) := by
  unfold Machine.execQueueClosed
  refine .next ?_
  split
  · exact h
  · split; exacts [.ite (h.retire.frame rfl) h, h]

theorem MemoriesOk.killAll {ts : List Cmd} {reason : Nat} {s : State} (h : MemoriesOk s) :
    MemoriesOk (killAll ts reason s) :=
  h.foldl fun _ _ h => h.killAs

theorem MemoriesOk.execKill {u : Nat} {s : State} (h : MemoriesOk s) : KeepsNext (execKill u s) :=
  (h.onStart (fun _ _ h => h.checked (fun _ h => h.killAll.retire))).next

theorem MemoriesOk.execFence {u : Nat} {s : State} (h : MemoriesOk s) : KeepsNext (execFence u s) :=
  (h.onStart (fun _ _ h => h.completeOk)).next

theorem MemoriesOk.valveAdd {v n : Nat} {s : State} (h : MemoriesOk s) : MemoriesOk (valveAdd v n s) := h.frame rfl

theorem MemoriesOk.execValveSet {u : Nat} {s : State} (h : MemoriesOk s) : KeepsNext (execValveSet u s) :=
  (h.onStart (fun _ _ h => (h.frame (by rfl)).completeOk)).next

theorem MemoriesOk.execValveSignal {u : Nat} {s : State} (h : MemoriesOk s) : KeepsNext (execValveSignal u s) :=
  .next (h.onStart fun _ _ h => h.checked fun _ h => .completeOk (.ite h.valveAdd h.sendMsg))

theorem MemoriesOk.execValveWait {u : Nat} {s : State} (h : MemoriesOk s) : KeepsNext (execValveWait u s) :=
  (h.onStart (fun _ _ h => h.modCmd)).next

theorem MemoriesOk.execValveWaitPass {u : Nat} {s : State} (h : MemoriesOk s) :
    KeepsNext (execValveWaitPass u s) := by
  unfold Machine.execValveWaitPass
  refine .next ?_
  split; exacts [h, .ite h.completeOk h]

theorem MemoriesOk.execValveWaitTimeout {u : Nat} {s : State} (h : MemoriesOk s) :
    KeepsNext (execValveWaitTimeout u s) := by
  unfold Machine.execValveWaitTimeout
  refine .next ?_
  split; exacts [h, .ite h.retire h]

theorem MemoriesOk.queueError {q : Nat} {s : State} (h : MemoriesOk s) : MemoriesOk (queueError q s) := by
  unfold Machine.queueError
  split; exacts [.ite h h.modQueue.raise, h]

theorem MemoriesOk.readQueueLine {q : Nat} {line : QLine} {s : State} (h : MemoriesOk s) :
    MemoriesOk (readQueueLine q line s) := by
  unfold Machine.readQueueLine
  split
  · exact h
  · refine .ite h ?_
    split; exacts [.ite h.modQueue h.queueError, .ite h.modQueue.drainRing h.queueError]

theorem MemoriesOk.execHeldLineSnoop {stores : List HostStore} {q : Nat} {line : QLine} {count : W64}
    {s : State} (h : MemoriesOk s) : KeepsNext (execHeldLineSnoop stores q line count s) := by
  unfold Machine.execHeldLineSnoop
  refine .next ?_
  extract_lets +onlyGivenNames s1
  have h1 : MemoriesOk s1 := h.hostStores
  split; exacts [h1, .ite h1.hostWrite.readQueueLine h1.hostWrite]

theorem MemoriesOk.admitPacket {b : Block} {c : Cmd} {s : State} (h : MemoriesOk s) :
    MemoriesOk (admitPacket b c s) := by
  have done {s : State} (h : MemoriesOk s) {u cs} : MemoriesOk (Machine.checked u cs s id) := h.checked fun _ h => h
  unfold Machine.admitPacket
  extract_lets s1 _
  have h1 : MemoriesOk s1 := (h.frame (by rfl)).countFetch
  refine .ite h1.retireOnly (h1.checked fun _ h => .ite h.retireOnly (.ite (done h) ?_))
  split; exacts [h, h.withObject fun _ _ h => done h.putCmd]

theorem MemoriesOk.fetchOne {q : Nat} {s : State} (h : MemoriesOk s) : MemoriesOk (fetchOne q s) := by
  unfold Machine.fetchOne
  split; exacts [h, (h.frame (by rfl)).admitPacket]

theorem MemoriesOk.fetchUpTo {n q : Nat} {s : State} (h : MemoriesOk s) : MemoriesOk (fetchUpTo n q s) := by
  induction n generalizing s with
  | zero => exact h
  | succ n ih => exact .ite (ih h.fetchOne) h

theorem MemoriesOk.writeHead {q : Nat} {s : State} (h : MemoriesOk s) : MemoriesOk (writeHead q s) := by
  unfold Machine.writeHead
  split; exacts [h, h.hostWrite]

theorem MemoriesOk.execPacketFetch {q : Nat} {s : State} (h : MemoriesOk s) : KeepsNext (execPacketFetch q s) :=
  .next (.ite (h.frame (by rfl)).fetchUpTo.writeHead h)

theorem MemoriesOk.execVendorDebug {q : Nat} {s : State} (h : MemoriesOk s) : KeepsNext (execVendorDebug q s) :=
  .next (.ite (h.frame (by rfl)).fetchUpTo.writeHead h)

theorem MemoriesOk.setAqEnable {on : Bool} {s : State} (h : MemoriesOk s) : MemoriesOk (setAqEnable on s) :=
  .ite h (.ite (h.frame rfl) (h.frame rfl))

theorem MemoriesOk.execAqEnable {on : Bool} {s : State} (h : MemoriesOk s) : KeepsNext (execAqEnable on s) :=
  h.setAqEnable.next

end Sys2Proof.Machine
end

section
/-! #### Sys2Proof/Machine/Contexts.lean -/
namespace Sys2Proof.Machine

theorem MemoriesOk.execCtxCreate {u : Nat} {s : State} (h : MemoriesOk s) : KeepsNext (execCtxCreate u s) := by
  unfold Machine.execCtxCreate
  refine .next (h.onStart fun _ _ h => ?_)
  refine h.checked fun _ h => ?_
  split; exacts [h, h.withObject (fun _ _ h => h.checked (fun _ h => (h.frame (by rfl)).countFetch.completeOk))]

theorem MemoriesOk.freeStopped {c : Nat} {s : State} (h : MemoriesOk s) : MemoriesOk (freeStopped c s) := h.frame rfl

theorem MemoriesOk.zeroPool {ps : List Nat} {s : State} (h : MemoriesOk s) : MemoriesOk (zeroPool ps s) :=
  h.foldl fun _ _ h => h.wellWrite

theorem MemoriesOk.execCtxDestroy {u : Nat} {s : State} (h : MemoriesOk s) : KeepsNext (execCtxDestroy u s) := by
  unfold Machine.execCtxDestroy
  refine .next (h.onStart fun _ _ h => ?_)
  extract_lets _ s1 s2 s3 s4
  have h1 : MemoriesOk s1 := h.killAll
  have h2 : MemoriesOk s2 := h1.teardown
  have h3 : MemoriesOk s3 := by unfold s3; split; exacts [.ite h2.zeroPool h2, h2]
  have h4 : MemoriesOk s4 := h3.completeOk.freeStopped
  exact h4.frame rfl

theorem MemoriesOk.pinSlots {cid : Nat} {on : Bool} {s : State} (h : MemoriesOk s) :
    MemoriesOk (pinSlots cid on s) := by
  unfold Machine.pinSlots
  extract_lets s1
  have h1 : MemoriesOk s1 := h.foldl fun _ _ h => by split; exacts [h.modCore, h]
  exact h1.modCtx

theorem MemoriesOk.execCtxPin {u : Nat} {s : State} (h : MemoriesOk s) : KeepsNext (execCtxPin u s) :=
  (h.onStart (fun _ _ h => h.checked (fun _ h => h.pinSlots.completeOk))).next

theorem MemoriesOk.scrubAll {c : Cmd} {s : State} (h : MemoriesOk s) : MemoriesOk (scrubAll c s) := by
  unfold Machine.scrubAll
  extract_lets +onlyGivenNames s1
  have h1 : MemoriesOk s1 := h.foldl fun _ _ h => h.writeAt
  refine .ite ?_ h1
  extract_lets s2
  have h2 : MemoriesOk s2 := h1.zeroSlotsOn
  split; exacts [.ite h2 h2.zeroKey, h2]

theorem MemoriesOk.execScrub {u cyc : Nat} {s : State} (h : MemoriesOk s) : KeepsNext (execScrub u cyc s) := by
  unfold Machine.execScrub
  refine .next ?_
  split; exacts [h, .ite h.scrubAll.leavePump.completeOk h]

theorem MemoriesOk.execStatsSnapshot {u : Nat} {s : State} (h : MemoriesOk s) : KeepsNext (execStatsSnapshot u s) :=
  (h.onStart (fun _ _ h => h.checked (fun _ h => h.hostWrite.completeOk))).next

end Sys2Proof.Machine
end

section
/-! #### Sys2Proof/Machine/Transfers.lean -/
namespace Sys2Proof.Machine

theorem MemoriesOk.spreadPoison {dst : Addr} {parts : List (Nat × Nat)} {s : State} (h : MemoriesOk s) :
    MemoriesOk (spreadPoison dst parts s) := by
  unfold Machine.spreadPoison
  refine h.foldl fun _ _ h => ?_
  split; exacts [h.wellPoisonRange, h.frame rfl, h.takeFree.hostWrite]

theorem MemoriesOk.partialRows {dst : Addr} {bs : List Byte} {s : State} (h : MemoriesOk s) :
    MemoriesOk (partialRows dst bs s) := by
  unfold Machine.partialRows
  split; exacts [h.foldl (fun _ _ h => .ite h.partialWrite h.inboundBad), h.partialWrite]

theorem MemoriesOk.endPump {u cyc status detail : Nat} {s : State} (h : MemoriesOk s) :
    MemoriesOk (endPump u cyc status detail s) :=
  h.leavePump.retire

theorem MemoriesOk.finishTransfer {u cyc : Nat} {own : Option Nat} {dst : Addr} {bs : List Byte} {f inc : Nat}
    {s : State} (h : MemoriesOk s) : MemoriesOk (finishTransfer u cyc own dst bs f inc s) := by
  unfold Machine.finishTransfer
  refine .ite h.partialRows.floatInc.endPump ?_
  split
  next e => exact (h.writeTo.snd e).floatInc.endPump
  next e => exact (h.writeTo.snd e).partialRows.endPump

theorem MemoriesOk.execCopy {u cyc : Nat} {s : State} (h : MemoriesOk s) : KeepsNext (execCopy u cyc s) := by
  unfold Machine.execCopy
  refine .next ?_
  split
  · exact h
  · refine .ite ?_ h
    extract_lets +onlyGivenNames _
    split
    · split
      next e => exact (h.readFrom.snd e).finishTransfer
      next e => exact (h.readFrom.snd e).partialRows.spreadPoison.endPump
      next e => exact (h.readFrom.snd e).endPump
    · exact h

theorem MemoriesOk.execFill {u cyc : Nat} {s : State} (h : MemoriesOk s) : KeepsNext (execFill u cyc s) := by
  unfold Machine.execFill
  refine .next ?_
  split
  · exact h
  · refine .ite ?_ ?_
    · split; exacts [h.finishTransfer, h]
    · exact h

theorem MemoriesOk.execSiphonPut {u : Nat} {s : State} (h : MemoriesOk s) : KeepsNext (execSiphonPut u s) :=
  (h.onStart (fun _ _ h => h.checked (fun _ h => (h.frame (by rfl)).modCmd))).next

theorem MemoriesOk.inboundWrite {n : Nat} {bs : List Byte} {f inc : Nat} {s : State} (h : MemoriesOk s) :
    MemoriesOk (inboundWrite n bs f inc s).2 := by
  unfold Machine.inboundWrite
  split
  · exact h.inboundBad
  · split; exacts [h.floatInc, h.cisWrite.countInbound.floatInc]

theorem MemoriesOk.execSiphonArrival {s : State} (h : MemoriesOk s) : KeepsNext (execSiphonArrival s) := by
  unfold Machine.execSiphonArrival
  refine .next ?_
  split
  · exact h
  · refine .ite h ?_
    split
    next e =>
      have h2 := (h.frame (by rfl)).inboundWrite.snd e
      split; exacts [h2, .ite (.ite h2 h2.faultPlan) (.ite h2.completeOk h2.retire)]

theorem MemoriesOk.loadShare {k g n off len : Nat} {s : State} (h : MemoriesOk s) :
    MemoriesOk (loadShare k g n off len s).2 := by
  unfold Machine.loadShare
  split
  · exact h
  · extract_lets +onlyGivenNames _ _ _
    split
    · exact h
    · extract_lets +onlyGivenNames s2
      have h2 : MemoriesOk s2 := h.modCore
      split
      next e => exact (h2.readAt.snd e).cisWrite
      next e => exact (h2.readAt.snd e).partialWrite.spreadPoison.freeRegion

theorem MemoriesOk.resideOn {k a split first : Nat} {img : ImageHdr} {gs : List Nat} {s : State} (h : MemoriesOk s) :
    MemoriesOk (resideOn k a split first img gs s).2 := by
  induction gs generalizing s with
  | nil => exact h
  | cons g gs ih =>
    unfold Machine.resideOn
    split
    · exact h
    · split
      next e => exact ih (h.freeImageOn.loadShare.snd e)
      next e => exact h.freeImageOn.loadShare.snd e

theorem MemoriesOk.execReside {u : Nat} {img : ImageHdr} {cyc : Nat} {s : State} (h : MemoriesOk s) :
    KeepsNext (execReside u img cyc s) := by
  unfold Machine.execReside
  refine .next ?_
  split
  · exact h
  · refine .ite ?_ h
    extract_lets +onlyGivenNames _ _ _ _ _
    split
    · exact h.leavePump.refuse
    · refine .ite h.endPump ?_
      split
      next e => exact ((h.readAt.snd e).resideOn.frame (by rfl)).endPump
      next e => exact ((h.readAt.snd e).resideOn.frame (by rfl)).endPump

theorem MemoriesOk.execUnreside {u : Nat} {s : State} (h : MemoriesOk s) : KeepsNext (execUnreside u s) := by
  unfold Machine.execUnreside
  refine .next ?_
  split
  · exact h
  · extract_lets _ _ go
    have hgo : ∀ s, MemoriesOk s → MemoriesOk (go s) := fun _ h => by
      unfold go
      extract_lets s3
      have h3 : MemoriesOk s3 := h.foldl fun _ _ h => h.freeImageOn
      exact .ite h3.modCmd h3.completeOk
    exact .ite (hgo _ h) (h.onStart (fun _ _ h => h.checked (fun _ h => hgo _ h)))

end Sys2Proof.Machine
end

section
/-! #### Sys2Proof/Machine/Kv.lean -/
namespace Sys2Proof.Machine

theorem MemoriesOk.withMap {qs : List Nat} {s : State} {bad go : State → State} (h : MemoriesOk s)
    (hbad : ∀ s, MemoriesOk s → MemoriesOk (bad s)) (hgo : ∀ s, MemoriesOk s → MemoriesOk (go s)) :
    MemoriesOk (withMap qs s bad go) := by
  unfold Machine.withMap
  extract_lets _ s1
  have h1 : MemoriesOk s1 := h.foldl fun _ _ h => h.meetWell
  exact .ite (hbad _ h1) (hgo _ h1)

theorem MemoriesOk.poisonEnd {u : Nat} {s : State} (h : MemoriesOk s) : MemoriesOk (poisonEnd u s) := h.retire

theorem MemoriesOk.fillRing {q : Nat} {x : Seq} {s : State} (h : MemoriesOk s) : MemoriesOk (fillRing q x s) := by
  unfold Machine.fillRing
  split; exacts [h, h.frame rfl]

theorem MemoriesOk.execKvSeqOpen {u : Nat} {s : State} (h : MemoriesOk s) : KeepsNext (execKvSeqOpen u s) := by
  unfold Machine.execKvSeqOpen
  refine .next (h.onStart fun _ _ h => ?_)
  extract_lets +onlyGivenNames _ _
  refine h.checked fun _ h => ?_
  split; exacts [h.retire, .ite h.retire (.completeOk (.ite (h.frame (by rfl)).fillRing (h.frame rfl)))]

theorem MemoriesOk.kvRefused {u q : Nat} {s : State} (h : MemoriesOk s) : MemoriesOk (kvRefused u q s) := by
  unfold Machine.kvRefused
  split; exacts [h, .ite h.retire h.modStats.modCmd]

theorem MemoriesOk.execKvSecureRetry {u : Nat} {s : State} (h : MemoriesOk s) : KeepsNext (execKvSecureRetry u s) :=
  .next (.ite h.kvRetry h)

theorem MemoriesOk.execKvWaitTimeout {u : Nat} {s : State} (h : MemoriesOk s) :
    KeepsNext (execKvWaitTimeout u s) := by
  unfold Machine.execKvWaitTimeout
  refine .next ?_
  split
  · exact h
  · refine .ite ?_ h
    split
    next e => exact (h.trySecure.snd e).kvGranted
    next e => exact (h.trySecure.snd e).retire

theorem MemoriesOk.execKvSeqClose {u : Nat} {s : State} (h : MemoriesOk s) : KeepsNext (execKvSeqClose u s) := by
  unfold Machine.execKvSeqClose
  refine .next (h.onStart fun _ _ h => ?_)
  exact h.checked fun _ h => h.withMap (fun _ h => h.poisonEnd) fun _ h => h.closeSeq.completeOk

theorem MemoriesOk.onPolicy {u : Nat} {op : Nat → Bool} {s : State} {body : Cmd → State → State}
    (h : MemoriesOk s) (hbody : ∀ c s, MemoriesOk s → MemoriesOk (body c s)) : MemoriesOk (onPolicy u op s body) := by
  unfold Machine.onPolicy
  split; exacts [h, .ite (h.onStart (fun _ _ h => hbody _ _ h)) h]

theorem MemoriesOk.execKvPolicySet {u : Nat} {s : State} (h : MemoriesOk s) : KeepsNext (execKvPolicySet u s) := by
  unfold Machine.execKvPolicySet
  refine .next (h.onPolicy fun _ _ h => ?_)
  extract_lets _
  exact .ite (h.checked (fun _ h => h.modCtx.completeOk)) (h.checked fun _ h => h.modSeq.completeOk)

theorem MemoriesOk.execPoolGrant {u : Nat} {s : State} (h : MemoriesOk s) : KeepsNext (execPoolGrant u s) :=
  (h.onPolicy (fun _ _ h => h.checked (fun _ h => h.givePages.completeOk))).next

theorem MemoriesOk.setPin {u : Nat} {c : Cmd} {on : Bool} {s : State} (h : MemoriesOk s) :
    MemoriesOk (setPin u c on s) := by
  unfold Machine.setPin
  extract_lets +onlyGivenNames _
  split; exacts [h.refuse, (h.frame (by rfl)).completeOk]

theorem MemoriesOk.execKvPolicyPin {u : Nat} {s : State} (h : MemoriesOk s) : KeepsNext (execKvPolicyPin u s) := by
  unfold Machine.execKvPolicyPin
  refine .next (h.onPolicy fun _ _ h => ?_)
  exact h.checked fun _ h => h.withMap (fun _ h => h.poisonEnd) fun _ h => h.setPin

theorem MemoriesOk.execKvPolicyUnpin {u : Nat} {s : State} (h : MemoriesOk s) :
    KeepsNext (execKvPolicyUnpin u s) := by
  unfold Machine.execKvPolicyUnpin
  refine .next (h.onPolicy fun _ _ h => ?_)
  exact h.checked fun _ h => h.withMap (fun _ h => h.poisonEnd) fun _ h => h.setPin

end Sys2Proof.Machine
end

section
/-! #### Sys2Proof/Machine/Plans.lean -/
namespace Sys2Proof.Machine

theorem MemoriesOk.runReady {u : Nat} {p : Plan} {ab : Block} {gb : Option Block} {s : State} (h : MemoriesOk s) :
    MemoriesOk (runReady u p ab gb s) := by
  unfold Machine.runReady
  extract_lets s1
  have h1 : MemoriesOk s1 := by unfold s1; split; exacts [h.modLat, h]
  exact h1.modCmd

theorem MemoriesOk.runChecked {u : Nat} {c : Cmd} {p : Plan} {ab : Block} {gb : Option Block} {s : State}
    (h : MemoriesOk s) : MemoriesOk (runChecked u c p ab gb s) := by
  unfold Machine.runChecked
  split
  · exact h
  · extract_lets _ _
    split; exacts [.ite h.startCmd.retire h.runReady, h.startCmd.refuse]

theorem MemoriesOk.runGroup {u : Nat} {c : Cmd} {p : Plan} {ab : Block} {s : State} (h : MemoriesOk s) :
    MemoriesOk (runGroup u c p ab s) := by
  unfold Machine.runGroup
  refine .ite h.runChecked ?_
  split; exacts [h, h.withObject (fun _ _ h => h.runChecked)]

theorem MemoriesOk.execRun {u : Nat} {p : Plan} {s : State} (h : MemoriesOk s) : KeepsNext (execRun u p s) := by
  unfold Machine.execRun
  refine .next ?_
  split
  · exact h
  · refine .ite ?_ h
    extract_lets _ _
    split
    · exact h.startCmd.refuse
    · refine .ite h.runGroup ?_
      split; exacts [h, h.withObject (fun _ _ h => h.runGroup)]

end Sys2Proof.Machine
end

section
/-! #### Sys2Proof/Machine/Records.lean -/
namespace Sys2Proof.Machine

theorem MemoriesOk.loadImage {g k : Nat} {b : Block} {s : State} (h : MemoriesOk s) :
    MemoriesOk (loadImage g k b s) :=
  h.cisWrite.accWrite.foldl fun _ _ h => h.floatSet



end Sys2Proof.Machine
end

section
/-! #### Sys2Proof/Machine/Local.lean -/
namespace Sys2Proof.Machine

theorem Eng.Keeps.stopWith {α : Type} {u status detail : Nat} : Eng.Keeps (stopWith u status detail : Eng α) :=
  fun _ h => h.faultPlan

theorem Eng.Keeps.eachM {α : Type} {f : α → Eng Unit} {xs : List α} (hf : ∀ x, (f x).Keeps) : (eachM f xs).Keeps := by
  induction xs with
  | nil => exact .pure
  | cons x xs ih => exact .bind (hf x) fun _ => ih

theorem Eng.Keeps.mapEng {α β : Type} {f : α → Eng β} {xs : List α} (hf : ∀ x, (f x).Keeps) : (mapEng f xs).Keeps := by
  induction xs with
  | nil => exact .pure
  | cons x xs ih => exact .bind (hf x) fun _ => .bind ih fun _ => .pure

theorem Eng.Keeps.load {a : At} {image : Option Nat} {off n : Nat} : Eng.Keeps (load a image off n) := by
  unfold Machine.load
  refine .bind .getS fun _ => ?_
  split
  · exact .stopWith
  · refine .bind (.modS (fun _ h => h.meetCis)) fun _ => ?_
    exact .bind .getS fun _ => .ite (.bind (.modS (fun _ h => h.perfAdd)) fun _ => .stopWith) .pure

theorem Eng.Keeps.store {a : At} {off : Nat} {bs : List Byte} : Eng.Keeps (store a off bs) := by
  unfold Machine.store
  refine .bind .getS fun _ => ?_
  split; exacts [.stopWith, .modS (fun _ h => h.cisWrite)]

theorem Eng.Keeps.keysLoad {a : At} {keys : State → Option (List Nat)} : Eng.Keeps (keysLoad a keys) := by
  unfold Machine.keysLoad
  refine .bind .getS fun _ => ?_
  split
  · exact .stopWith
  · refine .bind (.modS (fun _ h => h.meetKeys)) fun _ => ?_
    exact .bind .getS fun _ => .ite (.bind (.modS (fun _ h => h.perfAdd)) fun _ => .stopWith) .pure

theorem Eng.Keeps.keysStore {a : At} {keys : State → Option (List Nat)} {vs : List Nat} :
    Eng.Keeps (keysStore a keys vs) := by
  unfold Machine.keysStore
  refine .bind .getS fun _ => ?_
  split; exacts [.stopWith, .modS (fun _ h => h.accPuts)]

theorem Eng.Keeps.accLoad {a : At} {row lane n : Nat} : Eng.Keeps (accLoad a row lane n) := .keysLoad

theorem Eng.Keeps.accStore {a : At} {row : Nat} {vs : List Nat} : Eng.Keeps (accStore a row vs) := .keysStore

theorem Eng.Keeps.copyRows {a : At} {src dst n : Nat} : Eng.Keeps (copyRows a src dst n) :=
  .bind .keysLoad fun _ => .keysStore

theorem MemoriesOk.advance {a : At} {s : State} (h : MemoriesOk s) : MemoriesOk (advance a s) := by
  unfold Machine.advance
  extract_lets s1
  have h1 : MemoriesOk s1 := h.modCore
  split; exacts [.ite h1 h1.modCore, h1.modCore]

theorem MemoriesOk.holdPort {a : At} {st : PlanStep} {s : State} (h : MemoriesOk s) : MemoriesOk (holdPort a st s) :=
  .ite h h.modCore

theorem MemoriesOk.onStep {α : Type} {g : Nat} {s : State} {pick : PlanStep → Option α}
    {body : At → α → Eng Bool} (h : MemoriesOk s) (hbody : ∀ a a', Eng.Keeps (body a a')) :
    MemoriesOk (onStep g s pick body) := by
  unfold Machine.onStep
  split
  · exact h
  · split
    · exact h
    · split
      · exact h
      · refine .ite h (.ite h.advance ?_)
        refine Eng.Keeps.run ?_ h
        exact .bind (.modS fun _ h => h.holdPort) fun _ => .bind (hbody _ _) fun _ =>
          .ite (.modS fun _ h => h.advance) .pure

theorem MemoriesOk.countClash {g : Nat} {k : Clash} {s : State} (h : MemoriesOk s) :
    MemoriesOk (countClash g k s) := by
  unfold Machine.countClash
  extract_lets s1 s2
  have h1 : MemoriesOk s1 := .ite h.coreErr h
  have h2 : MemoriesOk s2 := .ite h1.perfAdd h1
  exact .ite h2.perfAdd h2

theorem Eng.Keeps.saturate {a : At} {n : Nat} : Eng.Keeps (saturate a n) :=
  .modS fun _ h => .ite h (by split; exacts [.ite h.countSat.modLoop h.countSat, h.countSat])

theorem Eng.Keeps.historyIn {a : At} : Eng.Keeps (historyIn a) :=
  .bind .getS fun _ => .eachM fun _ => .bind .load fun _ => .ite .stopWith .store

theorem Eng.Keeps.historyOut {a : At} : Eng.Keeps (historyOut a) :=
  .bind .getS fun _ => .eachM fun _ => .bind .load fun _ => .store

theorem Eng.Keeps.stateIn {a : At} : Eng.Keeps (stateIn a) := .bind .getS fun _ => .copyRows

theorem Eng.Keeps.tempsIn {a : At} : Eng.Keeps (tempsIn a) := by
  unfold Machine.tempsIn
  split; exacts [.pure, .bind .load fun _ => .pure]

end Sys2Proof.Machine
end

section
/-! #### Sys2Proof/Machine/Sched.lean -/
namespace Sys2Proof.Machine

theorem MemoriesOk.killBlock {l cyc : Nat} {s : State} (h : MemoriesOk s) : MemoriesOk (killBlock l cyc s) := by
  unfold Machine.killBlock
  split; exacts [h, .ite h (((h.chargeRun.vacate.foldl (fun _ _ h => h.modStream)).modCmd).modLoop)]

theorem MemoriesOk.killRun {u cyc : Nat} {s : State} (h : MemoriesOk s) : MemoriesOk (killRun u cyc s) := by
  unfold Machine.killRun
  split
  · exact h
  · refine .ite ?_ ?_
    · split; exacts [h.killBlock, h]
    · exact h.requeue

theorem MemoriesOk.countPreempt {cid : Nat} {s : State} (h : MemoriesOk s) : MemoriesOk (countPreempt cid s) :=
  h.modStats.modSched

theorem MemoriesOk.wakeCores {cls : Nat} {gs : List Nat} {s : State} (h : MemoriesOk s) :
    MemoriesOk (wakeCores cls gs s) :=
  h.foldl fun _ _ h => h.beginWake.beginWake

theorem MemoriesOk.placePump {c : Cmd} {gs : List Nat} {s : State} (h : MemoriesOk s) :
    MemoriesOk (placePump c gs s) :=
  (h.wakeCores.foldl (fun _ _ h => h.requestPump)).modCmd

theorem MemoriesOk.saveStarts {c : Cmd} {s : State} (h : MemoriesOk s) : MemoriesOk (saveStarts c s) :=
  .ite h (h.frame rfl)

theorem MemoriesOk.startPump {c : Cmd} {s : State} (h : MemoriesOk s) : MemoriesOk (startPump c s) :=
  (((h.occupy.foldl (fun _ _ h => h.modCore)).modCmd).startCmd).saveStarts

theorem MemoriesOk.takeSlot {cid g : Nat} {x : Ctx} {s t : State} (h : MemoriesOk s) (e : takeSlot cid x g s = some t) :
    MemoriesOk t := by
  unfold Machine.takeSlot at e
  split at e
  · obtain rfl := Option.some.inj e; exact h
  · obtain ⟨_, _, rfl⟩ := Option.map_eq_some_iff.1 e; exact h.frame rfl

theorem MemoriesOk.takeSlots {cid : Nat} {x : Ctx} {gs : List Nat} {s t : State} (h : MemoriesOk s)
    (e : takeSlots cid x gs s = some t) : MemoriesOk t := by
  induction gs generalizing s with
  | nil => obtain rfl := Option.some.inj e; exact h
  | cons g gs ih => obtain ⟨r, hr, e⟩ := Option.bind_eq_some_iff.1 e; exact ih (h.takeSlot hr) e

theorem MemoriesOk.reload {u k g r split : Nat} {s : State} (h : MemoriesOk s) :
    MemoriesOk (reload u k g r split s).2 := by
  unfold Machine.reload
  split
  · exact h
  · extract_lets +onlyGivenNames _
    split
    · exact h
    · extract_lets +onlyGivenNames _ s2
      have h2 : MemoriesOk s2 := h.freeImageOn
      split; exacts [h2, h2.loadShare.freeCycles.perfAdd.chargeRun.frame rfl]

theorem MemoriesOk.reloadAll {u : Nat} {p : Plan} {gs : List (Nat × Nat)} {s : State} (h : MemoriesOk s) :
    MemoriesOk (reloadAll u p gs s).2 := by
  induction gs generalizing s with
  | nil => exact h
  | cons e gs ih =>
    have h1 : MemoriesOk (p.images.foldl (fun (b : Prep × State) i =>
        if b.1 == .done then Machine.reload u i e.1 e.2 p.split b.2 else b) (.done, s)).2 := by
      refine List.foldlRecOn (motive := fun b : Prep × State => MemoriesOk b.2) p.images _ h fun b hb i _ => ?_
      split; exacts [hb.reload, hb]
    unfold Machine.reloadAll
    split
    next e => exact ih (h1.snd e)
    · exact h1

theorem MemoriesOk.armFloats {cid : Nat} {p : Plan} {gs : List Nat} {s : State} (h : MemoriesOk s) :
    MemoriesOk (armFloats cid p gs s) := by
  unfold Machine.armFloats
  refine h.foldl fun _ _ h => ?_
  split; exacts [h.foldl (fun _ _ h => h.floatSet), h]

theorem MemoriesOk.claimStaging {c : Cmd} {s : State} (h : MemoriesOk s) : MemoriesOk (claimStaging c s) := by
  unfold Machine.claimStaging
  extract_lets _
  split
  · exact h
  · split; exacts [h, h.modStream]

theorem Eng.Keeps.copiesIn {as : List At} : Eng.Keeps (copiesIn as) :=
  .bind (.eachM (fun _ => .historyIn)) fun _ => .eachM fun _ => .stateIn

theorem MemoriesOk.launch {u : Nat} {s : State} (h : MemoriesOk s) : MemoriesOk (launch u s) := by
  unfold Machine.launch
  split
  · exact h
  · split
    · exact h
    · extract_lets +onlyGivenNames _ s3
      have h3 : MemoriesOk s3 := h.occupy.modCmd.startCmd
      split
      · exact h3
      · extract_lets _
        refine Eng.Keeps.run (.bind .copiesIn fun _ => .bind ?_ fun _ => .modS fun _ h => h.modCmd.armFloats) h3
        split; exacts [.tempsIn, .pure]

theorem MemoriesOk.unplace {u : Nat} {s : State} (h : MemoriesOk s) : MemoriesOk (unplace u s) := h.freeCores.modCmd

theorem MemoriesOk.startPlan {c : Cmd} {p : Plan} {s : State} (h : MemoriesOk s) : MemoriesOk (startPlan c p s) := by
  unfold Machine.startPlan
  split
  · exact h
  · split
    · exact h.unplace
    next e =>
      have h1 := h.takeSlots e
      split
      · exact h.discardRun.refuse
      · split
        next e => exact (h1.reloadAll.snd e).unplace
        next e => exact (h1.reloadAll.snd e).discardRun.retire
        next e =>
          have h2 := h1.reloadAll.snd e
          refine .ite h2 (.ite h2.unplace ?_)
          split
          · exact .ite h2 h2.sendReady
          · refine h2.withMap (fun _ h => h.discardRun.poisonEnd) fun _ h => .ite h.claimStaging.launch ?_
            split
            next e => exact (h.trySecure.snd e).freeCores.modCmd.kvRefused
            next e => exact (h.trySecure.snd e).claimStaging.launch

theorem MemoriesOk.placePlan {c : Cmd} {p : Plan} {f : Nat} {s : State} (h : MemoriesOk s) :
    MemoriesOk (placePlan c p f s) :=
  (h.wakeCores.foldl (fun _ _ h => h.requestStages)).modCmd

theorem MemoriesOk.giveHomes {cid : Nat} {gs : List Nat} {s : State} (h : MemoriesOk s) :
    MemoriesOk (giveHomes cid gs s) :=
  h.foldl fun _ _ h => h.modCtx

theorem MemoriesOk.served {c : Cmd} {s : State} (h : MemoriesOk s) : MemoriesOk (served c s) := h.modSched

theorem MemoriesOk.placeFirst {g : Nat} {cs : List Cmd} {s : State} (h : MemoriesOk s) :
    MemoriesOk (placeFirst g cs s) := by
  induction cs with
  | nil => exact h
  | cons c cs ih =>
    unfold Machine.placeFirst
    refine .ite ?_ ?_
    · split
      · exact h.startCmd.refuse
      · exact .ite h.startCmd.retireOnly (.ite h.placePump.served ih)
    · split
      · exact ih
      · refine .ite (.ite h ih) (.ite h.releaseSecured.startCmd.refuse (.ite h.releaseSecured.startCmd.retireOnly ?_))
        split; exacts [.ite h.giveHomes h.placePlan.served, ih]

theorem MemoriesOk.execDispatch {pumpCore : Nat} {s : State} (h : MemoriesOk s) :
    KeepsNext (execDispatch pumpCore s) := by
  unfold Machine.execDispatch
  refine .next (.ite h ?_)
  split
  · refine .ite h.startPump ?_
    split; exacts [h.startPlan, h]
  · exact h.enterBacklog.placeFirst

theorem MemoriesOk.execSharePreemption {u : Nat} {ran : Ran} {s : State} (h : MemoriesOk s) :
    KeepsNext (execSharePreemption u ran s) := by
  unfold Machine.execSharePreemption
  refine .next ?_
  split; exacts [h, .ite h.enterBacklog.killRun.countPreempt.modCmd h]

theorem MemoriesOk.readSlot {g k : Nat} {s : State} (h : MemoriesOk s) : MemoriesOk (readSlot g k s).2.2 :=
  h.meetCis.meetAcc

theorem MemoriesOk.swapSlot {g k cid : Nat} {x : Ctx} {s : State} (h : MemoriesOk s) :
    MemoriesOk (swapSlot g k cid x s) :=
  .modCtx (.freeRegion (.ite (h.readSlot.wellWrite.foldl fun _ _ h => h.wellPoisonRange).zeroSlot
    (h.readSlot.wellWrite.foldl fun _ _ h => h.wellPoisonRange)))

theorem MemoriesOk.countSwap {out : Bool} {cids : List Nat} {bytes : Nat} {s : State} (h : MemoriesOk s) :
    MemoriesOk (countSwap out cids bytes s) :=
  h.foldl fun _ _ h => h.modStats

theorem MemoriesOk.swapHeld {g cyc : Nat} {s : State} (h : MemoriesOk s) : MemoriesOk (swapHeld g cyc s) :=
  h.takeFree.perfAdd

theorem MemoriesOk.execSwapOut {g cand cyc : Nat} {idle : List Nat} {waited : Nat} {s : State} (h : MemoriesOk s) :
    KeepsNext (execSwapOut g cand cyc idle waited s) := by
  unfold Machine.execSwapOut
  refine .next ?_
  extract_lets +onlyGivenNames _
  refine .ite h ?_
  split
  · exact .ite h h.modStats.modSched
  · split; exacts [h, .ite h h.swapSlot.ledgerCharge.swapHeld.modCore.countSwap.modSched]

theorem MemoriesOk.execSwapIn {g cid cyc : Nat} {s : State} (h : MemoriesOk s) :
    KeepsNext (execSwapIn g cid cyc s) := by
  unfold Machine.execSwapIn
  refine .next ?_
  split
  · exact h
  · split
    · refine .ite h ?_
      extract_lets _ _ s3 _ _ s4 _ s5 s6 _ s7 s8 s9
      have h3 : MemoriesOk s3 := h.frame rfl
      have h4 : MemoriesOk s4 := h3.meetWell
      have h5 : MemoriesOk s5 := h4.loadImage
      have h6 : MemoriesOk s6 := h5.spreadPoison
      have h7 : MemoriesOk s7 := h6.modCtx
      have h8 : MemoriesOk s8 := h7.ledgerCharge.swapHeld
      have h9 : MemoriesOk s9 := h8.countSwap
      exact .ite h9.teardown h9
    · exact h

end Sys2Proof.Machine
end

section
/-! #### Sys2Proof/Machine/Engine.lean -/
namespace Sys2Proof.Machine

theorem Eng.Keeps.tagCheck {a : At} {trailer scale : Nat} : Eng.Keeps (tagCheck a trailer scale) := by
  unfold Machine.tagCheck
  refine .bind .load fun _ => .bind .load fun _ => .ite (.modS (fun _ h => h.modCore)) ?_
  exact .bind (.modS (fun _ h => h.modCtx)) fun _ => .stopWith

theorem Eng.Keeps.tokenScale {a : At} {block token : Nat} : Eng.Keeps (tokenScale a block token) :=
  .bind .load fun _ => .bind .load fun _ => .pure

theorem Eng.Keeps.rowRaw {a : At} {src : RowSrc} {n : Nat} : Eng.Keeps (rowRaw a src n) := by
  unfold Machine.rowRaw
  split
  · exact .accLoad
  · exact .bind .load fun _ => .pure
  · exact .bind .load fun _ => .pure
  · exact .bind .load fun _ => .pure
  · exact .bind .load fun _ => .pure

theorem Eng.Keeps.rowVals {a : At} {src : RowSrc} {n : Nat} : Eng.Keeps (rowVals a src n) := by
  unfold Machine.rowVals
  split
  · exact .bind .tagCheck fun _ => .bind .rowRaw fun _ => .bind .tokenScale fun _ => .pure
  · exact .bind .rowRaw fun _ => .pure
  · exact .bind .rowRaw fun _ => .pure

theorem MemoriesOk.setDrawPos {a : At} {pos : Table Nat} {s : State} (h : MemoriesOk s) :
    MemoriesOk (setDrawPos a pos s) := by
  unfold Machine.setDrawPos
  split; exacts [h.modLoop, h.modCmd]

theorem Eng.Keeps.draws {a : At} {op : DrawOp} {n col count chan : Nat} : Eng.Keeps (draws a op n col count chan) :=
  .bind .getS fun _ => .ite .pure (.bind (.modS (fun _ h => h.setDrawPos)) fun _ => .pure)

theorem Eng.Keeps.clearHistory {a : At} {slot : Nat} : Eng.Keeps (clearHistory a slot) :=
  .eachM fun _ => .bind .store fun _ => .store

theorem Eng.Keeps.clearAtMark {a : At} {slot t : Nat} : Eng.Keeps (clearAtMark a slot t) := by
  unfold Machine.clearAtMark
  refine .bind .getS fun _ => ?_
  split; exacts [.ite (.bind .clearHistory fun _ => .modS (fun _ h => h.modCmd)) .pure, .pure]

theorem Eng.Keeps.emitTags {a : At} {b : DataBlock} {scaleBlock k : Nat} : Eng.Keeps (emitTags a b scaleBlock k) := by
  unfold Machine.emitTags
  refine .bind .getS fun _ => ?_
  extract_lets _ _ _
  exact .bind .store fun _ => .bind .store fun _ => .modS fun _ h => by split; exacts [h.modLoop, h.modCmd]

theorem Eng.Keeps.storePiece {a : At} {q : NarrowPiece} {out : Nat} {xs : List Fl} {codes pad : List Byte} :
    Eng.Keeps (storePiece a q out xs codes pad) := by
  unfold Machine.storePiece
  refine .bind .store fun _ => ?_
  split; exacts [.bind .saturate fun _ => .store, .pure]

theorem Eng.Keeps.narrowGiven {a : At} {enc : Fl → Nat × Nat} {pack : List Nat → List Byte}
    {rows : List (NarrowPiece × List Fl)} : Eng.Keeps (narrowGiven a enc pack rows) := by
  induction rows with
  | nil => exact .pure
  | cons r rows ih => exact .bind .saturate fun _ => .bind .storePiece fun _ => ih

theorem Eng.Keeps.narrowPieces {a : At} {op : NarrowOp} {sa zp n : Nat} {rows : List (NarrowPiece × List Fl)} :
    Eng.Keeps (narrowPieces a op sa zp n rows) := by
  induction rows generalizing n with
  | nil => exact .pure
  | cons r rows ih => exact .branch .pure .draws fun _ => .bind .saturate fun _ => .bind .storePiece fun _ => ih

theorem Eng.Keeps.narrowToken {a : At} {op : NarrowOp} {rows : List (NarrowPiece × List Fl)} :
    Eng.Keeps (narrowToken a op rows) := by
  refine .bind .clearAtMark fun _ => .bind .getS fun _ => .branch .load .pure fun _ => ?_
  refine .bind .narrowPieces fun _ => .bind .store fun _ => .bind .store fun _ => .bind .store fun _ => ?_
  refine .when .store fun _ => ?_
  dsimp only
  split; exacts [.when .emitTags fun _ => .modS fun _ h => h.perfAdd, .modS fun _ h => h.perfAdd]

theorem Eng.Keeps.narrowStep {a : At} {op : NarrowOp} : Eng.Keeps (narrowStep a op) := by
  unfold Machine.narrowStep
  refine .bind (.mapEng (fun _ => .rowVals)) fun _ => ?_
  extract_lets _ given
  have hgiven : given.Keeps := .modS fun _ h => h.perfAdd
  split; exacts [.bind .narrowGiven fun _ => hgiven, .bind .narrowGiven fun _ => hgiven, .narrowToken]

theorem MemoriesOk.execNarrow {core : Nat} {s : State} (h : MemoriesOk s) : KeepsNext (execNarrow core s) :=
  (h.onStep (fun _ _ => .bind .narrowStep fun _ => .pure)).next

theorem Eng.Keeps.tileCodes {a : At} {w : Weights} {u first n : Nat} : Eng.Keeps (tileCodes a w u first n) :=
  .mapEng fun _ => .bind .load fun _ => .pure

theorem Eng.Keeps.tileSection {a : At} {w : Weights} {off bytes u : Nat} : Eng.Keeps (tileSection a w off bytes u) :=
  .bind .load fun _ => .pure

theorem Eng.Keeps.tileScales {a : At} {w : Weights} {u : Nat} : Eng.Keeps (tileScales a w u) := .tileSection

theorem Eng.Keeps.tileSums {a : At} {w : Weights} {u : Nat} : Eng.Keeps (tileSums a w u) :=
  .ite .pure (.bind .tileSection fun _ => .pure)

theorem Eng.Keeps.narrowSlice {a : At} {op : MSlice} {entry : List Nat} : Eng.Keeps (narrowSlice a op entry) := by
  unfold Machine.narrowSlice
  extract_lets +onlyGivenNames _ _ _
  refine .bind .load fun _ => ?_
  extract_lets +onlyGivenNames _
  refine .bind .tileCodes fun _ => ?_
  extract_lets +onlyGivenNames _
  refine .bind .saturate fun _ => .bind .getS fun _ => ?_
  extract_lets +onlyGivenNames _ _
  refine .ite (.bind (.modS (fun _ h => h.modCore)) fun _ => .pure) (.bind .tileScales fun _ => ?_)
  exact .bind .tileSums fun _ => .bind .load fun _ => .bind (.modS (fun _ h => h.modCore)) fun _ => .pure

theorem Eng.Keeps.wideActs {a : At} {op : MSlice} {k : Nat} : Eng.Keeps (wideActs a op k) := by
  unfold Machine.wideActs
  refine .ite .rowRaw ?_
  refine .bind ?_ fun _ => .bind .saturate fun _ => .pure
  split; exacts [.bind .rowVals fun _ => .pure, .bind .load fun _ => .bind .tokenScale fun _ => .pure]

theorem Eng.Keeps.wideSlice {a : At} {op : MSlice} {entry : List Nat} : Eng.Keeps (wideSlice a op entry) :=
  .bind .wideActs fun _ => .bind .tileCodes fun _ => .branch .pure .tileScales fun _ => .bind .saturate fun _ => .pure

theorem Eng.Keeps.sliceTags {a : At} {op : MSlice} : Eng.Keeps (sliceTags a op) :=
  .bind .getS fun _ => .ite .tagCheck .pure

theorem MemoriesOk.execMengineSlice {core : Nat} {clash : Clash} {s : State} (h : MemoriesOk s) :
    KeepsNext (execMengineSlice core clash s) := by
  refine .next (h.onStep fun _ _ => .bind (.modS fun _ h => h.countClash) fun _ => .bind .sliceTags fun _ =>
    .branch .pure .accLoad fun _ => .branch .wideSlice .narrowSlice fun _ => .bind (.ite .tokenScale .pure) fun _ =>
    .bind .accStore fun _ => ?_)
  dsimp only
  split; exacts [.bind .narrowStep fun _ => .count, .count]

theorem Eng.Keeps.rowsLoad {a : At} {row n : Nat} : Eng.Keeps (rowsLoad a row n) := .mapEng fun _ => .accLoad

theorem Eng.Keeps.rowsStore {a : At} {row : Nat} {rs : List (List Nat)} : Eng.Keeps (rowsStore a row rs) :=
  .eachM fun _ => .accStore

theorem Eng.Keeps.recStepOf {a : At} {r : RecStep} : Eng.Keeps (recStepOf a r) :=
  .bind .getS fun _ => .bind .rowsLoad fun _ => .bind .rowsLoad fun _ => .branch .accLoad .pure fun _ =>
    .bind .accLoad fun _ => .bind .rowsStore fun _ => .when .accStore fun _ => .bind .accStore fun _ =>
    .modS fun _ h => h.perfAdd

theorem MemoriesOk.execRecStep {core : Nat} {s : State} (h : MemoriesOk s) : KeepsNext (execRecStep core s) :=
  (h.onStep (fun _ _ => .bind .recStepOf fun _ => .pure)).next

theorem MemoriesOk.execArgmax {core : Nat} {s : State} (h : MemoriesOk s) : KeepsNext (execArgmax core s) := by
  refine .next (h.onStep fun _ _ => .bind .rowVals fun _ => .bind .rowRaw fun _ => .bind .store fun _ => ?_)
  dsimp only
  split; exacts [.bind .store fun _ => .count, .count]

theorem MemoriesOk.execGumbelArgmax {core : Nat} {s : State} (h : MemoriesOk s) :
    KeepsNext (execGumbelArgmax core s) := by
  unfold Machine.execGumbelArgmax
  refine .next (h.onStep fun _ _ => ?_)
  refine .bind .rowVals fun _ => .bind .getS fun _ => ?_
  extract_lets +onlyGivenNames _ _
  refine .bind .draws fun _ => ?_
  extract_lets _ _ _
  exact .bind .saturate fun _ => .bind .store fun _ => .bind (.modS (fun _ h => h.perfAdd)) fun _ => .pure

theorem MemoriesOk.execNoise {core : Nat} {s : State} (h : MemoriesOk s) : KeepsNext (execNoise core s) := by
  unfold Machine.execNoise
  refine .next (h.onStep fun _ _ => ?_)
  exact .bind .accLoad fun _ => .bind .accStore fun _ => .bind (.modS (fun _ h => h.perfAdd)) fun _ => .pure

end Sys2Proof.Machine
end

section
/-! #### Sys2Proof/Machine/Conv.lean -/
namespace Sys2Proof.Machine

theorem Eng.Keeps.convElem {a : At} {k : ConvBlk} {op : ConvOp} {sa zp c k' w : Nat} :
    Eng.Keeps (convElem a k op sa zp c k' w) := by
  unfold Machine.convElem
  refine .ite (.bind .load fun _ => .pure) ?_
  extract_lets +onlyGivenNames code
  have hcode : code.Keeps := .load
  refine .ite (.bind hcode fun _ => .pure) ?_
  extract_lets _ one
  have hone : ∀ x, (one x).Keeps := fun _ => .bind .rowVals fun _ => .pure
  split; exacts [hone _, hone _, hone _, .bind hcode fun _ => .pure]

theorem Eng.Keeps.tapElems {a : At} {k : ConvBlk} {op : ConvOp} {sa zp pad : Nat} {edges : Int × Int}
    {t : Nat × Nat} : Eng.Keeps (tapElems a k op sa zp pad edges t) := by
  unfold Machine.tapElems
  split
  · extract_lets _
    split
    · exact .stopWith
    · exact .pure
    · exact .mapEng fun _ => .ite (.bind .convElem fun _ => .bind .saturate fun _ => .pure) .pure

theorem Eng.Keeps.convTile {a : At} {k : ConvBlk} {op : ConvOp} {zp u : Nat} {entry : List Nat}
    {es : List (Bool × Nat)} : Eng.Keeps (convTile a k op zp entry u es) :=
  .ite .pure (.bind .tileCodes fun _ => .branch .pure .tileScales fun _ =>
    .ite (.bind .saturate fun _ => .count) (.bind .tileSums fun _ => .bind .saturate fun _ => .count))

theorem Eng.Keeps.convTiles {a : At} {k : ConvBlk} {op : ConvOp} {zp pad : Nat} {es : List (Bool × Nat)}
    {us entry : List Nat} : Eng.Keeps (convTiles a k op zp pad es us entry) := by
  induction us generalizing entry with
  | nil => exact .pure
  | cons u us ih => exact .bind .convTile fun _ => ih

theorem Eng.Keeps.convOut {a : At} {k : ConvBlk} {op : ConvOp} {entry : List Nat} :
    Eng.Keeps (convOut a k op entry) := by
  unfold Machine.convOut
  refine .bind (.ite .pure .tokenScale) fun _ => ?_
  extract_lets +onlyGivenNames _ _
  exact .bind .getS fun _ => .bind (.mapEng (fun _ => .tapElems)) fun _ => .bind .convTiles fun _ => .pure

theorem MemoriesOk.execConvStep {core : Nat} {clash : Clash} {s : State} (h : MemoriesOk s) :
    KeepsNext (execConvStep core clash s) :=
  .next (h.onStep fun _ _ => .bind (.modS fun _ h => h.countClash) fun _ => .branch .pure .accLoad fun _ =>
    .bind .convOut fun _ => .bind .accStore fun _ => .ite (.bind .saturate fun _ =>
      .bind (.eachM fun _ => .store) fun _ => .pure) .pure)

theorem Eng.Keeps.wellLoad {a : At} {ad n : Nat} : Eng.Keeps (wellLoad a ad n) := by
  unfold Machine.wellLoad
  refine .bindS fun _ hs => .ite .stopWith ?_
  split
  next e =>
    have h1 := hs.readAt.snd e
    refine .bind (.modS (fun _ h => h1)) fun _ => ?_
    split; exacts [.pure, .stopWith]

theorem Eng.Keeps.csStore {a : At} {ad : Nat} {bs : List Byte} : Eng.Keeps (csStore a ad bs) := by
  refine .bindS fun _ hs => ?_
  split
  next e => exact .bind (.modS fun _ _ => hs.writeAt.snd e) fun _ => .ite .pure .stopWith

theorem Eng.Keeps.pixel {a : At} {k : CropBlk} {frame y n c : Nat} : Eng.Keeps (pixel a k frame y n c) :=
  .bind .wellLoad fun _ => .ite (.bind .saturate fun _ => .pure) .pure

theorem Eng.Keeps.freeFp32 : Eng.Keeps (freeFp32) :=
  .bindS fun _ hs => .bind (.modS fun _ _ => hs.takeFree) fun _ => .pure

theorem Eng.Keeps.cropSample {a : At} {k : CropBlk} {x : Box} {frame i j c : Nat} :
    Eng.Keeps (cropSample a k x frame i j c) := by
  unfold Machine.cropSample
  extract_lets +onlyGivenNames _ _
  refine .ite .pure (.ite (.bind .freeFp32 fun _ => .pure) ?_)
  split
  · split
    · extract_lets +onlyGivenNames _ _
      exact .bind .pixel fun _ => .bind .pixel fun _ => .bind .pixel fun _ => .bind .pixel fun _ => .pure

theorem Eng.Keeps.mapM {α β : Type} {f : α → Eng β} {xs : List α} (hf : ∀ x, (f x).Keeps) : Eng.Keeps (xs.mapM f) := by
  induction xs with
  | nil => exact .pure
  | cons x xs ih => rw [List.mapM_cons]; exact .bind (hf x) fun _ => .bind ih fun _ => .pure

theorem Eng.Keeps.cropPoint {a : At} {k : CropBlk} {x : Box} {frame i j : Nat} {fill : Bool} :
    Eng.Keeps (cropPoint a k x frame fill i j) :=
  .bind (.mapM fun _ => .ite .pure .cropSample) fun _ => .pure

theorem Eng.Keeps.cropLines {a : At} {k : CropBlk} {x : Box} {frame b : Nat} {fill : Bool} {is : List Nat} :
    Eng.Keeps (cropLines a k x frame b fill is) := by
  induction is with
  | nil => exact .pure
  | cons i is ih => exact .bind (.mapM fun _ => .cropPoint) fun _ => .bind .csStore fun _ => .bind ih fun _ => .pure

theorem MemoriesOk.execCropStep {core : Nat} {s : State} (h : MemoriesOk s) : KeepsNext (execCropStep core s) := by
  unfold Machine.execCropStep
  refine .next (h.onStep fun _ _ => ?_)
  extract_lets +onlyGivenNames _
  refine .ite .pure (.bind .wellLoad fun _ => ?_)
  extract_lets +onlyGivenNames _ _ _ rest
  have hrest : ∀ x, (rest x).Keeps := fun _ => by
    unfold rest
    refine .bind .cropLines fun _ => ?_
    split
    · exact .bind .saturate fun _ => .bind .csStore fun _ => .bind (.modS (fun _ h => h.perfAdd)) fun _ => .pure
  exact .ite (.bind .pure hrest) (.bind .wellLoad hrest)

end Sys2Proof.Machine
end

section
/-! #### Sys2Proof/Machine/Attention.lean -/
namespace Sys2Proof.Machine

theorem MemoriesOk.putRow {u : Nat} {r : AttnRow} {s : State} (h : MemoriesOk s) : MemoriesOk (putRow u r s) :=
  h.modCmd

theorem Eng.Keeps.finishRow {a : At} {op : AttnOp} {r : AttnRow} : Eng.Keeps (finishRow a op r) :=
  .bind .accStore fun _ => .modS fun _ h => h.putRow.modCmd

theorem Eng.Keeps.readTokens {op : AttnOp} {hidden : Nat → Bool} {row : Nat → Eng (List Byte)} {n : Nat}
    (hrow : ∀ n, Eng.Keeps (row n)) : Eng.Keeps (readTokens op hidden row n) :=
  .mapEng fun _ => .ite .pure (.bind (hrow _) fun _ => .pure)

theorem Eng.Keeps.pageTokens {a : At} {op : AttnOp} {x : Seq} {k : KvBind} {len entry block : Nat} :
    Eng.Keeps (pageTokens a op x k len entry block) :=
  .bind .getS fun _ => .readTokens fun _ => .wellLoad

theorem Eng.Keeps.stagedTokens {a : At} {op : AttnOp} {x : Seq} {k : KvBind} {len block : Nat} :
    Eng.Keeps (stagedTokens a op x k len block) :=
  .bind .getS fun _ => .readTokens fun _ => .load

theorem Eng.Keeps.queryRow {a : At} {op : AttnOp} : Eng.Keeps (queryRow a op) := .bind .load fun _ => .pure

theorem Eng.Keeps.attnBusy {a : At} : Eng.Keeps (attnBusy a) :=
  .modS fun _ h => h.freeCycles.freeCycles.perfAdd.perfAdd

theorem Eng.Keeps.visitBlock {a : At} {op : AttnOp} {r : AttnRow} {key : Nat} {ts : Tokens} :
    Eng.Keeps (visitBlock a op r key ts) :=
  .bind .queryRow fun _ => .bind .saturate fun _ => .bind .attnBusy fun _ => .pure

theorem Eng.Keeps.ownBlock {a : At} {op : AttnOp} {k : KvBind} {x : Seq} : Eng.Keeps (ownBlock a op k x) := by
  unfold Machine.ownBlock
  refine .bind .getS fun _ => ?_
  extract_lets _ _ _
  split
  · exact .bind .finishRow fun _ => .pure
  · refine .bind (by split; exacts [.pageTokens, .stagedTokens]) fun _ => .bind .visitBlock fun _ => ?_
    exact .ite (.bind (.modS (fun _ h => h.putRow)) fun _ => .pure) (.bind .finishRow fun _ => .pure)

theorem Eng.Keeps.csLoad {a : At} {ad n : Nat} : Eng.Keeps (csLoad a ad n) := by
  unfold Machine.csLoad
  refine .bindS fun _ hs => ?_
  split
  next e =>
    have h1 := hs.readFrom.snd e
    refine .bind (.modS (fun _ h => h1)) fun _ => ?_
    split; exacts [.pure, .stopWith, .stopWith]

theorem Eng.Keeps.ringBlock {a : At} {index logical posBase : Nat} :
    Eng.Keeps (ringBlock a index logical posBase) := by
  unfold Machine.ringBlock
  refine .bind .getS fun _ => ?_
  split; exacts [.bind .wellLoad fun _ => .pure, .pure]

theorem Eng.Keeps.shardTokens {a : At} {op : AttnOp} {base : Nat} {b : Block} {minPos : Nat} :
    Eng.Keeps (shardTokens a op base b minPos) :=
  .readTokens fun _ => .csLoad

theorem Eng.Keeps.loadPartial {a : At} {op : AttnOp} {g : Group} {r : AttnRow} {source : Nat} :
    Eng.Keeps (loadPartial a op g r source) := by
  unfold Machine.loadPartial
  refine .bind .load fun _ => ?_
  split <;> exact .pure

theorem Eng.Keeps.mergePartials {a : At} {op : AttnOp} {g : Group} {base acc : AttnRow} {ds : List Nat} :
    Eng.Keeps (mergePartials a op g base ds acc) := by
  induction ds generalizing acc with
  | nil => exact .pure
  | cons d ds ih => exact .bind .getS fun _ => .bind .loadPartial fun _ => .bind .saturate fun _ => ih

theorem Eng.Keeps.finishGroup {a : At} {op : AttnOp} {g : Group} {base : AttnRow} :
    Eng.Keeps (finishGroup a op g base) :=
  .bind .getS fun _ => .ite (.bind .mergePartials fun _ => .finishRow) .finishRow

theorem Eng.Keeps.groupTokens {a : At} {op : AttnOp} {g : Group} : Eng.Keeps (groupTokens a op g) := by
  unfold Machine.groupTokens
  refine .bind .getS fun _ => ?_
  extract_lets +onlyGivenNames _
  split
  · exact .pure
  · refine .ite ?_ ?_
    · split; exacts [.ite .pure (.bind .pageTokens fun _ => .pure), .pure]
    · exact .bind .csLoad fun _ => .bind .shardTokens fun _ => .pure

theorem Eng.Keeps.groupBlock {a : At} {op : AttnOp} {gid : Nat} : Eng.Keeps (groupBlock a op gid) := by
  refine .bind .getS fun _ => .bind .groupTokens fun _ => ?_
  dsimp only
  split
  · exact .ite .finishGroup .pure
  · exact .bind (.modS fun _ h => h.modLat) fun _ => .bind (.ite .loadPartial .pure) fun _ => .bind .visitBlock fun _ =>
      .bind (.modS fun _ h => h.putRow) fun _ => .when .store fun _ => .ite .finishGroup .pure

theorem MemoriesOk.execAttentionBlock {core : Nat} {s : State} (h : MemoriesOk s) :
    KeepsNext (execAttentionBlock core s) := by
  unfold Machine.execAttentionBlock
  refine .next (h.onStep fun _ _ => ?_)
  refine .bind .getS fun _ => ?_
  split
  · exact .bind .groupBlock fun _ => .pure
  · split; exacts [.pure, .ownBlock]

end Sys2Proof.Machine
end

section
/-! #### Sys2Proof/Machine/Running.lean -/
namespace Sys2Proof.Machine

theorem MemoriesOk.execFloatWait {core waited : Nat} {s : State} (h : MemoriesOk s) :
    KeepsNext (execFloatWait core waited s) := by
  unfold Machine.execFloatWait
  refine .next (h.onStep fun _ _ => ?_)
  exact .bind .getS fun _ => .ite (.bind (.modS (fun _ h => h.perfAdd)) fun _ => .pure) .pure

theorem MemoriesOk.execFloatWaitTimeout {core waited : Nat} {s : State} (h : MemoriesOk s) :
    KeepsNext (execFloatWaitTimeout core waited s) := by
  unfold Machine.execFloatWaitTimeout
  refine .next ?_
  split
  · exact h
  · split
    · exact h
    · refine .ite h ?_
      extract_lets s3
      have h3 : MemoriesOk s3 := h.coreErr.perfAdd.perfAdd
      exact .ite h3.faultPlan h3.freeCycles.killRun.modCmd

theorem MemoriesOk.execSiphonStep {core : Nat} {s : State} (h : MemoriesOk s) :
    KeepsNext (execSiphonStep core s) := by
  unfold Machine.execSiphonStep
  refine .next (h.onStep fun _ _ => ?_)
  exact .bind .load fun _ => .bind (.modS (fun _ h => h.frame rfl)) fun _ => .pure

theorem MemoriesOk.countOutbound {core : Nat} {ad : Addr} {n : Nat} {s : State} (h : MemoriesOk s) :
    MemoriesOk (countOutbound core ad n s) := by
  unfold Machine.countOutbound
  split; exacts [.ite h h.perfAdd, h]

theorem Eng.Keeps.pumpGet {a : At} {src dst : Addr} {n : Nat} : Eng.Keeps (pumpGet a src dst n) := by
  unfold Machine.pumpGet
  refine .bindS fun _ hs => ?_
  split
  next e =>
    have h1 := hs.readFrom.snd e
    refine .bind (.modS (fun _ h => h1.countOutbound)) fun _ => ?_
    split; exacts [.pure, .stopWith, .bind (.modS (fun _ h => h.spreadPoison)) fun _ => .stopWith]

theorem Eng.Keeps.pumpRow {a : At} {d : PumpDesc} {i : Nat} : Eng.Keeps (pumpRow a d i) := by
  unfold Machine.pumpRow
  split
  · exact .pure
  · refine .bind (.ite (by split; exacts [.pumpGet, .pure]) .pure) fun _ => .bindS fun _ hs => ?_
    exact .bind (.modS (fun _ h => hs.writeTo.countOutbound)) fun _ => .ite .pure .stopWith

theorem Eng.Keeps.pumpRows {a : At} {d : PumpDesc} {n i : Nat} : Eng.Keeps (pumpRows a d n i) := by
  induction n generalizing i with
  | zero => exact .pure
  | succ n ih => exact .bind .pumpRow fun _ => ih

theorem MemoriesOk.pumpPhase {core n : Nat} {last : Bool} {s : State} (h : MemoriesOk s) :
    MemoriesOk (pumpPhase core n last s) :=
  h.modCore.perfAdd

theorem Eng.Keeps.pumpStep {a : At} {desc : Block} : Eng.Keeps (pumpStep a desc) := by
  unfold Machine.pumpStep
  refine .bind .getS fun _ => ?_
  extract_lets _
  refine .ite .stopWith (.ite (.bind (.modS (fun _ h => h.floatInc)) fun _ => .stopWith) ?_)
  exact .bind (.modS (fun _ h => h.pumpPhase)) fun _ => .bind .pumpRows fun _ => .modS fun _ h => h.floatInc

theorem Eng.Keeps.frameStep {a : At} {op : FrameOp} : Eng.Keeps (frameStep a op) := by
  unfold Machine.frameStep
  refine .bind .getS fun _ => ?_
  split
  · exact .pure
  · exact .bind (.modS (fun _ h => h.pumpPhase)) fun _ => .bind .wellLoad fun _ => .store

theorem MemoriesOk.execPumpDescriptor {core : Nat} {s : State} (h : MemoriesOk s) :
    KeepsNext (execPumpDescriptor core s) := by
  unfold Machine.execPumpDescriptor
  refine .next (h.onStep fun _ _ => ?_)
  extract_lets +onlyGivenNames rest
  have hrest : ∀ x, (rest x).Keeps := fun _ => .pure
  split; exacts [.bind .pumpStep hrest, .bind .frameStep hrest]

theorem Eng.Keeps.writeBytes {a : At} {w : RemoteWrite} : Eng.Keeps (writeBytes a w) := by
  unfold Machine.writeBytes
  refine .bind .getS fun _ => ?_
  extract_lets _
  split
  · exact .pure
  · exact .bind .load fun _ => .pure
  · exact .bind .ringBlock fun _ => .pure
  · exact .bind .csLoad fun _ => .pure

theorem MemoriesOk.lateralWrite {u : Nat} {w : RemoteWrite} {d : LatDest} {dst : Nat} {data : List Byte}
    {s : State} (h : MemoriesOk s) : MemoriesOk (lateralWrite u w d dst data s) := by
  unfold Machine.lateralWrite
  extract_lets _ _
  split <;> exact h.sendMsg

theorem MemoriesOk.doWrite {u core : Nat} {w : RemoteWrite} {dst : Nat} {data : List Byte} {s : State}
    (h : MemoriesOk s) : MemoriesOk (doWrite u core w dst data s).2 := by
  unfold Machine.doWrite
  split; exacts [h.lateralWrite, .inboundWrite (.ite h h.perfAdd)]

theorem MemoriesOk.meetRow {m : RowMeet} {dst n : Nat} {before s : State} (h : MemoriesOk s) :
    MemoriesOk (meetRow m dst n before s) := by
  unfold Machine.meetRow
  refine .ite h ?_
  extract_lets +onlyGivenNames s1
  have h1 : MemoriesOk s1 := h.coreErr
  split
  next f s2 e =>
    have h2 : MemoriesOk s2 := by split at e; exacts [h1.takeFree.snd e, h1.snd (p := (0, s1)) e]
    exact .ite ⟨h2.hostWf, wf_mwrite _ _ _ h2.cisWf, h2.wellWf⟩ h2

theorem MemoriesOk.execRemoteWriteCommit {core : Nat} {clash : Clash} {meets : Option RowMeet} {s : State}
    (h : MemoriesOk s) : KeepsNext (execRemoteWriteCommit core clash meets s) := by
  refine .next (h.onStep fun _ _ => .bind .writeBytes fun _ => ?_)
  split
  · exact .pure
  · refine .when (.modS fun _ h => h.countClash) fun _ => .bindS fun _ hs => ?_
    split
    next t e =>
      have ht : MemoriesOk t := hs.doWrite.snd e
      refine .bind (.modS fun _ _ => ?_) fun _ => .ite .pure .stopWith
      split; exacts [.ite ht.meetRow ht, ht]

theorem MemoriesOk.execRemoteRead {core : Nat} {clash : Clash} {s : State} (h : MemoriesOk s) :
    KeepsNext (execRemoteRead core clash s) := by
  unfold Machine.execRemoteRead
  refine .next (h.onStep fun _ _ => ?_)
  refine .bind (.modS (fun _ h => h.countClash)) fun _ => .bindS fun _ hs => ?_
  split
  next e =>
    have h1 := hs.readAt.snd e
    refine .bind (.modS (fun _ h => h1.perfAdd)) fun _ => ?_
    split; exacts [.bind (.modS (fun _ h => h.emit)) fun _ => .pure, .stopWith, .stopWith]

theorem MemoriesOk.endRun {u cyc : Nat} {s : State} (h : MemoriesOk s) : MemoriesOk (endRun u cyc s) := by
  unfold Machine.endRun
  split
  · exact h
  · extract_lets s2
    have h2 : MemoriesOk s2 := h.chargeRun
    refine .ite ?_ ?_
    · split; exacts [h2.modLoop, h2]
    · exact h2.modCmd

theorem MemoriesOk.execSaturationPass {u cyc : Nat} {s : State} (h : MemoriesOk s) :
    KeepsNext (execSaturationPass u cyc s) := by
  unfold Machine.execSaturationPass
  refine .next ?_
  split
  · exact h
  · refine .ite h (.ite ?_ (.ite (.ite h.chargeRun.modCmd h.chargeRun.reportAbort.discardRun.retire) h))
    split
    · exact h
    · split; exacts [h, .ite h.endRun.endLoop h]

theorem MemoriesOk.execWidenRerun {u : Nat} {s : State} (h : MemoriesOk s) : KeepsNext (execWidenRerun u s) := by
  unfold Machine.execWidenRerun
  refine .next ?_
  split; exacts [h, .ite h.modStats.requeue.modCmd h]

theorem MemoriesOk.execRngParityFail {u unit cyc : Nat} {s : State} (h : MemoriesOk s) :
    KeepsNext (execRngParityFail u unit cyc s) := by
  unfold Machine.execRngParityFail
  refine .next ?_
  split; exacts [h, .ite h (.ite h.raise.endRun.faultPlan h.raise.killRun.modCmd)]

theorem Eng.Keeps.stagedRows {a : At} {i : Nat} {k : KvBind} : Eng.Keeps (stagedRows a i k) := by
  refine .bind .getS fun _ => .ite .pure (.bind (.mapEng fun _ => ?_) fun _ => .pure)
  extract_lets _
  split; exacts [.pure, .bind .load fun _ => .pure]

theorem Eng.Keeps.allStaged {a : At} : Eng.Keeps (allStaged a) :=
  .bind .getS fun _ => .bind (.mapEng (fun _ => .stagedRows)) fun _ => .pure

theorem MemoriesOk.commitEntries {c : Cmd} {i : Nat} {k : KvBind} {s : State} (h : MemoriesOk s) :
    MemoriesOk (commitEntries c i k s) := by
  unfold Machine.commitEntries
  split
  · exact h
  · refine .ite h (.modSeq (h.foldl fun s _ h => ?_))
    split
    · exact h
    · extract_lets +onlyGivenNames _
      refine .ite (h.frame rfl) (.ite h ?_)
      extract_lets s1
      have h1 : MemoriesOk s1 := .ite h.modStats.modSeq h
      exact h1.frame rfl

theorem MemoriesOk.scoreEntry {e shift mass : Nat} {s : State} (h : MemoriesOk s) :
    MemoriesOk (scoreEntry e shift mass s) :=
  h.frame rfl

theorem MemoriesOk.scoreBinding {c : Cmd} {p : Plan} {i : Nat} {k : KvBind} {s : State} (h : MemoriesOk s) :
    MemoriesOk (scoreBinding c p i k s) := by
  unfold Machine.scoreBinding
  split; exacts [h, .ite h (h.foldl (fun _ _ h => h.scoreEntry.countSat))]

theorem MemoriesOk.scoreShard {p : Plan} {g : Group} {a : RunArgs} {s : State} (h : MemoriesOk s) :
    MemoriesOk (scoreShard p g a s) :=
  h.foldl fun _ _ h => .ite h h.scoreEntry

theorem MemoriesOk.applyScores {c : Cmd} {p : Plan} {a : RunArgs} {s : State} (h : MemoriesOk s) :
    MemoriesOk (applyScores c p a s) := by
  unfold Machine.applyScores
  split; exacts [h.scoreShard, .ite h (h.foldl (fun _ _ h => h.scoreBinding))]

theorem MemoriesOk.flipCarry {c : Cmd} {p : Plan} {s : State} (h : MemoriesOk s) : MemoriesOk (flipCarry c p s) :=
  .ite h h.modCtx

theorem MemoriesOk.commitChunk {u : Nat} {xs : List W32} {s : State} (h : MemoriesOk s) :
    MemoriesOk (commitChunk u xs s) :=
  h.frame rfl

theorem Eng.Keeps.commitData {as : List At} {p : Plan} : Eng.Keeps (commitData as p) := by
  unfold Machine.commitData
  refine .bind (.mapEng fun _ => ?_) fun _ => .pure
  split; exacts [.pure, .bind .writeBytes fun _ => by split <;> exact .pure]

theorem MemoriesOk.commitWrites {u : Nat} {ws : List CommitWrite} {s : State} (h : MemoriesOk s) :
    MemoriesOk (commitWrites u ws s).2 := by
  induction ws generalizing s with
  | nil => exact h
  | cons w ws ih => exact ih h.doWrite

theorem Eng.Keeps.sampleRow {a : At} {i : Nat} {src : RowSrc} {n : Nat} : Eng.Keeps (sampleRow a i src n) :=
  .bind .rowRaw fun _ => .bind .getS fun _ => .bind .saturate fun _ => .pure

theorem Eng.Keeps.chunkSamples {a : At} : Eng.Keeps (chunkSamples a) := by
  unfold Machine.chunkSamples
  refine .bind .getS fun _ => ?_
  split; exacts [.pure, .sampleRow]

theorem Eng.Keeps.historyMeet {a : At} : Eng.Keeps (historyMeet a) :=
  .bind .getS fun _ => .eachM fun _ => .bind .load fun _ => .pure

theorem MemoriesOk.commitEffects {u : Nat} {p : Plan} {rows : List StagedRow} {xs : List W32} {s : State}
    (h : MemoriesOk s) : MemoriesOk (commitEffects u p rows xs s) := by
  unfold Machine.commitEffects
  split
  · exact h
  · extract_lets _ s2 s3 s4 s5 _
    have h2 : MemoriesOk s2 := h.foldl fun _ _ h => h.writeAt
    have h3 : MemoriesOk s3 := h2.applyScores
    have h4 : MemoriesOk s4 := h3.foldl fun _ _ h => h.commitEntries
    have h5 : MemoriesOk s5 := h4.flipCarry.commitChunk
    exact h5.modStats

theorem MemoriesOk.commitRun {u cyc : Nat} {s : State} (h : MemoriesOk s) : MemoriesOk (commitRun u cyc s) := by
  unfold Machine.commitRun
  split
  · exact h
  · split
    · exact h
    · extract_lets +onlyGivenNames _
      split
      · exact h
      · refine Eng.Keeps.run (.bind (.modS fun _ h => h.endRun) fun _ => .bind .allStaged fun _ => ?_) h
        refine .bind .commitData fun _ => .bind .chunkSamples fun _ => ?_
        refine .bind (.eachM fun _ => .historyMeet) fun _ => .bind (.eachM fun _ => .historyOut) fun _ => ?_
        exact .bind (.modS fun _ h => h.commitEffects) fun _ => .modS fun _ h => h.commitWrites.freeCores.modCmd.retire

theorem MemoriesOk.sendMasses {u gid : Nat} {s : State} (h : MemoriesOk s) : MemoriesOk (sendMasses u gid s) := by
  unfold Machine.sendMasses
  split; exacts [h.foldl (fun _ _ h => h.countSat.sendMsg), h]

theorem MemoriesOk.execPlanCommit {u cyc : Nat} {s : State} (h : MemoriesOk s) :
    KeepsNext (execPlanCommit u cyc s) := by
  unfold Machine.execPlanCommit
  refine .next ?_
  split
  · exact h
  · split
    · exact h
    · refine .ite h ?_
      split; exacts [h.commitRun, h.sendMasses.modCmd.sendCtrl]

end Sys2Proof.Machine
end

section
/-! #### Sys2Proof/Machine/Loops.lean -/
namespace Sys2Proof.Machine

theorem MemoriesOk.loopCharges {l : Nat} {c : Cmd} {x : Loop} {s : State} (h : MemoriesOk s) :
    MemoriesOk (loopCharges l c x s) :=
  h.wakeCores.foldl fun _ _ h => h.requestStages

theorem MemoriesOk.moveImages {l : Nat} {x : Loop} {s : State} (h : MemoriesOk s) : MemoriesOk (moveImages l x s) :=
  h.modCtx

theorem MemoriesOk.bringStream {k i : Nat} {s : State} (h : MemoriesOk s) : MemoriesOk (bringStream k i s) := by
  unfold Machine.bringStream
  split; exacts [h, h.modStream.spoutCharge.spoutCharge]

theorem Eng.Keeps.storePositions {first : At} {split : Nat} {pos : Table Nat} :
    Eng.Keeps (storePositions first split pos) :=
  .store

theorem Eng.Keeps.loadPositions {first : At} {split : Nat} : Eng.Keeps (loadPositions first split) :=
  .bind .load fun _ => .pure

theorem MemoriesOk.standLoop {u l : Nat} {x : Loop} {s : State} (h : MemoriesOk s) :
    MemoriesOk (standLoop u l x s) := by
  unfold Machine.standLoop
  extract_lets s1 s2 s3 s4
  have h1 : MemoriesOk s1 := h.modLoop
  have h2 : MemoriesOk s2 := h1.modCmd
  have h3 : MemoriesOk s3 := h2.armFloats
  have h4 : MemoriesOk s4 := h3.foldl fun _ _ h => h.bringStream
  split; exacts [.ite (Eng.Keeps.run .storePositions h4) h4, h4]

theorem MemoriesOk.tryStand {u l : Nat} {s : State} (h : MemoriesOk s) : MemoriesOk (tryStand u l s) := by
  unfold Machine.tryStand
  split
  · split
    · exact h
    · extract_lets _
      refine .ite h (.ite h.giveHomes (.ite h ?_))
      split
      · exact h
      next e =>
        have h1 := h.takeSlots e
        split
        · exact h.dropWaitingLoop.refuse
        · split
          next e => exact h1.reloadAll.snd e
          next e => exact (h1.reloadAll.snd e).dropWaitingLoop.retire
          next e => exact .ite (h1.reloadAll.snd e) (h1.reloadAll.snd e).standLoop
  · exact h

theorem MemoriesOk.admitLoop {u l : Nat} {c : Cmd} {x : Loop} {s : State} (h : MemoriesOk s) :
    MemoriesOk (admitLoop u l c x s) :=
  (h.frame (by rfl)).moveImages.loopCharges.modCmd.tryStand

theorem MemoriesOk.execStreamLoop {u : Nat} {p : Plan} {s : State} (h : MemoriesOk s) :
    KeepsNext (execStreamLoop u p s) := by
  unfold Machine.execStreamLoop
  refine .next ?_
  split
  · exact h
  · refine .ite ?_ ?_
    · split; exacts [h.tryStand, h]
    · refine h.onStart fun _ _ h => ?_
      split; exacts [h, h.checked (fun _ h => .ite h.retire (.ite h.retire h.admitLoop))]

theorem MemoriesOk.execPacerTick {l : Nat} {s : State} (h : MemoriesOk s) : KeepsNext (execPacerTick l s) := by
  unfold Machine.execPacerTick
  refine .next ?_
  split; exacts [h, .ite h h.modLoop]

theorem Eng.Keeps.resetLane {l lane : Nat} : Eng.Keeps (resetLane l lane) := by
  unfold Machine.resetLane
  refine .bind .getS fun _ => ?_
  split
  · exact .pure
  · extract_lets _
    exact .bind (.eachM (fun _ => .bind .accStore fun _ => .clearHistory)) fun _ => .modS fun _ h => h.modLoop

theorem Eng.Keeps.applyMark {l lane i : Nat} : Eng.Keeps (applyMark l lane i) :=
  .bind .resetLane fun _ => .modS fun _ h => h.modStream

theorem MemoriesOk.leaveLane {l lane i : Nat} {s : State} (h : MemoriesOk s) : MemoriesOk (leaveLane l lane i s) := by
  unfold Machine.leaveLane
  split
  · exact h
  · extract_lets s2 s3 s4 s5 s6
    have h2 : MemoriesOk s2 := h.modLoop
    have h3 : MemoriesOk s3 := h2.modStream
    have h4 : MemoriesOk s4 := by unfold s4; split; exacts [h3.completeOk, h3]
    have h5 : MemoriesOk s5 := by unfold s5; split; exacts [h4.retire, h4]
    have h6 : MemoriesOk s6 := by unfold s6; split; exacts [h5.completeOk, h5]
    exact .ite h6.freeStream h6

theorem MemoriesOk.departParked {l n : Nat} {parked : List (Nat × Nat)} {s : State} (h : MemoriesOk s) :
    MemoriesOk (departParked l n parked s) := by
  unfold Machine.departParked
  refine h.foldl fun _ _ h => ?_
  split; exacts [.ite (.ite h.leaveLane.emitConceal (.ite h.leaveLane h.leaveLane.modLoop)) h, h]

theorem MemoriesOk.freeLoop {l : Nat} {s : State} (h : MemoriesOk s) : MemoriesOk (freeLoop l s) := by
  unfold Machine.freeLoop
  split; exacts [h, .ite (h.frame rfl) h]

theorem MemoriesOk.finishLoop {l : Nat} {s : State} (h : MemoriesOk s) : MemoriesOk (finishLoop l s) := by
  unfold Machine.finishLoop
  split
  · exact h
  · refine .ite h ?_
    extract_lets s2 s3 s4 s5 s6
    have h2 : MemoriesOk s2 := h.dropCharges
    have h3 : MemoriesOk s3 := h2.modLoop
    have h4 : MemoriesOk s4 := h3.relaxCluster
    have h5 : MemoriesOk s5 := h4.releaseKeyWait
    have h6 : MemoriesOk s6 := by unfold s6; split; exacts [h5.completeOk, h5]
    exact h6.completeOk.freeLoop

theorem MemoriesOk.takeCore {ran : Ran} {g : Nat} {s : State} (h : MemoriesOk s) : MemoriesOk (takeCore ran g s) := by
  unfold Machine.takeCore
  split; exacts [h.modCore, .ite h.modCore h.killRun.countPreempt]

theorem MemoriesOk.parkLanes {l n : Nat} {parked : List (Nat × Nat)} {s : State} (h : MemoriesOk s) :
    MemoriesOk (parkLanes l n parked s) :=
  (h.foldl (fun _ _ h => h.modStream)).modLoop

theorem MemoriesOk.captureLoop {l : Nat} {s : State} (h : MemoriesOk s) : MemoriesOk (captureLoop l s) := by
  unfold Machine.captureLoop
  split; exacts [h, (h.foldl (fun _ _ h => h.modCmd)).modLoop]

theorem MemoriesOk.skipBlock {l : Nat} {x : Loop} {s : State} (h : MemoriesOk s) : MemoriesOk (skipBlock l x s) :=
  h.parkLanes.releaseKeyWait.modLoop.departParked.captureLoop.finishLoop

theorem Eng.Keeps.enterBlock {l : Nat} {x : Loop} {mine : List (Nat × Nat)} : Eng.Keeps (enterBlock l x mine) := by
  unfold Machine.enterBlock
  refine .bind .getS fun _ => .bind .copiesIn fun _ => ?_
  split
  · exact .pure
  · refine .bind .loadPositions fun _ => .bind .tempsIn fun _ => .bind (.modS fun _ h => h.modLoop) fun _ =>
      .eachM fun _ => .bind .getS fun _ => ?_
    split
    · exact .pure
    · exact .ite (.ite .applyMark .pure) (.bind .resetLane fun _ => .ite .applyMark .pure)

theorem MemoriesOk.startBlock {l : Nat} {x : Loop} {mine : List (Nat × Nat)} {s : State} (h : MemoriesOk s) :
    MemoriesOk (startBlock l x mine s) := by
  unfold Machine.startBlock
  extract_lets _ _ s1 s2 s3 s4 s5
  have h1 : MemoriesOk s1 := .ite h.parkLanes h.armFloats
  have h2 : MemoriesOk s2 := h1.modLoop
  have h3 : MemoriesOk s3 := h2.foldl fun _ _ h => h.modStream
  have h4 : MemoriesOk s4 := h3.occupy.modCmd.startCmd
  have h5 : MemoriesOk s5 := .ite h4.releaseKeyWait h4
  exact Eng.Keeps.run .enterBlock h5

theorem MemoriesOk.readyBlock {l : Nat} {x : Loop} {mine : List (Nat × Nat)} {s : State} (h : MemoriesOk s) :
    MemoriesOk (readyBlock l x mine s) := by
  unfold Machine.readyBlock
  refine .ite h ?_
  split
  next e => exact (h.reloadAll.snd e)
  next e => exact (h.reloadAll.snd e).faultPlan
  next e => exact (h.reloadAll.snd e).startBlock

theorem MemoriesOk.execBlockGate {l : Nat} {ran : Ran} {s : State} (h : MemoriesOk s) :
    KeepsNext (execBlockGate l ran s) := by
  unfold Machine.execBlockGate
  refine .next ?_
  split
  · exact h
  · refine .ite h ?_
    extract_lets +onlyGivenNames _
    refine .ite h.skipBlock (.ite h ?_)
    extract_lets +onlyGivenNames _ s2
    have h2 : MemoriesOk s2 := .wakeCores (.ite h h.enterBacklog)
    refine .ite h2 ?_
    extract_lets s3
    have h3 : MemoriesOk s3 := .ite (h2.foldl (fun _ _ h => h.takeCore)) (by split; exacts [h2.served, h2])
    exact h3.readyBlock

theorem Eng.Keeps.biased {a : At} {row n : Nat} {bias : Option RowSrc} : Eng.Keeps (biased a row n bias) := by
  unfold Machine.biased
  refine .bind .accLoad fun _ => ?_
  split; exacts [.pure, .bind .rowVals fun _ => .bind .saturate fun _ => .pure]

theorem Eng.Keeps.gateLane {a : At} {x : Loop} {g : GateOp} {lane : Nat} : Eng.Keeps (gateLane a x g lane) := by
  unfold Machine.gateLane
  extract_lets +onlyGivenNames _ _
  refine .bind .accLoad fun _ => .bind .biased fun _ => ?_
  exact .bind .biased fun _ => .bind .biased fun _ => .bind .saturate fun _ => .accStore

theorem Eng.Keeps.gateRanks {x : Loop} {lanes : List Nat} {as : List At} : Eng.Keeps (gateRanks x lanes as) := by
  refine .eachM fun _ => .bind .getS fun _ => ?_
  split
  · exact .bind (.modS fun _ h => h.holdPort) fun _ => .bind (.eachM fun _ => .gateLane) fun _ =>
      .modS fun _ h => h.freeCycles.perfAdd.advance
  · exact .pure

theorem Eng.Keeps.stageSamples {x : Loop} {lanes : List Nat} {as : List At} : Eng.Keeps (stageSamples x lanes as) := by
  refine .eachM fun _ => ?_
  split
  · split; exacts [.pure, .bind .sampleRow fun _ => .modS fun _ h => h.modStream]
  · exact .pure

theorem Eng.Keeps.stepMarks {l : Nat} {x : Loop} {lanes : List Nat} : Eng.Keeps (stepMarks l x lanes) :=
  .eachM fun _ => .bind .getS fun _ => by split; exacts [.pure, .ite .applyMark .pure]

theorem MemoriesOk.rewind {x : Loop} {s : State} (h : MemoriesOk s) : MemoriesOk (rewind x s) :=
  h.foldl fun _ _ h => h.modCore

theorem MemoriesOk.execStreamStep {l : Nat} {s : State} (h : MemoriesOk s) : KeepsNext (execStreamStep l s) := by
  unfold Machine.execStreamStep
  refine .next ?_
  split
  · exact h
  · extract_lets +onlyGivenNames _ _
    refine .ite h (.ite (Eng.Keeps.run .gateRanks h) ?_)
    refine .ite h (.ite h.freeCycles.killBlock ?_)
    refine Eng.Keeps.run (.bind .stageSamples fun _ => .bind .stepMarks fun _ => ?_) h
    exact .modS fun _ h => .ite h.modLoop h.modLoop.rewind

theorem MemoriesOk.landAgain {i m : Nat} {s : State} (h : MemoriesOk s) : MemoriesOk (landAgain i m s) := h.frame rfl

theorem MemoriesOk.commitStream {l n : Nat} {onTime : Bool} {lane i : Nat} {s : State} (h : MemoriesOk s) :
    MemoriesOk (commitStream l n onTime lane i s) := by
  unfold Machine.commitStream
  split
  · extract_lets _ _ _ _ s2 s3 s4 s5
    have h2 : MemoriesOk s2 := h.modStream
    have h3 : MemoriesOk s3 := .ite h2.emitSamples (.ite h2.emitConceal h2)
    have h4 : MemoriesOk s4 := by unfold s4; split; exacts [h3.completeOk, h3]
    have h5 : MemoriesOk s5 := .ite (.landAgain (by split; exacts [h4.completeOk, h4])) h4
    exact .ite h5.leaveLane h5
  · exact h

theorem MemoriesOk.commitLoop {l : Nat} {x : Loop} {s : State} (h : MemoriesOk s) :
    MemoriesOk (commitLoop l x s) := by
  unfold Machine.commitLoop
  extract_lets _ _ _ _ s1 s2 _ s3 s4
  have h1 : MemoriesOk s1 := h.vacate
  have h2 : MemoriesOk s2 := h1.modCmd
  have h3 : MemoriesOk s3 := h2.modLoop
  have h4 : MemoriesOk s4 := h3.foldl fun _ _ h => h.commitStream
  exact h4.departParked.captureLoop.finishLoop

theorem MemoriesOk.execBlockCommit {l cyc : Nat} {s : State} (h : MemoriesOk s) :
    KeepsNext (execBlockCommit l cyc s) := by
  have commit {x : Loop} {ws : List CommitWrite} {as : List At} : Eng.Keeps (do
      eachM historyOut as
      modS (fun s =>
        let (ok, s) := Machine.commitWrites x.cmd ws s
        let s := Machine.commitLoop l x s
        if ok then s else Machine.faultPlan x.cmd stContextFault 0 s)) :=
    .bind (.eachM fun _ => .historyOut) fun _ => .modS fun _ h =>
      .ite h.commitWrites.commitLoop h.commitWrites.commitLoop.faultPlan
  unfold Machine.execBlockCommit
  refine .next ?_
  split
  · exact h
  · split
    · exact h
    · refine .ite h (Eng.Keeps.run (.bind (.modS fun _ h => h.endRun) fun _ => .bind .commitData fun _ =>
        .bind (.eachM fun _ => .historyMeet) fun _ => ?_) h)
      dsimp only
      split; exacts [.bind .storePositions fun _ => commit, commit]

theorem MemoriesOk.execDueTick {l : Nat} {s : State} (h : MemoriesOk s) : KeepsNext (execDueTick l s) := by
  unfold Machine.execDueTick
  refine .next ?_
  split
  · exact h
  · extract_lets +onlyGivenNames _
    refine .ite h ?_
    extract_lets s2 s3 _ _ s4 _ s5 s6
    have h2 : MemoriesOk s2 := h.modLoop
    have h3 : MemoriesOk s3 := h2.foldl fun _ _ h => h.shedHeld
    have h4 : MemoriesOk s4 := h3.foldl fun _ _ h => h.emitConceal
    have h5 : MemoriesOk s5 := .ite h4 h4.modCmd
    have h6 : MemoriesOk s6 := h5.foldl fun _ _ h => h.emitConceal
    exact .ite h6.buryLoop h6.freeLoop

end Sys2Proof.Machine
end

section
/-! #### Sys2Proof/Machine/Streams.lean -/
namespace Sys2Proof.Machine

theorem MemoriesOk.execStreamOpen {u : Nat} {s : State} (h : MemoriesOk s) : KeepsNext (execStreamOpen u s) := by
  unfold Machine.execStreamOpen
  refine .next (h.onStart fun _ _ h => ?_)
  split
  · exact h
  · extract_lets +onlyGivenNames _ _ _ _ _
    refine h.checked fun _ h => ?_
    extract_lets +onlyGivenNames _ _ _ _ _ _ lane
    refine .ite h.retireOnly (.ite h.retire (.ite h.retire (.ite h.retire ?_)))
    extract_lets _ s1 s2 s3 s4
    have h1 : MemoriesOk s1 := h.frame rfl
    have h2 : MemoriesOk s2 := .ite h1 h1.modBinding
    have h3 : MemoriesOk s3 := by unfold s3; generalize lane = o; split; exacts [h2.modLoop, h2]
    have h4 : MemoriesOk s4 := h3.beginWake.spoutCharge
    exact .ite h4.modCmd h4.completeOk

theorem MemoriesOk.execStreamFeed {u : Nat} {s : State} (h : MemoriesOk s) : KeepsNext (execStreamFeed u s) := by
  unfold Machine.execStreamFeed
  refine .next (h.onStart fun _ _ h => ?_)
  extract_lets +onlyGivenNames _ _ _
  refine h.checked fun _ h => ?_
  extract_lets s1 s2
  have h1 : MemoriesOk s1 := h.modStream
  have h2 : MemoriesOk s2 := .ite h1 (by split; exacts [h1.modLoop, h1])
  exact h2.completeOk

theorem MemoriesOk.markInBlock {l lane : Nat} {x : Loop} {st : Stream} {m : Nat} {s : State} (h : MemoriesOk s) :
    MemoriesOk (markInBlock l lane x st m s) :=
  .ite h (.ite h (.ite h.freeCycles.killBlock h.modLoop))

theorem MemoriesOk.execStreamMark {u : Nat} {s : State} (h : MemoriesOk s) : KeepsNext (execStreamMark u s) := by
  unfold Machine.execStreamMark
  refine .next ?_
  split
  · exact h
  · refine .ite h (h.onStart fun _ _ h => ?_)
    extract_lets +onlyGivenNames _ _ _
    refine h.checked fun _ h => .ite h.completeOk (.ite h.retire ?_)
    extract_lets s2 s3
    have h2 : MemoriesOk s2 := h.modStream
    have h3 : MemoriesOk s3 := h2.modCmd
    split
    · split; exacts [h3.markInBlock, h3]
    · exact h3.foldl fun _ _ h => h.freeCycles.requeue

theorem MemoriesOk.purgeChunks {i : Nat} {s : State} (h : MemoriesOk s) : MemoriesOk (purgeChunks i s) := by
  unfold Machine.purgeChunks
  split; exacts [h, .ite h h.modStream]

theorem MemoriesOk.endRunStream {i : Nat} {st : Stream} {s : State} (h : MemoriesOk s) :
    MemoriesOk (endRunStream i st s) := by
  unfold Machine.endRunStream
  extract_lets s1 s2
  have h1 : MemoriesOk s1 := h.modStream
  have h2 : MemoriesOk s2 := by unfold s2; split; exacts [h1.retire, h1]
  split; exacts [h2.completeOk, h2]

theorem MemoriesOk.endIfDone {i : Nat} {s : State} (h : MemoriesOk s) : MemoriesOk (endIfDone i s) := by
  unfold Machine.endIfDone
  split; exacts [h, .ite (.ite h.endRunStream.emitConceal h.endRunStream.freeStream) h]

theorem MemoriesOk.releaseChunk {i : Nat} {st : Stream} {k : Chunk} {s : State} (h : MemoriesOk s) :
    MemoriesOk (releaseChunk i st k s) := by
  unfold Machine.releaseChunk
  extract_lets _ _ _ _ s1 s2 s3 _ s4
  have h1 : MemoriesOk s1 := h.modStream
  have h2 : MemoriesOk s2 := .ite (.landAgain (by split; exacts [h1.completeOk, h1])) h1
  have h3 : MemoriesOk s3 := .ite h2.endRunStream h2
  have h4 : MemoriesOk s4 := h3.foldl fun _ _ h => h.emitSamples
  exact h4.purgeChunks

theorem MemoriesOk.execChunkRelease {i : Nat} {s : State} (h : MemoriesOk s) : KeepsNext (execChunkRelease i s) := by
  unfold Machine.execChunkRelease
  refine .next ?_
  split
  · exact h
  · refine .ite h ?_
    extract_lets _
    split; exacts [.ite h h.releaseChunk, h.purgeChunks.endIfDone]

theorem MemoriesOk.closeLoop {u l : Nat} {x : Loop} {s : State} (h : MemoriesOk s) : MemoriesOk (closeLoop u l x s) :=
  (h.modLoop.foldl (fun _ _ h => h.modStream)).modCmd

theorem MemoriesOk.execStreamClose {u : Nat} {s : State} (h : MemoriesOk s) : KeepsNext (execStreamClose u s) := by
  unfold Machine.execStreamClose
  refine .next (h.onStart fun _ _ h => ?_)
  extract_lets +onlyGivenNames _
  refine .ite ?_ (h.checked (fun _ h => .ite h.completeOk h.modStream.modCmd.endIfDone))
  refine h.checked fun _ h => ?_
  split; exacts [h.closeLoop, h]

theorem MemoriesOk.execRngKey {u : Nat} {s : State} (h : MemoriesOk s) : KeepsNext (execRngKey u s) :=
  (h.onStart (fun _ _ h => .ite h.modCtx.completeOk h.modCtx.modCmd)).next

theorem MemoriesOk.execRngStateGet {u : Nat} {s : State} (h : MemoriesOk s) : KeepsNext (execRngStateGet u s) := by
  unfold Machine.execRngStateGet
  refine .next (h.onStart fun _ _ h => ?_)
  split; exacts [h, h.checked (fun _ h => h.hostWrite.completeOk)]

end Sys2Proof.Machine
end

section
/-! #### Sys2Proof/Machine/Output.lean -/
namespace Sys2Proof.Machine

theorem MemoriesOk.execOutBind {u : Nat} {s : State} (h : MemoriesOk s) : KeepsNext (execOutBind u s) := by
  unfold Machine.execOutBind
  refine .next (h.onStart fun _ _ h => ?_)
  extract_lets +onlyGivenNames _
  refine h.checked fun _ h => ?_
  split; exacts [h, h.withObject (fun _ _ h => h.checked (fun _ h => (h.frame (by rfl)).completeOk))]

theorem MemoriesOk.execOutUnbind {u : Nat} {s : State} (h : MemoriesOk s) : KeepsNext (execOutUnbind u s) :=
  (h.onStart (fun _ _ h => h.checked (fun _ h => (h.frame (by rfl)).completeOk))).next

theorem MemoriesOk.modTarget {b k : Nat} {f : Target → Target} {s : State} (h : MemoriesOk s) :
    MemoriesOk (modTarget b k f s) :=
  h.modBinding

theorem MemoriesOk.drainBinding {b : Nat} {s : State} (h : MemoriesOk s) : MemoriesOk (drainBinding b s) := by
  unfold Machine.drainBinding
  split; exacts [h, h.drainHeld.foldl (fun _ _ h => h.purgeChunks)]

theorem MemoriesOk.readConsumer {r : ConsRef} {s : State} (h : MemoriesOk s) : MemoriesOk (readConsumer r s) := by
  unfold Machine.readConsumer
  split
  · split
    · exact h
    · split; exacts [h, h.modTarget.drainBinding]
  · exact h.modProv

theorem MemoriesOk.execConsLineSnoop {stores : List HostStore} {r : ConsRef} {count : W64} {s : State}
    (h : MemoriesOk s) : KeepsNext (execConsLineSnoop stores r count s) := by
  unfold Machine.execConsLineSnoop
  refine .next ?_
  extract_lets +onlyGivenNames s1
  have h1 : MemoriesOk s1 := h.hostStores
  split; exacts [h1, .ite h1.hostWrite.readConsumer h1.hostWrite]

theorem MemoriesOk.execLinePoll {stores : List HostStore} {s : State} (h : MemoriesOk s) :
    KeepsNext (execLinePoll stores s) := by
  unfold Machine.execLinePoll
  refine .next ?_
  extract_lets +onlyGivenNames s1
  have h1 : MemoriesOk s1 := h.hostStores
  refine .ite h1 ?_
  extract_lets s2 s3
  have h2 : MemoriesOk s2 := h1.foldl fun _ _ h => h.readQueueLine.readQueueLine
  have h3 : MemoriesOk s3 := h2.foldl fun _ _ h => h.foldl fun _ _ h => h.readConsumer
  exact h3.readConsumer

theorem MemoriesOk.execGapRecordWrite {b k : Nat} {s : State} (h : MemoriesOk s) :
    KeepsNext (execGapRecordWrite b k s) := by
  unfold Machine.execGapRecordWrite
  refine .next ?_
  split
  · exact h
  · split; exacts [h, .ite h.writeGap.modTarget.drainBinding h]

theorem MemoriesOk.stopRing {s : State} (h : MemoriesOk s) : MemoriesOk (stopRing s) := h.modProv

theorem MemoriesOk.execRingWriteFail {r : ConsRef} {s : State} (h : MemoriesOk s) :
    KeepsNext (execRingWriteFail r s) := by
  unfold Machine.execRingWriteFail
  refine .next (.ite h ?_)
  split
  · split; exacts [h, .ite h.modTarget.modStats.raise.drainBinding h]
  · exact .ite h.stopRing.raise h

theorem MemoriesOk.execWithheldGapWrite {i : Nat} {s : State} (h : MemoriesOk s) :
    KeepsNext (execWithheldGapWrite i s) := by
  unfold Machine.execWithheldGapWrite
  refine .next ?_
  split; exacts [h, .ite h.flushWithheld h]

theorem MemoriesOk.execLoadKey {u : Nat} {s : State} (h : MemoriesOk s) : KeepsNext (execLoadKey u s) := by
  unfold Machine.execLoadKey
  refine .next ?_
  split; exacts [h, .ite h (h.onStart (fun _ _ h => h.checked (fun _ h => (h.frame (by rfl)).completeOk)))]

theorem MemoriesOk.execWmConfigStream {u : Nat} {s : State} (h : MemoriesOk s) :
    KeepsNext (execWmConfigStream u s) := by
  unfold Machine.execWmConfigStream
  refine .next ?_
  split; exacts [h, .ite h (h.onStart (fun _ _ h => h.checked (fun _ h => h.modStream.completeOk)))]

theorem MemoriesOk.execWmDetect {u cyc : Nat} {s : State} (h : MemoriesOk s) : KeepsNext (execWmDetect u cyc s) := by
  unfold Machine.execWmDetect
  refine .next ?_
  split
  · exact h
  · refine .ite ?_ h
    extract_lets +onlyGivenNames _ _
    split
    · exact h
    · split
      next e => exact (h.readFrom.snd e).hostWrite.endPump
      next e => exact (h.readFrom.snd e).endPump

theorem MemoriesOk.execProvConfig {u : Nat} {s : State} (h : MemoriesOk s) : KeepsNext (execProvConfig u s) :=
  (h.onStart (fun _ _ h => h.checked (fun _ h => (h.frame (by rfl)).modProv.completeOk))).next

theorem MemoriesOk.buildInterval {k ms : Nat} {s : State} (h : MemoriesOk s) : MemoriesOk (buildInterval k ms s) :=
  .ite h.modProv h.modProv.modProv.provEdge

theorem MemoriesOk.execIntervalTick {s : State} (h : MemoriesOk s) : KeepsNext (execIntervalTick s) := by
  unfold Machine.execIntervalTick
  refine .next (.ite h ?_)
  extract_lets _ _ s1 s2 s3 s4
  have h1 : MemoriesOk s1 := h.modProv
  have h2 : MemoriesOk s2 := .ite h1.closeAllSegments h1
  have h3 : MemoriesOk s3 := .ite h2.modProv h2
  have h4 : MemoriesOk s4 := h3.frame rfl
  exact h4.provEdge

theorem MemoriesOk.execIntervalBuild {s : State} (h : MemoriesOk s) : KeepsNext (execIntervalBuild s) := by
  unfold Machine.execIntervalBuild
  refine .next ?_
  split; exacts [h, .ite h.modProv.buildInterval h]

theorem MemoriesOk.execIntervalFull {s : State} (h : MemoriesOk s) : KeepsNext (execIntervalFull s) :=
  .next (.ite h.modProv.buildInterval h)

theorem MemoriesOk.updProv {f : Prov → Prov} {s : State} (h : MemoriesOk s) : MemoriesOk (updProv f s) :=
  h.modProv.provEdge

theorem MemoriesOk.silence {s : State} (h : MemoriesOk s) : MemoriesOk (silence s) :=
  ((h.foldl (fun _ _ h => h.endLoop)).foldl (fun _ _ h => h.killAs)).frame rfl

theorem MemoriesOk.exhaust {s : State} (h : MemoriesOk s) : MemoriesOk (exhaust s) :=
  h.modProv.raise.closeAllSegments.silence

theorem MemoriesOk.useIndex {s : State} (h : MemoriesOk s) : MemoriesOk (useIndex s) :=
  .ite h.modProv.exhaust h.updProv

theorem MemoriesOk.execManifestSign {s : State} (h : MemoriesOk s) : KeepsNext (execManifestSign s) := by
  unfold Machine.execManifestSign
  refine .next ?_
  split; exacts [h, .ite h (.ite h.updProv.useIndex h.updProv)]

theorem MemoriesOk.ringWrite {g : MRing} {bs : Block} {s : State} (h : MemoriesOk s) :
    MemoriesOk (ringWrite g bs s) :=
  h.hostWrite.hostWrite

theorem MemoriesOk.execManifestWrite {s : State} (h : MemoriesOk s) : KeepsNext (execManifestWrite s) := by
  unfold Machine.execManifestWrite
  refine .next ?_
  split; exacts [.ite h.ringWrite.hostWrite.modProv.msix h, h]

theorem MemoriesOk.execFlashProgramConfirm {ok : Bool} {s : State} (h : MemoriesOk s) :
    KeepsNext (execFlashProgramConfirm ok s) := by
  unfold Machine.execFlashProgramConfirm
  refine .next ?_
  split; exacts [h, .ite h (.ite h.updProv.modDev h.updProv)]

theorem MemoriesOk.keepTree {t : Nat} {s : State} (h : MemoriesOk s) : MemoriesOk (keepTree t s) := h.modDev

theorem MemoriesOk.execNextTreeReady {s : State} (h : MemoriesOk s) : KeepsNext (execNextTreeReady s) :=
  .next (.ite h (.ite h.updProv.keepTree (.ite h.updProv.keepTree h)))

theorem MemoriesOk.execSubtreeRebuild {s : State} (h : MemoriesOk s) : KeepsNext (execSubtreeRebuild s) :=
  .next (.ite h.updProv h)

theorem MemoriesOk.execAttest {u : Nat} {s : State} (h : MemoriesOk s) : KeepsNext (execAttest u s) := by
  unfold Machine.execAttest
  refine .next (.ite h ?_)
  exact h.onStart fun _ _ h => h.checked fun _ h => .completeOk (.ite h.hostWrite.useIndex h.hostWrite)

end Sys2Proof.Machine
end

section
/-! #### Sys2Proof/Machine/Save.lean -/
namespace Sys2Proof.Machine

theorem MemoriesOk.meetSump {x : Ctx} {s : State} (h : MemoriesOk s) : MemoriesOk (meetSump x s) :=
  h.foldl fun _ _ h => h.meetWell

theorem MemoriesOk.meetSlots {cid : Nat} {s : State} (h : MemoriesOk s) : MemoriesOk (meetSlots cid s) := by
  unfold Machine.meetSlots
  refine h.foldl fun _ _ h => ?_
  split; exacts [h.meetCis, h]

theorem MemoriesOk.execCtxSave {u cyc : Nat} {s : State} (h : MemoriesOk s) : KeepsNext (execCtxSave u cyc s) := by
  unfold Machine.execCtxSave
  refine .next ?_
  split
  · exact h
  · refine .ite ?_ h
    split
    · refine h.meetSump.meetSlots.withMap (fun _ h => h.endPump) fun _ h => ?_
      refine .ite ?_ h.partialRows.spreadPoison.endPump
      split
      next e => exact (h.writeTo.snd e).endPump
      next e => exact (h.writeTo.snd e).partialRows.endPump
    · exact h

theorem MemoriesOk.restoreSeqs {cid : Nat} {rs es : List Block} {s t : State} (h : MemoriesOk s)
    (e : restoreSeqs cid rs es s = some t) : MemoriesOk t := by
  induction rs generalizing es s with
  | nil => obtain rfl := Option.some.inj e; exact h
  | cons r rs ih =>
    unfold Machine.restoreSeqs at e
    extract_lets +onlyGivenNames x q at e
    split at e
    · cases e
    · exact ih (h.frame (by rfl)) e

theorem MemoriesOk.restoreSlots {cid : Nat} {x : Ctx} {b : Block} {s : State} (h : MemoriesOk s) :
    MemoriesOk (restoreSlots cid x b s) :=
  h.foldl fun _ _ h => h.wellWrite.modCtx

theorem MemoriesOk.restoreStreams {cid : Nat} {b : Block} {s : State} (h : MemoriesOk s) :
    MemoriesOk (restoreStreams cid b s) := by
  unfold Machine.restoreStreams
  refine h.foldl fun _ _ h => ?_
  extract_lets _ _ s1 s2
  have h1 : MemoriesOk s1 := h.frame rfl
  have h2 : MemoriesOk s2 := by unfold s2; split; exacts [h1.modBinding, h1]
  exact h2.beginWake.spoutCharge

theorem MemoriesOk.restoreAll {cid : Nat} {b : Block} {s : State} (h : MemoriesOk s) :
    MemoriesOk (restoreAll cid b s) := by
  unfold Machine.restoreAll
  extract_lets _ _ _ _ s1 s2 s3 s4
  have h1 : MemoriesOk s1 := h.frame rfl
  have h2 : MemoriesOk s2 := h1.restoreSlots
  have h3 : MemoriesOk s3 := h2.foldl fun _ _ h => h.frame rfl
  have h4 : MemoriesOk s4 := h3.foldl fun _ _ h => h.frame rfl
  exact h4.restoreStreams

theorem MemoriesOk.execCtxRestore {u : Nat} {s : State} (h : MemoriesOk s) : KeepsNext (execCtxRestore u s) := by
  unfold Machine.execCtxRestore
  refine .next (h.onStart fun _ _ h => h.checked fun _ h => ?_)
  split
  · exact h
  · refine h.withObject fun _ _ h => h.checked fun _ h => h.checked fun _ h => ?_
    split
    · exact h.retire
    next e => exact (h.restoreSeqs e).restoreAll.countFetch.completeOk

end Sys2Proof.Machine
end

section
/-! #### Sys2Proof/Machine/Faults.lean -/
namespace Sys2Proof.Machine

theorem MemoriesOk.openSwitches {ns : List Nat} {s : State} (h : MemoriesOk s) : MemoriesOk (openSwitches ns s) :=
  (h.dropCharges.foldl (fun _ _ h => h.modDom)).modPwr

theorem MemoriesOk.thermalTrip {s : State} (h : MemoriesOk s) : MemoriesOk (thermalTrip s) := h.modDev.openSwitches

theorem MemoriesOk.fatal {cause : Nat} {s : State} (h : MemoriesOk s) : MemoriesOk (fatal cause s) :=
  .ite h (h.stopTransfers.frame (by rfl)).raise

theorem MemoriesOk.execWatchdogExpiry {s : State} (h : MemoriesOk s) : KeepsNext (execWatchdogExpiry s) :=
  h.fatal.next

theorem MemoriesOk.execFatalError {s : State} (h : MemoriesOk s) : KeepsNext (execFatalError s) := h.fatal.next

theorem MemoriesOk.execVddHLow {s : State} (h : MemoriesOk s) : KeepsNext (execVddHLow s) := h.fatal.next

theorem MemoriesOk.execRefclkLoss {s : State} (h : MemoriesOk s) : KeepsNext (execRefclkLoss s) := h.fatal.next

theorem MemoriesOk.runAgain {u : Nat} {s : State} (h : MemoriesOk s) : MemoriesOk (runAgain u s) := by
  unfold Machine.runAgain
  split
  · exact h
  · extract_lets +onlyGivenNames s1
    have h1 : MemoriesOk s1 := h.frame rfl
    refine .ite ?_ (.ite ?_ ?_)
    · split
      next s2 e =>
        have h2 : MemoriesOk s2 := by split at e; exacts [h1.freeCycles.snd e, h1.snd (p := (0, s1)) e]
        exact h2.requeue
    · split; exacts [.ite (.ite h1 h1.dropWaitingLoop.refuse) h1.freeCycles.killBlock, h1]
    · extract_lets s2 s3 s4 s5
      have h2 : MemoriesOk s2 := h1.stopTransfer
      have h3 : MemoriesOk s3 := .ite h2.freeCycles.chargeRun h2
      have h4 : MemoriesOk s4 := h3.freeCores
      have h5 : MemoriesOk s5 := h4.frame rfl
      exact h5.modCmd

theorem MemoriesOk.parkDie {d : Nat} {s : State} (h : MemoriesOk s) : MemoriesOk (parkDie d s) := h.frame rfl

theorem MemoriesOk.loseDie {d : Nat} {s : State} (h : MemoriesOk s) : MemoriesOk (loseDie d s) := by
  unfold Machine.loseDie
  extract_lets _ s1 _
  have h1 : MemoriesOk s1 := ⟨h.hostWf, wf_filter _ _ h.cisWf, h.wellWf⟩
  exact h1.foldl fun _ _ h => .ite h.modCore h

theorem MemoriesOk.fenceDie {d : Nat} {s : State} (h : MemoriesOk s) : MemoriesOk (fenceDie d s) :=
  h.loseDie.parkDie.openSwitches.modDev.modWell

theorem MemoriesOk.settleHeld {cs : List Nat} {s : State} (h : MemoriesOk s) : MemoriesOk (settleHeld cs s) :=
  h.modLat

theorem MemoriesOk.calSettle {s : State} (h : MemoriesOk s) : MemoriesOk (calSettle s) := h.modPwr

theorem MemoriesOk.quarantine {d : Nat} {s : State} (h : MemoriesOk s) : MemoriesOk (quarantine d s) := by
  unfold Machine.quarantine
  refine .ite h ?_
  extract_lets _ _ _ _ _ _ _ s1 s2 s3 s4 s5
  have h1 : MemoriesOk s1 := h.modDev
  have h2 : MemoriesOk s2 := h1.recovery.raise
  have h3 : MemoriesOk s3 := h2.foldl fun _ _ h => h.fenceDie
  have h4 : MemoriesOk s4 := h3.settleHeld
  have h5 : MemoriesOk s5 := h4.foldl fun _ _ h => h.teardown
  exact (h5.foldl (fun _ _ h => h.runAgain)).calSettle

theorem MemoriesOk.execDieQuarantine {d : Nat} {s : State} (h : MemoriesOk s) : KeepsNext (execDieQuarantine d s) :=
  h.quarantine.next

theorem MemoriesOk.execVddCLow {d : Nat} {s : State} (h : MemoriesOk s) : KeepsNext (execVddCLow d s) :=
  h.quarantine.next

theorem MemoriesOk.execWellSupplyFault {ds : List Nat} {s : State} (h : MemoriesOk s) :
    KeepsNext (execWellSupplyFault ds s) :=
  (h.foldl (fun _ _ h => h.quarantine)).next

theorem MemoriesOk.execInternalLinkReplay {l : LinkRef} {s : State} (h : MemoriesOk s) :
    KeepsNext (execInternalLinkReplay l s) :=
  .next (.ite h.raise h)

theorem MemoriesOk.execInternalLinkRetrain {l : LinkRef} {s : State} (h : MemoriesOk s) :
    KeepsNext (execInternalLinkRetrain l s) :=
  .next (.ite h (h.modDev.raise.recovery.foldl (fun _ _ h => h.runAgain)))

theorem MemoriesOk.execInternalLinkRetrainDone {l : LinkRef} {ok : Bool} {s : State} (h : MemoriesOk s) :
    KeepsNext (execInternalLinkRetrainDone l ok s) := by
  unfold Machine.execInternalLinkRetrainDone
  refine .next ?_
  split; exacts [h, .ite h (.ite h.modDev (.ite h.modDev h.modDev.quarantine))]

theorem MemoriesOk.noteRetirement {d page : Nat} {ue wd : Bool} {s : State} (h : MemoriesOk s) :
    MemoriesOk (noteRetirement d page ue wd s) :=
  h.modWell.modDev

theorem MemoriesOk.execPageRetire {page : Nat} {s : State} (h : MemoriesOk s) :
    KeepsNext (execPageRetire page s) := by
  unfold Machine.execPageRetire
  refine .next ?_
  extract_lets +onlyGivenNames _ _
  refine .ite h ?_
  extract_lets +onlyGivenNames _ _
  refine .ite h.quarantine ?_
  extract_lets _ s1 s2 s3
  have h1 : MemoriesOk s1 := .ite h h.meetWell
  have h2 : MemoriesOk s2 := h1.noteRetirement
  have h3 : MemoriesOk s3 := .ite h2 h2.raise
  exact h3.recovery

end Sys2Proof.Machine
end

section
/-! #### Sys2Proof/Machine/Power.lean -/
namespace Sys2Proof.Machine

theorem MemoriesOk.honourFloor {n : Nat} {s : State} (h : MemoriesOk s) : MemoriesOk (honourFloor n s) :=
  .ite h (.beginWake (.ite h.beginWake h))

theorem MemoriesOk.execPowerHint {u : Nat} {s : State} (h : MemoriesOk s) : KeepsNext (execPowerHint u s) := by
  unfold Machine.execPowerHint
  refine .next (h.onStart fun _ _ h => ?_)
  extract_lets +onlyGivenNames _ _
  exact h.checked fun _ h => ((h.foldl (fun _ _ h => h.modDom)).foldl (fun _ _ h => h.honourFloor)).completeOk

theorem MemoriesOk.execHintExpiry {n : Nat} {s : State} (h : MemoriesOk s) : KeepsNext (execHintExpiry n s) :=
  .next (.ite h.modDom.honourFloor h)

theorem MemoriesOk.emptyCluster {n : Nat} {s : State} (h : MemoriesOk s) : MemoriesOk (emptyCluster n s) := by
  unfold Machine.emptyCluster
  refine h.foldl fun _ _ h => h.foldl fun _ _ h => ?_
  split; exacts [h, h.swapSlot.modSched]

theorem MemoriesOk.dryCluster {n : Nat} {s : State} (h : MemoriesOk s) : MemoriesOk (dryCluster n s) :=
  ⟨h.hostWf, wf_filter _ _ h.cisWf, h.wellWf⟩

theorem MemoriesOk.followWell {n st : Nat} {s : State} (h : MemoriesOk s) : MemoriesOk (followWell n st s) :=
  .ite h h.modPwr

theorem MemoriesOk.execDomainStepDown {n : Nat} {s : State} (h : MemoriesOk s) :
    KeepsNext (execDomainStepDown n s) := by
  unfold Machine.execDomainStepDown
  refine .next ?_
  extract_lets +onlyGivenNames _
  refine .ite h ?_
  extract_lets _ s1 s2 s3
  have h1 : MemoriesOk s1 := .ite h.emptyCluster.dryCluster h
  have h2 : MemoriesOk s2 := h1.modDom
  have h3 : MemoriesOk s3 := .ite h2 h2.setStanding
  exact h3.followWell

theorem MemoriesOk.execWellPowerDown {d : Nat} {s : State} (h : MemoriesOk s) : KeepsNext (execWellPowerDown d s) :=
  .next (.ite h.modPwr h)

theorem MemoriesOk.execDomainWake {n : Nat} {s : State} (h : MemoriesOk s) : KeepsNext (execDomainWake n s) :=
  .next (.ite h (.beginWake (.ite h.beginWake h)))

theorem MemoriesOk.execPllLock {n : Nat} {s : State} (h : MemoriesOk s) : KeepsNext (execPllLock n s) := by
  unfold Machine.execPllLock
  refine .next ?_
  extract_lets _
  refine .ite h (.ite (.ite h.modDom.requestStanding (.ite h h.modDom.requestStanding)) ?_)
  exact .ite h.modDom.requestStanding h

theorem MemoriesOk.execWeirGrant {r pRest : Nat} {s : State} (h : MemoriesOk s) :
    KeepsNext (execWeirGrant r pRest s) :=
  .next (.ite h.grantNext h)

theorem MemoriesOk.execCxlLinkL1 {enter : Bool} {s : State} (h : MemoriesOk s) : KeepsNext (execCxlLinkL1 enter s) :=
  .next (.ite h (.ite h.modPwr.modDom.setStanding h.modPwr.beginWake))

theorem MemoriesOk.execCxlLinkRetrain {s : State} (h : MemoriesOk s) : KeepsNext (execCxlLinkRetrain s) := h.next

theorem MemoriesOk.stepDown {d : Nat} {s : State} (h : MemoriesOk s) : MemoriesOk (stepDown d s) :=
  .ite h h.dropCharges.modDie.emit.rescale

theorem MemoriesOk.stepUp {d : Nat} {s : State} (h : MemoriesOk s) : MemoriesOk (stepUp d s) := .ite h h.modDie.emit

theorem MemoriesOk.execVoltageSettled {d : Nat} {s : State} (h : MemoriesOk s) : KeepsNext (execVoltageSettled d s) :=
  .next (.ite h (.ite h.pointGranted h.request))

theorem MemoriesOk.execAvsNoAck {d : Nat} {s : State} (h : MemoriesOk s) : KeepsNext (execAvsNoAck d s) :=
  .next (.ite h.modDie.raise h)

theorem MemoriesOk.setCeil {d : Nat} {point : BitVec 2} {s : State} (h : MemoriesOk s) :
    MemoriesOk (setCeil d point s) :=
  h.modDie.foldl fun _ _ h => h.stepDown

theorem MemoriesOk.execCeilPoint {d : Nat} {point : BitVec 2} {s : State} (h : MemoriesOk s) :
    KeepsNext (execCeilPoint d point s) :=
  .next (.ite h.setCeil h)

theorem MemoriesOk.execOverCurrent {d : Nat} {s : State} (h : MemoriesOk s) : KeepsNext (execOverCurrent d s) :=
  .next (.ite h.modDie.modPwr.raise h)

theorem MemoriesOk.execOverCurrentRestore {d : Nat} {s : State} (h : MemoriesOk s) :
    KeepsNext (execOverCurrentRestore d s) :=
  .next (.ite h.modDie h)

theorem MemoriesOk.execSensorRead {temps : List Byte} {s : State} (h : MemoriesOk s) :
    KeepsNext (execSensorRead temps s) := by
  unfold Machine.execSensorRead
  refine .next ?_
  extract_lets +onlyGivenNames _
  refine .ite h ?_
  extract_lets s1
  have h1 : MemoriesOk s1 := .ite (h.modPwr.foldl (fun _ _ h => h.modDie)) h
  exact .ite h1.fatal.thermalTrip h1

theorem MemoriesOk.execThermalStepDown {d : Nat} {s : State} (h : MemoriesOk s) :
    KeepsNext (execThermalStepDown d s) := by
  unfold Machine.execThermalStepDown
  refine .next ?_
  extract_lets +onlyGivenNames _
  exact .ite h (.ite (.modDie (.ite h.modPwr.raise h.modPwr)) (.stepDown (.ite h.modPwr.raise h.modPwr)))

theorem MemoriesOk.execThermalStepUp {d : Nat} {s : State} (h : MemoriesOk s) : KeepsNext (execThermalStepUp d s) :=
  .next (.ite h h.modDie.stepUp.endThrottle)

theorem MemoriesOk.execTdpStepDown {avg : Nat} {s : State} (h : MemoriesOk s) : KeepsNext (execTdpStepDown avg s) :=
  .next (.ite h (.ite h.modPwr (h.modPwr.modPwr.foldl (fun _ _ h => h.stepDown))))

theorem MemoriesOk.execTdpStepUp {avg : Nat} {s : State} (h : MemoriesOk s) : KeepsNext (execTdpStepUp avg s) :=
  .next (.ite h (.ite h.modPwr (h.modPwr.modPwr.foldl (fun _ _ h => h.stepUp))))

theorem MemoriesOk.execCalibrationDone {d : Nat} {measured : List Nat} {s : State} (h : MemoriesOk s) :
    KeepsNext (execCalibrationDone d measured s) :=
  .next (.ite h h.modPwr.calSettle.rescale)

theorem MemoriesOk.execSlowclkLoss {s : State} (h : MemoriesOk s) : KeepsNext (execSlowclkLoss s) :=
  .next (.ite h (.ite h.modPwr.raise h.modPwr))

theorem MemoriesOk.execSlowclkReturn {s : State} (h : MemoriesOk s) : KeepsNext (execSlowclkReturn s) :=
  .next (.ite h h.modPwr)

end Sys2Proof.Machine
end

section
/-! #### Sys2Proof/Machine/Lateral.lean -/
namespace Sys2Proof.Machine

theorem MemoriesOk.takeMsg {p : Msg → Bool} {m : Msg} {s t : State} (h : MemoriesOk s) (e : takeMsg p s = some (m, t)) :
    MemoriesOk t := by
  unfold Machine.takeMsg at e
  extract_lets ms hit at e
  match hm : hit, e with
  | some i, e =>
    obtain ⟨_, _, e⟩ := Option.map_eq_some_iff.1 e
    obtain ⟨_, rfl⟩ := Prod.mk.inj e
    exact h.modLat

theorem MemoriesOk.stale {s : State} (h : MemoriesOk s) : MemoriesOk (stale s) := h.modLat

theorem MemoriesOk.writeMsg {m : Msg} {s : State} (h : MemoriesOk s) : MemoriesOk (writeMsg m s) := by
  unfold Machine.writeMsg
  split
  next e => exact (h.inboundWrite.snd e)
  next e => exact (h.inboundWrite.snd e).modLat

theorem MemoriesOk.onMsg {p : Msg → Bool} {s : State} {act : Msg → State → State} (h : MemoriesOk s)
    (hact : ∀ m s, MemoriesOk s → MemoriesOk (act m s)) : MemoriesOk (onMsg p s act) := by
  unfold Machine.onMsg
  refine .ite h ?_
  split
  · exact h
  next e => exact hact _ _ (h.takeMsg e)

theorem MemoriesOk.execWrite {s : State} (h : MemoriesOk s) : KeepsNext (execWrite s) :=
  (h.onMsg (fun _ _ h => .ite h.writeMsg h.stale)).next

theorem MemoriesOk.execGap {s : State} (h : MemoriesOk s) : KeepsNext (execGap s) :=
  (h.onMsg (fun _ _ h => .ite h.writeMsg h.stale)).next

theorem MemoriesOk.execValve {s : State} (h : MemoriesOk s) : KeepsNext (execValve s) :=
  (h.onMsg (fun _ _ h => .ite h.valveAdd h.stale)).next

theorem MemoriesOk.execMass {s : State} (h : MemoriesOk s) : KeepsNext (execMass s) :=
  (h.onMsg (fun _ _ h => .ite h.modLat h.stale)).next

theorem MemoriesOk.modGroup {gid : Nat} {f : Group → Group} {s : State} (h : MemoriesOk s) :
    MemoriesOk (modGroup gid f s) :=
  h.modLat

theorem MemoriesOk.onCtrlIf {code : Nat} {p : Msg → Bool} {s : State} {act : Nat → Group → Msg → State → State}
    (h : MemoriesOk s) (hact : ∀ n a a' s, MemoriesOk s → MemoriesOk (act n a a' s)) :
    MemoriesOk (onCtrlIf code p s act) := by
  unfold Machine.onCtrlIf
  refine h.onMsg fun _ _ h => ?_
  split; exacts [.ite (hact _ _ _ _ h) h.stale, h.stale]

theorem MemoriesOk.onCtrl {code : Nat} {s : State} {act : Nat → Group → Msg → State → State} (h : MemoriesOk s)
    (hact : ∀ n a a' s, MemoriesOk s → MemoriesOk (act n a a' s)) : MemoriesOk (onCtrl code s act) :=
  h.onCtrlIf fun _ _ _ _ h => hact _ _ _ _ h

theorem MemoriesOk.ranCycles {u : Nat} {s : State} (h : MemoriesOk s) : MemoriesOk (ranCycles u s).2 := by
  unfold Machine.ranCycles
  split
  · split; exacts [h.freeCycles, h]
  · exact h

theorem MemoriesOk.memberAbort {gid : Nat} {s : State} (h : MemoriesOk s) : MemoriesOk (memberAbort gid s) := by
  unfold Machine.memberAbort
  split
  · exact h
  · extract_lets +onlyGivenNames _
    refine .ite h.modGroup.killAs ?_
    extract_lets s2 s3
    have h2 : MemoriesOk s2 := h.modGroup
    have h3 : MemoriesOk s3 := h2.modCmd
    exact .ite h3.ranCycles.requeue (.ite h3.sendReady h3)

theorem MemoriesOk.leaderAbort {gid : Nat} {s : State} (h : MemoriesOk s) : MemoriesOk (leaderAbort gid s) := by
  unfold Machine.leaderAbort
  split; exacts [h, .ite h.sendOthers.modLat h.sendOthers.memberAbort]

theorem MemoriesOk.memberRefuse {gid : Nat} {s : State} (h : MemoriesOk s) : MemoriesOk (memberRefuse gid s) := by
  unfold Machine.memberRefuse
  split; exacts [h, h.modGroup.discardRun.refuse]

theorem MemoriesOk.execReady {s : State} (h : MemoriesOk s) : KeepsNext (execReady s) := by
  unfold Machine.execReady
  refine .next (h.onCtrl fun _ _ _ _ h => ?_)
  refine .ite h ?_
  extract_lets _ _ s1
  have h1 : MemoriesOk s1 := h.modGroup
  exact .ite h1.sendOthers.memberRefuse (.ite (h1.modGroup.foldl (fun _ _ h => h.sendCtrl)) h1)

theorem MemoriesOk.execGo {s : State} (h : MemoriesOk s) : KeepsNext (execGo s) := by
  unfold Machine.execGo
  refine .next (h.onCtrl fun _ _ _ _ h => ?_)
  refine .ite h ?_
  split; exacts [h, .ite h h.modGroup.claimStaging.launch]

theorem MemoriesOk.commitMember {gid : Nat} {g : Group} {s : State} (h : MemoriesOk s) :
    MemoriesOk (commitMember gid g s) := by
  unfold Machine.commitMember
  split; exacts [h, .ite h h.modGroup.commitRun]

theorem MemoriesOk.execDone {s : State} (h : MemoriesOk s) : KeepsNext (execDone s) := by
  unfold Machine.execDone
  refine .next (h.onCtrlIf fun _ _ _ _ h => ?_)
  exact .ite h (.ite h.modGroup (.ite h.modGroup.sendOthers.modLat h.modGroup.sendOthers.commitMember))

theorem MemoriesOk.execCommit {s : State} (h : MemoriesOk s) : KeepsNext (execCommit s) :=
  (h.onCtrlIf (fun _ _ _ _ h => .ite h.commitMember h)).next

theorem MemoriesOk.execAbort {s : State} (h : MemoriesOk s) : KeepsNext (execAbort s) :=
  (h.onCtrl (fun _ _ _ _ h => .ite h (.ite h.leaderAbort (.ite h.memberAbort h)))).next

theorem MemoriesOk.execRefuse {s : State} (h : MemoriesOk s) : KeepsNext (execRefuse s) :=
  (h.onCtrl (fun _ _ _ _ h => .ite h.memberRefuse h)).next

theorem MemoriesOk.execGroupWaitTimeout {gid : Nat} {s : State} (h : MemoriesOk s) :
    KeepsNext (execGroupWaitTimeout gid s) := by
  unfold Machine.execGroupWaitTimeout
  refine .next ?_
  split
  · exact h
  · refine .ite h (.ite h.leaderAbort ?_)
    refine .ite h ?_
    split; exacts [h.modLat.commitMember, h.memberAbort]

theorem MemoriesOk.abortVia {p : Nat} {s : State} (h : MemoriesOk s) : MemoriesOk (abortVia p s) :=
  h.foldl fun _ _ h => .ite h.leaderAbort (.ite h.ranCycles.requeue h.reportAbort)

theorem MemoriesOk.dropInput {p q : Nat} {s : State} (h : MemoriesOk s) : MemoriesOk (dropInput p q s) :=
  h.modLat.modPort

theorem MemoriesOk.dropPort {p st : Nat} {s : State} (h : MemoriesOk s) : MemoriesOk (dropPort p st s) := by
  unfold Machine.dropPort
  extract_lets _ s1 s2 s3 s4
  have h1 : MemoriesOk s1 := h.foldl fun _ _ h => h.owe
  have h2 : MemoriesOk s2 := h1.modLat
  have h3 : MemoriesOk s3 := h2.modPort
  have h4 : MemoriesOk s4 := h3.foldl fun _ _ h => h.dropInput
  exact h4.raise.abortVia

theorem MemoriesOk.execPortTrained {p : Nat} {far : Option Nat} {s : State} (h : MemoriesOk s) :
    KeepsNext (execPortTrained p far s) :=
  .next (.ite h (.ite h.modPort.raise.latSettle h.modPort.dropPort))

theorem MemoriesOk.replay {p : Nat} {s : State} (h : MemoriesOk s) : MemoriesOk (replay p s) :=
  ((h.foldl (fun _ _ h => h.emit)).modPort).raise

theorem MemoriesOk.execReplayTimeout {p : Nat} {s : State} (h : MemoriesOk s) : KeepsNext (execReplayTimeout p s) :=
  .next (.ite h.replay h)

theorem MemoriesOk.execPortRetrain {p : Nat} {s : State} (h : MemoriesOk s) : KeepsNext (execPortRetrain p s) :=
  .next (.ite h.modPort h)

theorem MemoriesOk.execRetrainDone {p failed : Nat} {s : State} (h : MemoriesOk s) :
    KeepsNext (execRetrainDone p failed s) :=
  .next (.ite ((((h.modPort.foldl (fun _ _ h => h.emit)).raise).raise).latSettle) h)

theorem MemoriesOk.execPortFailed {p failed : Nat} {s : State} (h : MemoriesOk s) :
    KeepsNext (execPortFailed p failed s) :=
  .next (.ite h.modPort.dropPort h)

theorem MemoriesOk.takeAck {p ack : Nat} {s : State} (h : MemoriesOk s) : MemoriesOk (takeAck p ack s) := h.modPort

theorem MemoriesOk.gather {p k : Nat} {pay : List Byte} {s : State} (h : MemoriesOk s) :
    MemoriesOk (gather p k pay s) := by
  unfold Machine.gather
  extract_lets +onlyGivenNames _ _ _ _ _ _ s1
  have h1 : MemoriesOk s1 := .ite h h.owe
  exact .ite (.ite h1.modPort.modLat h1.modPort.deliverMsg) h1.modPort

theorem MemoriesOk.forward {p k : Nat} {pay : List Byte} {s : State} (h : MemoriesOk s) :
    MemoriesOk (forward p k pay s) := by
  unfold Machine.forward
  split; exacts [h.modLat.owe, .ite h.putFlits h.putFlits.owe]

theorem MemoriesOk.takeFlit {p k : Nat} {pay : List Byte} {s : State} (h : MemoriesOk s) :
    MemoriesOk (takeFlit p k pay s) :=
  .ite h.gather h.forward

theorem MemoriesOk.drainRx {n p : Nat} {s : State} (h : MemoriesOk s) : MemoriesOk (drainRx n p s) := by
  induction n generalizing s with
  | zero => exact h
  | succ n ih =>
    unfold Machine.drainRx
    extract_lets _
    split
    · exact h
    · split; exacts [h, ih h.modPort.takeFlit]

theorem MemoriesOk.acceptFlit {p k : Nat} {payload : List Byte} {s : State} (h : MemoriesOk s) :
    MemoriesOk (acceptFlit p k payload s) :=
  .ite h.modPort (.ite h.modPort.modPort h.modPort.takeFlit)

theorem MemoriesOk.execFlitReceive {p : Nat} {flit : Block} {s : State} (h : MemoriesOk s) :
    KeepsNext (execFlitReceive p flit s) := by
  unfold Machine.execFlitReceive
  refine .next ?_
  extract_lets +onlyGivenNames _
  refine .ite h (.ite h.modPort.sendIdle ?_)
  extract_lets +onlyGivenNames _ _
  refine .ite h.sendIdle ?_
  extract_lets s1 s2 s3
  have h1 : MemoriesOk s1 := .ite h.takeAck h
  have h2 : MemoriesOk s2 := .ite h1 h1.acceptFlit
  have h3 : MemoriesOk s3 := .ite h2.replay h2
  exact h3.latSettle

theorem MemoriesOk.shed {m : Msg} {p dl : Nat} {s : State} (h : MemoriesOk s) : MemoriesOk (shed m p dl s) := h.modLat

theorem MemoriesOk.sendGap {g : Gap} {s : State} (h : MemoriesOk s) : MemoriesOk (sendGap g s) := h.modLat.putFlits

theorem MemoriesOk.replicate {x : McastHead} {p : Nat} {s : State} (h : MemoriesOk s) :
    MemoriesOk (replicate x p s).2 := by
  unfold Machine.replicate
  extract_lets _ _ _
  split
  · exact h.modLat
  · split; exacts [(h.foldl (fun _ _ h => h.sendGap)).putFlits, h]

theorem MemoriesOk.deliverLocal {e : W64} {m : Msg} {s : State} (h : MemoriesOk s) :
    MemoriesOk (deliverLocal e m s) :=
  h.deliverMsg

theorem MemoriesOk.dropHead {i : Nat} {x : McastHead} {s : State} (h : MemoriesOk s) :
    MemoriesOk (dropHead i x s) := by
  unfold Machine.dropHead
  extract_lets +onlyGivenNames s1
  have h1 : MemoriesOk s1 := h.modLat
  split; exacts [h1.owe.drainRx, h1.drainOwn]

theorem MemoriesOk.serveHead {i : Nat} {x : McastHead} {s : State} (h : MemoriesOk s) :
    MemoriesOk (serveHead i x s) := by
  unfold Machine.serveHead
  refine .ite h.stale.dropHead ?_
  extract_lets +onlyGivenNames s1 ps hold
  have h1 : MemoriesOk s1 := .ite h.deliverLocal h
  split
  next left s2 e =>
    have h2 : MemoriesOk s2 := by
      refine .snd ?_ e
      refine List.foldlRecOn (motive := fun acc : List Nat × State => MemoriesOk acc.2) ps _ h1 fun acc h p _ => ?_
      split
      next e => exact h.replicate.snd e
      next e => split; exacts [h.replicate.snd e, (h.replicate.snd e).shed]
    exact .ite h2.dropHead h2.modLat

theorem MemoriesOk.sendGaps {s : State} (h : MemoriesOk s) : MemoriesOk (sendGaps s) :=
  h.foldl fun _ _ h => .ite h.modLat (.ite h.sendGap h)

theorem MemoriesOk.execMcastReplicate {s : State} (h : MemoriesOk s) : KeepsNext (execMcastReplicate s) := by
  unfold Machine.execMcastReplicate
  refine .next (.ite h ?_)
  split; exacts [h.serveHead.latSettle, h.sendGaps.latSettle]

theorem MemoriesOk.execHoldExpiry {s : State} (h : MemoriesOk s) : KeepsNext (execHoldExpiry s) := by
  unfold Machine.execHoldExpiry
  refine .next (.ite h ?_)
  split
  · exact h
  · extract_lets s2
    have h2 : MemoriesOk s2 := h.foldl fun _ _ h => by
      split
      next e => exact h.replicate.snd e
      next e => exact (h.replicate.snd e).shed
    exact h2.modLat.dropHead.latSettle

end Sys2Proof.Machine
end

section
/-! #### Sys2Proof/Machine/HostMem.lean -/
namespace Sys2Proof.Machine

theorem MemoriesOk.execPatrolScrub {well granule : Nat} {s : State} (h : MemoriesOk s) :
    KeepsNext (execPatrolScrub well granule s) := by
  unfold Machine.execPatrolScrub
  refine .next (.ite h ?_)
  extract_lets _ s1 s2
  have h1 : MemoriesOk s1 := .touchWell (.ite h.beginWake h)
  have h2 : MemoriesOk s2 := .ite h1 h1.meetWellGranule
  exact h2.modWell

theorem MemoriesOk.execHdmCommit {base size : Nat} {lock : Bool} {s : State} (h : MemoriesOk s) :
    KeepsNext (execHdmCommit base size lock s) :=
  .next (.ite h (.ite (h.frame rfl) (h.frame rfl)))

theorem MemoriesOk.parkRange {i : Nat} {park : Bool} {s : State} (h : MemoriesOk s) :
    MemoriesOk (parkRange i park s) :=
  (h.frame (by rfl)).honourFloor

theorem MemoriesOk.execHdmPark {i : Nat} {park : Bool} {s : State} (h : MemoriesOk s) :
    KeepsNext (execHdmPark i park s) :=
  .next (.ite h.parkRange h)

theorem MemoriesOk.wakeWell {d : Nat} {s : State} (h : MemoriesOk s) : MemoriesOk (wakeWell d s) :=
  .ite h.beginWake.touchWell h

theorem MemoriesOk.hostLineRead {hpa n : Nat} {s : State} (h : MemoriesOk s) : MemoriesOk (hostLineRead hpa n s) := by
  unfold Machine.hostLineRead
  refine .ite h.emit ?_
  split
  · exact h.emit
  · split
    next e => exact (h.wakeWell.readAt.snd e).emit
    next e => exact (h.wakeWell.readAt.snd e).emit

theorem MemoriesOk.execHostMemRead {addr len : Nat} {s : State} (h : MemoriesOk s) :
    KeepsNext (execHostMemRead addr len s) :=
  .next (.ite (h.foldl (fun _ _ h => .ite h.hostLineRead h)) h)

theorem MemoriesOk.hostLineWrite {hpa : Nat} {bs : List Byte} {s : State} (h : MemoriesOk s) :
    MemoriesOk (hostLineWrite hpa bs s) := by
  unfold Machine.hostLineWrite
  refine .ite h.emit ?_
  split; exacts [(h.frame (by rfl)).emit, h.wakeWell.wellWrite.emit]

theorem MemoriesOk.execHostMemWrite {addr : Nat} {data : List Byte} {s : State} (h : MemoriesOk s) :
    KeepsNext (execHostMemWrite addr data s) :=
  .next (.ite (h.foldl (fun _ _ h => .ite h.hostLineWrite h)) h)

theorem MemoriesOk.wakeDebug {ad : Addr} {s : State} (h : MemoriesOk s) : MemoriesOk (wakeDebug ad s) := by
  unfold Machine.wakeDebug
  refine .ite h ?_
  split; exacts [h.wakeWell, h.beginWake.beginWake, h]

theorem MemoriesOk.debugPiece {o n : Nat} {acc : List Byte × State} (h : MemoriesOk acc.2) :
    MemoriesOk (debugPiece o n acc).2 := by
  obtain ⟨out, s⟩ := acc
  unfold Machine.debugPiece
  dsimp only
  split
  · exact h
  · split
    · exact h
    · split
      next e => exact h.wakeDebug.readAt.snd e
      next e => exact h.wakeDebug.readAt.snd e

theorem MemoriesOk.execDebugRead {off len : Nat} {s : State} (h : MemoriesOk s) :
    KeepsNext (execDebugRead off len s) := by
  have h1 : MemoriesOk ((linePieces off len).foldl (fun acc p => Machine.debugPiece p.1 p.2 acc) ([], s)).2 :=
    List.foldlRecOn (motive := fun acc : List Byte × State => MemoriesOk acc.2) (linePieces off len) _ h
      fun _ h _ _ => h.debugPiece
  exact .next (.ite h1.emit (.ite h.emit h))

theorem MemoriesOk.debugPut {o : Nat} {bs : List Byte} {s : State} (h : MemoriesOk s) :
    MemoriesOk (debugPut o bs s) := by
  unfold Machine.debugPut
  split
  · exact h
  · refine .ite h ?_
    split; exacts [.ite h h.wakeDebug.writeAt, h.wakeDebug.writeAt]

theorem MemoriesOk.execDebugWrite {off : Nat} {data : List Byte} {s : State} (h : MemoriesOk s) :
    KeepsNext (execDebugWrite off data s) :=
  .next (.ite (h.foldl (fun _ _ h => h.debugPut)) h)

theorem MemoriesOk.execHostWriteFail {kind : WriteKind} {q : Nat} {s : State} (h : MemoriesOk s) :
    KeepsNext (execHostWriteFail kind q s) := by
  unfold Machine.execHostWriteFail
  refine .next (.ite h ?_)
  extract_lets s1
  have h1 : MemoriesOk s1 := h.raise
  split; exacts [.ite h1.queueError.modQueue h1, h1]

end Sys2Proof.Machine
end

section
/-! #### Sys2Proof/Machine/Registers.lean -/
namespace Sys2Proof.Machine

theorem MemoriesOk.raiseLive {e : Nat} {s : State} (h : MemoriesOk s) : MemoriesOk (raiseLive e s) := .ite h h.raise

theorem MemoriesOk.accessError {w : Nat} {s : State} (h : MemoriesOk s) : MemoriesOk (accessError w s) :=
  h.modDev.raiseLive

theorem MemoriesOk.lockedWrite {w : Nat} {s : State} (h : MemoriesOk s) : MemoriesOk (lockedWrite w s) :=
  h.modDev.raiseLive

theorem MemoriesOk.busRead {off len : Nat} {s : State} (h : MemoriesOk s) : MemoriesOk (busRead off len s) := by
  unfold Machine.busRead
  split
  · exact h.emit
  · refine .ite h.emit (.ite h.accessError.emit ?_)
    split <;> exact h.emit

theorem MemoriesOk.execAccessErrRead {off len : Nat} {s : State} (h : MemoriesOk s) :
    KeepsNext (execAccessErrRead off len s) :=
  .next (.ite h.busRead h)

theorem MemoriesOk.startTraining {p : Nat} {s : State} (h : MemoriesOk s) : MemoriesOk (startTraining p s) :=
  .ite h.modPort.beginWake h

theorem MemoriesOk.setPortEn {mask : BitVec 4} {s : State} (h : MemoriesOk s) : MemoriesOk (setPortEn mask s) := by
  unfold Machine.setPortEn
  extract_lets +onlyGivenNames _ s1
  have h1 : MemoriesOk s1 := h.modLat
  refine h1.foldl fun _ _ h => ?_
  exact .ite h.startTraining (.ite (.setStanding (.dropCharges (.modDom (.ite h h.dropPort)))) h)

theorem MemoriesOk.execPortEn {mask : BitVec 4} {s : State} (h : MemoriesOk s) : KeepsNext (execPortEn mask s) :=
  .next (.ite h.setPortEn h)

theorem MemoriesOk.clearCounters {core : Option Nat} {s : State} (h : MemoriesOk s) :
    MemoriesOk (clearCounters core s) := by
  unfold Machine.clearCounters
  split; exacts [h.frame rfl, h.modLat]

theorem MemoriesOk.execClearAll {core : Option Nat} {s : State} (h : MemoriesOk s) :
    KeepsNext (execClearAll core s) :=
  .next (.ite h.clearCounters h)

theorem MemoriesOk.clearClients {tag : Nat} {all : Bool} {s : State} (h : MemoriesOk s) :
    MemoriesOk (clearClients tag all s) :=
  h.frame rfl

theorem MemoriesOk.execClientClear {tag : W16} {all : Bool} {s : State} (h : MemoriesOk s) :
    KeepsNext (execClientClear tag all s) :=
  .next (.ite h.clearClients h)

theorem MemoriesOk.clearPeaks {s : State} (h : MemoriesOk s) : MemoriesOk (clearPeaks s) := h.modPwr

theorem MemoriesOk.execClearPeak {s : State} (h : MemoriesOk s) : KeepsNext (execClearPeak s) :=
  .next (.ite h.clearPeaks h)

theorem MemoriesOk.execMsixUnmask {v : Nat} {s : State} (h : MemoriesOk s) : KeepsNext (execMsixUnmask v s) :=
  .next (.ite h (.ite h.modDev.emit h.modDev))

theorem MemoriesOk.setAlertEn {v : Nat} {s : State} (h : MemoriesOk s) : MemoriesOk (setAlertEn v s) := h.modDev

theorem MemoriesOk.clearEvents {v : Nat} {s : State} (h : MemoriesOk s) : MemoriesOk (clearEvents v s) := h.modDev

theorem MemoriesOk.setTdp {v : Nat} {s : State} (h : MemoriesOk s) : MemoriesOk (setTdp v s) := h.modPwr

theorem MemoriesOk.setPeak {v : Nat} {s : State} (h : MemoriesOk s) : MemoriesOk (setPeak v s) :=
  .ite h.lockedWrite h.modPwr

theorem MemoriesOk.devWrite {o v : Nat} {s : State} (h : MemoriesOk s) : MemoriesOk (devWrite o v s) := by
  unfold Machine.devWrite
  refine .ite h.clearEvents (.ite h.modDev ?_)
  exact .ite h.setAlertEn (.ite h.modDev (.ite (.ite h.modDev h) (.ite h.modDev h)))

theorem MemoriesOk.cmdWrite {o v : Nat} {s : State} (h : MemoriesOk s) : MemoriesOk (cmdWrite o v s) := by
  unfold Machine.cmdWrite
  extract_lets _
  refine .ite (h.frame rfl) (.ite h.setAqEnable ?_)
  exact .ite (h.frame rfl) (.ite (h.frame rfl) (.ite (h.frame rfl) (.ite (h.frame rfl) (.ite (h.frame rfl) h))))

theorem MemoriesOk.latWrite {o v : Nat} {s : State} (h : MemoriesOk s) : MemoriesOk (latWrite o v s) := by
  unfold Machine.latWrite
  refine .ite (.ite h.lockedWrite h.modLat) (.ite h.setPortEn ?_)
  refine .ite (.ite h.clearCounters h) ?_
  split; exacts [h.modLat, h]

theorem MemoriesOk.pwrWrite {o v : Nat} {s : State} (h : MemoriesOk s) : MemoriesOk (pwrWrite o v s) := by
  unfold Machine.pwrWrite
  refine .ite h.setTdp.setPeak.modPwr (.ite h.modPwr ?_)
  refine .ite (.ite h.clearPeaks h) ?_
  split; exacts [h.setCeil, h]

theorem MemoriesOk.wellWriteReg {o v : Nat} {s : State} (h : MemoriesOk s) : MemoriesOk (wellWriteReg o v s) := by
  unfold Machine.wellWriteReg
  refine .ite (.ite h.modWell h) ?_
  split; exacts [(h.frame (by rfl)).parkRange, h]

theorem MemoriesOk.coreWrite {o v : Nat} {s : State} (h : MemoriesOk s) : MemoriesOk (coreWrite o v s) :=
  .ite h.modCore (.ite h.modCore (.ite h.modCore (.ite (.ite h.clearCounters h) h)))

theorem MemoriesOk.schedWrite {o v : Nat} {s : State} (h : MemoriesOk s) : MemoriesOk (schedWrite o v s) := by
  unfold Machine.schedWrite
  refine .ite h.modSched (.ite h.modSched ?_)
  refine .ite h.modSched (.ite h.clearClients ?_)
  split; exacts [h.modSched, h]

theorem MemoriesOk.regWrite {w o v : Nat} {s : State} (h : MemoriesOk s) : MemoriesOk (regWrite w o v s) := by
  unfold Machine.regWrite
  split
  · exact h.devWrite
  · exact h.cmdWrite
  · exact h.latWrite
  · exact h.pwrWrite
  · exact h.wellWriteReg
  · exact h.coreWrite
  · exact h.schedWrite
  · exact h

theorem MemoriesOk.busWrite {off len v : Nat} {s : State} (h : MemoriesOk s) : MemoriesOk (busWrite off len v s) := by
  unfold Machine.busWrite
  split
  · exact h
  · refine .ite h (.ite h.accessError ?_)
    split; exacts [.ite h.regWrite h, h]

theorem MemoriesOk.execRegisterWrite {off len : Nat} {v : W64} {s : State} (h : MemoriesOk s) :
    KeepsNext (execRegisterWrite off len v s) :=
  .next (.ite h.busWrite h)

end Sys2Proof.Machine
end

section
/-! #### Sys2Proof/Machine/Chain.lean -/
namespace Sys2Proof.Machine

theorem MemoriesOk.sendAssign {s : State} (h : MemoriesOk s) : MemoriesOk (sendAssign s) := .ite h.emit h

theorem MemoriesOk.latchNumber {number index : Nat} {s : State} (h : MemoriesOk s) :
    MemoriesOk (latchNumber number index s) := by
  unfold Machine.latchNumber
  extract_lets s1 s2 s3
  have h1 : MemoriesOk s1 := h.modDev
  have h2 : MemoriesOk s2 := h1.raiseLive
  have h3 : MemoriesOk s3 := .ite (h2.foldl (fun _ _ h => h.startTraining)) h2
  exact h3.sendAssign

theorem MemoriesOk.execAssign {frame : BitVec 40} {s : State} (h : MemoriesOk s) :
    KeepsNext (execAssign frame s) := by
  unfold Machine.execAssign
  refine .next ?_
  extract_lets _
  refine .ite h (.ite h.modDev.raiseLive ?_)
  exact .ite h.modDev (.ite h (.ite h.latchNumber (.ite h h.modDev.raiseLive)))

theorem MemoriesOk.startNumbering {s : State} (h : MemoriesOk s) : MemoriesOk (startNumbering s) :=
  .ite h.latchNumber h

theorem MemoriesOk.execChainBaseTimeout {s : State} (h : MemoriesOk s) : KeepsNext (execChainBaseTimeout s) :=
  h.startNumbering.next

theorem MemoriesOk.execChainRepeat {s : State} (h : MemoriesOk s) : KeepsNext (execChainRepeat s) :=
  .next (.ite h.sendAssign h)

theorem MemoriesOk.smbusSend {cmd : Nat} {data : List Byte} {s : State} (h : MemoriesOk s) :
    MemoriesOk (smbusSend cmd data s) :=
  h.emit

theorem MemoriesOk.smbusWord {cmd v : Nat} {s : State} (h : MemoriesOk s) : MemoriesOk (smbusWord cmd v s) :=
  h.smbusSend

theorem MemoriesOk.smbusBlock {cmd : Nat} {data : List Byte} {s : State} (h : MemoriesOk s) :
    MemoriesOk (smbusBlock cmd data s) :=
  h.smbusSend

theorem MemoriesOk.onAon {s : State} {act : State → State} (h : MemoriesOk s)
    (hact : ∀ s, MemoriesOk s → MemoriesOk (act s)) : MemoriesOk (onAon s act) :=
  .ite h (hact _ h)

theorem MemoriesOk.onCore {s : State} {act : State → State} (h : MemoriesOk s)
    (hact : ∀ s, MemoriesOk s → MemoriesOk (act s)) : MemoriesOk (onCore s act) :=
  h.onAon fun _ h => .ite h.emit (hact _ h)

theorem MemoriesOk.execDevId {s : State} (h : MemoriesOk s) : KeepsNext (execDevId s) :=
  (h.onAon (fun _ h => h.smbusBlock)).next

theorem MemoriesOk.execStatus {s : State} (h : MemoriesOk s) : KeepsNext (execStatus s) :=
  (h.onAon (fun _ h => h.smbusWord)).next

theorem MemoriesOk.execDeviceNum {s : State} (h : MemoriesOk s) : KeepsNext (execDeviceNum s) :=
  (h.onAon (fun _ h => h.smbusWord)).next

theorem MemoriesOk.execSetBase {base : W16} {s : State} (h : MemoriesOk s) : KeepsNext (execSetBase base s) :=
  (h.onAon (fun _ h => .ite h.modDev.startNumbering h.emit)).next

theorem MemoriesOk.execChainStart {s : State} (h : MemoriesOk s) : KeepsNext (execChainStart s) :=
  (h.onAon (fun _ h => h.startNumbering)).next

theorem MemoriesOk.execEvents {s : State} (h : MemoriesOk s) : KeepsNext (execEvents s) :=
  (h.onAon (fun _ h => h.smbusWord)).next

theorem MemoriesOk.execEventClear {mask : W16} {s : State} (h : MemoriesOk s) : KeepsNext (execEventClear mask s) :=
  (h.onAon (fun _ h => h.clearEvents)).next

theorem MemoriesOk.execAlertMask {a : RdWr} {s : State} (h : MemoriesOk s) : KeepsNext (execAlertMask a s) := by
  unfold Machine.execAlertMask
  refine .next (h.onAon fun _ h => ?_)
  split; exacts [h.smbusWord, h.setAlertEn]

theorem MemoriesOk.execFatalCause {s : State} (h : MemoriesOk s) : KeepsNext (execFatalCause s) :=
  (h.onAon (fun _ h => h.smbusWord)).next

theorem MemoriesOk.execTemp {s : State} (h : MemoriesOk s) : KeepsNext (execTemp s) :=
  (h.onCore (fun _ h => h.smbusBlock)).next

theorem MemoriesOk.execPower {s : State} (h : MemoriesOk s) : KeepsNext (execPower s) :=
  (h.onCore (fun _ h => h.smbusWord)).next

theorem MemoriesOk.execTdpSet {a : RdWr} {s : State} (h : MemoriesOk s) : KeepsNext (execTdpSet a s) := by
  unfold Machine.execTdpSet
  refine .next (h.onCore fun _ h => ?_)
  split; exacts [h.smbusWord, h.setTdp]

theorem MemoriesOk.execPeakSet {a : RdWr} {s : State} (h : MemoriesOk s) : KeepsNext (execPeakSet a s) := by
  unfold Machine.execPeakSet
  refine .next (h.onCore fun _ h => ?_)
  split; exacts [h.smbusWord, .ite h.setPeak.emit h.setPeak]

theorem MemoriesOk.execMeasure {s : State} (h : MemoriesOk s) : KeepsNext (execMeasure s) :=
  (h.onCore (fun _ h => h.smbusBlock)).next

theorem MemoriesOk.execSmbusArp {addr : BitVec 7} {s : State} (h : MemoriesOk s) : KeepsNext (execSmbusArp addr s) :=
  (h.onAon (fun _ h => h.modDev)).next

theorem MemoriesOk.execAlertResponse {s : State} (h : MemoriesOk s) : KeepsNext (execAlertResponse s) :=
  (h.onAon (fun _ h => .ite h.takeFree.emit h)).next

end Sys2Proof.Machine
end

section
/-! #### Sys2Proof/Machine/Boot.lean -/
namespace Sys2Proof.Machine

theorem MemoriesOk.resetPart {s : State} (h : MemoriesOk s) : MemoriesOk (resetPart s) := ⟨h.hostWf, rfl, h.wellWf⟩

theorem MemoriesOk.assertPerst {ns : Nat} {s : State} (h : MemoriesOk s) : MemoriesOk (assertPerst ns s) :=
  .ite h h.stopTransfers.resetPart.modDev

theorem MemoriesOk.execPerstAssert {ns : Nat} {s : State} (h : MemoriesOk s) : KeepsNext (execPerstAssert ns s) :=
  h.assertPerst.next

theorem MemoriesOk.latchStraps {straps : Option W16} {s : State} (h : MemoriesOk s) :
    MemoriesOk (latchStraps straps s) := by
  unfold Machine.latchStraps
  extract_lets put
  have hput : ∀ x s, MemoriesOk s → MemoriesOk (put x s) := fun _ _ h => h.modDev
  split; exacts [hput _ _ h, hput _ _ h.takeFree]

theorem MemoriesOk.acceptSlot {x : Bool × SlotImage} {fallback : Bool} {s : State} (h : MemoriesOk s) :
    MemoriesOk (acceptSlot x fallback s) :=
  h.modDev

theorem MemoriesOk.applyRetireLog {s : State} (h : MemoriesOk s) : MemoriesOk (applyRetireLog s) :=
  h.foldl fun _ _ h => h.modWell

theorem MemoriesOk.bringUp {n : Nat} {s : State} (h : MemoriesOk s) : MemoriesOk (bringUp n s) := h.modDom.setStanding

theorem MemoriesOk.bringUpDie {d : Nat} {s : State} (h : MemoriesOk s) : MemoriesOk (bringUpDie d s) :=
  ((h.emit.foldl (fun _ _ h => h.bringUp)).modWell).modPwr

theorem MemoriesOk.settleLog {s : State} (h : MemoriesOk s) : MemoriesOk (settleLog s) := by
  unfold Machine.settleLog
  split; exacts [h.takeFree.modDev, h]

theorem MemoriesOk.startSigner {bootId : Block} {s : State} (h : MemoriesOk s) :
    MemoriesOk (startSigner bootId s) := by
  unfold Machine.startSigner
  extract_lets s1 s2 _ s3 s4
  have h1 : MemoriesOk s1 := h
  have h2 : MemoriesOk s2 := h.settleLog
  have h3 : MemoriesOk s3 := h2.modProv
  have h4 : MemoriesOk s4 := by unfold s4; split; exacts [h3.modProv, .ite h3.modProv h3.modProv]
  exact h4.provEdge

theorem MemoriesOk.bootPart {env : BootEnv} {s : State} (h : MemoriesOk s) : MemoriesOk (bootPart env s) := by
  unfold Machine.bootPart
  extract_lets s1 s2 s3 s4 s5
  have h1 : MemoriesOk s1 := h.modDev
  have h2 : MemoriesOk s2 := h1.foldl fun _ _ h => h.bringUp
  have h3 : MemoriesOk s3 := h2.applyRetireLog
  have h4 : MemoriesOk s4 := h3.startSigner
  have h5 : MemoriesOk s5 := h4.foldl fun _ _ h => h.bringUpDie
  exact h5.foldl fun _ _ h => .ite h h.quarantine

theorem MemoriesOk.releasePerst {env : BootEnv} {s : State} (h : MemoriesOk s) : MemoriesOk (releasePerst env s) := by
  unfold Machine.releasePerst
  refine .ite h ?_
  extract_lets s1 _ s2
  have h1 : MemoriesOk s1 := (h.frame (by rfl)).latchStraps
  have h2 : MemoriesOk s2 := by unfold s2; split; exacts [h1.acceptSlot.bootPart, h1.modDev]
  exact .ite h2.startNumbering h2

theorem MemoriesOk.execPerstRelease {env : BootEnv} {s : State} (h : MemoriesOk s) :
    KeepsNext (execPerstRelease env s) :=
  h.releasePerst.next

theorem MemoriesOk.execHotReset {env : BootEnv} {s : State} (h : MemoriesOk s) : KeepsNext (execHotReset env s) :=
  .next (.ite h.assertPerst.releasePerst h)

theorem MemoriesOk.execBootReady {s : State} (h : MemoriesOk s) : KeepsNext (execBootReady s) :=
  .next (.ite h.modDev h)

theorem MemoriesOk.execMinSvnCommit {s : State} (h : MemoriesOk s) : KeepsNext (execMinSvnCommit s) :=
  .next (.ite h.modDev h)

theorem MemoriesOk.tearFuses {s : State} (h : MemoriesOk s) : MemoriesOk (tearFuses s) := .ite h.takeFree.modDev h

theorem MemoriesOk.execPowerLoss {s : State} (h : MemoriesOk s) : KeepsNext (execPowerLoss s) :=
  .next (.ite h ⟨h.tearFuses.stopTransfers.hostWf, rfl, rfl⟩)

theorem MemoriesOk.execPowerUp {s : State} (h : MemoriesOk s) : KeepsNext (execPowerUp s) :=
  .next (.ite h h.modDev.modPwr)



end Sys2Proof.Machine
end

section
/-! ### The commands and the step -/
namespace Sys2Proof.Machine

theorem MemoriesOk.exec {c : Instr} {s : State} (h : MemoriesOk s) : KeepsNext (exec c s) := by
  cases c with
  | ctxCreate _ => exact h.execCtxCreate
  | ctxDestroy _ => exact h.execCtxDestroy
  | ctxSave _ _ => exact h.execCtxSave
  | ctxRestore _ => exact h.execCtxRestore
  | ctxPin _ => exact h.execCtxPin
  | queueOpen _ => exact h.execQueueOpen
  | queueClose _ => exact h.execQueueClose
  | queueClosed _ => exact h.execQueueClosed
  | copy _ _ => exact h.execCopy
  | fill _ _ => exact h.execFill
  | siphonPut _ => exact h.execSiphonPut
  | reside _ _ _ => exact h.execReside
  | unreside _ => exact h.execUnreside
  | run _ _ => exact h.execRun
  | streamOpen _ => exact h.execStreamOpen
  | streamFeed _ => exact h.execStreamFeed
  | streamMark _ => exact h.execStreamMark
  | streamClose _ => exact h.execStreamClose
  | streamLoop _ _ => exact h.execStreamLoop
  | kvSeqOpen _ => exact h.execKvSeqOpen
  | kvSeqClose _ => exact h.execKvSeqClose
  | kvPolicySet _ => exact h.execKvPolicySet
  | poolGrant _ => exact h.execPoolGrant
  | kvPolicyPin _ => exact h.execKvPolicyPin
  | kvPolicyUnpin _ => exact h.execKvPolicyUnpin
  | rngKey _ => exact h.execRngKey
  | rngStateGet _ => exact h.execRngStateGet
  | valveSet _ => exact h.execValveSet
  | valveSignal _ => exact h.execValveSignal
  | valveWait _ => exact h.execValveWait
  | valveWaitPass _ => exact h.execValveWaitPass
  | valveWaitTimeout _ => exact h.execValveWaitTimeout
  | fence _ => exact h.execFence
  | outBind _ => exact h.execOutBind
  | outUnbind _ => exact h.execOutUnbind
  | loadKey _ => exact h.execLoadKey
  | wmConfigStream _ => exact h.execWmConfigStream
  | wmDetect _ _ => exact h.execWmDetect
  | provConfig _ => exact h.execProvConfig
  | attest _ => exact h.execAttest
  | kill _ => exact h.execKill
  | scrub _ _ => exact h.execScrub
  | powerHint _ => exact h.execPowerHint
  | statsSnapshot _ => exact h.execStatsSnapshot
  | vendorDebug _ => exact h.execVendorDebug
  | heldLineSnoop _ _ _ _ => exact h.execHeldLineSnoop
  | linePoll _ => exact h.execLinePoll
  | packetFetch _ => exact h.execPacketFetch
  | dispatch _ => exact h.execDispatch
  | kvSecureRetry _ => exact h.execKvSecureRetry
  | kvWaitTimeout _ => exact h.execKvWaitTimeout
  | sharePreemption _ _ => exact h.execSharePreemption
  | swapOut _ _ _ _ _ => exact h.execSwapOut
  | swapIn _ _ _ => exact h.execSwapIn
  | mengineSlice _ _ => exact h.execMengineSlice
  | narrow _ => exact h.execNarrow
  | recStep _ => exact h.execRecStep
  | convStep _ _ => exact h.execConvStep
  | argmax _ => exact h.execArgmax
  | gumbelArgmax _ => exact h.execGumbelArgmax
  | noise _ => exact h.execNoise
  | cropStep _ => exact h.execCropStep
  | attentionBlock _ => exact h.execAttentionBlock
  | floatWait _ _ => exact h.execFloatWait
  | floatWaitTimeout _ _ => exact h.execFloatWaitTimeout
  | siphonStep _ => exact h.execSiphonStep
  | pumpDescriptor _ => exact h.execPumpDescriptor
  | saturationPass _ _ => exact h.execSaturationPass
  | widenRerun _ => exact h.execWidenRerun
  | planCommit _ _ => exact h.execPlanCommit
  | remoteWriteCommit _ _ _ => exact h.execRemoteWriteCommit
  | remoteRead _ _ => exact h.execRemoteRead
  | siphonArrival => exact h.execSiphonArrival
  | rngParityFail _ _ _ => exact h.execRngParityFail
  | pacerTick _ => exact h.execPacerTick
  | blockGate _ _ => exact h.execBlockGate
  | streamStep _ => exact h.execStreamStep
  | blockCommit _ _ => exact h.execBlockCommit
  | dueTick _ => exact h.execDueTick
  | chunkRelease _ => exact h.execChunkRelease
  | consLineSnoop _ _ _ => exact h.execConsLineSnoop
  | gapRecordWrite _ _ => exact h.execGapRecordWrite
  | ringWriteFail _ => exact h.execRingWriteFail
  | intervalTick => exact h.execIntervalTick
  | intervalBuild => exact h.execIntervalBuild
  | intervalFull => exact h.execIntervalFull
  | manifestSign => exact h.execManifestSign
  | manifestWrite => exact h.execManifestWrite
  | withheldGapWrite _ => exact h.execWithheldGapWrite
  | flashProgramConfirm _ => exact h.execFlashProgramConfirm
  | nextTreeReady => exact h.execNextTreeReady
  | subtreeRebuild => exact h.execSubtreeRebuild
  | portTrained _ _ => exact h.execPortTrained
  | flitReceive _ _ => exact h.execFlitReceive
  | replayTimeout _ => exact h.execReplayTimeout
  | portRetrain _ => exact h.execPortRetrain
  | retrainDone _ _ => exact h.execRetrainDone
  | portFailed _ _ => exact h.execPortFailed
  | write => exact h.execWrite
  | valve => exact h.execValve
  | ready => exact h.execReady
  | go => exact h.execGo
  | done => exact h.execDone
  | commit => exact h.execCommit
  | abort => exact h.execAbort
  | refuse => exact h.execRefuse
  | gap => exact h.execGap
  | mass => exact h.execMass
  | mcastReplicate => exact h.execMcastReplicate
  | holdExpiry => exact h.execHoldExpiry
  | groupWaitTimeout _ => exact h.execGroupWaitTimeout
  | domainStepDown _ => exact h.execDomainStepDown
  | domainWake _ => exact h.execDomainWake
  | pllLock _ => exact h.execPllLock
  | weirGrant _ _ => exact h.execWeirGrant
  | overCurrent _ => exact h.execOverCurrent
  | overCurrentRestore _ => exact h.execOverCurrentRestore
  | sensorRead _ => exact h.execSensorRead
  | thermalStepDown _ => exact h.execThermalStepDown
  | thermalStepUp _ => exact h.execThermalStepUp
  | tdpStepDown _ => exact h.execTdpStepDown
  | tdpStepUp _ => exact h.execTdpStepUp
  | voltageSettled _ => exact h.execVoltageSettled
  | avsNoAck _ => exact h.execAvsNoAck
  | calibrationDone _ _ => exact h.execCalibrationDone
  | slowclkLoss => exact h.execSlowclkLoss
  | slowclkReturn => exact h.execSlowclkReturn
  | refclkLoss => exact h.execRefclkLoss
  | hintExpiry _ => exact h.execHintExpiry
  | patrolScrub _ _ => exact h.execPatrolScrub
  | pageRetire _ => exact h.execPageRetire
  | hdmCommit _ _ _ => exact h.execHdmCommit
  | hdmPark _ _ => exact h.execHdmPark
  | hostMemRead _ _ => exact h.execHostMemRead
  | hostMemWrite _ _ => exact h.execHostMemWrite
  | debugRead _ _ => exact h.execDebugRead
  | debugWrite _ _ => exact h.execDebugWrite
  | hotReset _ => exact h.execHotReset
  | hostWriteFail _ _ => exact h.execHostWriteFail
  | registerWrite _ _ _ => exact h.execRegisterWrite
  | clearAll _ => exact h.execClearAll
  | portEn _ => exact h.execPortEn
  | aqEnable _ => exact h.execAqEnable
  | clientClear _ _ => exact h.execClientClear
  | clearPeak => exact h.execClearPeak
  | msixUnmask _ => exact h.execMsixUnmask
  | assign _ => exact h.execAssign
  | chainBaseTimeout => exact h.execChainBaseTimeout
  | chainRepeat => exact h.execChainRepeat
  | devId => exact h.execDevId
  | status => exact h.execStatus
  | deviceNum => exact h.execDeviceNum
  | setBase _ => exact h.execSetBase
  | chainStart => exact h.execChainStart
  | events => exact h.execEvents
  | eventClear _ => exact h.execEventClear
  | alertMask _ => exact h.execAlertMask
  | fatalCause => exact h.execFatalCause
  | temp => exact h.execTemp
  | power => exact h.execPower
  | tdpSet _ => exact h.execTdpSet
  | peakSet _ => exact h.execPeakSet
  | measure => exact h.execMeasure
  | smbusArp _ => exact h.execSmbusArp
  | alertResponse => exact h.execAlertResponse
  | perstAssert _ => exact h.execPerstAssert
  | perstRelease _ => exact h.execPerstRelease
  | bootReady => exact h.execBootReady
  | minSvnCommit => exact h.execMinSvnCommit
  | watchdogExpiry => exact h.execWatchdogExpiry
  | fatalError => exact h.execFatalError
  | internalLinkRetrain _ => exact h.execInternalLinkRetrain
  | dieQuarantine _ => exact h.execDieQuarantine
  | vddHLow => exact h.execVddHLow
  | vddCLow _ => exact h.execVddCLow
  | wellSupplyFault _ => exact h.execWellSupplyFault
  | powerUp => exact h.execPowerUp
  | powerLoss => exact h.execPowerLoss
  | wellPowerDown _ => exact h.execWellPowerDown
  | internalLinkReplay _ => exact h.execInternalLinkReplay
  | internalLinkRetrainDone _ _ => exact h.execInternalLinkRetrainDone
  | cxlLinkRetrain => exact h.execCxlLinkRetrain
  | cxlLinkL1 _ => exact h.execCxlLinkL1
  | ceilPoint _ _ => exact h.execCeilPoint
  | accessErrRead _ _ => exact h.execAccessErrRead

theorem MemoriesOk.step {s : State} (h : MemoriesOk s) : KeepsNext (step s) := by
  unfold Machine.step
  split
  · exact (h.frame (by rfl)).next
  · exact (h.frame (by rfl)).exec

/-- Settles O60: the front command is taken off the queue, which touches no store, and every command keeps the stores
canonical. -/
theorem everyStepKeepsTheMemoriesCanonical : Obligations.EveryStepKeepsTheMemoriesCanonical := by
  unfold Obligations.EveryStepKeepsTheMemoriesCanonical
  intro s t h e
  have hs : KeepsNext (step s) := h.step
  rwa [e] at hs

end Sys2Proof.Machine
end

section
/-!
## The register windows: layout and accesses

Where the registers of a window lie and how wide they are (`Laid`), which bytes a register covers, which accesses break
R8, and what a read and a write then come to.
-/
namespace Sys2Proof.Machine

/-! ### Layout -/

/-- The windows as units of 8 bytes: unit u of window w holds one register of 8 bytes, and not registers of 4. -/
def wideUnit (w u : Nat) : Prop :=
  match w with
  | 0 => u = 8 ∨ u = 9 ∨ u = 11 ∨ 32 ≤ u
  | 1 => 4 ≤ u ∧ u < 7
  | 2 => 8 ≤ u ∧ u < 24 ∧ u % 4 ≠ 0 ∨ 32 ≤ u ∧ u < 63 ∨ 128 ≤ u
  | 3 => 1 ≤ u
  | 4 => 2 ≤ u ∧ u < 32 ∨ 64 ≤ u ∧ u < 80 ∨ 81 ≤ u ∧ u < 96
  | 5 => 256 ≤ u ∨ u % 32 ≠ 0
  | 6 => 8 ≤ u % 512 ∧ u % 512 < 32 ∨ 64 ≤ u % 512 ∧ u % 512 < 95
  | 7 => 64 ≤ u ∧ u < 256
  | _ => True

/-- A register that begins at o, if any, is aligned and as wide as its unit says. -/
def Laid (w o : Nat) (r : Option (Nat × Nat)) : Prop :=
  ∀ n v, r = some (n, v) → wideUnit w (o / 8) ∧ n = 8 ∧ o % 8 = 0 ∨ ¬wideUnit w (o / 8) ∧ n = 4 ∧ o % 4 = 0

section
variable {w o v : Nat} {a b : Option (Nat × Nat)}

@[simp] theorem laid_none : Laid w o none := nofun

@[simp] theorem laid_four : Laid w o (some (4, v)) ↔ ¬wideUnit w (o / 8) ∧ o % 4 = 0 := by simp [Laid]

@[simp] theorem laid_eight : Laid w o (some (8, v)) ↔ wideUnit w (o / 8) ∧ o % 8 = 0 := by simp [Laid]

@[simp] theorem laid_ite {c : Prop} [Decidable c] :
    Laid w o (if c then a else b) ↔ (c → Laid w o a) ∧ (¬c → Laid w o b) := by
  split <;> simp [*]

end

section
variable {k base stride count : Nat}

@[simp] theorem inArray_map {α : Type} (f : Nat → α) : (inArray k base stride count).map f =
    if base ≤ k ∧ k < base + stride * count ∧ (k - base) % stride = 0 then some (f ((k - base) / stride))
    else none := by
  simp [inArray, and_assoc, apply_ite (Option.map f)]

@[simp] theorem inArray_bind {α : Type} (f : Nat → Option α) : (inArray k base stride count).bind f =
    if base ≤ k ∧ k < base + stride * count ∧ (k - base) % stride = 0 then f ((k - base) / stride) else none := by
  simp [inArray, and_assoc, apply_ite (Option.bind · f)]

@[simp] theorem firstReg_single (r : Option (Nat × Nat)) : firstReg [r] = r := by cases r <;> rfl

@[simp] theorem firstReg_ite_cons {c : Prop} [Decidable c] (x : Nat × Nat) (rs : List (Option (Nat × Nat))) :
    firstReg ((if c then some x else none) :: rs) = if c then some x else firstReg rs := by
  split <;> rfl

end

/-! ### Every window is laid out in units -/

theorem devReg_laid (s : State) (o : Nat) : Laid 0 o (devReg s o) := by
  simp [devReg, wideUnit]
  omega

theorem cmdReg_laid (s : State) (o : Nat) : Laid 1 o (cmdReg s o) := by
  simp [cmdReg, wideUnit]
  omega

theorem latReg_laid (s : State) (o : Nat) : Laid 2 o (latReg s o) := by
  simp [latReg, wideUnit]
  omega

theorem secReg_laid (s : State) (o : Nat) : Laid 3 o (secReg s o) := by
  simp [secReg, wideUnit]
  omega

theorem pwrReg_laid (s : State) (o : Nat) : Laid 4 o (pwrReg s o) := by
  simp [pwrReg, wideUnit]
  omega

theorem wellReg_laid (s : State) (o : Nat) : Laid 5 o (wellReg s o) := by
  simp [wellReg, wideUnit]
  omega

theorem coreReg_laid (s : State) (o : Nat) : Laid 6 o (coreReg s o) := by
  simp [coreReg, wideUnit]
  omega

theorem schedReg_laid (s : State) (o : Nat) : Laid 7 o (schedReg s o) := by
  simp [schedReg, wideUnit]
  omega

/-- The record windows hold nothing but registers of 8 bytes. -/
theorem wideUnit_record {w : Nat} (hw : 8 ≤ w) (u : Nat) : wideUnit w u := by
  obtain ⟨k, rfl⟩ := Nat.exists_eq_add_of_le' hw
  exact trivial

theorem recordReg_laid {w : Nat} (hw : 8 ≤ w) (b : Block) (o : Nat) : Laid w o (recordReg b (o % 64)) := by
  simp [recordReg, wideUnit_record hw]

theorem regAt_laid (s : State) (w o : Nat) : Laid w o (regAt s w o) := by
  unfold regAt
  split
  · exact devReg_laid s o
  · exact cmdReg_laid s o
  · exact latReg_laid s o
  · exact secReg_laid s o
  · exact pwrReg_laid s o
  · exact wellReg_laid s o
  · exact coreReg_laid s o
  · exact schedReg_laid s o
  · exact recordReg_laid (by decide) _ o
  · unfold streamReg
    split
    · exact recordReg_laid (by decide) _ o
    · exact recordReg_laid (by decide) _ o
  · exact laid_none

/-! ### Which bytes a register covers -/

section
variable {s : State} {w r n v x o len : Nat}

theorem regAt_width (h : regAt s w r = some (n, v)) : n = 4 ∨ n = 8 := by
  have := regAt_laid s w r n v h
  omega

theorem regAt_pos (h : regAt s w r = some (n, v)) : 0 < n := by
  have := regAt_width h
  omega

/-- Each byte of a register is covered by it, and by no other. -/
theorem regCover_of_regAt (h : regAt s w r = some (n, v)) (h1 : r ≤ x) (h2 : x < r + n) :
    regCover s w x = some (r, n) := by
  unfold regCover
  obtain ⟨-, rfl, hr⟩ | ⟨hu, rfl, hr⟩ := regAt_laid s w r n v h
  · rw [show x / 8 * 8 = r by omega, h]; rfl
  · rw [show x / 4 * 4 = r by omega, h]
    split
    next u e =>
      obtain ⟨hw, -⟩ | ⟨-, hn, -⟩ := regAt_laid s w _ 8 u e
      · exact absurd (show wideUnit w (r / 8) by rwa [show r / 8 = x / 8 * 8 / 8 by omega]) hu
      · omega
    · rfl

/-- R8: an access that touches a register and is not exactly that register breaks the rule. -/
theorem breaksR8_of_touches (h : regAt s w r = some (n, v)) (h1 : o < r + n) (h2 : r < o + len) (hl : 0 < len)
    (hne : (o, len) ≠ (r, n)) : breaksR8 s w o len = true := by
  have hn := regAt_pos h
  refine List.any_eq_true.2 ⟨max o r - o, by simp; omega, ?_⟩
  rw [regCover_of_regAt h (by omega) (by omega)]
  simpa using hne.symm

/-- R8: an access of a register's full width at its offset does not break the rule. -/
theorem breaksR8_of_regAt (h : regAt s w r = some (n, v)) : breaksR8 s w r n = false := by
  refine List.any_eq_false.2 fun k hk => ?_
  rw [regCover_of_regAt h (by omega) (by simp at hk; omega)]
  simp

end

/-! ### Accesses -/

section
variable {s : State} {off w o r n v len : Nat} {x : W64}

theorem answers_registerWrite (off len : Nat) (x : W64) (s : State) : Answers (.registerWrite off len x) s
    (if answers s && len != 0 then busWrite off len (x.toNat % 2 ^ (8 * len)) s else s) := rfl

theorem answers_accessErrRead (off len : Nat) (s : State) : Answers (.accessErrRead off len) s
    (if answers s && len != 0 then busRead off len s else s) := rfl

theorem dark_of_live (h : s.dev.mode = .serving ∨ s.dev.mode = .booting) (w : Nat) : dark s w = false := by
  rcases h with h | h <;> simp [dark, h]

theorem answers_of_live (h : s.dev.mode = .serving ∨ s.dev.mode = .booting) : answers s = true := by
  rcases h with h | h <;> simp [answers, h]

/-- A write that a live part takes. -/
theorem registerWrite_live (h : s.dev.mode = .serving ∨ s.dev.mode = .booting) (hl : 0 < len) :
    Answers (.registerWrite off len x) s (busWrite off len (x.toNat % 2 ^ (8 * len)) s) := by
  simpa [answers_of_live h, show len ≠ 0 by omega] using answers_registerWrite off len x s

theorem accessErrRead_live (h : s.dev.mode = .serving ∨ s.dev.mode = .booting) (hl : 0 < len) :
    Answers (.accessErrRead off len) s (busRead off len s) := by
  simpa [answers_of_live h, show len ≠ 0 by omega] using answers_accessErrRead off len s

theorem busWrite_breaks {v : Nat} (h : dark s w = false) (hw : windowOf off = some (w, o))
    (hb : breaksR8 s w o len = true) : busWrite off len v s = accessError w s := by
  simp [busWrite, hw, h, hb]

theorem busRead_breaks (h : dark s w = false) (hw : windowOf off = some (w, o)) (hb : breaksR8 s w o len = true) :
    busRead off len s = emit (.busData (ones len)) (accessError w s) := by
  simp [busRead, hw, h, hb]

theorem busWrite_regAt {v u : Nat} (h : dark s w = false) (hw : windowOf off = some (w, o))
    (hr : regAt s w o = some (n, u)) : busWrite off n v s = regWrite w o v s := by
  simp [busWrite, hw, h, breaksR8_of_regAt hr, hr]

theorem busRead_regAt (h : dark s w = false) (hw : windowOf off = some (w, o)) (hr : regAt s w o = some (n, v)) :
    busRead off n s = emit (.busData (leBytes n v)) s := by
  simp [busRead, hw, h, breaksR8_of_regAt hr, hr]

theorem busWrite_dark {v : Nat} (h : dark s w = true) (hw : windowOf off = some (w, o)) : busWrite off len v s = s := by
  simp [busWrite, hw, h]

theorem busRead_dark (h : dark s w = true) (hw : windowOf off = some (w, o)) :
    busRead off len s = emit (.busData (ones len)) s := by
  simp [busRead, hw, h]

/-- A register of 8 bytes begins at every multiple of 8 of the record windows. -/
theorem regAt_record (hw : w = 8 ∨ w = 9) (ho : o % 8 = 0) : ∃ v, regAt s w o = some (8, v) := by
  have hk : o % 64 % 8 = 0 := by omega
  obtain rfl | rfl := hw
  · exact ⟨_, by simp [regAt, kvReg, recordReg, ho]; rfl⟩
  · by_cases hl : o < 0x400000
    · exact ⟨_, by simp [regAt, streamReg, recordReg, ho, hl]; rfl⟩
    · exact ⟨_, by simp [regAt, streamReg, recordReg, ho, hl]; rfl⟩

theorem windowOf_record (h1 : 0x400000 ≤ off) (h2 : off < 0x1000000) (h3 : off % 8 = 0) :
    ∃ w o, windowOf off = some (w, o) ∧ (w = 8 ∨ w = 9) ∧ o % 8 = 0 := by
  have below : ¬off < 0x60000 ∧ ¬off < 0x200000 ∧ ¬off < 0x400000 := by omega
  by_cases h : off < 0x800000
  · exact ⟨8, off - 0x400000, by simp [windowOf, below, h, h1], .inl rfl, by omega⟩
  · exact ⟨9, off - 0x800000, by simp [windowOf, below, h, h2], .inr rfl, by omega⟩

/-- The record windows are written by the part alone. -/
theorem regWrite_record {v : Nat} (hw : w = 8 ∨ w = 9) : regWrite w o v s = s := by
  obtain rfl | rfl := hw <;> rfl

theorem raiseLive_signals {e : Nat} (h : s.dev.mode ≠ .halted) : Signals e s (raiseLive e s) := by
  simpa [raiseLive, h] using raise_signals e s

end

/-- Settles O7: the access touches a register that it is not, which breaks R8, and the window answers. -/
theorem wrongAccessesAreRefusedAndRaiseAccessErr : Obligations.WrongAccessesAreRefusedAndRaiseAccessErr := by
  unfold Obligations.WrongAccessesAreRefusedAndRaiseAccessErr
  intro s off len w o r n v x hm hw hr hl h1 h2 hne
  have hd := dark_of_live hm w
  have hb := breaksR8_of_touches hr h1 h2 hl hne
  have hl' : s.dev.mode ≠ .halted := by rcases hm with h | h <;> simp [h]
  have hs : Signals evAccess _ (accessError w s) := raiseLive_signals (s := s.modDev _) hl'
  refine ⟨⟨_, registerWrite_live hm hl, ?_⟩, _, accessError w s, accessErrRead_live hm hl, hs, ?_⟩
  · rw [busWrite_breaks hd hw hb]
    exact hs
  · rw [busRead_breaks hd hw hb]
    rfl

/-- Settles O8: a full-width access is not an access error, and a dark window looks at nothing. -/
theorem readsReturnValuesAndDarkWindowsAreSilent : Obligations.ReadsReturnValuesAndDarkWindowsAreSilent := by
  unfold Obligations.ReadsReturnValuesAndDarkWindowsAreSilent
  intro s off x
  refine ⟨fun n hm => ?_, fun w o n v hm hw hr => ?_, fun n hl _ hw hm => ?_, fun hm h1 h2 h3 => ?_,
    fun w o n hl hw h1 hm => ?_⟩
  · have ha : answers s = false := by rcases hm with h | h <;> simp [answers, h]
    simpa [ha] using And.intro (answers_registerWrite off n x s) (answers_accessErrRead off n s)
  · refine ⟨_, accessErrRead_live hm (regAt_pos hr), ?_⟩
    rw [busRead_regAt (dark_of_live hm w) hw hr]
    rfl
  · refine ⟨?_, _, accessErrRead_live (.inl hm) hl, ?_⟩
    · simpa [busWrite, hw] using registerWrite_live (off := off) (x := x) (.inl hm) hl
    · simp [busRead, hw, Drives, emit]
  · obtain ⟨w, o, hw, hw', ho⟩ := windowOf_record h1 h2 h3
    obtain ⟨v, hr⟩ := regAt_record (s := s) hw' ho
    simpa [busWrite_regAt (dark_of_live (.inl hm) w) hw hr, regWrite_record hw'] using
      registerWrite_live (off := off) (len := 8) (x := x) (.inl hm) (by decide)
  · have ha : answers s = true := by rcases hm with h | h <;> simp [answers, h]
    have hd : dark s w = true := by rcases hm with h | h <;> simp [dark, h] <;> omega
    have hn : n ≠ 0 := by omega
    refine ⟨?_, _, answers_accessErrRead off n s, ?_⟩
    · simpa [ha, hn, busWrite_dark hd hw] using answers_registerWrite off n x s
    · simp [ha, hn, busRead_dark hd hw, Drives, emit, ones]

end Sys2Proof.Machine
end

section
/-! ## O9: register writes by access code -/
namespace Sys2Proof.Machine

/-! ### Fields of a written value -/

/-- The low bits of what an access of m bits writes. -/
theorem ofNat_low {w k : Nat} (v : BitVec w) (m : Nat) (h : k ≤ m) :
    BitVec.ofNat k (v.toNat % 2 ^ m) = v.extractLsb' 0 k := by
  apply BitVec.eq_of_toNat_eq
  simp [Nat.mod_mod_of_dvd _ (Nat.pow_dvd_pow 2 h)]

/-- A field of what an access of m bits writes. -/
theorem ofNat_bitsOf {w k : Nat} (v : BitVec w) (m lo : Nat) (h : lo + k ≤ m) (hk : 0 < k) :
    BitVec.ofNat k (bitsOf (v.toNat % 2 ^ m) (lo + k - 1) lo) = v.extractLsb' lo k := by
  apply BitVec.eq_of_toNat_eq
  simp only [bitsOf, BitVec.toNat_ofNat, BitVec.extractLsb'_toNat, Nat.shiftRight_eq_div_pow]
  rw [show lo + k - 1 + 1 - lo = k by omega, Nat.mod_mod, ← Nat.mod_mul_right_div_self, ← Nat.mod_mul_right_div_self,
    ← Nat.pow_add, Nat.mod_mod_of_dvd _ (Nat.pow_dvd_pow 2 h)]

section
variable {s : State} {off w o n u : Nat}

/-- A write of a register's full width does what the access code of its fields says. -/
theorem registerWrite_regAt (v : W64) (h : s.dev.mode = .serving) (hw : windowOf off = some (w, o))
    (hr : regAt s w o = some (n, u)) : Answers (.registerWrite off n v) s (regWrite w o (v.toNat % 2 ^ (8 * n)) s) := by
  simpa [busWrite_regAt (dark_of_live (.inl h) w) hw hr] using
    registerWrite_live (off := off) (x := v) (.inl h) (regAt_pos hr)

end

theorem pageBase_toNat (v : W64) :
    (BitVec.ofNat 64 (bitsOf (v.toNat % 2 ^ 64) 51 12 * 2 ^ 12)).toNat = v.toNat / 2 ^ 12 % 2 ^ 40 * 2 ^ 12 := by
  simp only [bitsOf, BitVec.toNat_ofNat, Nat.reduceAdd, Nat.reduceSub]
  omega

/-- A page base of 40 bits: the bits around it are reserved and read 0. -/
theorem pageBase_fields {v b : W64} (h : b.toNat = v.toNat / 2 ^ 12 % 2 ^ 40 * 2 ^ 12) :
    b.extractLsb' 0 12 = 0#12 ∧ b.extractLsb' 12 40 = v.extractLsb' 12 40 ∧ b.extractLsb' 52 12 = 0#12 := by
  refine ⟨?_, ?_, ?_⟩
  all_goals
    apply BitVec.eq_of_toNat_eq
    simp only [BitVec.extractLsb'_toNat, h, Nat.shiftRight_eq_div_pow, BitVec.toNat_ofNat]
    omega

theorem bitOf_31 (v : W64) : b2n (bitOf (v.toNat % 2 ^ 32) 31) = v.toNat / 2 ^ 31 % 2 := by
  simp only [b2n, bitOf, beq_iff_eq]
  split <;> omega

theorem topo_toNat (v : W64) :
    (BitVec.ofNat 32 (v.toNat % 2 ^ 32 % 2 ^ 16 + b2n (bitOf (v.toNat % 2 ^ 32) 31) * 2 ^ 31)).toNat =
      v.toNat % 2 ^ 16 + v.toNat / 2 ^ 31 % 2 * 2 ^ 31 := by
  simp only [BitVec.toNat_ofNat, bitOf_31]
  omega

/-- LAT_TOPO: 16 bits of topology and the lock in bit 31; the bits between are reserved and read 0. -/
theorem topo_fields {v : W64} {w : W32} (h : w.toNat = v.toNat % 2 ^ 16 + v.toNat / 2 ^ 31 % 2 * 2 ^ 31) :
    w.extractLsb' 0 16 = v.extractLsb' 0 16 ∧ w.extractLsb' 16 15 = 0#15 ∧ w.getLsbD 31 = v.getLsbD 31 := by
  refine ⟨BitVec.eq_of_toNat_eq ?_, BitVec.eq_of_toNat_eq ?_, ?_⟩
  · simp only [BitVec.extractLsb'_toNat, h, Nat.shiftRight_eq_div_pow]
    omega
  · simp only [BitVec.extractLsb'_toNat, h, Nat.shiftRight_eq_div_pow, BitVec.toNat_ofNat]
    omega
  · rw [← BitVec.testBit_toNat, ← BitVec.testBit_toNat, h, Nat.testBit_eq_decide_div_mod_eq,
      Nat.testBit_eq_decide_div_mod_eq, decide_eq_decide]
    omega

theorem lockedWrite_signals {s : State} (w : Nat) (h : s.dev.mode ≠ .halted) : Signals evLocked
    { s with dev := { s.dev with locked := tset s.dev.locked w (ctrAdd (tget s.dev.locked w 0) 1) } }
    (lockedWrite w s) :=
  raiseLive_signals (s := s.modDev fun d => { d with locked := tupd d.locked w 0 fun c => ctrAdd c 1 }) h

section
variable {s : State} {d g c k : Nat}

theorem windowOf_well (h : d < 8) : windowOf (0x50004 + 0x100 * d) = some (5, 0x100 * d + 4) := by
  rw [windowOf, if_pos (by omega)]
  simp only [Option.some.injEq, Prod.mk.injEq]
  omega

theorem windowOf_core (h : g < 256) (hk : k < 0x1000) :
    windowOf (0x100000 + k + 0x1000 * g) = some (6, 0x1000 * g + k) := by
  rw [windowOf, if_neg (by omega), if_pos (by simp; omega)]
  simp only [Option.some.injEq, Prod.mk.injEq, true_and]
  omega

theorem windowOf_share (h : c < 64) : windowOf (0x200100 + 4 * c) = some (7, 0x100 + 4 * c) := by
  rw [windowOf, if_neg (by omega), if_neg (by simp; omega), if_pos (by simp; omega)]
  simp only [Option.some.injEq, Prod.mk.injEq, true_and]
  omega

theorem regAt_ceRetire (h : d < 8) : regAt s 5 (0x100 * d + 4) = some (4, (s.well d).ceRetire.toNat) := by
  have hd : (0x100 * d + 4) / 0x100 = d ∧ (0x100 * d + 4) % 0x100 = 4 := by omega
  have hl : 0x100 * d + 4 < 0x800 := by omega
  simp [regAt, wellReg, hd, hl]

theorem regWrite_ceRetire {v : Nat} (h : d < 8) : regWrite 5 (0x100 * d + 4) v s =
    { s with wells := tset s.wells d { s.well d with ceRetire := BitVec.ofNat 8 v } } := by
  have hd : (0x100 * d + 4) / 0x100 = d ∧ (0x100 * d + 4) % 0x100 = 4 := by omega
  have hl : 0x100 * d + 4 < 0x800 := by omega
  simp [regWrite, wellWriteReg, hd, hl, State.modWell, tupd, State.well]

theorem coreOffset (hk : k < 0x1000) : (0x1000 * g + k) / 0x1000 = g ∧ (0x1000 * g + k) % 0x1000 = k := by omega

theorem inArray_share (h : c < 64) : inArray (0x100 + 4 * c) 0x100 4 64 = some c := by
  simp [inArray]; omega

theorem regAt_share (h : c < 64) : regAt s 7 (0x100 + 4 * c) = some (4, (tget s.sched.shares c 0x100).toNat) := by
  have low : ¬0x100 + 4 * c = 4 ∧ ¬0x100 + 4 * c = 8 ∧ ¬0x100 + 4 * c = 12 ∧ ¬0x100000 ≤ 0x100 + 4 * c := by omega
  simp [regAt, schedReg, low, inArray_share h, firstReg, -inArray_map]

theorem regWrite_share {v : Nat} (h : c < 64) : regWrite 7 (0x100 + 4 * c) v s =
    { s with sched := { s.sched with shares := tset s.sched.shares c (BitVec.ofNat 16 v) } } := by
  have low : ¬0x100 + 4 * c = 4 ∧ ¬0x100 + 4 * c = 8 ∧ ¬0x100 + 4 * c = 12 := by omega
  simp [regWrite, schedWrite, low, inArray_share h, State.modSched]

theorem regAt_coreErr : regAt s 6 (0x1000 * g + 0x10) = some (4, (s.core g).err.toNat) := by
  simp [regAt, coreReg, coreOffset]

theorem regAt_waitLimit : regAt s 6 (0x1000 * g + 0x20) = some (4, (s.core g).waitLimit.toNat) := by
  simp [regAt, coreReg, coreOffset]

theorem regWrite_coreErr {v : Nat} : regWrite 6 (0x1000 * g + 0x10) v s =
    { s with cores := tset s.cores g { s.core g with err := (s.core g).err &&& ~~~BitVec.ofNat 8 v } } := by
  simp [regWrite, coreWrite, coreOffset, State.modCore, tupd, State.core]

theorem regWrite_waitLimit {v : Nat} : regWrite 6 (0x1000 * g + 0x20) v s =
    { s with cores := tset s.cores g { s.core g with waitLimit := BitVec.ofNat 32 v } } := by
  simp [regWrite, coreWrite, coreOffset, State.modCore, tupd, State.core]

end

theorem regWrite_topo (v : Nat) (s : State) : regWrite 2 0 v s =
    if s.lat.topo.getLsbD 31 then lockedWrite 2 s
    else { s with lat := { s.lat with topo := BitVec.ofNat 32 (v % 2 ^ 16 + b2n (bitOf v 31) * 2 ^ 31) } } := rfl

/-- Settles O9: each access is of its register's full width, and what it writes is the register's own write function on
the written fields. -/
theorem registerWritesFollowTheirAccessCodes : Obligations.RegisterWritesFollowTheirAccessCodes := by
  unfold Obligations.RegisterWritesFollowTheirAccessCodes
  intro s v h
  refine ⟨⟨_, registerWrite_regAt v h rfl rfl, ?_⟩, ⟨_, registerWrite_regAt v h rfl rfl, ?_⟩,
    ⟨_, registerWrite_regAt v h rfl rfl, ?_⟩, ⟨_, registerWrite_regAt v h rfl rfl, ?_⟩,
    ?_, ⟨_, registerWrite_regAt v h rfl rfl, ?_⟩,
    ⟨_, _, registerWrite_regAt v h rfl rfl, rfl, ?_⟩, ?_, ?_,
    ⟨_, registerWrite_regAt v h rfl rfl, ?_⟩, ?_, ?_, ?_⟩
  -- EVENT_STATUS
  · rw [← ofNat_low v 32 (by decide)]; rfl
  -- EVENT_EN
  · rw [← ofNat_low v 32 (by decide)]; rfl
  -- WIN_ERR
  · rw [← ofNat_low v 32 (by decide)]; rfl
  -- DBG_WELL_BASE
  · rw [← ofNat_bitsOf v 64 31 (by decide) (by decide)]; rfl
  -- DEV_ID, which is read-only
  · show Answers _ s (regWrite 0 0 (v.toNat % 2 ^ (8 * 4)) s)
    exact registerWrite_regAt v h rfl rfl
  -- CMD_POLL
  · rw [← ofNat_low v 32 (by decide)]; rfl
  -- AQ_SQ_BASE
  · exact pageBase_fields (pageBase_toNat v)
  -- LAT_TOPO, unlocked
  · intro ho
    refine ⟨_, _, registerWrite_regAt v h rfl (u := s.lat.topo.toNat) rfl, ?_, topo_fields (topo_toNat v)⟩
    rw [regWrite_topo, ho]; rfl
  -- LAT_TOPO, locked
  · intro hl
    refine ⟨_, registerWrite_regAt v h rfl (u := s.lat.topo.toNat) rfl, ?_⟩
    rw [regWrite_topo, hl]
    exact lockedWrite_signals 2 (by simp [h])
  -- PWR_IDLE
  · rw [← ofNat_low v 64 (by decide), ← ofNat_bitsOf v 64 16 (by decide) (by decide),
      ← ofNat_bitsOf v 64 32 (by decide) (by decide)]; rfl
  -- WELL_RETIRE_CFG of well d
  · intro d hd
    refine ⟨_, registerWrite_regAt v h (windowOf_well hd) (regAt_ceRetire hd), ?_⟩
    rw [regWrite_ceRetire hd, ← ofNat_low v 32 (by decide)]
  -- CORE_ERR_STATUS and FLOAT_WAIT_LIMIT of core g
  · intro g hg
    have hw (k : Nat) (hk : k < 0x1000) := windowOf_core hg hk
    refine ⟨⟨_, registerWrite_regAt v h (hw 0x10 (by decide)) regAt_coreErr, ?_⟩,
      _, registerWrite_regAt v h (hw 0x20 (by decide)) regAt_waitLimit, ?_⟩
    · rw [regWrite_coreErr, ← ofNat_low v 32 (by decide)]
    · rw [regWrite_waitLimit, ← ofNat_low v 32 (by decide)]
  -- SHARES of class c
  · intro c hc
    refine ⟨_, registerWrite_regAt v h (windowOf_share hc) (regAt_share hc), ?_⟩
    rw [regWrite_share hc, ← ofNat_low v 32 (by decide)]

end Sys2Proof.Machine
end

section
/-! ## O2: SMBus writes -/
namespace Sys2Proof.Machine

section
variable {s : State} {act : State → State}

/-- A command marked AON is answered whenever VDD_AON is present. -/
theorem answers_onAon {c : Instr} (h0 : s.dev.mode ≠ .off) (hc : exec c s = .next (onAon s act)) :
    Answers c s (act s) := by
  rw [Answers, hc]
  simp [onAon, h0]

/-- Any other command is answered out of reset and before a fatal error. -/
theorem answers_onCore {c : Instr} (h0 : s.dev.mode ≠ .off) (h1 : s.dev.mode ≠ .reset) (h2 : s.dev.mode ≠ .fatal)
    (hc : exec c s = .next (onCore s act)) : Answers c s (act s) := by
  rw [Answers, hc]
  simp [onCore, onAon, h0, h1, h2]

theorem answers_onCore_nack {c : Instr} (h : s.dev.mode = .reset ∨ s.dev.mode = .fatal)
    (hc : exec c s = .next (onCore s act)) : Answers c s (emit .smbusNack s) := by
  rw [Answers, hc]
  rcases h with h | h <;> simp [onCore, onAon, h]

theorem setPeak_open {v : Nat} (h : s.pwr.peakLock = false) :
    setPeak v s = { s with pwr := { s.pwr with peakW := BitVec.ofNat 12 v } } := by
  rw [setPeak, h]; rfl

theorem setPeak_locked {v : Nat} (h : s.pwr.peakLock = true) : setPeak v s = lockedWrite 4 s := by
  rw [setPeak, h]; rfl

/-- In the boot-halted state a refused write is counted and raises nothing. -/
theorem lockedWrite_halted (w : Nat) (h : s.dev.mode = .halted) : lockedWrite w s =
    { s with dev := { s.dev with locked := tset s.dev.locked w (ctrAdd (tget s.dev.locked w 0) 1) } } := by
  simp [lockedWrite, raiseLive, h, State.modDev, tupd]

end

theorem ofNat_toNat_low {w k : Nat} (v : BitVec w) : BitVec.ofNat k v.toNat = v.extractLsb' 0 k := by
  apply BitVec.eq_of_toNat_eq
  simp

/-- ALERT_EN: the event bits are those written, and bit 13 stays 1. -/
theorem alertEn_bits (v : W16) : (BitVec.ofNat 14 v.toNat ||| 0x2000).getLsbD 13 = true ∧
    ∀ i < 13, (BitVec.ofNat 14 v.toNat ||| 0x2000).getLsbD i = v.getLsbD i := by
  have hp : (0x2000 : BitVec 14) = BitVec.twoPow 14 13 := rfl
  refine ⟨by simp [hp], fun i hi => ?_⟩
  simp [hp, show i < 14 by omega, show i ≠ 13 by omega]

/-- TDP_W: what is written, held within 300 to 1,500. -/
theorem tdp_range (v : W16) : (BitVec.ofNat 12 (max 300 (min 1500 v.toNat))).toNat = max 300 (min 1500 v.toNat) := by
  rw [BitVec.toNat_ofNat]
  omega

/-- Settles O2: the AON commands act in every powered mode; the others act where the part serves SMBus, and are NACKed
elsewhere. -/
theorem smbusWritesTakeEffect : Obligations.SmbusWritesTakeEffect := by
  unfold Obligations.SmbusWritesTakeEffect
  intro s v h0
  refine ⟨⟨_, answers_onAon h0 rfl, ?_⟩, ⟨_, _, answers_onAon h0 rfl, rfl, alertEn_bits v⟩,
    fun a => ⟨_, answers_onAon h0 rfl, rfl⟩, fun h1 h2 => ⟨⟨_, _, answers_onCore h0 h1 h2 rfl, rfl, ?_⟩, ?_, ?_⟩,
    fun h => ?_⟩
  · rw [← ofNat_toNat_low]; rfl
  · rw [tdp_range]; omega
  · intro ho
    refine ⟨_, answers_onCore h0 h1 h2 rfl, ?_⟩
    dsimp only
    rw [if_neg (by simp [ho]), setPeak_open ho, ofNat_low v 12 (by decide)]
  · intro hl
    refine ⟨_, lockedWrite 4 s, answers_onCore h0 h1 h2 rfl, ?_, ?_⟩
    · dsimp only
      split
      next h => exact lockedWrite_halted 4 h
      next h => exact lockedWrite_signals 4 h
    · dsimp only
      rw [if_pos hl, setPeak_locked hl]
      rfl
  · simp only [List.forall_mem_cons]
    exact ⟨⟨_, answers_onCore_nack h rfl, rfl⟩, ⟨_, answers_onCore_nack h rfl, rfl⟩, nofun⟩

/-- Settles O59: the stores of the reset state are empty. -/
theorem resetMemoriesAreCanonical : Obligations.ResetMemoriesAreCanonical :=
  ⟨rfl, rfl, rfl⟩

end Sys2Proof.Machine
end

section
/-! ## O21: what PERST# leaves -/
namespace Sys2Proof.Machine

/-- What PERST# leaves of the state besides memories, outputs and free values. -/
def keptAtReset (s : State) :=
  (s.pending, s.pwr.slowSrc, s.prov.pendingChunk, s.dev.fuses, s.dev.flash, s.dev.compatOrd, s.dev.head, s.dev.bootSrc,
    s.dev.torn)

/-! ### Reads and writes of memory do not touch it -/

section
variable (s : State)

theorem keptAtReset_foldl {β : Type} {f : State → β → State} (h : ∀ s x, keptAtReset (f s x) = keptAtReset s)
    (xs : List β) : keptAtReset (xs.foldl f s) = keptAtReset s :=
  foldl_rel (fun s t => keptAtReset t = keptAtReset s) f (fun _ => rfl) (fun h k => k.trans h) h xs s

@[simp] theorem keptAtReset_raise (e : Nat) : keptAtReset (raise e s) = keptAtReset s := by
  rw [(raise_signals e s).rest]
  rfl

@[simp] theorem keptAtReset_markImageWord (w : Nat) : keptAtReset (markImageWord w s) = keptAtReset s := by
  unfold markImageWord
  dsimp only
  split
  · split <;> rfl
  · rfl

@[simp] theorem keptAtReset_meetCisWord (w : Nat) : keptAtReset (meetCisWord w s) = keptAtReset s := by
  unfold meetCisWord
  dsimp only
  split
  · exact keptAtReset_markImageWord _ w
  · split
    · exact keptAtReset_markImageWord _ w
    · split
      · exact keptAtReset_raise _ _
      · rfl

@[simp] theorem keptAtReset_meetWellGranule (w : Nat) : keptAtReset (meetWellGranule w s) = keptAtReset s := by
  unfold meetWellGranule
  dsimp only
  split
  · rfl
  · split
    · exact keptAtReset_raise _ _
    · rfl

@[simp] theorem keptAtReset_meetCis (a n : Nat) : keptAtReset (meetCis a n s) = keptAtReset s :=
  keptAtReset_foldl s (fun s w => keptAtReset_meetCisWord s w) _

@[simp] theorem keptAtReset_meetWell (a n : Nat) : keptAtReset (meetWell a n s) = keptAtReset s :=
  keptAtReset_foldl s (fun s w => keptAtReset_meetWellGranule s w) _

@[simp] theorem keptAtReset_touchWell (d : Nat) : keptAtReset (touchWell d s) = keptAtReset s := by
  unfold touchWell
  split <;> rfl

@[simp] theorem keptAtReset_countInbound (own : Option Nat) (a n : Nat) :
    keptAtReset (countInbound own a n s) = keptAtReset s :=
  keptAtReset_foldl s (fun s p => by split <;> rfl) _

@[simp] theorem keptAtReset_inboundBad (a n : Nat) : keptAtReset (inboundBad a n s) = keptAtReset s :=
  keptAtReset_foldl s (fun s p => by rfl) _

@[simp] theorem keptAtReset_wellWrite (a : Nat) (bs : List Byte) : keptAtReset (wellWrite a bs s) = keptAtReset s :=
  keptAtReset_foldl s (fun s p => by unfold wellWritePiece; split <;> rfl) _

theorem keptAtReset_readAt (ad : Addr) (n : Nat) : keptAtReset (readAt ad n s).2 = keptAtReset s := by
  unfold readAt readFrom
  cases ad with
  | host a => rfl
  | well a => simp
  | cis a =>
    dsimp only
    split
    · split
      · exact (keptAtReset_countInbound _ _ _ _).trans (keptAtReset_meetCis s a n)
      · simp
    · simp

/-! ### Nor does a transfer that stops -/

theorem keptAtReset_partialWrite (ad : Addr) (bs : List Byte) : keptAtReset (partialWrite ad bs s) = keptAtReset s := by
  unfold partialWrite
  cases ad with
  | host a => rfl
  | well a => exact keptAtReset_wellWrite _ _ _
  | cis a =>
    dsimp only
    split <;> rfl

theorem keptAtReset_stopScrub (c : Cmd) : keptAtReset (stopScrub c s) = keptAtReset s := by
  have targets := keptAtReset_foldl s (f := fun s t => partialWrite t.1 (List.replicate t.2 0) s)
    (fun s t => keptAtReset_partialWrite s _ _) (scrubTargets s c)
  unfold stopScrub
  dsimp only
  split
  · refine Eq.trans ?_ targets
    exact keptAtReset_foldl _ (fun s g => by split <;> rfl) _
  · exact targets

/-- The state that a COPY which stops has read its source in. -/
theorem keptAtReset_of_readAt {s t : State} {ad : Addr} {n : Nat} {g : Got} (e : readAt ad n s = (g, t)) :
    keptAtReset t = keptAtReset s := by
  simpa [e] using keptAtReset_readAt s ad n

theorem keptAtReset_stopTransfer (c : Cmd) : keptAtReset (stopTransfer c s) = keptAtReset s := by
  unfold stopTransfer
  split
  · rfl
  split
  · split
    · split
      next e => exact (keptAtReset_partialWrite _ _ _).trans (keptAtReset_of_readAt e)
      next e => exact keptAtReset_of_readAt e
    · rfl
  split
  · split
    · exact keptAtReset_partialWrite s _ _
    · rfl
  split
  · exact keptAtReset_stopScrub s c
  split
  · split
    · exact keptAtReset_partialWrite _ _ _
    · rfl
  · rfl

theorem keptAtReset_stopTransfers : keptAtReset (stopTransfers s) = keptAtReset s :=
  keptAtReset_foldl s (fun s c => keptAtReset_stopTransfer s c) _

end

/-- Where no transfer is under way none stops. -/
theorem stopTransfers_of_idle {s : State} (h : ∀ c ∈ s.inflight, c.inPlace = false) : stopTransfers s = s := by
  unfold stopTransfers
  exact List.foldlRecOn s.inflight _ (motive := (· = s)) rfl fun _ e c hc => by rw [e]; simp [stopTransfer, h c hc]

/-- The state after PERST#, from what it leaves. -/
theorem resetPart_eq {r s : State} (h : keptAtReset r = keptAtReset s) : resetPart r = { State.reset with
    pending := s.pending, outputs := r.outputs, freeCtr := r.freeCtr, host := r.host, hostPoison := r.hostPoison
    wellMem := r.wellMem, wellPoison := r.wellPoison
    upsets := { wellSingle := r.upsets.wellSingle, wellDouble := r.upsets.wellDouble }
    pwr := { State.reset.pwr with slowSrc := s.pwr.slowSrc }
    dev := { State.reset.dev with
      fuses := s.dev.fuses, flash := s.dev.flash, compatOrd := s.dev.compatOrd, head := s.dev.head
      bootSrc := s.dev.bootSrc, torn := s.prov.pendingChunk.or s.dev.torn } } := by
  simp only [keptAtReset, Prod.mk.injEq] at h
  obtain ⟨pending, slowSrc, chunk, fuses, flash, compatOrd, head, bootSrc, torn⟩ := h
  rw [← pending, ← slowSrc, ← chunk, ← fuses, ← flash, ← compatOrd, ← head, ← bootSrc, ← torn, Option.or_eq_orElse]
  rfl

/-- Settles O21: the transfers under way stop, which touches none of what PERST# leaves, and the rest is reset. -/
theorem perstResetsTheMachine : Obligations.PerstResetsTheMachine := by
  unfold Obligations.PerstResetsTheMachine
  intro s ns
  refine ⟨fun h => ?_, fun h hm => ?_, fun env h => ?_, fun env h0 h1 => ?_⟩
  · show Host.Outcome.next (assertPerst ns s) = _
    rcases h with h | h <;> simp [assertPerst, h]
  · have kept := keptAtReset_stopTransfers s
    have hp : (stopTransfers s).pending = s.pending := congrArg Prod.fst kept
    refine ⟨(resetPart (stopTransfers s)).modDev fun d => { d with strapsOpen := ns < 100000 }, stopTransfers s, ?_,
      stopTransfers_of_idle, hp, ?_, rfl, rfl⟩
    · show Host.Outcome.next (assertPerst ns s) = _
      simp [assertPerst, hm, show ¬ns < 1000 by omega]
    · rw [resetPart_eq kept]
      rfl
  · show Host.Outcome.next _ = _
    rcases h with h | h <;> simp [answers, h]
  · refine ⟨_, _, rfl, rfl, ?_⟩
    show Host.Outcome.next _ = _
    simp [answers, h0, h1]

end Sys2Proof.Machine
end

section
/-! ## What an event, a recovery and a wake leave -/
namespace Sys2Proof.Machine

/-! ### Events and recoveries -/

theorem up_of_serving {s : State} (h : s.dev.mode = .serving) : s.up = true := by simp [State.up, h]

/-- The mask with bit d alone. -/
theorem getLsbD_bit {w d e : Nat} (he : e < w) : (BitVec.ofNat w (2 ^ d)).getLsbD e = decide (d = e) := by
  rw [BitVec.getLsbD_ofNat, Nat.testBit_two_pow, decide_eq_true he, Bool.true_and]

theorem raise_rest (e : Nat) (s : State) : ∃ pm ou, raise e s = { s with
    dev := { s.dev with events := s.dev.events ||| BitVec.ofNat 14 (2 ^ e), pendingMsix := pm }, outputs := ou } := by
  have signals := raise_signals e s
  refine ⟨(raise e s).dev.pendingMsix, (raise e s).outputs, ?_⟩
  rw [← signals.bit]
  exact signals.rest

theorem getLsbD_raised {e : Nat} (he : e < 14) (b : BitVec 14) : (b ||| BitVec.ofNat 14 (2 ^ e)).getLsbD e = true := by
  rw [BitVec.getLsbD_or, getLsbD_bit he, decide_eq_true rfl, Bool.or_true]

theorem pushMark_pushOnly (q : Nat) (s : State) : PushOnly s (pushMark q s) := by
  unfold pushMark
  split
  · exact .refl s
  · split
    · exact .refl s
    · exact pushRecord_pushOnly ..

/-- No queue holds a record or a command of no context. -/
theorem affectedQueues_nil (s : State) : affectedQueues [] s = [] := by
  simp only [affectedQueues, List.map_eq_nil_iff, List.filter_eq_nil_iff, Bool.or_eq_true, List.any_eq_true, not_or]
  refine fun e _ => ⟨?_, by simp⟩
  rintro ⟨c, -, h⟩
  cases c <;> simp at h

/-- A recovery that affects no context is counted and raises its event, and marks no queue. -/
theorem recovery_nil (s : State) :
    recovery [] s = raise evRecovery (s.modDev fun d => { d with recoveries := min (d.recoveries + 1) (2 ^ 32 - 1) }) := by
  simp [recovery, affectedQueues_nil]

theorem recovery_nil_rest (s : State) : ∃ dv ou, recovery [] s = { s with dev := dv, outputs := ou } := by
  obtain ⟨pm, ou, h⟩ := raise_rest evRecovery
    (s.modDev fun d => { d with recoveries := min (d.recoveries + 1) (2 ^ 32 - 1) })
  rw [recovery_nil, h]
  exact ⟨_, _, rfl⟩

/-- What a recovery leaves, besides the queues and host memory, which take its marks. -/
theorem recovery_rest (cs : List Nat) (s : State) : ∃ ho hp qs pm ou cmds,
    recovery cs s = { s with
      host := ho, hostPoison := hp, queues := qs, outputs := ou, inflight := cmds
      dev := { s.dev with
        recoveries := min (s.dev.recoveries + 1) (2 ^ 32 - 1)
        events := s.dev.events ||| BitVec.ofNat 14 (2 ^ evRecovery), pendingMsix := pm } } ∧
    cmds.map (fun c => c.uid) = s.inflight.map (fun c => c.uid) := by
  unfold recovery
  extract_lets s1 s2 qs s3
  have push : PushOnly s2 s3 := foldl_rel PushOnly _ .refl .trans (fun s q => pushMark_pushOnly q s) qs s2
  obtain ⟨_, _, h2⟩ := raise_rest evRecovery s1
  obtain ⟨ho, hp, qs, pm, ou, h3⟩ := push.rest
  rw [show s2 = _ from h2] at h3
  rw [h3]
  refine ⟨ho, hp, qs, pm, ou, _, rfl, ?_⟩
  rw [List.map_map]
  refine List.map_congr_left fun c _ => ?_
  simp only [Function.comp]
  split <;> rfl

/-! ### Domains -/

@[simp] theorem dom_modDom_self (n : Nat) (f : Dom → Dom) (s : State) : (s.modDom n f).dom n = f (s.dom n) := by
  simp [State.dom, State.modDom, tget, tget?_tupd]

theorem dom_modDom_ne {n m : Nat} (h : m ≠ n) (f : Dom → Dom) (s : State) : (s.modDom n f).dom m = s.dom m := by
  simp [State.dom, State.modDom, tget, tget?_tupd, h]

/-- A domain's standing charge changes in the ledgers of the rails alone. -/
theorem setStanding_rest (n st : Nat) (s : State) :
    ∃ ra, setStanding n st s = { s with pwr := { s.pwr with rails := ra } } := by
  unfold setStanding
  dsimp only
  split <;> exact ⟨_, rfl⟩

@[simp] theorem setStanding_dom (n st m : Nat) (s : State) : (setStanding n st s).dom m = s.dom m := by
  obtain ⟨_, h⟩ := setStanding_rest n st s
  rw [h]
  rfl

@[simp] theorem requestStanding_dom (n st cls m : Nat) (s : State) : (requestStanding n st cls s).dom m = s.dom m := rfl

/-- A wake moves the domain's state and charges alone, and leaves it flowing or waking. -/
theorem beginWake_rest (n cls : Nat) (s : State) :
    (∃ ra ds, beginWake n cls s = { s with pwr := { s.pwr with rails := ra, doms := ds } }) ∧
    (((beginWake n cls s).dom n).state = 0 ∨ ((beginWake n cls s).dom n).waking ≠ 0) := by
  unfold beginWake
  dsimp only
  split
  next h => exact ⟨⟨_, _, rfl⟩, by simpa using h⟩
  split
  · split
    · obtain ⟨_, h⟩ := setStanding_rest n 0 (s.modDom n fun d => { d with state := 0 })
      exact ⟨⟨_, _, h⟩, .inl (by simp)⟩
    · exact ⟨⟨_, _, rfl⟩, .inr (by simp)⟩
  · split <;> exact ⟨⟨_, _, rfl⟩, .inr (by simp)⟩

end Sys2Proof.Machine
end

section
/-! ## O28: links that retrain -/
namespace Sys2Proof.Machine

/-! ### Internal links -/

/-- Contexts that a retrain of a link affects. -/
def linkContexts (cs : List Cmd) : List Nat := ((cs.filter (fun c => !isDevice c.opcode)).map (fun c => c.ctx)).eraseDups

/-- The state in which a link has begun to retrain, before the commands on it run again. -/
def retraining (l : LinkRef) (s : State) : State :=
  recovery (linkContexts (s.inflight.filter (onLink s l)))
    (raise evCorrected (s.modDev fun v => { v with links := tset v.links (linkKey l) 0 }))

theorem answers_retrain {s : State} {l : LinkRef} (h : s.up = true) (hl : linkIn s l = true)
    (hk : tget? s.dev.links (linkKey l) = none) : Answers (.internalLinkRetrain l) s
      ((s.inflight.filter (onLink s l)).foldl (fun s c => runAgain c.uid s) (retraining l s)) := by
  show Host.Outcome.next _ = _
  simp [h, hl, thas, hk, retraining, linkContexts]

theorem answers_retrain_stays {s : State} {l : LinkRef} (h : linkIn s l = false ∨ thas s.dev.links (linkKey l) = true) :
    Answers (.internalLinkRetrain l) s s := by
  show Host.Outcome.next _ = _
  rcases h with h | h <;> simp [h]

theorem answers_replay {s : State} (l : LinkRef) (h : s.up = true) :
    Answers (.internalLinkReplay l) s (if linkIn s l then raise evCorrected s else s) := by
  show Host.Outcome.next _ = _
  simp [h]

/-- A link that begins to retrain: what is new, and what stays besides the queues and host memory. -/
theorem retraining_rest (l : LinkRef) (s : State) :
    let r := retraining l s
    tget? r.dev.links (linkKey l) = some 0 ∧ r.dev.events.getLsbD evCorrected = true ∧
    r.dev.events.getLsbD evRecovery = true ∧ r.dev.recoveries = min (s.dev.recoveries + 1) (2 ^ 32 - 1) ∧
    r.ctxs = s.ctxs ∧ r.wellMem = s.wellMem ∧ r.cis = s.cis ∧ r.cores = s.cores ∧
    r.inflight.map (fun c => c.uid) = s.inflight.map (fun c => c.uid) := by
  unfold retraining
  obtain ⟨_, _, _, _, _, _, marked, uids⟩ := recovery_rest _ _
  obtain ⟨_, _, raised⟩ := raise_rest evCorrected _
  rw [marked, raised]
  rw [raised] at uids
  refine ⟨tget?_tset_self .., ?_, getLsbD_raised (by decide) _, rfl, rfl, rfl, rfl, rfl, uids⟩
  rw [BitVec.getLsbD_or, getLsbD_raised (by decide), Bool.true_or]

/-- With no transaction outstanding on the link, no queue is marked and no command flagged. -/
theorem retraining_idle {l : LinkRef} {s : State} (h : s.inflight.filter (onLink s l) = []) :
    ∃ dv ou, retraining l s = { s with dev := dv, outputs := ou } := by
  obtain ⟨_, _, marked⟩ := recovery_nil_rest _
  obtain ⟨_, _, raised⟩ := raise_rest evCorrected _
  rw [retraining, h, show linkContexts [] = [] from rfl, marked, raised]
  exact ⟨_, _, rfl⟩

theorem answers_retrainDone_idle {s : State} {l : LinkRef} (h : tget? s.dev.links (linkKey l) = none) (ok : Bool) :
    Answers (.internalLinkRetrainDone l ok) s s := by
  show Host.Outcome.next _ = _
  rw [h]

theorem answers_retrainDone {s : State} {l : LinkRef} {n : Nat} (hu : s.up = true)
    (h : tget? s.dev.links (linkKey l) = some n) (ok : Bool) : Answers (.internalLinkRetrainDone l ok) s
      (if ok then s.modDev (fun v => { v with links := tdel v.links (linkKey l) })
      else if n + 1 < 3 then s.modDev (fun v => { v with links := tset v.links (linkKey l) (n + 1) })
      else quarantine (farDie l) (s.modDev (fun v => { v with links := tdel v.links (linkKey l) }))) := by
  show Host.Outcome.next _ = _
  rw [h]
  simp [hu]

/-! ### The CXL link -/

theorem answers_cxlLinkL1_same (s : State) : Answers (.cxlLinkL1 s.pwr.linkL1) s s := by
  show Host.Outcome.next _ = _
  simp

theorem answers_cxlLinkL1 {s : State} {enter : Bool} (h : s.up = true) (he : s.pwr.linkL1 ≠ enter) :
    Answers (.cxlLinkL1 enter) s
      (if enter then setStanding 41 2 ((s.modPwr fun p => { p with linkL1 := enter }).modDom 41 fun d =>
        { d with state := 2, waking := 0 })
      else beginWake 41 2 (s.modPwr fun p => { p with linkL1 := enter })) := by
  show Host.Outcome.next _ = _
  simp [h, he]

/-! ### The obligation -/

/-- Settles O28, by the cases of R388 for an internal link and of R322 for the CXL link. -/
theorem internalLinksRetrainThenGiveUp : Obligations.InternalLinksRetrainThenGiveUp := by
  unfold Obligations.InternalLinksRetrainThenGiveUp
  refine ⟨fun s l hs => ?_, fun s => ⟨rfl, answers_cxlLinkL1_same s, fun hs h0 => ?_, fun hs h1 => ?_⟩⟩
  · have up := up_of_serving hs
    refine ⟨fun hl => ?_, fun hl => ⟨?_, answers_retrain_stays (.inl hl)⟩,
      fun n hn => answers_retrain_stays (.inr (by simp [thas, hn])), fun hl hn => ?_,
      fun hn ok => answers_retrainDone_idle hn ok, fun n hn => ⟨?_, fun h3 => ?_, fun h3 => ?_⟩⟩
    · have replay := answers_replay l up
      rw [if_pos hl] at replay
      exact ⟨_, replay, raise_signals ..⟩
    · simpa [hl] using answers_replay l up
    · obtain ⟨links, corrected, recovered, count, ctxs, wellMem, cis, cores, uids⟩ := retraining_rest l s
      refine ⟨retraining l s, _, answers_retrain up hl hn, links, corrected, recovered, count, ctxs, wellMem, cis, cores,
        uids, fun idle => ?_, rfl⟩
      obtain ⟨_, _, h⟩ := retraining_idle idle
      rw [h]
    · exact ⟨_, answers_retrainDone up hn true, rfl⟩
    · have done := answers_retrainDone up hn false
      rw [if_neg Bool.false_ne_true, if_pos h3] at done
      exact ⟨_, done, rfl⟩
    · have done := answers_retrainDone up hn false
      rw [if_neg Bool.false_ne_true, if_neg (by omega)] at done
      exact ⟨_, done, rfl⟩
  · have enter := answers_cxlLinkL1 (enter := true) (up_of_serving hs) (by simp [h0])
    rw [if_pos rfl] at enter
    refine ⟨_, enter, ?_⟩
    obtain ⟨ra, h⟩ := setStanding_rest 41 2 ((s.modPwr fun p => { p with linkL1 := true }).modDom 41 fun d =>
      { d with state := 2, waking := 0 })
    exact ⟨by rw [h]; rfl, by rw [h]; rfl, by simp⟩
  · have leave := answers_cxlLinkL1 (enter := false) (up_of_serving hs) (by simp [h1])
    rw [if_neg Bool.false_ne_true] at leave
    obtain ⟨⟨ra, ds, h⟩, woken⟩ := beginWake_rest 41 2 (s.modPwr fun p => { p with linkL1 := false })
    exact ⟨_, leave, by rw [h]; rfl, by rw [h]; rfl, woken⟩

end Sys2Proof.Machine
end

section
/-! ## O26: dies that leave service -/
namespace Sys2Proof.Machine

/-! ### Dies in a mask -/

theorem getLsbD_foldl_dieBit {e : Nat} (he : e < 8) (ds : List Nat) (b : Byte) :
    (ds.foldl (fun b d => b ||| BitVec.ofNat 8 (2 ^ d)) b).getLsbD e = (b.getLsbD e || decide (e ∈ ds)) := by
  induction ds generalizing b with
  | nil => simp
  | cons d ds ih => rw [List.foldl_cons, ih, BitVec.getLsbD_or, getLsbD_bit he]; simp [Bool.or_assoc, eq_comm]

theorem getLsbD_dieMask {e : Nat} (he : e < 8) (ds : List Nat) : (dieMask ds).getLsbD e = decide (e ∈ ds) := by
  rw [dieMask, getLsbD_foldl_dieBit he]
  simp

theorem mem_dieList {b : Byte} {e : Nat} : e ∈ dieList b ↔ e < 8 ∧ b.getLsbD e = true := by simp [dieList]

theorem getLsbD_of_mem_arcs {b : Byte} {a : List Nat} (ha : a ∈ arcs b) {e : Nat} (he : e ∈ a) : b.getLsbD e = true := by
  obtain ⟨x, -, rfl⟩ := List.mem_map.mp ha
  exact List.mem_takeWhile_imp he

/-- The arc that is kept is one of the arcs, or there is none and every die stays. -/
theorem keptArc_mem (b : Byte) : keptArc b = dieList b ∨ keptArc b ∈ arcs b := by
  unfold keptArc
  split
  · exact .inl rfl
  next a as h =>
    refine .inr ?_
    rw [h]
    refine List.foldlRecOn as _ (motive := (· ∈ a :: as)) List.mem_cons_self fun best hb x hx => ?_
    split
    · exact List.mem_cons_of_mem a hx
    · exact hb

theorem getLsbD_of_mem_keptArc {b : Byte} {e : Nat} (he : e ∈ keptArc b) : b.getLsbD e = true := by
  rcases keptArc_mem b with h | h
  · exact (mem_dieList.mp (h ▸ he)).2
  · exact getLsbD_of_mem_arcs h he

/-- A die in service after a quarantine was in service before it, and is not the quarantined one (R391). -/
theorem of_diesAfter {b : Byte} {d e : Nat} (he : e < 8) (h : (diesAfter b d).getLsbD e = true) :
    b.getLsbD e = true ∧ e ≠ d := by
  rw [diesAfter, getLsbD_dieMask he, decide_eq_true_eq] at h
  have := getLsbD_of_mem_keptArc h
  rw [BitVec.getLsbD_and, BitVec.getLsbD_not, getLsbD_bit he] at this
  simp only [he, decide_true, Bool.true_and, Bool.and_eq_true, Bool.not_eq_true', decide_eq_false_iff_not] at this
  exact ⟨this.1, fun h => this.2 h.symm⟩

theorem lt_of_dieIn {s : State} {d : Nat} (h : s.dieIn d = true) : d < 8 := by
  simp only [State.dieIn, Bool.and_eq_true, decide_eq_true_eq] at h
  exact h.1

theorem lt_of_mem_leaving {s : State} {d e : Nat} (hd : s.dieIn d = true) (h : e ∈ Leaving s d) : e < 8 := by
  rcases List.mem_cons.mp h with rfl | h
  · exact lt_of_dieIn hd
  · exact (mem_dieList.mp (List.mem_filter.mp h).1).1

theorem diesAfter_of_mem_leaving {s : State} {d e : Nat} (hd : s.dieIn d = true) (h : e ∈ Leaving s d) :
    (diesAfter s.dev.dies d).getLsbD e = false := by
  have he := lt_of_mem_leaving hd h
  rcases List.mem_cons.mp h with rfl | h
  · exact Bool.eq_false_iff.mpr fun h => (of_diesAfter he h).2 rfl
  · have := (List.mem_filter.mp h).2
    simp_all

/-! ### What fencing a die off moves -/

theorem mget_filter (m : Mem) (p : Nat → Bool) (a : Nat) :
    mget (m.filter fun e => p e.1) a = if p a then mget m a else 0 := by
  induction m with
  | nil => simp [mget]
  | cons e m ih =>
    obtain ⟨i, b⟩ := e
    by_cases hi : p i <;> by_cases hj : i = a <;> simp_all [mget]

theorem mget_loseDie (m : Mem) (d a : Nat) : mget (m.filter fun e => dieOfCore (csCore e.1) != d) a =
    if dieOfCore (csCore a) = d then 0 else mget m a := by
  rw [mget_filter m fun i => dieOfCore (csCore i) != d]
  simp

theorem foldl_modDom_dom {f : Dom → Dom} (hf : ∀ d, f (f d) = f d) (ns : List Nat) (s : State) (n : Nat) :
    (ns.foldl (fun s n => s.modDom n f) s).dom n = if n ∈ ns then f (s.dom n) else s.dom n := by
  induction ns generalizing s with
  | nil => rfl
  | cons k ns ih =>
    rw [List.foldl_cons, ih]
    by_cases hk : n = k
    · subst hk
      simp [hf]
    · simp [dom_modDom_ne hk, hk]

theorem openSwitches_dom (ns : List Nat) (s : State) (n : Nat) :
    (openSwitches ns s).dom n = if n ∈ ns then { s.dom n with state := 4, waking := 0 } else s.dom n :=
  foldl_modDom_dom (f := fun d => { d with state := 4, waking := 0 }) (fun _ => rfl) ns (dropCharges _ s) n

theorem openSwitches_rest (ns : List Nat) (s : State) : ∃ p, openSwitches ns s = { s with pwr := p } := by
  have doms (s : State) : ∃ p, ns.foldl (fun s n => s.modDom n fun d => { d with state := 4, waking := 0 }) s =
      { s with pwr := p } :=
    foldl_rel (fun s t : State => ∃ p, t = { s with pwr := p }) _ (fun _ => ⟨_, rfl⟩)
      (fun ⟨_, h⟩ ⟨p, k⟩ => ⟨p, by rw [k, h]⟩) (fun _ _ => ⟨_, rfl⟩) ns s
  unfold openSwitches
  dsimp only
  obtain ⟨_, h⟩ := doms (dropCharges _ s)
  rw [h]
  exact ⟨_, rfl⟩

theorem foldl_cores_rest {f : State → Nat → State} (hf : ∀ s g, ∃ co, f s g = { s with cores := co }) (gs : List Nat)
    (s : State) : ∃ co, gs.foldl f s = { s with cores := co } :=
  foldl_rel (fun s t : State => ∃ co, t = { s with cores := co }) f (fun _ => ⟨_, rfl⟩)
    (fun ⟨_, h⟩ ⟨co, k⟩ => ⟨co, by rw [k, h]⟩) hf gs s

theorem loseDie_rest (d : Nat) (s : State) : ∃ si ac fl st bi im co, loseDie d s = { s with
    siphon := si, acc := ac, floats := fl, streams := st, bindings := bi, images := im, cores := co
    cis := s.cis.filter fun e => dieOfCore (csCore e.1) != d } := by
  unfold loseDie
  extract_lets lost s1 gs
  exact (foldl_cores_rest (fun s g => by split <;> exact ⟨_, rfl⟩) gs s1).elim fun co h => ⟨_, _, _, _, _, _, co, h⟩

/-- What fencing a die off moves (R389): its well, its domains, its cistern bytes and the record that it is lost. The
queues, commands, contexts and other memories stay. -/
theorem fenceDie_rest (d : Nat) (s : State) : ∃ si ac fl st bi im co hd pw li,
    fenceDie d s = { s with
      siphon := si, acc := ac, floats := fl, streams := st, bindings := bi, images := im, cores := co, hdm := hd, pwr := pw
      cis := s.cis.filter fun e => dieOfCore (csCore e.1) != d
      wells := tupd s.wells d {} fun w => { w with state := 2 }
      dev := { s.dev with lost := s.dev.lost ||| BitVec.ofNat 8 (2 ^ d), links := li } } ∧
    ∀ n, tget pw.doms n {} = if n ∈ domainsOf d then { s.dom n with state := 4, waking := 0 } else s.dom n := by
  obtain ⟨_, _, _, _, _, _, _, lose⟩ := loseDie_rest d s
  obtain ⟨p, opened⟩ := openSwitches_rest (domainsOf d) (parkDie d (loseDie d s))
  have dom := openSwitches_dom (domainsOf d) (parkDie d (loseDie d s))
  unfold fenceDie
  dsimp only
  rw [opened] at dom ⊢
  rw [lose] at dom ⊢
  exact ⟨_, _, _, _, _, _, _, _, _, _, rfl, dom⟩

/-- What a die that leaves does not touch. -/
def keptByFence (s : State) :=
  (s.dev.dies, s.dev.events, s.dev.recoveries, s.ctxs, s.inflight, s.queues, s.host, s.wellMem, s.valves)

theorem keptByFence_fenceDie (d : Nat) (s : State) : keptByFence (fenceDie d s) = keptByFence s := by
  obtain ⟨_, _, _, _, _, _, _, _, _, _, h, -⟩ := fenceDie_rest d s
  rw [h]
  rfl

/-- Die e is out: its well quarantined, its domains dry, its cistern bytes gone (R389). -/
structure FencedOff (e : Nat) (s : State) : Prop where
  well : (s.well e).state = 2
  dom : ∀ n ∈ domainsOf e, (s.dom n).state = 4
  cis : ∀ a, dieOfCore (csCore a) = e → mget s.cis a = 0
  lost : s.dev.lost.getLsbD e = true

theorem fencedOff_fenceDie {e : Nat} (he : e < 8) (s : State) : FencedOff e (fenceDie e s) := by
  obtain ⟨_, _, _, _, _, _, _, _, _, _, h, dom⟩ := fenceDie_rest e s
  rw [h]
  refine ⟨by simp [State.well, tget, tget?_tupd], fun n hn => ?_, fun a ha => ?_, ?_⟩
  · exact congrArg Dom.state ((dom n).trans (if_pos hn))
  · exact (mget_loseDie s.cis e a).trans (if_pos ha)
  · show BitVec.getLsbD (_ ||| _) e = true
    rw [BitVec.getLsbD_or, getLsbD_bit he, decide_eq_true rfl, Bool.or_true]

/-- A die that is out stays out when another follows. -/
theorem FencedOff.fenceDie {e : Nat} {s : State} (h : FencedOff e s) (d : Nat) : FencedOff e (fenceDie d s) := by
  obtain ⟨_, _, _, _, _, _, _, _, _, _, hs, dom⟩ := fenceDie_rest d s
  rw [hs]
  refine ⟨?_, fun n hn => ?_, fun a ha => ?_, ?_⟩
  · simp only [State.well, tget, tget?_tupd]
    split
    · rfl
    · exact h.well
  · refine (congrArg Dom.state (dom n)).trans ?_
    split
    · rfl
    · exact h.dom n hn
  · refine (mget_loseDie s.cis d a).trans ?_
    split
    · rfl
    · exact h.cis a ha
  · show BitVec.getLsbD (_ ||| _) e = true
    rw [BitVec.getLsbD_or, h.lost, Bool.true_or]

theorem FencedOff.foldl {e : Nat} {s : State} (h : FencedOff e s) (ds : List Nat) :
    FencedOff e (ds.foldl (fun s d => Machine.fenceDie d s) s) := by
  induction ds generalizing s with
  | nil => exact h
  | cons d ds ih =>
    rw [List.foldl_cons]
    exact ih (h.fenceDie d)

theorem fencedOff_foldl {e : Nat} (he : e < 8) {ds : List Nat} (hm : e ∈ ds) (s : State) :
    FencedOff e (ds.foldl (fun s d => fenceDie d s) s) := by
  induction ds generalizing s with
  | nil => cases hm
  | cons d ds ih =>
    rw [List.foldl_cons]
    rcases List.mem_cons.mp hm with rfl | hm
    · exact (fencedOff_fenceDie he s).foldl ds
    · exact ih hm _

/-! ### The state in which the dies have left -/

/-- Contexts that a quarantine tears down. -/
def tornBy (s : State) (d : Nat) : List Nat := contextsWhere s fun c => (Leaving s d).any fun e => stateOnDie s e c

/-- Contexts of the commands that run again. -/
def rerunContexts (s : State) (again : List Nat) : List Nat :=
  ((s.inflight.filter fun c => again.contains c.uid && !isDevice c.opcode).map fun c => c.ctx).eraseDups

/-- The state in which the dies are out of DIES and their loss is counted and raised, before they are fenced off. -/
def lossRaised (d : Nat) (s : State) : State :=
  raise evDieLost (recovery (tornBy s d ++ rerunContexts s (RunAgain s d (tornBy s d)))
    (s.modDev fun v => { v with dies := diesAfter v.dies d }))

/-- The state in which die d and the dies that leave with it are out, before any context is torn down and any command
runs again. -/
def afterFence (d : Nat) (s : State) : State := (Leaving s d).foldl (fun s e => fenceDie e s) (lossRaised d s)

theorem quarantine_out {s : State} {d : Nat} (hd : s.dieIn d = false) : quarantine d s = s := by simp [quarantine, hd]

theorem quarantine_eq {s : State} {d : Nat} (hu : s.up = true) (hd : s.dieIn d = true) :
    quarantine d s = calSettle ((RunAgain s d (tornBy s d)).foldl (fun s u => runAgain u s)
      (((tornBy s d).map fun k => (k, ((Leaving s d).find? fun e => stateOnDie s e k).getD d)).foldl
        (fun s p => teardown p.1 stDieLost p.2 s) (settleHeld (tornBy s d) (afterFence d s)))) := by
  rw [quarantine, if_neg (by simp [hu, hd])]
  rfl

theorem calSettle_settleHeld_rest (cs : List Nat) (s : State) :
    ∃ la pw, calSettle (settleHeld cs s) = { s with lat := la, pwr := pw } := ⟨_, _, rfl⟩

/-- With no context to tear down and no command to run again, only groups and the calibration are settled. -/
theorem quarantine_idle {s : State} {d : Nat} (hu : s.up = true) (hd : s.dieIn d = true) (ht : tornBy s d = [])
    (ha : RunAgain s d (tornBy s d) = []) : ∃ la pw, quarantine d s = { afterFence d s with lat := la, pwr := pw } := by
  rw [quarantine_eq hu hd, ha, ht, List.map_nil, List.foldl_nil, List.foldl_nil]
  exact calSettle_settleHeld_rest [] _

theorem answers_quarantine {c : Instr} {d : Nat} (hc : c ∈ [Instr.dieQuarantine d, .vddCLow d]) (s : State) :
    Answers c s (quarantine d s) := by
  simp only [List.mem_cons, List.not_mem_nil, or_false] at hc
  rcases hc with rfl | rfl <;> rfl

theorem lossRaised_rest (d : Nat) (s : State) : ∃ ho hp qs pm ou cmds,
    lossRaised d s = { s with
      host := ho, hostPoison := hp, queues := qs, outputs := ou, inflight := cmds
      dev := { s.dev with
        dies := diesAfter s.dev.dies d, recoveries := min (s.dev.recoveries + 1) (2 ^ 32 - 1)
        events := s.dev.events ||| BitVec.ofNat 14 (2 ^ evRecovery) ||| BitVec.ofNat 14 (2 ^ evDieLost)
        pendingMsix := pm } } ∧
    cmds.map (fun c => c.uid) = s.inflight.map (fun c => c.uid) := by
  unfold lossRaised
  obtain ⟨_, _, raised⟩ := raise_rest evDieLost _
  obtain ⟨_, _, _, _, _, _, marked, uids⟩ := recovery_rest _ _
  rw [raised, marked]
  exact ⟨_, _, _, _, _, _, rfl, uids⟩

theorem lossRaised_idle {d : Nat} {s : State} (ht : tornBy s d = []) (ha : RunAgain s d (tornBy s d) = []) :
    ∃ dv ou, lossRaised d s = { s with dev := dv, outputs := ou } := by
  have noContexts : rerunContexts s [] = [] := by simp [rerunContexts]
  rw [lossRaised, ha, ht, noContexts, List.append_nil]
  obtain ⟨_, _, raised⟩ := raise_rest evDieLost _
  obtain ⟨_, _, marked⟩ := recovery_nil_rest _
  rw [raised, marked]
  exact ⟨_, _, rfl⟩

theorem keptByFence_afterFence (d : Nat) (s : State) : keptByFence (afterFence d s) = keptByFence (lossRaised d s) :=
  foldl_rel (fun s t => keptByFence t = keptByFence s) _ (fun _ => rfl) (fun h k => k.trans h)
    (fun s e => keptByFence_fenceDie e s) _ _

/-- The dies have left as one device recovery that raises DIE_LOST; no context, valve or well byte has moved. -/
theorem afterFence_rest (d : Nat) (s : State) :
    let r := afterFence d s
    r.dev.dies = diesAfter s.dev.dies d ∧ r.dev.events.getLsbD evDieLost = true ∧
    r.dev.recoveries = min (s.dev.recoveries + 1) (2 ^ 32 - 1) ∧ r.ctxs = s.ctxs ∧ r.wellMem = s.wellMem ∧
    r.valves = s.valves ∧ r.inflight.map (fun c => c.uid) = s.inflight.map (fun c => c.uid) := by
  have kept := keptByFence_afterFence d s
  obtain ⟨_, _, _, _, _, _, raised, uids⟩ := lossRaised_rest d s
  rw [raised] at kept
  simp only [keptByFence, Prod.mk.injEq] at kept
  obtain ⟨dies, events, recoveries, ctxs, inflight, -, -, wellMem, valves⟩ := kept
  dsimp only
  rw [dies, events, recoveries, ctxs, inflight, wellMem, valves]
  exact ⟨rfl, getLsbD_raised (by decide) _, rfl, rfl, rfl, rfl, uids⟩

/-- With no context to tear down and no command to run again, no command, queue or host byte has moved either. -/
theorem afterFence_idle {d : Nat} {s : State} (ht : tornBy s d = []) (ha : RunAgain s d (tornBy s d) = []) :
    let r := afterFence d s
    r.inflight = s.inflight ∧ r.queues = s.queues ∧ r.host = s.host := by
  have kept := keptByFence_afterFence d s
  obtain ⟨_, _, raised⟩ := lossRaised_idle ht ha
  rw [raised] at kept
  simp only [keptByFence, Prod.mk.injEq] at kept
  obtain ⟨-, -, -, -, inflight, queues, host, -, -⟩ := kept
  exact ⟨inflight, queues, host⟩

/-- A die that leaves is out, whichever dies leave with it. -/
theorem fencedOff_afterFence {s : State} {d e : Nat} (hd : s.dieIn d = true) (he : e ∈ Leaving s d) :
    FencedOff e (afterFence d s) :=
  fencedOff_foldl (lt_of_mem_leaving hd he) he _

theorem dieIn_afterFence {s : State} {d e : Nat} :
    (afterFence d s).dieIn e = (decide (e < 8) && (diesAfter s.dev.dies d).getLsbD e) := by
  rw [State.dieIn, (afterFence_rest d s).1]

/-! ### The obligation -/

/-- Settles O26: the dies are fenced off one after another within one recovery, which leaves contexts and commands for
the teardowns and re-runs that follow. -/
theorem quarantineTakesTheDieOut : Obligations.QuarantineTakesTheDieOut := by
  unfold Obligations.QuarantineTakesTheDieOut
  intro s d hs c hc
  have answer := answers_quarantine hc s
  have up := up_of_serving hs
  refine ⟨fun hd => by rwa [quarantine_out hd] at answer, fun hd => ?_⟩
  obtain ⟨-, event, recoveries, ctxs, wellMem, valves, uids⟩ := afterFence_rest d s
  refine ⟨afterFence d s, quarantine d s, answer, fun e he => ?_, fun e he => ?_, event, recoveries, ctxs, wellMem, valves,
    uids, quarantine_eq up hd, fun ht ha => ?_⟩
  · obtain ⟨well, dom, cis, lost⟩ := fencedOff_afterFence hd he
    exact ⟨by rw [dieIn_afterFence, diesAfter_of_mem_leaving hd he, Bool.and_false], well, dom, fun a ha _ => cis a ha,
      lost⟩
  · rw [dieIn_afterFence, Bool.and_eq_true, decide_eq_true_eq] at he
    rw [State.dieIn, (of_diesAfter he.1 he.2).1, decide_eq_true he.1, Bool.and_true]
  · obtain ⟨inflight, queues, host⟩ := afterFence_idle ht ha
    obtain ⟨_, _, settled⟩ := quarantine_idle up hd ht ha
    rw [settled]
    exact ⟨rfl, ctxs, inflight, queues, host, rfl, rfl⟩

end Sys2Proof.Machine
end

section
/-! ## O10: the clearing commands -/
namespace Sys2Proof.Machine

section
variable {s : State} (h : s.dev.mode = .serving)
include h

theorem answers_clearAll (core : Option Nat) : Answers (.clearAll core) s (clearCounters core s) := by
  simp [Answers, exec, execClearAll, up_of_serving h]

theorem answers_clientClear (tag : W16) (all : Bool) :
    Answers (.clientClear tag all) s (clearClients tag.toNat all s) := by
  simp [Answers, exec, execClientClear, up_of_serving h]

theorem answers_clearPeak : Answers .clearPeak s (clearPeaks s) := by
  simp [Answers, exec, execClearPeak, up_of_serving h]

end

/-- A core's counters lie under the 16 keys from 16 times its number; those go, the others stay. -/
theorem perf_clearCounters (g k : Nat) (s : State) :
    tget? (clearCounters (some g) s).perf k = if k / 16 = g then none else tget? s.perf k := by
  rw [clearCounters, tget?_filter s.perf (fun i => i / 16 != g)]
  by_cases hk : k / 16 = g <;> simp [hk]

theorem port_clearCounters (p : Nat) (s : State) : (clearCounters none s).port p =
    { s.port p with crcErrors := 0, replays := 0, retrains := 0 } := by
  simp only [clearCounters, State.port, State.modLat_lat, tget, tget?_tmap]
  cases tget? s.lat.ports p <;> rfl

theorem clients_clearClients (tag k : Nat) (all : Bool) (s : State) :
    tget? (clearClients tag all s).clients k = if all ∨ k = tag then none else tget? s.clients k := by
  cases all
  case true => simp [clearClients, tget?]
  case false =>
    by_cases hk : k = tag
    · subst hk; simp [clearClients]
    · simp [clearClients, tget?_tdel_ne _ _ _ hk, hk]

/-- A rail that is not listed holds nothing, and its PEAK is 0. -/
theorem rail_clearPeaks (r : Nat) (s : State) : (clearPeaks s).rail r = { s.rail r with peak := granted (s.rail r) } := by
  simp only [clearPeaks, State.rail, State.modPwr_pwr, tget, tget?_tmap]
  cases tget? s.pwr.rails r <;> rfl

/-- Settles O10: each command clears by one update of its own table. -/
theorem clearingCommandsZeroTheirCounters : Obligations.ClearingCommandsZeroTheirCounters := by
  unfold Obligations.ClearingCommandsZeroTheirCounters
  intro s h
  exact ⟨fun g => ⟨_, answers_clearAll h (some g), rfl, fun k => perf_clearCounters g k s⟩,
    ⟨_, answers_clearAll h none, rfl, fun p => port_clearCounters p s⟩,
    fun tag all => ⟨_, answers_clientClear h tag all, rfl, fun k => clients_clearClients tag.toNat k all s⟩,
    ⟨_, answers_clearPeak h, rfl, fun r => rail_clearPeaks r s⟩⟩

end Sys2Proof.Machine
end

section
/-! ## What an access to memory leaves, and accesses within one line -/
namespace Sys2Proof.Machine

/-! ### Ranges within one line -/

section
variable {a n : Nat}

theorem unitsOf_line (hn : 0 < n) (h : a % 64 + n ≤ 64) : unitsOf 64 a n = [a / 64] := by
  have e : (a + n - 1) / 64 - a / 64 = 0 := by omega
  simp [unitsOf, e, show n ≠ 0 by omega]

theorem linePieces_line (hn : 0 < n) (h : a % 64 + n ≤ 64) : linePieces a n = [(a, n)] := by
  simp only [linePieces, unitsOf_line hn h, List.map_cons, List.map_nil, List.cons.injEq, Prod.mk.injEq, and_true]
  omega

theorem csPieces_line (hn : 0 < n) (h : a % 64 + n ≤ 64) : csPieces a n = [(a, n)] := by
  have first : min n (2 ^ 23 - csOff a) = n := by unfold csOff; omega
  have rest : cdiv (n - n) (2 ^ 23) = 0 := by unfold cdiv; omega
  simp only [csPieces, first, rest, List.range_zero, List.map_nil, beq_iff_eq, show n ≠ 0 by omega, if_false]

theorem pagePieces_line {bs : List Byte} (hn : 0 < bs.length) (h : a % 64 + bs.length ≤ 64) :
    pagePieces a bs = [(a, bs)] := by
  have hb : bs.isEmpty = false := by cases bs <;> simp_all
  have rest : cdiv (bs.length - (65536 - a % 65536)) 65536 = 0 := by unfold cdiv; omega
  have first : bs.take (65536 - a % 65536) = bs := List.take_of_length_le (by omega)
  simp only [pagePieces, hb, rest, first, List.range_zero, List.map_nil, Bool.false_eq_true, if_false]

end

/-! ### What a read and a write leave -/

section
variable (s : State)

theorem touchWell_rest (d : Nat) : ∃ p, touchWell d s = { s with pwr := p } := by
  unfold touchWell
  split <;> exact ⟨_, rfl⟩

theorem countInbound_rest (own : Option Nat) (a n : Nat) : ∃ pf, countInbound own a n s = { s with perf := pf } := by
  refine foldl_rel (fun s t => ∃ pf, t = { s with perf := pf }) _ (fun _ => ⟨_, rfl⟩) ?_ (fun s p => ?_) _ s
  · rintro _ _ _ ⟨_, rfl⟩ ⟨_, rfl⟩
    exact ⟨_, rfl⟩
  · split <;> exact ⟨_, rfl⟩

theorem length_wellRead (a n : Nat) : (wellRead s a n).length = n := by
  unfold wellRead
  split <;> simp

variable {s}

/-- What a read delivers has the length that it asks for. -/
theorem length_of_readFrom {own : Option Nat} {ad : Addr} {n : Nat} {bs : List Byte} {t : State}
    (h : readFrom own ad n s = (.bytes bs, t)) : bs.length = n := by
  unfold readFrom at h
  cases ad with
  | host a =>
    dsimp only at h
    split at h <;> cases h
    simp [hostRead]
  | well a =>
    dsimp only at h
    split at h <;> cases h
    exact length_wellRead _ a n
  | cis a =>
    dsimp only at h
    split at h
    · split at h <;> cases h
      simp
    · cases h

/-- A read of cistern words that are neither upset nor poisoned meets nothing. -/
theorem meetCis_clean {a n : Nat} (hu : ∀ w ∈ unitsOf 32 a n, w ∉ s.upsets.cisSingle ∧ w ∉ s.upsets.cisDouble)
    (hp : cisPoisoned s a n = false) : meetCis a n s = s := by
  have hp' : ∀ w ∈ unitsOf 32 a n, s.cisPoison.contains w = false := by
    simpa [cisPoisoned] using hp
  refine List.foldlRecOn _ _ (motive := (· = s)) rfl fun t e w hw => ?_
  subst e
  obtain ⟨single, double⟩ := hu w hw
  have poison := hp' w hw
  simp_all [meetCisWord]

/-- A read of well granules that are not upset meets nothing. -/
theorem meetWell_clean {a n : Nat} (hu : ∀ w ∈ unitsOf 64 a n, w ∉ s.upsets.wellSingle ∧ w ∉ s.upsets.wellDouble) :
    meetWell a n s = s := by
  refine List.foldlRecOn _ _ (motive := (· = s)) rfl fun t e w hw => ?_
  subst e
  obtain ⟨single, double⟩ := hu w hw
  simp_all [meetWellGranule]

end

theorem mem_withAll_left (xs ys : List Nat) : ∀ x ∈ xs, x ∈ withAll xs ys := by
  refine List.foldlRecOn ys _ (motive := fun l => ∀ x ∈ xs, x ∈ l) (fun _ h => h) fun l h y _ x hx => ?_
  split
  · exact h x hx
  · exact List.mem_append_left _ (h x hx)

/-- The bytes of the cisterns stand, and no word of theirs is less poisoned. -/
def CisKept (s t : State) : Prop := t.cis = s.cis ∧ ∀ w ∈ s.cisPoison, w ∈ t.cisPoison

theorem CisKept.trans {r s t : State} (h : CisKept r s) (k : CisKept s t) : CisKept r t :=
  ⟨k.1.trans h.1, fun w hw => k.2 w (h.2 w hw)⟩

theorem CisKept.markImageWord {r s : State} (h : CisKept r s) (w : Nat) : CisKept r (markImageWord w s) := by
  unfold Machine.markImageWord
  dsimp only
  split <;> (try split) <;> exact h

theorem CisKept.raise {r s : State} (h : CisKept r s) (e : Nat) : CisKept r (raise e s) := by
  obtain ⟨_, _, e⟩ := raise_rest e s
  rw [e]
  exact h

theorem meetCis_cisKept (a n : Nat) (s : State) : CisKept s (meetCis a n s) := by
  refine foldl_rel CisKept _ (fun _ => ⟨rfl, fun _ h => h⟩) CisKept.trans (fun s w => ?_) _ s
  unfold meetCisWord
  dsimp only
  split
  · refine CisKept.markImageWord ?_ w
    exact ⟨rfl, mem_withAll_left s.cisPoison [w]⟩
  split
  · refine CisKept.markImageWord ?_ w
    exact ⟨rfl, fun _ h => h⟩
  split
  · refine CisKept.raise ?_ _
    exact ⟨rfl, fun _ h => h⟩
  · exact ⟨rfl, fun _ h => h⟩

/-- The bytes of the wells stand, no granule is less poisoned, and withdrawn pages stay withdrawn. -/
def WellKept (s t : State) : Prop :=
  t.wellMem = s.wellMem ∧ (∀ w ∈ s.wellPoison, w ∈ t.wellPoison) ∧ ∀ d, (t.well d).withdrawn = (s.well d).withdrawn

theorem WellKept.trans {r s t : State} (h : WellKept r s) (k : WellKept s t) : WellKept r t :=
  ⟨k.1.trans h.1, fun w hw => k.2.1 w (h.2.1 w hw), fun d => (k.2.2 d).trans (h.2.2 d)⟩

theorem WellKept.modWell {r s : State} (h : WellKept r s) (d : Nat) {f : Well → Well}
    (hf : ∀ x, (f x).withdrawn = x.withdrawn) : WellKept r (s.modWell d f) := by
  refine h.trans ⟨rfl, fun _ h => h, fun e => ?_⟩
  simp only [State.modWell, State.well, tget, tget?_tupd]
  split
  next e => subst e; exact hf _
  · rfl

theorem WellKept.raise {r s : State} (h : WellKept r s) (e : Nat) : WellKept r (raise e s) := by
  obtain ⟨_, _, e⟩ := raise_rest e s
  rw [e]
  exact h

theorem meetWell_wellKept (a n : Nat) (s : State) : WellKept s (meetWell a n s) := by
  refine foldl_rel WellKept _ (fun _ => ⟨rfl, fun _ h => h, fun _ => rfl⟩) WellKept.trans (fun s w => ?_) _ s
  unfold meetWellGranule
  dsimp only
  split
  · refine WellKept.modWell ?_ _ fun _ => rfl
    exact ⟨rfl, mem_withAll_left s.wellPoison [w], fun _ => rfl⟩
  split
  · apply WellKept.raise
    apply WellKept.modWell
    · exact ⟨rfl, fun _ h => h, fun _ => rfl⟩
    · intro x
      rfl
  · exact ⟨rfl, fun _ h => h, fun _ => rfl⟩

theorem WellKept.poisoned {s t : State} (h : WellKept s t) {a n : Nat} (hp : wellPoisoned s a n = true) :
    wellPoisoned t a n = true := by
  obtain ⟨-, poison, withdrawn⟩ := h
  simp only [wellPoisoned, withdrawnAt, List.any_eq_true, Bool.or_eq_true, List.contains_iff_mem, withdrawn] at *
  obtain ⟨w, hw, hp⟩ := hp
  exact ⟨w, hw, hp.imp_left (poison w)⟩

theorem CisKept.poisoned {s t : State} (h : CisKept s t) {a n : Nat} (hp : cisPoisoned s a n = true) :
    cisPoisoned t a n = true := by
  simp only [cisPoisoned, List.any_eq_true, List.contains_iff_mem] at *
  obtain ⟨w, hw, hp⟩ := hp
  exact ⟨w, hw, h.2 w hp⟩

/-! ### Reads and writes by address space -/

section
variable {s : State} {a n : Nat}

theorem readAt_cis_clean (ha : csAllowed s a n = true)
    (hu : ∀ w ∈ unitsOf 32 a n, w ∉ s.upsets.cisSingle ∧ w ∉ s.upsets.cisDouble) (hp : cisPoisoned s a n = false) :
    ∃ pf, readAt (.cis a) n s = (.bytes (mread s.cis a n), { s with perf := pf }) := by
  obtain ⟨pf, h⟩ := countInbound_rest s none a n
  have hp' : cisPoisoned { s with perf := pf } a n = false := hp
  exact ⟨pf, by simp [readAt, readFrom, ha, meetCis_clean hu hp, h, hp']⟩

theorem readAt_cis_poisoned (ha : csAllowed s a n = true) (hp : cisPoisoned s a n = true) :
    ∃ t, readAt (.cis a) n s = (.poison, t) ∧ t.cis = s.cis := by
  have kept := meetCis_cisKept a n s
  obtain ⟨pf, h⟩ := countInbound_rest (meetCis a n s) none a n
  have hp' : cisPoisoned { meetCis a n s with perf := pf } a n = true := kept.poisoned hp
  exact ⟨({ meetCis a n s with perf := pf }).perfAdd (csCore a) 9 1,
    by simp only [readAt, readFrom, ha, h, hp', if_true], kept.1⟩

theorem readAt_cis_discarded (ha : csAllowed s a n = false) : readAt (.cis a) n s = (.discarded, inboundBad a n s) := by
  simp [readAt, readFrom, ha]

theorem writeAt_cis {bs : List Byte} (ha : csAllowed s a bs.length = true) :
    ∃ pf, writeAt (.cis a) bs s = (true, { cisWrite a bs s with perf := pf }) := by
  obtain ⟨pf, h⟩ := countInbound_rest (cisWrite a bs s) none a bs.length
  exact ⟨pf, by simp [writeAt, writeTo, ha, h]⟩

theorem writeAt_cis_discarded {bs : List Byte} (ha : csAllowed s a bs.length = false) :
    writeAt (.cis a) bs s = (false, inboundBad a bs.length s) := by
  simp [writeAt, writeTo, ha]

theorem readAt_well_clean (hu : ∀ w ∈ unitsOf 64 a n, w ∉ s.upsets.wellSingle ∧ w ∉ s.upsets.wellDouble)
    (hp : wellPoisoned s a n = false) : ∃ p, readAt (.well a) n s = (.bytes (wellRead s a n), { s with pwr := p }) := by
  obtain ⟨p, h⟩ := touchWell_rest s (wellOf a)
  have hp' : wellPoisoned { s with pwr := p } a n = false := hp
  exact ⟨p, by simp only [readAt, readFrom, meetWell_clean hu, h, hp']; rfl⟩

theorem readAt_well_poisoned (hp : wellPoisoned s a n = true) :
    ∃ t, readAt (.well a) n s = (.poison, t) ∧ t.wellMem = s.wellMem := by
  have kept := meetWell_wellKept a n s
  obtain ⟨p, h⟩ := touchWell_rest (meetWell a n s) (wellOf a)
  have hp' : wellPoisoned { meetWell a n s with pwr := p } a n = true := kept.poisoned hp
  exact ⟨{ meetWell a n s with pwr := p }, by simp only [readAt, readFrom, h, hp', if_true], kept.1⟩

end

end Sys2Proof.Machine
end

section
/-! ## O19: the debug aperture -/
namespace Sys2Proof.Machine

/-! ### One piece -/

theorem wakeDebug_rest (ad : Addr) (s : State) : ∃ p, wakeDebug ad s = { s with pwr := p } := by
  unfold wakeDebug
  split
  · exact ⟨_, rfl⟩
  cases ad with
  | host a => exact ⟨_, rfl⟩
  | well a =>
    obtain ⟨⟨_, _, wake⟩, -⟩ := beginWake_rest (32 + wellOf a) 2 s
    obtain ⟨p, touch⟩ := touchWell_rest (beginWake (32 + wellOf a) 2 s) (wellOf a)
    dsimp only [wakeWell]
    split
    · exact ⟨p, by rw [touch, wake]⟩
    · exact ⟨_, rfl⟩
  | cis a =>
    let k := clusterOfCore (csCore a)
    obtain ⟨⟨_, _, uncore⟩, -⟩ := beginWake_rest (uncoreOf k) 2 s
    obtain ⟨⟨_, _, cluster⟩, -⟩ := beginWake_rest k 2 (beginWake (uncoreOf k) 2 s)
    exact ⟨_, cluster.trans (by rw [uncore])⟩

section
variable {s : State} {o n : Nat} {data : List Byte} (h : s.dev.mode = .serving) (hn : 0 < n) (hl : o % 64 + n ≤ 64)
include h hn hl

/-- A read within one line is the answer of its one piece. -/
theorem answers_debugRead {bs : List Byte} {t : State} (hp : debugPiece o n ([], s) = (bs, t)) :
    Answers (.debugRead o n) s (emit (.busData bs) t) := by
  show Host.Outcome.next _ = _
  simp [up_of_serving h, linePieces_line hn hl, hp]

/-- A write within one line is the write of its one piece. -/
theorem answers_debugWrite (hd : data.length = n) : Answers (.debugWrite o data) s (debugPut o data s) := by
  show Host.Outcome.next _ = _
  subst hd
  simp [up_of_serving h, linePieces_line hn hl]

end

section
variable {s : State} {o n : Nat} {data : List Byte} {ad : Addr}

theorem debugPiece_out (h : debugTarget s o = none ∨ ∃ ad, debugTarget s o = some ad ∧ s.dieIn (debugDie ad) = false) :
    debugPiece o n ([], s) = (ones n, s) := by
  rcases h with h | ⟨ad, h, hd⟩
  · simp [debugPiece, h]
  · simp [debugPiece, h, hd]

theorem debugPut_out (h : debugTarget s o = none ∨ ∃ ad, debugTarget s o = some ad ∧ s.dieIn (debugDie ad) = false) :
    debugPut o data s = s := by
  rcases h with h | ⟨ad, h, hd⟩
  · simp [debugPut, h]
  · simp [debugPut, h, hd]

theorem debugPiece_bytes {bs : List Byte} {w t : State} (h : debugTarget s o = some ad) (hd : s.dieIn (debugDie ad) = true)
    (hw : wakeDebug ad s = w) (hr : readAt ad n w = (.bytes bs, t)) : debugPiece o n ([], s) = (bs, t) := by
  simp [debugPiece, h, hd, hw, hr]

theorem debugPiece_ones {got : Got} {w t : State} (h : debugTarget s o = some ad) (hd : s.dieIn (debugDie ad) = true)
    (hw : wakeDebug ad s = w) (hr : readAt ad n w = (got, t)) (hg : got = .poison ∨ got = .discarded) :
    debugPiece o n ([], s) = (ones n, t) := by
  rcases hg with rfl | rfl <;> simp [debugPiece, h, hd, hw, hr]

/-- Whatever a piece meets, it delivers as many bytes as it is asked for. -/
theorem length_debugPiece : (debugPiece o n ([], s)).1.length = n := by
  cases ht : debugTarget s o with
  | none => simp [debugPiece_out (.inl ht), ones]
  | some ad =>
    cases hd : s.dieIn (debugDie ad) with
    | false => simp [debugPiece_out (.inr ⟨ad, ht, hd⟩), ones]
    | true =>
      cases hr : readAt ad n (wakeDebug ad s) with
      | mk got t =>
        cases got with
        | bytes bs => rw [debugPiece_bytes ht hd rfl hr]; exact length_of_readFrom hr
        | poison => simp [debugPiece_ones ht hd rfl hr (.inl rfl), ones]
        | discarded => simp [debugPiece_ones ht hd rfl hr (.inr rfl), ones]

theorem debugTarget_cis (h : o < 2 ^ 31) : debugTarget s o = some (.cis o) := by simp only [debugTarget, h, if_true]

theorem debugTarget_well (h : 2 ^ 31 ≤ o) (h' : o < 2 ^ 32) :
    debugTarget s o = some (.well (s.dev.dbgBase.toNat * 2 ^ 31 + (o - 2 ^ 31))) := by
  simp only [debugTarget, h', if_true, show ¬o < 2 ^ 31 by omega, if_false]

theorem debugTarget_beyond (h : 2 ^ 32 ≤ o) : debugTarget s o = none := by
  simp only [debugTarget, show ¬o < 2 ^ 32 by omega, show ¬o < 2 ^ 31 by omega, if_false]

theorem debugPut_cis (h : o < 2 ^ 31) (hd : s.dieIn (dieOfCore (csCore o)) = true) :
    debugPut o data s = (writeAt (.cis o) data (wakeDebug (.cis o) s)).2 := by
  simp [debugPut, debugTarget_cis h, debugDie, hd]

theorem debugPut_well {p : Nat} (h : debugTarget s o = some (.well p)) (hd : s.dieIn (wellOf p) = true) :
    debugPut o data s = if inMapRegion p then s else (writeAt (.well p) data (wakeDebug (.well p) s)).2 := by
  simp [debugPut, h, debugDie, hd]

end

/-- R27: INBOUND_BAD is set on the one core that a piece of cistern space names, and nothing else moves. -/
theorem inboundBad_line {a n : Nat} (hn : 0 < n) (hl : a % 64 + n ≤ 64) (s : State) : ∃ co,
    inboundBad a n s = { s with cores := co } ∧ ((inboundBad a n s).core (csCore a)).err.getLsbD 7 = true := by
  rw [inboundBad, csPieces_line hn hl]
  refine ⟨_, rfl, ?_⟩
  simp only [List.foldl_cons, List.foldl_nil, coreErr, State.core, State.modCore, tget, tget?_tupd, if_true,
    Option.getD_some, BitVec.getLsbD_or]
  rw [getLsbD_bit (by decide)]
  simp

theorem stored_mwrite {m : Mem} (hw : Memory.wf m = true) (a : Nat) (bs : List Byte) : StoredAt a bs m (mwrite m a bs) :=
  ⟨mread_mwrite_self m a bs hw, fun x hx => mget_mwrite_out m a x bs (by unfold inRange at hx; omega)⟩

/-! ### Writes within one line -/

theorem well_modWell_self (d : Nat) (f : Well → Well) (s : State) : (s.modWell d f).well d = f (s.well d) := by
  simp [State.well, State.modWell, tget, tget?_tupd]

section
variable {s : State} {a : Nat} {bs : List Byte} (hn : 0 < bs.length) (hl : a % 64 + bs.length ≤ 64)
include hn hl

theorem wellWrite_line : wellWrite a bs s = wellWritePiece a bs s := by
  rw [wellWrite, pagePieces_line hn hl, List.foldl_cons, List.foldl_nil]

theorem writeAt_well_withdrawn (hw : withdrawnAt s a = true) : ∃ p, (writeAt (.well a) bs s).2 =
    ({ s with pwr := p }).modWell (wellOf a) fun w => { w with withdrawnWrites := ctrAdd w.withdrawnWrites 1 } := by
  obtain ⟨p, touch⟩ := touchWell_rest s (wellOf a)
  have hw' : withdrawnAt { s with pwr := p } a = true := hw
  exact ⟨p, by simp [writeAt, writeTo, touch, wellWrite_line hn hl, wellWritePiece, hw']⟩

theorem writeAt_well (hw : withdrawnAt s a = false) : ∃ p wp us, (writeAt (.well a) bs s).2 =
    { s with wellMem := mwrite s.wellMem a bs, wellPoison := wp, upsets := us, pwr := p } := by
  obtain ⟨p, touch⟩ := touchWell_rest s (wellOf a)
  have hw' : withdrawnAt { s with pwr := p } a = false := hw
  exact ⟨p, _, _, by simp [writeAt, writeTo, touch, wellWrite_line hn hl, wellWritePiece, hw']; exact ⟨rfl, rfl⟩⟩

end

/-! ### The statement, by the space that an offset reaches -/

section
variable {s : State} {o n : Nat} {data : List Byte} (h : s.dev.mode = .serving) (hn : 0 < n) (hl : o % 64 + n ≤ 64)
include h hn hl

/-- Offsets below 2 GiB, on a die in service (R27, R361). -/
theorem debug_cistern (hd : data.length = n) (ho : o < 2 ^ 31) (hdie : s.dieIn (dieOfCore (csCore o)) = true) :
    (csAllowed s o n = true → (∀ w ∈ unitsOf 32 o n, w ∉ s.upsets.cisSingle ∧ w ∉ s.upsets.cisDouble) →
      cisPoisoned s o n = false → ∃ t, Answers (.debugRead o n) s t ∧
        t = { s with outputs := s.outputs ++ [.busData (mread s.cis o n)], perf := t.perf, pwr := t.pwr }) ∧
    (csAllowed s o n = true → cisPoisoned s o n = true → ∃ t, Answers (.debugRead o n) s t ∧
      t.outputs.getLast? = some (.busData (List.replicate n 0xFF)) ∧ t.cis = s.cis) ∧
    (MemoriesOk s → csAllowed s o n = true → ∃ t, Answers (.debugWrite o data) s t ∧
      t = { s with cis := t.cis, cisPoison := t.cisPoison, upsets := t.upsets, perf := t.perf, pwr := t.pwr } ∧
      StoredAt o data s.cis t.cis) ∧
    (csAllowed s o n = false →
      (∃ t, Answers (.debugRead o n) s t ∧ (t.core (csCore o)).err.getLsbD 7 = true ∧
        t = { s with outputs := s.outputs ++ [.busData (List.replicate n 0xFF)], cores := t.cores, pwr := t.pwr }) ∧
      (∃ t, Answers (.debugWrite o data) s t ∧ (t.core (csCore o)).err.getLsbD 7 = true ∧
        t = { s with cores := t.cores, pwr := t.pwr })) := by
  obtain ⟨p, wake⟩ := wakeDebug_rest (.cis o) s
  have target := debugTarget_cis (s := s) ho
  have write := answers_debugWrite h hn hl hd
  rw [debugPut_cis ho hdie, wake] at write
  refine ⟨fun ha hu hp => ?_, fun ha hp => ?_, fun hm ha => ?_, fun ha => ⟨?_, ?_⟩⟩
  · obtain ⟨pf, read⟩ := readAt_cis_clean (s := { s with pwr := p }) ha hu hp
    exact ⟨_, answers_debugRead h hn hl (debugPiece_bytes target hdie wake read), rfl⟩
  · obtain ⟨t, read, kept⟩ := readAt_cis_poisoned (s := { s with pwr := p }) ha hp
    exact ⟨_, answers_debugRead h hn hl (debugPiece_ones target hdie wake read (.inl rfl)), by simp [ones], kept⟩
  · subst hd
    obtain ⟨pf, stored⟩ := writeAt_cis (s := { s with pwr := p }) ha
    rw [stored] at write
    exact ⟨_, write, rfl, stored_mwrite hm.2.1 o data⟩
  · obtain ⟨co, bad, bit⟩ := inboundBad_line hn hl { s with pwr := p }
    have read := readAt_cis_discarded (s := { s with pwr := p }) ha
    refine ⟨_, answers_debugRead h hn hl (debugPiece_ones target hdie wake read (.inr rfl)), bit, ?_⟩
    rw [bad]
    rfl
  · subst hd
    obtain ⟨co, bad, bit⟩ := inboundBad_line hn hl { s with pwr := p }
    rw [writeAt_cis_discarded (s := { s with pwr := p }) ha] at write
    refine ⟨_, write, bit, ?_⟩
    rw [bad]

/-- Offsets from 2 GiB to 4 GiB, on a die in service (R305, R361). -/
theorem debug_well (hd : data.length = n) (h1 : 2 ^ 31 ≤ o) (h2 : o < 2 ^ 32) :
    let p := s.dev.dbgBase.toNat * 2 ^ 31 + (o - 2 ^ 31)
    s.dieIn (wellOf p) = true →
    (p / 64 ∉ s.upsets.wellSingle → p / 64 ∉ s.upsets.wellDouble → wellPoisoned s p n = false →
      ∃ t, Answers (.debugRead o n) s t ∧
        t = { s with outputs := s.outputs ++ [.busData (wellRead s p n)], pwr := t.pwr }) ∧
    (wellPoisoned s p n = true → ∃ t, Answers (.debugRead o n) s t ∧
      t.outputs.getLast? = some (.busData (List.replicate n 0xFF)) ∧ t.wellMem = s.wellMem) ∧
    (inMapRegion p = false → withdrawnAt s p = true → ∃ t, Answers (.debugWrite o data) s t ∧ t.wellMem = s.wellMem ∧
      (t.well (p / 2 ^ 35)).withdrawnWrites = ctrAdd (s.well (p / 2 ^ 35)).withdrawnWrites 1) ∧
    (inMapRegion p = true → Answers (.debugWrite o data) s s) ∧
    (MemoriesOk s → inMapRegion p = false → withdrawnAt s p = false → ∃ t, Answers (.debugWrite o data) s t ∧
      t = { s with wellMem := t.wellMem, wellPoison := t.wellPoison, upsets := t.upsets, pwr := t.pwr } ∧
      StoredAt p data s.wellMem t.wellMem) := by
  intro p hdie
  have hpl : p % 64 + n ≤ 64 := by omega
  have target : debugTarget s o = some (.well p) := debugTarget_well h1 h2
  clear_value p
  obtain ⟨pw, wake⟩ := wakeDebug_rest (.well p) s
  have write := answers_debugWrite h hn hl hd
  rw [debugPut_well target hdie, wake] at write
  subst hd
  refine ⟨fun hu1 hu2 hp => ?_, fun hp => ?_, fun hm hw => ?_, fun hm => ?_, fun hok hm hw => ?_⟩
  · have hu : ∀ w ∈ unitsOf 64 p data.length, w ∉ s.upsets.wellSingle ∧ w ∉ s.upsets.wellDouble := by
      simp [unitsOf_line hn hpl, hu1, hu2]
    obtain ⟨pw', read⟩ := readAt_well_clean (s := { s with pwr := pw }) hu hp
    exact ⟨_, answers_debugRead h hn hl (debugPiece_bytes target hdie wake read), rfl⟩
  · obtain ⟨t, read, kept⟩ := readAt_well_poisoned (s := { s with pwr := pw }) hp
    exact ⟨_, answers_debugRead h hn hl (debugPiece_ones target hdie wake read (.inl rfl)), by simp [ones], kept⟩
  · obtain ⟨pw', dropped⟩ := writeAt_well_withdrawn hn hpl (s := { s with pwr := pw }) hw
    rw [if_neg (by simp [hm]), dropped] at write
    refine ⟨_, write, rfl, ?_⟩
    change (State.well _ (wellOf p)).withdrawnWrites = ctrAdd (s.well (wellOf p)).withdrawnWrites 1
    rw [well_modWell_self]
    rfl
  · rwa [if_pos hm] at write
  · obtain ⟨pw', wp, us, stored⟩ := writeAt_well hn hpl (s := { s with pwr := pw }) hw
    rw [if_neg (by simp [hm]), stored] at write
    exact ⟨_, write, rfl, stored_mwrite hok.2.2 p data⟩

end

/-- Settles O19: an access within one line is one piece, which wakes what it needs and then reads or writes as the space it
reaches does. -/
theorem debugApertureReachesCisternAndWell : Obligations.DebugApertureReachesCisternAndWell := by
  unfold Obligations.DebugApertureReachesCisternAndWell
  intro s o n data h hn hl hd
  refine ⟨?_, fun hout => ?_, fun ho hdie => debug_cistern h hn hl hd ho hdie, fun h1 h2 => debug_well h hn hl hd h1 h2⟩
  · cases hp : debugPiece o n ([], s) with
    | mk bs t =>
      refine ⟨_, bs, answers_debugRead h hn hl hp, by simp, ?_⟩
      simpa [hp] using length_debugPiece (s := s) (o := o) (n := n)
  · have out : debugTarget s o = none ∨ ∃ ad, debugTarget s o = some ad ∧ s.dieIn (debugDie ad) = false :=
      hout.imp_left debugTarget_beyond
    refine ⟨⟨_, answers_debugRead h hn hl (debugPiece_out out), rfl⟩, ?_⟩
    simpa [debugPut_out out] using answers_debugWrite h hn hl hd

end Sys2Proof.Machine
end

section
/-! ## O55: a running command that has not started -/
namespace Sys2Proof.Machine

/-- A RUN of a plan without steps, in phase running on core 0, whose mark that it has started is missing. -/
def unstartedRun : Cmd := { uid := 0, queue := 0, opcode := opRun, phase := .running, plan := some {}, cores := [0] }

/-- The RUN alone in flight, in the one slot of core 0. -/
def unstartedState : State :=
  { dev := { mode := .serving }
    inflight := [unstartedRun]
    cores := [(0, { regions := [{ size := 1, valid := true, accSize := 1 }], running := some 0 })] }

/-- The place of the RUN on core 0. -/
def unstartedPlace : At := { u := 0, core := 0, slot := 0, rank := 0, cmd := unstartedRun, plan := {} }

theorem historyOffs_unstarted : historyOffs unstartedState unstartedPlace = [] := rfl

/-- BACKLOG_US of a command that has not started is a free value, which its retirement takes (R248). -/
theorem freeCtr_planCommit_unstarted {t : State} (h : Answers (.planCommit 0 0) unstartedState t) : t.freeCtr = 1 := by
  obtain ⟨r, run, taken⟩ : ∃ r, exec (.planCommit 0 0) unstartedState = .next r ∧ r.freeCtr = 1 := ⟨_, rfl, rfl⟩
  rw [Host.Outcome.next.inj (h.symm.trans run)]
  exact taken

/-- Refutes O55: the commit completes a command only where the command has started, which the statement does not ask. One
that is in phase running and has not started takes a free value at its retirement, and Completes allows none. -/
theorem not_planEventsTakeEffect : ¬ Obligations.PlanEventsTakeEffect := by
  unfold Obligations.PlanEventsTakeEffect
  intro h
  obtain ⟨-, h⟩ := h
  obtain ⟨-, h⟩ := h unstartedState 0 0
  obtain ⟨-, -, -, -, -, -, h⟩ := h unstartedRun rfl rfl
  obtain ⟨-, h⟩ := h {} [] unstartedPlace rfl rfl rfl rfl rfl rfl rfl
  obtain ⟨-, h, -⟩ := h rfl ⟨rfl, rfl, rfl, rfl, fun _ => rfl⟩
  obtain ⟨t, answer, completes⟩ := h rfl rfl rfl rfl (by simp [historyOffs_unstarted])
    fun _ he => absurd he List.not_mem_nil
  have kept : t.freeCtr = 0 := (completes.lat rfl).2
  rw [freeCtr_planCommit_unstarted answer] at kept
  exact absurd kept (by decide)

end Sys2Proof.Machine
end

section
/-! ## O51: a core without region entries -/
namespace Sys2Proof.Machine

/-- RESIDE of the image at well address 0 under handle 0, on core 0, whose pump it runs on. -/
def resideOnZero : Cmd :=
  { uid := 0, queue := 0, opcode := opReside, phase := .running, started := true, inPlace := true, cores := [0]
    params := leBytes 8 (2 ^ 63) ++ [0, 0, 0, 1, 1] }

/-- The command alone in flight; core 0 is idle, and its list of regions is empty. -/
def noRegions : State := { dev := { mode := .serving, dies := 1 }, inflight := [resideOnZero], cores := [(0, { regions := [] })] }

/-- An image of one byte. -/
def oneByteImage : ImageHdr := { bytes := 1 }

/-- The region of the image is written to entry 4 of a list that has no entry. -/
theorem imageRegion_reside_noRegions {t : State} (h : Answers (.reside 0 oneByteImage 0) noRegions t) :
    imageRegion t 0 0 = none := by
  obtain ⟨r, run, none⟩ : ∃ r, exec (.reside 0 oneByteImage 0) noRegions = .next r ∧ imageRegion r 0 0 = none :=
    ⟨_, rfl, rfl⟩
  rw [Host.Outcome.next.inj (h.symm.trans run)]
  exact none

/-- Refutes O51: RESIDE reserves entries 4 to 7 of a core's list of regions, and the statement does not ask that the list
has them. On a core with a shorter list every check passes, and the image is on no core. -/
theorem not_transferCommandsMoveTheirBytes : ¬ Obligations.TransferCommandsMoveTheirBytes := by
  unfold Obligations.TransferCommandsMoveTheirBytes
  intro h
  obtain ⟨-, -, -, -, h, -⟩ := h
  obtain ⟨t, x, answer, -, -, -, resident, -⟩ := h noRegions noRegions 0 0 resideOnZero oneByteImage [0]
    ⟨rfl, rfl, rfl, by decide, rfl⟩ (by decide) (by decide) (by decide) ⟨rfl, rfl, rfl, rfl, fun _ => rfl⟩
  obtain ⟨-, region⟩ := resident 0 (by decide)
  rw [show resideOnZero.p 8 2 % 4096 = 0 by decide, imageRegion_reside_noRegions answer] at region
  exact absurd region (by decide)

end Sys2Proof.Machine
end

section
/-! ## What a copy of accumulator rows leaves -/
namespace Sys2Proof.Machine

/-! ### Computations of a plan that do not end early -/

section
variable {α β : Type} {s t u : State}

theorem Yields.bind {x : Eng α} {f : α → Eng β} {v : α} {w : β} (h : Yields x s v t) (k : Yields (f v) t w u) :
    Yields (x >>= f) s w u := by
  unfold Yields at *
  rw [OptionT.run_bind, Option.elimM, StateT.run_bind, h]
  exact k

theorem yields_getS (s : State) : Yields getS s s s := rfl

theorem yields_modS (f : State → State) (s : State) : Yields (modS f) s () (f s) := rfl

theorem yields_pure (v : α) (s : State) : Yields (pure v) s v s := rfl

theorem Yields.run {x : Eng Unit} (h : Yields x s () t) : Eng.run x s = t := by
  unfold Eng.run
  rw [h]

end

/-! ### Accumulator values under keys -/

section
variable {s : State} {a : At}

/-- A read of values that are not upset meets nothing. -/
theorem meetKeys_clean (h : s.upsets = {}) (ks : List Nat) : meetKeys ks s = s := by
  refine List.foldlRecOn ks _ (motive := (· = s)) rfl fun t e k _ => ?_
  subst e
  simp [meetAccKey, h]

theorem keysLoad_clean {keys : State → Option (List Nat)} {ks : List Nat} (hu : s.upsets = {}) (hp : s.accPoison = [])
    (hk : keys s = some ks) : Yields (keysLoad a keys) s (valuesAt s ks) s := by
  refine (yields_getS s).bind ?_
  rw [hk]
  refine (yields_modS (meetKeys ks) s).bind ?_
  rw [meetKeys_clean hu]
  refine (yields_getS s).bind ?_
  have sound : keysPoisoned s ks = false := by simp [keysPoisoned, hp]
  rw [sound]
  exact yields_pure _ s

theorem keysStore_yields {keys : State → Option (List Nat)} {ks : List Nat} (vs : List Nat) (hk : keys s = some ks) :
    Yields (keysStore a keys vs) s () (accPuts ks vs s) := by
  refine (yields_getS s).bind ?_
  rw [hk]
  exact yields_modS _ s

/-- Rows of the share of a place, as they lie. -/
def rowKeys (s : State) (a : At) (row n : Nat) : List Nat :=
  (List.range (64 * n)).map fun i => accKey a.core ((ownRegion s a).accBase * 64 + (row + i / 64)) (i % 64)

theorem shareKeys_id {row n : Nat} (h : row + n ≤ (ownRegion s a).accSize * 64) :
    shareKeys s a id row 0 (64 * n) = some (rowKeys s a row n) := by
  have inShare : ∀ i < 64 * n, row + i / 64 < (ownRegion s a).accSize * 64 := by omega
  simpa [shareKeys, share, rowKeys, ownRegion] using inShare

/-- A copy of whole rows within the share, where nothing is upset or poisoned. -/
theorem copyRows_yields {src dst n : Nat} (hu : s.upsets = {}) (hp : s.accPoison = [])
    (hs : src + n ≤ (ownRegion s a).accSize * 64) (hd : dst + n ≤ (ownRegion s a).accSize * 64) :
    Yields (copyRows a src dst n) s () (accPuts (rowKeys s a dst n) (valuesAt s (rowKeys s a src n)) s) :=
  (keysLoad_clean hu hp (shareKeys_id hs)).bind (keysStore_yields _ (shareKeys_id hd))

end

/-- Where nothing is upset or poisoned, a write of accumulator values changes nothing else. -/
theorem accPuts_clean {s : State} (hu : s.upsets = {}) (hp : s.accPoison = []) (ks vs : List Nat) :
    accPuts ks vs s = { s with acc := (accPuts ks vs s).acc } := by
  refine List.foldlRecOn (ks.zip vs) _ (motive := fun (t : State) => t = { s with acc := t.acc }) rfl
    fun t e p _ => ?_
  rw [e]
  unfold accPut
  rw [hu, hp]
  rfl

theorem valuesAt_zero {s : State} {ks : List Nat} (h : ∀ k ∈ ks, tget s.acc k 0 = 0) : ∀ v ∈ valuesAt s ks, v = 0 := by
  simp only [valuesAt, List.forall_mem_map]
  exact fun k hk => congrArg BitVec.toNat (h k hk)

theorem length_valuesAt_rowKeys (s : State) (a : At) (src dst n : Nat) :
    (rowKeys s a dst n).length = (valuesAt s (rowKeys s a src n)).length := by
  simp [valuesAt, rowKeys]

/-- Writing zeros leaves 0 under their keys, and where 0 stood before. -/
theorem tget_accPuts_zero {ks vs : List Nat} {k : Nat} {s : State} (hl : ks.length = vs.length) (hv : ∀ v ∈ vs, v = 0)
    (h : k ∈ ks ∨ tget s.acc k 0 = 0) : tget (accPuts ks vs s).acc k 0 = 0 := by
  unfold accPuts
  induction ks generalizing vs s with
  | nil => simpa using h
  | cons j ks ih =>
    cases vs with
    | nil => simp at hl
    | cons v vs =>
      simp only [List.length_cons, Nat.add_right_cancel_iff, List.mem_cons] at hl h
      obtain rfl : v = 0 := hv v List.mem_cons_self
      have hv : ∀ w ∈ vs, w = 0 := fun w hw => hv w (List.mem_cons_of_mem _ hw)
      refine ih hl hv ?_
      by_cases hk : k = j
      · subst hk
        exact .inr (tget_tset_self _ _ _ _)
      · refine (h.imp_left (·.resolve_left hk)).imp_right fun h => ?_
        exact (tget_tset_ne _ _ _ _ _ hk).trans h

/-! ### The copies of a start -/

theorem historyIn_yields {s : State} {a : At} (h : historyOffs s a = []) : Yields (historyIn a) s () s := by
  refine (yields_getS s).bind ?_
  rw [h]
  exact yields_pure () s

theorem stateIn_yields {s : State} {a : At} {src dst n : Nat} (hh : halves s a = (src, dst)) (hn : (stateArea s a).2.1 = n)
    (hu : s.upsets = {}) (hp : s.accPoison = []) (hs : src + n ≤ (ownRegion s a).accSize * 64)
    (hd : dst + n ≤ (ownRegion s a).accSize * 64) :
    Yields (stateIn a) s () (accPuts (rowKeys s a dst n) (valuesAt s (rowKeys s a src n)) s) := by
  refine (yields_getS s).bind ?_
  rw [hh, hn]
  exact copyRows_yields hu hp hs hd

theorem eachM_yields_pair {α : Type} {f : α → Eng Unit} {x y : α} {s t u : State} (h : Yields (f x) s () t)
    (k : Yields (f y) t () u) : Yields (eachM f [x, y]) s () u :=
  h.bind (k.bind (yields_pure () u))

theorem armFloats_acc (cid : Nat) (p : Plan) (gs : List Nat) (s : State) : (armFloats cid p gs s).acc = s.acc := by
  refine List.foldlRecOn gs _ (motive := fun (t : State) => t.acc = s.acc) rfl fun t h g _ => ?_
  split
  · exact List.foldlRecOn p.arms _ (motive := fun (r : State) => r.acc = s.acc) h fun _ k _ _ => k
  · exact h

end Sys2Proof.Machine
end

section
/-! ## O57: accumulator shares that overlap -/
namespace Sys2Proof.Machine

/-- DISPATCH starts the placed plan that can start. -/
theorem exec_dispatch_startPlan {pc : Nat} {s : State} {c : Cmd} {p : Plan} (serving : s.serving = true)
    (hc : startable s = some c) (notPump : isPump c.opcode = false) (hp : c.plan = some p) :
    exec (.dispatch pc) s = .next (startPlan c p s) := by
  change execDispatch pc s = _
  simp [execDispatch, serving, hc, notPump, hp]

/-- A placed plan with a slot everywhere, no group and no sequences starts. -/
theorem startPlan_launch {s t r q : State} {c : Cmd} {p : Plan} {x : Ctx} (hx : s.ctx? c.ctx = some x)
    (slots : takeSlots c.ctx x c.cores s = some t) (checks : failing (placedChecks t c p) = [])
    (images : reloadAll c.uid p (c.cores.zip (List.range c.cores.length)) t = (.done, r))
    (arms : armsBusy r c.ctx p c.cores = false) (staging : stagingOk r c = true) (group : groupOf r c.uid = none)
    (seqs : (argsOf r c).bindings = []) (unsecured : c.secured = []) (secured : trySecure c.uid r = (none, q)) :
    startPlan c p s = launch c.uid (claimStaging c q) := by
  simp only [startPlan, hx, slots, checks, images, arms, staging, group, seqs, unsecured]
  simp [withMap, secured]

/-- A start makes its copies, latches the temperatures and arms the floats, on the state in which the command runs. -/
theorem launch_run {s r : State} {u : Nat} {c d : Cmd} {p : Plan} {a : At} {as : List At} (hc : s.cmd? u = some c)
    (hp : c.plan = some p) (noArgs : argsOf s c = {})
    (hr : startCmd u ((occupy u c.cores s).modCmd u (fun c => { (runsAgain c) with
        phase := .running, sat := 0, attn := [], pos := [], temps := [], lengths := [], emptyAttn := false, blocks := []
        cleared := [] })) = r)
    (hd : r.cmd? u = some d) (places : placesOf r d p d.cores = a :: as) :
    launch u s = Eng.run (do
      copiesIn (a :: as)
      let temps ← tempsIn a
      modS (fun s => armFloats d.ctx p d.cores (s.modCmd u (fun c => { c with temps := temps })))) r := by
  have noSeqs : (({} : RunArgs).bindings.map fun k => (k.seq, (tget s.seqs k.seq {}).length)) = [] := rfl
  simp only [launch, hc, hp, noArgs, noSeqs, hr, hd, places, List.head?_cons]

/-- A plan of two ranks whose state area is the 64 entry rows from 0 on, and the 64 rows after them (R96). -/
def carryPlan : Plan := { split := 2, stateRows := 64 }

/-- A RUN of it, placed on cores 0 and 1. -/
def placedRun : Cmd := { uid := 0, queue := 0, opcode := opRun, phase := .placed, plan := some carryPlan, cores := [0, 1] }

/-- Context 0 holds slot 0 on both cores. Its share on core 0 begins at row 64 × 64, one past the rows of the core, and so
at row 0 of core 1; its share on core 1 begins at row 64. One value is not 0: the first of the share on core 1. -/
def overlapping : State :=
  { dev := { mode := .serving }
    inflight := [placedRun]
    ctxs := [(0, {})]
    cores := [(0, { regions := [{ valid := true, accBase := 64, accSize := 2 }] }),
              (1, { regions := [{ valid := true, accBase := 1, accSize := 2 }] })]
    acc := [(accKey 1 64 0, 1)]
    pwr := { doms := [(0, { state := 0 }), (32, { state := 0 })] } }

/-- The places of the RUN. -/
def placeOn (g : Nat) : At := { u := 0, core := g, slot := 0, rank := g, cmd := placedRun, plan := carryPlan }

/-- The RUN as it stands once it has started, and the state that its copies meet. -/
def launchedRun : Cmd := { placedRun with phase := .running, started := true, usedCores := [0, 1] }
def launched : State :=
  { overlapping with
    inflight := [launchedRun]
    cores := [(0, { regions := [{ valid := true, accBase := 64, accSize := 2 }], running := some 0 }),
              (1, { regions := [{ valid := true, accBase := 1, accSize := 2 }], running := some 0 })] }

def launchedOn (g : Nat) : At := { placeOn g with cmd := launchedRun }

theorem exec_dispatch_overlapping : exec (.dispatch 0) overlapping = .next (Eng.run (do
    copiesIn [launchedOn 0, launchedOn 1]
    let temps ← tempsIn (launchedOn 0)
    modS (fun s => armFloats 0 carryPlan [0, 1] (s.modCmd 0 (fun c => { c with temps := temps })))) launched) := by
  have run : exec (.dispatch 0) overlapping = .next (startPlan placedRun carryPlan overlapping) :=
    exec_dispatch_startPlan rfl rfl rfl rfl
  have slots : takeSlots 0 {} [0, 1] overlapping = some overlapping := rfl
  have checks : failing (placedChecks overlapping placedRun carryPlan) = [] := rfl
  have images : reloadAll 0 carryPlan [(0, 0), (1, 1)] overlapping = (.done, overlapping) := rfl
  have arms : armsBusy overlapping 0 carryPlan [0, 1] = false := rfl
  have staging : stagingOk overlapping placedRun = true := rfl
  have secured : trySecure 0 overlapping = (none, overlapping) := rfl
  rw [run, startPlan_launch (c := placedRun) rfl slots checks images arms staging rfl rfl rfl secured]
  have unstaged : claimStaging placedRun overlapping = overlapping := rfl
  rw [unstaged, launch_run (s := overlapping) (c := placedRun) (d := launchedRun) (r := launched) (a := launchedOn 0)
    (as := [launchedOn 1]) rfl rfl rfl rfl rfl rfl]
  rfl

/-- The state area of a RUN without a carry half stands with half 0 first. -/
theorem halves_launched (m : Table (BitVec 48)) (g : Nat) : halves { launched with acc := m } (launchedOn g) = (0, 64) := rfl

theorem accSize_launched (m : Table (BitVec 48)) : (ownRegion { launched with acc := m } (launchedOn 1)).accSize = 2 := rfl

theorem tget_acc_launched {k : Nat} (h : k ≠ accKey 1 64 0) : tget launched.acc k 0 = 0 :=
  tget_tset_ne [] _ _ _ _ h

/-- The copy on core 0 reads zeros and writes one over the value that the copy on core 1 is to read. -/
theorem stateIn_core0 : ∃ m, Yields (stateIn (launchedOn 0)) launched () { launched with acc := m } ∧
    ∀ k, tget m k 0 = 0 := by
  have copy := stateIn_yields (s := launched) (a := launchedOn 0) (n := 64) (halves_launched _ 0) rfl rfl rfl
    (by decide) (by decide)
  rw [accPuts_clean rfl rfl] at copy
  refine ⟨_, copy, fun k => tget_accPuts_zero (length_valuesAt_rowKeys ..) (valuesAt_zero fun j hj => ?_) ?_⟩
  · obtain ⟨i, hi, rfl⟩ := List.mem_map.1 hj
    have below : i < 4096 := List.mem_range.1 hi
    refine tget_acc_launched ?_
    change (0 * 4096 + (64 * 64 + (0 + i / 64))) * 64 + i % 64 ≠ (1 * 4096 + 64) * 64 + 0
    omega
  · by_cases hk : k = accKey 1 64 0
    · exact .inl (List.mem_map.2 ⟨0, List.mem_range.2 (by decide), hk.symm⟩)
    · exact .inr (tget_acc_launched hk)

/-- The copy on core 1 then reads and writes zeros. -/
theorem stateIn_core1 {m : Table (BitVec 48)} (h : ∀ k, tget m k 0 = 0) :
    ∃ m', Yields (stateIn (launchedOn 1)) { launched with acc := m } () { launched with acc := m' } ∧
      ∀ k, tget m' k 0 = 0 := by
  have copy := stateIn_yields (s := { launched with acc := m }) (a := launchedOn 1) (n := 64) (halves_launched _ 1) rfl rfl rfl
    (by rw [accSize_launched]; decide) (by rw [accSize_launched])
  rw [accPuts_clean rfl rfl] at copy
  exact ⟨_, copy, fun k => tget_accPuts_zero (length_valuesAt_rowKeys ..) (valuesAt_zero fun j _ => h j) (.inr (h k))⟩

/-- After the start no accumulator value is other than 0. -/
theorem acc_dispatch_overlapping {t : State} (h : Answers (.dispatch 0) overlapping t) (k : Nat) : tget t.acc k 0 = 0 := by
  obtain ⟨m, copy0, zero⟩ := stateIn_core0
  obtain ⟨m', copy1, zero'⟩ := stateIn_core1 zero
  have noHistory (g : Nat) : Yields (historyIn (launchedOn g)) launched () launched := historyIn_yields rfl
  have copies : Yields (copiesIn [launchedOn 0, launchedOn 1]) launched () { launched with acc := m' } :=
    (eachM_yields_pair (noHistory 0) (noHistory 1)).bind (eachM_yields_pair copy0 copy1)
  rw [← Host.Outcome.next.inj (exec_dispatch_overlapping.symm.trans h),
    (copies.bind ((yields_pure [] _).bind (yields_modS _ _))).run, armFloats_acc]
  exact zero' k

/-- Refutes O57: the statement does not ask that a slot's accumulator share ends within the 64 units of its core. Where the
share on core 0 runs into core 1, the copy on core 0 overwrites the committed state on core 1 before that is copied. -/
theorem not_theSchedulerPlacesStartsAndSwaps : ¬ Obligations.TheSchedulerPlacesStartsAndSwaps := by
  unfold Obligations.TheSchedulerPlacesStartsAndSwaps
  intro h
  obtain ⟨h, -⟩ := h overlapping rfl ⟨rfl, rfl, rfl, rfl, fun _ => rfl⟩ ⟨rfl, rfl, rfl⟩
  obtain ⟨-, h⟩ := h 0 placedRun rfl
  obtain ⟨-, h⟩ := h carryPlan {} rfl rfl rfl rfl
  obtain ⟨-, h⟩ := h overlapping overlapping rfl rfl rfl rfl rfl
  obtain ⟨t, answer, -, -, copied, -⟩ := h [placeOn 0, placeOn 1] rfl rfl rfl rfl ⟨rfl, rfl, rfl, rfl, fun _ => rfl⟩
    (fun _ hw => absurd hw List.not_mem_nil) rfl (by decide) (fun _ off => nomatch off)
  have kept : tget t.acc (accKey 1 128 0) 0 = tget overlapping.acc (accKey 1 64 0) 0 :=
    copied (placeOn 1) (by simp) 0 (by decide)
  rw [acc_dispatch_overlapping answer] at kept
  exact absurd kept (by decide)

end Sys2Proof.Machine
end

section
/-!
## O53: what the steps of an engine compute

First what a step keeps while it runs (`Within`), then one rule per read and write of a running plan, then the steps:
each is a chain of these rules. The last part is the fault of a slice whose tags differ.
-/
namespace Sys2Proof.Machine

/-! ### What a step keeps while it runs -/

/-- A command and a loop without what a step counts and draws in them. -/
def stillCmd (c : Cmd) : Cmd := { c with sat := 0, pos := [], cleared := [], blocks := [] }
def stillLoop (x : Loop) : Loop := { x with satBlock := 0, workPos := [], workBlocks := [] }

/-- What a step on core g may have touched before it counts its cycles and goes on. -/
structure Within (g : Nat) (s t : State) : Prop where
  only : t = { s with cis := t.cis, acc := t.acc, perf := t.perf, inflight := t.inflight, loops := t.loops, cores := t.cores }
  flight : t.inflight.map stillCmd = s.inflight.map stillCmd
  loops : ∀ l, (tget? t.loops l).map stillLoop = (tget? s.loops l).map stillLoop
  busy : ∀ n < 2, tget t.perf (16 * g + n) 0 = tget s.perf (16 * g + n) 0
  others : ∀ h, h ≠ g → t.core h = s.core h
  own : t.core g = { s.core g with
    wideHolder := (t.core g).wideHolder, phaseRows := (t.core g).phaseRows, heldSums := (t.core g).heldSums
    checked := (t.core g).checked, err := (t.core g).err }

section
variable {g : Nat} {r s t : State}

theorem Within.refl (g : Nat) (s : State) : Within g s s := ⟨rfl, rfl, fun _ => rfl, fun _ _ => rfl, fun _ _ => rfl, rfl⟩

theorem Within.trans (h : Within g r s) (k : Within g s t) : Within g r t where
  only := k.only.trans (congrArg (fun x : State => { x with
    cis := t.cis, acc := t.acc, perf := t.perf, inflight := t.inflight, loops := t.loops, cores := t.cores }) h.only)
  flight := k.flight.trans h.flight
  loops l := (k.loops l).trans (h.loops l)
  busy n hn := (k.busy n hn).trans (h.busy n hn)
  others c hc := (k.others c hc).trans (h.others c hc)
  own := k.own.trans (congrArg (fun x : Core => { x with
    wideHolder := (t.core g).wideHolder, phaseRows := (t.core g).phaseRows, heldSums := (t.core g).heldSums
    checked := (t.core g).checked, err := (t.core g).err }) h.own)

theorem Within.symm (h : Within g s t) : Within g t s where
  only := (congrArg (fun x : State => { x with
    cis := s.cis, acc := s.acc, perf := s.perf, inflight := s.inflight, loops := s.loops, cores := s.cores }) h.only).symm
  flight := h.flight.symm
  loops l := (h.loops l).symm
  busy n hn := (h.busy n hn).symm
  others c hc := (h.others c hc).symm
  own := (congrArg (fun x : Core => { x with
    wideHolder := (s.core g).wideHolder, phaseRows := (s.core g).phaseRows, heldSums := (s.core g).heldSums
    checked := (s.core g).checked, err := (s.core g).err }) h.own).symm

theorem core_modCore (h : Nat) (f : Core → Core) (s : State) :
    (s.modCore g f).core h = if h = g then f (s.core g) else s.core h := by
  simp only [State.core, State.modCore, tget, tget?_tupd]
  split
  next e => subst e; rfl
  · rfl

/-- An update of the step's own core that a step may make. -/
theorem within_modCore {f : Core → Core} (hf : ∀ c, f c = { c with
    wideHolder := (f c).wideHolder, phaseRows := (f c).phaseRows, heldSums := (f c).heldSums, checked := (f c).checked
    err := (f c).err }) (s : State) : Within g s (s.modCore g f) where
  only := rfl
  flight := rfl
  loops _ := rfl
  busy _ _ := rfl
  others h hh := by rw [core_modCore, if_neg hh]
  own := by rw [core_modCore, if_pos rfl]; exact hf _

theorem tget_perfAdd (g m n k : Nat) (s : State) : tget (s.perfAdd g m n).perf k 0 =
    if k = 16 * g + m then ctrAdd (tget s.perf k 0) n else tget s.perf k 0 := by
  simp only [State.perfAdd, tget, tget?_tupd]
  split
  next e => subst e; rfl
  · rfl

theorem within_perfAdd {m : Nat} (hm : 2 ≤ m) (n : Nat) (s : State) : Within g s (s.perfAdd g m n) where
  only := rfl
  flight := rfl
  loops _ := rfl
  busy k hk := by rw [tget_perfAdd, if_neg (by omega)]
  others _ _ := rfl
  own := rfl

theorem within_cis (m : Mem) (s : State) : Within g s { s with cis := m } :=
  ⟨rfl, rfl, fun _ => rfl, fun _ _ => rfl, fun _ _ => rfl, rfl⟩

theorem within_acc (m : Table (BitVec 48)) (s : State) : Within g s { s with acc := m } :=
  ⟨rfl, rfl, fun _ => rfl, fun _ _ => rfl, fun _ _ => rfl, rfl⟩

theorem within_modCmd {u : Nat} {f : Cmd → Cmd} (hf : ∀ c, stillCmd (f c) = stillCmd c) (s : State) :
    Within g s (s.modCmd u f) where
  only := rfl
  flight := by
    simp only [State.modCmd, List.map_map]
    exact List.map_congr_left fun c _ => by simp only [Function.comp]; split <;> simp [hf]
  loops _ := rfl
  busy _ _ := rfl
  others _ _ := rfl
  own := rfl

theorem within_modLoop {l : Nat} {f : Loop → Loop} (hf : ∀ x, stillLoop (f x) = stillLoop x) (s : State) :
    Within g s (s.modLoop l f) where
  only := rfl
  flight := rfl
  loops k := by
    simp only [State.modLoop, tget?_tmod]
    split
    · cases tget? s.loops k <;> simp [hf]
    · rfl
  busy _ _ := rfl
  others _ _ := rfl
  own := rfl

/-! ### What a step that has not ended still sees -/

theorem Within.cmd? (h : Within g s t) (u : Nat) : (t.cmd? u).map stillCmd = (s.cmd? u).map stillCmd := by
  have e := congrArg (List.find? fun c => c.uid == u) h.flight
  rwa [find_map_uid u stillCmd fun _ => rfl, find_map_uid u stillCmd fun _ => rfl] at e

theorem Within.uids (h : Within g s t) : t.inflight.map (fun d => d.uid) = s.inflight.map (fun d => d.uid) := by
  have e := congrArg (List.map Cmd.uid) h.flight
  rwa [List.map_map, List.map_map] at e

theorem Within.regions (h : Within g s t) (c : Nat) : (t.core c).regions = (s.core c).regions := by
  by_cases hc : c = g
  · subst hc; rw [h.own]
  · rw [h.others c hc]

theorem Within.ownPos (h : Within g s t) : (t.core g).pos = (s.core g).pos := by rw [h.own]

theorem Within.ctxs (h : Within g s t) : t.ctxs = s.ctxs := by rw [h.only]
theorem Within.images (h : Within g s t) : t.images = s.images := by rw [h.only]
theorem Within.streams (h : Within g s t) : t.streams = s.streams := by rw [h.only]

theorem Within.loop (h : Within g s t) (a : At) : (loopOfAt t a).map stillLoop = (loopOfAt s a).map stillLoop := by
  unfold loopOfAt loopOfCmd
  split
  · cases a.cmd.object with
    | none => rfl
    | some l => exact h.loops l
  · rfl

/-- What a step sees of its loop besides its counts and draws. -/
theorem Within.ofLoop {α : Type} (h : Within g s t) (a : At) {f : Loop → α} (hf : ∀ x, f (stillLoop x) = f x) :
    (loopOfAt t a).map f = (loopOfAt s a).map f := by
  have e := congrArg (Option.map f) (h.loop a)
  simpa only [Option.map_map, Function.comp_def, hf] using e

theorem stateArea_eq (s : State) (a : At) : stateArea s a =
    ((loopOfAt s a).map fun l => (l.stateBase, l.stateRows, l.committedHalf)).getD
      (a.plan.stateBase, a.plan.stateRows,
        match s.ctx? a.cmd.ctx with | some x => x.carry.contains (a.plan.stateBase, a.plan.stateRows) | none => false) := by
  unfold stateArea
  cases loopOfAt s a <;> rfl

theorem Within.stateArea_eq (h : Within g s t) (a : At) : stateArea t a = stateArea s a := by
  rw [Machine.stateArea_eq, Machine.stateArea_eq,
    h.ofLoop a (f := fun l => (l.stateBase, l.stateRows, l.committedHalf)) fun _ => rfl]
  simp only [State.ctx?, h.ctxs]

theorem Within.entryRow_eq (h : Within g s t) (a : At) (row : Nat) : entryRow t a row = entryRow s a row := by
  simp only [entryRow, halves, h.stateArea_eq]

theorem Within.regionFor_eq (h : Within g s t) (a : At) (image : Option Nat) : regionFor t a image = regionFor s a image := by
  cases image with
  | none => simp only [regionFor, h.regions]
  | some i => simp only [regionFor, imageRegion, h.regions]

theorem Within.ownRegion_eq (h : Within g s t) (a : At) : ownRegion t a = ownRegion s a := by
  simp only [ownRegion, h.regions]

theorem Within.ownWrite_eq (h : Within g s t) (a : At) : ownWrite t a = ownWrite s a := by
  funext off bs m
  simp only [ownWrite, ownAddr, h.ownRegion_eq]

theorem Within.writable (h : Within g s t) {a : At} {off n : Nat} (hw : Writable s a off n) : Writable t a off n := by
  simpa only [Writable, h.regionFor_eq] using hw

theorem Within.rowAt (h : Within g s t) {a : At} {row lane n : Nat} {ks : List Nat} (hr : RowAt s a row lane n ks) :
    RowAt t a row lane n ks := by
  simpa only [RowAt, h.entryRow_eq, h.ownRegion_eq] using hr

end

end Sys2Proof.Machine
end

section
/-! ### The reads and writes of a step -/
namespace Sys2Proof.Machine

/-- No value or word that a step could read is upset or poisoned. -/
structure Clean (s : State) : Prop where
  upsets : s.upsets = {}
  cis : s.cisPoison = []
  acc : s.accPoison = []

theorem Engaged.clean {g : Nat} {a : At} {s : State} (h : Engaged g a s) : Clean s :=
  ⟨h.upsets, h.poison.1, h.poison.2.1⟩

theorem Within.clean {g : Nat} {s t : State} (h : Within g s t) (hc : Clean s) : Clean t := by
  rw [h.only]
  exact ⟨hc.upsets, hc.cis, hc.acc⟩

/-- A computation does not end early: it yields a value, in a state of which P holds. -/
def Reaches {α : Type} (x : Eng α) (s : State) (v : α) (P : State → Prop) : Prop := ∃ t, Yields x s v t ∧ P t

section
variable {α β : Type} {s t : State} {P Q : State → Prop}

theorem Yields.reaches {x : Eng α} {v : α} (h : Yields x s v t) (p : P t) : Reaches x s v P := ⟨t, h, p⟩

theorem Reaches.bind {x : Eng α} {f : α → Eng β} {v : α} {w : β} (h : Reaches x s v P)
    (k : ∀ t, P t → Reaches (f v) t w Q) : Reaches (x >>= f) s w Q := by
  obtain ⟨t, hx, p⟩ := h
  obtain ⟨u, hf, q⟩ := k t p
  exact ⟨u, hx.bind hf, q⟩

/-- A computation that leaves the state, and what follows it. -/
theorem Reaches.after {x : Eng α} {f : α → Eng β} {v : α} {w : β} (h : Yields x s v t) (k : Reaches (f v) t w Q) :
    Reaches (x >>= f) s w Q := by
  obtain ⟨u, hf, q⟩ := k
  exact ⟨u, h.bind hf, q⟩

theorem Yields.unique {x : Eng α} {v w : α} {u : State} (h : Yields x s v t) (k : Yields x s w u) : v = w ∧ t = u := by
  have e : (some v, t) = (some w, u) := h.symm.trans k
  simpa using e

/-- Two ways to a value, and what follows it. -/
theorem Reaches.branch {c : Prop} [Decidable c] {x y : Eng α} {f : α → Eng β} {v : α} {w : β}
    (h : Reaches (if c then x else y) s v P) (k : ∀ t, P t → Reaches (f v) t w Q) :
    Reaches (if c then x >>= f else y >>= f) s w Q := by
  split at h
  next hc => rw [if_pos hc]; exact h.bind k
  next hc => rw [if_neg hc]; exact h.bind k

/-- An action on a condition, and what follows either way. -/
theorem Reaches.when {c : Prop} [Decidable c] {x : Eng Unit} {f : Unit → Eng β} {w : β}
    (h : Reaches (if c then x else pure ()) s () P) (k : ∀ t, P t → Reaches (f ()) t w Q) :
    Reaches (if c then x >>= f else f ()) s w Q := by
  split at h
  next hc => rw [if_pos hc]; exact h.bind k
  next hc =>
    obtain ⟨t, ht, p⟩ := h
    obtain ⟨-, rfl⟩ := ht.unique (rfl : Yields (pure ()) s () s)
    rw [if_neg hc]
    exact k _ p

theorem reaches_pure {v : α} (p : P s) : Reaches (pure v) s v P := ⟨s, rfl, p⟩

theorem mapEng_yields {f : α → Eng β} {v : α → β} {xs : List α} (h : ∀ x ∈ xs, Yields (f x) s (v x) s) :
    Yields (mapEng f xs) s (xs.map v) s := by
  induction xs with
  | nil => rfl
  | cons x xs ih =>
    exact (h x List.mem_cons_self).bind ((ih fun y hy => h y (List.mem_cons_of_mem _ hy)).bind rfl)

theorem mapEng_reaches {R : State → State → Prop} (refl : ∀ s, R s s) (trans : ∀ {r s t}, R r s → R s t → R r t)
    {f : α → Eng β} {xs : List α} {vs : List β} (hl : vs.length = xs.length)
    (h : ∀ p ∈ xs.zip vs, ∀ r, R s r → Reaches (f p.1) r p.2 (R r)) : Reaches (mapEng f xs) s vs (R s) := by
  suffices ∀ r, R s r → Reaches (mapEng f xs) r vs (R s) from this s (refl s)
  induction xs generalizing vs with
  | nil =>
    intro r hr
    obtain rfl := List.length_eq_zero_iff.1 hl
    exact reaches_pure hr
  | cons x xs ih =>
    intro r hr
    obtain _ | ⟨v, vs⟩ := vs
    · simp at hl
    refine (h (x, v) List.mem_cons_self r hr).bind fun t ht => ?_
    refine (ih (by simpa using hl) (fun p hp => h p (List.mem_cons_of_mem _ hp)) t (trans hr ht)).bind fun u hu => ?_
    exact reaches_pure hu

end

/-! #### Bytes of the context region and of images -/

section
variable {s : State} {a : At} {image : Option Nat} {off n : Nat}

theorem load_yields {bs : List Byte} (hc : Clean s) (h : Readable s a image off n bs) :
    Yields (load a image off n) s bs s := by
  obtain ⟨r, region, fits, rfl⟩ := h
  have addr : localAddr s a image off n = some (csAddr a.core (r.base * 8192 + off)) := by
    simp only [localAddr, region, fits, if_true]
  have sound (ad m : Nat) : cisPoisoned s ad m = false := by simp [cisPoisoned, hc.cis]
  refine (yields_getS s).bind ?_
  rw [addr]
  refine (yields_modS _ s).bind ?_
  rw [meetCis_clean (fun w _ => by simp [hc.upsets]) (sound _ _)]
  refine (yields_getS s).bind ?_
  rw [sound]
  exact yields_pure _ s

theorem cisWrite_clean (hc : Clean s) (ad : Nat) (bs : List Byte) :
    cisWrite ad bs s = { s with cis := mwrite s.cis ad bs } := by
  have poison (ws : List Nat) : without s.cisPoison ws = s.cisPoison := by simp [without, hc.cis]
  have upsets (ws : List Nat) : { s.upsets with
      cisSingle := without s.upsets.cisSingle ws, cisDouble := without s.upsets.cisDouble ws } = s.upsets := by
    rw [hc.upsets]; rfl
  unfold cisWrite
  extract_lets ws
  rw [poison]
  exact congrArg (fun u => { s with cis := mwrite s.cis ad bs, upsets := u }) (upsets ws)

theorem store_yields {bs : List Byte} (hc : Clean s) (h : Writable s a off bs.length) :
    Yields (store a off bs) s () { s with cis := ownWrite s a off bs s.cis } := by
  obtain ⟨r, region, fits⟩ := h
  have addr : localAddr s a none off bs.length = some (ownAddr s a off) := by
    have own : ownRegion s a = r := by
      simp only [regionFor] at region
      simp [ownRegion, List.getD_eq_getElem?_getD, region]
    simp only [localAddr, region, fits, if_true, ownAddr, own]
  refine (yields_getS s).bind ?_
  rw [addr]
  change Yields (modS _) s () _
  have e := yields_modS (cisWrite (ownAddr s a off) bs) s
  rwa [cisWrite_clean hc] at e

theorem Within.readable {g : Nat} {t : State} {bs : List Byte} (h : Within g s t) (hm : t.cis = s.cis)
    (hr : Readable s a image off n bs) : Readable t a image off n bs := by
  simpa only [Readable, h.regionFor_eq, hm] using hr

end

/-! #### Values of the accumulator share -/

section
variable {s : State} {a : At} {row lane n : Nat} {ks vs : List Nat}

theorem RowAt.length (h : RowAt s a row lane n ks) : ks.length = n := by
  rw [h.2]; simp

theorem RowAt.shareKeys (h : RowAt s a row lane n ks) : shareKeys s a (entryRow s a) row lane n = some ks := by
  obtain ⟨inShare, rfl⟩ := h
  simpa [Machine.shareKeys, share, ownRegion] using inShare

/-- The 64 keys of one row are different. -/
theorem RowAt.nodup (h : RowAt s a row 0 64 ks) : ks.Nodup := by
  rw [h.2]
  refine List.Nodup.map_on (fun i hi j hj e => ?_) List.nodup_range
  have := List.mem_range.1 hi
  have := List.mem_range.1 hj
  have hi0 : (0 + i) / 64 = 0 := by omega
  have hj0 : (0 + j) / 64 = 0 := by omega
  rw [hi0, hj0] at e
  unfold accKey at e
  omega

theorem accLoad_yields (hc : Clean s) (h : RowAt s a row lane n ks) :
    Yields (accLoad a row lane n) s (valuesAt s ks) s := keysLoad_clean hc.upsets hc.acc h.shareKeys

/-- Values written under a list of keys. -/
def putValues (ks vs : List Nat) (m : Table (BitVec 48)) : Table (BitVec 48) :=
  (ks.zip vs).foldl (fun m p => tset m p.1 (BitVec.ofNat 48 p.2)) m

theorem accPuts_eq (hc : Clean s) (ks vs : List Nat) : accPuts ks vs s = { s with acc := putValues ks vs s.acc } := by
  have table (ps : List (Nat × Nat)) : ∀ s : State, (ps.foldl (fun s p => accPut p.1 p.2 s) s).acc =
      ps.foldl (fun m p => tset m p.1 (BitVec.ofNat 48 p.2)) s.acc := by
    induction ps with
    | nil => exact fun _ => rfl
    | cons p ps ih => exact fun s => ih _
  rw [accPuts_clean hc.upsets hc.acc]
  exact congrArg (fun m => { s with acc := m }) (table (ks.zip vs) s)

theorem accStore_yields (hc : Clean s) (h : RowAt s a row 0 vs.length ks) :
    Yields (accStore a row vs) s () { s with acc := putValues ks vs s.acc } := by
  rw [← accPuts_eq hc]
  exact keysStore_yields vs h.shareKeys

theorem tget_putValues_notMem {k : Nat} (h : k ∉ ks) (m : Table (BitVec 48)) :
    tget (putValues ks vs m) k 0 = tget m k 0 := by
  unfold putValues
  induction ks generalizing vs m with
  | nil => rfl
  | cons j ks ih =>
    obtain _ | ⟨v, vs⟩ := vs
    · rfl
    simp only [List.mem_cons, not_or] at h
    exact (ih h.2 _).trans (tget_tset_ne _ _ _ _ _ h.1)

theorem tget_putValues (hd : ks.Nodup) (hl : ks.length = vs.length) {i : Nat} (hi : i < ks.length)
    (m : Table (BitVec 48)) : tget (putValues ks vs m) (ks.getD i 0) 0 = BitVec.ofNat 48 (vs.getD i 0) := by
  induction ks generalizing vs m i with
  | nil => simp at hi
  | cons j ks ih =>
    obtain _ | ⟨v, vs⟩ := vs
    · simp at hl
    obtain ⟨hj, hd⟩ := List.nodup_cons.1 hd
    obtain _ | i := i
    · exact (tget_putValues_notMem hj _).trans (tget_tset_self _ _ _ _)
    · exact ih hd (by simpa using hl) (by simpa using hi) _

theorem keysWritten_putValues {t : State} (hd : ks.Nodup) (hl : ks.length = vs.length)
    (h : t.acc = putValues ks vs s.acc) : KeysWritten ks vs s t := by
  refine ⟨fun i hi => ?_, fun k hk => ?_⟩
  · rw [h, tget_putValues hd hl hi]
  · rw [h, tget_putValues_notMem hk]

end

/-! #### Rows, tags and scales -/

theorem length_splitLE (k n : Nat) (b : List Byte) : (splitLE k n b).length = n := by
  induction n generalizing b with
  | zero => rfl
  | succ n ih => simp [splitLE, ih]

theorem RowIs.length {s : State} {a : At} {src : RowSrc} {n : Nat} {vs : List Nat} (h : RowIs s a src n vs) :
    vs.length = n := by
  cases src <;> obtain ⟨_, h, rfl⟩ := h
  · simp [valuesAt, h.length]
  all_goals exact length_splitLE ..

theorem ValuesAre.length {s : State} {a : At} {src : RowSrc} {n : Nat} {xs : List Fl} (h : ValuesAre s a src n xs) :
    xs.length = n := by
  obtain ⟨vs, row, h⟩ := h
  cases src
  case a8block =>
    obtain ⟨-, _, _, -, rfl⟩ := h
    simpa using row.length
  all_goals
    subst h
    simpa using row.length

/-- Only the step's own core is touched, and not the sums that it holds. -/
structure CoreOnly (g : Nat) (s t : State) : Prop extends Within g s t where
  rest : t = { s with cores := t.cores }
  held : (t.core g).heldSums = (s.core g).heldSums

section
variable {g : Nat} {r s t : State}

theorem CoreOnly.refl (g : Nat) (s : State) : CoreOnly g s s := ⟨.refl g s, rfl, rfl⟩

theorem CoreOnly.trans (h : CoreOnly g r s) (k : CoreOnly g s t) : CoreOnly g r t :=
  ⟨h.toWithin.trans k.toWithin, k.rest.trans (congrArg (fun x : State => { x with cores := t.cores }) h.rest),
    k.held.trans h.held⟩

theorem CoreOnly.cis (h : CoreOnly g s t) : t.cis = s.cis := by rw [h.rest]
theorem CoreOnly.acc (h : CoreOnly g s t) : t.acc = s.acc := by rw [h.rest]
theorem CoreOnly.cmd?_eq (h : CoreOnly g s t) (u : Nat) : t.cmd? u = s.cmd? u := by
  rw [h.rest]
  rfl

theorem coreOnly_modCore {f : Core → Core} (hf : ∀ c, f c = { c with
    wideHolder := (f c).wideHolder, phaseRows := (f c).phaseRows, checked := (f c).checked, err := (f c).err })
    (s : State) : CoreOnly g s (s.modCore g f) :=
  ⟨within_modCore (fun c => by rw [hf c]) s, rfl, by rw [core_modCore, if_pos rfl, hf]⟩

theorem coreOnly_holdPort {a : At} (st : PlanStep) (s : State) : CoreOnly a.core s (holdPort a st s) := by
  unfold holdPort
  split
  · exact .refl _ s
  · exact coreOnly_modCore (fun _ => rfl) s

end

section
variable {g : Nat} {s t : State} {a : At}

theorem Within.tagsAgree {trailer scale : Nat} (h : Within g s t) (hm : t.cis = s.cis) (ht : TagsAgree s a trailer scale) :
    TagsAgree t a trailer scale := by
  obtain ⟨b, h1, h2⟩ := ht
  exact ⟨b, h.readable hm h1, h.readable hm h2⟩

theorem Within.scaleIs {block token sa zp : Nat} (h : Within g s t) (hm : t.cis = s.cis)
    (hs : ScaleIs s a block token sa zp) : ScaleIs t a block token sa zp := by
  obtain ⟨x, z, h1, h2, h3⟩ := hs
  exact ⟨x, z, h.readable hm h1, h.readable hm h2, h3⟩

theorem Within.valuesAt_eq (_ : Within g s t) (ha : t.acc = s.acc) (ks : List Nat) : valuesAt t ks = valuesAt s ks := by
  simp only [valuesAt, ha]

theorem Within.rowIs {src : RowSrc} {n : Nat} {vs : List Nat} (h : Within g s t) (hm : t.cis = s.cis)
    (ha : t.acc = s.acc) (hr : RowIs s a src n vs) : RowIs t a src n vs := by
  cases src <;> obtain ⟨ks, hk, rfl⟩ := hr
  · exact ⟨ks, h.rowAt hk, (h.valuesAt_eq ha ks).symm⟩
  all_goals exact ⟨ks, h.readable hm hk, rfl⟩

theorem Within.valuesAre {src : RowSrc} {n : Nat} {xs : List Fl} (h : Within g s t) (hm : t.cis = s.cis)
    (ha : t.acc = s.acc) (hv : ValuesAre s a src n xs) : ValuesAre t a src n xs := by
  obtain ⟨vs, row, hv⟩ := hv
  refine ⟨vs, h.rowIs hm ha row, ?_⟩
  cases src
  case a8block =>
    obtain ⟨tags, sa, zp, scale, e⟩ := hv
    exact ⟨h.tagsAgree hm tags, sa, zp, h.scaleIs hm scale, e⟩
  all_goals exact hv

theorem rowRaw_yields {src : RowSrc} {n : Nat} {vs : List Nat} (hc : Clean s) (h : RowIs s a src n vs) :
    Yields (rowRaw a src n) s vs s := by
  cases src <;> obtain ⟨_, h, rfl⟩ := h
  · exact accLoad_yields hc h
  all_goals exact (load_yields hc h).bind rfl

theorem tagCheck_reaches {trailer scale : Nat} (hc : Clean s) (h : TagsAgree s a trailer scale) :
    Reaches (tagCheck a trailer scale) s () (CoreOnly a.core s) := by
  obtain ⟨b, h1, h2⟩ := h
  refine .after (load_yields hc h1) (.after (load_yields hc h2) ?_)
  rw [if_pos (beq_self_eq_true b)]
  exact (yields_modS _ s).reaches (coreOnly_modCore (fun _ => rfl) s)

theorem tokenScale_yields {block token sa zp : Nat} (hc : Clean s) (h : ScaleIs s a block token sa zp) :
    Yields (tokenScale a block token) s (sa, zp) s := by
  obtain ⟨x, z, h1, h2, rfl, rfl⟩ := h
  exact (load_yields hc h1).bind ((load_yields hc h2).bind rfl)

/-- The values of a row, as they stand before the step. -/
theorem rowVals_reaches {src : RowSrc} {n : Nat} {xs : List Fl} (hc : Clean s) (h : ValuesAre s a src n xs) :
    Reaches (rowVals a src n) s xs (CoreOnly a.core s) := by
  obtain ⟨vs, row, h⟩ := h
  cases src
  case a8block =>
    obtain ⟨tags, sa, zp, scale, rfl⟩ := h
    refine (tagCheck_reaches hc tags).bind fun t ht => ?_
    have hct := ht.clean hc
    refine .after (rowRaw_yields hct (ht.rowIs ht.cis ht.acc row)) ?_
    exact .after (tokenScale_yields hct (ht.scaleIs ht.cis scale)) (reaches_pure ht)
  all_goals
    subst h
    exact .after (rowRaw_yields hc row) (reaches_pure (.refl _ s))

end

end Sys2Proof.Machine
end

section
/-! ### How a step begins and ends -/
namespace Sys2Proof.Machine

section
variable {g : Nat} {s t : State} {a : At} {st : PlanStep} {α : Type} {pick : PlanStep → Option α}
  {body : At → α → Eng Bool}

/-- A place stands on the core that it was asked for, and its command is in flight. -/
theorem of_at? (h : at? s g = some a) : a.core = g ∧ s.cmd? a.u = some a.cmd := by
  unfold at? at h
  split at h
  · cases h
  next c hc =>
    have found : ∃ u, s.cmd? u = some c := by
      unfold runningOn at hc
      split at hc
      · exact ⟨_, hc⟩
      · cases hc
    obtain ⟨u, found⟩ := found
    have uid : c.uid = u := cmd?_uid found
    split at h
    · obtain ⟨p, -, h⟩ := Option.bind_eq_some_iff.1 h
      obtain ⟨k, -, rfl⟩ := Option.map_eq_some_iff.1 h
      exact ⟨rfl, by rw [uid]; exact found⟩
    · cases h

theorem onStep_parked {op : α} (hs : s.dev.mode = .serving) (ha : at? s g = some a) (hst : stepAt s a = some st)
    (hp : pick st = some op) (parked : parkedStep s a st = true) : onStep g s pick body = advance a s := by
  simp [onStep, ha, hst, hp, State.serving, hs, parked]

theorem onStep_not_serving (hs : s.dev.mode ≠ .serving) : onStep g s pick body = s := by
  have serving : s.serving = false := by simpa [State.serving] using hs
  unfold onStep
  split
  · rfl
  split
  · rfl
  split
  · rfl
  · rw [serving]
    rfl

theorem onStep_vacant (ha : at? s g = none) : onStep g s pick body = s := by simp [onStep, ha]

theorem onStep_otherStep (ha : at? s g = some a) (h : ∀ st, stepAt s a = some st → pick st = none) :
    onStep g s pick body = s := by
  unfold onStep
  rw [ha]
  dsimp only
  split
  · rfl
  next st hst => rw [h st hst]

theorem onStep_yields {op : α} (h : StandsAt g a st s) (hp : pick st = some op)
    (hb : Yields (body a op) (holdPort a st s) true t) : onStep g s pick body = advance a t := by
  have goes : Yields (do
      modS (holdPort a st)
      let on ← body a op
      if on then modS (advance a) else pure ()) s () (advance a t) :=
    (yields_modS _ s).bind (hb.bind (yields_modS (advance a) t))
  simpa [onStep, h.engaged.runs, h.next, hp, State.serving, h.engaged.serves, h.live] using goes.run

/-- The row of a step has the frame of all rows: it picks out the steps that it carries out. -/
theorem exec_eq_onStep {i : Instr} (h : carriesOut g i st) : ∃ (α : Type) (pick : PlanStep → Option α)
    (body : At → α → Eng Bool), (∀ s, exec i s = .next (onStep g s pick body)) ∧
      ∀ st, (pick st).isSome = true ↔ carriesOut g i st := by
  unfold carriesOut at h
  split at h
  case h_1 => subst h; exact ⟨_, asMatmul, _, fun _ => rfl, fun st => by cases st <;> simp [asMatmul, carriesOut]⟩
  case h_2 => subst h; exact ⟨_, asNarrow, _, fun _ => rfl, fun st => by cases st <;> simp [asNarrow, carriesOut]⟩
  case h_3 => subst h; exact ⟨_, asRecur, _, fun _ => rfl, fun st => by cases st <;> simp [asRecur, carriesOut]⟩
  case h_4 => subst h; exact ⟨_, asConv, _, fun _ => rfl, fun st => by cases st <;> simp [asConv, carriesOut]⟩
  case h_5 => subst h; exact ⟨_, asCrop, _, fun _ => rfl, fun st => by cases st <;> simp [asCrop, carriesOut]⟩
  case h_6 => subst h; exact ⟨_, asArgmax, _, fun _ => rfl, fun st => by cases st <;> simp [asArgmax, carriesOut]⟩
  case h_7 => subst h; exact ⟨_, asGumbel, _, fun _ => rfl, fun st => by cases st <;> simp [asGumbel, carriesOut]⟩
  case h_8 => subst h; exact ⟨_, asNoise, _, fun _ => rfl, fun st => by cases st <;> simp [asNoise, carriesOut]⟩
  case h_9 => subst h; exact ⟨_, asAttention, _, fun _ => rfl, fun st => by cases st <;> simp [asAttention, carriesOut]⟩
  case h_10 => subst h; exact ⟨_, asFloatWait, _, fun _ => rfl, fun st => by cases st <;> simp [asFloatWait, carriesOut]⟩
  case h_11 => subst h; exact ⟨_, asSiphon, _, fun _ => rfl, fun st => by cases st <;> simp [asSiphon, carriesOut]⟩
  case h_12 => subst h; exact ⟨_, asPump, _, fun _ => rfl, fun st => by cases st <;> simp [asPump, carriesOut]⟩
  case h_13 => subst h; exact ⟨_, asPump, _, fun _ => rfl, fun st => by cases st <;> simp [asPump, carriesOut]⟩
  case h_14 => subst h; exact ⟨_, asWrite, _, fun _ => rfl, fun st => by cases st <;> simp [asWrite, carriesOut]⟩
  case h_15 => subst h; exact ⟨_, asRead, _, fun _ => rfl, fun st => by cases st <;> simp [asRead, carriesOut]⟩
  case h_16 => exact h.elim

theorem answers_parked {i : Instr} (hi : carriesOut g i st) (hs : s.dev.mode = .serving) (ha : at? s g = some a)
    (hst : stepAt s a = some st) (parked : parkedStep s a st = true) : Answers i s (advance a s) := by
  obtain ⟨_, pick, _, run, picks⟩ := exec_eq_onStep hi
  obtain ⟨op, hp⟩ := Option.isSome_iff_exists.1 ((picks st).2 hi)
  rw [Answers, run, onStep_parked hs ha hst hp parked]

theorem answers_otherRow {i : Instr} (hi : ∃ st, carriesOut g i st) (h : s.dev.mode ≠ .serving ∨ at? s g = none ∨
    (at? s g = some a ∧ ∀ st, stepAt s a = some st → ¬ carriesOut g i st)) : Answers i s s := by
  obtain ⟨st, hi⟩ := hi
  obtain ⟨_, pick, _, run, picks⟩ := exec_eq_onStep hi
  rw [Answers, run]
  rcases h with h | h | ⟨ha, h⟩
  · rw [onStep_not_serving h]
  · rw [onStep_vacant h]
  · rw [onStep_otherStep ha fun st hst => by simpa using (picks st).not.2 (h st hst)]

/-! #### The end of a step -/

theorem advance_rest (a : At) (s : State) : advance a s = { s with cores := (advance a s).cores } := by
  unfold advance
  dsimp only
  split
  · split <;> rfl
  · rfl

section
variable (a : At) (s : State)
@[simp] theorem advance_cis : (advance a s).cis = s.cis := by rw [advance_rest]
@[simp] theorem advance_acc : (advance a s).acc = s.acc := by rw [advance_rest]
@[simp] theorem advance_perf : (advance a s).perf = s.perf := by rw [advance_rest]
@[simp] theorem advance_inflight : (advance a s).inflight = s.inflight := by rw [advance_rest]
@[simp] theorem advance_loops : (advance a s).loops = s.loops := by rw [advance_rest]
end

theorem advance_core_of_ne (a : At) {h : Nat} (hh : h ≠ a.core) (s : State) : (advance a s).core h = s.core h := by
  have moved : (s.modCore a.core fun c => { c with pos := c.pos + 1 }).core h = s.core h := by
    rw [core_modCore, if_neg hh]
  unfold advance
  dsimp only
  split
  · split
    · exact moved
    · rw [core_modCore, if_neg hh, moved]
  · rw [core_modCore, if_neg hh, moved]

theorem advance_core (a : At) (s : State) : ∃ w p, (advance a s).core a.core = { s.core a.core with
    pos := (s.core a.core).pos + 1, wideHolder := w, phaseRows := p } := by
  have ended (c : Core) : ∃ w p, Core.endPhase c = { c with wideHolder := w, phaseRows := p } := by
    unfold Core.endPhase
    split <;> exact ⟨_, _, rfl⟩
  obtain ⟨w, p, e⟩ := ended { s.core a.core with pos := (s.core a.core).pos + 1 }
  unfold advance
  dsimp only
  split
  · split
    · exact ⟨_, _, by rw [core_modCore, if_pos rfl]⟩
    · exact ⟨w, p, by rw [core_modCore, if_pos rfl, core_modCore, if_pos rfl, e]⟩
  · exact ⟨w, p, by rw [core_modCore, if_pos rfl, core_modCore, if_pos rfl, e]⟩

/-- A step that counts its cycles and goes on is done. -/
theorem Within.stepDone (h : Within a.core s t) (n k : Nat) : StepDone a.core s (advance a (t.perfAdd a.core n k)) := by
  obtain ⟨w, p, e⟩ := advance_core a (t.perfAdd a.core n k)
  have core (c : Nat) : (t.perfAdd a.core n k).core c = t.core c := rfl
  rw [core, h.own] at e
  refine ⟨?_, ?_, fun c hc => ?_, ?_, ?_⟩
  · have only := congrArg (fun x : State => { x with
      perf := (t.perfAdd a.core n k).perf, cores := (advance a (t.perfAdd a.core n k)).cores }) h.only
    rw [advance_rest]
    exact only
  · rw [advance_inflight]
    exact h.uids
  · rw [advance_core_of_ne a hc, core, h.others c hc]
  · rw [e]
  · rw [e]

theorem Within.counted (h : Within a.core s t) {n : Nat} (hn : n < 2) (k : Nat) :
    tget (advance a (t.perfAdd a.core n k)).perf (16 * a.core + n) 0 = ctrAdd (tget s.perf (16 * a.core + n) 0) k := by
  rw [advance_perf, tget_perfAdd, if_pos rfl, h.busy n hn]

/-- A body that has counted its cycles: P holds of the state before the count. -/
def Ends (a : At) (s : State) (n k : Nat) (P : State → Prop) (t : State) : Prop :=
  ∃ r, t = r.perfAdd a.core n k ∧ Within a.core s r ∧ P r

theorem reaches_counted {P : State → Prop} {n k : Nat} (h : Within a.core s t) (p : P t) :
    Reaches (modS (fun s => s.perfAdd a.core n k)) t () (Ends a s n k P) := (yields_modS _ t).reaches ⟨t, rfl, h, p⟩

theorem reaches_count {P : State → Prop} {n k : Nat} (h : Within a.core s t) (p : P t) :
    Reaches (modS (fun s => s.perfAdd a.core n k) >>= fun _ => pure true) t true (Ends a s n k P) :=
  (reaches_counted h p).bind fun _ => reaches_pure

/-- A step whose body ends so is done, and its cycles are counted. -/
theorem StandsAt.done {P : State → Prop} {op : α} {i : Instr} {n k : Nat} (h : StandsAt g a st s) (hg : a.core = g)
    (hi : ∀ s, exec i s = .next (onStep g s pick body)) (hp : pick st = some op) (hn : n < 2)
    (hb : Reaches (body a op) (holdPort a st s) true (Ends a s n k P)) :
    ∃ t, Answers i s t ∧ StepDone g s t ∧ tget t.perf (16 * g + n) 0 = ctrAdd (tget s.perf (16 * g + n) 0) k ∧
      ∃ r, P r ∧ t.cis = r.cis ∧ t.acc = r.acc ∧ t.inflight = r.inflight ∧ t.loops = r.loops ∧
        (t.core g).heldSums = (r.core g).heldSums := by
  subst hg
  obtain ⟨_, hy, r, rfl, within, p⟩ := hb
  refine ⟨_, (hi s).trans (congrArg _ (onStep_yields h hp hy)), within.stepDone n k, within.counted hn k, r, p, ?_⟩
  obtain ⟨w, p, core⟩ := advance_core a (r.perfAdd a.core n k)
  rw [core]
  simp [State.perfAdd, State.core]

end

/-! #### What is counted in the command and the loop -/

/-- A command and a loop without their saturations. -/
def satlessCmd (c : Cmd) : Cmd := { c with sat := 0 }
def satlessLoop (x : Loop) : Loop := { x with satBlock := 0 }

/-- Nothing but the step's own core, its counts of other things than its cycles, and saturations have moved. -/
structure Tallied (g : Nat) (s t : State) : Prop extends Within g s t where
  cis : t.cis = s.cis
  acc : t.acc = s.acc
  cmds : t.inflight.map satlessCmd = s.inflight.map satlessCmd
  satless : ∀ l, (tget? t.loops l).map satlessLoop = (tget? s.loops l).map satlessLoop
  held : (t.core g).heldSums = (s.core g).heldSums

section
variable {g : Nat} {r s t : State} {a : At}

theorem Tallied.refl (g : Nat) (s : State) : Tallied g s s := ⟨.refl g s, rfl, rfl, rfl, fun _ => rfl, rfl⟩

theorem Tallied.trans (h : Tallied g r s) (k : Tallied g s t) : Tallied g r t :=
  ⟨h.toWithin.trans k.toWithin, k.cis.trans h.cis, k.acc.trans h.acc, k.cmds.trans h.cmds,
    fun l => (k.satless l).trans (h.satless l), k.held.trans h.held⟩

theorem CoreOnly.tallied (h : CoreOnly g s t) : Tallied g s t :=
  ⟨h.toWithin, h.cis, h.acc, by rw [h.rest], fun _ => by rw [h.rest], h.held⟩

theorem tallied_countClash (k : Clash) (s : State) : Tallied g s (countClash g k s) := by
  have count {t : State} (h : Tallied g s t) {m : Nat} (hm : 2 ≤ m) (n : Nat) : Tallied g s (t.perfAdd g m n) :=
    h.trans ⟨within_perfAdd hm n t, rfl, rfl, rfl, fun _ => rfl, rfl⟩
  unfold countClash
  extract_lets s1 s2
  have h1 : Tallied g s s1 := by
    unfold s1
    split
    · exact (coreOnly_modCore (fun _ => rfl) s).tallied
    · exact .refl g s
  have h2 : Tallied g s s2 := by unfold s2; split; exacts [count h1 (by omega) _, h1]
  split; exacts [count h2 (by omega) _, h2]

theorem tallied_countSat (u n : Nat) (s : State) : Tallied g s (countSat u n s) where
  toWithin := within_modCmd (f := fun c => { c with sat := satAdd 32 c.sat n }) (fun _ => rfl) s
  cis := rfl
  acc := rfl
  cmds := by
    simp only [countSat, State.modCmd, List.map_map]
    exact List.map_congr_left fun c _ => by simp only [Function.comp]; split <;> rfl
  satless _ := rfl
  held := rfl

theorem tallied_satBlock (l n : Nat) (s : State) :
    Tallied g s (s.modLoop l fun x => { x with satBlock := satAdd 32 x.satBlock n }) where
  toWithin := within_modLoop (f := fun x => { x with satBlock := satAdd 32 x.satBlock n }) (fun _ => rfl) s
  cis := rfl
  acc := rfl
  cmds := rfl
  satless k := by
    simp only [State.modLoop, tget?_tmod]
    split
    · cases tget? s.loops k <;> rfl
    · rfl
  held := rfl

theorem saturate_reaches (a : At) (n : Nat) (s : State) : Reaches (saturate a n) s () (Tallied a.core s) := by
  refine (yields_modS _ s).reaches ?_
  split
  · exact .refl _ s
  · dsimp only
    have h := tallied_countSat (g := a.core) a.u n s
    split
    · split
      · exact h.trans (tallied_satBlock ..)
      · exact h
    · exact h

theorem Tallied.ofCmd {α : Type} (h : Tallied g s t) (u : Nat) {f : Cmd → α} (hf : ∀ c, f (satlessCmd c) = f c) :
    (t.cmd? u).map f = (s.cmd? u).map f := by
  have e := congrArg (List.find? fun c => c.uid == u) h.cmds
  rw [find_map_uid u satlessCmd fun _ => rfl, find_map_uid u satlessCmd fun _ => rfl] at e
  have e' := congrArg (Option.map f) e
  simp only [Option.map_map, Function.comp_def, hf] at e'
  exact e'

theorem Tallied.loopOf {α : Type} (h : Tallied g s t) (a : At) {f : Loop → α}
    (hf : ∀ x, f (satlessLoop x) = f x) : (loopOfAt t a).map f = (loopOfAt s a).map f := by
  unfold loopOfAt loopOfCmd
  split
  · cases a.cmd.object with
    | none => rfl
    | some l =>
      have e := congrArg (Option.map f) (h.satless l)
      simp only [Option.map_map, Function.comp_def, hf] at e
      exact e
  · rfl

theorem drawPos_eq (s : State) (a : At) : drawPos s a =
    ((loopOfAt s a).map fun l => l.workPos).getD (((s.cmd? a.u).map fun c => c.pos).getD a.cmd.pos) := by
  unfold drawPos
  cases loopOfAt s a <;> cases s.cmd? a.u <;> rfl

theorem blocksOf_eq (s : State) (a : At) : blocksOf s a =
    ((loopOfAt s a).map fun l => l.workBlocks).getD (((s.cmd? a.u).map fun c => c.blocks).getD a.cmd.blocks) := by
  unfold blocksOf
  cases loopOfAt s a <;> cases s.cmd? a.u <;> rfl

theorem tempsOf_eq (s : State) (a : At) : tempsOf s a =
    ((loopOfAt s a).map fun l => l.temps).getD (((s.cmd? a.u).map fun c => c.temps).getD a.cmd.temps) := by
  unfold tempsOf
  cases loopOfAt s a <;> cases s.cmd? a.u <;> rfl

theorem Tallied.drawPos_eq (h : Tallied g s t) (a : At) : drawPos t a = drawPos s a := by
  rw [Machine.drawPos_eq, Machine.drawPos_eq, h.loopOf a (f := fun l => l.workPos) fun _ => rfl,
    h.ofCmd a.u (f := fun c => c.pos) fun _ => rfl]

theorem Tallied.blocksOf_eq (h : Tallied g s t) (a : At) : blocksOf t a = blocksOf s a := by
  rw [Machine.blocksOf_eq, Machine.blocksOf_eq, h.loopOf a (f := fun l => l.workBlocks) fun _ => rfl,
    h.ofCmd a.u (f := fun c => c.blocks) fun _ => rfl]

theorem Tallied.tempsOf_eq (h : Tallied g s t) (a : At) : tempsOf t a = tempsOf s a := by
  rw [Machine.tempsOf_eq, Machine.tempsOf_eq, h.loopOf a (f := fun l => l.temps) fun _ => rfl,
    h.ofCmd a.u (f := fun c => c.temps) fun _ => rfl]

end

end Sys2Proof.Machine
end

section
/-! ### NOISE and ARGMAX -/
namespace Sys2Proof.Machine

section
variable {g : Nat} {s t : State} {a : At}

/-- A step on its own core. -/
theorem StandsAt.core_eq {st : PlanStep} (h : StandsAt g a st s) : a.core = g := (of_at? h.engaged.runs).1

theorem StandsAt.clean {st : PlanStep} (h : StandsAt g a st s) : Clean s := h.engaged.clean

/-- The port is set when a step issues. -/
theorem StandsAt.holdPort {st : PlanStep} (_ : StandsAt g a st s) : CoreOnly a.core s (holdPort a st s) :=
  coreOnly_holdPort st s

/-- NOISE writes one row. -/
theorem noise_done {i o : Nat} {ki ko : List Nat} (h : StandsAt g a (.noise i o) s) (hi : RowAt s a i 0 64 ki)
    (ho : RowAt s a o 0 64 ko) : ∃ t, Answers (.noise g) s t ∧ StepDone g s t ∧ t.cis = s.cis ∧
      tget t.perf (16 * g + 1) 0 = ctrAdd (tget s.perf (16 * g + 1) 0) 1 ∧
      KeysWritten ko ((valuesAt s ki).map fun v => (convF fp32 c48 (noiseOf (v % 2 ^ 24))).1) s t := by
  have port := h.holdPort
  have hc := port.clean h.clean
  have hvs : (valuesAt (Machine.holdPort a (.noise i o) s) ki) = valuesAt s ki := port.valuesAt_eq port.acc ki
  have length : ((valuesAt s ki).map fun v => (convF fp32 c48 (noiseOf (v % 2 ^ 24))).1).length = 64 := by
    simp [valuesAt, hi.length]
  obtain ⟨t, answer, done, counted, r, ⟨hcis, hacc⟩, tcis, tacc, -⟩ := h.done (i := .noise g) (pick := asNoise) (op := (i, o))
    (n := 1) (k := 1) h.core_eq (fun _ => rfl) rfl (by omega) (P := fun r => r.cis = s.cis ∧
      r.acc = putValues ko ((valuesAt s ki).map fun v => (convF fp32 c48 (noiseOf (v % 2 ^ 24))).1) s.acc) <| by
    refine .after (accLoad_yields hc (port.rowAt hi)) ?_
    rw [hvs]
    refine .after (accStore_yields (ks := ko) hc (by rw [length]; exact port.rowAt ho)) ?_
    exact reaches_count (port.toWithin.trans (within_acc _ _)) ⟨port.cis, by rw [port.acc]⟩
  exact ⟨t, answer, done, tcis.trans hcis, counted,
    keysWritten_putValues ho.nodup (by rw [ho.length, length]) (tacc.trans hacc)⟩

end

/-! #### The winner of a row -/

/-- The number that a finite value is. -/
def valueOf (s : Bool) (m : Nat) (e : Int) : ℚ := sgn s m * 2 ^ e

/-- A number's place in the order of R185: NaN above all, and the others as numbers. -/
def placeOf : Fl → ℕ ×ₗ ℚ
  | .nan => toLex (3, 0)
  | .inf s => toLex (if s then 0 else 2, 0)
  | .fin s m e => toLex (1, valueOf s m e)

/-- Comparing after a shift to the lower exponent compares the numbers. -/
theorem sgn_shift_lt {s t : Bool} {m n : Nat} {e f : Int} :
    sgn s (m <<< (e - min e f).toNat) < sgn t (n <<< (f - min e f).toNat) ↔
      valueOf s m e < valueOf t n f := by
  unfold valueOf
  have shifted (b : Bool) (k : Nat) {x : Int} (hx : min e f ≤ x) :
      (sgn b k : ℚ) * 2 ^ x = (sgn b (k <<< (x - min e f).toNat) : ℚ) * 2 ^ (min e f) := by
    obtain ⟨d, rfl⟩ := Int.le.dest hx
    have hd : (min e f + (d : Int) - min e f).toNat = d := by omega
    rw [hd, zpow_add₀ two_ne_zero, zpow_natCast, Nat.shiftLeft_eq]
    cases b <;> simp only [sgn, Bool.false_eq_true, if_true, if_false] <;> push_cast <;> ring
  rw [shifted s m (min_le_left e f), shifted t n (min_le_right e f), mul_lt_mul_iff_of_pos_right (by positivity)]
  exact Int.cast_lt.symm

theorem beats_iff (a b : Fl) : beats a b = true ↔ placeOf b < placeOf a := by
  rcases a with _ | (_ | _) | _ <;> rcases b with _ | (_ | _) | _ <;>
    simp [beats, Fl.lt, placeOf, sgn_shift_lt, Prod.Lex.toLex_lt_toLex]

/-- The candidate that wins at the end is one of the row: no channel beats it, and it beats those before it. -/
theorem winnerFrom_spec {all : List Fl} {d : Fl} (xs : List Fl) (i w : Nat) (hi : i + xs.length = all.length)
    (hx : ∀ j < xs.length, xs.getD j d = all.getD (i + j) d) (hw : w < i)
    (none : ∀ j < i, placeOf (all.getD j d) ≤ placeOf (all.getD w d))
    (first : ∀ j < w, placeOf (all.getD j d) < placeOf (all.getD w d)) :
    let v := winnerFrom xs i w (all.getD w d)
    v < all.length ∧ (∀ j < all.length, placeOf (all.getD j d) ≤ placeOf (all.getD v d)) ∧
      ∀ j < v, placeOf (all.getD j d) < placeOf (all.getD v d) := by
  induction xs generalizing i w with
  | nil =>
    obtain rfl : i = all.length := hi
    exact ⟨hw, none, first⟩
  | cons x xs ih =>
    simp only [List.length_cons] at hi hx
    have head : x = all.getD i d := hx 0 (by omega)
    have tail : ∀ j < xs.length, xs.getD j d = all.getD (i + 1 + j) d := fun j hj => by
      have e := hx (j + 1) (by omega)
      rwa [show i + (j + 1) = i + 1 + j by omega] at e
    simp only [winnerFrom, head, beats_iff]
    split
    next better =>
      have below : ∀ j < i, placeOf (all.getD j d) < placeOf (all.getD i d) := fun j hj => (none j hj).trans_lt better
      refine ih (i + 1) i (by omega) tail (by omega) (fun j hj => ?_) below
      obtain rfl | hj := Nat.eq_or_lt_of_le (Nat.le_of_lt_succ hj)
      · exact le_rfl
      · exact (below j hj).le
    next notBetter =>
      refine ih (i + 1) w (by omega) tail (by omega) (fun j hj => ?_) first
      obtain rfl | hj := Nat.eq_or_lt_of_le (Nat.le_of_lt_succ hj)
      · exact not_lt.1 notBetter
      · exact none j hj

/-- The lowest-indexed channel that no other beats (R185). -/
theorem winner_spec {xs : List Fl} (h : 0 < xs.length) (d : Fl) : winner xs < xs.length ∧
    (∀ i < xs.length, beats (xs.getD i d) (xs.getD (winner xs) d) = false) ∧
    ∀ i < winner xs, beats (xs.getD (winner xs) d) (xs.getD i d) = true := by
  obtain _ | ⟨x, xs⟩ := xs
  · simp at h
  have spec := winnerFrom_spec (all := x :: xs) (d := d) xs 1 0 (by simp [Nat.add_comm])
    (fun j _ => by rw [Nat.add_comm, List.getD_cons_succ]) (by omega)
    (fun j hj => by rw [Nat.lt_one_iff.1 hj]) (fun j hj => absurd hj (Nat.not_lt_zero j))
  simp only [Bool.eq_false_iff, ne_eq, beats_iff, not_lt]
  exact spec

/-- ARGMAX writes the index of the winner, and its value where the step says so. -/
theorem argmax_done {g : Nat} {s : State} {a : At} {op : ArgmaxOp} {vs : List Nat} {xs : List Fl}
    (h : StandsAt g a (.argmax op) s) (hv : RowIs s a op.src op.channels vs) (hx : ValuesAre s a op.src op.channels xs)
    (ho : Writable s a op.outOff 2)
    (hw : ∀ off, op.valueOff = some off → Writable s a off (valueBytes op.src (vs.getD (winner xs) 0)).length) :
    ∃ t, Answers (.argmax g) s t ∧ StepDone g s t ∧ t.acc = s.acc ∧
      tget t.perf (16 * g + 1) 0 = ctrAdd (tget s.perf (16 * g + 1) 0) (cdiv op.channels 64 + 6) ∧
      t.cis = (match op.valueOff with
        | some off => ownWrite s a off (valueBytes op.src (vs.getD (winner xs) 0))
            (ownWrite s a op.outOff (leBytes 2 (winner xs)) s.cis)
        | none => ownWrite s a op.outOff (leBytes 2 (winner xs)) s.cis) := by
  have port := h.holdPort
  have hc := port.clean h.clean
  obtain ⟨t, answer, done, counted, r, ⟨hcis, hacc⟩, tcis, tacc, -⟩ := h.done (i := .argmax g) (pick := asArgmax) (op := op)
    (n := 1) (k := cdiv op.channels 64 + 6) h.core_eq (fun _ => rfl) rfl (by omega)
    (P := fun r => r.cis = (match op.valueOff with
        | some off => ownWrite s a off (valueBytes op.src (vs.getD (winner xs) 0))
            (ownWrite s a op.outOff (leBytes 2 (winner xs)) s.cis)
        | none => ownWrite s a op.outOff (leBytes 2 (winner xs)) s.cis) ∧ r.acc = s.acc) <| by
    refine (rowVals_reaches hc (port.valuesAre port.cis port.acc hx)).bind fun t read => ?_
    have ht := port.trans read
    have hct := ht.clean h.clean
    refine .after (rowRaw_yields hct (ht.rowIs ht.cis ht.acc hv)) ?_
    refine .after (store_yields hct (ht.writable (by simpa using ho))) ?_
    rw [ht.ownWrite_eq, ht.cis]
    have hr := ht.toWithin.trans (within_cis (ownWrite s a op.outOff (leBytes 2 (winner xs)) s.cis) t)
    cases hoff : op.valueOff with
    | none => exact reaches_count hr ⟨rfl, ht.acc⟩
    | some off =>
      refine .after (store_yields (hr.clean h.clean) (hr.writable (hw off hoff))) ?_
      rw [hr.ownWrite_eq]
      exact reaches_count (hr.trans (within_cis _ _)) ⟨rfl, ht.acc⟩
  exact ⟨t, answer, done, tacc.trans hacc, counted, tcis.trans hcis⟩

end Sys2Proof.Machine
end

section
/-! ### Recurrences -/
namespace Sys2Proof.Machine

section
variable {s : State} {a : At}

/-- What one recurrence step computes for lane i, from the keys of its rows: coefficients, states with the residue after
them, input. -/
def recLaneAt (s : State) (r : RecStep) (kc kt : Nat → List Nat) (kx : List Nat) (i : Nat) : List Nat × Nat × Nat :=
  let lane (ks : List Nat) : Nat := (valuesAt s ks).getD i 0
  let n := recStateRows r.kind false
  recLane r.kind r.ef ((List.range (recCoefRows r.kind)).map fun j => lane (kc j))
    ((List.range n).map fun j => lane (kt j)) (if r.ef then lane (kt n) else 0) (lane kx)

theorem length_recLane (kind : Nat) (ef : Bool) (co st : List Nat) (res x : Nat) :
    (recLane kind ef co st res x).1.length = recStateRows kind false := by
  unfold recLane recStateRows
  dsimp only
  split
  · rfl
  · split <;> rfl

/-- Rows written one after the other under their keys. -/
def putRows (kt : Nat → List Nat) (row : Nat → List Nat) (n : Nat) (m : Table (BitVec 48)) : Table (BitVec 48) :=
  (List.range n).foldl (fun m j => putValues (kt j) (row j) m) m

theorem putRows_succ (kt row : Nat → List Nat) (n : Nat) (m : Table (BitVec 48)) :
    putRows kt row (n + 1) m = putValues (kt n) (row n) (putRows kt row n m) := by
  simp [putRows, List.range_succ]

theorem tget_putRows_notMem {kt row : Nat → List Nat} {n k : Nat} (h : ∀ j < n, k ∉ kt j) (m : Table (BitVec 48)) :
    tget (putRows kt row n m) k 0 = tget m k 0 := by
  induction n with
  | zero => rfl
  | succ n ih =>
    rw [putRows_succ, tget_putValues_notMem (h n (by omega)), ih fun j hj => h j (by omega)]

/-- Of rows that share no key each stands as it was written. -/
theorem tget_putRows {kt row : Nat → List Nat} {n : Nat} (hd : ∀ j < n, (kt j).Nodup)
    (hl : ∀ j < n, (kt j).length = (row j).length) (apart : ∀ i j, i < j → j < n → ∀ k ∈ kt i, k ∉ kt j) {i j : Nat}
    (hj : j < n) (hi : i < (kt j).length) (m : Table (BitVec 48)) :
    tget (putRows kt row n m) ((kt j).getD i 0) 0 = BitVec.ofNat 48 ((row j).getD i 0) := by
  induction n with
  | zero => omega
  | succ n ih =>
    rw [putRows_succ]
    obtain rfl | hjn := Nat.eq_or_lt_of_le (Nat.le_of_lt_succ hj)
    · exact tget_putValues (hd j hj) (hl j hj) hi _
    · have mem : (kt j).getD i 0 ∈ kt j := by
        rw [List.getD_eq_getElem?_getD, List.getElem?_eq_getElem hi]
        exact List.getElem_mem hi
      rw [tget_putValues_notMem (apart j n hjn (by omega) _ mem)]
      exact ih (fun j hj => hd j (by omega)) (fun j hj => hl j (by omega)) (fun i j h h' => apart i j h (by omega)) hjn

theorem rowsLoad_yields {row n : Nat} {kt : Nat → List Nat} (hc : Clean s)
    (h : ∀ j < n, RowAt s a (row + j) 0 64 (kt j)) :
    Yields (rowsLoad a row n) s ((List.range n).map fun j => valuesAt s (kt j)) s :=
  mapEng_yields fun j hj => accLoad_yields hc (h j (List.mem_range.1 hj))

theorem eachM_accStore_yields {row : Nat} {kt : Nat → List Nat} {ps : List (Nat × List Nat)} (hc : Clean s)
    (h : ∀ p ∈ ps, RowAt s a (row + p.1) 0 64 (kt p.1) ∧ p.2.length = 64) :
    Yields (eachM (fun p => accStore a (row + p.1) p.2) ps) s ()
      { s with acc := ps.foldl (fun m p => putValues (kt p.1) p.2 m) s.acc } := by
  induction ps generalizing s with
  | nil => rfl
  | cons p ps ih =>
    obtain ⟨hk, hl⟩ := h p List.mem_cons_self
    have within := within_acc (g := a.core) (putValues (kt p.1) p.2 s.acc) s
    exact (accStore_yields hc (by rw [hl]; exact hk)).bind <| ih (within.clean hc) fun q hq =>
      (h q (List.mem_cons_of_mem _ hq)).imp_left within.rowAt

theorem rowsStore_yields {row n : Nat} {kt rows : Nat → List Nat} (hc : Clean s)
    (h : ∀ j < n, RowAt s a (row + j) 0 64 (kt j)) (hl : ∀ j < n, (rows j).length = 64) :
    Yields (rowsStore a row ((List.range n).map rows)) s () { s with acc := putRows kt rows n s.acc } := by
  have pairs : (List.range ((List.range n).map rows).length).zip ((List.range n).map rows) =
      (List.range n).map fun j => (j, rows j) := by
    rw [List.length_map, List.length_range, List.zip_map_right, List.zip_eq_zipWith]
    simp [List.zipWith_self]
  have stored := eachM_accStore_yields (a := a) (row := row) (kt := kt) (ps := (List.range n).map fun j => (j, rows j)) hc
    (by
      simp only [List.forall_mem_map, List.mem_range]
      exact fun j hj => ⟨h j hj, hl j hj⟩)
  unfold rowsStore
  rw [pairs]
  simpa only [putRows, List.foldl_map] using stored

/-- What the step writes in row j of its state: a state of each lane, or in the last row the residues. -/
def recRow (s : State) (r : RecStep) (kc kt : Nat → List Nat) (kx : List Nat) (j : Nat) : List Nat :=
  (List.range 64).map fun i =>
    let o := recLaneAt s r kc kt kx i
    if j < recStateRows r.kind false then o.1.getD j 0 else o.2.1

/-- A recurrence step reads its rows, writes its state and then its output. -/
theorem recStepOf_reaches {r : RecStep} {kc kt : Nat → List Nat} {kx ky : List Nat} (hc : Clean s)
    (coef : ∀ j < recCoefRows r.kind, RowAt s a (r.coef + j) 0 64 (kc j))
    (states : ∀ j < recStateRows r.kind false + b2n r.ef, RowAt s a ((stateArea s a).1 + r.st + j) 0 64 (kt j))
    (hx : RowAt s a r.inp 0 64 kx) (hy : RowAt s a r.out 0 64 ky) :
    Reaches (do recStepOf a r; pure true) s true (Ends a s 1 ((if r.kind = 2 then 2 else 1) + b2n r.ef) fun t =>
      t.cis = s.cis ∧ t.acc = putValues ky ((List.range 64).map fun i => (recLaneAt s r kc kt kx i).2.2)
        (putRows kt (recRow s r kc kt kx) (recStateRows r.kind false + b2n r.ef) s.acc)) := by
  have goes : Reaches (recStepOf a r) s () (Ends a s 1 ((if r.kind = 2 then 2 else 1) + b2n r.ef) fun t =>
      t.cis = s.cis ∧ t.acc = putValues ky ((List.range 64).map fun i => (recLaneAt s r kc kt kx i).2.2)
        (putRows kt (recRow s r kc kt kx) (recStateRows r.kind false + b2n r.ef) s.acc)) := by
    unfold recStepOf
    refine .after (yields_getS s) ?_
    extract_lets w n
    refine .after (rowsLoad_yields hc coef) (.after (rowsLoad_yields hc fun j hj => states j (by omega)) ?_)
    have res : Yields (if r.ef = true then accLoad a (w + n) 0 64 else pure []) s
        (if r.ef then valuesAt s (kt n) else []) s := by
      split
      next ef => exact accLoad_yields hc (states n (by simp [n, ef, b2n]))
      · rfl
    refine .branch (res.reaches (P := (· = s)) rfl) fun t ht => ?_
    subst ht
    refine .after (accLoad_yields hc hx) ?_
    extract_lets +onlyGivenNames out
    have hout : out = (List.range 64).map (recLaneAt t r kc kt kx) := by
      refine List.map_congr_left fun i _ => ?_
      simp only [recLaneAt, List.map_map, Function.comp_def, n]
      split <;> rfl
    have rows : ((List.range n).map fun j => out.map fun o => o.1.getD j 0) =
        (List.range n).map (recRow t r kc kt kx) := by
      refine List.map_congr_left fun j hj => ?_
      have hj : j < recStateRows r.kind false := List.mem_range.1 hj
      simp only [hout, recRow, List.map_map, Function.comp_def, hj, if_true]
    have last : (out.map fun o => o.2.1) = recRow t r kc kt kx n := by
      simp only [hout, recRow, List.map_map, Function.comp_def, n, lt_irrefl, if_false]
    have length (j : Nat) : (recRow t r kc kt kx j).length = 64 := by simp [recRow]
    have outs : (out.map fun o => o.2.2) = (List.range 64).map fun i => (recLaneAt t r kc kt kx i).2.2 := by
      rw [hout, List.map_map]
      rfl
    rw [rows, last, outs]
    refine .after (rowsStore_yields hc (fun j hj => states j (by omega)) fun j _ => length j) ?_
    have stored := within_acc (g := a.core) (putRows kt (recRow t r kc kt kx) n t.acc) t
    refine .when (P := (· = { t with acc := putRows kt (recRow t r kc kt kx) (n + b2n r.ef) t.acc })) ?_ fun u hu => ?_
    · split
      next ef =>
        have hn := stored.rowAt (states n (by simp [n, ef, b2n]))
        refine (accStore_yields (stored.clean hc) (by rw [length]; exact hn)).reaches ?_
        rw [ef, show n + b2n true = n + 1 from rfl, putRows_succ]
      next ef =>
        refine reaches_pure ?_
        rw [Bool.eq_false_iff.2 ef]
        rfl
    · subst hu
      have stored := within_acc (g := a.core) (putRows kt (recRow t r kc kt kx) (n + b2n r.ef) t.acc) t
      refine .after (accStore_yields (ks := ky) (stored.clean hc) (by simpa using stored.rowAt hy)) ?_
      simp only [beq_iff_eq]
      exact reaches_counted (stored.trans (within_acc _ _)) ⟨rfl, rfl⟩
  exact goes.bind fun t ht => reaches_pure ht

/-- The exact output of lane i, with the residue where the step feeds it back (R93, R113). -/
def recExactAt (s : State) (r : RecStep) (kc kt : Nat → List Nat) (kx : List Nat) (i : Nat) : Fl :=
  let lane (ks : List Nat) : Nat := (valuesAt s ks).getD i 0
  let n := recStateRows r.kind false
  let plain := recExact r.kind ((List.range (recCoefRows r.kind)).map fun j => decF c48 (lane (kc j)))
    ((List.range n).map fun j => decF c48 (lane (kt j))) (decF c48 (lane kx))
  if r.ef then plain.add (decF c48 (lane (kt n))) else plain

/-- The new states of lane i, with its residue after them. -/
def recNextAt (s : State) (r : RecStep) (kc kt : Nat → List Nat) (kx : List Nat) (i : Nat) : List Nat :=
  let lane (ks : List Nat) : Nat := (valuesAt s ks).getD i 0
  let y := encF c48 (recExactAt s r kc kt kx i)
  (if r.kind = 0 then [y] else if r.kind = 1 then [lane kx, y] else [lane kx, lane (kt 0), y, lane (kt 2)]) ++
    [residueOf (recExactAt s r kc kt kx i) y]

section
variable (s : State) (r : RecStep) (kc kt : Nat → List Nat) (kx : List Nat) (i : Nat)

theorem recLaneAt_exact : recLaneAt s r kc kt kx i =
    ((recNextAt s r kc kt kx i).dropLast,
      if r.ef then residueOf (recExactAt s r kc kt kx i) (encF c48 (recExactAt s r kc kt kx i)) else 0,
      encF c48 (recExactAt s r kc kt kx i)) := by
  have states : ∀ e, ((List.range (recStateRows r.kind false)).map fun j => (valuesAt s (kt j)).getD i 0).getD e 0 =
      if e < recStateRows r.kind false then (valuesAt s (kt e)).getD i 0 else 0 := fun e => by
    simp only [List.getD_eq_getElem?_getD, List.getElem?_map]
    split <;> simp_all
  have exact : (if r.ef = true then
      (recExact r.kind ((List.range (recCoefRows r.kind)).map fun j => decF c48 ((valuesAt s (kc j)).getD i 0))
        ((List.range (recStateRows r.kind false)).map fun j => decF c48 ((valuesAt s (kt j)).getD i 0))
        (decF c48 ((valuesAt s kx).getD i 0))).add
          (decF c48 (if r.ef then (valuesAt s (kt (recStateRows r.kind false))).getD i 0 else 0))
      else recExact r.kind ((List.range (recCoefRows r.kind)).map fun j => decF c48 ((valuesAt s (kc j)).getD i 0))
        ((List.range (recStateRows r.kind false)).map fun j => decF c48 ((valuesAt s (kt j)).getD i 0))
        (decF c48 ((valuesAt s kx).getD i 0))) = recExactAt s r kc kt kx i := by
    unfold recExactAt
    split <;> rfl
  simp only [recLaneAt, recLane, List.map_map, Function.comp_def, exact, states, recNextAt, List.dropLast_concat,
    beq_iff_eq]
  congr 1
  split
  · rfl
  · split
    · rfl
    next h0 h1 => simp [recStateRows, b2n, h0, h1]

theorem recRow_getD {j : Nat} (hi : i < 64) (hj : j < recStateRows r.kind false + b2n r.ef) :
    (recRow s r kc kt kx j).getD i 0 = (recNextAt s r kc kt kx i).getD j 0 := by
  have length : (recNextAt s r kc kt kx i).dropLast.length = recStateRows r.kind false := by
    have e := congrArg (fun o => o.1.length) (recLaneAt_exact s r kc kt kx i)
    exact e.symm.trans (length_recLane ..)
  have split : recNextAt s r kc kt kx i = (recNextAt s r kc kt kx i).dropLast ++
      [residueOf (recExactAt s r kc kt kx i) (encF c48 (recExactAt s r kc kt kx i))] := by
    simp [recNextAt]
  have row : (recRow s r kc kt kx j).getD i 0 = if j < recStateRows r.kind false then
      (recLaneAt s r kc kt kx i).1.getD j 0 else (recLaneAt s r kc kt kx i).2.1 := by
    simp [recRow, List.getD_eq_getElem?_getD, hi]
  rw [row, recLaneAt_exact]
  split
  next hn => rw [split, List.getD_append _ _ _ _ (by rw [length]; exact hn), ← split]
  next hn =>
    have ef : r.ef = true := by
      by_contra ef
      rw [Bool.not_eq_true] at ef
      simp only [ef, b2n] at hj
      simp at hj
      omega
    have hj : j = recStateRows r.kind false := by
      simp only [ef, b2n] at hj
      simp at hj
      omega
    rw [split, List.getD_append_right _ _ _ _ (by rw [length, hj]), length, hj]
    simp [ef]

end

/-- A recurrence writes its output, its states and its residues, and no other value. -/
theorem recur_done {g : Nat} {slot : Option Nat} {word : W64} {kc kt : Nat → List Nat} {kx ky : List Nat}
    (h : StandsAt g a (.recur slot word) s)
    (coef : ∀ j < recCoefRows (recOf word).kind, RowAt s a ((recOf word).coef + j) 0 64 (kc j))
    (states : ∀ j < recStateRows (recOf word).kind false + b2n (recOf word).ef,
      RowAt s a ((stateArea s a).1 + (recOf word).st + j) 0 64 (kt j))
    (apart : ∀ i j, i < j → j < recStateRows (recOf word).kind false + b2n (recOf word).ef → ∀ k ∈ kt i, k ∉ kt j)
    (hx : RowAt s a (recOf word).inp 0 64 kx) (hy : RowAt s a (recOf word).out 0 64 ky) :
    ∃ t, Answers (.recStep g) s t ∧ StepDone g s t ∧ t.cis = s.cis ∧
      tget t.perf (16 * g + 1) 0 = ctrAdd (tget s.perf (16 * g + 1) 0)
        ((if (recOf word).kind = 2 then 2 else 1) + b2n (recOf word).ef) ∧
      (∀ i < 64, tget t.acc (ky.getD i 0) 0 = BitVec.ofNat 48 (encF c48 (recExactAt s (recOf word) kc kt kx i))) ∧
      (∀ j < recStateRows (recOf word).kind false + b2n (recOf word).ef, (∀ k ∈ kt j, k ∉ ky) → ∀ i < 64,
        tget t.acc ((kt j).getD i 0) 0 = BitVec.ofNat 48 ((recNextAt s (recOf word) kc kt kx i).getD j 0)) ∧
      ∀ k, k ∉ ky → (∀ j < recStateRows (recOf word).kind false + b2n (recOf word).ef, k ∉ kt j) →
        tget t.acc k 0 = tget s.acc k 0 := by
  have port := h.holdPort
  have area : stateArea (holdPort a (.recur slot word) s) a = stateArea s a := port.stateArea_eq a
  have same : recLaneAt (holdPort a (.recur slot word) s) (recOf word) kc kt kx = recLaneAt s (recOf word) kc kt kx := by
    funext i
    simp only [recLaneAt, port.valuesAt_eq port.acc]
  have row : recRow (holdPort a (.recur slot word) s) (recOf word) kc kt kx = recRow s (recOf word) kc kt kx := by
    funext j
    simp only [recRow, same]
  obtain ⟨t, answer, done, counted, r, ⟨hcis, hacc⟩, tcis, tacc, -⟩ := h.done (i := .recStep g) (pick := asRecur)
    (op := word) (n := 1) (k := (if (recOf word).kind = 2 then 2 else 1) + b2n (recOf word).ef) h.core_eq (fun _ => rfl)
    rfl (by omega) (P := fun r => r.cis = s.cis ∧
      r.acc = putValues ky ((List.range 64).map fun i => (recLaneAt s (recOf word) kc kt kx i).2.2)
        (putRows kt (recRow s (recOf word) kc kt kx) (recStateRows (recOf word).kind false + b2n (recOf word).ef) s.acc)) <| by
    obtain ⟨t, hy, r, rfl, within, hcis, hacc⟩ := recStepOf_reaches (port.clean h.clean) (fun j hj => port.rowAt (coef j hj))
      (fun j hj => by rw [area]; exact port.rowAt (states j hj)) (port.rowAt hx) (port.rowAt hy)
    rw [port.acc, same, row] at hacc
    exact ⟨_, hy, r, rfl, port.toWithin.trans within, hcis.trans port.cis, hacc⟩
  rw [hacc] at tacc
  refine ⟨t, answer, done, tcis.trans hcis, counted, fun i hi => ?_, fun j hj out i hi => ?_, fun k hk hks => ?_⟩
  · rw [tacc, tget_putValues hy.nodup (by simp [hy.length]) (by rw [hy.length]; exact hi)]
    simp [List.getD_eq_getElem?_getD, hi, recLaneAt_exact]
  · have mem : (kt j).getD i 0 ∈ kt j := by
      have hi : i < (kt j).length := by rw [(states j hj).length]; exact hi
      rw [List.getD_eq_getElem?_getD, List.getElem?_eq_getElem hi]
      exact List.getElem_mem hi
    rw [tacc, tget_putValues_notMem (out _ mem), tget_putRows (fun j hj => (states j hj).nodup)
      (fun j hj => by simp [(states j hj).length, recRow]) apart hj (by rw [(states j hj).length]; exact hi),
      recRow_getD s _ kc kt kx i hi hj]
  · rw [tacc, tget_putValues_notMem hk, tget_putRows_notMem hks]

end

end Sys2Proof.Machine
end

section
/-! ### Draws -/
namespace Sys2Proof.Machine

section
variable {g : Nat} {s t : State} {a : At}

theorem nonceOf_eq (s : State) (a : At) (op : DrawOp) (element : Bool) : nonceOf s a op element =
    ((loopOfAt s a).map fun l => (tget? l.lanes op.slot).getD 0).getD
      (if element then (match (argsOf s a.cmd).chunk with | some (i, _, _) => i | none => a.cmd.p 16 4)
       else a.cmd.p 16 4) := by
  unfold nonceOf slotStream
  cases loopOfAt s a <;> rfl

theorem tokenIndex_eq (s : State) (a : At) (op : DrawOp) : tokenIndex s a op =
    ((loopOfAt s a).map fun l => let st := tget s.streams ((tget? l.lanes op.slot).getD 0) {}
      st.sampleIndex + st.steps - st.markBase).getD
    (match chunkOf s a with
      | some (i, start, mark) => start + op.t - (match mark with
        | some m => if m ≤ start + op.t then m else (tget s.streams i {}).lastMark
        | none => (tget s.streams i {}).lastMark)
      | none => op.t) := by
  unfold tokenIndex slotStream
  cases loopOfAt s a <;> cases chunkOf s a <;> rfl

/-- Lanes in which a draw steps, and by how many bits each (R194, R195). -/
def drawnPos (a : At) (op : DrawOp) (n col count : Nat) (pos : Table Nat) : Table Nat :=
  let column := field op.desc 4 1 == 1
  let rows := cdiv (col + count) 64
  (if column then List.range 64 else [op.slot % 64]).foldl
    (fun t l => tupd t (a.rank * 64 + l) 0 fun p => (p + n * (if column then rows else 64 * rows)) % 2 ^ 57) pos

/-- The context draws by element (R197). -/
def byElement (s : State) (a : At) : Bool := ((s.ctx? a.cmd.ctx).getD {}).element

/-- The key in force: that of the loop's block, or of the context (R204). -/
def drawKey (s : State) (a : At) : Block :=
  match loopOfAt s a with
  | some l => l.key
  | none => ((s.ctx? a.cmd.ctx).getD {}).key

theorem drawKey_eq (s : State) (a : At) :
    drawKey s a = ((loopOfAt s a).map fun l => l.key).getD ((s.ctx? a.cmd.ctx).getD {}).key := by
  unfold drawKey
  cases loopOfAt s a <;> rfl

/-- The bits that a row draws. -/
def drawnBits (s : State) (a : At) (op : DrawOp) (n col count chan : Nat) : List Nat :=
  let key := drawKey s a
  let nonce := nonceOf s a op (byElement s a)
  if byElement s a then
    let e := field op.desc 12 4 + field op.desc 8 4 * tokenIndex s a op + op.base + chan
    (List.range count).map fun c => elementDraw key nonce (field op.desc 0 4) ((e + c) % 2 ^ 64) n
  else
    let column := field op.desc 4 1 == 1
    let laneOf := fun i => if column then i % 64 else op.slot % 64
    let nth := fun i => if column then i / 64 else i
    (List.range count).map fun i => laneDraw key nonce a.rank (laneOf (col + i))
      (tget (drawPos s a) (a.rank * 64 + laneOf (col + i)) 0 + n * nth (col + i)) n

/-- What a row's draws leave. -/
def afterDraws (s : State) (a : At) (op : DrawOp) (n col count : Nat) : State :=
  if byElement s a then s else setDrawPos a (drawnPos a op n col count (drawPos s a)) s

theorem draws_yields (s : State) (a : At) (op : DrawOp) (n col count chan : Nat) :
    Yields (draws a op n col count chan) s (drawnBits s a op n col count chan) (afterDraws s a op n col count) := by
  refine (yields_getS s).bind ?_
  by_cases h : ((s.ctx? a.cmd.ctx).getD {}).element = true
  · simp only [drawnBits, afterDraws, byElement, h, if_true]
    exact yields_pure _ s
  · simp only [drawnBits, afterDraws, byElement, h]
    exact (yields_modS _ s).bind (yields_pure _ _)

theorem argsOf_of_stores (h : t.host = s.host) (hw : t.wellMem = s.wellMem) (hm : t.cis = s.cis) (c : Cmd) :
    argsOf t c = argsOf s c := by
  have peek (v n : Nat) : peekAt t v n = peekAt s v n := by simp only [peekAt, hostRead, h, hw, hm]
  simp only [argsOf, argBytes, peek]

theorem Within.argsOf_eq (h : Within g s t) (hm : t.cis = s.cis) (c : Cmd) : argsOf t c = argsOf s c :=
  argsOf_of_stores (by rw [h.only]) (by rw [h.only]) hm c

theorem argsOf_of_known {c : Cmd} (h : c.argBlock ≠ none ∨ c.opcode ≠ opRun) (s t : State) : argsOf t c = argsOf s c := by
  rcases h with h | h
  · obtain ⟨b, hb⟩ := Option.ne_none_iff_exists'.1 h
    simp only [argsOf, argBytes, hb]
  · simp [argsOf, h]

theorem Within.chunkOf_eq (h : Within g s t) (ha : argsOf t a.cmd = argsOf s a.cmd) : chunkOf t a = chunkOf s a := by
  simp only [chunkOf, ha, h.streams]

theorem Within.byElement_eq (h : Within g s t) (a : At) : byElement t a = byElement s a := by
  simp only [byElement, State.ctx?, h.ctxs]

theorem Within.drawnBits_eq (h : Within g s t) (ha : argsOf t a.cmd = argsOf s a.cmd) (hp : drawPos t a = drawPos s a)
    (op : DrawOp) (n col count chan : Nat) : drawnBits t a op n col count chan = drawnBits s a op n col count chan := by
  have key : drawKey t a = drawKey s a := by
    rw [drawKey_eq, drawKey_eq, h.ofLoop a (f := fun l => l.key) fun _ => rfl]
    simp only [State.ctx?, h.ctxs]
  have nonce (e : Bool) : nonceOf t a op e = nonceOf s a op e := by
    rw [nonceOf_eq, nonceOf_eq, h.ofLoop a (f := fun l => (tget? l.lanes op.slot).getD 0) fun _ => rfl, ha]
  have token : tokenIndex t a op = tokenIndex s a op := by
    rw [tokenIndex_eq, tokenIndex_eq, h.streams, h.chunkOf_eq ha,
      h.ofLoop a (f := fun l => let st := tget s.streams ((tget? l.lanes op.slot).getD 0) {}
        st.sampleIndex + st.steps - st.markBase) fun _ => rfl]
  simp only [drawnBits, h.byElement_eq, key, nonce, token, hp]

theorem within_setDrawPos (pos : Table Nat) (s : State) : Within g s (setDrawPos a pos s) := by
  unfold setDrawPos
  split
  · exact within_modLoop (f := fun x => { x with workPos := pos }) (fun _ => rfl) s
  · exact within_modCmd (f := fun c => { c with pos := pos }) (fun _ => rfl) s

/-- The loop of a place is the one that its command names. -/
theorem object_of_loopOfAt {l : Loop} (h : loopOfAt s a = some l) :
    a.cmd.opcode = opStreamLoop ∧ ∃ k, a.cmd.object = some k ∧ tget? s.loops k = some l := by
  unfold loopOfAt loopOfCmd at h
  split at h
  next op => exact ⟨by simpa using op, Option.bind_eq_some_iff.1 h⟩
  · cases h

theorem drawPos_setDrawPos (h : (s.cmd? a.u).isSome = true) (pos : Table Nat) : drawPos (setDrawPos a pos s) a = pos := by
  unfold setDrawPos
  split
  next l k hl hk =>
    obtain ⟨op, k', hk', found⟩ := object_of_loopOfAt hl
    obtain rfl : k = k' := Option.some.inj (hk.symm.trans hk')
    simp [drawPos, loopOfAt, loopOfCmd, op, hk, State.modLoop, tget?_tmod, found]
  next hno =>
    obtain ⟨c, hc⟩ := Option.isSome_iff_exists.1 h
    have vacant : loopOfAt s a = none := by
      by_contra hl
      obtain ⟨l, hl⟩ := Option.ne_none_iff_exists'.1 hl
      obtain ⟨-, k, hk, -⟩ := object_of_loopOfAt hl
      exact hno l k hl hk
    have still : loopOfAt (s.modCmd a.u fun c => { c with pos := pos }) a = none := vacant
    simp [drawPos, still, cmd?_modCmd, hc]

theorem blocksOf_setDrawPos (pos : Table Nat) (s : State) : blocksOf (setDrawPos a pos s) a = blocksOf s a := by
  unfold setDrawPos
  split
  · rw [blocksOf_eq, blocksOf_eq]
    congr 1
    unfold loopOfAt loopOfCmd
    split
    · cases a.cmd.object with
      | none => rfl
      | some k =>
        simp only [Option.bind_some, State.modLoop, tget?_tmod]
        split
        · cases tget? s.loops k <;> rfl
        · rfl
    · rfl
  · rw [blocksOf_eq, blocksOf_eq, cmd?_modCmd (fun c => { c with pos := pos }) fun _ => rfl]
    cases s.cmd? a.u <;> rfl

theorem setDrawPos_cis (pos : Table Nat) (s : State) : (setDrawPos a pos s).cis = s.cis := by
  unfold setDrawPos
  split <;> rfl

theorem setDrawPos_acc (pos : Table Nat) (s : State) : (setDrawPos a pos s).acc = s.acc := by
  unfold setDrawPos
  split <;> rfl

theorem within_afterDraws (s : State) (a : At) (op : DrawOp) (n col count : Nat) :
    Within g s (afterDraws s a op n col count) := by
  unfold afterDraws
  split
  · exact .refl g s
  · exact within_setDrawPos _ s

section
variable (s a) (op : DrawOp) (n col count : Nat)

theorem afterDraws_cis : (afterDraws s a op n col count).cis = s.cis := by
  unfold afterDraws
  split
  · rfl
  · exact setDrawPos_cis _ s

theorem afterDraws_acc : (afterDraws s a op n col count).acc = s.acc := by
  unfold afterDraws
  split
  · rfl
  · exact setDrawPos_acc _ s

theorem blocksOf_afterDraws : blocksOf (afterDraws s a op n col count) a = blocksOf s a := by
  unfold afterDraws
  split
  · rfl
  · exact blocksOf_setDrawPos _ s

theorem drawPos_afterDraws (h : (s.cmd? a.u).isSome = true) : drawPos (afterDraws s a op n col count) a =
    if byElement s a then drawPos s a else drawnPos a op n col count (drawPos s a) := by
  unfold afterDraws
  split
  · rfl
  · exact drawPos_setDrawPos h _

end

theorem Within.isSome (h : Within g s t) {u : Nat} (hs : (s.cmd? u).isSome = true) : (t.cmd? u).isSome = true := by
  have e := congrArg Option.isSome (h.cmd? u)
  simpa only [Option.isSome_map, hs] using e

/-- The draws of a step that has changed nothing that they look at. -/
theorem draws_reaches {op : DrawOp} {n col count chan : Nat} {bits : List Nat} {r : State} (h : Within g s t)
    (ha : argsOf t a.cmd = argsOf s a.cmd) (hp : drawPos t a = drawPos s a) (hu : (s.cmd? a.u).isSome = true)
    (hd : Yields (draws a op n col count chan) s bits r) :
    Reaches (draws a op n col count chan) t bits fun t' => Within g t t' ∧ t'.cis = t.cis ∧ t'.acc = t.acc ∧
      blocksOf t' a = blocksOf t a ∧ drawPos t' a = drawPos r a := by
  obtain ⟨rfl, rfl⟩ := hd.unique (draws_yields s a op n col count chan)
  rw [← h.drawnBits_eq ha hp]
  refine ⟨_, draws_yields t a op n col count chan, within_afterDraws .., afterDraws_cis .., afterDraws_acc ..,
    blocksOf_afterDraws .., ?_⟩
  rw [drawPos_afterDraws _ _ _ _ _ _ (h.isSome hu), drawPos_afterDraws _ _ _ _ _ _ hu, h.byElement_eq, hp]

/-- GUMBEL_ARGMAX's score of a value and its 24 bits at a temperature (R202). -/
def gumbelScore (src : RowSrc) (temp : Nat) (x : Fl) (k : Nat) : Nat :=
  if badTemp temp || (decF fp32 temp).isZero then (rowConv src fp32 x).1
  else fp32Fma (rowConv src fp32 x).1 (fp32Div fp32One temp) (noiseOf k)

/-- GUMBEL_ARGMAX draws for its channels and writes the index of the highest score. -/
theorem gumbel_done {op : GumbelOp} {xs : List Fl} {ks : List Nat} {r : State} (h : StandsAt g a (.gumbel op) s)
    (hx : ValuesAre s a op.src op.channels xs) (ho : Writable s a op.outOff 2)
    (hd : Yields (draws a op.draw 24 (firstLane op.src) op.channels 0) s ks r) :
    ∃ t, Answers (.gumbelArgmax g) s t ∧ StepDone g s t ∧ t.acc = s.acc ∧ drawPos t a = drawPos r a ∧
      tget t.perf (16 * g + 1) 0 = ctrAdd (tget s.perf (16 * g + 1) 0) (cdiv op.channels 64) ∧
      t.cis = ownWrite s a op.outOff (leBytes 2 (winner ((List.zipWith
        (gumbelScore op.src ((tempsOf s a).getD (op.draw.slot % 64) 0).toNat) xs ks).map (decF fp32)))) s.cis := by
  have port := h.holdPort
  have running : (s.cmd? a.u).isSome = true := by rw [(of_at? h.engaged.runs).2]; rfl
  obtain ⟨t, answer, done, counted, r', ⟨hcis, hacc, hpos⟩, tcis, tacc, tcmds, tloops, -⟩ := h.done (i := .gumbelArgmax g)
    (pick := asGumbel) (op := op) (n := 1) (k := cdiv op.channels 64) h.core_eq (fun _ => rfl) rfl (by omega)
    (P := fun t => t.cis = ownWrite s a op.outOff (leBytes 2 (winner ((List.zipWith
        (gumbelScore op.src ((tempsOf s a).getD (op.draw.slot % 64) 0).toNat) xs ks).map (decF fp32)))) s.cis ∧
      t.acc = s.acc ∧ drawPos t a = drawPos r a) <| by
    refine (rowVals_reaches (port.clean h.clean) (port.valuesAre port.cis port.acc hx)).bind fun t read => ?_
    have ht := (port.trans read).tallied
    refine .after (yields_getS t) ?_
    rw [ht.tempsOf_eq]
    refine (draws_reaches ht.toWithin (ht.argsOf_eq ht.cis _) (ht.drawPos_eq a) running hd).bind fun u hu => ?_
    obtain ⟨drew, ucis, uacc, -, upos⟩ := hu
    extract_lets inv plain ys
    have scores : ys = List.zipWith (gumbelScore op.src ((tempsOf s a).getD (op.draw.slot % 64) 0).toNat) xs ks := by
      unfold ys
      rw [List.zipWith_map_left]
      rfl
    rw [scores]
    refine (saturate_reaches ..).bind fun v hv => ?_
    have hw := ht.toWithin.trans (drew.trans hv.toWithin)
    have vcis : v.cis = s.cis := hv.cis.trans (ucis.trans ht.cis)
    refine .after (store_yields (hw.clean h.clean) (hw.writable (by simpa using ho))) ?_
    rw [hw.ownWrite_eq, vcis]
    exact reaches_count (hw.trans (within_cis _ v)) ⟨rfl, hv.acc.trans (uacc.trans ht.acc), (hv.drawPos_eq a).trans upos⟩
  refine ⟨t, answer, done, tacc.trans hacc, ?_, counted, tcis.trans hcis⟩
  rw [← hpos]
  simp only [drawPos, loopOfAt, loopOfCmd, State.cmd?, tcmds, tloops]

end

end Sys2Proof.Machine
end

section
/-! ### Narrowing -/
namespace Sys2Proof.Machine

section
variable {s r : State} {a : At} {m : Mem} {p : Table Nat}

/-- Where a narrowing stands: the bytes that its cistern holds, the lane positions, and the rest as before the step. -/
structure Stage (a : At) (s : State) (m : Mem) (p : Table Nat) (r : State) : Prop extends Within a.core s r where
  cis : r.cis = m
  acc : r.acc = s.acc
  blocks : blocksOf r a = blocksOf s a
  pos : drawPos r a = p

theorem Tallied.stage (h : Tallied a.core s r) : Stage a s s.cis (drawPos s a) r :=
  ⟨h.toWithin, h.cis, h.acc, h.blocksOf_eq a, h.drawPos_eq a⟩

theorem Stage.tallied {t : State} (h : Stage a s m p r) (k : Tallied a.core r t) : Stage a s m p t :=
  ⟨h.toWithin.trans k.toWithin, k.cis.trans h.cis, k.acc.trans h.acc, (k.blocksOf_eq a).trans h.blocks,
    (k.drawPos_eq a).trans h.pos⟩

theorem Stage.store (h : Stage a s m p r) (hc : Clean s) {off : Nat} {bs : List Byte} (hw : Writable s a off bs.length) :
    Reaches (store a off bs) r () (Stage a s (ownWrite s a off bs m) p) := by
  refine (store_yields (h.clean hc) (h.writable hw)).reaches ⟨h.toWithin.trans (within_cis _ r), ?_, h.acc, h.blocks, h.pos⟩
  rw [h.ownWrite_eq, h.cis]

theorem Stage.saturate (h : Stage a s m p r) (n : Nat) : Reaches (saturate a n) r () (Stage a s m p) := by
  obtain ⟨t, hy, ht⟩ := saturate_reaches a n r
  exact ⟨t, hy, h.tallied ht⟩

/-- What a plan may write it may read. -/
theorem Writable.readable {off n : Nat} (hw : Writable s a off n) :
    Readable s a none off n (mread s.cis (ownAddr s a off) n) := by
  obtain ⟨x, region, fits⟩ := hw
  refine ⟨x, region, fits, ?_⟩
  have own : ownRegion s a = x := by
    simp only [regionFor] at region
    simp [ownRegion, List.getD_eq_getElem?_getD, region]
  rw [ownAddr, own]

theorem Stage.load (h : Stage a s m p r) (hc : Clean s) {off n : Nat} (hw : Writable s a off n) :
    Yields (load a none off n) r (mread m (ownAddr s a off) n) r := by
  have e := load_yields (h.clean hc) (h.writable hw).readable
  rwa [h.cis, show ownAddr r a off = ownAddr s a off by simp only [ownAddr, h.ownRegion_eq]] at e

/-! #### Pieces -/

theorem pieceWrites_cons (q : PieceBytes) (ps : List PieceBytes) (m : Mem) :
    pieceWrites s a (q :: ps) m = pieceWrites s a ps (pieceWrites s a [q] m) := rfl

theorem piecesFit_cons {q : PieceBytes} {ps : List PieceBytes} (h : piecesFit s a (q :: ps)) :
    piecesFit s a [q] ∧ piecesFit s a ps :=
  ⟨fun x hx => h x (List.mem_cons.2 (.inl (List.mem_singleton.1 hx))), fun x hx => h x (List.mem_cons_of_mem _ hx)⟩

theorem length_lineBuffer (src : RowSrc) (xs : List Fl) (pads : Nat) :
    (xs.flatMap (fun x => leBytes 2 (rowConv src bf16 x).1) ++ List.replicate (2 * pads) (0 : Byte)).length =
      2 * (xs.length + pads) := by
  have values : (xs.flatMap fun x => leBytes 2 (rowConv src bf16 x).1).length = 2 * xs.length := by
    induction xs with
    | nil => rfl
    | cons x xs ih => simp only [List.flatMap_cons, List.length_append, ih, length_leBytes, List.length_cons]; omega
  rw [List.length_append, values, List.length_replicate]
  omega

theorem Stage.storePiece (h : Stage a s m p r) (hc : Clean s) {q : NarrowPiece} {out : Nat} {xs : List Fl}
    {codes pad : List Byte} (fits : piecesFit s a [(out, q, xs, codes ++ pad)]) :
    Reaches (storePiece a q out xs codes pad) r () (Stage a s (pieceWrites s a [(out, q, xs, codes ++ pad)] m) p) := by
  obtain ⟨room, line⟩ := fits _ (List.mem_singleton.2 rfl)
  unfold Machine.storePiece pieceWrites pieceWrites
  refine (h.store hc room).bind fun t ht => ?_
  cases hk : q.keep with
  | none => exact reaches_pure ht
  | some off =>
    refine (ht.saturate _).bind fun u hu => ?_
    have bytes : ((xs.map (rowConv q.src bf16)).flatMap fun b => leBytes 2 b.1) =
        xs.flatMap fun x => leBytes 2 (rowConv q.src bf16 x).1 := by rw [List.flatMap_map]
    rw [bytes]
    exact hu.store hc (by rw [length_lineBuffer]; exact line off hk)

/-- Pieces under a given group scale. -/
theorem Stage.narrowGiven (h : Stage a s m p r) (hc : Clean s) (enc : Fl → Nat × Nat) (pack : List Nat → List Byte)
    (rows : List (NarrowPiece × List Fl))
    (fits : piecesFit s a (rows.map fun q =>
      (q.1.out, q.1, q.2, pack (q.2.map (fun x => (enc x).1) ++ List.replicate q.1.pads (enc (.fin false 0 0)).1)))) :
    Reaches (narrowGiven a enc pack rows) r () (Stage a s (pieceWrites s a (rows.map fun q =>
      (q.1.out, q.1, q.2, pack (q.2.map (fun x => (enc x).1) ++ List.replicate q.1.pads (enc (.fin false 0 0)).1))) m) p) := by
  induction rows generalizing r m with
  | nil => exact reaches_pure h
  | cons q rows ih =>
    obtain ⟨first, others⟩ := piecesFit_cons fits
    refine (h.saturate _).bind fun t ht => ?_
    have codes : (q.2.map enc).map Prod.fst = q.2.map fun x => (enc x).1 := by rw [List.map_map]; rfl
    rw [codes]
    rw [List.map_cons, pieceWrites_cons]
    refine (ht.storePiece hc (by rwa [List.append_nil])).bind fun u hu => ?_
    rw [List.append_nil] at hu
    exact ih hu others

/-- How a code of a narrowing is rounded, from the bits that its row drew (R55, R56). -/
def roundBy (op : NarrowOp) (bits : List Nat) (j : Nat) : A8Round :=
  if op.srBits = 0 then .nearest else .stochastic op.srBits (bits.getD j 0)

/-- What a token's narrowing stores for a piece, `done` values after its first, under a scale and a zero point. -/
def tokenPiece (op : NarrowOp) (sa zp done : Nat) (bits : List Nat) (row : NarrowPiece × List Fl) : PieceBytes :=
  (match op.block with
    | some b => b.base + op.token * narrowWidth op + done
    | none => row.1.out, row.1, row.2,
    ((List.range row.2.length).zip row.2).map (fun x =>
      (BitVec.ofNat 8 (encA8 x.2 (decF fp32 sa) zp (roundBy op bits x.1)).1 : Byte)) ++
      if op.block.isSome then [] else List.replicate row.1.pads (BitVec.ofNat 8 zp))

def tokenPieces (op : NarrowOp) (sa zp : Nat) : Nat → List (List Nat) → List (NarrowPiece × List Fl) → List PieceBytes
  | _, _, [] => []
  | done, bits, row :: rows => tokenPiece op sa zp done (bits.headD []) row ::
    tokenPieces op sa zp (done + row.1.width) bits.tail rows

/-- The bits of the rest of a token's pieces: none are drawn at nearest, and else the command's arguments are known. -/
def PiecesDrawn (a : At) (op : NarrowOp) (done : Nat) (ps : List NarrowPiece) (q : State) (bits : List (List Nat)) : Prop :=
  op.srBits = 0 ∨ (a.cmd.argBlock ≠ none ∨ a.cmd.opcode ≠ opRun) ∧ DrawnRows a op done ps q bits

/-- One piece draws its bits; the others draw from what it leaves. -/
theorem Stage.drawPiece {q : State} {op : NarrowOp} {done : Nat} {bits : List (List Nat)} {piece : NarrowPiece}
    {ps : List NarrowPiece} (h : Stage a s m (drawPos q a) r) (hq : Within a.core s q) (hu : (s.cmd? a.u).isSome = true)
    (drawn : PiecesDrawn a op done (piece :: ps) q bits) :
    ∃ q', Within a.core s q' ∧ PiecesDrawn a op (done + piece.width) ps q' bits.tail ∧
      Reaches (if op.srBits == 0 then pure [] else draws a op.draw op.srBits (firstLane piece.src) piece.width done) r
        (if op.srBits = 0 then [] else bits.headD []) (Stage a s m (drawPos q' a)) := by
  by_cases nearest : op.srBits = 0
  · refine ⟨q, hq, .inl nearest, ?_⟩
    rw [if_pos nearest, if_pos (by simpa using nearest)]
    exact reaches_pure h
  obtain ⟨known, b, bs, q', rfl, hd, rest⟩ := drawn.resolve_left nearest
  have drew : Within a.core q q' := by
    obtain ⟨-, rfl⟩ := hd.unique (draws_yields ..)
    exact within_afterDraws ..
  refine ⟨q', hq.trans drew, .inr ⟨known, rest⟩, ?_⟩
  rw [if_neg nearest, if_neg (by simpa using nearest)]
  obtain ⟨t, hy, ht, cis, acc, blocks, pos⟩ := draws_reaches (hq.symm.trans h.toWithin) (argsOf_of_known known q r) h.pos
    (hq.isSome hu) hd
  exact ⟨t, hy, h.toWithin.trans ht, cis.trans h.cis, acc.trans h.acc, blocks.trans h.blocks, pos⟩

/-- The pieces of a token, one after the other, each with the bits that it draws. -/
theorem Stage.narrowPieces {q : State} {op : NarrowOp} {sa zp done : Nat} {bits : List (List Nat)}
    {rows : List (NarrowPiece × List Fl)} (h : Stage a s m (drawPos q a) r) (hc : Clean s) (hq : Within a.core s q)
    (hu : (s.cmd? a.u).isSome = true) (drawn : PiecesDrawn a op done (rows.map Prod.fst) q bits)
    (fits : piecesFit s a (tokenPieces op sa zp done bits rows)) :
    Reaches (narrowPieces a op sa zp done rows) r () fun t =>
      ∃ p, Stage a s (pieceWrites s a (tokenPieces op sa zp done bits rows) m) p t := by
  induction rows generalizing r q m done bits with
  | nil => exact reaches_pure ⟨_, h⟩
  | cons row rows ih =>
    obtain ⟨first, others⟩ := piecesFit_cons fits
    obtain ⟨q', hq', drawn', draw⟩ := h.drawPiece hq hu drawn
    refine .branch draw fun t ht => ?_
    have rounds (j : Nat) : (if (op.srBits == 0) = true then A8Round.nearest
        else .stochastic op.srBits ((if op.srBits = 0 then [] else bits.headD []).getD j 0)) =
        roundBy op (bits.headD []) j := by
      rw [roundBy]
      by_cases nearest : op.srBits = 0 <;> simp [nearest]
    simp only [rounds, List.map_map, Function.comp_def]
    refine (ht.saturate _).bind fun v hv => ?_
    exact (hv.storePiece hc first).bind fun w hw => ih hw hq' drawn' others

end

end Sys2Proof.Machine
end

section
/-! #### The scale of a token, its history and its tags -/
namespace Sys2Proof.Machine

section
variable {s r t : State} {a : At} {m : Mem} {p : Table Nat}

theorem narrowWidth_cons (op : NarrowOp) (q : NarrowPiece) (ps : List NarrowPiece) :
    narrowWidth { op with pieces := q :: ps } = q.width + narrowWidth { op with pieces := ps } := by
  have from' (ps : List NarrowPiece) : ∀ n, ps.foldl (fun n q => n + q.width) n =
      n + ps.foldl (fun n q => n + q.width) 0 := by
    induction ps with
    | nil => exact fun _ => rfl
    | cons q ps ih => intro n; rw [List.foldl_cons, List.foldl_cons, ih, ih (0 + q.width)]; omega
  simp only [narrowWidth, List.foldl_cons]
  rw [from', Nat.zero_add]

/-- Each piece lies behind the values of those before it, and takes the bits of its place in the token. -/
theorem tokenPieces_eq (op : NarrowOp) (sa zp done : Nat) (bits : List (List Nat)) (rows : List (NarrowPiece × List Fl)) :
    tokenPieces op sa zp done bits rows = ((List.range rows.length).zip rows).map fun e =>
      tokenPiece op sa zp (done + narrowWidth { op with pieces := (rows.take e.1).map Prod.fst }) (bits.getD e.1 []) e.2 := by
  induction rows generalizing done bits with
  | nil => rfl
  | cons row rows ih =>
    rw [tokenPieces, ih, List.length_cons, List.range_succ_eq_map, List.zip_cons_cons, List.map_cons, List.zip_map_left,
      List.map_map]
    congr 1
    · cases bits <;> rfl
    · refine List.map_congr_left fun e _ => ?_
      have bit : bits.tail.getD e.1 [] = bits.getD (e.1 + 1) [] := by cases bits <;> rfl
      simp only [Function.comp, Prod.map, id, List.take_succ_cons, List.map_cons, narrowWidth_cons, bit, Nat.add_assoc]

/-! History blocks (R77, R81) -/

theorem length_splice {b v : List Byte} {off n : Nat} (h : b.length = n) (hv : off + v.length ≤ n) :
    (splice b off v).length = n := by
  simp only [splice, List.length_append, List.length_take, List.length_drop]
  omega

theorem length_pushHistory {hist : Block} (h : hist.length = 128) (x sa : Nat) : (pushHistory hist x sa).length = 128 := by
  have head : field hist 0x44 1 % 16 < 16 := Nat.mod_lt _ (by omega)
  have maximum := length_splice (off := 4 * (field hist 0x44 1 % 16)) (v := leBytes 4 x) h (by rw [length_leBytes]; omega)
  have scale := length_splice (off := 0x40) (v := leBytes 4 sa) maximum (by simp)
  have next := length_splice (off := 0x44) (v := leBytes 1 ((field hist 0x44 1 % 16 + 1) % 16)) scale (by simp)
  exact length_splice (length_splice next (by simp)) (by simp)

theorem Stage.clearHistory (h : Stage a s m p r) (hc : Clean s) {slot : Nat}
    (hw : ∀ o ∈ slotHistory a slot, Writable s a (o + 0x44) 2 ∧ Writable s a (o + 0x48) 4) :
    Reaches (clearHistory a slot) r () (Stage a s (clearedSlot s a slot m) p) := by
  unfold Machine.clearHistory
  unfold clearedSlot
  unfold slotHistory at hw ⊢
  generalize (a.plan.scalePoints.map scalePoint).filter (fun q => q.src == 0) = qs at hw ⊢
  induction qs generalizing r m with
  | nil => exact reaches_pure h
  | cons q qs ih =>
    obtain ⟨⟨fill, steps⟩, others⟩ := List.forall_mem_cons.1 hw
    have first : Reaches (do
        Machine.store a (q.histBase + 256 * slot + 128 + 0x44) [0, 0]
        Machine.store a (q.histBase + 256 * slot + 128 + 0x48) (leBytes 4 0)) r () (Stage a s _ p) :=
      (h.store hc fill).bind fun t ht => ht.store (bs := leBytes 4 0) hc (by rwa [length_leBytes])
    exact first.bind fun t ht => ih ht others

theorem map_modCmd {α : Type} {u : Nat} {f : Cmd → Cmd} {k : Cmd → α} (hf : ∀ c, (f c).uid = c.uid)
    (hk : ∀ c, k (f c) = k c) (s : State) : ((s.modCmd u f).cmd? u).map k = (s.cmd? u).map k := by
  rw [cmd?_modCmd f hf, Option.map_map]
  exact congrArg (fun k => (s.cmd? u).map k) (funext hk)

/-- The slot's working history has been cleared for the mark. -/
def noteCleared (slot : Nat) (c : Cmd) : Cmd := { c with cleared := c.cleared ++ [slot] }

theorem stage_noteCleared (slot : Nat) (h : Stage a s m p r) : Stage a s m p (r.modCmd a.u (noteCleared slot)) := by
  have loop : loopOfAt (r.modCmd a.u (noteCleared slot)) a = loopOfAt r a := rfl
  have of {α : Type} {k : Cmd → α} (hk : ∀ c, k (noteCleared slot c) = k c) :
      ((r.modCmd a.u (noteCleared slot)).cmd? a.u).map k = (r.cmd? a.u).map k :=
    map_modCmd (f := noteCleared slot) (fun _ => rfl) hk r
  refine ⟨h.toWithin.trans (within_modCmd (f := noteCleared slot) (fun _ => rfl) r), h.cis, h.acc, ?_, ?_⟩
  · rw [← h.blocks, blocksOf_eq, blocksOf_eq r, loop, of fun _ => rfl]
  · rw [← h.pos, drawPos_eq, drawPos_eq r, loop, of fun _ => rfl]

/-- A chunk's mark clears the histories of its slot once (R81). -/
theorem clearAtMark_reaches (h : CoreOnly a.core s r) (hc : Clean s) {slot t : Nat} {m : Mem}
    (clears : clearsSlot s a slot t →
      (∀ o ∈ slotHistory a slot, Writable s a (o + 0x44) 2 ∧ Writable s a (o + 0x48) 4) ∧ m = clearedSlot s a slot s.cis)
    (keeps : ¬ clearsSlot s a slot t → m = s.cis) :
    Reaches (clearAtMark a slot t) r () (Stage a s m (drawPos s a)) := by
  have start := h.tallied.stage
  refine .after (yields_getS r) ?_
  have same : chunkOf r a = chunkOf s a := h.toWithin.chunkOf_eq (h.toWithin.argsOf_eq h.cis _)
  by_cases hit : clearsSlot s a slot t
  · obtain ⟨hw, rfl⟩ := clears hit
    obtain ⟨i, first, mark, chunk, h1, h2, h3⟩ := hit
    rw [← h.cmd?_eq] at h3
    have goes : (decide (first ≤ mark) && decide (mark ≤ first + t) && !((r.cmd? a.u).getD a.cmd).cleared.contains slot) =
        true := by simp only [h1, h2, h3, decide_true, Bool.not_false, Bool.and_self]
    simp only [same, chunk, if_pos goes]
    exact (start.clearHistory hc hw).bind fun u hu => (yields_modS _ u).reaches (stage_noteCleared slot hu)
  · obtain rfl := keeps hit
    rw [same]
    split
    next i first mark chunk =>
      rw [if_neg]
      · exact reaches_pure start
      · simp only [Bool.and_eq_true, decide_eq_true_eq, Bool.not_eq_true']
        rintro ⟨⟨h1, h2⟩, h3⟩
        exact hit ⟨i, first, mark, chunk, h1, h2, by rwa [← h.cmd?_eq]⟩
    · exact reaches_pure start

/-! Tags (R83, R84) -/

/-- A block more is counted on a stream, of the loop's block or of the run. -/
def countBlock (a : At) (i n : Nat) (s : State) : State :=
  match loopOfAt s a, a.cmd.object with
  | some _, some l => s.modLoop l (fun x => { x with workBlocks := tset x.workBlocks i n })
  | _, _ => s.modCmd a.u (fun c => { c with blocks := tset c.blocks i n })

theorem within_countBlock {g : Nat} (i n : Nat) (s : State) : Within g s (countBlock a i n s) := by
  unfold countBlock
  split
  · exact within_modLoop (f := fun x => { x with workBlocks := tset x.workBlocks i n }) (fun _ => rfl) s
  · exact within_modCmd (f := fun c => { c with blocks := tset c.blocks i n }) (fun _ => rfl) s

theorem countBlock_stores (i n : Nat) (s : State) : (countBlock a i n s).cis = s.cis ∧ (countBlock a i n s).acc = s.acc := by
  unfold countBlock
  split <;> exact ⟨rfl, rfl⟩

theorem tget_blocksOf_countBlock (h : (s.cmd? a.u).isSome = true) (i n : Nat) :
    tget (blocksOf (countBlock a i n s) a) i 0 = n := by
  unfold countBlock
  split
  next l k hl hk =>
    obtain ⟨op, k', hk', found⟩ := object_of_loopOfAt hl
    obtain rfl : k = k' := Option.some.inj (hk.symm.trans hk')
    simp [blocksOf, loopOfAt, loopOfCmd, op, hk, State.modLoop, tget?_tmod, found]
  next hno =>
    obtain ⟨c, hc⟩ := Option.isSome_iff_exists.1 h
    have vacant : loopOfAt s a = none := by
      by_contra hl
      obtain ⟨l, hl⟩ := Option.ne_none_iff_exists'.1 hl
      obtain ⟨-, k, hk, -⟩ := object_of_loopOfAt hl
      exact hno l k hl hk
    have still : loopOfAt (s.modCmd a.u fun c => { c with blocks := tset c.blocks i n }) a = none := vacant
    simp [blocksOf, still, cmd?_modCmd, hc]

/-- TAG and TOKENS of a block that the command completes over a cistern. -/
def tagBytes (s : State) (a : At) (b : DataBlock) (m : Mem) : List Byte :=
  leBytes 1 (((argsOf { s with cis := m } a.cmd).tagBase.getD b.stream 0).toNat + tget (blocksOf s a) b.stream 0) ++
    leBytes 1 b.tokens

theorem Stage.emitTags (h : Stage a s m p r) (hc : Clean s) (hu : (s.cmd? a.u).isSome = true) {b : DataBlock} {scale k : Nat}
    (hs : Writable s a (scale + 0x140) 2) (ht : Writable s a (b.base + b.rows * 512 - 64) 64) :
    Reaches (emitTags a b scale k) r () fun t => Within a.core s t ∧ t.acc = s.acc ∧
      t.cis = ownWrite s a (b.base + b.rows * 512 - 64) (tagBytes s a b m ++ leBytes 2 k ++ List.replicate 60 0)
        (ownWrite s a (scale + 0x140) (tagBytes s a b m) m) ∧
      tget (blocksOf t a) b.stream 0 = tget (blocksOf s a) b.stream 0 + 1 := by
  refine .after (yields_getS r) ?_
  have args : argsOf r a.cmd = argsOf { s with cis := m } a.cmd :=
    argsOf_of_stores (by rw [h.only]) (by rw [h.only]) h.cis a.cmd
  rw [args, h.blocks]
  change Reaches (do
    Machine.store a (scale + 0x140) (tagBytes s a b m)
    Machine.store a (b.base + b.rows * 512 - 64) (tagBytes s a b m ++ leBytes 2 k ++ List.replicate 60 0)
    modS (countBlock a b.stream (tget (blocksOf s a) b.stream 0 + 1))) r () _
  refine (h.store hc (by simpa [tagBytes] using hs)).bind fun t ht' => ?_
  refine (ht'.store hc (by simpa [tagBytes] using ht)).bind fun u hu' => ?_
  obtain ⟨cis, acc⟩ := countBlock_stores (a := a) b.stream (tget (blocksOf s a) b.stream 0 + 1) u
  exact (yields_modS _ u).reaches ⟨hu'.toWithin.trans (within_countBlock ..), acc.trans hu'.acc, cis.trans hu'.cis,
    tget_blocksOf_countBlock (hu'.toWithin.isSome hu) ..⟩

end

end Sys2Proof.Machine
end

section
/-! #### A token is narrowed -/
namespace Sys2Proof.Machine

/-- The scale point of a narrowing, its working history, and the maximum that calibration gives it (R72, R77). -/
def pointOf (a : At) (op : NarrowOp) : ScalePoint := scalePoint (a.plan.scalePoints.getD op.point 0)
def historyOff (a : At) (op : NarrowOp) : Nat := (pointOf a op).histBase + 256 * op.slot + 128
def calibrated (s : State) (a : At) (op : NarrowOp) : Nat := cleanMax ((calTable s a.plan).getD (pointOf a op).cal 0).toNat

/-- s_a and zp of a token. -/
def scaleOfToken (s : State) (a : At) (op : NarrowOp) (hist : Block) (rows : List (NarrowPiece × List Fl)) : Nat × Nat :=
  scaleFor (calibrated s a op) (pointOf a op) a.cmd.widened hist (rowMax (rows.flatMap Prod.snd))

def passOf (op : NarrowOp) : Nat := (op.pieces.map fun p => passCycles p.src p.width).foldl (· + ·) 0

/-- Cycles of a token's narrowing: a second pass where the scale needs the row's own maximum. -/
def narrowCycles (s : State) (a : At) (op : NarrowOp) (hist : Block) : Nat :=
  passOf op + if needsRow (calibrated s a op) (pointOf a op) a.cmd.widened hist then passOf op + 10 else 0

/-- The pieces of a token, as they are stored. -/
def piecesOf (s : State) (a : At) (op : NarrowOp) (hist : Block) (bits : List (List Nat))
    (rows : List (NarrowPiece × List Fl)) : List PieceBytes :=
  tokenPieces op (scaleOfToken s a op hist rows).1 (scaleOfToken s a op hist rows).2 0 bits rows

/-- The cistern after a token's pieces, its scale and zero point, the reserved bytes of its scale block and its history. -/
def narrowedMem (s : State) (a : At) (op : NarrowOp) (m : Mem) (hist : Block) (bits : List (List Nat))
    (rows : List (NarrowPiece × List Fl)) : Mem :=
  let z := scaleOfToken s a op hist rows
  let m := ownWrite s a (op.scaleBlock + 0x142) (List.replicate 190 0)
    (ownWrite s a (op.scaleBlock + 0x100 + op.token) (leBytes 1 z.2)
      (ownWrite s a (op.scaleBlock + 4 * op.token) (leBytes 4 z.1) (pieceWrites s a (piecesOf s a op hist bits rows) m)))
  if (pointOf a op).src = 0 then
    ownWrite s a (historyOff a op) (pushHistory hist (rowMax (rows.flatMap Prod.snd)) z.1) m
  else m

/-- What a token's narrowing reads and writes is there: m is the cistern after a mark has cleared its slot. -/
structure TokenReady (s : State) (a : At) (op : NarrowOp) (m : Mem) (hist : Block) (bits : List (List Nat))
    (rows : List (NarrowPiece × List Fl)) : Prop where
  clears : clearsSlot s a op.slot op.draw.t →
    (∀ o ∈ slotHistory a op.slot, Writable s a (o + 0x44) 2 ∧ Writable s a (o + 0x48) 4) ∧ m = clearedSlot s a op.slot s.cis
  keeps : ¬ clearsSlot s a op.slot op.draw.t → m = s.cis
  history : if (pointOf a op).src = 0 then
      Writable s a (historyOff a op) 128 ∧ hist = mread m (ownAddr s a (historyOff a op)) 128
    else hist = []
  drawn : PiecesDrawn a op 0 (rows.map Prod.fst) s bits
  fits : piecesFit s a (piecesOf s a op hist bits rows)
  scale : Writable s a (op.scaleBlock + 4 * op.token) 4
  zero : Writable s a (op.scaleBlock + 0x100 + op.token) 1
  reserved : Writable s a (op.scaleBlock + 0x142) 190

/-- The tags of a data block that the token completes. -/
def narrowTags (a : At) (op : NarrowOp) : Eng Unit :=
  match op.block with
  | some b => if b.complete then emitTags a b op.scaleBlock (narrowWidth op) else pure ()
  | none => pure ()

theorem narrowTags_some {a : At} {op : NarrowOp} {b : DataBlock} (hb : op.block = some b) :
    narrowTags a op = if b.complete then emitTags a b op.scaleBlock (narrowWidth op) else pure () := by
  unfold narrowTags
  rw [hb]

theorem narrowTags_none {a : At} {op : NarrowOp} (hb : op.block = none) : narrowTags a op = pure () := by
  unfold narrowTags
  rw [hb]

section
variable {s r t : State} {a : At} {m : Mem} {op : NarrowOp} {hist : Block} {bits : List (List Nat)}
  {rows : List (NarrowPiece × List Fl)} {P : State → Prop}

theorem loadHistory_reaches {p : Table Nat} (h : Stage a s m p t) (hc : Clean s) (ready : TokenReady s a op m hist bits rows) :
    Reaches (if (pointOf a op).src == 0 then load a none (historyOff a op) 128 else pure []) t hist (Stage a s m p) := by
  have history := ready.history
  split at history
  next src =>
    obtain ⟨hw, rfl⟩ := history
    rw [if_pos (by simpa using src)]
    exact (h.load hc hw).reaches h
  next src =>
    rw [history, if_neg (by simpa using src)]
    exact reaches_pure h

theorem pushHistory_reaches {p : Table Nat} {n : Mem} {x sa : Nat} (h : Stage a s n p t) (hc : Clean s)
    (ready : TokenReady s a op m hist bits rows) :
    Reaches (if (pointOf a op).src == 0 then store a (historyOff a op) (pushHistory hist x sa) else pure ()) t ()
      (Stage a s (if (pointOf a op).src = 0 then ownWrite s a (historyOff a op) (pushHistory hist x sa) n else n) p) := by
  have history := ready.history
  split at history
  next src =>
    obtain ⟨room, rfl⟩ := history
    rw [if_pos (by simpa using src), if_pos src]
    exact h.store hc (by rw [length_pushHistory (by simp)]; exact room)
  next src =>
    rw [if_neg (by simpa using src), if_neg src]
    exact reaches_pure h

theorem narrowToken_reaches (h : CoreOnly a.core s r) (hc : Clean s) (hu : (s.cmd? a.u).isSome = true)
    (ready : TokenReady s a op m hist bits rows)
    (last : ∀ t p, Stage a s (narrowedMem s a op m hist bits rows) p t →
      Reaches (narrowTags a op) t () fun u => Within a.core s u ∧ P u) :
    Reaches (narrowToken a op rows) r () (Ends a s 1 (narrowCycles s a op hist) P) := by
  refine (clearAtMark_reaches h hc ready.clears ready.keeps).bind fun t ht => ?_
  refine .after (yields_getS t) ?_
  have cal : calTable t a.plan = calTable s a.plan := by simp only [calTable, ht.images]
  rw [cal]
  refine .branch (loadHistory_reaches ht hc ready) fun v hv => ?_
  refine (hv.narrowPieces hc (.refl _ s) hu ready.drawn ready.fits).bind fun w hw => ?_
  obtain ⟨p, hw⟩ := hw
  refine (hw.store hc (by rw [length_leBytes]; exact ready.scale)).bind fun x hx => ?_
  refine (hx.store hc (by rw [length_leBytes]; exact ready.zero)).bind fun y hy => ?_
  refine (hy.store hc (by rw [List.length_replicate]; exact ready.reserved)).bind fun z hz => ?_
  refine .when (pushHistory_reaches hz hc ready) fun w hw => ?_
  have count (u : State) (hu : Within a.core s u ∧ P u) :
      Reaches (modS fun t => t.perfAdd a.core 1 (narrowCycles s a op hist)) u () (Ends a s 1 (narrowCycles s a op hist) P) :=
    reaches_counted hu.1 hu.2
  have tags := last w p hw
  dsimp only
  cases hb : op.block with
  | some b =>
    rw [narrowTags_some hb] at tags
    exact tags.when count
  | none =>
    rw [narrowTags_none hb] at tags
    obtain ⟨u, hy, hu⟩ := tags
    obtain ⟨-, rfl⟩ := hy.unique (rfl : Yields (pure ()) w () w)
    exact count _ hu

/-! The step -/

/-- The step after it has read its rows. -/
def narrowRows (a : At) (op : NarrowOp) (rows : List (NarrowPiece × List Fl)) : Eng Unit :=
  match op.fmt with
  | .b4 sc => do
    narrowGiven a (fun x => encB4 x (decF bf16 sc.toNat)) packNibbles rows
    modS (fun s => s.perfAdd a.core 1 (passOf op))
  | .w8 sc => do
    narrowGiven a (fun x => encW8 x (decF bf16 sc.toNat)) (fun cs => cs.map (BitVec.ofNat 8)) rows
    modS (fun s => s.perfAdd a.core 1 (passOf op))
  | .a8 => narrowToken a op rows

/-- The pieces of a given group scale, as they are stored. -/
def givenPieces (enc : Fl → Nat × Nat) (pack : List Nat → List Byte) (rows : List (NarrowPiece × List Fl)) :
    List PieceBytes :=
  rows.map fun p =>
    (p.1.out, p.1, p.2, pack (p.2.map (fun x => (enc x).1) ++ List.replicate p.1.pads (enc (.fin false 0 0)).1))

theorem narrowGiven_reaches (h : CoreOnly a.core s r) (hc : Clean s) {enc : Fl → Nat × Nat} {pack : List Nat → List Byte}
    (fits : piecesFit s a (givenPieces enc pack rows)) :
    Reaches (do narrowGiven a enc pack rows; modS fun s => s.perfAdd a.core 1 (passOf op)) r ()
      (Ends a s 1 (passOf op) fun t => t.acc = s.acc ∧ t.cis = pieceWrites s a (givenPieces enc pack rows) s.cis) :=
  (h.tallied.stage.narrowGiven hc enc pack rows fits).bind fun _ ht => reaches_counted ht.toWithin ⟨ht.acc, ht.cis⟩

/-- NARROW reads the rows of its pieces and is done as what follows is. -/
theorem narrow_done {g n : Nat} {xss : List (List Fl)} (h : StandsAt g a (.narrow op) s) (hl : xss.length = op.pieces.length)
    (hv : ∀ p ∈ op.pieces.zip xss, ValuesAre s a p.1.src p.1.width p.2)
    (last : ∀ r, CoreOnly a.core s r → Reaches (narrowRows a op (op.pieces.zip xss)) r () (Ends a s 1 n P)) :
    ∃ t, Answers (.narrow g) s t ∧ StepDone g s t ∧ tget t.perf (16 * g + 1) 0 = ctrAdd (tget s.perf (16 * g + 1) 0) n ∧
      ∃ r, P r ∧ t.cis = r.cis ∧ t.acc = r.acc ∧ t.inflight = r.inflight ∧ t.loops = r.loops ∧
        (t.core g).heldSums = (r.core g).heldSums := by
  have port := h.holdPort
  refine h.done (i := .narrow g) (pick := asNarrow) (op := op) (n := 1) (k := n) h.core_eq (fun _ => rfl) rfl (by omega) ?_
  have read : Reaches (mapEng (fun q => rowVals a q.src q.width) op.pieces) (holdPort a (.narrow op) s) xss
      (CoreOnly a.core (holdPort a (.narrow op) s)) := by
    refine mapEng_reaches (.refl _) .trans hl fun q hq r hr => ?_
    have sr := port.trans hr
    exact rowVals_reaches (sr.clean h.clean) (sr.valuesAre sr.cis sr.acc (hv q hq))
  have step : Reaches (narrowStep a op) (holdPort a (.narrow op) s) () (Ends a s 1 n P) :=
    read.bind fun t ht => last t (port.trans ht)
  exact step.bind fun t ht => reaches_pure ht

/-- A narrowing that is done: it leaves the accumulators and has written the cistern. -/
def Narrowed (g n : Nat) (s : State) (m : Mem) (t : State) : Prop := Answers (.narrow g) s t ∧ StepDone g s t ∧
  t.acc = s.acc ∧ t.cis = m ∧ tget t.perf (16 * g + 1) 0 = ctrAdd (tget s.perf (16 * g + 1) 0) n

section
variable {g : Nat} {xss : List (List Fl)} (h : StandsAt g a (.narrow op) s) (hl : xss.length = op.pieces.length)
  (hv : ∀ p ∈ op.pieces.zip xss, ValuesAre s a p.1.src p.1.width p.2)
include h hl hv

theorem narrowed_given {enc : Fl → Nat × Nat} {pack : List Nat → List Byte}
    (hf : ∀ rows, narrowRows a op rows = do narrowGiven a enc pack rows; modS fun s => s.perfAdd a.core 1 (passOf op))
    (fits : piecesFit s a (givenPieces enc pack (op.pieces.zip xss))) :
    ∃ t, Narrowed g (passOf op) s (pieceWrites s a (givenPieces enc pack (op.pieces.zip xss)) s.cis) t := by
  obtain ⟨t, answer, done, counted, r, ⟨racc, rcis⟩, tcis, tacc, -⟩ := narrow_done h hl hv
    fun r hr => by rw [hf]; exact narrowGiven_reaches hr h.clean fits
  exact ⟨t, answer, done, tacc.trans racc, tcis.trans rcis, counted⟩

theorem narrowed_token (hf : op.fmt = .a8) (ready : TokenReady s a op m hist bits (op.pieces.zip xss))
    (hb : ∀ b, op.block = some b → b.complete = false) :
    ∃ t, Narrowed g (narrowCycles s a op hist) s (narrowedMem s a op m hist bits (op.pieces.zip xss)) t := by
  have running : (s.cmd? a.u).isSome = true := by rw [(of_at? h.engaged.runs).2]; rfl
  obtain ⟨t, answer, done, counted, r, ⟨racc, rcis⟩, tcis, tacc, -⟩ := narrow_done (n := narrowCycles s a op hist)
      (P := fun t => t.acc = s.acc ∧ t.cis = narrowedMem s a op m hist bits (op.pieces.zip xss)) h hl hv <| by
    intro r hr
    simp only [narrowRows, hf]
    refine narrowToken_reaches hr h.clean running ready fun t p ht => ?_
    have tags : narrowTags a op = pure () := by
      cases hb' : op.block with
      | some b => rw [narrowTags_some hb', hb b hb']; rfl
      | none => exact narrowTags_none hb'
    rw [tags]
    exact reaches_pure ⟨ht.toWithin, ht.acc, ht.cis⟩
  exact ⟨t, answer, done, tacc.trans racc, tcis.trans rcis, counted⟩

theorem narrowed_tagged (hf : op.fmt = .a8) (ready : TokenReady s a op m hist bits (op.pieces.zip xss)) {b : DataBlock}
    (hb : op.block = some b) (complete : b.complete = true) (hs : Writable s a (op.scaleBlock + 0x140) 2)
    (ht : Writable s a (b.base + b.rows * 512 - 64) 64) :
    let m := narrowedMem s a op m hist bits (op.pieces.zip xss)
    ∃ t, Narrowed g (narrowCycles s a op hist) s
      (ownWrite s a (b.base + b.rows * 512 - 64) (tagBytes s a b m ++ leBytes 2 (narrowWidth op) ++ List.replicate 60 0)
        (ownWrite s a (op.scaleBlock + 0x140) (tagBytes s a b m) m)) t ∧
      tget (blocksOf t a) b.stream 0 = tget (blocksOf s a) b.stream 0 + 1 := by
  intro m
  have running : (s.cmd? a.u).isSome = true := by rw [(of_at? h.engaged.runs).2]; rfl
  obtain ⟨t, answer, done, counted, r, ⟨racc, rcis, rblocks⟩, tcis, tacc, tcmds, tloops, -⟩ :=
    narrow_done (n := narrowCycles s a op hist) (P := fun t => t.acc = s.acc ∧
      t.cis = ownWrite s a (b.base + b.rows * 512 - 64) (tagBytes s a b m ++ leBytes 2 (narrowWidth op) ++ List.replicate 60 0)
        (ownWrite s a (op.scaleBlock + 0x140) (tagBytes s a b m) m) ∧
      tget (blocksOf t a) b.stream 0 = tget (blocksOf s a) b.stream 0 + 1) h hl hv <| by
    intro r hr
    simp only [narrowRows, hf]
    refine narrowToken_reaches hr h.clean running ready fun t p stage => ?_
    rw [narrowTags_some hb, if_pos complete]
    exact stage.emitTags h.clean running hs ht
  refine ⟨t, ⟨answer, done, tacc.trans racc, tcis.trans rcis, counted⟩, ?_⟩
  rw [← rblocks]
  simp only [blocksOf, loopOfAt, loopOfCmd, State.cmd?, tcmds, tloops]

end

end

end Sys2Proof.Machine
end

section
/-! ### M-engine slices -/
namespace Sys2Proof.Machine

/-! #### Tiles -/

section
variable {s r t : State} {a : At} {w : Weights}

theorem Within.tileIs {g first n : Nat} {cs : List (List Nat)} (h : Within g s t) (hm : t.cis = s.cis)
    (ht : TileIs s a w first n cs) : TileIs t a w first n cs := by
  refine ⟨ht.1, fun c hc => ?_⟩
  obtain ⟨b, hb, e⟩ := ht.2 c hc
  exact ⟨b, h.readable hm hb, e⟩

/-- The list of 64 columns is made up of its columns. -/
theorem map_range_getD {α : Type} {xs : List α} {n : Nat} (h : xs.length = n) (d : α) :
    (List.range n).map (fun c => xs.getD c d) = xs := by
  refine List.ext_getElem (by simp [h]) fun i h1 h2 => ?_
  simp [List.getD_eq_getElem?_getD, h2]

theorem tileCodes_yields {first n : Nat} {cs : List (List Nat)} (hc : Clean s) (h : TileIs s a w first n cs) :
    Yields (tileCodes a w 0 first n) s cs s := by
  have columns := mapEng_yields (s := s) (v := fun c => cs.getD c []) (xs := List.range 64) (f := fun c => do
    let off := w.codeOff + (0 * 64 + c) * codeBytes w.pair (unitK w) + codeBytes w.pair first
    let b ← load a w.image off (codeBytes w.pair n)
    pure (splitCodes w.pair n b)) fun c hcol => by
      obtain ⟨b, hb, e⟩ := h.2 c (List.mem_range.1 hcol)
      rw [e]
      refine (load_yields hc ?_).bind (yields_pure _ s)
      rwa [Nat.zero_mul, Nat.zero_add]
  rwa [map_range_getD h.1] at columns

theorem tileSection_yields {off bytes : Nat} {b : List Byte} (hc : Clean s)
    (h : Readable s a w.image off (bytes * 64 * unitGroups w) b) :
    Yields (tileSection a w off bytes 0) s ((List.range 64).map fun c => (List.range (unitGroups w)).map fun j =>
      field b (bytes * (c * unitGroups w + j)) bytes) s := by
  refine (load_yields hc ?_).bind (yields_pure _ s)
  simpa using h

theorem tileScales_yields {sc : List Byte} (hc : Clean s) (h : Readable s a w.image w.scaleOff (2 * 64 * unitGroups w) sc) :
    Yields (tileScales a w 0) s ((List.range 64).map fun c => (List.range (unitGroups w)).map (groupScale w sc c)) s :=
  tileSection_yields hc h

/-- Group sums as a slice reads them: none where the step declares ZP_ZERO. -/
def sumsOf (w : Weights) (sm : List Byte) : List (List Int) :=
  if w.zpZero then [] else (List.range 64).map fun c => (List.range (unitGroups w)).map (groupSum w sm c)

theorem tileSums_yields {sm : List Byte} (hc : Clean s)
    (h : if w.zpZero then sm = [] else Readable s a w.image w.gsumOff (4 * 64 * unitGroups w) sm) :
    Yields (tileSums a w 0) s (sumsOf w sm) s := by
  unfold tileSums sumsOf
  split at h
  next zero => rw [if_pos zero, if_pos zero]; exact yields_pure _ s
  next sums =>
    rw [if_neg sums, if_neg sums]
    have sum (c : Nat) : groupSum w sm c = fun j => sextN 32 (field sm (4 * (c * unitGroups w + j)) 4) := by
      funext j
      simp [groupSum, sums]
    refine (tileSection_yields hc h).bind ?_
    simp only [List.map_map, Function.comp_def, sum]
    exact yields_pure _ s

theorem sumsOf_getD (sm : List Byte) {c j : Nat} (hcol : c < 64) (hj : j < unitGroups w) :
    ((sumsOf w sm).getD c []).getD j 0 = groupSum w sm c j := by
  unfold sumsOf
  split
  next zero => simp [groupSum, zero]
  next sums => simp [hcol, hj, List.getD_eq_getElem?_getD]

theorem scales_getD (sc : List Byte) {c j : Nat} (hcol : c < 64) (hj : j < unitGroups w) :
    (((List.range 64).map fun c => (List.range (unitGroups w)).map (groupScale w sc c)).getD c []).getD j 0 =
      groupScale w sc c j := by
  simp [hcol, hj, List.getD_eq_getElem?_getD]

theorem groupSize_pos (n : Nat) : 0 < groupSize n := by
  unfold groupSize
  positivity

/-- A group that two slices make up is the only one of its tile (Table 3.7). -/
theorem unitGroups_of_split (h : sliceK w.pair < unitK w) : unitGroups w = 1 := by
  unfold unitGroups
  unfold unitK at h ⊢
  cases hp : w.pair <;> simp only [hp, sliceK] at h ⊢
  case bf16 => simp at h
  all_goals
    simp only [reduceCtorEq, beq_iff_eq, if_false] at h ⊢
    rw [max_eq_right (by omega)]
    exact Nat.div_self (groupSize_pos _)

end

end Sys2Proof.Machine
end

section
/-! #### The sums of a slice -/
namespace Sys2Proof.Machine

/-- The integer product of a column with the activation codes of a slice. -/
def dotOf (w : Weights) (cs : List (List Nat)) (x : List Byte) (c : Nat) : Int :=
  dotInt (levelsOf w.pair (cs.getD c [])).1 (splitLE 1 (sliceK w.pair) x)

/-- The groups that a slice adds to a column: those of its tile, or the one whose sum its first half held. -/
def sliceGroups (w : Weights) (cs : List (List Nat)) (x sc sm : List Byte) (held : List Int) (c : Nat) :
    List (List Int × List Nat × Nat × Int) :=
  if sliceK w.pair < unitK w then [([dotOf w cs x c + held.getD c 0], [1], groupScale w sc c 0, groupSum w sm c 0)]
  else (List.range (unitGroups w)).map fun j =>
    (((levelsOf w.pair (cs.getD c [])).1.drop (j * groupSize w.gsize)).take (groupSize w.gsize),
      ((splitLE 1 (sliceK w.pair) x).drop (j * groupSize w.gsize)).take (groupSize w.gsize),
      groupScale w sc c j, groupSum w sm c j)

/-- A column of a narrow run's slice, and of one on BF16 values, from its entry. -/
def narrowValue (w : Weights) (cs : List (List Nat)) (x sc sm : List Byte) (held : List Int) (zp : Nat) (e : List Nat)
    (c : Nat) : Nat :=
  addGroups (w.pair == .b4a8) w.zpZero zp (sliceGroups w cs x sc sm held c) (e.getD c 0)

/-- The code of a tile that a slice on BF16 values begins with. -/
def firstCode (op : MSlice) : Nat := if sliceK op.w.pair < unitK op.w ∧ op.second = true then sliceK op.w.pair else 0

def wideValue (op : MSlice) (cs : List (List Nat)) (sc : List Byte) (xs e : List Nat) (c : Nat) : Nat :=
  bfCycles (sliceK op.w.pair / 16) (e.getD c 0)
    ((widenColumn op.w (firstCode op) (cs.getD c [])
      ((List.range (unitGroups op.w)).map (groupScale op.w sc c))).map Prod.fst) xs

section
variable {s r : State} {a : At} {op : MSlice} {e : List Nat} {x : List Byte} {cs : List (List Nat)}

theorem levels_getD (w : Weights) (h : cs.length = 64) {c : Nat} (hc : c < 64) :
    ((cs.map (levelsOf w.pair)).getD c ([], 0)).1 = (levelsOf w.pair (cs.getD c [])).1 := by
  simp [List.getD_eq_getElem?_getD, h, hc]

theorem dots_eq (w : Weights) (h : cs.length = 64) : (List.range 64).map (fun c =>
    dotInt ((cs.map (levelsOf w.pair)).getD c ([], 0)).1 (splitLE 1 (sliceK w.pair) x)) = (List.range 64).map (dotOf w cs x) :=
  List.map_congr_left fun c hc => by rw [levels_getD w h (List.mem_range.1 hc), dotOf]

/-- What a slice adds to a column, from the lists that it has read. -/
theorem sliceGroups_read {w : Weights} {sc sm : List Byte} {held : List Int} (h : cs.length = 64) {c : Nat} (hcol : c < 64) :
    (let levels := ((cs.map (levelsOf w.pair)).getD c ([], 0)).1
     let scales := ((List.range 64).map fun c => (List.range (unitGroups w)).map (groupScale w sc c)).getD c []
     let sums := (sumsOf w sm).getD c []
     let part := (List.range 64).map fun c =>
       dotInt ((cs.map (levelsOf w.pair)).getD c ([], 0)).1 (splitLE 1 (sliceK w.pair) x)
     if sliceK w.pair < unitK w then [([part.getD c 0 + held.getD c 0], [1], scales.getD 0 0, sums.getD 0 0)]
     else columnGroups w levels (splitLE 1 (sliceK w.pair) x) scales sums) = sliceGroups w cs x sc sm held c := by
  dsimp only
  unfold sliceGroups
  rw [dots_eq w h, levels_getD w h hcol]
  split
  next split =>
    have one := unitGroups_of_split split
    rw [scales_getD sc hcol (by omega), sumsOf_getD sm hcol (by omega)]
    simp [List.getD_eq_getElem?_getD, hcol]
  next whole =>
    refine List.map_congr_left fun j hj => ?_
    have hj := List.mem_range.1 hj
    rw [scales_getD sc hcol hj, sumsOf_getD sm hcol hj]

theorem reaches_pure_eq {α : Type} {v v' : α} {P : State → Prop} (e : v = v') (p : P s) : Reaches (pure v) s v' P :=
  e ▸ reaches_pure p

/-- Both stores are as before the step. -/
structure StoresKept (g : Nat) (s t : State) : Prop extends Within g s t where
  cis : t.cis = s.cis
  acc : t.acc = s.acc

theorem Tallied.storesKept {g : Nat} (h : Tallied g s r) : StoresKept g s r := ⟨h.toWithin, h.cis, h.acc⟩

theorem StoresKept.trans {g : Nat} {t : State} (h : StoresKept g s r) (k : StoresKept g r t) : StoresKept g s t :=
  ⟨h.toWithin.trans k.toWithin, k.cis.trans h.cis, k.acc.trans h.acc⟩

theorem storesKept_hold (sums : List Int) (r : State) :
    StoresKept a.core r (r.modCore a.core fun x => { x with heldSums := sums }) :=
  ⟨within_modCore (fun _ => rfl) r, rfl, rfl⟩

/-- The first slice of a tile that two make up holds its sums. -/
theorem narrowSlice_holds (h : Tallied a.core s r) (hc : Clean s) (hx : Readable s a none op.actOff (sliceK op.w.pair) x)
    (split : sliceK op.w.pair < unitK op.w) (second : op.second = false) (ht : TileIs s a op.w 0 (sliceK op.w.pair) cs) :
    Reaches (narrowSlice a op e) r e fun t => StoresKept a.core s t ∧
      (t.core a.core).heldSums = (List.range 64).map (dotOf op.w cs x) := by
  unfold narrowSlice
  simp only [split, second, decide_true, Bool.and_false, Bool.not_false, Bool.and_self, if_true, Bool.false_eq_true, if_false]
  refine .after (load_yields (h.clean hc) (h.readable h.cis hx)) ?_
  refine .after (tileCodes_yields (h.clean hc) (h.tileIs h.cis ht)) ?_
  refine (saturate_reaches ..).bind fun t sat => ?_
  refine .after (yields_getS t) (.after (yields_modS _ t) (reaches_pure ⟨?_, ?_⟩))
  · exact (h.trans sat).storesKept.trans (storesKept_hold ..)
  · rw [core_modCore, if_pos rfl]
    exact dots_eq op.w ht.1

/-- Any other slice adds its groups. -/
theorem narrowSlice_adds (h : Tallied a.core s r) (hc : Clean s) {sc sm zb : List Byte}
    (hx : Readable s a none op.actOff (sliceK op.w.pair) x) (adds : sliceK op.w.pair = unitK op.w ∨ op.second = true)
    (ht : TileIs s a op.w (if sliceK op.w.pair < unitK op.w then sliceK op.w.pair else 0) (sliceK op.w.pair) cs)
    (groups : GroupsAre s a op.w sc sm) (hz : Readable s a none (op.scaleBlock + 0x100 + op.token) 1 zb) :
    Reaches (narrowSlice a op e) r ((List.range 64).map (narrowValue op.w cs x sc sm (s.core a.core).heldSums (field zb 0 1) e))
      (StoresKept a.core s) := by
  have second : (decide (sliceK op.w.pair < unitK op.w) && !op.second) = false := by
    rcases adds with whole | second
    · simp [whole]
    · simp [second]
  have first : (if (decide (sliceK op.w.pair < unitK op.w) && op.second) = true then sliceK op.w.pair else 0) =
      if sliceK op.w.pair < unitK op.w then sliceK op.w.pair else 0 := by
    rcases adds with whole | second
    · simp [whole]
    · simp [second]
  unfold narrowSlice
  simp only [second, first, Bool.false_eq_true, if_false]
  refine .after (load_yields (h.clean hc) (h.readable h.cis hx)) ?_
  refine .after (tileCodes_yields (h.clean hc) (h.tileIs h.cis ht)) ?_
  refine (saturate_reaches ..).bind fun t sat => ?_
  have st := h.trans sat
  have hct := st.clean hc
  refine .after (yields_getS t) ?_
  refine .after (tileScales_yields hct (st.readable st.cis groups.1)) ?_
  refine .after (tileSums_yields (sm := sm) hct ?_) ?_
  · have sums := groups.2
    split at sums
    next zero => rw [if_pos zero]; exact sums
    next sums' => rw [if_neg sums']; exact st.readable st.cis sums
  refine .after (load_yields hct (st.readable st.cis hz)) ?_
  refine .after (yields_modS _ t) ?_
  have kept := st.storesKept.trans (storesKept_hold [] t)
  rw [st.held]
  exact reaches_pure_eq (List.map_congr_left fun c hcol => congrArg
    (fun gs => addGroups (op.w.pair == .b4a8) op.w.zpZero (field zb 0 1) gs (e.getD c 0))
    (sliceGroups_read ht.1 (List.mem_range.1 hcol))) kept

/-- The activations of a slice as BF16: stored so, of the wide region, or decoded (R89, R90). -/
def WideActsAre (s : State) (a : At) (op : MSlice) (xs : List Nat) : Prop :=
  let k := sliceK op.w.pair
  if op.w.pair = .bf16 then ∃ b, Readable s a none op.actOff (2 * k) b ∧ xs = splitLE 2 k b
  else match op.wide with
    | some src => ∃ ys, ValuesAre s a src k ys ∧ xs = ys.map (fun y => (rowConv src bf16 y).1)
    | none => ∃ b sa zp, Readable s a none op.actOff k b ∧ ScaleIs s a op.scaleBlock op.token sa zp ∧
        xs = (splitLE 1 k b).map (fun q => (decodeBf16 sa zp q).1)

theorem wideActs_reaches (h : Tallied a.core s r) (hc : Clean s) {xs : List Nat} (hx : WideActsAre s a op xs) :
    Reaches (wideActs a op (sliceK op.w.pair)) r xs (Tallied a.core s) := by
  have converted {t : State} {ys : List (Nat × Nat)} {vs : List Nat} (ht : Tallied a.core s t) (e : ys.map Prod.fst = vs) :
      Reaches (do saturate a (satSum ys); pure (ys.map Prod.fst)) t vs (Tallied a.core s) :=
    (saturate_reaches ..).bind fun u hu => reaches_pure_eq e (ht.trans hu)
  unfold wideActs
  unfold WideActsAre at hx
  dsimp only at hx
  split at hx
  next stored =>
    rw [if_pos (by simp [stored])]
    obtain ⟨b, hb, rfl⟩ := hx
    exact (rowRaw_yields (src := .bf16 op.actOff) (h.clean hc) ⟨b, h.readable h.cis hb, rfl⟩).reaches h
  next pair =>
    rw [if_neg (by simpa using pair)]
    cases hw : op.wide with
    | some src =>
      rw [hw] at hx
      obtain ⟨ys, hv, rfl⟩ := hx
      have read : Reaches (do let vs ← rowVals a src (sliceK op.w.pair); pure (vs.map (rowConv src bf16))) r
          (ys.map (rowConv src bf16)) (Tallied a.core s) :=
        (rowVals_reaches (h.clean hc) (h.valuesAre h.cis h.acc hv)).bind fun t ht => reaches_pure (h.trans ht.tallied)
      exact read.bind fun t ht => converted ht List.map_map
    | none =>
      rw [hw] at hx
      obtain ⟨b, sa, zp, hb, scale, rfl⟩ := hx
      have read : Yields (do
          let b ← load a none op.actOff (sliceK op.w.pair)
          let (sa, zp) ← tokenScale a op.scaleBlock op.token
          pure ((splitLE 1 (sliceK op.w.pair) b).map (decodeBf16 sa zp))) r
          ((splitLE 1 (sliceK op.w.pair) b).map (decodeBf16 sa zp)) r :=
        (load_yields (h.clean hc) (h.readable h.cis hb)).bind
          ((tokenScale_yields (h.clean hc) (h.scaleIs h.cis scale)).bind (yields_pure _ r))
      exact .after read (converted h List.map_map)

/-- A slice in a widened run or of a BF16 layer adds its BF16 cycles. -/
theorem wideSlice_adds (h : Tallied a.core s r) (hc : Clean s) {xs : List Nat} {sc : List Byte}
    (ht : TileIs s a op.w (firstCode op) (sliceK op.w.pair) cs)
    (scales : if op.w.pair = .bf16 then sc = [] else Readable s a op.w.image op.w.scaleOff (2 * 64 * unitGroups op.w) sc)
    (hx : WideActsAre s a op xs) :
    Reaches (wideSlice a op e) r ((List.range 64).map (wideValue op cs sc xs e)) (StoresKept a.core s) := by
  have first : (if (decide (sliceK op.w.pair < unitK op.w) && op.second) = true then sliceK op.w.pair else 0) =
      firstCode op := by simp [firstCode]
  unfold wideSlice
  simp only [first]
  refine (wideActs_reaches h hc hx).bind fun t acts => ?_
  have hct := acts.clean hc
  refine .after (tileCodes_yields hct (acts.tileIs acts.cis ht)) ?_
  have read : Reaches (if op.w.pair == .bf16 then pure [] else tileScales a op.w 0) t
      (if op.w.pair = .bf16 then [] else (List.range 64).map fun c => (List.range (unitGroups op.w)).map (groupScale op.w sc c))
      (Tallied a.core s) := by
    split at scales
    next stored => rw [if_pos (by simp [stored]), if_pos stored]; exact reaches_pure acts
    next pair =>
      rw [if_neg (by simpa using pair), if_neg pair]
      exact (tileScales_yields hct (acts.readable acts.cis scales)).reaches acts
  refine .branch read fun u hu => ?_
  refine (saturate_reaches ..).bind fun v hv => ?_
  refine reaches_pure_eq (List.map_congr_left fun c hcol => ?_) (hu.trans hv).storesKept
  have column : (if op.w.pair = .bf16 then []
      else (List.range 64).map fun c => (List.range (unitGroups op.w)).map (groupScale op.w sc c)).getD c [] =
        (List.range (unitGroups op.w)).map (groupScale op.w sc c) := by
    have hcol := List.mem_range.1 hcol
    split
    next stored => simp [unitGroups, stored]
    next pair => simp [List.getD_eq_getElem?_getD, hcol]
  unfold wideValue
  rw [← column]
  simp [List.getD_eq_getElem?_getD, List.mem_range.1 hcol]

end

end Sys2Proof.Machine
end

section
/-! #### The step of a slice -/
namespace Sys2Proof.Machine

/-- A slice runs on BF16 values. -/
def wideRun (a : At) (op : MSlice) : Bool := op.w.pair == .bf16 || a.cmd.widened

/-- A slice compares the tags of its block. -/
def Compares (s : State) (g : Nat) (a : At) (op : MSlice) : Prop :=
  op.w.pair ≠ .bf16 ∧ (a.cmd.widened = true → op.wide = none) ∧
    (op.opens = true ∨ (s.core g).checked ≠ some (op.trailer, op.scaleBlock))

/-- What a slice does once its values stand in their row: the output stage narrows them, and the cycles are counted. -/
def sliceEnd (a : At) (op : MSlice) : Eng Bool := do
  match op.final, op.narrow with
  | true, some n => narrowStep a n
  | _, _ => pure ()
  modS (fun s => s.perfAdd a.core 0 (if wideRun a op then sliceK op.w.pair / 16 else 1))
  pure true

/-- The step of a slice, up to its end. -/
def sliceStep (core : Nat) (clash : Clash) (a : At) (op : MSlice) : Eng Bool := do
  modS (countClash core clash)
  sliceTags a op
  let entry ← if op.first then pure (List.replicate 64 0) else accLoad a op.entry 0 64
  let out ← if wideRun a op then wideSlice a op entry else narrowSlice a op entry
  let sc ← (if op.final && !wideRun a op then tokenScale a op.scaleBlock op.token else pure (0, 0))
  let out := if op.final && !wideRun a op then out.map (fun e => encF c48 ((decF c48 e).mul (decF fp32 sc.1))) else out
  accStore a op.entry out
  sliceEnd a op

theorem exec_mengineSlice (g : Nat) (clash : Clash) (s : State) :
    exec (.mengineSlice g clash) s = .next (onStep g s asMatmul (sliceStep g clash)) := rfl

/-- A computation goes on from a state of which P holds as k does. -/
def Passes {β : Type} (x : Eng β) (s : State) (k : Eng β) (P : State → Prop) : Prop :=
  ∃ m, P m ∧ ∀ v t, Yields k m v t → Yields x s v t

section
variable {α β : Type} {s t : State} {P Q : State → Prop} {x : Eng α} {f : α → Eng β} {v : α} {k : Eng β}

theorem Passes.refl (p : P s) : Passes k s k P := ⟨s, p, fun _ _ h => h⟩

theorem Passes.after (h : Yields x s v t) (c : Passes (f v) t k P) : Passes (x >>= f) s k P := by
  obtain ⟨m, p, go⟩ := c
  exact ⟨m, p, fun w u hu => h.bind (go w u hu)⟩

theorem Reaches.passes (h : Reaches x s v P) (c : ∀ t, P t → Passes (f v) t k Q) : Passes (x >>= f) s k Q := by
  obtain ⟨t, hx, p⟩ := h
  exact .after hx (c t p)

theorem Reaches.branchPasses {c : Prop} [Decidable c] {y : Eng α} (h : Reaches (if c then x else y) s v P)
    (go : ∀ t, P t → Passes (f v) t k Q) : Passes (if c then x >>= f else y >>= f) s k Q := by
  split at h
  next hc => rw [if_pos hc]; exact h.passes go
  next hc => rw [if_neg hc]; exact h.passes go

end

section
variable {g : Nat} {s r t : State} {a : At} {op : MSlice} {clash : Clash}

theorem checked_holdPort (st : PlanStep) (s : State) (h : Nat) : ((holdPort a st s).core h).checked = (s.core h).checked := by
  unfold holdPort
  split
  · rfl
  · rw [core_modCore]
    split
    next e => rw [e]
    · rfl

theorem checked_countClash (k : Clash) (s : State) (h : Nat) : ((countClash g k s).core h).checked = (s.core h).checked := by
  unfold countClash
  extract_lets s1 s2
  have h1 : (s1.core h).checked = (s.core h).checked := by
    unfold s1
    split
    · rw [coreErr, core_modCore]
      split
      next e => rw [e]
      · rfl
    · rfl
  have h2 : s2.core h = s1.core h := by unfold s2; split <;> rfl
  rw [← h1, ← h2]
  split <;> rfl

/-- The model's condition for a slice to compare tags. -/
theorem compares_iff : (op.w.pair != .bf16 && !(a.cmd.widened && op.wide.isSome) &&
    (op.opens || (s.core a.core).checked != some (op.trailer, op.scaleBlock))) = true ↔ Compares s a.core a op := by
  simp only [Compares, Bool.and_eq_true, bne_iff_ne, Bool.not_eq_true', Bool.and_eq_false_iff, Option.isSome_eq_false_iff,
    Option.isNone_iff_eq_none, Bool.or_eq_true, and_assoc, ne_eq]
  refine and_congr_right fun _ => and_congr_left fun _ => ?_
  cases a.cmd.widened <;> simp

theorem sliceTags_reaches (h : Tallied a.core s r) (hk : (r.core a.core).checked = (s.core a.core).checked) (hc : Clean s)
    (tags : Compares s a.core a op → TagsAgree s a op.trailer op.scaleBlock) :
    Reaches (sliceTags a op) r () (Tallied a.core s) := by
  refine .after (yields_getS r) ?_
  rw [hk]
  dsimp only
  split
  next compares =>
    obtain ⟨t, hy, ht⟩ := tagCheck_reaches (h.clean hc) (h.tagsAgree h.cis (tags (compares_iff.1 compares)))
    exact ⟨t, hy, h.trans ht.tallied⟩
  · exact reaches_pure h

/-- The state of a slice whose values stand in their row. -/
structure Put (a : At) (ks vs : List Nat) (s m : State) : Prop extends Within a.core s m where
  cis : m.cis = s.cis
  acc : m.acc = putValues ks vs s.acc

theorem Put.keysWritten {ks vs : List Nat} {row : Nat} {m : State} (h : Put a ks vs s m) (hr : RowAt s a row 0 64 ks)
    (hl : vs.length = 64) : KeysWritten ks vs s m := keysWritten_putValues hr.nodup (by rw [hr.length, hl]) h.acc

/-- What a slice puts in its row: it is done with them, or it goes on to the narrowing of its output stage. -/
def Puts (g : Nat) (clash : Clash) (a : At) (op : MSlice) (ks : List Nat) (s : State) (vs : List Nat) (n : Nat) : Prop :=
  (op.final = false ∨ op.narrow = none → ∃ t, Answers (.mengineSlice g clash) s t ∧ StepDone g s t ∧
      t.cis = s.cis ∧ KeysWritten ks vs s t ∧ tget t.perf (16 * g + 0) 0 = ctrAdd (tget s.perf (16 * g + 0) 0) n) ∧
    ∀ z, op.final = true → op.narrow = some z → ∃ m, KeysWritten ks vs s m ∧ (∀ h, h ≠ g → m.core h = s.core h) ∧
      m = { s with acc := m.acc, perf := m.perf, inflight := m.inflight, loops := m.loops, cores := m.cores } ∧
      ∀ q, Yields (narrowStep a z) m () q → Answers (.mengineSlice g clash) s (advance a (q.perfAdd g 0 n))

/-- FINAL multiplies the values of a narrow run by s_a. -/
def finalValues (a : At) (op : MSlice) (sa : Nat) (out : List Nat) : List Nat :=
  if op.final && !wideRun a op then out.map fun e => encF c48 ((decF c48 e).mul (decF fp32 sa)) else out

theorem length_finalValues (sa : Nat) (out : List Nat) : (finalValues a op sa out).length = out.length := by
  unfold finalValues
  split
  · exact List.length_map _
  · rfl

section
variable {ks e out : List Nat} {sa : Nat} {H : List Int → Prop} (h : StandsAt g a (.matmul op) s)
  (hr : RowAt s a op.entry 0 64 ks) (he : e = if op.first then List.replicate 64 0 else valuesAt s ks)
  (tags : Compares s a.core a op → TagsAgree s a op.trailer op.scaleBlock) (hl : out.length = 64)
  (sums : ∀ r, Tallied a.core s r → Reaches (if wideRun a op then wideSlice a op e else narrowSlice a op e) r out
    fun t => StoresKept a.core s t ∧ H (t.core a.core).heldSums)
  (scale : op.final = true → wideRun a op = false → ∃ zp, ScaleIs s a op.scaleBlock op.token sa zp)
include h hr he tags hl sums scale

/-- A slice whose tags agree puts its values in their row. -/
theorem sliceStep_passes : Passes (sliceStep a.core clash a op) (holdPort a (.matmul op) s) (sliceEnd a op)
    fun m => Put a ks (finalValues a op sa out) s m ∧ H (m.core a.core).heldSums := by
  have port := h.holdPort.tallied
  refine .after (yields_modS _ _) ?_
  refine (sliceTags_reaches (port.trans (tallied_countClash ..)) ?_ h.clean tags).passes fun t ht => ?_
  · rw [checked_countClash, checked_holdPort]
  have hct := ht.clean h.clean
  have entry : Reaches (if op.first then pure (List.replicate 64 0) else accLoad a op.entry 0 64) t e (Tallied a.core s) := by
    rw [he]
    split
    · exact reaches_pure ht
    · have e := accLoad_yields hct (ht.rowAt hr)
      rw [ht.valuesAt_eq ht.acc] at e
      exact e.reaches ht
  refine entry.branchPasses fun u hu => ?_
  refine (sums u hu).branchPasses fun v ⟨kept, held⟩ => ?_
  have hcv := kept.clean h.clean
  have put : Passes (do
      accStore a op.entry (finalValues a op sa out)
      sliceEnd a op) v (sliceEnd a op) fun m => Put a ks (finalValues a op sa out) s m ∧ H (m.core a.core).heldSums :=
    .after (accStore_yields hcv (kept.rowAt (ks := ks) (by rwa [length_finalValues, hl])))
      (.refl ⟨⟨kept.toWithin.trans (within_acc _ v), kept.cis, by rw [kept.acc]⟩, held⟩)
  unfold finalValues at put ⊢
  split
  next final =>
    obtain ⟨zp, scale⟩ := scale (by simp_all) (by simp_all)
    rw [if_pos final] at put
    exact .after (tokenScale_yields hcv (kept.scaleIs kept.cis scale)) put
  next plain =>
    rw [if_neg plain] at put
    exact .after (yields_pure _ v) put

/-- Without a narrowing the slice is done. -/
theorem slice_done (plain : op.final = false ∨ op.narrow = none) : ∃ t, Answers (.mengineSlice g clash) s t ∧ StepDone g s t ∧
    t.cis = s.cis ∧ KeysWritten ks (finalValues a op sa out) s t ∧
    tget t.perf (16 * g + 0) 0 = ctrAdd (tget s.perf (16 * g + 0) 0) (if wideRun a op then sliceK op.w.pair / 16 else 1) ∧
    H (t.core g).heldSums := by
  obtain rfl := h.core_eq
  obtain ⟨m, ⟨put, held⟩, rest⟩ := sliceStep_passes (clash := clash) h hr he tags hl sums scale
  obtain ⟨t, answer, done, counted, r, ⟨rput, rheld⟩, tcis, tacc, -, -, theld⟩ := h.done (i := .mengineSlice a.core clash)
    (pick := asMatmul) (op := op) (n := 0) (k := if wideRun a op then sliceK op.w.pair / 16 else 1) rfl
    (exec_mengineSlice a.core clash) rfl (by omega)
    (P := fun m => Put a ks (finalValues a op sa out) s m ∧ H (m.core a.core).heldSums) <| by
    obtain ⟨t, hy, ht⟩ : Reaches (sliceEnd a op) m true (Ends a s 0 (if wideRun a op then sliceK op.w.pair / 16 else 1)
        fun m => Put a ks (finalValues a op sa out) s m ∧ H (m.core a.core).heldSums) := by
      have counts := reaches_count (n := 0) (k := if wideRun a op then sliceK op.w.pair / 16 else 1) put.toWithin
        (P := fun m => Put a ks (finalValues a op sa out) s m ∧ H (m.core a.core).heldSums) ⟨put, held⟩
      unfold sliceEnd
      rcases plain with plain | plain <;> rw [plain]
      · exact counts
      · cases op.final <;> exact counts
    exact ⟨t, rest _ _ hy, ht⟩
  refine ⟨t, answer, done, tcis.trans rput.cis, ?_, counted, by rwa [theld]⟩
  exact keysWritten_putValues hr.nodup (by rw [hr.length, length_finalValues, hl]) (tacc.trans rput.acc)

/-- With a narrowing it goes on to what that leaves. -/
theorem slice_narrows {z : NarrowOp} (final : op.final = true) (narrow : op.narrow = some z) :
    ∃ m, Put a ks (finalValues a op sa out) s m ∧ ∀ q, Yields (narrowStep a z) m () q → Answers (.mengineSlice g clash) s
      (advance a (q.perfAdd g 0 (if wideRun a op then sliceK op.w.pair / 16 else 1))) := by
  obtain rfl := h.core_eq
  obtain ⟨m, ⟨put, -⟩, rest⟩ := sliceStep_passes (clash := clash) h hr he tags hl sums scale
  refine ⟨m, put, fun q hq => ?_⟩
  have ended : Yields (sliceEnd a op) m true (q.perfAdd a.core 0 (if wideRun a op then sliceK op.w.pair / 16 else 1)) := by
    unfold sliceEnd
    rw [final, narrow]
    exact hq.bind ((yields_modS _ q).bind (yields_pure _ _))
  exact (exec_mengineSlice a.core clash s).trans (congrArg _ (onStep_yields h rfl (rest _ _ ended)))

theorem slice_puts : Puts g clash a op ks s (finalValues a op sa out) (if wideRun a op then sliceK op.w.pair / 16 else 1) := by
  constructor
  · intro plain
    obtain ⟨t, answer, done, cis, written, counted, -⟩ := slice_done (clash := clash) h hr he tags hl sums scale plain
    exact ⟨t, answer, done, cis, written, counted⟩
  · intro z final narrow
    obtain ⟨m, put, goes⟩ := slice_narrows (clash := clash) h hr he tags hl sums scale final narrow
    refine ⟨m, put.keysWritten hr (by rw [length_finalValues, hl]), ?_, ?_, goes⟩
    · rw [← h.core_eq]
      exact put.others
    · have only := put.only
      rwa [put.cis] at only

end

theorem length_entry {ks e : List Nat} (hr : RowAt s a op.entry 0 64 ks)
    (he : e = if op.first then List.replicate 64 0 else valuesAt s ks) : e.length = 64 := by
  rw [he]
  split
  · exact List.length_replicate
  · simp [valuesAt, hr.length]

/-- A narrow run's values, multiplied where the slice is the last. -/
theorem finalValues_narrow (narrow : wideRun a op = false) (sa : Nat) (v : Nat → Nat) :
    finalValues a op sa ((List.range 64).map v) =
      (List.range 64).map fun c => if op.final then encF c48 ((decF c48 (v c)).mul (decF fp32 sa)) else v c := by
  unfold finalValues
  rw [narrow, Bool.not_false, Bool.and_true]
  cases op.final
  · rfl
  · exact List.map_map

theorem finalValues_plain (h : op.final = false ∨ wideRun a op = true) (sa : Nat) (out : List Nat) :
    finalValues a op sa out = out := if_neg (by rcases h with h | h <;> simp [h])

section
variable {ks e : List Nat} {x : List Byte} {cs : List (List Nat)} (h : StandsAt g a (.matmul op) s)
  (hr : RowAt s a op.entry 0 64 ks) (he : e = if op.first then List.replicate 64 0 else valuesAt s ks)
  (tags : Compares s a.core a op → TagsAgree s a op.trailer op.scaleBlock)
include h hr he tags

theorem puts_narrow {sc sm zb : List Byte} {sa zp : Nat} (narrow : wideRun a op = false)
    (hx : Readable s a none op.actOff (sliceK op.w.pair) x) (adds : sliceK op.w.pair = unitK op.w ∨ op.second = true)
    (tile : TileIs s a op.w (if sliceK op.w.pair < unitK op.w then sliceK op.w.pair else 0) (sliceK op.w.pair) cs)
    (groups : GroupsAre s a op.w sc sm) (hz : Readable s a none (op.scaleBlock + 0x100 + op.token) 1 zb)
    (scale : op.final = true → ScaleIs s a op.scaleBlock op.token sa zp) :
    let v := narrowValue op.w cs x sc sm (s.core g).heldSums (field zb 0 1) e
    Puts g clash a op ks s ((List.range 64).map fun c =>
      if op.final then encF c48 ((decF c48 (v c)).mul (decF fp32 sa)) else v c) 1 := by
  intro v
  have sums (r : State) (hr : Tallied a.core s r) : Reaches (if wideRun a op then wideSlice a op e else narrowSlice a op e) r
      ((List.range 64).map v) fun t => StoresKept a.core s t ∧ True := by
    rw [narrow]
    obtain ⟨t, hy, ht⟩ := narrowSlice_adds (e := e) hr h.clean hx adds tile groups hz
    rw [h.core_eq] at hy
    exact ⟨t, hy, ht, trivial⟩
  have put := slice_puts (clash := clash) (H := fun _ => True) h hr he tags (by simp) sums fun final _ => ⟨zp, scale final⟩
  rwa [finalValues_narrow narrow, narrow] at put

theorem first_half_done (narrow : wideRun a op = false) (hx : Readable s a none op.actOff (sliceK op.w.pair) x)
    (split : sliceK op.w.pair < unitK op.w) (second : op.second = false) (final : op.final = false)
    (tile : TileIs s a op.w 0 (sliceK op.w.pair) cs) : ∃ t, Answers (.mengineSlice g clash) s t ∧ StepDone g s t ∧
      t.cis = s.cis ∧ KeysWritten ks e s t ∧ tget t.perf (16 * g + 0) 0 = ctrAdd (tget s.perf (16 * g + 0) 0) 1 ∧
      (t.core g).heldSums = (List.range 64).map (dotOf op.w cs x) := by
  have sums (r : State) (hr : Tallied a.core s r) : Reaches (if wideRun a op then wideSlice a op e else narrowSlice a op e) r
      e fun t => StoresKept a.core s t ∧ (t.core a.core).heldSums = (List.range 64).map (dotOf op.w cs x) := by
    rw [narrow]
    exact narrowSlice_holds hr h.clean hx split second tile
  have done := slice_done (clash := clash) (H := fun x' => x' = (List.range 64).map (dotOf op.w cs x)) (sa := 0) h hr he tags
    (length_entry hr he) sums (fun f => by simp [final] at f) (.inl final)
  rwa [finalValues_plain (.inl final), narrow] at done

theorem puts_wide {xs : List Nat} {sc : List Byte} (wide : wideRun a op = true)
    (tile : TileIs s a op.w (firstCode op) (sliceK op.w.pair) cs)
    (scales : if op.w.pair = .bf16 then sc = [] else Readable s a op.w.image op.w.scaleOff (2 * 64 * unitGroups op.w) sc)
    (hx : WideActsAre s a op xs) :
    Puts g clash a op ks s ((List.range 64).map (wideValue op cs sc xs e)) (sliceK op.w.pair / 16) := by
  have sums (r : State) (hr : Tallied a.core s r) : Reaches (if wideRun a op then wideSlice a op e else narrowSlice a op e) r
      ((List.range 64).map (wideValue op cs sc xs e)) fun t => StoresKept a.core s t ∧ True := by
    rw [wide]
    obtain ⟨t, hy, ht⟩ := wideSlice_adds (e := e) hr h.clean tile scales hx
    exact ⟨t, hy, ht, trivial⟩
  have put := slice_puts (clash := clash) (H := fun _ => True) (sa := 0) h hr he tags (by simp) sums
    fun _ narrow => by simp [wide] at narrow
  rwa [finalValues_plain (.inr wide), wide] at put

end

end

end Sys2Proof.Machine
end

section
/-!
### The fault of a slice whose tags differ

What ends a command and tears a context down keeps who is in flight, but for those that retire, and which contexts have
faulted and why. First the functions that retire nobody, in the order of the model's text.
-/
namespace Sys2Proof.Machine

/-- What a command is, and the fault of a context. -/
def cmdKey (c : Cmd) : Nat × Nat × Nat := (c.uid, c.ctx, c.opcode)
def faultOf (x : Ctx) : Bool × Nat := (x.faulted, x.fault)

/-- The commands in flight, and the faults of the contexts. -/
def roster (s : State) : List (Nat × Nat × Nat) × (Nat → Option (Bool × Nat)) :=
  (s.inflight.map cmdKey, fun k => (s.ctx? k).map faultOf)

section
variable {s : State}

theorem roster_foldl {β : Type} {f : State → β → State} (h : ∀ s x, roster (f s x) = roster s) (xs : List β) (s : State) :
    roster (xs.foldl f s) = roster s :=
  foldl_rel (fun s t => roster t = roster s) f (fun _ => rfl) (fun h k => k.trans h) h xs s

theorem roster_modCmd {f : Cmd → Cmd} (hf : ∀ c, cmdKey (f c) = cmdKey c) (u : Nat) (s : State) :
    roster (s.modCmd u f) = roster s := by
  have keys : (s.modCmd u f).inflight.map cmdKey = s.inflight.map cmdKey := by
    simp only [State.modCmd, List.map_map]
    exact List.map_congr_left fun d _ => by simp only [Function.comp]; split <;> simp [hf]
  exact congrArg (·, (roster s).2) keys

theorem roster_modCtx {f : Ctx → Ctx} (hf : ∀ x, faultOf (f x) = faultOf x) (c : Nat) (s : State) :
    roster (s.modCtx c f) = roster s := by
  have faults : (fun k => ((s.modCtx c f).ctx? k).map faultOf) = fun k => (s.ctx? k).map faultOf := by
    funext k
    simp only [State.ctx?, State.modCtx, tget?_tmod]
    split
    · cases tget? s.ctxs k <;> simp [hf]
    · rfl
  exact congrArg ((roster s).1, ·) faults

@[simp] theorem roster_modStats (c : Nat) (f : CtxStats → CtxStats) (s : State) : roster (s.modStats c f) = roster s :=
  roster_modCtx (f := fun x => { x with stats := f x.stats }) (fun _ => rfl) c s

@[simp] theorem roster_raise (e : Nat) (s : State) : roster (raise e s) = roster s := by
  obtain ⟨_, _, h⟩ := raise_rest e s
  rw [h]
  rfl

@[simp] theorem roster_msix (v : Nat) (s : State) : roster (msix v s) = roster s := by
  obtain ⟨_, _, h⟩ := msix_rest v s
  rw [h]
  rfl

theorem LatOnly.roster_eq {t : State} (h : LatOnly s t) : roster t = roster s := by
  obtain ⟨_, _, _, rfl⟩ := h
  rfl

theorem PushOnly.roster_eq {t : State} (h : PushOnly s t) : roster t = roster s := by
  obtain ⟨_, _, _, _, _, rfl⟩ := h.rest
  rfl

/-! #### Reads and writes of memory -/

@[simp] theorem roster_markImageWord (w : Nat) (s : State) : roster (markImageWord w s) = roster s := by
  unfold markImageWord
  dsimp only
  split
  · split <;> rfl
  · rfl

@[simp] theorem roster_meetCis (a n : Nat) (s : State) : roster (meetCis a n s) = roster s := by
  refine roster_foldl (fun s w => ?_) _ s
  unfold meetCisWord
  dsimp only
  split
  · exact roster_markImageWord ..
  split
  · exact roster_markImageWord ..
  split
  · exact roster_raise ..
  · rfl

@[simp] theorem roster_meetWell (a n : Nat) (s : State) : roster (meetWell a n s) = roster s := by
  refine roster_foldl (fun s w => ?_) _ s
  unfold meetWellGranule
  dsimp only
  split
  · rfl
  split
  · exact roster_raise ..
  · rfl

@[simp] theorem roster_wellWrite (a : Nat) (bs : List Byte) (s : State) : roster (wellWrite a bs s) = roster s :=
  roster_foldl (fun s p => by unfold wellWritePiece; split <;> rfl) _ s

theorem roster_readAt (ad : Addr) (n : Nat) (s : State) : roster (readAt ad n s).2 = roster s := by
  unfold readAt readFrom
  cases ad with
  | host a => rfl
  | well a =>
    obtain ⟨_, h⟩ := touchWell_rest (meetWell a n s) (wellOf a)
    simp only [h]
    exact roster_meetWell a n s
  | cis a =>
    have counted : roster (countInbound none a n (meetCis a n s)) = roster s := by
      obtain ⟨_, h⟩ := countInbound_rest (meetCis a n s) none a n
      rw [h]
      exact roster_meetCis a n s
    dsimp only
    split
    · split <;> exact counted
    · exact roster_foldl (f := fun s (p : Nat × Nat) => coreErr (csCore p.1) 7 s) (fun s p => rfl) _ s

theorem roster_partialWrite (ad : Addr) (bs : List Byte) (s : State) : roster (partialWrite ad bs s) = roster s := by
  unfold partialWrite
  cases ad with
  | host a => rfl
  | well a => exact roster_wellWrite ..
  | cis a =>
    dsimp only
    split <;> rfl

/-! #### The store of a context, charges and counts -/

theorem roster_trySecure (u : Nat) (s : State) : roster (trySecure u s).2 = roster s := by
  unfold trySecure
  split
  · rfl
  · dsimp only
    split
    next got pool _ =>
      rw [roster_modCmd (f := fun c => { c with secured := got }) fun _ => rfl]
      exact roster_modCtx (f := fun x => { x with pool := pool }) (fun _ => rfl) ..
    · rfl

theorem roster_kvRetry (u : Nat) (s : State) : roster (kvRetry u s) = roster s := by
  unfold kvRetry
  split
  · rfl
  split
  · rfl
  have tried := roster_trySecure u s
  split
  next e =>
    rw [e] at tried
    exact (roster_modCmd (f := fun c => { c with phase := .ready, waitsOn := none }) (fun _ => rfl) ..).trans tried
  next q _ e =>
    rw [e] at tried
    exact (roster_modCmd (f := fun c => { c with waitsOn := some q }) (fun _ => rfl) ..).trans tried

@[simp] theorem roster_givePages (c : Nat) (ps : List Nat) (s : State) : roster (givePages c ps s) = roster s := by
  unfold givePages
  split
  · rfl
  · unfold wakeWaiters
    rw [roster_foldl fun s (d : Cmd) => roster_kvRetry d.uid s]
    exact roster_modCtx (f := fun x => { x with pool := ps.foldl (fun l p => insertPage p l) x.pool }) (fun _ => rfl) ..

theorem roster_relaxCluster (n : Nat) (s : State) : roster (relaxCluster n s) = roster s := by
  unfold relaxCluster
  dsimp only
  split
  · obtain ⟨_, h⟩ := setStanding_rest n (s.dom n).state s
    rw [h]
    rfl
  · rfl

theorem roster_spoutCharge (k : Nat) (s : State) : roster (spoutCharge k s) = roster s := by
  unfold spoutCharge
  dsimp only
  split
  · split <;> rfl
  · split <;> rfl

theorem CountOnly.roster_eq {t : State} (h : CountOnly s t) : roster t = roster s := by
  have faults : (fun k => (t.ctx? k).map faultOf) = fun k => (s.ctx? k).map faultOf := by
    funext k
    have kept := congrArg (Option.map faultOf) (h.ctxs k)
    rw [Option.map_map, Option.map_map] at kept
    exact kept
  obtain ⟨_, _, _, _, _, _, e⟩ := h.rest
  refine Prod.ext ?_ faults
  rw [e]
  rfl

end

end Sys2Proof.Machine
end

section
/-! #### Streams and their bindings -/
namespace Sys2Proof.Machine

@[simp] theorem roster_closeSegment (i : Nat) (s : State) : roster (closeSegment i s) = roster s := by
  unfold closeSegment
  split
  · rfl
  · split <;> rfl

@[simp] theorem roster_openSegment (i bseq payload fmt : Nat) (s : State) :
    roster (openSegment i bseq payload fmt s) = roster s := by
  unfold openSegment
  split <;> rfl

@[simp] theorem roster_closeIfChanged (i payload fmt : Nat) (s : State) :
    roster (closeIfChanged i payload fmt s) = roster s := by
  unfold closeIfChanged
  split
  · rfl
  split
  · rfl
  split
  · rfl
  · exact roster_closeSegment ..

theorem roster_hostWrite (a : Nat) (bs : List Byte) (s : State) : roster (hostWrite a bs s) = roster s := rfl

theorem roster_writeRecord (t : Target) (bytes : Block) (bseq : Nat) (s : State) :
    roster (writeRecord t bytes bseq s).2 = roster s :=
  (roster_hostWrite ..).trans (roster_hostWrite ..)

theorem roster_writeGap (t : Target) (s : State) : roster (writeGap t s).2 = roster s := by
  unfold writeGap
  split
  · split
    · rfl
    · exact roster_writeRecord ..
  · rfl

theorem roster_putBlock (b : OutBlock) (t : Target) (s : State) : roster (putBlock b t s).2 = roster s := by
  have gap := roster_writeGap t s
  unfold putBlock
  split
  · rfl
  · generalize writeGap t s = p at gap ⊢
    obtain ⟨t', s'⟩ := p
    dsimp only
    split
    · exact gap
    · exact (roster_writeRecord ..).trans gap

theorem roster_eachTarget {f : Target → State → Target × State} (h : ∀ t s, roster (f t s).2 = roster s) (ts : List Target)
    (s : State) : roster (eachTarget f ts s).2 = roster s := by
  induction ts generalizing s with
  | nil => rfl
  | cons t ts ih => exact (ih _).trans (h t s)

theorem roster_releaseBinding (b : Nat) (s : State) : roster (releaseBinding b s) = roster s := by
  unfold releaseBinding
  split
  · rfl
  · split <;> rfl

@[simp] theorem roster_freeStream (i : Nat) (s : State) : roster (freeStream i s) = roster s := by
  unfold freeStream
  split
  · rfl
  extract_lets stands freed left bound
  split
  · rfl
  rw [roster_spoutCharge]
  have hfreed : roster freed = roster s := by unfold freed; split <;> rfl
  have hleft : roster left = roster freed := by unfold left; split <;> rfl
  rw [← hfreed, ← hleft]
  unfold bound
  split
  · exact roster_releaseBinding ..
  · rfl

@[simp] theorem roster_putGap (b : Nat) (m : Missed) (s : State) : roster (putGap b m s) = roster s := by
  unfold putGap
  split
  · rfl
  next x _ =>
    have written := roster_eachTarget (f := fun t s => if t.abandoned then (t, s) else writeGap (addMissed t m) s)
      (fun t s => by split; exacts [rfl, roster_writeGap ..]) x.targets s
    dsimp only
    split
    · exact (roster_freeStream ..).trans written
    · exact written

@[simp] theorem roster_deliver (b : Nat) (blk : OutBlock) (s : State) : roster (deliver b blk s) = roster s := by
  unfold deliver
  split
  · exact roster_putGap ..
  unfold deliverBlock
  split
  · rfl
  next x _ =>
    have written := roster_eachTarget (f := putBlock blk) (fun t s => roster_putBlock blk t s) x.targets s
    generalize eachTarget (putBlock blk) x.targets s = p at written ⊢
    obtain ⟨ts, s'⟩ := p
    dsimp only
    have told (c : Prop) [Decidable c] (v : Nat) (s' : State) (h : roster s' = roster s) :
        roster (if c then msix v s' else s') = roster s := by
      split
      · exact (roster_msix ..).trans h
      · exact h
    split
    · exact (roster_freeStream ..).trans (told _ _ _ written)
    · exact told _ _ _ written

@[simp] theorem roster_shedHeld (p : OutBlock → Bool) (b : Nat) (s : State) : roster (shedHeld p b s) = roster s := by
  unfold shedHeld
  split
  · rfl
  · exact roster_foldl (fun s blk => roster_deliver b blk s) _ _

theorem roster_offer (b : Nat) (blk : OutBlock) (now : Bool) (s : State) : roster (offer b blk now s) = roster s := by
  have flushed : roster (flushWithheld b s) = roster s := by
    unfold flushWithheld
    split
    · rfl
    split
    · rfl
    split
    · exact roster_putGap ..
    · rfl
  rw [← flushed]
  unfold offer
  dsimp only
  split
  · rfl
  split
  · rfl
  split
  · exact (roster_deliver ..).trans (roster_shedHeld ..)
  · exact roster_deliver ..

theorem roster_withholdBlock (i bseq : Nat) (final : Bool) (s : State) : roster (withholdBlock i bseq final s) = roster s := by
  unfold withholdBlock
  split
  · rfl
  extract_lets used told counted closed
  have hclosed : roster closed = roster s := by
    unfold closed
    split
    · exact (roster_closeSegment ..).trans (roster_modStats ..)
    · exact roster_modStats ..
  rw [← hclosed]
  split
  · split
    · exact roster_freeStream ..
    · rfl
  · rfl

theorem roster_emitConceal (i : Nat) (e : Emission) (s : State) : roster (emitConceal i e s) = roster s := by
  unfold emitConceal
  split
  · rfl
  unfold emitBlock
  split
  · rfl
  split
  · rfl
  extract_lets +onlyGivenNames bseq final
  split
  · exact roster_withholdBlock ..
  extract_lets +onlyGivenNames st' fmt pcm24 payload k
  split
  next outs clipped on _ =>
    extract_lets noSig settled changed opened old flags rec' seg grown closed counted
    have hchanged : roster changed = roster s := (roster_closeIfChanged ..).trans rfl
    have hopened : roster opened = roster s := by
      rw [← hchanged]
      unfold opened
      split
      · exact roster_openSegment ..
      · rfl
    have hcounted : roster counted = roster s := by
      rw [← hopened]
      refine (roster_modStats ..).trans ?_
      unfold closed
      split
      · exact (roster_closeSegment ..).trans rfl
      · rfl
    rw [← hcounted]
    split
    · split
      · exact roster_freeStream ..
      · rfl
    · exact roster_offer ..

end Sys2Proof.Machine
end

section
/-! #### Runs that stop -/
namespace Sys2Proof.Machine

theorem roster_zeroKey (c : Nat) (s : State) : roster (zeroKey c s) = roster s :=
  roster_modCtx (f := fun x => { x with key := List.replicate 32 0 }) (fun _ => rfl) c s

theorem roster_scrubSlot (c g k : Nat) (s : State) : roster (scrubSlot c g k s) = roster s :=
  (roster_zeroKey ..).trans rfl

theorem roster_scrubAtRetire (c : Cmd) (status : Nat) (s : State) : roster (scrubAtRetire c status s) = roster s := by
  unfold scrubAtRetire
  split
  · rfl
  split
  · rfl
  split
  · refine roster_foldl (fun s g => ?_) _ s
    split
    · exact roster_scrubSlot ..
    · rfl
  · rfl

theorem roster_stopScrub (c : Cmd) (s : State) : roster (stopScrub c s) = roster s := by
  unfold stopScrub
  extract_lets written
  have hwritten : roster written = roster s :=
    roster_foldl (f := fun s (t : Addr × Nat) => partialWrite t.1 (List.replicate t.2 0) s)
      (fun s t => roster_partialWrite ..) _ s
  rw [← hwritten]
  split
  next mixed _ =>
    have hmixed : roster mixed = roster written := roster_foldl (fun s g => by split <;> rfl) _ written
    rw [← hmixed]
    exact roster_modCtx (f := fun x => { x with key := mixBytes (takeFree mixed).1 x.key (List.replicate 32 0) })
      (fun _ => rfl) c.ctx (takeFree mixed).2
  · rfl

theorem roster_stopTransfer (c : Cmd) (s : State) : roster (stopTransfer c s) = roster s := by
  unfold stopTransfer
  split
  · rfl
  split
  · split
    next src dst _ _ =>
      have read := roster_readAt src (c.p 16 6) s
      split
      next e => rw [e] at read; exact (roster_partialWrite ..).trans read
      next e => rw [e] at read; exact read
    · rfl
  split
  · split
    · exact roster_partialWrite ..
    · rfl
  split
  · exact roster_stopScrub ..
  split
  · split
    · exact (roster_partialWrite ..).trans rfl
    · rfl
  · rfl

theorem roster_chargeRun (u cyc : Nat) (s : State) : roster (chargeRun u cyc s) = roster s := by
  unfold chargeRun
  split
  · rfl
  · exact roster_modCmd (f := fun c => { c with engineCycles := c.engineCycles + cyc, runCycles := 0 }) (fun _ => rfl) u s

theorem roster_discardRun (u : Nat) (s : State) : roster (discardRun u s) = roster s := by
  have secured : roster (releaseSecured u (freeCores u s)) = roster (freeCores u s) := by
    unfold releaseSecured
    split
    · rfl
    · exact (roster_givePages ..).trans (roster_modCmd (f := fun c => { c with secured := [] }) (fun _ => rfl) u _)
  exact (show roster (discardRun u s) = roster (releaseSecured u (freeCores u s)) from rfl).trans (secured.trans rfl)

/-- A run that stops leaves its command in flight. -/
theorem roster_stopRun (u : Nat) (s : State) : roster (stopRun u s) = roster s := by
  unfold stopRun
  split
  · rfl
  next c _ =>
    extract_lets stopped charged reported
    have hstopped : roster stopped = roster s := roster_stopTransfer c s
    have hcharged : roster charged = roster stopped := by
      unfold charged
      split
      · exact (roster_chargeRun ..).trans rfl
      split
      · exact roster_chargeRun ..
      · rfl
    rw [← hstopped, ← hcharged, ← (reportAbort_latOnly u charged).roster_eq]
    exact roster_discardRun ..

theorem roster_closeSeq (q : Nat) (s : State) : roster (closeSeq q s) = roster s := by
  unfold closeSeq
  split
  · rfl
  · exact (roster_givePages ..).trans rfl

theorem roster_finalConceal (i : Nat) (s : State) : roster (finalConceal i s) = roster s := by
  unfold finalConceal
  split
  · rfl
  split
  · rfl
  split
  · exact roster_emitConceal ..
  · exact roster_freeStream ..

theorem roster_buryLoop (l : Nat) (s : State) : roster (buryLoop l s) = roster s := by
  unfold buryLoop
  split
  · rfl
  next x _ => exact roster_foldl (fun s i => roster_finalConceal i s) (x.lanes.map Prod.snd) s

theorem roster_releaseSlots (c : Nat) (scrub : Bool) (s : State) : roster (releaseSlots c scrub s) = roster s := by
  unfold releaseSlots
  extract_lets freed swapped
  have hfreed : roster freed = roster s := by
    refine roster_foldl (fun s g => ?_) _ s
    split
    next k _ =>
      have scrubbed : roster (if scrub then scrubSlot c g k s else s) = roster s := by
        split
        · exact roster_scrubSlot ..
        · rfl
      exact scrubbed
    · rfl
  have hswapped : roster swapped = roster freed := by
    unfold swapped
    split
    · rfl
    rw [roster_modCtx (f := fun x => { x with swapped := [] }) fun _ => rfl]
    split
    · exact roster_foldl (fun s i => (roster_zeroKey ..).trans (roster_wellWrite ..)) _ freed
    · rfl
  rw [← hfreed, ← hswapped]
  refine roster_foldl (fun s e => roster_foldl (fun s o => ?_) _ s) _ swapped
  unfold freeImageOn
  split <;> rfl

end Sys2Proof.Machine
end

section
/-! #### What retires commands -/
namespace Sys2Proof.Machine

/-- No command has come into flight, and no context has faulted. -/
structure Fewer (s t : State) : Prop where
  keys : (roster t).1 ⊆ (roster s).1
  faults : (roster t).2 = (roster s).2

section
variable {r s t : State}

theorem Fewer.refl (s : State) : Fewer s s := ⟨List.Subset.refl _, rfl⟩

theorem Fewer.trans (h : Fewer r s) (k : Fewer s t) : Fewer r t :=
  ⟨fun _ hx => h.keys (k.keys hx), k.faults.trans h.faults⟩

/-- What keeps the roster goes before or behind. -/
theorem Fewer.same (h : Fewer r s) (e : roster t = roster s) : Fewer r t := by
  obtain ⟨keys, faults⟩ := h
  exact ⟨by rwa [e], by rwa [e]⟩

theorem Fewer.ite {c : Prop} [Decidable c] (h : Fewer r s) (k : Fewer r t) : Fewer r (if c then s else t) := by
  split <;> assumption

theorem Fewer.foldl {β : Type} {f : State → β → State} (h : Fewer r s) (hf : ∀ s x, Fewer s (f s x)) (xs : List β) :
    Fewer r (xs.foldl f s) := h.trans (foldl_rel Fewer f .refl .trans hf xs s)

theorem roster_tallyClose (q : Nat) (s : State) : roster (tallyClose q s) = roster s := by
  unfold tallyClose
  split
  · split
    · exact roster_modCmd (f := fun d => { d with tally := d.tally + 1 }) (fun _ => rfl) ..
    · rfl
  · rfl

/-- A retirement keeps the roster until its command leaves the flight. -/
theorem retireOnly_eq {u : Nat} {c : Cmd} (hc : s.cmd? u = some c) (status detail : Nat) :
    ∃ r, retireOnly u status detail s = r.dropCmd u ∧ roster r = roster s := by
  unfold retireOnly
  rw [hc]
  dsimp only
  generalize hs : scrubAtRetire c status s = scrubbed
  have waited : roster (backlogOf c scrubbed).2 = roster s := by
    rw [← roster_scrubAtRetire c status s, hs]
    unfold backlogOf
    split <;> rfl
  generalize backlogOf c scrubbed = b at waited ⊢
  obtain ⟨backlog, s'⟩ := b
  refine ⟨_, rfl, ?_⟩
  rw [roster_tallyClose, (leaveGroup_latOnly ..).roster_eq, (CountOnly.countRetire _ _ _ (.refl _)).roster_eq,
    (pushRecord_pushOnly ..).roster_eq]
  exact waited

theorem fewer_dropCmd (u : Nat) (s : State) : Fewer s (s.dropCmd u) := by
  refine ⟨?_, rfl⟩
  exact List.map_subset _ (List.filter_subset_self _)

theorem fewer_retireOnly (u status detail : Nat) (s : State) : Fewer s (retireOnly u status detail s) := by
  cases hc : s.cmd? u with
  | none => unfold retireOnly; rw [hc]; exact .refl s
  | some c =>
    obtain ⟨r, e, hr⟩ := retireOnly_eq hc status detail
    rw [e]
    exact ((Fewer.refl s).same hr).trans (fewer_dropCmd u r)

theorem gone_retireOnly (u status detail : Nat) (s : State) : ∀ d ∈ (retireOnly u status detail s).inflight, d.uid ≠ u := by
  cases hc : s.cmd? u with
  | none =>
    unfold retireOnly
    rw [hc]
    simpa [State.cmd?] using hc
  | some c =>
    obtain ⟨r, e, -⟩ := retireOnly_eq hc status detail
    rw [e]
    intro d hd
    simpa using (List.mem_filter.1 hd).2

theorem Fewer.retireOnly (h : Fewer r s) (u status detail : Nat) : Fewer r (retireOnly u status detail s) :=
  h.trans (fewer_retireOnly ..)

theorem fewer_retireWaiters (st : Stream) (status detail : Nat) (s : State) : Fewer s (retireWaiters st status detail s) := by
  unfold retireWaiters
  extract_lets opened closed
  have hopened : Fewer s opened := by unfold opened; split; exacts [fewer_retireOnly .., .refl s]
  have hclosed : Fewer s closed := by unfold closed; split; exacts [hopened.retireOnly .., hopened]
  split
  · exact (hclosed.retireOnly ..).ite (hclosed.retireOnly ..)
  · exact hclosed

theorem fewer_releaseKeyWait (l : Nat) (s : State) : Fewer s (releaseKeyWait l s) := by
  have waits : roster { s with inflight := s.inflight.map fun c => { c with waitLoops := c.waitLoops.filter (· != l) } } =
      roster s := by
    refine congrArg (·, (roster s).2) ?_
    rw [List.map_map]
    rfl
  exact ((Fewer.refl s).same waits).foldl (fun s u => fewer_retireOnly u stOk 0 s) _

theorem fewer_endUnder (i status detail : Nat) (s : State) : Fewer s (endUnder i status detail s) := by
  unfold endUnder
  split
  · exact .refl s
  · exact (fewer_retireWaiters ..).same rfl

theorem fewer_endWaits (l detail : Nat) (s : State) : Fewer s (endWaits l detail s) := by
  unfold endWaits
  extract_lets closed snapped
  have hclosed : Fewer s closed := by unfold closed; split; exacts [fewer_retireOnly .., .refl s]
  have snaps : roster snapped = roster closed := by
    refine congrArg (·, (roster closed).2) ?_
    unfold snapped
    rw [List.map_map]
    rfl
  exact (hclosed.same snaps).trans (fewer_releaseKeyWait ..)

theorem fewer_dropWaitingLoop (l status detail : Nat) (s : State) : Fewer s (dropWaitingLoop l status detail s) := by
  unfold dropWaitingLoop
  split
  · exact .refl s
  extract_lets waited ids ended left
  have dropped : Fewer s (dropCharges (isLoopCharge l) s) := (Fewer.refl s).same rfl
  have hwaited : Fewer s waited := dropped.trans (fewer_endWaits ..)
  have hended : Fewer s ended :=
    hwaited.foldl (fun s i => (fewer_endUnder i status detail s).same (roster_finalConceal ..)) ids
  have hleft : Fewer s left := .ite (hended.same rfl) (hended.same rfl)
  exact hleft.same (roster_relaxCluster ..)

theorem fewer_endLoop (l status detail : Nat) (s : State) : Fewer s (endLoop l status detail s) := by
  unfold endLoop
  split
  · exact .refl s
  next x _ =>
  split
  · exact (fewer_dropWaitingLoop ..).retireOnly ..
  extract_lets charged dead vacant relaxed under retired
  have hcharged : Fewer s charged := .ite ((Fewer.refl s).same (roster_chargeRun ..)) (.refl s)
  have hrelaxed : Fewer s relaxed := (hcharged.same rfl).same (roster_relaxCluster ..)
  have hunder : Fewer s under := hrelaxed.foldl (fun s i => fewer_endUnder i status detail s) _
  have hretired : Fewer s retired := (hunder.trans (fewer_endWaits ..)).retireOnly ..
  exact .ite (hretired.same (roster_buryLoop ..)) hretired

theorem fewer_killAs (u status detail : Nat) (s : State) : Fewer s (killAs u status detail s) := by
  unfold killAs
  split
  · exact .refl s
  split
  · split
    · exact fewer_endLoop ..
    · exact fewer_retireOnly ..
  · extract_lets stopped streams loops queues status'
    have hstopped : Fewer s stopped := (Fewer.refl s).same (roster_stopRun u s)
    have hqueues : Fewer s queues := hstopped.same rfl
    exact hqueues.retireOnly ..

end

end Sys2Proof.Machine
end

section
/-! #### Teardown, and the end of a slice whose tags differ -/
namespace Sys2Proof.Machine

section
variable {s t : State} {u : Nat} {c : Cmd}

/-- A context is marked as faulted, and then commands may retire. -/
theorem fewer_teardown {k : Nat} {x : Ctx} (hx : s.ctx? k = some x) (faulted : ¬ x.faulted = true) (status detail : Nat) :
    Fewer (s.modCtx k fun x => { x with faulted := true }) (teardown k status detail s) := by
  unfold teardown
  split
  next none => rw [hx] at none; cases none
  next y found =>
    obtain rfl : x = y := Option.some.inj (hx.symm.trans found)
    rw [if_neg faulted]
    extract_lets st det marked counted us shed killed others concealed unbound closed
    have hcounted : Fewer marked counted := (Fewer.refl marked).same rfl
    have hshed : Fewer marked shed := hcounted.foldl (fun s e => (Fewer.refl s).same (roster_shedHeld ..)) _
    have hkilled : Fewer marked killed := hshed.foldl (fun s u => fewer_killAs u st det s) us
    have hconcealed : Fewer marked concealed :=
      hkilled.foldl (fun s i => (Fewer.refl s).same (roster_finalConceal i s)) others
    have hunbound : Fewer marked unbound := by
      refine hconcealed.foldl (fun s e => ?_) _
      split <;> exact (Fewer.refl s).same rfl
    have hclosed : Fewer marked closed := hunbound.foldl (fun s e => (Fewer.refl s).same (roster_closeSeq ..)) _
    exact hclosed.same (roster_releaseSlots ..)

/-- The context that is torn down has faulted, with the fault that it showed. -/
theorem teardown_faults (k status detail : Nat) (s : State) : (roster (teardown k status detail s)).1 ⊆ (roster s).1 ∧
    (roster (teardown k status detail s)).2 k = ((roster s).2 k).map fun f => (true, f.2) := by
  cases hx : s.ctx? k with
  | none =>
    have same : teardown k status detail s = s := by unfold teardown; rw [hx]
    rw [same]
    exact ⟨List.Subset.refl _, by simp [roster, hx]⟩
  | some x =>
    by_cases faulted : x.faulted = true
    · have same : teardown k status detail s = s := by unfold teardown; simp only [hx, faulted, if_true]
      rw [same]
      exact ⟨List.Subset.refl _, by simp [roster, hx, faultOf, faulted]⟩
    · obtain ⟨keys, faults⟩ := fewer_teardown hx faulted status detail
      refine ⟨keys, ?_⟩
      rw [faults]
      simp [roster, State.ctx?, State.modCtx, tget?_tmod, faultOf, show tget? s.ctxs k = some x from hx]

/-- Who is in flight is found in the roster. -/
theorem cmd?_of_roster (h : (roster t).1 = (roster s).1) (hc : s.cmd? u = some c) :
    ∃ d, t.cmd? u = some d ∧ d.ctx = c.ctx ∧ d.opcode = c.opcode := by
  have found (s : State) : ((roster s).1.find? fun e => e.1 == u) = (s.cmd? u).map cmdKey := by
    simp only [roster, List.find?_map]
    rfl
  have keys := (found t).symm.trans ((congrArg (List.find? fun e => e.1 == u) h).trans (found s))
  rw [hc] at keys
  obtain ⟨d, hd, e⟩ := Option.map_eq_some_iff.1 keys
  simp only [cmdKey, Prod.mk.injEq] at e
  exact ⟨d, hd, e.2⟩

/-- A running RUN that faults is gone, and its context has faulted. -/
theorem faultPlan_run {status : Nat} (hc : s.cmd? u = some c) (run : c.opcode = opRun) (fault : isFault status = true)
    (detail : Nat) : (∀ d ∈ (faultPlan u status detail s).inflight, d.uid ≠ u) ∧
      (roster (faultPlan u status detail s)).2 c.ctx = ((roster s).2 c.ctx).map fun f => (true, f.2) := by
  have stopped := roster_stopRun u s
  obtain ⟨d, hd, ctx, op⟩ := cmd?_of_roster (congrArg Prod.fst stopped) hc
  have torn : faultPlan u status detail s = teardown c.ctx status detail (retireOnly u status detail (stopRun u s)) := by
    unfold faultPlan retire
    simp only [hc, hd, run, op, ctx, fault]
    rfl
  have retired := fewer_retireOnly u status detail (stopRun u s)
  obtain ⟨keys, faults⟩ := teardown_faults c.ctx status detail (retireOnly u status detail (stopRun u s))
  rw [torn]
  constructor
  · intro e he
    obtain ⟨e', he', same⟩ := List.mem_map.1 (keys (List.mem_map_of_mem he))
    obtain ⟨uid, -⟩ := Prod.mk.inj same
    rw [← uid]
    exact gone_retireOnly u status detail _ e' he'
  · rw [faults, retired.faults, stopped]

/-- A computation that ends early, in a state. -/
def Stops {α : Type} (x : Eng α) (s t : State) : Prop := StateT.run (OptionT.run x) s = (none, t)

theorem Stops.bind {α β : Type} {x : Eng α} (h : Stops x s t) (f : α → Eng β) : Stops (x >>= f) s t := by
  unfold Stops at h ⊢
  rw [Eng.run_bind, h]

theorem Yields.stops {α β : Type} {x : Eng α} {f : α → Eng β} {v : α} {r : State} (h : Yields x s v r) (k : Stops (f v) r t) :
    Stops (x >>= f) s t := by
  unfold Stops at k ⊢
  unfold Yields at h
  rw [Eng.run_bind, h]
  exact k

theorem onStep_stops {g : Nat} {a : At} {st : PlanStep} {α : Type} {pick : PlanStep → Option α} {body : At → α → Eng Bool}
    {op : α} (h : StandsAt g a st s) (hp : pick st = some op) (hb : Stops (body a op) (holdPort a st s) t) :
    onStep g s pick body = t := by
  have ends : Stops (do
      modS (holdPort a st)
      let on ← body a op
      if on then modS (advance a) else pure ()) s t := (yields_modS _ s).stops (hb.bind _)
  have run : Eng.run _ s = t := congrArg Prod.snd ends
  simpa [onStep, h.engaged.runs, h.next, hp, State.serving, h.engaged.serves, h.live] using run

/-- What the context page records of tags that differ (R85). -/
def skewFault (s : State) (g : Nat) (b b' : List Byte) : Nat :=
  field b 0 1 + field b' 0 1 * 2 ^ 8 + g * 2 ^ 16 + (s.core g).pos % 2 ^ 16 * 2 ^ 24 + stScaleSkew * 2 ^ 40

theorem tagCheck_stops {a : At} {trailer scale : Nat} {b b' : List Byte} (hc : Clean s) (hb : Readable s a none trailer 2 b)
    (hb' : Readable s a none (scale + 0x140) 2 b') (ne : b ≠ b') : ∃ detail, Stops (tagCheck a trailer scale) s
      (faultPlan a.u stScaleSkew detail (s.modCtx a.cmd.ctx fun x => { x with fault := skewFault s a.core b b' })) := by
  refine ⟨field b 0 1 + field b' 0 1 * 2 ^ 8 + a.core * 2 ^ 16, (load_yields hc hb).stops ((load_yields hc hb').stops ?_)⟩
  rw [if_neg (by simpa using ne)]
  exact (yields_modS _ s).stops rfl

theorem roster_holdPort (a : At) (st : PlanStep) (s : State) : roster (holdPort a st s) = roster s := by
  unfold holdPort
  split <;> rfl

theorem roster_countClash (g : Nat) (k : Clash) (s : State) : roster (countClash g k s) = roster s := by
  unfold countClash
  extract_lets s1 s2
  have h1 : roster s1 = roster s := by unfold s1; split <;> rfl
  have h2 : roster s2 = roster s1 := by unfold s2; split <;> rfl
  rw [← h1, ← h2]
  split <;> rfl

/-- The fault of a context is noted. -/
theorem faults_modCtx (k F : Nat) (s : State) : (roster (s.modCtx k fun x => { x with fault := F })).2 k =
    ((roster s).2 k).map fun f => (f.1, F) := by
  simp only [roster, State.ctx?, State.modCtx, tget?_tmod, if_true, Option.map_map]
  rfl

/-- A slice stops where its tag check does. -/
theorem sliceStep_stops {a : At} {op : MSlice} {clash : Clash} (compares : Compares s a.core a op)
    (stops : Stops (tagCheck a op.trailer op.scaleBlock) (countClash a.core clash (holdPort a (.matmul op) s)) t) :
    Stops (sliceStep a.core clash a op) (holdPort a (.matmul op) s) t := by
  have tags : Stops (sliceTags a op) (countClash a.core clash (holdPort a (.matmul op) s)) t := by
    refine (yields_getS _).stops ?_
    rw [checked_countClash, checked_holdPort]
    dsimp only
    rw [if_pos (compares_iff.2 compares)]
    exact stops
  exact (yields_modS _ _).stops (tags.bind _)

/-- A slice whose tags differ ends its RUN, and its context has faulted (R85). -/
theorem slice_skews {g : Nat} {a : At} {op : MSlice} {clash : Clash} {b b' : List Byte} (h : StandsAt g a (.matmul op) s)
    (compares : Compares s g a op) (hb : Readable s a none op.trailer 2 b)
    (hb' : Readable s a none (op.scaleBlock + 0x140) 2 b') (ne : b ≠ b') (run : a.cmd.opcode = opRun) :
    ∃ t, Answers (.mengineSlice g clash) s t ∧ (∀ d ∈ t.inflight, d.uid ≠ a.u) ∧ ((s.ctx? a.cmd.ctx).isSome = true →
      (t.ctx? a.cmd.ctx).map (fun x => (x.faulted, x.fault)) = some (true, skewFault s g b b')) := by
  obtain rfl := h.core_eq
  have clashed := h.holdPort.tallied.trans (tallied_countClash clash _)
  obtain ⟨detail, stops⟩ := tagCheck_stops (clashed.clean h.clean) (clashed.readable clashed.cis hb)
    (clashed.readable clashed.cis hb') ne
  have step := sliceStep_stops compares stops
  refine ⟨_, (exec_mengineSlice a.core clash s).trans (congrArg _ (onStep_stops h rfl step)), ?_⟩
  have pos := clashed.ownPos
  have keeps : roster (countClash a.core clash (holdPort a (.matmul op) s)) = roster s :=
    (roster_countClash ..).trans (roster_holdPort ..)
  generalize countClash a.core clash (holdPort a (.matmul op) s) = r at keeps pos ⊢
  have fault : skewFault r a.core b b' = skewFault s a.core b b' := by simp only [skewFault, pos]
  have keys : (roster r).1 = (roster s).1 := congrArg Prod.fst keeps
  rw [fault]
  obtain ⟨c, hc, ctx, opcode⟩ := cmd?_of_roster (t := r.modCtx a.cmd.ctx fun x => { x with fault := skewFault s a.core b b' })
    keys (of_at? h.engaged.runs).2
  obtain ⟨gone, faults⟩ := faultPlan_run hc (opcode.trans run) (status := stScaleSkew) rfl detail
  refine ⟨gone, fun known => ?_⟩
  obtain ⟨x, hx⟩ := Option.isSome_iff_exists.1 known
  rw [ctx, faults_modCtx, keeps] at faults
  exact faults.trans (by simp [roster, hx])

end

end Sys2Proof.Machine
end

section
/-! ### The obligation -/
namespace Sys2Proof.Machine

/-- Settles O53: one lemma for the rows that do nothing, one for each kind of step that is done, and `slice_skews` for the
slice whose tags differ. -/
theorem engineStepsComputeTheirValues : Obligations.EngineStepsComputeTheirValues := by
  unfold Obligations.EngineStepsComputeTheirValues
  intro s g a
  refine ⟨fun i st => answers_parked, fun i => answers_otherRow, ?_, ?_, ?_, ?_, ?_, ?_⟩
  · intro op clash ks e h hr he w k size compares done puts
    have core := h.core_eq
    refine ⟨fun b b' compares hb hb' ne run => slice_skews h compares hb hb' ne run, fun agree => ?_⟩
    have tags : Compares s a.core a op → TagsAgree s a op.trailer op.scaleBlock := by rw [core]; exact agree
    constructor
    · intro x cs pair narrow hx dot
      have run : wideRun a op = false := by simpa [wideRun, narrow] using pair
      exact ⟨fun sc sm zb sa zp adds tile groups hz scale => puts_narrow h hr he tags run hx adds tile groups hz scale,
        fun split second final tile => first_half_done h hr he tags run hx split second final tile⟩
    · intro xs cs sc wide first tile scales hx
      have run : wideRun a op = true := by simpa [wideRun] using wide
      exact puts_wide h hr he tags run tile scales hx
  · intro op xss h hl hv rows pass done given
    refine ⟨fun sc hf fits => ?_, fun sc hf fits => ?_, ?_⟩
    · exact narrowed_given h hl hv (fun rows => by simp only [narrowRows, hf]) fits
    · exact narrowed_given h hl hv (fun rows => by simp only [narrowRows, hf]) fits
    · intro hf m0 hist bits q hoff z round ps m1 m n clears keeps history drawn fits scale zero reserved
      have pieces : ps = piecesOf s a op hist bits (op.pieces.zip xss) := by
        unfold piecesOf
        rw [tokenPieces_eq]
        refine List.map_congr_left fun e _ => ?_
        rw [List.map_take, List.map_fst_zip (by omega), Nat.zero_add]
        rfl
      have ready : TokenReady s a op m0 hist bits (op.pieces.zip xss) := by
        refine ⟨clears, keeps, history, ?_, ?_, scale, zero, reserved⟩
        · rw [List.map_fst_zip (by omega)]
          exact drawn
        · rw [← pieces]
          exact fits
      have cistern : narrowedMem s a op m0 hist bits (op.pieces.zip xss) = m := by
        unfold narrowedMem
        rw [← pieces]
        rfl
      rw [← cistern]
      exact ⟨narrowed_token h hl hv hf ready, fun b hb complete hs ht => narrowed_tagged h hl hv hf ready hb complete hs ht⟩
  · intro slot word kc kt kx ky h r w n lane plain exact y next hc ht apart hx hy
    exact recur_done h hc ht apart hx hy
  · intro op vs xs h hpos hr hv w value m
    have hl := hv.length
    obtain ⟨lt, none, first⟩ := winner_spec (xs := xs) (by omega) (.fin false 0 0)
    rw [hl] at lt none
    exact ⟨lt, none, first, fun ho hw => argmax_done h hr hv ho hw⟩
  · intro op xs ks r h hv ho hd temp score
    exact gumbel_done h hv ho hd
  · intro i o ki ko h hi ho
    exact noise_done h hi ho

end Sys2Proof.Machine
end

section
/-! ## O52: RUN, the KV store and the random state -/
namespace Sys2Proof.Machine

/-! ### A command that starts and completes -/

section
variable {u op : Nat} {c : Cmd} {s t : State}

theorem failing_eq_nil_iff {cs : List Check} : failing cs = [] ↔ ∀ k ∈ cs, k.1 = true := by
  simp [failing, List.filterMap_eq_nil_iff]

/-- The guard that the meanings of a packet's commands share. -/
theorem Startable.guard (h : Startable u op c s) :
    (s.serving && c.phase == .fetched && c.opcode == op && canStart s c) = true := by
  simp [State.serving, h.serves, h.fetched, h.opcode, h.free]

/-- A meaning that completes the started command over an effect `t` that leaves the command in flight. -/
theorem Startable.completes (h : Startable u op c s) {body : Cmd → State → State}
    (done : body c (startCmd u s) = completeOk u (startCmd u t)) (kept : t.cmd? u = some c) :
    Completes c stOk 0 t (onStart u op s body) := by
  rw [onStart_eq h, done]
  exact completeOk_of_start kept rfl

/-- Changes of two commands commute where they commute on every command. -/
theorem modCmd_comm {f g : Cmd → Cmd} (hf : ∀ d, (f d).uid = d.uid) (hg : ∀ d, (g d).uid = d.uid)
    (comm : ∀ d, f (g d) = g (f d)) (v : Nat) : (s.modCmd u g).modCmd v f = (s.modCmd v f).modCmd u g := by
  simp only [State.modCmd, List.map_map]
  congr 1
  refine List.map_congr_left fun d _ => ?_
  simp only [Function.comp_apply, apply_ite Cmd.uid, hf, hg, ite_self]
  by_cases hu : (d.uid == u) = true <;> by_cases hv : (d.uid == v) = true <;> simp only [hu, hv, if_true, if_false, comm,
    Bool.false_eq_true]

/-- Two changes of a command are one. -/
theorem modCmd_modCmd {f : Cmd → Cmd} (g : Cmd → Cmd) (hf : ∀ d, (f d).uid = d.uid := by intros; rfl) :
    (s.modCmd u f).modCmd u g = s.modCmd u (g ∘ f) := by
  simp only [State.modCmd, List.map_map]
  congr 1
  refine List.map_congr_left fun d _ => ?_
  by_cases hu : (d.uid == u) = true <;> simp only [Function.comp_apply, hu, hf, if_true, if_false, Bool.false_eq_true]

/-- A change of one command leaves the others. -/
theorem cmd?_modCmd_ne {f : Cmd → Cmd} {v : Nat} (ne : v ≠ u) (hf : ∀ d, (f d).uid = d.uid := by intros; rfl) :
    (s.modCmd v f).cmd? u = s.cmd? u := by
  simp only [State.cmd?, State.modCmd]
  rw [find_map_uid u _ fun d => by split <;> simp [hf]]
  cases hd : s.inflight.find? fun d => d.uid == u with
  | none => rfl
  | some d =>
    have uid : d.uid = u := cmd?_uid (s := s) hd
    simp [uid, ne.symm]

/-- A start commutes with a change that neither looks at a command's start nor sets it. -/
theorem modCmd_startCmd {f : Cmd → Cmd} (v : Nat) (hf : ∀ d, (f d).uid = d.uid := by intros; rfl)
    (hs : ∀ d, (f d).started = d.started := by intros; rfl)
    (comm : ∀ d n, f { d with started := true, startedAt := n } = { f d with started := true, startedAt := n } := by
      intros; rfl) : (startCmd u s).modCmd v f = startCmd u (s.modCmd v f) := by
  refine modCmd_comm hf (startedCmd_uid s) (fun d => ?_) v
  simp only [startedCmd, hs, apply_ite f, comm]

theorem cmd?_startCmd_any (v : Nat) :
    (startCmd u s).cmd? v = (s.cmd? v).map fun d => if d.uid == u then startedCmd s d else d :=
  find_map_uid v (fun d => if d.uid == u then startedCmd s d else d) (fun d => by split <;> simp) s.inflight

/-- What a start leaves of every command. -/
theorem map_startCmd {α : Type} {f : Cmd → α} (h : ∀ d, f (startedCmd s d) = f d) :
    (startCmd u s).inflight.map f = s.inflight.map f := by
  simp only [startCmd, State.modCmd, List.map_map]
  refine List.map_congr_left fun d _ => ?_
  rw [Function.comp_apply, apply_ite f]
  exact ite_eq_right_iff.2 fun _ => h d

@[simp] theorem startedCmd_secured (s : State) (c : Cmd) : (startedCmd s c).secured = c.secured := by
  unfold startedCmd; split <;> rfl
@[simp] theorem startedCmd_phase (s : State) (c : Cmd) : (startedCmd s c).phase = c.phase := by
  unfold startedCmd; split <;> rfl

end

/-! ### Attempts for pages (R129, R131) -/

/-- What an attempt of a command takes and what it leaves of the pool, or the sequence at which it waits. -/
def securing (s : State) (c : Cmd) : Except Nat (List Secured × List Nat) :=
  secureFrom s (argsOf s c).bindings (needsOf s (argsOf s c).bindings) (poolOf s c.ctx) []

/-- The state once a waiting command has what it needs. -/
def pagesGranted (u k : Nat) (got : List Secured) (pool : List Nat) (s : State) : State :=
  (s.modCtx k fun x => { x with pool := pool }).modCmd u fun d => { d with secured := got, phase := .ready, waitsOn := none }

section
variable {u : Nat} {c : Cmd} {s : State}

theorem trySecure_ok {got : List Secured} {pool : List Nat} (hc : s.cmd? u = some c) (h : securing s c = .ok (got, pool)) :
    ∃ t, trySecure u s = (none, t) ∧ kvGranted u t = pagesGranted u c.ctx got pool s := by
  unfold securing at h
  refine ⟨(s.modCtx c.ctx fun x => { x with pool := pool }).modCmd u fun d => { d with secured := got }, ?_, modCmd_modCmd _⟩
  unfold trySecure
  simp only [hc, h]

theorem trySecure_error {q : Nat} (hc : s.cmd? u = some c) (h : securing s c = .error q) :
    trySecure u s = (some q, s) := by
  unfold securing at h
  unfold trySecure
  simp only [hc, h]

theorem kvRetry_ok {got : List Secured} {pool : List Nat} (hc : s.cmd? u = some c) (hp : c.phase = .kvWait)
    (h : securing s c = .ok (got, pool)) : kvRetry u s = pagesGranted u c.ctx got pool s := by
  obtain ⟨t, tried, granted⟩ := trySecure_ok hc h
  unfold kvRetry
  simp [hc, hp, tried, granted]

theorem kvRetry_error {q : Nat} (hc : s.cmd? u = some c) (hp : c.phase = .kvWait) (h : securing s c = .error q) :
    kvRetry u s = s.modCmd u fun d => { d with waitsOn := some q } := by
  unfold kvRetry
  simp [hc, hp, trySecure_error hc h]

/-- A command that does not wait for pages does not try for them. -/
theorem kvRetry_idle (h : ∀ d, s.cmd? u = some d → d.phase ≠ .kvWait) : kvRetry u s = s := by
  unfold kvRetry
  cases hc : s.cmd? u with
  | none => rfl
  | some d => simp [h d hc]

/-- A retry touches its own command, which waits, and contexts. -/
theorem kvRetry_cases (v : Nat) (s : State) : kvRetry v s = s ∨ ∃ d, s.cmd? v = some d ∧ d.phase = .kvWait ∧
    ∃ cx f, kvRetry v s = { s with ctxs := cx }.modCmd v f ∧ ∀ e, (f e).uid = e.uid := by
  by_cases waits : ∃ d, s.cmd? v = some d ∧ d.phase = .kvWait
  · obtain ⟨d, hd, hp⟩ := waits
    refine .inr ⟨d, hd, hp, ?_⟩
    cases h : securing s d with
    | ok r => exact ⟨_, _, kvRetry_ok hd hp h, fun _ => rfl⟩
    | error q => exact ⟨s.ctxs, _, kvRetry_error hd hp h, fun _ => rfl⟩
  · exact .inl (kvRetry_idle fun d hd hp => waits ⟨d, hd, hp⟩)

/-- A retry leaves a command that does not wait. -/
theorem cmd?_kvRetry (hc : s.cmd? u = some c) (hp : c.phase ≠ .kvWait) (v : Nat) : (kvRetry v s).cmd? u = some c := by
  obtain h | ⟨d, hd, wait, cx, f, h, uid⟩ := kvRetry_cases v s
  · rw [h]
    exact hc
  · have ne : v ≠ u := by
      rintro rfl
      rw [hc, Option.some_inj] at hd
      exact hp (hd ▸ wait)
    rw [h, cmd?_modCmd_ne ne uid]
    exact hc

theorem seqs_kvRetry (v : Nat) (s : State) : (kvRetry v s).seqs = s.seqs := by
  obtain h | ⟨-, -, -, _, _, h, -⟩ := kvRetry_cases v s
  · rw [h]
  · rw [h]
    rfl

end

/-! ### Pages that enter a pool -/

section
variable {u : Nat} {c : Cmd} {s : State}

theorem cmd?_givePages (hc : s.cmd? u = some c) (hp : c.phase ≠ .kvWait) (k : Nat) (ps : List Nat) :
    (givePages k ps s).cmd? u = some c := by
  unfold givePages wakeWaiters
  split
  · exact hc
  · exact List.foldlRecOn _ _ (motive := fun t : State => t.cmd? u = some c) hc fun t ht d _ => cmd?_kvRetry ht hp d.uid

theorem seqs_givePages (k : Nat) (ps : List Nat) (s : State) : (givePages k ps s).seqs = s.seqs := by
  unfold givePages wakeWaiters
  split
  · rfl
  · exact List.foldlRecOn _ _ (motive := fun t : State => t.seqs = s.seqs) rfl
      fun t ht d _ => (seqs_kvRetry d.uid t).trans ht

theorem reservedEntries_startCmd (u : Nat) (s : State) : reservedEntries (startCmd u s) = reservedEntries s := by
  have secured := map_startCmd (u := u) (s := s) (f := fun d => d.secured.map fun x => x.entry) fun d => by simp
  simp only [reservedEntries, List.flatMap_def, secured]

theorem secureFrom_startCmd (u : Nat) (s : State) (ks : List KvBind) (ns : List Need) (pool : List Nat) (got : List Secured) :
    secureFrom (startCmd u s) ks ns pool got = secureFrom s ks ns pool got := by
  induction ns generalizing pool got with
  | nil => rfl
  | cons n ns ih =>
    simp only [secureFrom, reservedEntries_startCmd, ih]
    rfl

/-- An attempt does not look at the start of a command. -/
theorem securing_startCmd (u : Nat) (s : State) (c : Cmd) : securing (startCmd u s) (startedCmd s c) = securing s c ∧
    securing (startCmd u s) c = securing s c := by
  have args : argsOf (startCmd u s) (startedCmd s c) = argsOf s c := by unfold startedCmd; split <;> rfl
  constructor
  · unfold securing
    rw [args, secureFrom_startCmd, startedCmd_ctx]
    rfl
  · exact secureFrom_startCmd ..

theorem kvRetry_startCmd (u v : Nat) (s : State) : kvRetry v (startCmd u s) = startCmd u (kvRetry v s) := by
  by_cases waits : ∃ d, s.cmd? v = some d ∧ d.phase = .kvWait
  · obtain ⟨d, hd, hp⟩ := waits
    obtain ⟨e, he, hpe, ctx, same⟩ : ∃ e, (startCmd u s).cmd? v = some e ∧ e.phase = .kvWait ∧ e.ctx = d.ctx ∧
        securing (startCmd u s) e = securing s d := by
      refine ⟨if d.uid == u then startedCmd s d else d, by rw [cmd?_startCmd_any, hd]; rfl, ?_⟩
      split
      · exact ⟨by simp [hp], by simp, (securing_startCmd u s d).1⟩
      · exact ⟨hp, rfl, (securing_startCmd u s d).2⟩
    cases h : securing s d with
    | ok r =>
      rw [kvRetry_ok hd hp h, kvRetry_ok he hpe (same.trans h), ctx]
      exact modCmd_startCmd (s := s.modCtx d.ctx _) v
    | error q =>
      rw [kvRetry_error hd hp h, kvRetry_error he hpe (same.trans h)]
      exact modCmd_startCmd v
  · rw [kvRetry_idle fun d hd hp => waits ⟨d, hd, hp⟩, kvRetry_idle]
    rintro d hd hp
    rw [cmd?_startCmd_any] at hd
    obtain ⟨e, he, rfl⟩ := Option.map_eq_some_iff.1 hd
    exact waits ⟨e, he, by split at hp <;> simpa using hp⟩

/-- The commands of a context that wait for pages, in fetch order. -/
def waiterUids (k : Nat) (s : State) : List Nat :=
  (s.inflight.filter fun d => d.ctx == k && d.phase == .kvWait).map fun d => d.uid

theorem wakeWaiters_eq (k : Nat) (s : State) : wakeWaiters k s = (waiterUids k s).foldl (fun s v => kvRetry v s) s := by
  rw [waiterUids, List.foldl_map]
  rfl

theorem waiterUids_startCmd (u k : Nat) (s : State) : waiterUids k (startCmd u s) = waiterUids k s := by
  have keys := map_startCmd (u := u) (s := s) (f := fun d => (d.uid, d.ctx == k && d.phase == .kvWait)) fun d => by simp
  have pick (s : State) : waiterUids k s =
      ((s.inflight.map fun d => (d.uid, d.ctx == k && d.phase == .kvWait)).filter Prod.snd).map Prod.fst := by
    simp [waiterUids, List.filter_map, Function.comp_def]
  rw [pick, pick, keys]

theorem wakeWaiters_startCmd (u k : Nat) (s : State) : wakeWaiters k (startCmd u s) = startCmd u (wakeWaiters k s) := by
  rw [wakeWaiters_eq, wakeWaiters_eq, waiterUids_startCmd]
  exact List.foldl_hom (startCmd u) (g₁ := fun t v => kvRetry v t) (g₂ := fun t v => kvRetry v t)
    fun t v => kvRetry_startCmd u v t

theorem givePages_startCmd (u k : Nat) (ps : List Nat) (s : State) :
    givePages k ps (startCmd u s) = startCmd u (givePages k ps s) := by
  unfold givePages
  split
  · rfl
  · exact wakeWaiters_startCmd u k (s.modCtx k fun x => { x with pool := ps.foldl (fun l p => insertPage p l) x.pool })

end

end Sys2Proof.Machine
end

section
/-! ### The KV store's commands (R122, R132, R133) -/
namespace Sys2Proof.Machine

section
variable {u : Nat} {c : Cmd} {s : State}

/-- Nothing of a well is upset, poisoned or withdrawn. -/
structure WellsSound (s : State) : Prop where
  upsets : s.upsets = {}
  poison : s.wellPoison = []
  pages : ∀ d, (s.well d).withdrawn = []

theorem WellsSound.startCmd (h : WellsSound s) (u : Nat) : WellsSound (startCmd u s) := ⟨h.upsets, h.poison, h.pages⟩

theorem WellsSound.notPoisoned (h : WellsSound s) (a n : Nat) : wellPoisoned s a n = false := by
  simp [wellPoisoned, withdrawnAt, h.poison, h.pages]

/-- A sound map is read without an error. -/
theorem withMap_sound (h : WellsSound s) (qs : List Nat) (bad go : State → State) : withMap qs s bad go = go s := by
  unfold withMap
  extract_lets rs met
  have clean : met = s := List.foldlRecOn rs _ (motive := (· = s)) rfl fun t e r _ => by
    subst e
    exact meetWell_clean fun w _ => by simp [h.upsets]
  rw [clean, if_neg]
  simp [h.notPoisoned]

/-! #### KV_SEQ_OPEN -/

theorem fillRing_startCmd (u q : Nat) (x : Seq) (s : State) : fillRing q x (startCmd u s) = startCmd u (fillRing q x s) := by
  unfold fillRing
  rw [show (startCmd u s).ctx? x.ctx = s.ctx? x.ctx from rfl]
  split <;> rfl

theorem inflight_fillRing (q : Nat) (x : Seq) (s : State) : (fillRing q x s).inflight = s.inflight := by
  unfold fillRing
  split <;> rfl

/-- The state with one more sequence listed, and the state once it has its span of the map, a ring with its pages (R122). -/
def listed (q : Nat) (x : Seq) (s : State) : State := { s with seqs := tset s.seqs q x }
def seqOpened (q : Nat) (x : Seq) (s : State) : State := if x.ring then fillRing q x (listed q x s) else listed q x s

theorem seqOpened_startCmd (u q : Nat) (x : Seq) (s : State) :
    seqOpened q x (startCmd u s) = startCmd u (seqOpened q x s) := by
  unfold seqOpened
  split
  · exact fillRing_startCmd u q x (listed q x s)
  · rfl

theorem cmd?_seqOpened (hc : s.cmd? u = some c) (q : Nat) (x : Seq) : (seqOpened q x s).cmd? u = some c := by
  unfold seqOpened State.cmd?
  split
  · rw [inflight_fillRing]
    exact hc
  · exact hc

theorem kvSeqOpen_completes {base : Nat} (h : Startable u opKvSeqOpen c s) (hq : c.p 0 2 ≠ 0xFFFF)
    (new : tget? s.seqs (c.p 0 2) = none) (checks : failing (seqChecks s (seqOfParams c) (inParams c)) = [])
    (span : findSpan s (seqOfParams c).homeDie (seqOfParams c).mapSpan = some base)
    (pages : (seqOfParams c).ring = true → (seqOfParams c).mapSpan ≤ (poolOf s c.ctx).length) :
    ∃ t, Answers (.kvSeqOpen u) s t ∧
      Completes c stOk 0 (seqOpened (c.p 0 2) { seqOfParams c with mapBase := base } s) t := by
  refine ⟨_, rfl, h.completes ?_ (cmd?_seqOpened h.found ..)⟩
  have fresh : (c.p 0 2 != 0xFFFF && !thas s.seqs (c.p 0 2)) = true := by simp [hq, thas, new]
  have ok : failing ((c.p 0 2 != 0xFFFF && !thas (startCmd u s).seqs (c.p 0 2), inParams c 0) ::
      seqChecks (startCmd u s) (seqOfParams c) (inParams c)) = [] := by
    rw [failing_eq_nil_iff] at checks ⊢
    exact List.forall_mem_cons.2 ⟨fresh, checks⟩
  have span' : findSpan (startCmd u s) (seqOfParams c).homeDie (seqOfParams c).mapSpan = some base := span
  have room : ((seqOfParams c).ring && decide ((poolOf (startCmd u s) c.ctx).length < (seqOfParams c).mapSpan)) = false := by
    rw [show poolOf (startCmd u s) c.ctx = poolOf s c.ctx from rfl]
    simpa using pages
  rw [← seqOpened_startCmd]
  dsimp only
  rw [checked_ok _ _ _ _ ok, span']
  dsimp only
  rw [if_neg (by simp [room])]
  rfl

/-! #### KV_SEQ_CLOSE -/

theorem ownSeq_iff {q : Nat} : ownSeq s c q = true ↔ ∃ x, tget? s.seqs q = some x ∧ x.ctx = c.ctx := by
  unfold ownSeq
  cases tget? s.seqs q <;> simp

/-- The state without a sequence and its entries of the map. -/
def unlisted (q : Nat) (s : State) : State :=
  { s with map := s.map.filter (fun e => e.2.seq != q), seqs := tdel s.seqs q }

theorem closeSeq_eq {q : Nat} {x : Seq} (h : tget? s.seqs q = some x) :
    closeSeq q s = givePages x.ctx ((liveEntries s q).map fun e => e.2.page) (unlisted q s) := by
  unfold closeSeq
  rw [h]
  rfl

theorem kvSeqClose_completes (h : Startable u opKvSeqClose c s) (sound : WellsSound s) (own : ownSeq s c (c.p 0 2) = true) :
    ∃ t, Answers (.kvSeqClose u) s t ∧ Completes c stOk 0 (closeSeq (c.p 0 2) s) t ∧ tget? t.seqs (c.p 0 2) = none := by
  obtain ⟨x, hx, -⟩ := ownSeq_iff.1 own
  have closed := closeSeq_eq hx
  have started : closeSeq (c.p 0 2) (startCmd u s) = startCmd u (closeSeq (c.p 0 2) s) := by
    rw [closed, closeSeq_eq (s := startCmd u s) hx]
    exact givePages_startCmd u _ _ (unlisted (c.p 0 2) s)
  have kept : (closeSeq (c.p 0 2) s).cmd? u = some c := by
    rw [closed]
    exact cmd?_givePages (s := unlisted (c.p 0 2) s) h.found (by simp [h.fetched]) ..
  have done := h.completes (t := closeSeq (c.p 0 2) s) (body := fun c s =>
    checked u [(ownSeq s c (c.p 0 2), inParams c 0)] s fun s => withMap [c.p 0 2] s (poisonEnd u) fun s =>
      completeOk u (closeSeq (c.p 0 2) s)) ?_ kept
  · refine ⟨_, rfl, done, ?_⟩
    have seqs := done.same.seqs
    rw [seqs, closed, seqs_givePages]
    exact tget?_tdel_self s.seqs _
  · have own' : ownSeq (startCmd u s) c (c.p 0 2) = true := own
    rw [checked_ok _ _ _ _ (by simp [failing, own']), withMap_sound (sound.startCmd u), started]

/-! #### KV_POLICY -/

/-- KV_POLICY of an OP completes where its meaning does. -/
theorem Startable.policyCompletes {t : State} {op : Nat → Bool} {body : Cmd → State → State} (h : Startable u opKvPolicy c s)
    (hop : op (c.p 0 1) = true) (done : body c (startCmd u s) = completeOk u (startCmd u t)) (kept : t.cmd? u = some c) :
    Completes c stOk 0 t (onPolicy u op s body) := by
  unfold onPolicy
  rw [h.found]
  dsimp only
  rw [if_pos hop]
  exact h.completes done kept

/-- The check of a linear sequence of the command's own context. -/
theorem linear_startCmd {q : Nat} {x : Seq} (u : Nat) (hx : tget? s.seqs q = some x) (own : x.ctx = c.ctx) (ring : x.ring = false) :
    (ownSeq (startCmd u s) c q && !(tget (startCmd u s).seqs q {}).ring) = true := by
  have found : ownSeq (startCmd u s) c q = true := ownSeq_iff (s := startCmd u s).2 ⟨x, hx, own⟩
  have entry : tget (startCmd u s).seqs q {} = x := by
    show tget s.seqs q {} = x
    simp [tget, hx]
  simp [found, entry, ring]

theorem kvWait_completes (h : Startable u opKvPolicy c s) (op : c.p 0 1 = 0) (hq : c.p 2 2 = 0xFFFF)
    (us : c.p 8 4 ≤ 1000000) : ∃ t, Answers (.kvPolicySet u) s t ∧
      Completes c stOk 0 (s.modCtx c.ctx fun x => { x with kvWaitUs := c.p 8 4 }) t := by
  refine ⟨_, rfl, h.policyCompletes (by simp [op]) ?_ h.found⟩
  dsimp only
  rw [if_pos (by simp [hq, op]), checked_ok _ _ _ _ (by simp [failing, us])]
  rfl

theorem kvPolicySet_completes {x : Seq} (h : Startable u opKvPolicy c s) (op : c.p 0 1 = 0) (hq : c.p 2 2 ≠ 0xFFFF)
    (hx : tget? s.seqs (c.p 2 2) = some x) (own : x.ctx = c.ctx) (ring : x.ring = false) (recent : c.p 4 1 ≤ 64)
    (low : 1 ≤ c.p 5 1) (high : c.p 5 1 ≤ 7) (init : c.p 6 2 < 1024) :
    ∃ t, Answers (.kvPolicySet u) s t ∧ Completes c stOk 0 (listed (c.p 2 2) { x with
      evict := bitOf (c.p 1 1) 0, pinRecent := c.p 4 1, scoreShift := c.p 5 1, scoreInit := c.p 6 2 } s) t := by
  refine ⟨_, rfl, h.policyCompletes (by simp [op]) ?_ h.found⟩
  have linear := linear_startCmd u hx own ring
  have set (f : Seq → Seq) : (startCmd u s).modSeq (c.p 2 2) f = startCmd u (listed (c.p 2 2) (f x) s) := by
    show { startCmd u s with seqs := tmod s.seqs (c.p 2 2) f } = _
    rw [show tmod s.seqs (c.p 2 2) f = tset s.seqs (c.p 2 2) (f x) by simp [tmod, hx]]
    rfl
  dsimp only
  rw [if_neg (by simp [hq]), checked_ok _ _ _ _ (by simp [failing, op, linear, recent, low, high, init]), set]

theorem grantable_startCmd (u p : Nat) (s : State) : grantable (startCmd u s) p = grantable s p := by
  have secured : (startCmd u s).inflight.all (fun d => d.secured.all fun x => x.page != some p) =
      s.inflight.all fun d => d.secured.all fun x => x.page != some p := by
    have kept := map_startCmd (u := u) (s := s) (f := fun d => d.secured.all fun x => x.page != some p) fun d => by simp
    simpa [List.all_map, Function.comp_def] using congrArg (List.all · id) kept
  unfold grantable
  rw [secured]
  rfl

theorem poolGrant_completes (h : Startable u opKvPolicy c s) (op : c.p 0 1 = 1) (low : 1 ≤ c.p 20 4) (high : c.p 20 4 ≤ 524224)
    (pages : ∀ p ∈ (List.range (c.p 20 4)).map (c.p 16 4 + ·), grantable s p = true) :
    ∃ t, Answers (.poolGrant u) s t ∧
      Completes c stOk 0 (givePages c.ctx ((List.range (c.p 20 4)).map (c.p 16 4 + ·)) s) t := by
  refine ⟨_, rfl, h.policyCompletes (by simp [op]) ?_ (cmd?_givePages h.found (by simp [h.fetched]) ..)⟩
  have all : ((List.range (c.p 20 4)).map (c.p 16 4 + ·)).all (grantable (startCmd u s)) = true :=
    List.all_eq_true.2 fun p hp => (grantable_startCmd u p s).trans (pages p hp)
  dsimp only
  rw [checked_ok _ _ _ _ (by simp only [failing, all, low, high]; simp), givePages_startCmd]

/-- PIN and UNPIN of a live block set its entry. -/
theorem setPin_completes {op : Nat → Bool} {x : Seq} {e : Nat × MapEntry} (h : Startable u opKvPolicy c s) (sound : WellsSound s)
    (hop : op (c.p 0 1) = true) (hx : tget? s.seqs (c.p 2 2) = some x) (own : x.ctx = c.ctx) (ring : x.ring = false)
    (live : (liveEntries s (c.p 2 2)).find? (fun e => e.2.block == c.p 12 2) = some e) (on : Bool) :
    Completes c stOk 0 { s with map := tset s.map e.1 { e.2 with pin := on } } (onPolicy u op s fun c s =>
      checked u (pinChecks s c) s fun s => withMap [c.p 2 2] s (poisonEnd u) (setPin u c on)) := by
  refine h.policyCompletes hop ?_ h.found
  have ok : failing (pinChecks (startCmd u s) c) = [] := by
    have linear := linear_startCmd u hx own ring
    simp [failing, pinChecks, linear]
  rw [checked_ok _ _ _ _ ok, withMap_sound (sound.startCmd u)]
  unfold setPin
  have live' : (liveEntries (startCmd u s) (c.p 2 2)).find? (fun e => e.2.block == c.p 12 2) = some e := live
  dsimp only
  rw [live']
  rfl

end

end Sys2Proof.Machine
end

section
/-! ### RUN, the waits for pages and the random state (R117 to R131, R203 to R205, R270) -/
namespace Sys2Proof.Machine

section
variable {u : Nat} {c : Cmd} {s r : State}

/-! #### RUN -/

/-- The checks of a RUN without a group hold, and its plan waits for cores (R270). -/
theorem runChecked_ready {p : Plan} {ab : Block} {x : Ctx} (hx : s.ctx? c.ctx = some x)
    (checks : failing ((if c.p 8 8 == 0 then [] else runArgChecks ab) ++ planChecks s c x p false p.tokens ++
      kvChecks s c p (if c.p 8 8 == 0 then {} else runArgsOf ab) ++
      chunkChecks s c x (if c.p 8 8 == 0 then {} else runArgsOf ab)) = [])
    (loud : c.p 8 8 = 0 ∨ silenced s c.ctx = false) : runChecked u c p ab none s = runReady u p ab none s := by
  unfold runChecked
  rw [hx]
  simp only [List.append_nil, checks]
  rw [if_neg]
  rcases loud with none | loud <;> simp [*]

/-- A plan that is ready touches its own command only. -/
theorem ready_answers {p : Plan} {i : Instr} {d : Cmd} {ab : Block} (hc : r.cmd? u = some d)
    (answers : Answers i s (runReady u p ab none r)) : ∃ t, Answers i s t ∧ t = { r with inflight := t.inflight } ∧
      (t.cmd? u).map (fun d => (d.phase, d.plan, d.argBlock)) = some (.ready, some p, some ab) := by
  refine ⟨_, answers, rfl, ?_⟩
  unfold runReady
  dsimp only
  rw [cmd?_modCmd _ (by intros; rfl), hc]
  rfl

theorem cmd?_of_readAt {ad : Addr} {n : Nat} {g : Got} (read : readAt ad n s = (g, r)) (hc : s.cmd? u = some c) :
    ∃ d, r.cmd? u = some d := by
  have kept := roster_readAt ad n s
  rw [read] at kept
  obtain ⟨d, hd, -⟩ := cmd?_of_roster (congrArg Prod.fst kept) hc
  exact ⟨d, hd⟩

theorem run_plain_ready {p : Plan} {x : Ctx} (h : Startable u opRun c s) (hx : s.ctx? c.ctx = some x)
    (hw : wellOk s (c.p 0 8) 1 = true) (group : c.p 24 8 = 0) (args : c.p 8 8 = 0)
    (checks : failing (planChecks s c x p false p.tokens ++ kvChecks s c p {}) = []) :
    ∃ t, Answers (.run u p) s t ∧ t = { s with inflight := t.inflight } ∧
      (t.cmd? u).map (fun d => (d.phase, d.plan, d.argBlock)) = some (.ready, some p, some []) := by
  refine ready_answers h.found ?_
  show execRun u p s = _
  rw [← runChecked_ready hx (by simpa [args, chunkChecks] using checks) (.inl args)]
  unfold execRun
  rw [h.found]
  dsimp only
  rw [if_pos h.guard]
  simp [failing, hw, group, args, runGroup]

theorem run_block_ready {p : Plan} {x : Ctx} {ad : Addr} {ab : Block} (h : Startable u opRun c s)
    (hw : wellOk s (c.p 0 8) 1 = true) (group : c.p 24 8 = 0) (args : c.p 8 8 ≠ 0) (ha : typedAddr (c.p 8 8) = some ad)
    (ok : addrOk s ad (64 + 16 * min 128 (field (peekAt s (c.p 8 8) 2) 0 2)) = true)
    (read : readAt ad (64 + 16 * min 128 (field (peekAt s (c.p 8 8) 2) 0 2)) s = (.bytes ab, r)) (hx : r.ctx? c.ctx = some x)
    (checks : failing (runArgChecks ab ++ planChecks r c x p false p.tokens ++ kvChecks r c p (runArgsOf ab) ++
      chunkChecks r c x (runArgsOf ab)) = []) (loud : silenced r c.ctx = false) :
    ∃ t, Answers (.run u p) s t ∧ t = { r with inflight := t.inflight } ∧
      (t.cmd? u).map (fun d => (d.phase, d.plan, d.argBlock)) = some (.ready, some p, some ab) := by
  obtain ⟨d, hd⟩ := cmd?_of_readAt read h.found
  refine ready_answers hd ?_
  show execRun u p s = _
  rw [← runChecked_ready hx (by simpa [args] using checks) (.inr loud)]
  have typed : typedOk s (c.p 8 8) (64 + 16 * min 128 (field (peekAt s (c.p 8 8) 2) 0 2)) = true := by
    unfold typedOk
    rw [ha]
    exact ok
  unfold execRun
  rw [h.found]
  dsimp only
  rw [if_pos h.guard]
  simp [failing, hw, group, typed, args, ha, withObject, read, runGroup]

/-! #### The waits for pages -/

theorem answers_retry (serves : s.dev.mode = .serving) : Answers (.kvSecureRetry u) s (kvRetry u s) := by
  show execKvSecureRetry u s = _
  simp [execKvSecureRetry, State.serving, serves]

/-- A command that does not wait for pages neither tries again nor runs out of time. -/
theorem idle_answers (serves : s.dev.mode = .serving) (hc : s.cmd? u = some c) (hp : c.phase ≠ .kvWait) :
    Answers (.kvSecureRetry u) s s ∧ Answers (.kvWaitTimeout u) s s := by
  constructor
  · have retry := answers_retry (u := u) serves
    rwa [kvRetry_idle fun d hd => by rw [hc] at hd; cases hd; exact hp] at retry
  · show execKvWaitTimeout u s = _
    simp [execKvWaitTimeout, hc, hp]

/-- A command that secures its pages goes on, at a retry and at its last attempt, and its pool holds what is left. -/
theorem secured_goesOn {got : List Secured} {pool : List Nat} (serves : s.dev.mode = .serving) (hc : s.cmd? u = some c)
    (hp : c.phase = .kvWait) (ok : securing s c = .ok (got, pool)) (i : Instr)
    (hi : i ∈ [Instr.kvSecureRetry u, .kvWaitTimeout u]) : ∃ t, Answers i s t ∧
      t = { s with inflight := t.inflight, ctxs := t.ctxs } ∧ (∀ x, s.ctx? c.ctx = some x → poolOf t c.ctx = pool) ∧
      (t.cmd? u).map (fun d => (d.phase, d.secured, d.waitsOn)) = some (.ready, got, none) := by
  have retry : Answers (.kvSecureRetry u) s (pagesGranted u c.ctx got pool s) := kvRetry_ok hc hp ok ▸ answers_retry serves
  have last : Answers (.kvWaitTimeout u) s (pagesGranted u c.ctx got pool s) := by
    obtain ⟨t, tried, granted⟩ := trySecure_ok hc ok
    show execKvWaitTimeout u s = _
    simp [execKvWaitTimeout, hc, hp, State.serving, serves, tried, granted]
  refine ⟨pagesGranted u c.ctx got pool s, ?_, rfl, fun x hx => ?_, ?_⟩
  · simp only [List.mem_cons, List.not_mem_nil, or_false] at hi
    rcases hi with rfl | rfl
    · exact retry
    · exact last
  · have hx' : tget? s.ctxs c.ctx = some x := hx
    simp [poolOf, pagesGranted, State.ctx?, tget?_tmod, hx']
  · have found : (s.modCtx c.ctx fun x => { x with pool := pool }).cmd? u = some c := hc
    rw [pagesGranted, cmd?_modCmd _ (by intros; rfl), found]
    rfl

/-- A retry that fails leaves the command waiting. -/
theorem unsecured_waits {k : Nat} (serves : s.dev.mode = .serving) (hc : s.cmd? u = some c) (hp : c.phase = .kvWait)
    (error : securing s c = .error k) : ∃ t, Answers (.kvSecureRetry u) s t ∧ t = { s with inflight := t.inflight } ∧
      (t.cmd? u).map (fun d => (d.phase, d.waitsOn)) = some (.kvWait, some k) := by
  refine ⟨_, kvRetry_error hc hp error ▸ answers_retry serves, rfl, ?_⟩
  rw [cmd?_modCmd _ (by intros; rfl), hc]
  simp [hp]

/-- A last attempt that fails ends the command. -/
theorem unsecured_ends {k : Nat} (serves : s.dev.mode = .serving) (hc : s.cmd? u = some c) (hp : c.phase = .kvWait)
    (error : securing s c = .error k) : ∃ t, Answers (.kvWaitTimeout u) s t ∧ ∀ d ∈ t.inflight, d.uid ≠ u := by
  have ends : retire u stKvFull k s = retireOnly u stKvFull k s := by
    unfold retire
    rw [hc]
    exact if_neg (by simp [isFault, stKvFull, stScaleSkew, stContextFault, stPoison, stDieLost])
  refine ⟨retireOnly u stKvFull k s, ?_, gone_retireOnly u stKvFull k s⟩
  show execKvWaitTimeout u s = _
  simp [execKvWaitTimeout, hc, hp, State.serving, serves, trySecure_error hc error, ends]

/-! #### The random state -/

theorem rngKey_completes (h : Startable u opRngKey c s)
    (idle : (s.loops.filter (fun e => e.2.ctx == c.ctx && !e.2.stopped && !e.2.dead)).map Prod.fst = []) :
    ∃ t, Answers (.rngKey u) s t ∧ Completes c stOk 0 (s.modCtx c.ctx fun x => { x with key := padTo 32 c.params }) t := by
  refine ⟨_, rfl, h.completes ?_ h.found⟩
  have idle' : ((startCmd u s).loops.filter (fun e => e.2.ctx == c.ctx && !e.2.stopped && !e.2.dead)).map Prod.fst = [] := idle
  dsimp only
  rw [idle']
  rfl

/-- RNG_KEY waits for the loops that run, the new key in force. -/
theorem rngKey_waits (h : Startable u opRngKey c s) {ls : List Nat}
    (running : (s.loops.filter (fun e => e.2.ctx == c.ctx && !e.2.stopped && !e.2.dead)).map Prod.fst = ls) (any : ls ≠ []) :
    ∃ t, Answers (.rngKey u) s t ∧
      t = { s.modCtx c.ctx (fun x => { x with key := padTo 32 c.params }) with inflight := t.inflight } ∧
      (t.cmd? u).map (fun d => (d.phase, d.waitLoops)) = some (.accepted, ls) := by
  have waits : Answers (.rngKey u) s ((startCmd u (s.modCtx c.ctx fun x => { x with key := padTo 32 c.params })).modCmd u
      fun d => { d with phase := .accepted, waitLoops := ls }) := by
    refine congrArg Host.Outcome.next ((onStart_eq h _).trans ?_)
    have running' : ((startCmd u s).loops.filter (fun e => e.2.ctx == c.ctx && !e.2.stopped && !e.2.dead)).map Prod.fst = ls :=
      running
    dsimp only
    rw [running', if_neg (by simpa using any)]
    rfl
  refine ⟨_, waits, rfl, ?_⟩
  have found : (startCmd u (s.modCtx c.ctx fun x => { x with key := padTo 32 c.params })).cmd? u = _ := cmd?_startCmd h.found
  rw [cmd?_modCmd _ (by intros; rfl), found]
  rfl

theorem rngStateGet_completes {y : Ctx} {l : Option (Nat × Loop)} (h : Startable u opRngStateGet c s) (hy : s.ctx? c.ctx = some y)
    (names : l = none ∧ c.p 8 2 = 0xFFFF ∧ tget? s.loops (c.p 8 2) = none ∨
      ∃ x, l = some (c.p 8 2, x) ∧ tget? s.loops (c.p 8 2) = some x ∧ x.ctx = c.ctx ∧ x.dead = false)
    (aligned : c.p 0 8 % 64 = 0) (fits : c.p 0 8 + (rngRecord y l).length ≤ 2 ^ 52) :
    ∃ t, Answers (.rngStateGet u) s t ∧ Completes c stOk 0 (hostWrite (c.p 0 8) (rngRecord y l) s) t := by
  refine ⟨_, rfl, h.completes ?_ h.found⟩
  have hy' : (startCmd u s).ctx? c.ctx = some y := hy
  have host : hostOk (c.p 0 8) (rngRecord y l).length = true := decide_eq_true fits
  dsimp only
  rw [hy']
  dsimp only
  rcases names with ⟨rfl, hl, hn⟩ | ⟨x, rfl, hx, own, alive⟩
  · have hn' : tget? (startCmd u s).loops (c.p 8 2) = none := hn
    simp only [hn', Option.map_none]
    rw [checked_ok _ _ _ _ (by simp [failing, aligned, host, hl])]
    rfl
  · have hx' : tget? (startCmd u s).loops (c.p 8 2) = some x := hx
    simp only [hx', own, alive, beq_self_eq_true, Bool.not_false, Bool.and_self, if_true, Option.map_some]
    rw [checked_ok _ _ _ _ (by simp [failing, aligned, host])]
    rfl

end

end Sys2Proof.Machine
end

section
/-! ### The obligation -/
namespace Sys2Proof.Machine

/-- Settles O52: each command that completes does so over an effect that commutes with its start, and a command that waits
touches itself and, for a key or for pages, its context. -/
theorem runAndStoreCommandsComplete : Obligations.RunAndStoreCommandsComplete := by
  unfold Obligations.RunAndStoreCommandsComplete
  intro s r u c upsets poison pages gone q
  have sound : WellsSound s := ⟨upsets, poison, pages⟩
  refine ⟨fun p x h hx hw group => ⟨fun args checks => ?_, fun ad ab args ha => run_block_ready h hw group args ha⟩,
    fun base h hq new checks span => ?_, fun h own => kvSeqClose_completes h sound own,
    fun h op => ⟨kvWait_completes h op, fun x hq hx own ring => kvPolicySet_completes h op hq hx own ring⟩,
    fun h op low high => poolGrant_completes h op low high, fun x e h hx own ring live => ⟨fun op => ?_, fun op => ?_⟩,
    fun hc serves => ⟨idle_answers serves hc, fun hp => ⟨fun got pool => secured_goesOn serves hc hp, fun k error =>
      ⟨unsecured_waits serves hc hp error, unsecured_ends serves hc hp error⟩⟩⟩,
    fun h => ⟨rngKey_completes h, rngKey_waits h rfl⟩, fun y l => rngStateGet_completes⟩
  · obtain ⟨t, answers, only, ready⟩ := run_plain_ready h hx hw group args checks
    refine ⟨t, answers, only, ?_⟩
    simpa using congrArg (Option.map fun d => (d.1, d.2.1)) ready
  · have done := kvSeqOpen_completes h hq new checks span
    refine ⟨fun ring => ?_, fun ring pages => ?_⟩
    · have linear := done fun h => absurd (ring.symm.trans h) Bool.false_ne_true
      rwa [seqOpened, if_neg (by simpa using ring)] at linear
    · have filled := done fun _ => pages
      rwa [seqOpened, if_pos ring] at filled
  · exact ⟨_, rfl, setPin_completes h sound (by simp [op]) hx own ring live true⟩
  · exact ⟨_, rfl, setPin_completes h sound (by simp [op]) hx own ring live false⟩

end Sys2Proof.Machine
end
